-- ==== Sys2Proof/Word.lean ====
section
/-! DEFINITION. The word types of the engine: bytes, register words, codewords and flits. -/

namespace Sys2Proof

/-- A byte of block memory, of a record or of an image (R8). -/
abbrev Byte := BitVec 8

/-- A BAR0 register (R470). -/
abbrev Word := BitVec 32

/-- The data bits of a block-memory codeword (R96). -/
abbrev Codeword := BitVec 64

/-- A link unit: data in [31:0], end mark in [32], lane in [35:33] (R58, R132). -/
abbrev Flit := BitVec 36

/-- The 72 data wires of one link direction (R55). -/
abbrev Wires := BitVec 72

/-- An A32 pattern: the internal accumulator format of R107. -/
abbrev A32 := BitVec 32

end Sys2Proof
end

