-- ==== Sys2Proof/Syntax.lean ====
section
/-! DEFINITION. The commands of the block: one constructor of `Instr` per row of spec/opcode_table.json, with the
operands each takes. An operand carries what comes from outside the block (a register value, a packet, a flit) or what a
physical test or a cryptographic check answers, which the spec names but cannot compute (log entry 1). -/

namespace Sys2Proof

abbrev PartId := Fin 8
abbrev RegionId := Fin 20
abbrev BayId := Fin 8
abbrev ImgId := Fin 16
abbrev SndId := Fin 8
abbrev EncId := Fin 4
abbrev PinId := Fin 32
abbrev SiteId := Fin 80

/-- A compass direction; the order N, E, S, W is the bit order of R43, R44 and R202. -/
inductive Dir where
  | n | e | s | w
deriving DecidableEq, Repr

/-- The five ports of a router (R102). -/
inductive Port where
  | side (d : Dir)
  | loc
deriving DecidableEq, Repr

/-- A logical tile (x, y), x 0-599 eastward and y 0-479 southward. -/
structure TileAt where
  x : Nat
  y : Nat
deriving DecidableEq, Repr

/-- The two span ports (R403). -/
inductive SpanPort where
  | spa | spb
deriving DecidableEq, Repr

/-- What the SECDED check of a codeword found (R100). -/
inductive EccRead where
  | clean | single | double
deriving DecidableEq, Repr

/-- What the neighbour test of one site saw (R31, R32). Reports not listed are passes. -/
structure SiteFindings where
  /-- tiles (px, py) that return no report as testers -/
  silent : List (Nat × Nat)
  /-- (tile, side of its tester): that tester reports the tile failing -/
  fails : List ((Nat × Nat) × Dir)
  /-- tiles that fail the controller's direct test -/
  direct : List (Nat × Nat)
  /-- skipped rows and columns whose bypass switches fail their test (R34) -/
  badBypassRows : List Nat
  badBypassCols : List Nat
deriving DecidableEq, Repr

/-- Bad wires found on one stitched edge: (wire group, bad wires in it) (R30). `d` is E or S of `site`. -/
structure EdgeFindings where
  site : SiteId
  d : Dir
  groups : List (Nat × Nat)
deriving DecidableEq, Repr

/-- What the wafer tests of a power-up or of an in-field re-test found (R31-R36, R74). What is not listed passes. -/
structure WaferFindings where
  sites : List (SiteId × SiteFindings)
  edges : List EdgeFindings
  hops : List (SiteId × Dir)
  couplings : List (SiteId × Dir)
  entries : List (Fin 4)
  supplyOut : List RegionId
deriving DecidableEq, Repr

/-- What the secure element of a cartridge answered (R241, R242). -/
structure IdentityObs where
  /-- the random nonce that the challenge draws -/
  nonce : List Byte
  /-- its responses in order, each with its CRC-8; one that does not come is empty -/
  answers : List (List Byte)
deriving DecidableEq, Repr

/-- What the NVMe controller of a cartridge answered (R224 steps 6 and 7). -/
structure NvmeObs where
  mqes : Nat
  capTo : Nat
  mdtsKiB : Nat
  /-- logical block 0 of namespace 1 (R233) -/
  directory : List Byte
  /-- the 512-byte blocks of the ring of life records (R249) -/
  lifeRing : List (List Byte)
  smartCritical : Nat
  smartUsed : Nat
deriving DecidableEq, Repr

/-- A command that the engine issues to a cartridge's NVMe controller (R229). -/
structure NvmeCmd where
  admin : Bool
  opcode : Nat
  ns : Nat := 0
  /-- CNS, FID, LID, or the depth of a queue -/
  arg : Nat := 0
  /-- first logical block and number of blocks of a read or write -/
  lba : Nat := 0
  blocks : Nat := 0
  /-- bytes that a write carries -/
  data : List Byte := []
deriving DecidableEq, Repr

/-- What a load request reads before streaming: the chunks, ciphertext and tag, that hold the file header and the records up to the
end of the contract section (R239, R254, R288 checks 1-3). -/
structure LoadObs where
  front : List (List Byte × List Byte)
deriving DecidableEq, Repr

/-- One occupied bay at power-up: what its insertion sequence answers (R289 steps 3 and 8). -/
structure CartBoot where
  bay : BayId
  linkWidth : Nat
  linkGen : Nat
  identity : IdentityObs
  nvme : NvmeObs
  load : LoadObs
deriving DecidableEq, Repr

/-- What the unit finds while it comes up (R289). -/
structure PowerUp where
  /-- signature and CRC of the slot that boots verify (step 2) -/
  fwOk : Bool
  findings : WaferFindings
  /-- defect-map copies whose header CRC fails, and the SEQs of history records whose CRC fails (R47, R48) -/
  badMaps : List (Fin 2)
  badRecs : List Nat
  /-- microcode epoch of every site, then the sites that differ (step 7) -/
  microEpoch : Nat
  microOdd : List (SiteId × Nat)
  /-- reservoir test of R444: capacitance in mF, ESR in 0.1 milliohm, module present -/
  resC : Nat
  resEsr : Nat
  resPresent : Bool
  linkGen : Nat
  linkWidth : Nat
  bays : List CartBoot
deriving DecidableEq, Repr

/-- One item of host power policy (R433). -/
inductive PolicyItem where
  | cap | ctrl | prio (p : PartId) | margin (p : PartId)
deriving DecidableEq, Repr

/-- What the encoder decoder saw (R378). -/
inductive EncMove where
  | aLeads | bLeads | illegal
deriving DecidableEq, Repr

inductive EncSignal where
  | a | b | z
deriving DecidableEq, Repr

inductive EncReg where
  | ctrl | div
deriving DecidableEq, Repr

/-- How FSYNC fell in a TDM frame (R349). -/
inductive FrameSync where
  | good | missed | frameError | rateError
deriving DecidableEq, Repr

/-- Causes of a failed camera bring-up (R324). -/
inductive BringupCause where
  | noDevice | linkConfig | scriptCompare | timeout | formatMismatch
deriving DecidableEq, Repr

/-- How a line stood as it began at a camera port (R329). -/
inductive LineStart where
  /-- a trigger waited for it and has not been declared missing since -/
  | awaited
  /-- no trigger waited: an extra line -/
  | unasked
  /-- its trigger has been declared missing since: a late line -/
  | overtaken
deriving DecidableEq, Repr

/-- Why a span link is lost (R421). -/
inductive LinkLossReason where
  | blockLock | silence | resends | serialChanged
deriving DecidableEq, Repr

/-- What a datapath step meets in block memory (R98, R100). What a step does is the configuration's. -/
structure StepObs where
  /-- what its codeword reads found, in the order in which it makes them; reads not listed are clean -/
  ecc : List EccRead
  /-- a port B write to the codeword that its port A write touches overlaps in time -/
  collided : Bool
deriving DecidableEq, Repr

/-- How the write-back of a scrub read went (R98, R101). -/
inductive WriteBack where
  | landed
  /-- port A wrote the codeword between the read and the write-back -/
  | overtaken
  /-- a port A write to the codeword overlaps it in time -/
  | collided
deriving DecidableEq, Repr

/-- A background scrub: what its read found, and how its write-back went (R98, R101). -/
structure ScrubObs where
  ecc : EccRead
  write : WriteBack
deriving DecidableEq, Repr

/-- An NVMe command of a bay (R229, R231). -/
structure BayCmd where
  bay : BayId
  cmd : NvmeCmd
deriving DecidableEq, Repr

/-- The end of a scrub after a commit: its partition, and the regions beyond L' whose read-back failed twice (R212, R213). -/
structure ScrubEnd where
  part : PartId
  failed : List RegionId
deriving DecidableEq, Repr

/-- A sag's outcome: the bays whose cartridge takes its life record in time, whether it tears a defect-map write, and whether the
reservoir lasts for the save (R47, R439, R440, R442). -/
structure SagObs where
  written : List BayId
  tornMap : Bool
  saved : Bool
deriving DecidableEq, Repr

/-- A camera at the end of a bring-up: its Bayer phase, and what its script read, by entry (R323, R324). -/
structure BringupObs where
  bayer : Option (Fin 4)
  reads : List (List Word)
deriving DecidableEq, Repr

/-- A host access to BAR0: its address and its size in bytes (R470). -/
structure RegAccess where
  addr : Nat
  bytes : Nat
deriving DecidableEq, Repr

/-- What a verified firmware build carries: epoch, version and its two tested sets (R290). -/
structure FwInfo where
  epoch : Nat
  minor : Nat
  major : Nat
  microSet : List Nat
  formatSet : List Nat
deriving DecidableEq, Repr

/-- The commands: one constructor per row of the opcode table. -/
inductive Instr where
  | unitPowerUp (e : PowerUp)
  | healthCheck (stepsDone watchdogServiced : Bool)
  | watchdog
  | meshLock
  | referenceLost
  | referenceBack (ppb : Int)
  | tbsSrcWrite (v : Word)
  | tileStep (t : TileAt) (o : StepObs)
  | flitReceived (t : TileAt) (port : Port) (wires : Wires) (ecc : EccRead)
  | creditFlitReceived (t : TileAt) (d : Dir) (wires : Wires)
  | contextSwitch (p : PartId) (failedGroup : Option Nat)
  | backgroundScrub (t : TileAt) (o : ScrubObs)
  | stallDetectorTick (p : PartId)
  | detectionWindowExpiry (p : PartId) (cycle : Nat)
  | stallSample
  | progressWatchdog (p : PartId)
  | verdictRelease (p : PartId)
  | pinPulseEnd (pin : PinId)
  | presenceDebounceEnd (b : BayId)
  | bayPowerGood (b : BayId) (o : IdentityObs)
  | perstRelease (b : BayId) (width gen : Nat)
  | nvmeReady (b : BayId) (o : NvmeObs)
  | loadHandover (b : BayId) (o : LoadObs)
  | nvmeCommandCompletion (c : BayCmd) (ok : Bool)
  | nvmeCommandTimeout (c : BayCmd)
  | removed (b : BayId)
  | overcurrent (b : BayId)
  | poweredHour (b : BayId)
  | smartReadPeriod (b : BayId) (critical used : Nat)
  | periodicLifeRecord (b : BayId)
  | reload (p : PartId) (o : LoadObs)
  | unload (p : PartId)
  | queuedRequestStart (p : PartId) (o : LoadObs)
  | autoReload (p : PartId) (o : LoadObs)
  | placementRetry (p : PartId)
  | loadLaneGranted (p : PartId)
  | preLoadScrubDone (p : PartId) (failed : List RegionId)
  | chunkDecrypted (p : PartId) (cipher tag : List Byte)
  | loadRecord (p : PartId) (readsBack : Bool) (collided : List (TileAt × Nat))
  | endOfStreamChecks (p : PartId) (refused : Option Nat)
  | lupinStageAck (p : PartId) (failedGroup : Option Nat)
  | releaseFailed (p : PartId)
  | drainComplete (p : PartId)
  | unloadScrubDone (p : PartId) (failed : List RegionId)
  | postCommitScrubDone (o : ScrubEnd)
  | spanTimeout (p : PartId)
  | apply (p : PartId) (v : Word)
  | prtTunWrite (p : PartId) (n : Fin 32) (v : Word)
  | rgnTest (r : RegionId) (v : Word)
  | inFieldRetestDone (r : RegionId) (f : WaferFindings) (aborted : Bool)
  | rateLoopTick (busy : List (RegionId × Nat))
  | currentCeilingTick (amps : List (RegionId × Nat))
  | throttleTick (temps : List (RegionId × Int))
  | heatShed (r : RegionId) (reading : Int)
  | heatShedRecheck (r : RegionId) (hottest : Int)
  | policyWrite (item : PolicyItem) (v : Word)
  | policyEpoch
  | capLoopTick (watts : Nat)
  | short (r : RegionId)
  | supplySag (overvoltage : Bool) (o : SagObs)
  | reservoirExhausted
  | inputOutOfRange (decivolts : Nat)
  | coolingMeasurement (inlet outlet : Int) (flow : Nat) (glycol : Bool)
  | cxpBringupComplete (c : ImgId) (o : BringupObs)
  | cxpBringupFailed (c : ImgId) (cause : BringupCause)
  | encoderCount (e : EncId) (m : EncMove)
  | encoderZEdge (e : EncId)
  | encoderOpen (e : EncId) (sig : EncSignal) (isOpen : Bool)
  | encConfigWrite (e : EncId) (r : EncReg) (v : Word)
  | cxpLineReceived (c : ImgId) (pixels : List Nat) (crcOk : Bool) (start : LineStart)
  | cxpImageHeader (c : ImgId) (format width : Nat) (bayer : Option (Fin 4))
  | imgEvent (c : ImgId) (id : Nat) (data : List Byte)
  | linkDown (c : ImgId)
  | reconnectionAttempt (c : ImgId) (reads : Option (List (List Word)))
  | dcPresent (c : ImgId) (on : Bool)
  | soundFrame (s : SndId) (slots : List Int) (sync : FrameSync) (milliHz : Nat)
  | clockLost (s : SndId)
  | clockReturn (s : SndId)
  | clockMismatch (s : SndId) (mismatch : Bool)
  | asrcLock (s : SndId)
  | soundStartT0 (p : PartId)
  | soundBlockDelivered (s : SndId)
  | outputPlayCheck (s : SndId)
  | soundStop (s : SndId)
  | pageFlush (p : PartId)
  | verdictCreditRefill
  | pageDelivered (p : PartId)
  | irqHoldoffEnd (p : PartId)
  | expCtrlWrite (p : PartId) (v : Word)
  | expHeadWrite (p : PartId) (v : Word)
  | hostLinkDown
  | evidenceCropReceived (p : PartId) (flits : List Flit)
  | evidenceMatchTimeout (p : PartId)
  | vrdAllocWrite (i : Fin 8) (v : Word)
  | spanLinkUp (s : SpanPort)
  | spanDataFrame (s : SpanPort) (frame : List Byte) (fecOk : Bool)
  | spanIdleFrame (s : SpanPort) (frame : List Byte)
  | spanDescriptorFrame (s : SpanPort) (frame : List Byte) (fecOk : Bool)
  | hello (s : SpanPort) (serial : BitVec 64)
  | ready (s : SpanPort) (position units : Nat) (dready : Bool) (spanId : BitVec 64)
  | go (s : SpanPort) (spanId : BitVec 64)
  | abort (s : SpanPort) (cause : Nat) (spanId : BitVec 64)
  | leave (s : SpanPort) (spanId : BitVec 64)
  | time (s : SpanPort) (dLast : Int) (tTx : Nat)
  | spanHelloPeriod (s : SpanPort)
  | spanReadyPeriod (p : PartId)
  | spanTimePeriod (s : SpanPort)
  | spanLost (s : SpanPort) (why : LinkLossReason)
  | censusRequest (p : PartId) (v : Word)
  | censusPeriodWrite (p : PartId) (v : Word)
  | censusTick (p : PartId)
  | censusCollected (p : PartId)
  | fltSelWrite (v : Word)
  | loRegisterRead (a : RegAccess)
  | fwOpen
  | fwWrite
  | fwClose
  | fwActivate (slotB : Bool)
  | registerWrite (a : RegAccess) (v : Word)
  | presenceAsserted (b : BayId)
  | fwCommandDone (verified : Bool) (info : FwInfo)
  | reservoirCharged (reached : Bool)
  | hostLinkUp (gen width : Nat)
  | heartbeat (c : ImgId)
  | unsupportedPacket (c : ImgId)
deriving DecidableEq, Repr

end Sys2Proof
end

