-- ==== Sys2Proof/Decode.lean ====
section
/-! DEFINITION. The commands a word of the opcode table spells. The table gives no row any bits: every row's operands come
over a port, a bus or a register write, so no word spells a command. -/

namespace Sys2Proof

/-- The rows of spec/opcode_table.json that give bits, as (width, command); the table has none. -/
def tableWords : List (Nat × Nat × Instr) := []

/-- The command that the `nbits` bits `w` spell by the table. -/
def decodeTableWord (nbits w : Nat) : Option Instr :=
  (tableWords.find? (fun r => r.1 = nbits && r.2.1 = w)).map (·.2.2)

end Sys2Proof
end

