-- ==== Sys2Proof/Machine/Bits.lean ====
section
/-! DEFINITION. Bit fields, byte order and check codes (R8, R41, R241, R410; CRC-32C of R42 and SHA-256 of R258). -/

namespace Sys2Proof.Machine

/-- Field [hi:lo] of a number (R8). -/
def field (v hi lo : Nat) : Nat := v / 2 ^ lo % 2 ^ (hi + 1 - lo)

/-- Bit `i` of a number. -/
def bitOf (v i : Nat) : Bool := v.testBit i

def boolNat (b : Bool) : Nat := if b then 1 else 0

/-- Little-endian value of bytes, byte 0 lowest (R8). -/
def leNat : List Byte → Nat
  | [] => 0
  | b :: bs => b.toNat + 256 * leNat bs

/-- `n` little-endian bytes of a value (R8). -/
def leBytes : Nat → Nat → List Byte
  | 0, _ => []
  | n + 1, v => BitVec.ofNat 8 v :: leBytes n (v / 256)

/-- `n` zero bytes. -/
def zeros (n : Nat) : List Byte := List.replicate n 0

/-- The little-endian field at bytes `off` to `off + n - 1`. -/
def leAt (bs : List Byte) (off n : Nat) : Nat := leNat ((bs.drop off).take n)

/-- Byte `i`, 0 beyond the end. -/
def byteAt (bs : List Byte) (i : Nat) : Nat := (bs.getD i 0).toNat

/-- Sign of an `n`-bit two's-complement number. -/
def signed (n v : Nat) : Int := if v < 2 ^ (n - 1) then (v : Int) else (v : Int) - 2 ^ n

/-- Two's complement of an integer in `n` bits. -/
def twos (n : Nat) (i : Int) : Nat := (i % 2 ^ n).toNat

/-- A count held at 2^32 - 1 (R105, R475). -/
def sat32 (n : Nat) : Nat := min n 0xFFFFFFFF

/-- A count held at 65,535 (R45). -/
def sat16 (n : Nat) : Nat := min n 65535

def satInc (n : Nat) : Nat := sat32 (n + 1)

/-- Insert before the first element that `le` puts strictly after. -/
def insOne {α : Type} (le : α → α → Bool) (x : α) : List α → List α
  | [] => [x]
  | y :: ys => if le x y then x :: y :: ys else y :: insOne le x ys

/-- Insertion sort, stable: elements that `le` does not separate keep their order. -/
def insSort {α : Type} (le : α → α → Bool) : List α → List α
  | [] => []
  | x :: xs => insOne le x (insSort le xs)

/-! ### Check codes -/

/-- One bit of the reflected CRC-32C. -/
def crc32cBit (c : Nat) : Nat := if c % 2 = 1 then Nat.xor (c / 2) 0x82F63B78 else c / 2

def crc32cByte (c : Nat) (b : Byte) : Nat :=
  let c := Nat.xor c b.toNat
  crc32cBit (crc32cBit (crc32cBit (crc32cBit (crc32cBit (crc32cBit (crc32cBit (crc32cBit c)))))))

/-- CRC-32C. The spec names the code and gives no parameters: PRESUMED the usual ones, log entry 14. -/
def crc32c (bs : List Byte) : Nat := Nat.xor (bs.foldl crc32cByte 0xFFFFFFFF) 0xFFFFFFFF

/-- One byte of a CRC taken most significant bit first, with `n` bits and polynomial `poly`. -/
def crcMsbBits (n poly : Nat) : Nat → Nat → Nat
  | 0, c => c
  | k + 1, c =>
    let c2 := 2 * c
    crcMsbBits n poly k (if c2.testBit n then Nat.xor (c2 % 2 ^ n) poly else c2)

def crcMsbByte (n poly c : Nat) (b : Byte) : Nat := crcMsbBits n poly 8 (Nat.xor c (b.toNat * 2 ^ (n - 8)))

/-- The CRC-8 of secure-element responses (R241). -/
def crc8 (bs : List Byte) : Nat := bs.foldl (crcMsbByte 8 0x07) 0

/-- The CRC-16 of span frames (R410). -/
def crc16 (bs : List Byte) : Nat := bs.foldl (crcMsbByte 16 0x1021) 0xFFFF

/-! ### SHA-256 (FIPS 180-4; the spec names the function, log entry 14) -/

/-- The eight chaining words of the hash, with their initial values: the first 32 bits of the fractional parts of the square roots of
the first eight primes. -/
structure ShaSum where
  a : Word := 0x6A09E667
  b : Word := 0xBB67AE85
  c : Word := 0x3C6EF372
  d : Word := 0xA54FF53A
  e : Word := 0x510E527F
  f : Word := 0x9B05688C
  g : Word := 0x1F83D9AB
  h : Word := 0x5BE0CD19
deriving DecidableEq, Repr

/-- The 64 round constants, eight to a number, the first of them highest: the first 32 bits of the fractional parts of the cube roots of
the first 64 primes. -/
def shaRoots : List Nat := [
  0x428A2F9871374491B5C0FBCFE9B5DBA53956C25B59F111F1923F82A4AB1C5ED5,
  0xD807AA9812835B01243185BE550C7DC372BE5D7480DEB1FE9BDC06A7C19BF174,
  0xE49B69C1EFBE47860FC19DC6240CA1CC2DE92C6F4A7484AA5CB0A9DC76F988DA,
  0x983E5152A831C66DB00327C8BF597FC7C6E00BF3D5A7914706CA635114292967,
  0x27B70A852E1B21384D2C6DFC53380D13650A7354766A0ABB81C2C92E92722C85,
  0xA2BFE8A1A81A664BC24B8B70C76C51A3D192E819D6990624F40E3585106AA070,
  0x19A4C1161E376C082748774C34B0BCB5391C0CB34ED8AA4A5B9CCA4F682E6FF3,
  0x748F82EE78A5636F84C878148CC7020890BEFFFAA4506CEBBEF9A3F7C67178F2]

/-- Round constant `i`. -/
def shaConst (i : Nat) : Word := BitVec.ofNat 32 (shaRoots.getD (i / 8) 0 >>> (32 * (7 - i % 8)))

/-- A word, rotated right by two counts and shifted or rotated by a third. -/
def shaMix (x : Word) (j k : Nat) (last : Word) : Word := x.rotateRight j ^^^ x.rotateRight k ^^^ last

/-- One round, on a message word with its constant added. -/
def ShaSum.round (v : ShaSum) (w : Word) : ShaSum :=
  let turn := v.h + w + shaMix v.e 6 11 (v.e.rotateRight 25) + (v.g ^^^ (v.e &&& (v.f ^^^ v.g)))
  { a := turn + shaMix v.a 2 13 (v.a.rotateRight 22) + ((v.a &&& v.b) ||| (v.c &&& (v.a ||| v.b)))
    b := v.a, c := v.b, d := v.c, e := v.d + turn, f := v.e, g := v.f, h := v.g }

/-- The message word that follows the sixteen of a window. -/
def shaNext (w : List Word) : Word :=
  let near := w.getD 14 0
  let far := w.getD 1 0
  w.headD 0 + shaMix far 7 18 (far >>> 3) + w.getD 9 0 + shaMix near 17 19 (near >>> 10)

/-- The last `n` of the 64 rounds; the window holds the message words of this round and of the fifteen after it. -/
def shaRounds : Nat → List Word → ShaSum → ShaSum
  | 0, _, v => v
  | n + 1, w, v => shaRounds n (w.drop 1 ++ [shaNext w]) (v.round (w.headD 0 + shaConst (63 - n)))

/-- Big-endian value of bytes, byte 0 highest. -/
def beNat (bs : List Byte) : Nat := bs.foldl (fun n b => 256 * n + b.toNat) 0

/-- `n` big-endian bytes of a value. -/
def beBytes : Nat → Nat → List Byte
  | 0, _ => []
  | n + 1, v => BitVec.ofNat 8 (v >>> (8 * n)) :: beBytes n v

/-- The chaining words after one 64-byte block. -/
def ShaSum.block (v : ShaSum) (bs : List Byte) : ShaSum :=
  let m := beNat bs
  let u := shaRounds 64 ((List.range 16).map (fun k => BitVec.ofNat 32 (m >>> (480 - 32 * k)))) v
  { a := v.a + u.a, b := v.b + u.b, c := v.c + u.c, d := v.d + u.d, e := v.e + u.e, f := v.f + u.f, g := v.g + u.g, h := v.h + u.h }

/-- The chaining words after the whole blocks of a byte string, and the bytes left; at most `fuel` blocks. -/
def shaBlocks : Nat → ShaSum → List Byte → ShaSum × List Byte
  | 0, v, bs => (v, bs)
  | fuel + 1, v, bs => if bs.length < 64 then (v, bs) else shaBlocks fuel (v.block (bs.take 64)) (bs.drop 64)

/-- The hash as 32 bytes. -/
def ShaSum.bytes (v : ShaSum) : List Byte :=
  ([v.a, v.b, v.c, v.d, v.e, v.f, v.g, v.h].map (fun w => beBytes 4 w.toNat)).flatten

/-- Padding of a message of `len` bytes. -/
def shaPad (len : Nat) : List Byte := (0x80 : Byte) :: zeros ((119 - len % 64) % 64) ++ beBytes 8 (8 * len)

/-- SHA-256 of a byte string. -/
def sha256 (bs : List Byte) : List Byte :=
  let m := bs ++ shaPad bs.length
  (shaBlocks (m.length / 64) {} m).1.bytes

end Sys2Proof.Machine
end

