-- ==== Sys2Proof/Machine/Crypto.lean ====
section
/-! DEFINITION. The crypto block and the supervisor's signature checks: AES-256-GCM (R237, R239), ECDSA P-256 with SHA-256 and the
X.509 certificates in DER (R242, R258). The spec names these functions and does not restate them (PRESUMED, log entry 14). -/

namespace Sys2Proof.Machine

/-! ### AES-256 on a block as a 128-bit number, its first byte highest -/

/-- The substitution of AES, 32 bytes to a number, the lowest input lowest. -/
def aesBox : List Nat := [
  0xC072A49CAFA2D4ADF04759FA7DC982CA76ABD7FE2B670130C56F6BF27B777C63,
  0x75B227EBE28012079A059618C323C7041531D871F1E5A534CCF73F362693FDB7,
  0xCF584C4A39BECB6A5BB1FC20ED00D153842FE329B3D63B52A05A6E1B1A2C8309,
  0xD2F3FF1021DAB6BCF5389D928F40A351A89F3C507F02F94585334D43FBAAEFD0,
  0xDB0B5EDE14B8EE4688902A22DC4F816073195D643D7EA7C41744975FEC130CCD,
  0x08AE7A65EAF4566CA94ED58D6D37C8E779E4959162ACD3C25C2406490A3A32E0,
  0x9E1DC186B95735610EF6034866B53E708A8BBD4B1F74DDE8C6B4A61C2E2578BA,
  0x16BB54B00F2D99416842E6BF0D89A18CDF2855CEE9871E9B948ED9691198F8E1]

def aesSub (b : Nat) : Nat := (aesBox.getD (b / 32) 0 >>> (8 * (b % 32))) % 256

/-- The substitution on the `n` low bytes of a number. -/
def subBytes (n x : Nat) : Nat := (List.range n).foldl (fun a k => a + aesSub (x >>> (8 * k) % 256) <<< (8 * k)) 0

/-- The top byte of each of the four columns. -/
def topBytes : Nat := 0xFF000000FF000000FF000000FF000000

def rotateLeft (n x k : Nat) : Nat := (x <<< k) % 2 ^ n + x >>> (n - k)

/-- Row `r` of the block turns left by `r` columns. -/
def shiftRows (x : Nat) : Nat :=
  ([0, 1, 2, 3] : List Nat).foldl (fun a r => a + (rotateLeft 128 x (32 * r) &&& (topBytes >>> (8 * r)))) 0

/-- Each column turned up by one row. -/
def turnColumns (x : Nat) : Nat :=
  ((x <<< 8) &&& 0xFFFFFF00FFFFFF00FFFFFF00FFFFFF00) + ((x >>> 24) &&& (topBytes >>> 24))

/-- Each byte doubled in the field of AES. -/
def doubleBytes (x : Nat) : Nat :=
  ((x <<< 1) &&& 0xFEFEFEFEFEFEFEFEFEFEFEFEFEFEFEFE) ^^^ (0x1B * ((x >>> 7) &&& 0x01010101010101010101010101010101))

def mixColumns (x : Nat) : Nat :=
  let y := turnColumns x
  let z := turnColumns y
  doubleBytes (x ^^^ y) ^^^ y ^^^ z ^^^ turnColumns z

/-- `n` more words of the key expansion, newest first; the next is word `i`. -/
def expandKey : Nat → Nat → List Nat → List Nat
  | 0, _, w => w
  | n + 1, i, w =>
    let t := w.headD 0
    let g := if i % 8 = 0 then subBytes 4 (rotateLeft 32 t 8) ^^^ 2 ^ (23 + i / 8) else if i % 8 = 4 then subBytes 4 t else t
    expandKey n (i + 1) ((w.getD 7 0 ^^^ g) :: w)

/-- Words four by four, as blocks. -/
def joinWords : List Nat → List Nat
  | a :: b :: c :: d :: ws => (a <<< 96 + b <<< 64 + c <<< 32 + d) :: joinWords ws
  | _ => []

/-- The fifteen round keys of a 256-bit key. -/
def roundKeys (key : List Byte) : List Nat :=
  let k := beNat key
  joinWords (expandKey 52 8 ((List.range 8).map (fun i => k >>> (32 * i) % 2 ^ 32))).reverse

/-- The rounds of a block, the last without its column mixing. -/
def aesRounds : List Nat → Nat → Nat
  | [], x => x
  | [k], x => shiftRows (subBytes 16 x) ^^^ k
  | k :: ks, x => aesRounds ks (mixColumns (shiftRows (subBytes 16 x)) ^^^ k)

def aesBlock (ks : List Nat) (x : Nat) : Nat := aesRounds (ks.drop 1) (x ^^^ ks.headD 0)

/-! ### Galois/counter mode -/

/-- The product `z + x·v`, over the `n` low bits of `x`, in the field of GCM, whose bit 0 is a number's highest. -/
def galoisBits : Nat → Nat → Nat → Nat → Nat
  | 0, _, _, z => z
  | n + 1, x, v, z =>
    galoisBits n x (if v % 2 = 1 then v >>> 1 ^^^ 0xE1 <<< 120 else v >>> 1) (if x.testBit n then z ^^^ v else z)

def galois (x y : Nat) : Nat := galoisBits 128 x y 0

/-- A byte string as `n` blocks, the last filled with zeros. -/
def splitBlocks : Nat → List Byte → List Nat
  | 0, _ => []
  | n + 1, bs => beNat (bs.take 16 ++ zeros (16 - bs.length)) :: splitBlocks n (bs.drop 16)

def blocksOf (bs : List Byte) : List Nat := splitBlocks ((bs.length + 15) / 16) bs

/-- The counter-mode image of blocks, from counter `i` on. -/
def counterMode (ks : List Nat) (nonce : Nat) : Nat → List Nat → List Nat
  | _, [] => []
  | i, x :: xs => (x ^^^ aesBlock ks (nonce <<< 32 + i % 2 ^ 32)) :: counterMode ks nonce (i + 1) xs

/-- The tag over additional data and ciphertext. -/
def gcmTag (ks : List Nat) (nonce : Nat) (aad cipher : List Byte) : Nat :=
  let h := aesBlock ks 0
  let lengths := (8 * aad.length) <<< 64 + 8 * cipher.length
  (blocksOf aad ++ blocksOf cipher ++ [lengths]).foldl (fun y x => galois (y ^^^ x) h) 0 ^^^ aesBlock ks (nonce <<< 32 + 1)

/-- The text that a key stream makes of a text: encryption and decryption are one. -/
def gcmText (ks : List Nat) (nonce : Nat) (text : List Byte) : List Byte :=
  (((counterMode ks nonce 2 (blocksOf text)).map (beBytes 16)).flatten).take text.length

/-- The plaintext of AES-256-GCM, when the tag verifies (R237, R239). -/
def gcmOpen (key nonce aad cipher tag : List Byte) : Option (List Byte) :=
  let ks := roundKeys key
  let n := beNat nonce
  if key.length = 32 ∧ nonce.length = 12 ∧ tag = beBytes 16 (gcmTag ks n aad cipher) then some (gcmText ks n cipher) else none

/-! ### ECDSA P-256 -/

/-- The field's prime, the order of the base point, and the curve's constant. -/
def p256 : Nat := 2 ^ 256 - 2 ^ 224 + 2 ^ 192 + 2 ^ 96 - 1
def n256 : Nat := 0xFFFFFFFF00000000FFFFFFFFFFFFFFFFBCE6FAADA7179E84F3B9CAC2FC632551
def b256 : Nat := 0x5AC635D8AA3A93E7B3EBBD55769886BC651D06B0CC53B0F63BCE3C3E27D2604B

/-- A point in Jacobian coordinates; `z` is 0 at infinity. -/
structure Point where
  x : Nat
  y : Nat
  z : Nat
deriving DecidableEq, Repr

def Point.base : Point := {
  x := 0x6B17D1F2E12C4247F8BCE6E563A440F277037D812DEB33A0F4A13945D898C296
  y := 0x4FE342E2FE1A7F9B8EE7EB4A7C0F9E162BCE33576B315ECECBB6406837BF51F5, z := 1 }

def mulP (a b : Nat) : Nat := a * b % p256
def subP (a b : Nat) : Nat := (a + p256 - b) % p256

/-- `r` raised through the `n` low bits of an exponent of `b`, modulo `m`. -/
def powMod (m b e : Nat) : Nat → Nat → Nat
  | 0, r => r
  | n + 1, r => powMod m b e n (if e.testBit n then r * r % m * b % m else r * r % m)

/-- The inverse modulo a prime below 2^256. -/
def invMod (m a : Nat) : Nat := powMod m a (m - 2) 256 1

def Point.double (a : Point) : Point :=
  let zz := mulP a.z a.z
  let yy := mulP a.y a.y
  let m := 3 * mulP (subP a.x zz) (a.x + zz) % p256
  let s := 4 * mulP a.x yy % p256
  let x := subP (mulP m m) (2 * s % p256)
  { x := x, y := subP (mulP m (subP s x)) (8 * mulP yy yy % p256), z := 2 * mulP a.y a.z % p256 }

def Point.add (a b : Point) : Point :=
  let az := mulP a.z a.z
  let bz := mulP b.z b.z
  let u := mulP a.x bz
  let s := mulP a.y (mulP bz b.z)
  let h := subP (mulP b.x az) u
  let r := subP (mulP b.y (mulP az a.z)) s
  if a.z = 0 then b else if b.z = 0 then a
  else if h = 0 then (if r = 0 then a.double else { x := 1, y := 1, z := 0 })
  else
    let hh := mulP h h
    let v := mulP u hh
    let hhh := mulP h hh
    let x := subP (subP (mulP r r) hhh) (2 * v % p256)
    { x := x, y := subP (mulP r (subP v x)) (mulP s hhh), z := mulP h (mulP a.z b.z) }

/-- The sum of `u` times the base point and `v` times `q`, from the `n` low bits on; `gq` is the base point plus `q`. -/
def jointSum (q gq : Point) (u v : Nat) : Nat → Point → Point
  | 0, a => a
  | n + 1, a =>
    let d := a.double
    jointSum q gq u v n (match u.testBit n, v.testBit n with
      | true, true => d.add gq
      | true, false => d.add .base
      | false, true => d.add q
      | false, false => d)

def onCurve (x y : Nat) : Bool :=
  decide (x < p256) && decide (y < p256) && decide (mulP y y = (mulP (mulP x x) x + 3 * (p256 - x) + b256) % p256)

/-- Does a signature over a 32-byte hash verify under a public key, 0x04 with both coordinates big-endian? -/
def ecdsaOk (key hash : List Byte) (r s : Nat) : Bool :=
  let q : Point := { x := beNat ((key.drop 1).take 32), y := beNat (key.drop 33), z := 1 }
  decide (key.length = 65) && decide (key.headD 0 = 4) && onCurve q.x q.y &&
  decide (0 < r) && decide (r < n256) && decide (0 < s) && decide (s < n256) &&
  (let w := invMod n256 s
   let t := jointSum q (q.add .base) (beNat hash * w % n256) (r * w % n256) 256 { x := 1, y := 1, z := 0 }
   let zi := invMod p256 t.z
   decide (t.z ≠ 0) && decide (mulP t.x (mulP zi zi) % n256 = r))

/-! ### DER and X.509 -/

/-- An item of DER: its tag, its content, and its bytes whole. -/
structure DerItem where
  tag : Nat
  body : List Byte
  whole : List Byte
deriving DecidableEq, Repr

/-- The first item of a byte string, and what follows it. Lengths take at most two bytes, in their least form. -/
def derItem (bs : List Byte) : Option (DerItem × List Byte) :=
  let l := byteAt bs 1
  let head := if l < 128 then (2, l) else if l = 0x81 then (3, byteAt bs 2) else (4, 256 * byteAt bs 2 + byteAt bs 3)
  let least := if l < 128 then 0 else if l = 0x81 then 128 else 256
  let n := head.1 + head.2
  if l ≤ 0x82 ∧ l ≠ 128 ∧ least ≤ head.2 ∧ head.1 ≤ bs.length ∧ n ≤ bs.length then
    some ({ tag := byteAt bs 0, body := (bs.take n).drop head.1, whole := bs.take n }, bs.drop n)
  else none

/-- A byte string as items that use it up, at most `fuel` of them. -/
def derItems : Nat → List Byte → Option (List DerItem)
  | _, [] => some []
  | 0, _ => none
  | fuel + 1, bs => match derItem bs with
    | none => none
    | some (x, rest) => (derItems fuel rest).map (x :: ·)

def derAll (bs : List Byte) : Option (List DerItem) := derItems bs.length bs

/-- A non-negative INTEGER. -/
def derNat (x : DerItem) : Option Nat := if x.tag = 2 ∧ byteAt x.body 0 < 128 then some (beNat x.body) else none

/-- r and s of a signature as a certificate holds them. -/
def derSignature (bs : List Byte) : Option (Nat × Nat) := do
  match ← derAll bs with
  | [x] =>
    match ← derAll x.body with
    | [r, s] => if x.tag = 0x30 then pure (← derNat r, ← derNat s) else none
    | _ => none
  | _ => none

/-- What the engine takes from a certificate (R242): the signed part, its signature, the public key, and the subject's serialNumber. -/
structure Cert where
  tbs : List Byte
  r : Nat
  s : Nat
  key : List Byte
  serial : Option (List Byte)
deriving DecidableEq, Repr

/-- The object identifiers, in DER: ecdsa-with-SHA256, a P-256 public key, the attribute serialNumber. -/
def oidEcdsaSha256 : List Byte := beBytes 12 0x300A06082A8648CE3D040302
def oidP256Key : List Byte := beBytes 21 0x301306072A8648CE3D020106082A8648CE3D030107
def oidSerialNumber : List Byte := beBytes 5 0x0603550405

/-- The value of the attribute serialNumber in a subject's relative names. -/
def subjectSerial (names : List DerItem) : Option (List Byte) :=
  names.findSome? (fun set => ((derAll set.body).getD []).findSome? (fun att => match derAll att.body with
    | some [oid, value] => if oid.whole = oidSerialNumber then some value.body else none
    | _ => none))

/-- The certified part: version 3, serial number, algorithm, issuer, validity, subject, key, extensions. -/
def readSignedPart (x : DerItem) : Option (List Byte × Option (List Byte)) := do
  match ← derAll x.body with
  | version :: number :: alg :: issuer :: validity :: subject :: spki :: _ =>
    match ← derAll spki.body with
    | [keyAlg, key] =>
      if x.tag = 0x30 ∧ version.whole = beBytes 5 0xA003020102 ∧ number.tag = 2 ∧ alg.whole = oidEcdsaSha256 ∧ issuer.tag = 0x30 ∧
          validity.tag = 0x30 ∧ subject.tag = 0x30 ∧ keyAlg.whole = oidP256Key ∧ key.tag = 3 ∧ key.body.headD 1 = 0 then
        pure (key.body.drop 1, subjectSerial (← derAll subject.body))
      else none
    | _ => none
  | _ => none

/-- An X.509 v3 certificate of at most 1 KiB, signed with ECDSA P-256 and SHA-256 (R242). -/
def readCert (bs : List Byte) : Option Cert := do
  match ← derAll bs with
  | [c] =>
    match ← derAll c.body with
    | [tbs, alg, sig] =>
      if bs.length ≤ 1024 ∧ c.tag = 0x30 ∧ alg.whole = oidEcdsaSha256 ∧ sig.tag = 3 ∧ sig.body.headD 1 = 0 then
        let t ← readSignedPart tbs
        let rs ← derSignature (sig.body.drop 1)
        pure { tbs := tbs.whole, r := rs.1, s := rs.2, key := t.1, serial := t.2 }
      else none
    | _ => none
  | _ => none

/-- Is a certificate signed by the holder of a key? -/
def signedBy (key : List Byte) (c : Cert) : Bool := ecdsaOk key (sha256 c.tbs) c.r c.s

/-- Each certificate is signed by the next, and the last by one of the roots (R242, R258). -/
def chainSigned (roots : List (List Byte)) : List Cert → Bool
  | [] => false
  | [c] => roots.any (fun k => signedBy k c)
  | c :: d :: cs => signedBy d.key c && chainSigned roots (d :: cs)

/-- A chain of 1-3 certificates in DER, leaf first, that ends at one of the roots: its leaf. -/
def chainLeaf (roots : List (List Byte)) (ders : List (List Byte)) : Option Cert :=
  let cs := ders.filterMap readCert
  if ders.length ≤ 3 ∧ cs.length = ders.length ∧ chainSigned roots cs = true then cs.head? else none

end Sys2Proof.Machine
end

