-- ==== Sys2Proof/Config.lean ====
section
/-! DEFINITION. The free values: what the spec leaves open. Each is opaque, so that no proof can see a value of it. -/

namespace Sys2Proof.Config

/-- The value of the function unit for codes 3-8 of R88 inside the table's domain: the tables are held in site microcode
and are not given (log entry 10). Arguments: function code, A32 input. -/
opaque functionUnit : Nat → A32 → A32

/-- A sample the input ASRC puts out: ideal resampling within the bound of R353, so the code itself is open (log entry 5).
Arguments: how many free values have been drawn, the code in the slot. -/
opaque asrcSample : Nat → Int → BitVec 24

/-- A result of the output ASRC, rounded at the slot's width (R352, log entry 5). Arguments: how many free values have been drawn,
the image-rate sample it was given last. -/
opaque asrcOutput : Nat → BitVec 24 → BitVec 32

/-- Whether a sample faded or ramped under R368 is rounded up, its rounding not being stated (log entry 5). Arguments: how many free
values have been drawn, frame, channel. -/
opaque gainUp : Nat → Nat → Nat → Bool

/-- The parameters that Jokelt packs into bytes 36-255 of the operator microconfiguration in a layout of its own (R272): which
parameters there are and their limits is the spec's, where each lies in the bytes is not (log entry 8). -/
structure OpParams where
  /-- shape of a window's tensor on the data lane: elements in raster order, the channels of a position together (log entry 94) -/
  rows : Nat
  cols : Nat
  chans : Nat
  /-- columns of output positions, and reduction ends of a window -/
  outCols : Nat
  reds : Nat
  /-- kernel or pooling window, stride, dilation, padding before the first row and column (R162) -/
  kh : Nat
  kw : Nat
  strideY : Nat
  strideX : Nat
  dilY : Nat
  dilX : Nat
  padY : Nat
  padX : Nat
  edgePad : Bool
  /-- number of the first term of this part of a split reduction, and how many parts there are (R160) -/
  part : Nat
  parts : Nat
  /-- lanes whose values leave the tile at a reduction end, from lane 0 -/
  lanes : Nat
  /-- resize factors, and whether a bilinear pass runs along rows (R162) -/
  factorY : Nat
  factorX : Nat
  alongRows : Bool
  /-- the lanes a join takes, in the order it takes them; empty: each vector's lane is named by the next selector (R65, R141) -/
  order : List (Fin 4)
  /-- axis along which the second operand is broadcast: 0 none, 1 rows, 2 columns, 3 channels (R163) -/
  broadcast : Nat
  /-- elements of each input of a concat or output of a split, and the slice that a split's branch passes (R163) -/
  slices : List Nat
  slice : Nat
  /-- frame length and hop of the temporal operators; the power form of an STFT (R173) -/
  frame : Nat
  hop : Nat
  power : Bool
  /-- delay of a frame store in lines (R174) -/
  delay : Nat
  /-- base registers of the weights, of the biases and of the line buffers, counts or feeder tensor (R274); elements the line
  buffers hold -/
  weightReg : Fin 32
  biasReg : Fin 32
  bufReg : Fin 32
  bufLen : Nat
  hasBias : Bool
  /-- elements after which the rest of a flit is padding (R114), and elements between segment headers (R335, R358); 0: none -/
  vector : Nat
  segment : Nat
  /-- the ascending FP16 edges of a histogram (R164) -/
  edges : List Nat
  /-- k of top-k and of the kNN graph (R168, R171) -/
  k : Nat
  /-- keep limit and threshold in sixteenths of non-maximum suppression (R171, R172) -/
  keepLimit : Nat
  nmsThreshold : Nat
  /-- a sort is descending (R171) -/
  descending : Bool
  /-- feature count and element width of candidate tokens (R165) -/
  featureCount : Nat
  featureWidth : Nat
  /-- the window of an extraction stage, its minimum area, its connectivity (R164) -/
  windowWidth : Nat
  windowHeight : Nat
  minArea : Nat
  connectivity : Nat
  /-- the declared empty value of a set-pool max or of message passing's max, FP16 (R168) -/
  emptyValue : Nat
  /-- heads and head width of set attention; rounds, degree and aggregate of message passing (R168) -/
  heads : Nat
  headWidth : Nat
  rounds : Nat
  degree : Nat
  aggregateMax : Bool
  /-- the lane a stage sends its tensor output on -/
  outLane : Nat
  /-- lanes on which an extraction stage takes its score map and its feature map (R164, R165) -/
  scoreLane : Nat
  featureLane : Nat
  /-- stages whose window tokens the verdict stage takes, 0-8 (R175) -/
  windowTokens : Nat
  /-- a stage that emits a scale tensor: 1 SE8, 2 FP16; otherwise 0 (R129) -/
  emitScale : Nat
deriving DecidableEq, Repr, Inhabited

/-- The parameters of a microconfiguration. -/
opaque params : List Byte → OpParams

/-- Codeword, counted from the weights' base register, of the weight codes of a step: microconfiguration, reduction end of the
window, step of the reduction (R82, R274; log entry 8). A blob's data stand where the blob puts them; the order in which a stage
reads them is Jokelt's. -/
opaque weightWord : List Byte → Nat → Nat → Nat

/-- Codeword, counted from the biases' base register, of the biases of a reduction end (log entry 8). -/
opaque biasWord : List Byte → Nat → Nat

/-- Place of the element that a feeder emits next in its configured order (R174). -/
opaque feedOrder : List Byte → Nat → Nat

/-- Codeword, counted from the weights' base register, and lane of a weight of set attention or of message passing: which
matrix, output index, input index (R168, log entry 8). -/
opaque setWeight : List Byte → Nat → Nat → Nat → Nat × Fin 16

/-- Whether an element equal to an edge counts in the bin above it: R164 does not say (log entry 28). -/
opaque histEqualUp : Bool

/-- The bin that counts a NaN element: R164 does not say (log entry 28). -/
opaque histNanBin : List Byte → Nat

/-- The integers an image puts in aux 0 and aux 1 of its verdict tokens (R177, log entry 29): microconfiguration, window
number since the release, which of the two. -/
opaque auxValue : List Byte → Nat → Fin 2 → BitVec 16

/-- Steps that a stage takes for a window of `n` members where its rate is given only as "about" (R168, R171, log entry 31). -/
opaque stageSteps : Nat → List Byte → Nat → Nat

/-- The count that a window token gives for more than 4,096 edges: its field holds 0-4,096 (R167, log entry 30). -/
opaque edgeCount : Nat → Nat

end Sys2Proof.Config
end

