-- ==== Sys2Proof/Machine/Float.lean ====
section
/-! DEFINITION. Number formats, rounding and conversion (R106-R131), companding (R182), the function unit (R88). Values are
computed exactly, as an integer times a power of two, and narrowed once, to nearest even (R119). -/

namespace Sys2Proof.Machine

/-- A value of a float format: the canonical NaN, an infinity, or (-1)^neg x mag x 2^exp. -/
inductive FV where
  | nan
  | inf (neg : Bool)
  | num (neg : Bool) (mag : Nat) (exp : Int)
deriving DecidableEq, Repr

/-- A float layout: mantissa width, exponent width, bias (R107). -/
structure FFmt where
  w : Nat
  eb : Nat
  bias : Nat
deriving DecidableEq, Repr

def fE2M1 : FFmt := ⟨1, 2, 1⟩
def fE3M2 : FFmt := ⟨2, 3, 3⟩
def fE4M3 : FFmt := ⟨3, 4, 7⟩
def fE5M2 : FFmt := ⟨2, 5, 15⟩
def fFP16 : FFmt := ⟨10, 5, 15⟩
def fBF16 : FFmt := ⟨7, 8, 127⟩
def fA32 : FFmt := ⟨23, 8, 127⟩

/-- Whether codes with all exponent bits set are NaN or infinity: E5M2, FP16 and BF16 have both, A32 only NaN (R108). -/
def specials (f : FFmt) (e m : Nat) (s : Bool) : Option FV :=
  if f = fE4M3 then (if e = 15 ∧ m = 7 then some .nan else none)
  else if f = fE5M2 ∨ f = fFP16 ∨ f = fBF16 then
    (if e = 2 ^ f.eb - 1 then (if m = 0 then some (.inf s) else some .nan) else none)
  else if f = fA32 then (if e = 255 then some .nan else none)
  else none

/-- Value of a float code (R107, R108). -/
def decodeF (f : FFmt) (code : Nat) : FV :=
  let s := code.testBit (f.w + f.eb)
  let e := field code (f.w + f.eb - 1) f.w
  let m := field code (f.w - 1) 0
  match specials f e m s with
  | some v => v
  | none =>
    if e = 0 then .num s m (1 - f.bias - f.w)
    else .num s (2 ^ f.w + m) ((e : Int) - f.bias - f.w)

/-- Bits needed by a magnitude. -/
def bitLen (n : Nat) : Nat := if n = 0 then 0 else Nat.log2 n + 1

/-- `mag / 2^s` to nearest even (R119). -/
def rneShift (mag s : Nat) : Nat :=
  let q := mag / 2 ^ s
  let r := mag % 2 ^ s
  if 2 * r < 2 ^ s then q else if 2 ^ s < 2 * r then q + 1 else if q % 2 = 0 then q else q + 1

/-- An exact magnitude rounded to `p` significant bits on a grid no finer than 2^qmin, exponent unbounded above. -/
def roundMag (mag : Nat) (exp : Int) (p : Nat) (qmin : Int) : Nat × Int :=
  if mag = 0 then (0, exp)
  else
    let q := max (exp + bitLen mag - p) qmin
    if q ≤ exp then (mag, exp) else (rneShift mag (q - exp).toNat, q)

/-- Is `mag x 2^exp` at least `mag2 x 2^exp2`? -/
def magLE (mag2 : Nat) (exp2 : Int) (mag : Nat) (exp : Int) : Bool :=
  let m := min exp exp2
  mag2 * 2 ^ (exp2 - m).toNat ≤ mag * 2 ^ (exp - m).toNat

/-- The largest finite magnitude of a float format (R108). -/
def maxFinite (f : FFmt) : Nat × Int :=
  if f = fE4M3 then (14, 5)
  else if f = fE2M1 then (3, 1)
  else if f = fE3M2 then (7, 2)
  else (2 ^ (f.w + 1) - 1, (2 ^ f.eb - 2 : Nat) - (f.bias : Int) - f.w)

/-- The code of a magnitude that lies on the format's grid and within its range. -/
def encodeMag (f : FFmt) (neg : Bool) (mag : Nat) (exp : Int) : Nat :=
  let sign := boolNat neg * 2 ^ (f.w + f.eb)
  if mag = 0 then sign
  else
    let n := bitLen mag
    let top := exp + n - 1
    if top < 1 - (f.bias : Int) then
      -- subnormal: in steps of 2^(1 - bias - w)
      sign + mag * 2 ^ (exp - (1 - (f.bias : Int) - f.w)).toNat / 2 ^ ((1 - (f.bias : Int) - f.w) - exp).toNat
    else
      let frac := if n ≤ f.w + 1 then mag * 2 ^ (f.w + 1 - n) else mag / 2 ^ (n - (f.w + 1))
      sign + (top + f.bias).toNat * 2 ^ f.w + (frac - 2 ^ f.w)

/-- The canonical NaN code (R108). -/
def nanCode (f : FFmt) : Nat :=
  if f = fE4M3 then 0x7F
  else if f = fE5M2 then 0x7E
  else if f = fFP16 then 0x7E00
  else if f = fBF16 then 0x7FC0
  else 0x7FC00000

/-- Round a value to a float format: code, and whether the rounding overflowed (R119, R120). A BF16 result below its normal
range becomes a signed zero. An infinity is an overflow: it takes the end of the range (R117, R186). -/
def encodeF (f : FFmt) (v : FV) : Nat × Bool :=
  let big := maxFinite f
  match v with
  | .nan => (nanCode f, false)
  | .inf neg => (encodeMag f neg big.1 big.2, true)
  | .num neg mag exp =>
    let r := roundMag mag exp (f.w + 1) (1 - (f.bias : Int) - f.w)
    if magLE r.1 r.2 big.1 big.2 then
      (if f = fBF16 ∧ r.1 ≠ 0 ∧ r.2 + bitLen r.1 - 1 < -126 then (encodeMag f neg 0 0, false)
       else (encodeMag f neg r.1 r.2, false))
    else (encodeMag f neg big.1 big.2, true)

/-! ### A32 (R84, R107-R109) -/

def a32Of (v : FV) : A32 × Bool := let r := encodeF fA32 v; (BitVec.ofNat 32 r.1, r.2)

def a32Val (a : A32) : FV := decodeF fA32 a.toNat

def a32Nan : A32 := 0x7FC00000

def isNan (a : A32) : Bool := a32Val a = .nan

/-- The largest finite A32 of a sign. -/
def a32Max (neg : Bool) : A32 := if neg then 0xFF7FFFFF else 0x7F7FFFFF

/-- Exact sum of two finite values. Zeros of opposite sign, and a difference that is exactly zero, give +0 (R109). -/
def addExact (n1 : Bool) (m1 : Nat) (e1 : Int) (n2 : Bool) (m2 : Nat) (e2 : Int) : FV :=
  if m1 = 0 ∧ m2 = 0 then .num (n1 && n2) 0 0
  else
    let e := min e1 e2
    let a : Int := (if n1 then -1 else 1) * (m1 * 2 ^ (e1 - e).toNat : Nat)
    let b : Int := (if n2 then -1 else 1) * (m2 * 2 ^ (e2 - e).toNat : Nat)
    .num (a + b < 0) (a + b).natAbs e

/-- Sum of two values, exact (before rounding). -/
def addV (x y : FV) : FV :=
  match x, y with
  | .num n1 m1 e1, .num n2 m2 e2 => addExact n1 m1 e1 n2 m2 e2
  | _, _ => .nan

/-- Product of two values, exact; an infinity does not occur where this is used. -/
def mulV (x y : FV) : FV :=
  match x, y with
  | .num n1 m1 e1, .num n2 m2 e2 => .num (n1 != n2) (m1 * m2) (e1 + e2)
  | _, _ => .nan

/-- An integer as a value. -/
def intV (i : Int) : FV := .num (i < 0) i.natAbs 0

/-- Order of values: -1, 0 or 1, with -0 equal to +0; a NaN compares as none. -/
def cmpV (x y : FV) : Option Int :=
  let ext (v : FV) : Option (Int × Int) :=
    match v with
    | .nan => none
    | .inf neg => some (if neg then -1 else 1, 100000)
    | .num neg m e => some ((if neg then -1 else 1) * (m : Int), e)
  match ext x, ext y with
  | some (a, ea), some (b, eb) =>
    let m := min ea eb
    let d := a * 2 ^ (ea - m).toNat - b * 2 ^ (eb - m).toNat
    some (if d < 0 then -1 else if d = 0 then 0 else 1)
  | _, _ => none

def leV (x y : FV) : Bool := match cmpV x y with | some d => d ≤ 0 | none => false
def ltV (x y : FV) : Bool := match cmpV x y with | some d => d < 0 | none => false

/-- An infinity acts as the largest finite value of its format with its sign (R117, R123, R494); true when it did. -/
def finiteV (f : FFmt) (v : FV) : FV × Bool :=
  match v with
  | .inf neg => (.num neg (maxFinite f).1 (maxFinite f).2, true)
  | v => (v, false)

/-! ### Tensor formats by code (R106) -/

/-- The float layout of a tensor format code. -/
def fmtOf (code : Nat) : Option FFmt :=
  if code = 6 then some fE2M1 else if code = 7 then some fE3M2 else if code = 8 then some fE4M3
  else if code = 9 then some fE5M2 else if code = 10 then some fFP16 else if code = 11 then some fBF16 else none

/-- Width in bits of an element as it is packed in flits (R114): 16 for FP16 and BF16, 8 otherwise. -/
def elemWidth (fmt : Nat) : Nat := if fmt = 10 ∨ fmt = 11 then 16 else 8

/-- Value of an activation code (R107). A BF16 code with E = 0 acts as zero (R108, R117); it keeps its sign. -/
def decodeElem (fmt code : Nat) : FV :=
  if fmt = 0 then intV (code % 256)
  else if fmt = 1 then intV (signed 8 (code % 256))
  else if fmt = 11 ∧ field code 14 7 = 0 then .num (code.testBit 15) 0 0
  else match fmtOf fmt with
    | some f => decodeF f code
    | none => .nan

/-- An exact value rounded to an integer, to nearest even. -/
def roundInt (neg : Bool) (mag : Nat) (exp : Int) : Int :=
  let r := if exp < 0 then rneShift mag (-exp).toNat else mag * 2 ^ exp.toNat
  if neg then -(r : Int) else r

/-- Clamp an integer to a range; true when it lay outside. -/
def clampInt (lo hi i : Int) : Int × Bool := if i < lo then (lo, true) else if hi < i then (hi, true) else (i, false)

/-- The conversion of R120: code in the output format and overflows counted. -/
def convert (v : FV) (fmt : Nat) : Nat × Nat :=
  if fmt = 0 ∨ fmt = 1 then
    match v with
    | .num neg mag exp =>
      let r := if fmt = 0 then clampInt 0 255 (roundInt neg mag exp) else clampInt (-128) 127 (roundInt neg mag exp)
      (twos 8 r.1, boolNat r.2)
    | .inf neg => (if fmt = 0 then (if neg then 0 else 255) else (if neg then 0x80 else 0x7F), 1)
    | .nan => (0, 1)
  else
    match fmtOf fmt with
    | some f => let r := encodeF f v; (r.1, boolNat r.2)
    | none => (0, 0)

/-! ### Scales (R122, R123, R129) -/

/-- Value of an SE8 scale: none for the NaN scale. -/
def se8Val (c : Nat) : FV := if c = 255 then .nan else .num false 1 ((c : Int) - 127)

/-- A value as an SE8 scale: code and overflows counted (R129). -/
def toSe8 (v : FV) : Nat × Nat :=
  match v with
  | .nan => (0xFF, 0)
  | .inf neg => if neg then (0, 1) else (0xFE, 1)
  | .num neg mag exp =>
    if neg ∨ mag = 0 then (0, 1)
    else
      let n := bitLen mag
      let e := exp + n - 1
      -- 1.m >= 1.5 exactly when the bit below the top one is set
      let e := if n ≥ 2 ∧ mag.testBit (n - 2) then e + 1 else e
      if 127 < e then (0xFE, 1) else if e < -127 then (0, 0) else ((e + 127).toNat, 0)

/-- An FP16 scale: its value, an infinity acting as 65,504 and counted (R123). -/
def fp16Scale (code : Nat) : FV × Bool := finiteV fFP16 (decodeF fFP16 code)

/-! ### Weights and activations at the table builder (R78, R81, R116, R117) -/

/-- A decoded weight nibble or code: table index, sign, shift (R78). -/
structure WSel where
  index : Nat
  neg : Bool
  shift : Int
deriving DecidableEq, Repr

/-- What a weight code selects (R78, R81). -/
inductive WCode where
  | sel (s : WSel)
  /-- the two nibble selections of U8 and S8 -/
  | pair (lo hi : WSel)
  | nan
  /-- a T2 code of 10: value 0, counted -/
  | reserved
  /-- an E5M2 infinity: acts as 57,344, counted -/
  | big (s : WSel)
deriving DecidableEq, Repr

def selS4 (code : Nat) (shift : Int) : WSel :=
  if code < 8 then ⟨code, false, shift⟩ else ⟨16 - code, true, shift⟩

/-- Decode of a float weight with mantissa width `w`: index and shift of R78. -/
def selFloat (f : FFmt) (code : Nat) : WSel :=
  let e := field code (f.w + f.eb - 1) f.w
  let m := field code (f.w - 1) 0
  ⟨if e = 0 then m else 2 ^ f.w + m, code.testBit (f.w + f.eb),
   (if e = 0 then 1 else (e : Int)) - f.bias - f.w⟩

/-- Decode of a weight code (R78). -/
def decodeWeight (fmt code : Nat) : WCode :=
  match fmt with
  | 0 => .pair ⟨code % 16, false, 0⟩ ⟨code / 16 % 16, false, 4⟩
  | 1 => .pair ⟨code % 16, false, 0⟩ (selS4 (code / 16 % 16) 4)
  | 2 => .sel ⟨code % 16, false, 0⟩
  | 3 => .sel (selS4 (code % 16) 0)
  | 4 => match code % 4 with
    | 0 => .sel ⟨0, false, 0⟩
    | 1 => .sel ⟨1, false, 0⟩
    | 3 => .sel ⟨1, true, 0⟩
    | _ => .reserved
  | 5 => let k := code % 8; .sel ⟨if k = 0 then 0 else 1, code.testBit 3, (k : Int) - 4⟩
  | 6 => .sel (selFloat fE2M1 (code % 16))
  | 7 => .sel (selFloat fE3M2 (code % 64))
  | 8 => if code % 128 = 127 then .nan else .sel (selFloat fE4M3 (code % 256))
  | 9 =>
    if field code 6 2 = 31 then
      (if code % 4 = 0 then .big (selFloat fE5M2 (code / 128 % 2 * 128 + 0x7B)) else .nan)
    else .sel (selFloat fE5M2 (code % 256))
  | _ => .reserved

/-- Is the weight format half rate (R78)? -/
def halfRate (fmt : Nat) : Bool := fmt = 0 || fmt = 1 || fmt = 7 || fmt = 8 || fmt = 9

/-- Weight codes of the 16 lanes, from the word or the two words of R82. -/
def laneCode (fmt : Nat) (w0 w1 : Codeword) (i : Nat) : Nat :=
  if fmt = 4 then field w0.toNat (2 * i + 1) (2 * i)
  else if fmt = 0 ∨ fmt = 1 then field w0.toNat (4 * i + 3) (4 * i) + 16 * field w1.toNat (4 * i + 3) (4 * i)
  else if fmt = 7 ∨ fmt = 8 ∨ fmt = 9 then
    field (w0.toNat + w1.toNat * 2 ^ 64) (8 * i + 7) (8 * i)
  else field w0.toNat (4 * i + 3) (4 * i)

/-- What the table builder takes from an activation code: the signed operand, its exponent, NaN, overflow counted. -/
structure ActSel where
  operand : Int := 0
  exp : Int := 0
  nan : Bool := false
  counted : Bool := false
deriving DecidableEq, Repr

/-- The split of R116, with R117 for NaN, infinity and BF16 subnormals. -/
def splitAct (fmt code : Nat) : ActSel :=
  if fmt = 0 then { operand := code % 256 }
  else if fmt = 1 then { operand := signed 8 (code % 256) }
  else match fmtOf fmt with
    | none => { nan := true }
    | some f =>
      match finiteV f (decodeF f code) with
      | (.num neg mag exp, c) =>
        if f = fBF16 ∧ field code 14 7 = 0 then { operand := 0, exp := 0 }
        else { operand := (if neg then -1 else 1) * (mag : Int), exp := exp, counted := c }
      | _ => { nan := true }

/-! ### Companding (R182) -/

/-- Segment of a 12-bit input: in_base, out_base, step. -/
def compSegment (p : Nat) : Nat × Nat × Nat :=
  if p < 32 then (0, 0, 1) else if p < 64 then (32, 32, 1) else if p < 128 then (64, 64, 2)
  else if p < 256 then (128, 96, 4) else if p < 512 then (256, 128, 8) else if p < 1024 then (512, 160, 16)
  else if p < 2048 then (1024, 192, 32) else (2048, 224, 64)

/-- The code of a 12-bit pixel. -/
def compand (p : Nat) : Nat := let s := compSegment p; s.2.1 + (p - s.1) / s.2.2

/-! ### The function unit (R88, R89) -/

/-- The value of functions 3-8 outside the table domain, with overflows counted; none inside it. -/
def fuOutside (code : Nat) (v : FV) : Option (FV × Nat) :=
  match v with
  | .nan => some (.nan, 0)
  | .inf _ => none
  | .num neg mag exp =>
    let x := FV.num neg mag exp
    if code = 3 then
      (if ltV x (intV (-6)) then some (intV 0, 0) else if ltV (intV 6) x then some (x, 0) else none)
    else if code = 4 then
      (if ltV x (intV (-8)) then some (intV 0, 0) else if ltV (intV 8) x then some (intV 1, 0) else none)
    else if code = 5 then
      (if ltV x (intV (-4)) then some (intV (-1), 0) else if ltV (intV 4) x then some (intV 1, 0) else none)
    else if code = 6 then
      -- 88.7 = 887/10 and -103.3 = -1033/10, compared exactly
      (if ltV (intV 887) (mulV x (intV 10)) then some (a32Val (a32Max false), 1)
       else if ltV (mulV x (intV 10)) (intV (-1033)) then some (intV 0, 0) else none)
    else if code = 7 then
      (if mag = 0 then some (a32Val (a32Max neg), 1) else none)
    else if code = 8 then
      (if mag = 0 then some (a32Val (a32Max neg), 1) else if neg then some (.nan, 0) else none)
    else none

/-- A value in units of 2^-64, rounded to nearest. -/
def fix64 : FV → Int
  | .num neg mag exp => roundInt neg mag (exp + 64)
  | _ => 0

/-- `n` terms of the series of e^r from term `k`, whose value is `term`, in units of 2^-64. -/
def expSeries (r : Int) : Nat → Nat → Int → Int
  | 0, _, _ => 0
  | n + 1, k, term => term + expSeries r n (k + 1) (term * r / (2 ^ 64 * ((k : Int) + 1)))

/-- e^x for x in units of 2^-64, by halving the argument to r below ln 2: its integer power of two and e^r in units of 2^-64. The
series errs by less than 2^-50. -/
def expParts (x : Int) : Int × Int :=
  let ln2 : Int := 12786308645202655659
  let n := x / ln2
  (n, expSeries (x - n * ln2) 30 0 (2 ^ 64))

/-- The function that R88 names, to within 2^-40 of its bound: GELU is x times the standard normal distribution function
(PRESUMED, log entry 113). -/
def fuExact (code : Nat) (v : FV) : FV :=
  let x := fix64 v
  let q := fun (i : Int) (e : Int) => FV.num (i < 0) i.natAbs e
  let ex := fun (y : Int) => let r := expParts y; r.2 * 2 ^ (r.1 + 64).toNat / 2 ^ 64
  match code, v with
  | 3, _ =>
    -- x / 2 + x / sqrt(2 pi) * sum over n of (-1)^n x^(2n+1) / (n! 2^n (2n+1))
    let sq := x * x / 2 ^ 64
    let terms := (List.range 120).foldl (fun (a : Int × Int) (n : Nat) =>
      (a.1 + a.2 / (2 * n + 1), -(a.2 * sq / (2 ^ 65 * ((n : Int) + 1))))) (0, x)
    q (x * (2 ^ 63 + 7359186146747302452 * terms.1 / 2 ^ 64)) (-128)
  | 4, _ => q (2 ^ 128 / (2 ^ 64 + ex (-x))) (-64)
  | 5, _ => let e := ex (2 * x); q ((e - 2 ^ 64) * 2 ^ 64 / (e + 2 ^ 64)) (-64)
  | 6, _ => let r := expParts x; q r.2 (r.1 - 64)
  | 7, .num neg mag exp => let k := bitLen mag + 64; .num neg (2 ^ k / mag) (-exp - k)
  | _, .num _ mag exp =>
    let m := if exp % 2 = 0 then mag else 2 * mag
    let e := if exp % 2 = 0 then exp else exp - 1
    let k := bitLen m + 64
    .num false (Nat.sqrt (2 ^ (2 * k) / m)) (-(e / 2) - k)
  | _, v => v

def absV : FV → FV
  | .num _ mag e => .num false mag e
  | .inf _ => .inf false
  | .nan => .nan

def negateV : FV → FV
  | .num neg mag e => .num (!neg) mag e
  | .inf neg => .inf (!neg)
  | .nan => .nan

/-- The maximum error of R88 at a function value: absolute for codes 3-5, relative for 6-8. -/
def fuBound (code : Nat) (y : FV) : FV :=
  let p := fun (k : Int) => FV.num false 1 k
  match code with
  | 3 => p (-8)
  | 4 => p (-10)
  | 5 => p (-9)
  | 8 => mulV (absV y) (p (-14))
  | _ => mulV (absV y) (p (-13))

/-- The value of a table function inside its domain: the free value of the microcode's table, held to the bound of R88; a result
beyond the A32 range saturates and is counted (R86). -/
def tableFunction (code : Nat) (a : A32) : A32 × Nat :=
  let y := fuExact code (a32Val a)
  let near := a32Of y
  let free := Config.functionUnit code a
  if near.2 then (near.1, 1)
  else if leV (absV (addV (a32Val free) (negateV y))) (fuBound code y) then (free, 0) else (near.1, 0)

/-- The function unit in the A32 path: identity, ReLU and clamp exactly, codes 3-8 as R88; overflows counted. ReLU leaves -0 as
it is, and a clamp bound that is an infinity on its inner side acts as 65,504 of its sign (DESIGN CHOICE, log entries 96 and 97). -/
def functionUnit (code : Nat) (lo hi : Nat) (a : A32) : A32 × Nat :=
  let v := a32Val a
  if v = .nan then (a32Nan, 0)
  else if code = 0 then (a, 0)
  else if code = 1 then ((if ltV v (intV 0) then 0 else a), 0)
  else if code = 2 then
    let l := decodeF fFP16 lo
    let h := decodeF fFP16 hi
    if l ≠ .inf true ∧ ltV v l then ((a32Of (finiteV fFP16 l).1).1, 0)
    else if h ≠ .inf false ∧ ltV h v then ((a32Of (finiteV fFP16 h).1).1, 0)
    else (a, 0)
  else
    match fuOutside code v with
    | some (r, n) => ((a32Of r).1, n)
    | none => tableFunction code a

end Sys2Proof.Machine
end

