-- ==== Sys2Proof/Machine/ImageTypes.lean ====
section
/-! DEFINITION. The records of a Jokelt image as the supervisor keeps them once parsed (R253-R284). Byte layouts are read in
Machine/Operands.lean; these are the fields. A BLOB's DATA is not kept: it goes to block memory (R278). -/

namespace Sys2Proof.Machine

/-- An inclusive rectangle of piece-local tiles (R270). -/
structure Rect where
  p0 : Nat
  q0 : Nat
  p1 : Nat
  q1 : Nat
deriving DecidableEq, Repr

/-- The 64-byte file header (R254). -/
structure ImgHeader where
  formatEpoch : Nat := 0
  chainLen : Nat := 0
  length : Nat := 0
  records : Nat := 0
  groups : Nat := 0
  name : List Byte := []
  build : Nat := 0
deriving DecidableEq, Repr

/-- The CONTRACT body (R261). -/
structure Contract where
  stopOnRemoval : Bool := false
  replaceOnFault : Bool := false
  spanPiece : Bool := false
  reservedFlags : Bool := false
  rateFloor : Nat := 0
  verdictInterval : Nat := 0
  latencyBudget : Nat := 0
  spanHops : Nat := 0
  spillKib : Nat := 0
  claimBytes : Nat := 0
deriving DecidableEq, Repr

/-- An IMG_PORT body (R263). -/
structure ImgPortRec where
  port : Nat := 0
  links : Nat := 0
  bitRate : Nat := 0
  pixelFormat : Nat := 0
  compand : Bool := false
  lineScan : Bool := false
  encoder : Nat := 0
  align : Nat := 0
  delivered : Nat := 0
  roiX : Nat := 0
  roiY : Nat := 0
  roiW : Nat := 0
  roiH : Nat := 0
  winW : Nat := 0
  winH : Nat := 0
  stagA : Nat := 0
  stagB : Nat := 0
deriving DecidableEq, Repr

/-- A SND_PORT body (R265). -/
structure SndPortRec where
  port : Nat := 0
  master : Bool := false
  mclk : Bool := false
  fsyncLow : Bool := false
  commonStart : Bool := false
  slots : Nat := 0
  slotWidth : Nat := 0
  offset : Nat := 0
  fsyncForm : Nat := 0
  imageRate : Nat := 0
  align : Nat := 0
  frameRate : Nat := 0
  inMask : Nat := 0
  outMask : Nat := 0
  silent : Nat := 0
  ramp : Nat := 0
  delivered : Nat := 0
deriving DecidableEq, Repr

/-- An ALIGN body (R266). -/
structure AlignRec where
  id : Nat := 0
  sound : Bool := false
  members : Nat := 0
  clock : Nat := 0
deriving DecidableEq, Repr

/-- An entry of a CXP_SCRIPT (R264). -/
structure ScriptEntry where
  op : Nat
  addr : Nat
  value : Nat
  mask : Nat
deriving DecidableEq, Repr

/-- A pin entry of the VERDICT record (R268). -/
structure PinEntry where
  pin : Nat := 0
  rejectHigh : Bool := false
  failsafe : Nat := 0
  pulseNs : Nat := 0
  classSet : Nat := 0
deriving DecidableEq, Repr

/-- The VERDICT body (R268); class sets are 256-bit masks. -/
structure VerdictRec where
  classes : Nat := 0
  tOn : BitVec 16 := 0
  tOff : BitVec 16 := 0
  rejectSet : Nat := 0
  pins : List PinEntry := []
deriving DecidableEq, Repr

/-- The SPAN body (R269). -/
structure SpanRec where
  id : BitVec 64 := 0
  units : Nat := 0
  position : Nat := 0
  spa : Bool := false
  spb : Bool := false
deriving DecidableEq, Repr

/-- An entry of a REGS record (R273). -/
structure RegsEntry where
  p : Nat
  q : Nat
  reg : Nat
  value : Word
deriving DecidableEq, Repr

/-- An 8-byte extent entry (R275), also the segments of a QUEUE (R276). -/
structure ExtEntry where
  p : Nat
  q : Nat
  base : Nat
  length : Nat
deriving DecidableEq, Repr

/-- A QUEUE body (R276). -/
structure QueueRec where
  id : Nat := 0
  tClass : Bool := false
  lane : Nat := 0
  priority : Nat := 0
  capacity : Nat := 0
  channel : Nat := 0
  segs : List ExtEntry := []
  spill : List ExtEntry := []
deriving DecidableEq, Repr

/-- One cycle of the CYCLES record (R277). -/
structure CycleRec where
  setEntry : Nat
  queues : List Nat
deriving DecidableEq, Repr

/-- A BLOB body less its DATA (R278). -/
structure BlobRec where
  digest : List Byte := []
  number : Nat := 0
  format : Nat := 0
  baseReg : Nat := 0
  rect : Rect := ⟨0, 0, 0, 0⟩
  codewords : Nat := 0
deriving DecidableEq, Repr

/-- A ledger entry (R188). -/
structure LedgerEntry where
  kind : Nat := 0
  unit : Nat := 0
  place : Nat := 0
  index : Nat := 0
  bound : Word := 0
  param0 : Word := 0
  param1 : Word := 0
  param2 : Word := 0
  format : Nat := 0
  reservedZero : Bool := true
deriving DecidableEq, Repr

/-- A census-map entry (R280). -/
structure CensusEntry where
  isChannel : Bool := false
  opcode : Nat := 0
  number : Nat := 0
  piece : Nat := 0
  rect : Rect := ⟨0, 0, 0, 0⟩
  producer : Nat := 0
  consumer : Nat := 0
  name : List Byte := []
deriving DecidableEq, Repr

/-- A tunable entry (R281). -/
structure TunEntry where
  id : Nat := 0
  format : Nat := 0
  stage : Nat := 0
  target : Nat := 0
  offset : Nat := 0
  dflt : Word := 0
  min : Word := 0
  max : Word := 0
  name : List Byte := []
deriving DecidableEq, Repr

/-- A relation between two tunables (R281). -/
structure RelEntry where
  a : Nat := 0
  b : Nat := 0
  strict : Bool := false
deriving DecidableEq, Repr

/-- The body of a record, by its type (R256). -/
inductive Body where
  | signature (r s : Nat) (certs : List (List Byte))
  | epochs (fmt : Nat) (fw micro : List Nat)
  | contract (c : Contract)
  | piece (carryAxis claim : Nat)
  | imgPort (r : ImgPortRec)
  | sndPort (r : SndPortRec)
  | align (r : AlignRec)
  | script (port : Nat) (entries : List ScriptEntry)
  | stimulus (port slot : Nat) (samples : List (BitVec 16))
  | verdict (r : VerdictRec)
  | span (r : SpanRec)
  | context (rect : Rect) (image : List Byte)
  | regs (entries : List RegsEntry)
  | queue (r : QueueRec)
  | cycles (cs : List CycleRec)
  | extent (entries : List ExtEntry)
  | blob (r : BlobRec)
  | ledger (entries : List LedgerEntry)
  | censusMap (entries : List CensusEntry)
  | tunables (ts : List TunEntry) (rels : List RelEntry)
  | trailer (records groups : Nat) (counts : List Nat)
deriving DecidableEq, Repr

/-- A record: its header fields (R255) and its body. -/
structure Rec where
  type : Nat
  piece : Nat
  forms : Nat
  length : Nat
  group : Nat
  body : Body
deriving DecidableEq, Repr

/-- An image as far as it has been read: header, records in order, and the digest of its signed data (R258). -/
structure Image where
  header : ImgHeader := {}
  recs : List Rec := []
  digest : List Byte := []
deriving DecidableEq, Repr

/-- The running state of a SHA-256 over a byte stream: eight chaining words, bytes not yet a block, length so far. -/
structure ShaState where
  h : ShaSum := {}
  buf : List Byte := []
  len : Nat := 0
deriving DecidableEq, Repr

end Sys2Proof.Machine
end

