-- ==== Sys2Proof/Machine/State.lean ====
section
/-! DEFINITION. The state of the engine, held as plain data, and its reset value. Every field's default is its value at
reset; a field whose reset value the spec does not give names the log entry. -/

namespace Sys2Proof.Machine

/-! ## Why a command may stop -/

/-- Faults of the model. -/
inductive Fault where
  /-- A command names a tile outside columns 0-599 or rows 0-479, which does not exist ("Names and addresses", file 00).
  Raised by the tile commands. Safe: the model stops where the hardware has nothing to do (log entry 9). -/
  | noSuchTile
deriving DecidableEq, Repr

/-- Refusals of the model. -/
inductive Refusal where
  /-- A command with no meaning yet. Raised by the arms of `exec` only. Safe: nothing is claimed of the command. -/
  | notModelled (mnemonic : String)
deriving DecidableEq, Repr

/-! ## The unit: GLB, SUP, NV store -/

/-- Where the unit stands (R289, R439, R454). -/
inductive UnitPhase where
  /-- the I/O board has no power -/
  | off
  /-- R289 has run -/
  | up
  /-- a sag has shed the wafer; the pins are held from the save reservoir (R439 step 6) -/
  | shed
  /-- a restart is due (R291, R292, R454) -/
  | restarting
deriving DecidableEq, Repr

/-- Unit identity, status and the host link (GLB of R476, R382). -/
structure Glb where
  phase : UnitPhase := .off
  /-- BAR0 answers (R289 step 4) -/
  bar0 : Bool := false
  serial : BitVec 64 := 0
  irq : Word := 0
  /-- messages signalled on each vector (R383) -/
  vectors : Vector Nat 32 := Vector.replicate 32 0
  /-- the MSI-X table, 4 words a vector: address, its upper half, data, control with the mask in bit 0; and the pending bits
  (R470, R476; log entry 44) -/
  msix : Vector Word 128 := Vector.ofFn (fun k : Fin 128 => if k.val % 4 = 3 then 1 else 0)
  pba : Word := 0
  scratch : Word := 0
  powerOn : Nat := 0
  serviceOnly : Bool := false
  linkUp : Bool := false
  linkWidth : Nat := 0
  linkGen : Nat := 0
  /-- upper halves latched by reads of LO registers, by LO address (R472); unlisted is 0 -/
  hiLatch : List (Nat × Word) := []
  /-- data returned by the latest host read -/
  readData : Word := 0
deriving DecidableEq, Repr

/-- Firmware slot states (R290). -/
inductive SlotState where
  | empty | trial | active | previous | failed
deriving DecidableEq, Repr

/-- A firmware slot (R290, SUP_FW_A and SUP_FW_B). -/
structure FwSlot where
  state : SlotState := .empty
  epoch : Nat := 0
  minor : Nat := 0
  major : Nat := 0
  microSet : List Nat := []
  formatSet : List Nat := []
deriving DecidableEq, Repr

/-- A firmware command being carried out (R478). -/
inductive FwBusy where
  | write | close
deriving DecidableEq, Repr

/-- A fault-log entry (R456). -/
structure LogEntry where
  seq : Nat := 0
  powerOn : Nat := 0
  time : Nat := 0
  code : Nat := 0
  index : Nat := 0
  endOfEpisode : Bool := false
  detail0 : Nat := 0
  detail1 : Nat := 0
deriving DecidableEq, Repr

/-- A partition entry of a save record (R442). -/
structure SavePart where
  state : Nat := 0
  cause : Nat := 0
  ldgGen : Nat := 0
  digest : List Byte := []
  win : Nat := 0
  vrd : Nat := 0
  rej : Nat := 0
  nacc : Nat := 0
  lastSeq : Nat := 0
  gen : Nat := 0
deriving DecidableEq, Repr

/-- A thermal entry of a save record (R442). -/
structure SaveThermal where
  temp : Int := 0
  vdd : Nat := 0
  demand : Nat := 0
  throttle : Nat := 0
  highest : Int := 0
  steps : Nat := 0
  sheds : Nat := 0
  episodes : Nat := 0
deriving DecidableEq, Repr

/-- A save record (R442). CAUSE is 0 sag, 1 overvoltage, 2 firmware activation. -/
structure SaveRec where
  cause : Nat := 0
  seq : Nat := 0
  powerOn : Nat := 0
  time : Nat := 0
  parts : List SavePart := []
  cap : Nat := 0
  binding : Bool := false
  prio : List Nat := []
  margin : List Nat := []
  thermal : List SaveThermal := []
  tail : List LogEntry := []
deriving DecidableEq, Repr

/-- Firmware slots, upload and selection registers (SUP of R476, R477). -/
structure Sup where
  slotA : FwSlot := { state := .active, major := 3, microSet := [0], formatSet := [7] }
  slotB : FwSlot := {}
  bootedB : Bool := false
  busy : Option FwBusy := none
  openUp : Bool := false
  done : Bool := false
  errSeq : Bool := false
  errSig : Bool := false
  errRefused : Bool := false
  fwBlock : Word := 0
  fwLen : Word := 0
  tsetSel : Word := 0
  saveSel : Word := 0
  rootSel : Word := 0
  fwBuf : Vector Word 64 := Vector.replicate 64 0
  /-- blocks stored by WRITE, in order; their number is `next` of R477 -/
  blocks : List (List Word) := []
  /-- an activation waits for the running partitions to drain (R291) -/
  activating : Bool := false
  /-- watchdog restarts with no run of 3,600 s between them (R454) -/
  watchdogCount : Nat := 0
  /-- health check that a watchdog or a bad signature failed, until step 3 of R289 logs it (R292) -/
  revertCheck : Option Nat := none
  /-- POWER_ON and timestamp of the watchdog's expiry, until step 3 of R289 logs it -/
  watchdogRun : Option (Nat × Nat) := none
deriving DecidableEq, Repr

/-- What the unit NV store keeps that no other part of the state holds. -/
structure Nv where
  /-- the two save-record copies of R442; none where the header CRC fails -/
  saveA : Option SaveRec := none
  saveB : Option SaveRec := none
  /-- public keys of the enrolled image roots and cartridge roots (R243, R259): 0x04 with both coordinates (PRESUMED, log entry 108) -/
  imageRoots : Vector (Option (List Byte)) 4 := #v[some (4 :: List.replicate 64 0), none, none, none]
  cartRoots : Vector (Option (List Byte)) 4 := #v[some (4 :: List.replicate 64 0), none, none, none]
  /-- the fleet keys held in the crypto block, at most two, each with its KEY_ID (R237; log entry 2) -/
  fleetKeys : List (Nat × List Byte) := [(0, List.replicate 32 0)]
  /-- the factory record of R48 -/
  factoryGrade : Nat := 1
  factoryUsable : Nat := 0xFFFFF
  /-- (cartridge ID, counter number) of the wear warnings already logged (R247) -/
  wearLogged : List (BitVec 64 × Nat) := []
deriving DecidableEq, Repr

/-! ## Timebase -/

/-- The Phlox timebase (R67-R71, TBS of R476). -/
structure Tbs where
  src : Fin 3 := 0
  srcInUse : Fin 3 := 0
  locked : Bool := false
  holdover : Bool := false
  refPresent : Bool := false
  lostEv : Bool := false
  backEv : Bool := false
  time : BitVec 64 := 0
  everLocked : Bool := false
  slewing : Bool := false
  losses : Nat := 0
  refPpb : Int := 0
deriving DecidableEq, Repr

/-! ## Wafer -/

/-- A site-table entry (R43). The E and S spare counts are kept apart, since a re-test replaces them edge by edge. -/
structure SiteEntry where
  holed : Bool := false
  cause : Nat := 0
  bad : Nat := 0
  rows : List Nat := []
  cols : List Nat := []
  edges : Nat := 0
  sparesE : Nat := 0
  sparesS : Nat := 0
  lastSeq : Nat := 0
deriving DecidableEq, Repr

/-- A region-table entry (R44). -/
structure RegionEntry where
  state : Nat := 0
  adj : Nat := 0
  events : Nat := 0
  retests : Nat := 0
deriving DecidableEq, Repr

/-- A test-history record (R45). -/
structure HistRec where
  seq : Nat := 0
  powerOn : Nat := 0
  time : Nat := 0
  kind : Nat := 0
  outcome : Nat := 0
  scope : Nat := 0
  newBad : Nat := 0
  recovered : Nat := 0
  bad : Nat := 0
deriving DecidableEq, Repr

/-- A copy of the defect map (R40-R46). Bitmaps are rising lists of 4,096 x site + 64 py + px. -/
structure DefMap where
  shipGrade : Nat := 0
  grade : Nat := 0
  usable : Nat := 0
  shipUsable : Nat := 0
  tests : Nat := 0
  newestSeq : Nat := 0
  valid : Nat := 0
  newestIdx : Nat := 0
  badNow : Nat := 0
  sites : Vector SiteEntry 80 := Vector.replicate 80 {}
  regions : Vector RegionEntry 20 := Vector.replicate 20 {}
  bad : List Nat := []
  everBad : List Nat := []
  /-- history ring by index 0-2,047 -/
  ring : List (Nat × HistRec) := []
deriving DecidableEq, Repr

/-- A site's place in the configuration-network tree (R74). -/
structure TreeNode where
  depth : Nat
  root : Fin 4
  parent : Option SiteId
deriving DecidableEq, Repr

/-- Defect map, configuration network, microcode epochs and load lanes (R47, R74, R75, R293). -/
structure Wafer where
  /-- the two copies; none where the header CRC fails -/
  copy0 : Option DefMap := none
  copy1 : Option DefMap := none
  /-- the shipment test's history record, in the factory record of R48 -/
  factoryRec : HistRec := { scope := 0xFFFFF }
  badHops : List (SiteId × Dir) := []
  badEntries : List (Fin 4) := []
  /-- Phlox couplings that failed their latest test (R34, R68) -/
  badCouplings : List (SiteId × Dir) := []
  /-- skipped rows and columns to which the bypass switches and edge multiplexers of each site are set (R28, R29) -/
  settings : Vector (List Nat × List Nat) 80 := Vector.replicate 80 ([], [])
  /-- the copy (true: copy 1) that was written last and the timestamp of that write (R47) -/
  mapWritten : Option (Bool × Nat) := none
  tree : Vector (Option TreeNode) 80 := Vector.replicate 80 none
  microEpoch : Vector Nat 80 := Vector.replicate 80 0
  /-- load lanes held at each entry, at most 2 (R75) -/
  lanesHeld : Vector Nat 4 := Vector.replicate 4 0
  /-- loads waiting for lanes, in order of acceptance -/
  laneQueue : List PartId := []
  /-- loads accepted so far (R75) -/
  accepts : Nat := 0
deriving DecidableEq, Repr

/-! ## Regions -/

/-- A flit that waits in a stream gateway: its gateway output 0-7 (R334) and, unless it is of a gap line, the port and line or
sound stream (16 + its lowest port) and block it belongs to, which it still keeps buffered (R338, R366); a flit of inbound span
channel c carries (32 + c, 0) (R408, R415). -/
structure GateFlit where
  out : Nat
  flit : Flit
  src : Option (Nat × Nat) := none
deriving DecidableEq, Repr

/-- A power region: supply, governor, gates, ownership (R425-R438, RGN of R476). Voltages in mV, temperatures in 0.1 C. -/
structure Region where
  supplyOn : Bool := false
  /-- out of service after a failed scrub read-back (R212) or a supply fault found at test -/
  supplyOut : Bool := false
  vdd : Nat := 0
  demand : Nat := 0
  throttleCeil : Nat := 850
  currentCeil : Nat := 850
  temp : Int := 0
  tempHigh : Int := 0
  current : Nat := 0
  rate : Nat := 0
  throttleSteps : Nat := 0
  /-- steps of the throttle episode that is open -/
  throttleEpisodeSteps : Nat := 0
  /-- 1 ms evaluations since the throttle ceiling last changed, held at 10 (log entry 12) -/
  throttleAge : Nat := 10
  sheds : Nat := 0
  /-- timestamps of the heat sheds (R432) -/
  shedTimes : List Nat := []
  iEpisodes : Nat := 0
  /-- rate-loop intervals since the latest change of VDD, newest first: (windows, busy samples) (R429) -/
  intervals : List (Nat × Nat) := []
  retest : Nat := 0
  underTest : Bool := false
  /-- timestamp at which the running re-test began (R45) -/
  testStart : Nat := 0
  heatOff : Bool := false
  cycleOff : Bool := false
  unreachable : Bool := false
  owner : Option PartId := none
  /-- boundary gate open toward N, E, S, W (R206) -/
  gates : Vector Bool 4 := Vector.replicate 4 false
  /-- flits waiting in the stream gateway, oldest first (R334) -/
  gatewayOut : List GateFlit := []
deriving DecidableEq, Repr

/-! ## Tiles -/

/-- A route-table entry (R102, R270). -/
structure RouteEntry where
  enable : Bool := false
  /-- output mask over forward/north, right/east, back/south, left/west, local, bit 0 first -/
  mask : BitVec 5 := 0
  lane : BitVec 3 := 0
deriving DecidableEq, Repr

/-- What a context holds (R91). -/
inductive CtxUse where
  | empty | staged | inUse
  /-- of the image that a commit point replaced, until the scrub of R213 -/
  | old
deriving DecidableEq, Repr

/-- One context of a tile (R90, R270). -/
structure Context where
  use : CtxUse := .empty
  route : Vector RouteEntry 30 := Vector.replicate 30 {}
  /-- operator microconfiguration, bytes 0-255 of R272 -/
  micro : List Byte := []
  gInit : Vector Word 32 := Vector.replicate 32 0
  g : Vector Word 32 := Vector.replicate 32 0
  /-- control-cell words of R271 -/
  cells : Vector (BitVec 64) 8 := Vector.replicate 8 0
  ff : Vector Bool 8 := Vector.replicate 8 false
deriving DecidableEq, Repr

/-- A lane's accumulator or block total: its 32-bit pattern, S32 or A32 by the mode, and whether it is saturated. -/
structure Acc where
  bits : Word := 0
  sat : Bool := false
deriving DecidableEq, Repr

/-- The event and stall counters of a tile (R105, R156). -/
structure TileCounters where
  overflow : Nat := 0
  reserved : Nat := 0
  collision : Nat := 0
  eccCorr : Nat := 0
  eccUncorr : Nat := 0
  linkErr : Nat := 0
  configErr : Nat := 0
  steps : Nat := 0
  busy : Nat := 0
  starved : Nat := 0
  blocked : Nat := 0
deriving DecidableEq, Repr

/-- A tile (R77-R105). Fields at their defaults are those of a scrubbed tile (R211). -/
structure Tile where
  ctx : Vector Context 4 := Vector.replicate 4 {}
  active : Fin 4 := 0
  /-- the product table and the exponent carried beside it (R77) -/
  table : Vector Int 16 := Vector.replicate 16 0
  tableExp : Int := 0
  tableNan : Bool := false
  acc : Vector Acc 16 := Vector.replicate 16 {}
  total : Vector Acc 16 := Vector.replicate 16 {}
  /-- a reduction is under way: something has been accumulated since the output unit last took the values -/
  reducing : Bool := false
  /-- router input buffers, port 0-4 (N, E, S, W, local) by lane 0-5: index 6 x port + lane (R59) -/
  inputs : Vector (List Flit) 30 := Vector.replicate 30 []
  /-- credits toward N, E, S, W by lane: index 6 x side + lane (R59) -/
  credits : Vector Nat 24 := Vector.replicate 24 4
  /-- lane served last on each output port (R60); none has been, so lane 0 is first (DESIGN CHOICE, log entry 100) -/
  served : Vector (Fin 6) 5 := Vector.replicate 5 5
  /-- credits to be returned to the sender on N, E, S, W by lane, in the next credit flit (R59) -/
  owed : Vector Nat 24 := Vector.replicate 24 0
  /-- the 72 wires driven toward N, E, S, W (R55, R56): a flit in flight, or all low when the link is neutral -/
  driven : Vector Wires 4 := Vector.replicate 4 0
  /-- flits on the local input lanes, oldest first (R104); at most 4 on a lane, as at every router input (R59) -/
  local6 : Vector (List Flit) 6 := Vector.replicate 6 []
  /-- bytes already taken from the first flit of each local S-class lane (R114, R125) -/
  pos : Vector Nat 4 := Vector.replicate 4 0
  /-- elements taken from each local S-class lane since the window began; for a ring or a frame store, since the release -/
  taken : Vector Nat 4 := Vector.replicate 4 0
  /-- the flit with the window's end mark has been consumed on each local S-class lane (R135) -/
  ended : Vector Bool 4 := Vector.replicate 4 false
  /-- every result of the window has left the output unit, and the flits up to the end marks are still to be taken -/
  closing : Bool := false
  /-- reduction ends of the window so far, steps of the present reduction, weights of the present block (R85) -/
  red : Nat := 0
  step : Nat := 0
  block : Nat := 0
  /-- bitmap bits left of the Petal group being decoded on each local S-class lane, next first (R183) -/
  petal : Vector (List Bool) 4 := Vector.replicate 4 []
  /-- sidecar flits taken while the tile waits for the rest of a scale group, oldest first (R125) -/
  side : List Flit := []
  /-- the previous element of the row gave 1 (threshold stage, R164) -/
  prev : Bool := false
  /-- elements of a Petal group not yet complete (R183), and element positions not yet filling a flit (R114) -/
  outElems : List Nat := []
  outPos : List Nat := []
  /-- flits of the window already sent on the output lane (R183) -/
  outFlits : Nat := 0
  /-- flits that wait to enter the router's local input, oldest first -/
  sendQ : List Flit := []
  /-- windows that the stage of this tile has begun to decide since the release (R176) -/
  winDone : Nat := 0
  counters : TileCounters := {}
  /-- the census snapshot latch (R462) -/
  latch : TileCounters := {}
  scrubPtr : Nat := 0
  /-- a step has run since the last 16 ns sample (R156) -/
  stepped : Bool := false
deriving DecidableEq, Repr

/-! ## Partitions -/

/-- Partition states of R316. -/
inductive PState where
  | empty | placing | loading | staged | running | draining | spanWait
  | faultHeld | faultDark | faultHot | faultSpan | faultMem
deriving DecidableEq, Repr

/-- The kinds of load request (R310, QKIND of PRT_QUEUE). -/
inductive ReqKind where
  | insertion | hostReload | hostUnload | automatic
deriving DecidableEq, Repr

/-- Where a load in flight stands (R296, R303, R307, R311). -/
inductive LoadPhase where
  /-- waits for the drain and scrub of the load it aborted (R312) -/
  | waitAbort
  /-- waits for the end of an in-field re-test before placing again (R52) -/
  | waitRetest
  /-- waits for load lanes (R75) -/
  | waitLane
  /-- the pre-load scrub of its path runs (R296 step 4) -/
  | preScrub
  /-- records stream (R296 step 6, R303 step 2) -/
  | streaming
  /-- rendezvous (R296 step 8) -/
  | spanWait
  /-- the drain before the commit point or before a cold reload runs -/
  | draining
  /-- a cold reload's unload scrub runs (R307) -/
  | unloadScrub
deriving DecidableEq, Repr

/-- Piece forms of R198. -/
inductive Form where
  | straight | cornerRight | cornerLeft | endForm
deriving DecidableEq, Repr

/-- A piece as placed: region, orientation code, form (R201, R204). -/
structure PlacedPiece where
  region : RegionId
  code : Fin 8
  form : Form
deriving DecidableEq, Repr

/-- A placement: handedness and pieces in chain order (R193, R204). -/
structure Placement where
  mirror : Bool := false
  pieces : List PlacedPiece := []
deriving DecidableEq, Repr

/-- A claim of codewords in a tile (R274). -/
structure Claim where
  tile : Nat
  base : Nat
  length : Nat
  use : CtxUse
  /-- digest of the blob held there, where it is a blob's claim (R278) -/
  blob : Option (List Byte) := none
deriving DecidableEq, Repr

/-- A slot entry of the image directory (R234). -/
structure Slot where
  present : Bool := false
  unitBound : Bool := false
  crcOk : Bool := false
  epoch : Nat := 0
  chainLen : Nat := 0
  keyId : Nat := 0
  startLba : Nat := 0
  length : Nat := 0
  digest : List Byte := []
  unitSerial : Nat := 0
  wrapNonce : List Byte := []
  wrappedKey : List Byte := []
  wrapTag : List Byte := []
  /-- bytes 0-63 of the entry, which the tag of the key wrap covers (R237) -/
  aad : List Byte := []
deriving DecidableEq, Repr

/-- A load in flight (R311). -/
structure Load where
  kind : ReqKind := .insertion
  staged : Bool := false
  phase : LoadPhase := .streaming
  /-- what the request read of its image, until its checks have run -/
  obs : Option LoadObs := none
  image : Image := {}
  placement : Placement := {}
  /-- the slot that the image comes from, and the content key that it unwrapped to (R237) -/
  slot : Slot := {}
  key : List Byte := []
  sha : ShaState := {}
  /-- the digest as it stood after the contract section, from which a cold reload streams again (R304) -/
  frontSha : ShaState := {}
  /-- bytes of the image read so far, skipped blob DATA included (R253) -/
  bytes : Nat := 0
  /-- bytes of shared blobs' DATA, skipped and not streamed (R278) -/
  skipped : Nat := 0
  /-- next ciphertext chunk (R239) -/
  chunk : Nat := 0
  /-- verified plaintext that follows those bytes (R240) -/
  plain : List Byte := []
  /-- reads of chunks and tags that have completed (R230) -/
  got : List NvmeCmd := []
  /-- a cold reload of a running partition whose drain has not begun (R307, R315) -/
  reloadsOld : Bool := false
  /-- streaming is over and checks 6-8 passed -/
  checked : Bool := false
  /-- entries at which the load holds a lane (R75) -/
  loadLanes : List (Fin 4) := []
  /-- its place in the order in which the supervisor accepted loads (R75) -/
  order : Nat := 0
deriving DecidableEq, Repr

/-- An accepted window without a verdict record (R152, R318). -/
structure Window where
  index : Nat := 0
  /-- lowest port of its image stream, and column in it (R331); 0 for sound -/
  src : Nat := 0
  column : Nat := 0
  sound : Bool := false
  gen : Nat := 0
  incomplete : Bool := false
  /-- last-sample instant, once it has entered (R342) -/
  tLast : Option Nat := none
deriving DecidableEq, Repr

/-- A verdict token (R177). -/
structure VToken where
  cls : Nat := 0
  reject : Bool := false
  shed : Bool := false
  score : BitVec 16 := 0
  aux0 : BitVec 16 := 0
  aux1 : BitVec 16 := 0
deriving DecidableEq, Repr

/-- An episode of windows not accepted (R394). -/
structure GapEpisode where
  count : Nat := 0
  first : Nat := 0
  last : Nat := 0
  frames : Bool := false
deriving DecidableEq, Repr

/-- Why a drain runs (R301, R420). -/
inductive DrainWhy where
  | staged | coldReload | unload | restart
  /-- a span peer left (R420) -/
  | peerLeft
  /-- stop-on-removal (R20) -/
  | stopOnRemoval
  /-- a cold load was aborted after its drain began (R312) -/
  | aborted
deriving DecidableEq, Repr

/-- Why an unload scrub of a partition's regions runs (R211, R449, R307, R315). -/
inductive ScrubWhy where
  | toEmpty | fault | coldReload
deriving DecidableEq, Repr

/-- A declared queue in force (R136, R143-R145, R157). -/
structure QueueSt where
  cfg : QueueRec := {}
  /-- the tile of its first segment -/
  tile : Nat := 0
  /-- queue segments and spill segments: tile, base register and flits of each (R136, R276) -/
  places : List (Nat × Nat × Nat) := []
  spills : List (Nat × Nat × Nat) := []
  /-- ring position of the head and flits held, in the queue and in its spill segment; the flits stand in block memory -/
  head : Nat := 0
  count : Nat := 0
  segHead : Nat := 0
  segCount : Nat := 0
  spilling : Bool := false
  /-- it has entered the spilling state in the episode that is open (R157) -/
  inEpisode : Bool := false
  occHigh : Nat := 0
  episodes : Nat := 0
  spilled : Nat := 0
  segHigh : Nat := 0
deriving DecidableEq, Repr

/-- A box, inclusive (R165). -/
structure Box where
  x0 : Nat
  y0 : Nat
  x1 : Nat
  y1 : Nat
deriving DecidableEq, Repr

/-- An open component of an extraction stage: its label, extent, area, first pixel in raster order, pixel of its highest score
element with that element and the features there, and the last row that holds a pixel (R165, R166, R494). -/
structure Comp where
  label : Nat
  box : Box
  area : Nat
  first : Nat
  best : Nat
  score : Nat
  feats : List Nat
  lastRow : Nat
deriving DecidableEq, Repr

/-- An extraction under way: the next pixel, open components, labels of the row above and of the present row, components shed for
want of a label. A label of 0 is none; a shed component's pixels have label 4,097. -/
structure Scan where
  pixel : Nat := 0
  opened : List Comp := []
  above : List Nat := []
  row : List Nat := []
  shed : Nat := 0
deriving DecidableEq, Repr

/-- A stage that takes T-class tokens, or turns a raster into them, at work on a window (R139-R141, R148-R150, R158,
R164-R175). -/
structure StageSt where
  number : Nat := 0
  opcode : Nat := 0
  /-- flits of the token now arriving, oldest first -/
  cur : List Flit := []
  /-- whole tokens taken for the window, oldest first -/
  tokens : List (List Flit) := []
  /-- count still to be taken, once the window token has arrived (R140) -/
  expect : Option Nat := none
  /-- members already complete, while message passing takes its edges (R168) -/
  members : Option (List (List Flit)) := none
  /-- the verdict stage: window tokens taken for the window (R175) -/
  wtokens : Nat := 0
  scan : Scan := {}
  /-- elements taken for an extraction's next pixel: its mask, score and features; the verdict stage's logits in `scores` -/
  mask : List Nat := []
  scores : List Nat := []
  feats : List Nat := []
  /-- excess tokens still to be discarded (R140) -/
  discard : Nat := 0
  /-- SHED seen for the window (R167) -/
  shedIn : Bool := false
  shedMode : Bool := false
  shedCandidates : Nat := 0
  shedWindows : Nat := 0
  shedEpisodes : Nat := 0
deriving DecidableEq, Repr

/-- Fabric-side work of a partition. -/
structure Fabric where
  queues : List QueueSt := []
  /-- timer start of each cycle of the cycle table, none when stopped (R144) -/
  timers : List (Option Nat) := []
  /-- opening time of the open spill episode (R146) -/
  spillOpen : Option Nat := none
  spillEpisodes : Nat := 0
  lastDrain : Nat := 0
  stages : List StageSt := []
  claims : List Claim := []
  /-- context that the old image occupied, until its scrub after a commit (R213); regions beyond L' (R205) -/
  postScrub : Option (List RegionId) := none
deriving DecidableEq, Repr

/-- Windows, verdicts and drains of a partition. -/
structure Flow where
  inputOpen : Bool := false
  windows : List Window := []
  /-- windows that have entered `windows` since the release -/
  entered : Nat := 0
  tokens : List VToken := []
  lastRelease : Option Nat := none
  /-- records since release, SEQ of R391 -/
  seq : Nat := 0
  /-- hysteresis streams, by 16,384 x lowest port + column, whose previous window gave reject = 1 (R175) -/
  hyst : List Nat := []
  /-- first flit of a verdict token whose second has not reached the verdict port (R177) -/
  vtok : List Flit := []
  gap : Option GapEpisode := none
  drain : Option DrainWhy := none
  /-- the staged drain is complete and the context switch may follow (R303 step 5) -/
  drained : Bool := false
  /-- an automatic reload is due after the scrub of a fault entry (R452, R453) -/
  autoDue : Bool := false
  scrub : Option ScrubWhy := none
  /-- Lupin stage broadcast and not yet acknowledged (R298) -/
  lupin : Option Nat := none
  /-- first frame of the sound window decided last (R360, R361) -/
  sndLast : Option Nat := none
  /-- windows accepted since the latest 100 us interval ended (R428) -/
  interval : Nat := 0
  /-- instant of entry into SPAN_WAIT, release or commit -/
  since : Nat := 0
deriving DecidableEq, Repr

/-- Host-visible registers of a partition that are not derived (PRT of R476). -/
structure PrtRegs where
  cause : Nat := 0
  applyErr : Bool := false
  applyBusy : Bool := false
  applyDone : Bool := false
  cmdErr : Bool := false
  stateChg : Bool := false
  causeSet : Bool := false
  /-- PRT_BREACH: cause bits [3:0] and FLOOR_BREACH -/
  breachCause : BitVec 4 := 0
  floorBreach : Bool := false
  breachOpen : Bool := false
  /-- 100 us evaluations without a breach while an episode is open (R430) -/
  breachQuiet : Nat := 0
  prio : Nat := 0
  margin : Nat := 0
  ldgSel : Word := 0
  ldgGen : Nat := 0
  tdeclSel : Word := 0
  epochSel : Word := 0
  imgSel : Word := 0
  win : Nat := 0
  vrd : Nat := 0
  rej : Nat := 0
  nacc : Nat := 0
  /-- points the cap loop has taken from the margin in force (R434) -/
  marginTaken : Nat := 0
  capCeil : Option Nat := none
deriving DecidableEq, Repr

/-- Tunables of a partition (R282, R283, R318, R483). -/
structure Tunables where
  shadow : Vector Word 32 := Vector.replicate 32 0
  /-- generation in force -/
  gen : Nat := 0
  /-- value sets since the release, newest first, each with the number of the first window bound to it (R318) -/
  sets : List (Nat × List Word) := []
deriving DecidableEq, Repr

/-- The census latch of a declared queue (R462, R468). -/
structure QueueLatch where
  channel : Nat := 0
  tile : Nat := 0
  occHigh : Nat := 0
  segHigh : Nat := 0
  episodes : Nat := 0
  spilled : Nat := 0
deriving DecidableEq, Repr

/-- The census latch of a set-entry stage (R462, R467). -/
structure ShedLatch where
  number : Nat := 0
  candidates : Nat := 0
  windows : Nat := 0
  episodes : Nat := 0
deriving DecidableEq, Repr

/-- One census in flight (R461-R464). -/
structure CensusRun where
  tick : Nat := 0
  automatic : Bool := false
  /-- the tick has passed and the latches hold its counters -/
  latched : Bool := false
  holdover : Bool := false
  /-- latches of the queues, the set-entry stages and the stall detector: its episodes and last drain time (R462) -/
  queues : List QueueLatch := []
  sheds : List ShedLatch := []
  spillEpisodes : Nat := 0
  lastDrain : Nat := 0
  /-- image and ledger generation active at the tick (R464) -/
  image : Image := {}
  placement : Placement := {}
  ldgGen : Nat := 0
deriving DecidableEq, Repr

/-- Larkspur census of a partition (R460-R469). -/
structure Census where
  period : Nat := 0
  nextPeriodic : Option Nat := none
  err : Bool := false
  cancelled : Bool := false
  skipped : Nat := 0
  run : Option CensusRun := none
  queued : Bool := false
  /-- the final census of a fault entry, while an earlier one is still being read (R449 step 5) -/
  finalRun : Option CensusRun := none
  nextId : Nat := 0
  lastId : Option Nat := none
  /-- records of the latest completed census, as bytes -/
  records : List (List Byte) := []
deriving DecidableEq, Repr

/-- The span side of a partition (R417-R423). -/
structure SpanPart where
  dready : Bool := false
  /-- GO has come, or DREADY 1 stands at the last position: the release follows (R419 steps 4 and 5) -/
  due : Bool := false
deriving DecidableEq, Repr

/-- A partition P0-P7. -/
structure Partition where
  state : PState := .empty
  regs : PrtRegs := {}
  load : Option Load := none
  queued : Option ReqKind := none
  autoTimes : List Nat := []
  placement : Option Placement := none
  active : Option Image := none
  tun : Tunables := {}
  flow : Flow := {}
  fabric : Fabric := {}
  census : Census := {}
  span : SpanPart := {}
deriving DecidableEq, Repr

/-! ## Bays -/

/-- Presence of a cartridge (R223). -/
inductive Presence where
  | absent | debouncing | inserted
deriving DecidableEq, Repr

/-- Where the NVMe side of a cartridge stands (R224, R231). -/
inductive NvmePhase where
  | held | training | ready | done
deriving DecidableEq, Repr

/-- A life record (R250), less its constants, the unit's serial and the bay. -/
structure LifeRec where
  seq : Nat := 0
  kind : Nat := 0
  powerOn : Nat := 0
  time : Nat := 0
  windows : Nat := 0
  verdicts : Nat := 0
  rejects : Nat := 0
  insertions : Nat := 0
  hours : Nat := 0
  digest : List Byte := []
deriving DecidableEq, Repr

/-- A cartridge bay (R219-R252, BAY of R476). -/
structure Bay where
  presence : Presence := .absent
  /-- 12 V is on; and it has been reported good -/
  power : Bool := false
  good : Bool := false
  perst : Bool := true
  /-- SCL and SDA are driven low (R227; at reset DEDUCED, log entry 109) -/
  busLow : Bool := true
  tripped : Bool := false
  identityDone : Bool := false
  nvme : NvmePhase := .held
  accepted : Bool := false
  cause : Nat := 0
  id : BitVec 64 := 0
  insertions : Nat := 0
  stateWrites : Nat := 0
  hours : Nat := 0
  progTime : Nat := 0
  smartCritical : Nat := 0
  smartUsed : Nat := 0
  armed : Fin 4 := 0
  slots : List Slot := []
  linkWidth : Nat := 0
  linkGen : Nat := 0
  /-- wear sources that have applied: INSERTIONS, STATE_WRITES, SMART -/
  wear : BitVec 3 := 0
  lifeSeq : Nat := 0
  lifeLast : Option LifeRec := none
  /-- commands sent to the secure element since the insertion, oldest first (R241) -/
  seSent : List (List Byte) := []
  /-- writes and flushes of the state area that have not completed (R251) -/
  writes : List NvmeCmd := []
  /-- set-up commands that have completed before the cartridge reported ready (R224 step 6) -/
  setUp : List NvmeCmd := []
  /-- commands that failed once and are retried; controller resets so far (R231) -/
  retried : List NvmeCmd := []
  resets : Nat := 0
deriving DecidableEq, Repr

/-! ## Image and sound ports, encoders -/

/-- A line held at a camera port: its index and, unless it is a gap line, its elements (R337). -/
structure HeldLine where
  index : Nat := 0
  gap : Bool := false
  elems : List Nat := []
deriving DecidableEq, Repr

/-- A control packet that a camera port sends (R320, R321): ConnectionConfig for so many connections at CXP-n, or a write or a read that
its script asks for. -/
inductive CtrlPacket where
  | config (links rate : Nat)
  | write (addr value : Nat)
  | read (addr : Nat)
deriving DecidableEq, Repr

/-- An image connection; the camera-port fields stand at the master connection (R322, IMG of R476). -/
structure ImgConn where
  owner : Option PartId := none
  master : Fin 16 := 0
  locked : Bool := false
  dcPresent : Bool := false
  ignored : Nat := 0
  crc : Nat := 0
  /-- settings in force and settings on the shadow side (R286) -/
  cfg : Option ImgPortRec := none
  shadow : Option ImgPortRec := none
  ready : Bool := false
  /-- the settings on the shadow side need no bring-up, or theirs has reached step 6 of R323 -/
  shadowReady : Bool := false
  linkDown : Bool := false
  mismatch : Bool := false
  bringup : Nat := 0
  bayer : Option (Fin 4) := none
  missing : Nat := 0
  gapForced : Nat := 0
  extra : Nat := 0
  late : Nat := 0
  evtSuppressed : Nat := 0
  /-- the second of the timebase that events were last logged in, and how many in it -/
  evtSecond : Nat := 0
  evtCount : Nat := 0
  notAccepted : Nat := 0
  anchor : Option Nat := none
  /-- delivery to the fabric is open (R341) -/
  delivering : Bool := false
  /-- trigger packets are sent on line pulses (R323 step 5, R328) -/
  triggering : Bool := false
  /-- triggers sent and neither paired nor declared missing, oldest first (R329) -/
  waiting : List Nat := []
  /-- lines expected and not yet released to the fabric, oldest first (R337) -/
  due : List Nat := []
  /-- lines declared missing and not yet arrived -/
  overdue : Nat := 0
  /-- line width of the image header in force; a header has come since the bring-up (R324, R327) -/
  lineWidth : Nat := 0
  headerSeen : Bool := false
  /-- lines counted by a port without an encoder (R330) -/
  ownIndex : Nat := 0
  held : List HeldLine := []
  /-- control packets of the latest bring-up or reconnection (R321, R323) -/
  ctrl : List CtrlPacket := []
  /-- trigger packets sent (R328), and acknowledgements of event packets (R340) -/
  triggersSent : Nat := 0
  acksSent : Nat := 0
  /-- heartbeats received on this connection; its 1 s timer runs from the latest (R339) -/
  heartbeats : Nat := 0
  lastHeartbeat : Nat := 0
deriving DecidableEq, Repr

/-- Where a sound port stands in R364. -/
inductive SndPhase where
  | idle | silent | waitT0 | running | relock | stopping
  /-- zero data in every output slot, clocks running, after a fault entry (R449 step 2) -/
  | muted
deriving DecidableEq, Repr

/-- A sound port (R344-R369, SND of R476). -/
structure Snd where
  owner : Option PartId := none
  cfg : Option SndPortRec := none
  shadow : Option SndPortRec := none
  phase : SndPhase := .idle
  clockOk : Bool := false
  asrcLocked : Bool := false
  clockLost : Bool := false
  rateError : Bool := false
  mismatch : Bool := false
  rate : Nat := 0
  fsyncMiss : Nat := 0
  frameErr : Nat := 0
  insOwn : Nat := 0
  insForced : Nat := 0
  outDrop : Nat := 0
  underruns : Nat := 0
  unbounded : Nat := 0
  notAccepted : Nat := 0
  t0 : Nat := 0
  /-- index of the first frame in the buffer: where the next block starts (R356, R358) -/
  frame : Nat := 0
  /-- remainder of the ratio of image rate to frame rate (R351) -/
  phaseAcc : Nat := 0
  bufHigh : Nat := 0
  /-- silent frames still to run (R364) -/
  silentLeft : Nat := 0
  /-- image-rate frames buffered, oldest first; none is an absent frame (R362, R366) -/
  buffer : List (Option (List (BitVec 24))) := []
  /-- flits of the output block that is arriving at the gateway (R359) -/
  blockIn : List Flit := []
  /-- fabric-slot samples by frame, and the play state of R368 -/
  outSamples : List (Nat × List (BitVec 24)) := []
  playFrame : Nat := 0
  underrun : Bool := false
  rampLeft : Nat := 0
  /-- frames checked present since the last ramp ended, at most RAMP -/
  cleanRun : Nat := 0
  /-- codes given to the output ASRC at the latest play instant, by slot (R367, R368) -/
  playing : List (Nat × BitVec 24) := []
  /-- codes that the current frame and the one before carry on DOUT, by slot; a slot not listed carries 0 (R344, R352, R359) -/
  dout : List (Nat × Nat) := []
  doutBefore : List (Nat × Nat) := []
  /-- stimulus loop of the port: (slot, samples) (R367) -/
  stimulus : List (Nat × List (BitVec 16)) := []
  /-- clocks driven, BCLK FSYNC MCLK (R346, R348) -/
  driving : Bool := false
deriving DecidableEq, Repr

/-- An encoder input (R378-R380, ENC of R476). -/
structure Enc where
  invert : Bool := false
  div : Nat := 1
  busy : Bool := false
  openA : Bool := false
  openB : Bool := false
  openZ : Bool := false
  errors : Nat := 0
  zcount : Nat := 0
  zpos : BitVec 64 := 0
  position : BitVec 64 := 0
  high : BitVec 64 := 0
  line : BitVec 64 := 0
deriving DecidableEq, Repr

/-! ## Verdict pins -/

/-- Level of a pin (R374). -/
inductive Level where
  | low | high | hiZ
deriving DecidableEq, Repr

/-- A verdict pin (R372-R376, R489). -/
structure Pin where
  level : Level := .hiZ
  /-- allocation entry: bay, ALLOCATED, UNCLAIMED level -/
  bay : BayId := 0
  allocated : Bool := false
  unclaimedHigh : Bool := false
  claimed : Option PartId := none
  /-- entry in force, and the entry of a load that claims the pin -/
  entry : Option PinEntry := none
  loading : Option PinEntry := none
  pulsing : Bool := false
  /-- when the latest matching release of a running pulse was (R372) -/
  pulseAt : Nat := 0
  /-- the settings a running pulse completes under (R374) -/
  pulseEntry : Option PinEntry := none
  /-- pin-hold record (R375): flag and level -/
  held : Bool := false
  heldHigh : Bool := false
  /-- held at its fail-safe level now -/
  failsafe : Bool := false
deriving DecidableEq, Repr

/-! ## Export -/

/-- A record in a page or in the store (R390-R398, R459, R466). -/
inductive ERec where
  /-- a verdict record: flags, class, generation, score, column, index, aux, SEQ, latency, time -/
  | verdict (flags cls gen : Nat) (score : BitVec 16) (column index : Nat) (aux0 aux1 : BitVec 16) (seq latency time : Nat)
  /-- an evidence fragment: crop number, its bytes -/
  | evidence (crop : Nat) (bytes : List Byte)
  | census (id : Nat) (bytes : List Byte)
  | fault (state : Nat) (entry : LogEntry) (flags lost first last ldgGen : Nat)
  | gap (flags count first last time : Nat)
deriving DecidableEq, Repr

/-- How a page closed (CLOSE of R387). -/
inductive CloseWhy where
  | full | flush | stateChange
deriving DecidableEq, Repr

/-- A page (R386, R387); `seq` once the engine begins to write it. -/
structure Page where
  recs : List ERec := []
  tOpen : Nat := 0
  tClose : Nat := 0
  why : CloseWhy := .full
  ldgGen : Nat := 0
  evdDrop : Nat := 0
  vrdDrop : Nat := 0
  cenDrop : Nat := 0
  seq : Option Nat := none
deriving DecidableEq, Repr

/-- A crop at the evidence coder, waiting for its verdict record (R395, R396). -/
structure Crop where
  stream : Nat := 0
  w : Nat := 0
  h : Nat := 0
  index16 : Nat := 0
  column : Nat := 0
  x0 : Nat := 0
  y0 : Nat := 0
  elems : List Byte := []
  arrived : Nat := 0
deriving DecidableEq, Repr

/-- A verdict record of the latest 1 ms that crops may match, and the streams already matched to it (R396). -/
structure RecentVerdict where
  column : Nat := 0
  index : Nat := 0
  seq : Nat := 0
  time : Nat := 0
  streams : List Nat := []
deriving DecidableEq, Repr

/-- A partition's export path and ring (R384-R402, EXP of R476). -/
structure Exp where
  run : Bool := false
  tailWb : Bool := false
  headErr : Bool := false
  cfgErr : Bool := false
  linkLost : Bool := false
  ringFull : Bool := false
  base : BitVec 64 := 0
  pages : Nat := 0
  head : Word := 0
  /-- sequence number of the next page to be delivered; EXP_TAIL is its low word (R385) -/
  tail : Nat := 0
  tailPtr : BitVec 64 := 0
  weight : Nat := 1
  holdoff : Nat := 0
  evdDrop : Nat := 0
  cenDrop : Nat := 0
  vrdDrop : Nat := 0
  opened : Option Page := none
  /-- closed pages, oldest first -/
  closed : List Page := []
  /-- the oldest closed page is being written to the ring -/
  writing : Bool := false
  /-- bus address and bytes of the page written to the ring last (R387, R388) -/
  ringWrite : Option (Nat × List Byte) := none
  /-- verdict credits of R214 (log entry 13) -/
  credits : Nat := 2
  /-- pages served in the present weighted round (R214) -/
  served : Nat := 0
  holdoffOn : Bool := false
  /-- when the ring's vector was signalled last (R383) -/
  holdoffAt : Nat := 0
  advanced : Bool := false
  /-- last value written to EXP_TAILPTR, if any -/
  lastWb : Option Word := none
  /-- the dropped SEQ range whose gap record has not entered a page (R394) -/
  dropped : Option (Nat × Nat) := none
  crops : List Crop := []
  nextCrop : Nat := 0
  recent : List RecentVerdict := []
deriving DecidableEq, Repr

/-! ## Span ports -/

/-- A span port (R409-R423, SPN of R476). -/
structure Spn where
  module_ : Bool := false
  linkUp : Bool := false
  /-- arrival of the latest HELLO on the link that is up (R412, R421) -/
  helloAt : Option Nat := none
  owner : Option PartId := none
  /-- SPAN of SPN_STATUS: 0 idle, 1 SPAN_WAIT, 2 DREADY set, 3 running, 4 lost -/
  span : Nat := 0
  replay : Bool := false
  lostEv : Bool := false
  serialEv : Bool := false
  peer : Option (BitVec 64) := none
  replays : Nat := 0
  fecCorr : Nat := 0
  fecUncorr : Nat := 0
  crcErr : Nat := 0
  /-- next sequenced frame expected, and whether NAK is being sent (R414) -/
  rxNext : Nat := 0
  nak : Bool := false
  txNext : Nat := 0
  /-- frames sent and not acknowledged, oldest first: (SEQ, frame) -/
  unacked : List (Nat × List Byte) := []
  resends : Nat := 0
  /-- flit credits held for the four channels, descriptor credits (R415) -/
  credits : Vector Nat 4 := Vector.replicate 4 0
  dcredits : Nat := 0
  /-- flits drained from the channels' receive buffers and not yet returned as credits (R415) -/
  drained : Vector Nat 4 := Vector.replicate 4 0
  /-- descriptor places drained and not yet returned -/
  ddrained : Nat := 0
  /-- control messages, descriptors and flits waiting to be framed, oldest first (R411-R413); the channel served last -/
  sendQ : List (List Byte) := []
  txDesc : List (List Byte) := []
  txFlits : Vector (List Flit) 4 := Vector.replicate 4 []
  txLast : Fin 4 := 3
  /-- D_A of R418: local receive time of the latest TIME less its T_TX -/
  dLocal : Int := 0
  /-- the latest two offsets estimated and the local time of each, newest first (R418) -/
  offsets : List (Int × Nat) := []
deriving DecidableEq, Repr

/-! ## Fault log, power, windows -/

/-- The fault log and the FLT registers (R455-R457). -/
structure FaultLog where
  /-- entries held, newest first, at most 4,096 -/
  entries : List LogEntry := []
  nextSeq : Nat := 0
  sel : Word := 0
  data : Vector Word 8 := Vector.replicate 8 0
  suppressed : Nat := 0
deriving DecidableEq, Repr

/-- Host power policy in force (R433). -/
structure Policy where
  cap : Nat := 3600
  binding : Bool := false
  prio : Vector Nat 8 := Vector.replicate 8 0
  margin : Vector Nat 8 := Vector.replicate 8 0
deriving DecidableEq, Repr

/-- Input, cap, reservoir and cooling (PWR of R476, R424-R447). -/
structure Pwr where
  cap : Nat := 3600
  binding : Bool := false
  force : Policy := {}
  lowInput : Bool := false
  highInput : Bool := false
  capUnmet : Bool := false
  saveAtRisk : Bool := false
  coolOut : Bool := false
  policyErr : Bool := false
  shortfall : Nat := 0
  inputW : Nat := 0
  inputDv : Nat := 0
  resC : Nat := 0
  resEsr : Nat := 0
  resMv : Nat := 0
  /-- the module has reached 4.8 V, or the 5 s limit has passed (R445) -/
  resReady : Bool := false
  inlet : Int := 0
  outlet : Int := 0
  flow : Nat := 0
deriving DecidableEq, Repr

/-- The state of the engine. -/
structure State where
  /-- commands that wait, first in, first out -/
  pending : List Instr := []
  glb : Glb := {}
  sup : Sup := {}
  nv : Nv := {}
  tbs : Tbs := {}
  wafer : Wafer := {}
  pwr : Pwr := {}
  regions : Vector Region 20 := Vector.replicate 20 {}
  parts : Vector Partition 8 := Vector.replicate 8 {}
  bays : Vector Bay 8 := Vector.replicate 8 {}
  imgs : Vector ImgConn 16 := Vector.replicate 16 {}
  snds : Vector Snd 8 := Vector.replicate 8 {}
  encs : Vector Enc 4 := Vector.replicate 4 {}
  pins : Vector Pin 32 := Vector.replicate 32 {}
  allocHeld : Bool := false
  exps : Vector Exp 8 := Vector.replicate 8 {}
  /-- partition the export arbiter served last (R214) -/
  arbLast : PartId := 7
  spa : Spn := {}
  spb : Spn := {}
  flt : FaultLog := {}
  /-- DEF_PAGE and CEN_SEL (R491) -/
  defPage : Word := 0
  cenSel : Word := 0
  /-- tiles not at their scrubbed value, by 600 y + x, rising -/
  tiles : List (Nat × Tile) := []
  /-- block memory: bytes that are not 0, by 16,384 x (600 y + x) + offset, rising -/
  mem : List Host.Cell := []
  /-- the model's own: free values drawn so far (log entry 5) -/
  freeCount : Nat := 0
deriving DecidableEq, Repr

/-- The engine with the 48 V input not yet risen: before step 1 of R289, with every register at its reset value. -/
def State.reset : State := {}

end Sys2Proof.Machine
end

