-- ==== Sys2Proof/Machine/Ops.lean ====
section
/-! DEFINITION. The named operations over the state: sparse tables, block memory, one-component updates, the fault log,
interrupt vectors. -/

namespace Sys2Proof.Machine

/-! ### Sparse tables: rising keys, no entry equal to the default -/

/-- The entry at `k`, or the default. -/
def tabGet {α : Type} (d : α) (k : Nat) : List (Nat × α) → α
  | [] => d
  | (j, v) :: r => if j = k then v else tabGet d k r

/-- Put `v` at `k`; the default removes the entry. -/
def tabPut {α : Type} [DecidableEq α] (d : α) (k : Nat) (v : α) : List (Nat × α) → List (Nat × α)
  | [] => if v = d then [] else [(k, v)]
  | (j, w) :: r =>
    if k < j then (if v = d then (j, w) :: r else (k, v) :: (j, w) :: r)
    else if k = j then (if v = d then r else (k, v) :: r)
    else (j, w) :: tabPut d k v r

/-- Keys above `lo` rise strictly and no entry is the default. -/
def tabWfFrom {α : Type} [DecidableEq α] (d : α) : Nat → List (Nat × α) → Bool
  | _, [] => true
  | lo, (k, v) :: r => decide (lo ≤ k) && decide (v ≠ d) && tabWfFrom d (k + 1) r

def tabWf {α : Type} [DecidableEq α] (d : α) (l : List (Nat × α)) : Bool := tabWfFrom d 0 l

/-! ### Block memory (R96): byte address 16,384 x (600 y + x) + offset; an unlisted byte reads 0 (log entry 4) -/

/-- Memory is in canonical form. -/
def Memory.wf (m : List Host.Cell) : Bool := tabWf 0 m

def Memory.read (m : List Host.Cell) (a : Nat) : Byte := tabGet 0 a m

def Memory.write (m : List Host.Cell) (a : Nat) (b : Byte) : List Host.Cell := tabPut 0 a b m

/-- Write bytes at rising addresses. -/
def Memory.writeBytes : List Host.Cell → Nat → List Byte → List Host.Cell
  | m, _, [] => m
  | m, a, b :: bs => Memory.writeBytes (Memory.write m a b) (a + 1) bs

/-- `n` bytes from `a`. -/
def Memory.readBytes (m : List Host.Cell) (a n : Nat) : List Byte := (List.range n).map (fun i => Memory.read m (a + i))

/-- Clear every byte whose address satisfies `p`. Filtering keeps the canonical form. -/
def Memory.clear (m : List Host.Cell) (p : Nat → Bool) : List Host.Cell := m.filter (fun c => !p c.1)

/-- Key of a logical tile. -/
def tileKey (x y : Nat) : Nat := 600 * y + x

/-- Byte address of word `w` of `width` bytes in tile `t` (R96). -/
def memAddr (t w width : Nat) : Nat := 16384 * t + width * w

/-- A codeword (port B, 64-bit aspect). -/
def readCodeword (m : List Host.Cell) (t w : Nat) : Codeword :=
  BitVec.ofNat 64 (leNat (Memory.readBytes m (memAddr t w 8) 8))

/-! ### One-component updates -/

def updPart (s : State) (p : PartId) (f : Partition → Partition) : State :=
  { s with parts := s.parts.set p.val (f s.parts[p]) p.isLt }

def updRegion (s : State) (r : RegionId) (f : Region → Region) : State :=
  { s with regions := s.regions.set r.val (f s.regions[r]) r.isLt }

def updBay (s : State) (b : BayId) (f : Bay → Bay) : State := { s with bays := s.bays.set b.val (f s.bays[b]) b.isLt }

def updImg (s : State) (c : ImgId) (f : ImgConn → ImgConn) : State :=
  { s with imgs := s.imgs.set c.val (f s.imgs[c]) c.isLt }

def updSnd (s : State) (c : SndId) (f : Snd → Snd) : State := { s with snds := s.snds.set c.val (f s.snds[c]) c.isLt }

def updEnc (s : State) (e : EncId) (f : Enc → Enc) : State := { s with encs := s.encs.set e.val (f s.encs[e]) e.isLt }

def updPin (s : State) (n : PinId) (f : Pin → Pin) : State := { s with pins := s.pins.set n.val (f s.pins[n]) n.isLt }

def updExp (s : State) (p : PartId) (f : Exp → Exp) : State := { s with exps := s.exps.set p.val (f s.exps[p]) p.isLt }

def getSpn (s : State) : SpanPort → Spn
  | .spa => s.spa
  | .spb => s.spb

def updSpn (s : State) (q : SpanPort) (f : Spn → Spn) : State :=
  match q with
  | .spa => { s with spa := f s.spa }
  | .spb => { s with spb := f s.spb }

def getTile (s : State) (t : Nat) : Tile := tabGet {} t s.tiles

def updTile (s : State) (t : Nat) (f : Tile → Tile) : State := { s with tiles := tabPut {} t (f (getTile s t)) s.tiles }

/-- Apply an update to every component of a replicated kind that satisfies a test. -/
def updImgs (s : State) (f : ImgConn → ImgConn) : State := { s with imgs := s.imgs.map f }

def updSnds (s : State) (f : Snd → Snd) : State := { s with snds := s.snds.map f }

def updPins (s : State) (f : Pin → Pin) : State := { s with pins := s.pins.map f }

def updRegions (s : State) (f : Region → Region) : State := { s with regions := s.regions.map f }

def updExps (s : State) (f : Exp → Exp) : State := { s with exps := s.exps.map f }

def updPartRegs (s : State) (p : PartId) (f : PrtRegs → PrtRegs) : State :=
  updPart s p (fun x => { x with regs := f x.regs })

def updFlow (s : State) (p : PartId) (f : Flow → Flow) : State := updPart s p (fun x => { x with flow := f x.flow })

def updFabric (s : State) (p : PartId) (f : Fabric → Fabric) : State :=
  updPart s p (fun x => { x with fabric := f x.fabric })

def updLoad (s : State) (p : PartId) (f : Load → Load) : State := updPart s p (fun x => { x with load := x.load.map f })

def updCensus (s : State) (p : PartId) (f : Census → Census) : State :=
  updPart s p (fun x => { x with census := f x.census })

/-! ### Time, interrupts, fault log -/

/-- The Phlox timestamp; 0 before the first lock (R69). -/
def now (s : State) : Nat := s.tbs.time.toNat

/-- Is a vector masked in the MSI-X table? -/
def vectorMasked (g : Glb) (v : Fin 32) : Bool := (g.msix[Fin.ofNat 128 (4 * v.val + 3)]).getLsbD 0

/-- A message on a vector; a masked vector waits with its pending bit (log entry 44). -/
def sendVector (g : Glb) (v : Fin 32) : Glb :=
  if vectorMasked g v then { g with pba := g.pba ||| ((1 : Word) <<< v.val) }
  else { g with vectors := g.vectors.set v.val (g.vectors[v] + 1) v.isLt, pba := g.pba &&& ~~~((1 : Word) <<< v.val) }

/-- Set GLB_IRQ [v], whether or not the vector is masked, and signal vector v (R383, GLB_IRQ of R476). -/
def irq (s : State) (v : Fin 32) : State :=
  { s with glb := sendVector { s.glb with irq := s.glb.irq ||| ((1 : Word) <<< v.val) } v }

/-- The vector of a partition's events, 9 + n (R383). -/
def partVector (p : PartId) : Fin 32 := ⟨9 + p.val, by omega⟩

/-- The vector of a partition's ring, 1 + n (R383). -/
def ringVector (p : PartId) : Fin 32 := ⟨1 + p.val, by omega⟩

/-- Entries of one CODE and INDEX in one second of the timebase (R455; the second is DEDUCED, log entry 15). -/
def entriesThisSecond (s : State) (code index : Nat) : Nat :=
  (s.flt.entries.filter (fun e => e.code = code && e.index = index && e.time / 1000000000 = now s / 1000000000)).length

/-- Append an event to the fault log, or count it as suppressed (R455, R456). -/
def logEvent (s : State) (code index d0 d1 : Nat) (isEnd : Bool) : State :=
  if entriesThisSecond s code index ≥ 16 then
    { s with flt := { s.flt with suppressed := satInc s.flt.suppressed } }
  else
    let e : LogEntry := { seq := s.flt.nextSeq, powerOn := s.glb.powerOn, time := now s, code := code, index := index,
                          endOfEpisode := isEnd, detail0 := d0, detail1 := d1 }
    { s with flt := { s.flt with entries := (e :: s.flt.entries).take 4096, nextSeq := s.flt.nextSeq + 1 } }

/-- An event with both details 0. -/
def logPlain (s : State) (code index : Nat) : State := logEvent s code index 0 0 false

/-- A unit-level fault, bay, power, timebase or span event: log and signal its vector (R383). -/
def logIrq (s : State) (code index d0 d1 : Nat) (isEnd : Bool) (v : Fin 32) : State :=
  irq (logEvent s code index d0 d1 isEnd) v

/-- Whether the supervisor runs: R289 has ended and neither a sag nor a restart has stopped it. A command that reaches a
unit that is not up has no effect (log entry 11). -/
def isUp (s : State) : Bool := decide (s.glb.phase = .up)

/-- What a command answers: its effect on a unit that is up, no effect otherwise. -/
def whenUp (s : State) (t : State) : Host.Outcome State Fault Refusal := .next (if isUp s then t else s)

/-! ### Partition state, cause and events (R316, R458, PRT_EVENTS) -/

/-- Move to a state; a change sets STATE_CHG and signals the partition's vector. -/
def setPState (s : State) (p : PartId) (st : PState) : State :=
  if s.parts[p].state = st then s
  else irq (updPart s p (fun x => { x with state := st, regs := { x.regs with stateChg := true } })) (partVector p)

/-- Set PRT_CAUSE; a new nonzero value sets CAUSE_SET and signals the vector. -/
def setCause (s : State) (p : PartId) (c : Nat) : State :=
  let s1 := updPartRegs s p (fun r => { r with cause := c, causeSet := r.causeSet || (c ≠ 0 && c ≠ r.cause) })
  if c ≠ 0 ∧ c ≠ s.parts[p].regs.cause then irq s1 (partVector p) else s1

/-- First 8 bytes of the digest, DETAIL1 of a partition cause (R456). -/
def digest8 (bs : List Byte) : Nat := leNat (bs.take 8)

/-- The digest of the image a partition runs or, if it runs none, is loading. -/
def partDigest (s : State) (p : PartId) : List Byte :=
  match s.parts[p].active, s.parts[p].load with
  | some i, _ => i.digest
  | none, some l => l.slot.digest
  | none, none => []

/-- Log a partition cause (R456, R458). -/
def logPart (s : State) (p : PartId) (code d0 : Nat) : State :=
  logEvent s code p.val d0 (digest8 (partDigest s p)) false

def isFault (st : PState) : Bool :=
  st = .faultHeld || st = .faultDark || st = .faultHot || st = .faultSpan || st = .faultMem

/-- Does an image run: RUNNING, STAGED or DRAINING? -/
def isServing (st : PState) : Bool := st = .running || st = .staged || st = .draining

/-- PRT_STATE code of R316. -/
def stateCode : PState → Nat
  | .empty => 0 | .placing => 1 | .loading => 2 | .staged => 3 | .running => 4 | .draining => 5 | .spanWait => 6
  | .faultHeld => 8 | .faultDark => 9 | .faultHot => 10 | .faultSpan => 11 | .faultMem => 12

/-- The low byte of a code, as PRT_CAUSE and a bay's cause field read it (R458). -/
def causeOf (code : Nat) : Nat := code % 256

end Sys2Proof.Machine
end

