-- ==== Sys2Proof/Machine/Operands.lean ====
section
/-! DEFINITION. The byte layouts that commands carry: image header and records (R253-R284), the image directory (R233, R234),
ledger entries (R188). Each reader answers what it read or the cause that refuses it. -/

namespace Sys2Proof.Machine

/-! ### Cause codes (R458) -/

def cFormat : Nat := 0x0101
def cEpoch : Nat := 0x0102
def cContract : Nat := 0x0103
def cRoute : Nat := 0x0104
def cLedger : Nat := 0x0105
def cSignature : Nat := 0x0106
def cDecrypt : Nat := 0x0107
def cKey : Nat := 0x0108
def cNoPath : Nat := 0x0109
def cGroupFailed : Nat := 0x010A
def cSpanTimeout : Nat := 0x010B
def cProgressLost : Nat := 0x010C
def cAbortedRequest : Nat := 0x010D
def cAbortedRemoval : Nat := 0x010E
def cReplaced : Nat := 0x010F
def cPeerLeft : Nat := 0x0110
def cSpanLinkLost : Nat := 0x0111
def cAbortedMedia : Nat := 0x0112
def cReleaseFailed : Nat := 0x0113
def cRegionDark : Nat := 0x0120
def cRegionHot : Nat := 0x0121
def cMemUncorrectable : Nat := 0x0122
def cSpanLost : Nat := 0x0123
def cSpanAbort : Nat := 0x0124

/-- Answer the cause unless the check holds. -/
def need (b : Bool) (cause : Nat) : Except Nat Unit := if b then .ok () else .error cause

def allZero (bs : List Byte) : Bool := bs.all (· = 0)

/-- Bytes `off` to `off + n - 1`. -/
def slice (bs : List Byte) (off n : Nat) : List Byte := (bs.drop off).take n

/-- Cut `count` pieces of `n` bytes. -/
def pieces (n : Nat) : Nat → List Byte → List (List Byte)
  | 0, _ => []
  | k + 1, bs => bs.take n :: pieces n k (bs.drop n)

/-! ### The file header (R254) -/

/-- Check 1 of R288 on the 64-byte header. An image of series S1 has no region-chain shape: its CHAIN_LEN byte is not 1-20, so it is
refused here, with LOAD_REFUSED_FORMAT, although R5 names the contract check (DESIGN CHOICE, log entry 85). -/
def readHeader (bs : List Byte) : Option ImgHeader :=
  let chainLen := byteAt bs 5
  let len := leAt bs 8 8
  if bs.length = 64 ∧ leAt bs 0 4 = 0x4D494B4A ∧ leAt bs 60 4 = crc32c (bs.take 60) ∧ 1 ≤ chainLen ∧ chainLen ≤ 20 ∧
     leAt bs 6 2 = 0 ∧ len % 8 = 0 ∧ leAt bs 20 4 ≤ 65535 then
    some { formatEpoch := byteAt bs 4, chainLen := chainLen, length := len, records := leAt bs 16 4, groups := leAt bs 20 4,
           name := slice bs 24 32, build := leAt bs 56 4 }
  else none

/-! ### Record types (R256) -/

/-- Section of a record type; 0 for a reserved type. -/
def sectionOf (ty : Nat) : Nat :=
  if ty = 0x0001 then 1 else if ty = 0x0002 then 2 else if 0x0010 ≤ ty ∧ ty ≤ 0x0018 then 3
  else if 0x0020 ≤ ty ∧ ty ≤ 0x0024 then 4 else if ty = 0x0030 then 5 else if ty = 0x0040 then 6
  else if ty = 0x0041 then 7 else if ty = 0x0042 then 8 else if ty = 0x00FF then 9 else 0

/-- Does the type carry a nonzero coherence group? -/
def grouped (ty : Nat) : Bool :=
  (0x0012 ≤ ty && ty ≤ 0x0017) || ty = 0x0020 || ty = 0x0021 || ty = 0x0022 || ty = 0x0024

/-- Does the type concern one piece? -/
def pieceSpecific (ty : Nat) : Bool :=
  ty = 0x0011 || ty = 0x0012 || ty = 0x0013 || ty = 0x0017 || ty = 0x0020 || ty = 0x0021 || ty = 0x0022 || ty = 0x0024 ||
  ty = 0x0030

/-! ### Contract section bodies (R258-R269) -/

/-- `n` certificates, each a 2-byte length of at most 1 KiB and its bytes, and what follows them (R258). -/
def splitCerts : Nat → List Byte → Option (List (List Byte) × List Byte)
  | 0, bs => some ([], bs)
  | n + 1, bs =>
    let k := leAt bs 0 2
    if 1 ≤ k ∧ k ≤ 1024 ∧ 2 + k ≤ bs.length then
      (splitCerts n (bs.drop (2 + k))).map (fun r => (slice bs 2 k :: r.1, r.2))
    else none

/-- R258; the padding after the last certificate is zero (R253). Whether the chain and the signature verify is judged at check 8. -/
def readSignature (b : List Byte) : Except Nat Body := do
  need (b.length ≥ 72 && byteAt b 0 = 1 && 1 ≤ byteAt b 1 && byteAt b 1 ≤ 3 && allZero (slice b 2 6)) cFormat
  match splitCerts (byteAt b 1) (b.drop 72) with
  | some (certs, pad) =>
    need (pad.length < 8 && allZero pad) cFormat
    pure (.signature (beNat (slice b 8 32)) (beNat (slice b 40 32)) certs)
  | none => .error cFormat

/-- `n` little-endian 2-byte numbers. -/
def halfWords : Nat → List Byte → List Nat
  | 0, _ => []
  | n + 1, bs => leNat (bs.take 2) :: halfWords n (bs.drop 2)

def readEpochs (b : List Byte) : Except Nat Body := do
  let nf := byteAt b 1
  let nm := byteAt b 2
  need (1 ≤ nf && nf ≤ 16 && 1 ≤ nm && nm ≤ 16 && allZero (slice b 3 5) && b.length ≥ 8 + 2 * (nf + nm) &&
    b.length < 16 + 2 * (nf + nm) && allZero (b.drop (8 + 2 * (nf + nm)))) cFormat
  pure (.epochs (byteAt b 0) (halfWords nf (b.drop 8)) (halfWords nm (b.drop (8 + 2 * nf))))

/-- R261 with the sum of R17. -/
def readContract (b : List Byte) : Except Nat Body := do
  need (b.length = 40) cFormat
  let flags := leAt b 0 4
  let vi := leAt b 8 4
  let hops := byteAt b 16
  let floor := leAt b 4 4
  let budget := leAt b 12 4
  need (flags < 8 && 1000 ≤ vi && vi ≤ 1000000) cContract
  need (1 ≤ floor && floor * vi ≤ 1000000000 && hops ≤ 3 && (hops = 0 || bitOf flags 2)) cContract
  need (allZero (slice b 17 3) && allZero (slice b 32 8)) cContract
  need (budget + 180 + 40 + 320 * hops ≤ 4000) cContract
  pure (.contract { stopOnRemoval := bitOf flags 0, replaceOnFault := bitOf flags 1, spanPiece := bitOf flags 2,
                    rateFloor := floor, verdictInterval := vi, latencyBudget := budget, spanHops := hops,
                    spillKib := leAt b 20 4, claimBytes := leAt b 24 8 })

def readPiece (b : List Byte) : Except Nat Body := do
  need (b.length = 16) cFormat
  need (byteAt b 0 ≤ 4 && allZero (slice b 1 7)) cContract
  pure (.piece (byteAt b 0) (leAt b 8 8))

/-- The DELIVERED formats of a pixel format (R325): U8 is 0, FP16 is 10. -/
def deliveredOk (fmt delivered : Nat) (comp : Bool) : Bool :=
  match fmt with
  | 0 | 4 | 7 => !comp && (delivered = 0 || delivered = 10)
  | 1 | 5 => !comp && delivered = 10
  | 2 | 6 => delivered = 0
  | 3 => !comp && delivered = 0
  | _ => false

/-- R263, R322, R325, R326, R331. -/
def readImgPort (b : List Byte) : Except Nat Body := do
  need (b.length = 32) cFormat
  let r : ImgPortRec := {
    port := byteAt b 0, links := byteAt b 1, bitRate := byteAt b 2, pixelFormat := byteAt b 3, compand := bitOf (byteAt b 4) 0,
    lineScan := bitOf (byteAt b 4) 1, encoder := byteAt b 5, align := byteAt b 6, delivered := byteAt b 7,
    roiX := leAt b 8 2, roiY := leAt b 10 2, roiW := leAt b 12 2, roiH := leAt b 14 2, winW := leAt b 16 2, winH := leAt b 18 2,
    stagA := leAt b 20 2, stagB := leAt b 22 2 }
  need (r.port < 16 && (r.links = 1 || r.links = 2 || r.links = 4)) cContract
  need (r.port % r.links = 0 && [1, 2, 3, 5, 6, 10, 12].contains r.bitRate) cContract
  need (byteAt b 4 < 4 && (r.encoder < 4 || r.encoder = 255) && (r.align < 4 || r.align = 255)) cContract
  need (deliveredOk r.pixelFormat r.delivered r.compand && allZero (slice b 24 8)) cContract
  need (8 ≤ r.roiW && r.roiW ≤ 16384 && 8 ≤ r.winW && r.winW ≤ 4096 && r.roiW % r.winW = 0 && 1 ≤ r.winH && r.winH ≤ 4096) cContract
  need (if r.lineScan then r.roiY = 0 && r.roiH = 1 else r.roiH % r.winH = 0 && r.roiH ≠ 0 && r.stagA = 0 && r.stagB = 0) cContract
  pure (.imgPort r)

/-- Image rate in Hz of IMAGE_RATE (R354). -/
def imageRateHz (c : Nat) : Nat := 48000 * 2 ^ c

/-- R265, R351, R352, R357. -/
def readSndPort (b : List Byte) : Except Nat Body := do
  need (b.length = 32) cFormat
  let f := byteAt b 1
  let r : SndPortRec := {
    port := byteAt b 0, master := bitOf f 0, mclk := bitOf f 1, fsyncLow := bitOf f 2, commonStart := bitOf f 3,
    slots := byteAt b 2, slotWidth := byteAt b 3, offset := byteAt b 4, fsyncForm := byteAt b 5, imageRate := byteAt b 6,
    align := byteAt b 7, frameRate := leAt b 8 4, inMask := leAt b 12 4, outMask := leAt b 16 4, silent := leAt b 20 2,
    ramp := leAt b 22 2, delivered := byteAt b 24 }
  need (r.port < 8 && f < 16 && 1 ≤ r.slots && r.slots ≤ 32 && [8, 16, 20, 24, 32].contains r.slotWidth) cContract
  need (r.offset ≤ 31 && r.fsyncForm ≤ 2 && r.imageRate ≤ 3 && (r.align < 4 || r.align = 255)) cContract
  need (8000 ≤ r.frameRate && r.frameRate ≤ 384000 && r.frameRate * r.slots * r.slotWidth ≤ 49152000) cContract
  need (r.inMask < 2 ^ r.slots && r.outMask < 2 ^ r.slots && 16 ≤ r.silent && r.silent ≤ 4096 && 1 ≤ r.ramp && r.ramp ≤ 4096) cContract
  need (r.delivered = 1 && allZero (slice b 25 7)) cContract
  need (r.frameRate ≤ 8 * imageRateHz r.imageRate && imageRateHz r.imageRate ≤ 8 * r.frameRate) cContract
  need (r.outMask = 0 || r.slotWidth ≥ 20) cContract
  pure (.sndPort r)

/-- R266. -/
def readAlign (b : List Byte) : Except Nat Body := do
  need (b.length = 8) cFormat
  let sound := byteAt b 1 = 1
  need (byteAt b 0 < 4 && byteAt b 1 ≤ 1 && leAt b 2 2 ≠ 0 && allZero (slice b 5 3)) cContract
  need (!sound || (leAt b 2 2 < 256 && (byteAt b 4 < 8 || byteAt b 4 = 255))) cContract
  pure (.align { id := byteAt b 0, sound := sound, members := leAt b 2 2, clock := byteAt b 4 })

/-- R264. -/
def readScript (b : List Byte) : Except Nat Body := do
  let n := leAt b 2 2
  need (b.length = 8 + 16 * n) cFormat
  need (byteAt b 0 < 16 && byteAt b 1 = 0 && 1 ≤ n && n ≤ 1024 && allZero (slice b 4 4)) cContract
  let es := pieces 16 n (b.drop 8)
  need (es.all (fun e => 1 ≤ byteAt e 0 && byteAt e 0 ≤ 3 && allZero (slice e 1 3))) cContract
  pure (.script (byteAt b 0) (es.map (fun e => ⟨byteAt e 0, leAt e 4 4, leAt e 8 4, leAt e 12 4⟩)))

/-- R267. -/
def readStimulus (b : List Byte) : Except Nat Body := do
  let n := leAt b 4 4
  need (b.length ≥ 8 + 2 * n && b.length < 16 + 2 * n && allZero (b.drop (8 + 2 * n))) cFormat
  need (byteAt b 0 < 8 && byteAt b 1 < 32 && allZero (slice b 2 2) && 1 ≤ n && n ≤ 1048576) cContract
  pure (.stimulus (byteAt b 0) (byteAt b 1) ((halfWords n (b.drop 8)).map (BitVec.ofNat 16)))

/-- A pin entry of 40 bytes (R268). -/
def readPinEntry (e : List Byte) : PinEntry :=
  { pin := byteAt e 0, rejectHigh := bitOf (byteAt e 1) 0, failsafe := field (byteAt e 1) 2 1, pulseNs := leAt e 4 4,
    classSet := leAt e 8 32 }

/-- R268, R372, R373. -/
def readVerdict (b : List Byte) : Except Nat Body := do
  let n := byteAt b 1
  need (b.length = 40 + 40 * n) cFormat
  let hi := leAt b 2 2
  let lo := leAt b 4 2
  let classes := byteAt b 0 + 1
  let rej := leAt b 8 32
  need (classes ≥ 2 && n ≤ 32 && leAt b 6 2 = 0 && rej < 2 ^ classes && leV (decodeF fFP16 lo) (decodeF fFP16 hi)) cContract
  let es := pieces 40 n (b.drop 40)
  need (es.all (fun e => byteAt e 0 < 32 && byteAt e 1 < 8 && field (byteAt e 1) 2 1 ≤ 1 && allZero (slice e 2 2) &&
    (leAt e 4 4 = 0 || (100 ≤ leAt e 4 4 && leAt e 4 4 ≤ 10000000)) && Nat.land (leAt e 8 32) rej = leAt e 8 32)) cContract
  need (decide (es.map (fun e => byteAt e 0)).Nodup) cContract
  pure (.verdict { classes := classes, tOn := BitVec.ofNat 16 hi, tOff := BitVec.ofNat 16 lo, rejectSet := rej,
                   pins := es.map readPinEntry })

/-- R269. -/
def readSpan (b : List Byte) : Except Nat Body := do
  need (b.length = 16) cFormat
  need (2 ≤ byteAt b 8 && byteAt b 8 ≤ 4 && byteAt b 9 < byteAt b 8 && byteAt b 10 < 4 && allZero (slice b 11 5)) cContract
  pure (.span { id := BitVec.ofNat 64 (leAt b 0 8), units := byteAt b 8, position := byteAt b 9,
                spa := bitOf (byteAt b 10) 0, spb := bitOf (byteAt b 10) 1 })

/-! ### Configuration bodies (R270-R278) -/

def rectOk (r : Rect) : Bool := r.p0 ≤ r.p1 && r.p1 < 120 && r.q0 ≤ r.q1 && r.q1 < 120

def inRect (r : Rect) (p q : Nat) : Bool := r.p0 ≤ p && p ≤ r.p1 && r.q0 ≤ q && q ≤ r.q1

/-- The gateway tiles (59-60, 59-60) of R194. -/
def isGatewayTile (p q : Nat) : Bool := (p = 59 || p = 60) && (q = 59 || q = 60)

/-- Every tile of a rectangle in order of q, then p. -/
def rectTiles (r : Rect) : List (Nat × Nat) :=
  ((List.range (r.q1 + 1 - r.q0)).map (fun j => (List.range (r.p1 + 1 - r.p0)).map (fun i => (r.p0 + i, r.q0 + j)))).flatten

/-- The operator codes of R272. -/
def opcodeOk (op : Nat) : Bool :=
  op ≤ 0x08 || (0x10 ≤ op && op ≤ 0x14) || (0x20 ≤ op && op ≤ 0x23) || (0x30 ≤ op && op ≤ 0x35) ||
  (0x40 ≤ op && op ≤ 0x42) || op = 0x50 || op = 0x51 || (0x60 ≤ op && op ≤ 0x62) || op = 0x70

/-- Is an opcode a stage that takes T-class tokens? -/
def isTStage (op : Nat) : Bool :=
  op = 0x23 || (0x30 ≤ op && op ≤ 0x35) || (0x40 ≤ op && op ≤ 0x42) || op = 0x70

/-- Operators that pass elements unchanged and take no step (R162, R163, R174). -/
def passes (op : Nat) : Bool := op = 0x07 || op = 0x13 || op = 0x14 || op = 0x60 || op = 0x61

/-- Does the operator work element by element, without the accumulators' output unit? -/
def byElement (op : Nat) : Bool := op = 0x04 || op = 0x05 || op = 0x21 || op = 0x22 || passes op

/-- Does the operator take activations through the table builder and give results through the output unit (R117, R86)? -/
def usesArithmetic (op : Nat) : Bool := op ≠ 0 && !byElement op && (!isTStage op || op = 0x31 || op = 0x33 || op = 0x35)

/-- Source codes of R93: 0-23; 24-31 are reserved there. -/
def sourceOk (c : Nat) : Bool := c ≤ 23

/-- A control-cell word of R271. -/
def cellOk (w : Nat) : Bool :=
  field w 63 50 = 0 && field w 41 39 ≤ 3 && sourceOk (field w 20 16) && sourceOk (field w 25 21) && sourceOk (field w 30 26) &&
  sourceOk (field w 35 31) && field w 44 42 ≤ 5 && (sourceOk (field w 49 45) || field w 49 45 = 31)

/-- Does the cell take its carry-in (R200): source code 8 of an input or of the reload, or count mode with bit [37]? -/
def takesCarry (w : Nat) : Bool :=
  (bitOf w 36 && bitOf w 37) || field w 49 45 = 8 || field w 20 16 = 8 || field w 25 21 = 8 || field w 30 26 = 8 || field w 35 31 = 8

/-- Operators whose stage is a reduction, so that RED_LEN counts (R272). -/
def reduces (op : Nat) : Bool :=
  op = 0x01 || op = 0x02 || op = 0x03 || op = 0x06 || op = 0x08 || op = 0x62 || op = 0x51

/-- The member limit of a set, graph or selection stage (R168, R171), 4,096 where there is none. -/
def memberLimit (op : Nat) : Nat :=
  if op = 0x33 then 256 else if op = 0x34 ∨ op = 0x35 ∨ op = 0x41 then 1024 else 4096

/-- The activation formats of R113. -/
def activationFmt (f : Nat) : Bool := f = 0 || f = 1 || (8 ≤ f && f ≤ 11)

/-- Does a number lie in a range? -/
def within (lo n hi : Nat) : Bool := lo ≤ n && n ≤ hi

/-- FP16 codes rise strictly. -/
def risingFp16 : List Nat → Bool
  | a :: b :: rest => ltV (decodeF fFP16 a) (decodeF fFP16 b) && risingFp16 (b :: rest)
  | _ => true

/-- Feature elements of candidate tokens: at most 32 of 16 bits or 64 of 8 (R115, R165). -/
def featuresOk (q : Config.OpParams) : Bool :=
  (q.featureWidth = 16 && q.featureCount ≤ 32) || (q.featureWidth = 8 && q.featureCount ≤ 64)

/-- Does the operator pass codes unchanged, so that its input and output formats are one (R130, R162, R163, R174; log entry 95)? -/
def keepsCode (op : Nat) : Bool := op = 0x04 || op = 0x05 || op = 0x07 || op = 0x13 || op = 0x14 || op = 0x60

/-- The limits that chapter 07 sets on an operator's parameters, which the supervisor checks (R272). -/
def paramsOk (op : Nat) (m : List Byte) : Bool :=
  let q := Config.params m
  (!keepsCode op || byteAt m 3 = byteAt m 4) && within 1 q.lanes 16 &&
  match op with
  | 0x01 => within 1 q.kh 11 && within 1 q.kw 11 && within 1 q.strideY 4 && within 1 q.strideX 4 && within 1 q.dilY 4 &&
      within 1 q.dilX 4 && within 1 q.chans 4096 && within 1 q.parts 64
  | 0x02 => within 1 q.kh 5 && within 1 q.kw 5 && within 1 q.strideY 2 && within 1 q.strideX 2
  | 0x03 => q.kh = 1 && q.kw = 1 && within 1 q.strideY 4 && within 1 q.strideX 4 && within 1 q.chans 4096 && within 1 q.parts 64
  | 0x04 | 0x05 | 0x06 => within 2 q.kh 8 && within 2 q.kw 8 && within 1 q.strideY 8 && within 1 q.strideX 8
  | 0x07 => within 1 q.factorY 8 && within 1 q.factorX 8
  | 0x08 => let f := if q.alongRows then q.factorX else q.factorY; byteAt m 2 = 7 && (f = 2 || f = 4)
  | 0x10 | 0x11 | 0x12 => q.order.length = 2 && q.broadcast ≤ 3
  | 0x13 => within 2 q.slices.length 16 && (q.order.isEmpty || q.order.length = q.slices.length)
  | 0x14 => within 2 q.slices.length 16 && decide (q.slice < q.slices.length)
  | 0x21 => within 1 q.edges.length 255 && risingFp16 q.edges && q.edges.all (fun e => decide (e < 65536)) && byteAt m 4 = 0
  | 0x22 => leV (decodeF fFP16 (leAt m 38 2)) (decodeF fFP16 (leAt m 36 2)) && byteAt m 4 = 0
  | 0x23 => within 1 q.minArea 65535 && within 1 q.windowWidth 4096 && within 1 q.windowHeight 4096 &&
      (q.connectivity = 4 || q.connectivity = 8) && featuresOk q
  | 0x31 | 0x32 => featuresOk q
  | 0x33 => featuresOk q && within 1 q.heads 4 && q.featureCount ≤ 64 && q.heads * q.headWidth = q.featureCount
  | 0x34 => within 1 q.k 16
  | 0x35 => featuresOk q && within 1 q.rounds 8 && q.degree ≤ 16
  | 0x40 => within 1 q.k 256
  | 0x41 => within 1 q.keepLimit 256 && q.nmsThreshold ≤ 16
  | 0x50 => within 16 q.frame 4096 && within 1 q.hop q.frame && within 1 q.chans 32
  | 0x51 => within 64 q.frame 4096 && q.frame = 2 ^ Nat.log2 q.frame && within 1 q.hop q.frame
  | 0x60 => within 1 q.delay 65535
  | 0x61 => q.bufLen * (elemWidth (byteAt m 4) / 8) ≤ 16384
  | 0x62 => within 2 q.parts 64 && q.order.length = q.parts && (byteAt m 3 = 10 || byteAt m 3 = 11)
  | 0x70 => q.windowTokens ≤ 8 && byteAt m 3 = 10
  | _ => true

/-- Integer mode of R79, from the formats and SCALES [3]. -/
def integerMode (m : List Byte) : Bool :=
  byteAt m 3 ≤ 1 && byteAt m 2 ≤ 4 && !bitOf (byteAt m 6) 3

/-- Does an element carry an FP16 factor: its output scale's, or its row's (R125)? -/
def outFp16 (m : List Byte) : Bool := bitOf (byteAt m 6) 1 || (bitOf (byteAt m 6) 4 && bitOf (byteAt m 6) 5)

/-- The integer path of R87: its scale is a power of two, so an FP16 factor leaves it (R127). -/
def integerPath (m : List Byte) : Bool :=
  integerMode m && !bitOf (byteAt m 1) 2 && !bitOf (byteAt m 1) 1 && byteAt m 6 % 4 = 1 && !outFp16 m && byteAt m 4 ≤ 1

/-- CLAMP bounds of any record: S32 in the integer path, FP16 otherwise, lo at most hi and neither NaN (R89). An FP16 bound
stands in the low half of its word: bytes 8-9 and 12-13 (DESIGN CHOICE, log entry 96). -/
def clampOk (m : List Byte) : Bool :=
  if integerPath m then decide (signed 32 (leAt m 8 4) ≤ signed 32 (leAt m 12 4))
  else leV (decodeF fFP16 (leAt m 8 2)) (decodeF fFP16 (leAt m 12 2))

/-- FLOOR of a floored channel: 1-127 for U8 and S8, a positive finite value of the format otherwise (R185). -/
def floorOk (m : List Byte) : Bool :=
  let f := leAt m 32 4
  if byteAt m 4 ≤ 1 then within 1 f 127
  else decide (f < 2 ^ elemWidth (byteAt m 4)) && (match decodeElem (byteAt m 4) f with | .num neg mag _ => !neg && mag ≠ 0 | _ => false)

/-- Petal modes: a floor within its range, and narrowing on FP16 channels only (R185, R186). -/
def petalOk (m : List Byte) : Bool :=
  byteAt m 28 ≤ 3 && byteAt m 29 ≤ 3 && (byteAt m 29 ≠ 2 || floorOk m) && (byteAt m 28 ≠ 3 || byteAt m 3 = 10) &&
  (byteAt m 29 ≠ 3 || byteAt m 4 = 10)

/-- The 256-byte operator microconfiguration of R272; MODE [0] follows R79 and the integer path allows functions 0-2. -/
def microOk (m : List Byte) : Bool :=
  let op := byteAt m 0
  let sc := byteAt m 6
  opcodeOk op && byteAt m 1 < 16 && byteAt m 2 ≤ 9 && activationFmt (byteAt m 3) && activationFmt (byteAt m 4) && byteAt m 5 ≤ 8 && sc < 64 &&
  !(bitOf sc 5 && bitOf sc 4 && bitOf sc 1) && byteAt m 7 < 16 && leAt m 16 4 ≤ 16777216 &&
  (!reduces op || 1 ≤ leAt m 16 4) && leAt m 20 2 ≤ 4096 && leAt m 22 2 ≤ 4096 && leAt m 26 2 ≤ memberLimit op &&
  (op ≠ 0x30 || 1 ≤ leAt m 20 2) && petalOk m && allZero (slice m 30 2) && paramsOk op m &&
  (bitOf (byteAt m 1) 0 = !integerMode m) && (!integerPath m || byteAt m 5 ≤ 2) && clampOk m

/-- Output port and lane pairs that the enabled entries of a route table name (R102). -/
def routeTargets (es : List Nat) : List (Nat × Nat) :=
  (es.filter (fun e => bitOf e 0)).flatMap (fun e =>
    ((List.range 5).filter (fun k => bitOf e (k + 1))).map (fun k => (k, field e 8 6)))

/-- A 512-byte context image: routes that never merge, reserved bytes, cells, microconfiguration (R103, R270). -/
def contextOk (c : List Byte) : Bool :=
  (halfWords 30 c).all (fun e => field e 15 9 = 0 && field e 8 6 ≤ 5) && decide (routeTargets (halfWords 30 c)).Nodup && allZero (slice c 60 4) &&
  ((pieces 8 8 (c.drop 192)).all (fun w => cellOk (leNat w))) && microOk (c.drop 256)

def readContext (b : List Byte) : Except Nat Body := do
  let r : Rect := ⟨leAt b 0 2, leAt b 2 2, leAt b 4 2, leAt b 6 2⟩
  need (b.length = 520 && rectOk r) cFormat
  need (!((rectTiles r).any (fun t => isGatewayTile t.1 t.2)) && contextOk (b.drop 8)) cFormat
  pure (.context r (b.drop 8))

def readRegs (b : List Byte) : Except Nat Body := do
  let n := leAt b 0 4
  need (b.length = 8 + 8 * n && allZero (slice b 4 4)) cFormat
  let es := pieces 8 n (b.drop 8)
  need (es.all (fun e => byteAt e 0 < 120 && byteAt e 1 < 120 && byteAt e 2 < 32 && byteAt e 3 = 0)) cFormat
  pure (.regs (es.map (fun e => ⟨byteAt e 0, byteAt e 1, byteAt e 2, BitVec.ofNat 32 (leAt e 4 4)⟩)))

/-- An 8-byte extent entry (R275). -/
def extEntry (e : List Byte) : ExtEntry := ⟨byteAt e 0, byteAt e 1, byteAt e 2, leAt e 4 2⟩

def extEntryOk (maxLen : Nat) (e : List Byte) : Bool :=
  byteAt e 0 < 120 && byteAt e 1 < 120 && byteAt e 2 < 32 && byteAt e 3 = 0 && 1 ≤ leAt e 4 2 && leAt e 4 2 ≤ maxLen &&
  leAt e 6 2 = 0

/-- R276, R136. -/
def readQueue (b : List Byte) : Except Nat Body := do
  let ns := byteAt b 10
  let np := byteAt b 11
  need (b.length = 16 + 8 * (ns + np)) cFormat
  let t := byteAt b 2 = 1
  let lane := byteAt b 3
  let segs := pieces 8 ns (b.drop 16)
  let spill := pieces 8 np (b.drop (16 + 8 * ns))
  need (leAt b 0 2 < 4096 && byteAt b 2 ≤ 1 && (if t then lane = 4 || lane = 5 else lane < 4)) cFormat
  need ((if t then leAt b 4 2 < 4096 else leAt b 4 2 = 0 && np = 0) && 1 ≤ leAt b 6 2 && leAt b 6 2 ≤ 4096) cFormat
  need (allZero (slice b 12 4) && segs.all (extEntryOk 1024) && spill.all (extEntryOk 1024)) cFormat
  need (leAt b 6 2 ≤ ((segs.map extEntry).map (·.length)).sum) cFormat
  pure (.queue { id := leAt b 0 2, tClass := t, lane := lane, priority := leAt b 4 2, capacity := leAt b 6 2,
                 channel := leAt b 8 2, segs := segs.map extEntry, spill := spill.map extEntry })

/-- Cycles of R277, one after another. -/
def readCycleList : Nat → List Byte → Option (List CycleRec × List Byte)
  | 0, bs => some ([], bs)
  | n + 1, bs =>
    let k := leAt bs 2 2
    let len := (4 + 2 * k + 7) / 8 * 8
    if 1 ≤ k ∧ k ≤ 64 ∧ len ≤ bs.length ∧ allZero ((bs.take len).drop (4 + 2 * k)) then
      (readCycleList n (bs.drop len)).map (fun r => (⟨leAt bs 0 2, halfWords k (bs.drop 4)⟩ :: r.1, r.2))
    else none

def readCycles (b : List Byte) : Except Nat Body := do
  let n := leAt b 0 4
  need (1 ≤ n && n ≤ 256 && allZero (slice b 4 4)) cFormat
  match readCycleList n (b.drop 8) with
  | some (cs, []) => pure (.cycles cs)
  | _ => .error cFormat

def readExtent (b : List Byte) : Except Nat Body := do
  let n := leAt b 0 4
  need (b.length = 8 + 8 * n && allZero (slice b 4 4)) cFormat
  let es := pieces 8 n (b.drop 8)
  need (es.all (extEntryOk 2048)) cFormat
  pure (.extent (es.map extEntry))

/-- The first 56 bytes of a BLOB body (R278). -/
def readBlob (b : List Byte) : Except Nat Body := do
  let r : Rect := ⟨leAt b 36 2, leAt b 38 2, leAt b 40 2, leAt b 42 2⟩
  need (b.length ≥ 56 && rectOk r && byteAt b 34 ≤ 9 && byteAt b 35 < 32 && 1 ≤ leAt b 44 4 && leAt b 44 4 ≤ 2048 &&
    allZero (slice b 48 8)) cFormat
  pure (.blob { digest := slice b 0 32, number := leAt b 32 2, format := byteAt b 34, baseReg := byteAt b 35, rect := r,
                codewords := leAt b 44 4 })

/-- Bytes of a blob's DATA. -/
def blobDataLen (r : BlobRec) : Nat := (rectTiles r.rect).length * r.codewords * 8

/-! ### Ledger, census map, tunables, trailer (R188, R279-R284) -/

def readLedgerEntry (e : List Byte) : LedgerEntry :=
  { kind := byteAt e 0, unit := byteAt e 1, place := field (leAt e 2 2) 15 12, index := field (leAt e 2 2) 11 0,
    bound := BitVec.ofNat 32 (leAt e 4 4), param0 := BitVec.ofNat 32 (leAt e 8 4), param1 := BitVec.ofNat 32 (leAt e 12 4),
    param2 := BitVec.ofNat 32 (leAt e 16 4), format := leAt e 20 2, reservedZero := allZero (slice e 22 10) }

/-- The 32 bytes of a ledger entry, as PRT_LDG_DATA shows them. -/
def ledgerBytes (e : LedgerEntry) : List Byte :=
  leBytes 1 e.kind ++ leBytes 1 e.unit ++ leBytes 2 (e.place * 4096 + e.index) ++ leBytes 4 e.bound.toNat ++
  leBytes 4 e.param0.toNat ++ leBytes 4 e.param1.toNat ++ leBytes 4 e.param2.toNat ++ leBytes 2 e.format ++ zeros 10

def readLedger (b : List Byte) : Except Nat Body := do
  let n := leAt b 0 4
  need (b.length = 8 + 32 * n && n ≤ 4096 && allZero (slice b 4 4)) cFormat
  pure (.ledger ((pieces 32 n (b.drop 8)).map readLedgerEntry))

def readCensusEntry (e : List Byte) : CensusEntry :=
  { isChannel := byteAt e 0 = 1, opcode := byteAt e 1, number := leAt e 2 2, piece := byteAt e 4,
    rect := ⟨leAt e 6 2, leAt e 8 2, leAt e 10 2, leAt e 12 2⟩, producer := leAt e 6 2, consumer := leAt e 8 2,
    name := slice e 14 16 }

/-- R280; a map of more than 8,192 entries is judged at check 6 (R465). -/
def readCensusMap (chainLen : Nat) (b : List Byte) : Except Nat Body := do
  let n := leAt b 0 4
  need (b.length = 8 + 32 * n && allZero (slice b 4 4)) cFormat
  let es := pieces 32 n (b.drop 8)
  need (es.all (fun e => byteAt e 0 ≤ 1 && leAt e 2 2 < 4096 && byteAt e 4 < chainLen && byteAt e 5 = 0 && leAt e 30 2 = 0 &&
    (if byteAt e 0 = 0 then opcodeOk (byteAt e 1) && rectOk (readCensusEntry e).rect
     else byteAt e 1 ≤ 5 && allZero (slice e 10 4)))) cFormat
  pure (.censusMap (es.map readCensusEntry))

def readTunEntry (e : List Byte) : TunEntry :=
  { id := byteAt e 0, format := byteAt e 1, stage := leAt e 2 2, target := byteAt e 4, offset := leAt e 6 2,
    dflt := BitVec.ofNat 32 (leAt e 8 4), min := BitVec.ofNat 32 (leAt e 12 4), max := BitVec.ofNat 32 (leAt e 16 4),
    name := slice e 20 12 }

/-- The 32 bytes of a tunable entry, as PRT_TDECL_DATA shows them (R484). -/
def tunBytes (t : TunEntry) : List Byte :=
  leBytes 1 t.id ++ leBytes 1 t.format ++ leBytes 2 t.stage ++ leBytes 1 t.target ++ zeros 1 ++ leBytes 2 t.offset ++
  leBytes 4 t.dflt.toNat ++ leBytes 4 t.min.toNat ++ leBytes 4 t.max.toNat ++ t.name

/-- Is a tunable value NaN (FP16 only)? -/
def tunNan (format : Nat) (v : Word) : Bool := format = 1 && decide (decodeF fFP16 (v.toNat % 65536) = .nan)

/-- Values compare by number, FP16 exactly (R282). -/
def tunLe (format : Nat) (a b : Word) : Bool :=
  if format = 0 then decide (a.toInt ≤ b.toInt)
  else if format = 1 then leV (decodeF fFP16 (a.toNat % 65536)) (decodeF fFP16 (b.toNat % 65536))
  else decide (a.toNat % 65536 ≤ b.toNat % 65536)

def tunLt (format : Nat) (a b : Word) : Bool := tunLe format a b && !tunLe format b a

/-- Does a relation hold on a set of values (R281)? -/
def relHolds (ts : List TunEntry) (vals : List Word) (r : RelEntry) : Bool :=
  let f := (ts.getD r.a {}).format
  let a := vals.getD r.a 0
  let b := vals.getD r.b 0
  if r.strict then tunLt f a b else tunLe f a b

/-- R281 and the parts of R282 that need no other record. -/
def tunSetOk (ts : List TunEntry) (rels : List RelEntry) : Bool :=
  let ok := ts.all (fun t =>
    t.format ≤ 2 && t.target ≤ 4 && t.stage < 4096 && (t.target = 4 || t.format = 1) &&
    (if t.target = 4 then 36 ≤ t.offset && t.offset ≤ 252 && t.offset % 4 = 0 else t.offset = 0) &&
    !tunNan t.format t.dflt && !tunNan t.format t.min && !tunNan t.format t.max && tunLe t.format t.min t.dflt &&
    tunLe t.format t.dflt t.max)
  let ids := decide (ts.map (·.id) = List.range ts.length)
  let keys : List (Nat × Nat × Nat) := ts.map (fun t => (t.stage, if t.target = 4 then (1, t.offset) else (0, t.target)))
  let rel := rels.all (fun r => r.a < ts.length && r.b < ts.length &&
    decide ((ts.getD r.a {}).format = (ts.getD r.b {}).format) && relHolds ts (ts.map (·.dflt)) r)
  -- a stage with both its t_on and t_off as tunables has a relation t_off (<= or <) t_on
  let pair := fun (hi lo : Nat) => ts.all (fun t => t.target ≠ lo || ts.all (fun u => u.target ≠ hi || u.stage ≠ t.stage ||
    rels.any (fun r => r.a = t.id && r.b = u.id)))
  ok && ids && decide keys.Nodup && rel && pair 0 1 && pair 2 3

def readTunables (b : List Byte) : Except Nat Body := do
  let nt := byteAt b 0
  let nv := byteAt b 1
  need (b.length = 8 + 32 * nt + 8 * nv && nt ≤ 32 && nv ≤ 32 && allZero (slice b 2 6)) cFormat
  let ts := pieces 32 nt (b.drop 8)
  let rs := pieces 8 nv (b.drop (8 + 32 * nt))
  need (ts.all (fun e => byteAt e 5 = 0) && rs.all (fun e => byteAt e 2 ≤ 1 && allZero (slice e 3 5))) cFormat
  let tl := ts.map readTunEntry
  let rl := rs.map (fun e => ({ a := byteAt e 0, b := byteAt e 1, strict := byteAt e 2 = 1 } : RelEntry))
  need (tunSetOk tl rl) cFormat
  pure (.tunables tl rl)

/-- `n` little-endian 4-byte numbers. -/
def fullWords : Nat → List Byte → List Nat
  | 0, _ => []
  | n + 1, bs => leNat (bs.take 4) :: fullWords n (bs.drop 4)

/-- R284: magic and layout; the counts are judged at check 8. -/
def readTrailer (b : List Byte) : Except Nat Body := do
  let g := leAt b 8 4
  need (leAt b 0 4 = 0x444E454A && allZero (slice b 12 4) && b.length = (16 + 4 * g + 7) / 8 * 8 &&
    allZero (b.drop (16 + 4 * g))) cFormat
  pure (.trailer (leAt b 4 4) g (fullWords g (b.drop 16)))

/-! ### Records (R255, R257) -/

/-- The body of a record of type `ty`. -/
def readBody (chainLen ty : Nat) (b : List Byte) : Except Nat Body :=
  match ty with
  | 0x0001 => readSignature b
  | 0x0002 => readEpochs b
  | 0x0010 => readContract b
  | 0x0011 => readPiece b
  | 0x0012 => readImgPort b
  | 0x0013 => readSndPort b
  | 0x0014 => readAlign b
  | 0x0015 => readScript b
  | 0x0016 => readStimulus b
  | 0x0017 => readVerdict b
  | 0x0018 => readSpan b
  | 0x0020 => readContext b
  | 0x0021 => readRegs b
  | 0x0022 => readQueue b
  | 0x0023 => readCycles b
  | 0x0024 => readExtent b
  | 0x0030 => readBlob b
  | 0x0040 => readLedger b
  | 0x0041 => readCensusMap chainLen b
  | 0x0042 => readTunables b
  | 0x00FF => readTrailer b
  | _ => .error cFormat

/-- A BLOB whose DATA a staged load has skipped: header and the first 56 bytes of the body (R278). -/
def isSkippedBlob (bs : List Byte) : Bool := leAt bs 0 2 = 0x0030 && bs.length = 72 && leAt bs 4 4 > 56

/-- Read a whole record; its CRC covers the header's first 12 bytes and the body, so it is not judged where a blob's DATA was
skipped. -/
def readRecord (h : ImgHeader) (bs : List Byte) : Except Nat Rec := do
  let ty := leAt bs 0 2
  let piece := byteAt bs 2
  let forms := byteAt bs 3
  let len := leAt bs 4 4
  let group := leAt bs 8 2
  let body := bs.drop 16
  need (bs.length ≥ 16 && len % 8 = 0 && sectionOf ty ≠ 0) cFormat
  need (isSkippedBlob bs || (bs.length = 16 + len && leAt bs 12 4 = crc32c (bs.take 12 ++ body))) cFormat
  need (leAt bs 10 2 = 0 && forms < 16 && (if piece = 255 then forms = 0 else piece < h.chainLen)) cFormat
  need (!pieceSpecific ty || piece ≠ 255) cFormat
  need (if grouped ty then 1 ≤ group && group ≤ h.groups else group = 0) cFormat
  let b ← readBody h.chainLen ty body
  match b with
  | .blob r => need (len = 56 + (blobDataLen r + 7) / 8 * 8) cFormat
  | _ => pure ()
  pure { type := ty, piece := piece, forms := forms, length := len, group := group, body := b }

/-! ### The image directory (R233, R234) -/

/-- Logical block 0 is a directory (R233). -/
def directoryOk (bs : List Byte) : Bool :=
  leAt bs 0 4 = 0x54524143 && leAt bs 4 2 = 1 && leAt bs 60 4 = crc32c (bs.take 60)

/-- Slot entry `i` (R234). -/
def readSlot (bs : List Byte) (i : Nat) : Slot :=
  let e := slice bs (0x40 + 0x80 * i) 128
  { present := bitOf (byteAt e 0) 0, unitBound := bitOf (byteAt e 0) 1, crcOk := decide (leAt e 124 4 = crc32c (e.take 124)),
    epoch := byteAt e 1, chainLen := byteAt e 2, keyId := leAt e 4 4, startLba := leAt e 8 8, length := leAt e 16 8,
    digest := slice e 24 32, unitSerial := leAt e 56 8, wrapNonce := slice e 64 12, wrappedKey := slice e 76 32,
    wrapTag := slice e 108 16, aad := e.take 64 }

/-! ### Views of an image -/

def imgContract (i : Image) : Contract :=
  (i.recs.findSome? (fun r => match r.body with | .contract c => some c | _ => none)).getD {}

def imgPorts (i : Image) : List (Nat × ImgPortRec) :=
  i.recs.filterMap (fun r => match r.body with | .imgPort x => some (r.piece, x) | _ => none)

def sndPorts (i : Image) : List (Nat × SndPortRec) :=
  i.recs.filterMap (fun r => match r.body with | .sndPort x => some (r.piece, x) | _ => none)

def imgAligns (i : Image) : List AlignRec := i.recs.filterMap (fun r => match r.body with | .align x => some x | _ => none)

def imgVerdict (i : Image) : VerdictRec :=
  (i.recs.findSome? (fun r => match r.body with | .verdict v => some v | _ => none)).getD {}

/-- Piece whose gateway serves the verdict port (R195, R268). -/
def verdictPiece (i : Image) : Nat :=
  (i.recs.findSome? (fun r => match r.body with | .verdict _ => some r.piece | _ => none)).getD 0

def imgSpan (i : Image) : Option SpanRec := i.recs.findSome? (fun r => match r.body with | .span x => some x | _ => none)

/-- (carry axis, forms offered) of each piece, in chain order (R262). -/
def imgPieces (i : Image) : List (Nat × Nat) :=
  i.recs.filterMap (fun r => match r.body with | .piece a _ => some (a, r.forms) | _ => none)

def imgLedger (i : Image) : List LedgerEntry :=
  (i.recs.findSome? (fun r => match r.body with | .ledger es => some es | _ => none)).getD []

def imgCensusMap (i : Image) : List CensusEntry :=
  (i.recs.findSome? (fun r => match r.body with | .censusMap es => some es | _ => none)).getD []

def imgTunables (i : Image) : List TunEntry × List RelEntry :=
  (i.recs.findSome? (fun r => match r.body with | .tunables ts rs => some (ts, rs) | _ => none)).getD ([], [])

def imgCycles (i : Image) : List CycleRec :=
  (i.recs.findSome? (fun r => match r.body with | .cycles cs => some cs | _ => none)).getD []

def imgEpochs (i : Image) : List Nat × List Nat :=
  (i.recs.findSome? (fun r => match r.body with | .epochs _ f m => some (f, m) | _ => none)).getD ([], [])

def imgStimuli (i : Image) : List (Nat × Nat × List (BitVec 16)) :=
  i.recs.filterMap (fun r => match r.body with | .stimulus p q xs => some (p, q, xs) | _ => none)

/-- Latency bound of R392: budget plus the fixed parts of R17 less the pin drive. -/
def lateBound (c : Contract) : Nat := 180 + c.latencyBudget + 320 * c.spanHops

end Sys2Proof.Machine
end

