-- ==== Sys2Proof/Machine/Lanes.lean ====
section
/-! DEFINITION. The tile's arithmetic: accumulators and block totals (R83-R85), scales on the sidecar (R122-R127), the
output unit (R86, R87, R129), Petal coding (R183-R186), packing of elements in flits (R114). Nothing here reads the state. -/

namespace Sys2Proof.Machine

/-! ### Flits (R58, R132) -/

def flitData (f : Flit) : Nat := f.toNat % 2 ^ 32

def flitEnd (f : Flit) : Bool := f.getLsbD 32

def flitLane (f : Flit) : Nat := f.toNat / 2 ^ 33

/-- A flit from its lane, end mark and data. -/
def mkFlit (lane : Nat) (isEnd : Bool) (data : Nat) : Flit :=
  BitVec.ofNat 36 (data % 2 ^ 32 + boolNat isEnd * 2 ^ 32 + lane % 8 * 2 ^ 33)

/-- The flit with another lane: nothing else changes (R104). -/
def setLane (lane : Nat) (f : Flit) : Flit := mkFlit lane (flitEnd f) (flitData f)

/-! ### Accumulation (R83, R84) -/

/-- Add an integer product to an S32 accumulator: result and saturations counted. -/
def accInt (a : Acc) (p : Int) : Acc × Nat :=
  if a.sat then (a, 0)
  else
    let r := clampInt (-2147483648) 2147483647 (a.bits.toInt + p)
    ({ bits := BitVec.ofInt 32 r.1, sat := r.2 }, boolNat r.2)

/-- Add an exact product to an A32 accumulator. NaN overrides saturation in either order. -/
def accFloat (a : Acc) (v : FV) : Acc × Nat :=
  if isNan a.bits then (a, 0)
  else if v = .nan then ({ bits := a32Nan }, 0)
  else if a.sat then (a, 0)
  else let r := a32Of (addV (a32Val a.bits) v); ({ bits := r.1, sat := r.2 }, boolNat r.2)

/-- The product table of an operand (R77). -/
def buildTable (a : Int) : Vector Int 16 := Vector.ofFn (fun v : Fin 16 => a * (v.val : Int))

/-- The signed table entry that a decoded weight selects, before its shift (R78). -/
def tableSel (t : Vector Int 16) (w : WSel) : Int := (if w.neg then -1 else 1) * t[Fin.ofNat 16 w.index]

/-- The integer product of a selection, whose shift is 0 or 4 in integer mode. -/
def intProduct (t : Vector Int 16) (w : WSel) : Int := tableSel t w * 2 ^ w.shift.toNat

/-- The float product of a selection. -/
def fltProduct (t : Vector Int 16) (e : Int) (w : WSel) : FV :=
  let i := tableSel t w
  .num (i < 0) i.natAbs (e + w.shift)

/-- One lane's addition for a weight code: accumulator, overflows, reserved codes (R78, R80, R81, R83, R84). -/
def laneStep (intMode : Bool) (t : Vector Int 16) (e : Int) (nanAct : Bool) (fmt code : Nat) (a : Acc) : Acc × Nat × Nat :=
  let addSel := fun (f : FV) (i : Int) => if intMode then accInt a i else accFloat a (if nanAct then .nan else f)
  match decodeWeight fmt code with
  | .sel w => let r := addSel (fltProduct t e w) (intProduct t w); (r.1, r.2, 0)
  | .pair lo hi =>
    let r := addSel (addV (fltProduct t e lo) (fltProduct t e hi)) (intProduct t lo + intProduct t hi)
    (r.1, r.2, 0)
  | .nan => let r := accFloat a .nan; (r.1, r.2, 0)
  | .reserved => let r := addSel (intV 0) 0; (r.1, r.2, 1)
  | .big w => let r := addSel (fltProduct t e w) (intProduct t w); (r.1, r.2 + 1, 0)

/-! ### Block ends (R85) -/

/-- A block scale or an FP16 factor by its code: value, infinities counted (R122, R123). -/
def scaleVal (fp16 : Bool) (code : Nat) : FV × Nat :=
  if fp16 then let r := fp16Scale code; (r.1, boolNat r.2) else (se8Val code, 0)

def negV : FV → Bool
  | .num neg _ _ => neg
  | .inf neg => neg
  | .nan => false

/-- Value of an accumulator: S32 in integer mode, A32 otherwise. -/
def accVal (intMode : Bool) (a : Acc) : FV := if intMode then intV a.bits.toInt else a32Val a.bits

/-- The block-end operation: the new block total and the overflows counted. -/
def blockEndOp (intMode : Bool) (acc total : Acc) (scale : FV × Nat) : Acc × Nat :=
  let v := accVal intMode acc
  if isNan total.bits then (total, scale.2)
  else if v = .nan ∨ scale.1 = .nan then ({ bits := a32Nan }, scale.2)
  else if total.sat then (total, scale.2)
  else if acc.sat then ({ bits := a32Max (negV v != negV scale.1), sat := true }, scale.2)
  else
    let r := a32Of (addV (a32Val total.bits) (mulV v scale.1))
    ({ bits := r.1, sat := r.2 }, scale.2 + boolNat r.2)

/-! ### The sidecar stream (R125) -/

/-- The scale element at byte position `p` of the flits not yet consumed: its code and the position after it; none when it
has not arrived. An FP16 element skips the padding byte at an odd position. -/
def scaleAt (fs : List Flit) (fp16 : Bool) (p : Nat) : Option (Nat × Nat) :=
  let q := if fp16 then p + p % 2 else p
  match fs[q / 4]? with
  | none => none
  | some f =>
    if fp16 then some (flitData f / 2 ^ (8 * (q % 4)) % 65536, q + 2) else some (flitData f / 2 ^ (8 * (q % 4)) % 256, q + 1)

/-- `n` scale elements of one format. -/
def scaleGroup (fs : List Flit) (fp16 : Bool) : Nat → Nat → Option (List Nat × Nat)
  | 0, p => some ([], p)
  | n + 1, p =>
    match scaleAt fs fp16 p with
    | none => none
    | some r => (scaleGroup fs fp16 n r.2).map (fun x => (r.1 :: x.1, x.2))

/-- An element's factors of step 2: K, the FP16 factor, NaN, infinities counted (R127). -/
structure Factors where
  k : Int := 0
  f : FV := .num false 1 0
  nan : Bool := false
  counted : Nat := 0
deriving DecidableEq, Repr

/-- Take an SE8 factor. -/
def addSe8 (x : Factors) (code : Nat) : Factors :=
  if code = 255 then { x with nan := true } else { x with k := x.k + ((code : Int) - 127) }

/-- Take the FP16 factor. -/
def addFp16 (x : Factors) (code : Nat) : Factors :=
  let r := fp16Scale code
  if r.1 = .nan then { x with nan := true } else { x with f := r.1, counted := boolNat r.2 }

/-- SCALES of R272: the factors an element carries, in the order of R125. -/
def outSe8 (m : List Byte) : Bool := bitOf (byteAt m 6) 0
def rowSe8 (m : List Byte) : Bool := bitOf (byteAt m 6) 4 && !bitOf (byteAt m 6) 5
def channelScale (m : List Byte) : Bool := bitOf (byteAt m 6) 3
def blockScales (m : List Byte) : Bool := bitOf (byteAt m 1) 2
def blockFp16 (m : List Byte) : Bool := bitOf (byteAt m 6) 2

/-- The factors of one element. -/
def factorsAt (m : List Byte) (fs : List Flit) (p : Nat) : Option (Factors × Nat) :=
  let take := fun (use fp16 : Bool) (add : Factors → Nat → Factors) (x : Factors × Nat) =>
    if use then (scaleAt fs fp16 x.2).map (fun r => (add x.1 r.1, r.2)) else some x
  (take (outSe8 m) false addSe8 ({}, p)).bind (fun a => (take (rowSe8 m) false addSe8 a).bind (take (outFp16 m) true addFp16))

/-- The output scale group of `n` elements. -/
def factorGroup (m : List Byte) (fs : List Flit) : Nat → Nat → Option (List Factors × Nat)
  | 0, p => some ([], p)
  | n + 1, p =>
    match factorsAt m fs p with
    | none => none
    | some r => (factorGroup m fs n r.2).map (fun x => (r.1 :: x.1, x.2))

/-! ### The output unit (R86, R87) -/

/-- The function of step 4 in the integer path: identity, ReLU or clamp. -/
def intFunction (m : List Byte) (v : Int) : Int :=
  if byteAt m 5 = 1 then (if v < 0 then 0 else v)
  else if byteAt m 5 = 2 then (clampInt (signed 32 (leAt m 8 4)) (signed 32 (leAt m 12 4)) v).1
  else v

/-- Step 2 in the integer path: a left shift saturates to S32, a right shift rounds to nearest even. -/
def intShift (v k : Int) : Int × Nat :=
  let r := clampInt (-2147483648) 2147483647 (roundInt (v < 0) v.natAbs k)
  (r.1, boolNat r.2)

/-- Steps 1-5 in the integer path: code and overflows. -/
def outInt (m : List Byte) (v : Int) (x : Factors) (bias : Option Int) : Nat × Nat :=
  if x.nan then convert .nan (byteAt m 4)
  else
    let a := intShift v x.k
    let b := match bias with
      | none => (a.1, 0)
      | some n => let r := clampInt (-2147483648) 2147483647 (a.1 + n); (r.1, boolNat r.2)
    let r := convert (intV (intFunction m b.1)) (byteAt m 4)
    (r.1, a.2 + b.2 + r.2)

/-- Step 3 in the A32 path: the bias by its FP16 code. -/
def biasA32 (a : A32) (bias : Option Nat) : A32 × Nat :=
  match bias with
  | none => (a, 0)
  | some c =>
    let b := finiteV fFP16 (decodeF fFP16 c)
    if isNan a ∨ b.1 = .nan then (a32Nan, boolNat b.2)
    else let r := a32Of (addV (a32Val a) b.1); (r.1, boolNat b.2 + boolNat r.2)

/-- Step 5: conversion to the output format, or to a scale where the stage emits one (R129). -/
def outConvert (m : List Byte) (v : FV) : Nat × Nat :=
  match (Config.params m).emitScale with
  | 1 => toSe8 v
  | 2 => convert v 10
  | _ => convert v (byteAt m 4)

/-- Steps 1-5 in the A32 path. -/
def outA32 (m : List Byte) (v : FV) (x : Factors) (bias : Option Nat) : Nat × Nat :=
  let a := a32Of v
  let b := if v = .nan ∨ x.nan then (a32Nan, false) else a32Of (mulV (mulV (a32Val a.1) (.num false 1 x.k)) x.f)
  let c := biasA32 b.1 bias
  let d := functionUnit (byteAt m 5) (leAt m 8 2) (leAt m 12 2) c.1
  let r := outConvert m (a32Val d.1)
  (r.1, x.counted + boolNat b.2 + c.2 + d.2 + r.2)

/-- One output element of a lane: the accumulator or block total through the output unit; `bias` is the element's code. -/
def outElem (m : List Byte) (acc total : Acc) (x : Factors) (bias : Option Nat) : Nat × Nat :=
  if integerPath m then outInt m acc.bits.toInt x (bias.map (signed 32))
  else
    let v := if blockScales m then a32Val total.bits else accVal (integerMode m) acc
    outA32 m v x bias

/-! ### Petal coding and packing (R114, R183-R186) -/

/-- Width in bits of an element position on the output channel. -/
def outWidth (m : List Byte) : Nat :=
  match (Config.params m).emitScale with
  | 1 => 8
  | 2 => 16
  | _ => if byteAt m 29 = 3 then 8 else elemWidth (byteAt m 4)

/-- Floored mode replaces |x| < F by +0 (R185); narrowed mode converts FP16 to E5M2 (R186). -/
def petalElem (m : List Byte) (code : Nat) : Nat × Nat :=
  if byteAt m 29 = 2 then
    (if ltV (absV (decodeElem (byteAt m 4) code)) (decodeElem (byteAt m 4) (leAt m 32 4)) then (0, 0) else (code, 0))
  else if byteAt m 29 = 3 then convert (decodeF fFP16 code) 9
  else (code, 0)

/-- A group of at most 8 elements: bitmap, then its nonzero elements (R183). -/
def petalGroup (es : List Nat) : List Nat :=
  (((List.range es.length).map (fun i => if es.getD i 0 = 0 then 0 else 2 ^ i)).sum) :: es.filter (· ≠ 0)

/-- Whole groups of 8, and what is left; with `last`, the short group too. At most `fuel` groups. -/
def petalGroups (last : Bool) : Nat → List Nat → List Nat × List Nat
  | 0, es => ([], es)
  | n + 1, es =>
    if 8 ≤ es.length then let r := petalGroups last n (es.drop 8); (petalGroup (es.take 8) ++ r.1, r.2)
    else if last && !es.isEmpty then (petalGroup es, [])
    else ([], es)

/-- The data bits of a flit from the element positions it holds. -/
def packData (w : Nat) (ps : List Nat) : Nat := ((List.range ps.length).map (fun i => ps.getD i 0 % 2 ^ w * 2 ^ (w * i))).sum

/-- Flits of positions of width `w` on a lane, and what is left; with `flush`, the partial flit too (R114). At most `fuel`. -/
def packFlits (lane w : Nat) (flush : Bool) : Nat → List Nat → List Flit × List Nat
  | 0, ps => ([], ps)
  | n + 1, ps =>
    if 32 / w ≤ ps.length then
      let r := packFlits lane w flush n (ps.drop (32 / w))
      (mkFlit lane false (packData w (ps.take (32 / w))) :: r.1, r.2)
    else if flush && !ps.isEmpty then ([mkFlit lane false (packData w ps)], [])
    else ([], ps)

/-- The flits that end a window: zero padding up to the window's count, the end mark on the last (R132, R183). -/
def closeFlits (lane count sent : Nat) (fs : List Flit) : List Flit :=
  let all := fs ++ List.replicate (count - (sent + fs.length)) (mkFlit lane false 0)
  match all.getLast? with
  | none => []
  | some f => all.dropLast ++ [mkFlit lane true (flitData f)]

/-- The lane a stage sends its tensor output on. -/
def outLane (m : List Byte) : Nat := (Config.params m).outLane % 4

/-- Lanes whose values leave at a reduction end: the configured ones where each lane holds an output, else lane 0. -/
def usedLanes (m : List Byte) : Nat :=
  let q := Config.params m
  let op := byteAt m 0
  if op = 0x01 || op = 0x02 || op = 0x03 || (op = 0x51 && !q.power) then q.lanes else 1

/-- Elements of a window on the output lane. -/
def windowElems (m : List Byte) : Nat :=
  let q := Config.params m
  let op := byteAt m 0
  if op = 0x21 then 2 * (q.edges.length + 1)
  else if op = 0x14 then q.reds / q.slices.sum * q.slices.getD q.slice 0
  else if op = 0x31 ∨ op = 0x32 then q.featureCount
  else q.reds * usedLanes m

/-- Flits of a window of E elements on the output lane: with a bitmap a group, ⌈(E + ⌈E/8⌉) w / 32⌉ (R114, R183). -/
def windowFlits (m : List Byte) : Nat :=
  let e := windowElems m
  let n := if byteAt m 29 = 1 ∨ byteAt m 29 = 2 then e + (e + 7) / 8 else e
  (n * outWidth m + 31) / 32

/-- Element codes leave the output unit: coded, packed, queued for the router; overflows counted (R114, R183-R186). -/
def emitElems (m : List Byte) (t : Tile) (codes : List Nat) (last : Bool) : Tile × Nat :=
  let cs := codes.map (petalElem m)
  let es := t.outElems ++ cs.map (·.1)
  let g := if byteAt m 29 = 1 ∨ byteAt m 29 = 2 then petalGroups last (es.length + 1) es else (es, [])
  let ps := t.outPos ++ g.1
  let f := packFlits (outLane m) (outWidth m) last (ps.length + 1) ps
  let fs := if last then closeFlits (outLane m) (windowFlits m) t.outFlits f.1 else f.1
  ({ t with outElems := g.2, outPos := f.2, outFlits := if last then 0 else t.outFlits + fs.length, sendQ := t.sendQ ++ fs },
   (cs.map (·.2)).sum)

/-! ### Taking elements from a local lane (R114, R183) -/

/-- The stage has consumed the first flit of a local S-class lane; its end mark is the window boundary there (R135). -/
def popFlit (l : Fin 4) (t : Tile) : Tile :=
  let k : Fin 6 := Fin.ofNat 6 l.val
  match t.local6[k] with
  | [] => t
  | f :: rest =>
    { t with local6 := t.local6.set k.val rest k.isLt, pos := t.pos.set l.val 0 l.isLt,
             ended := if flitEnd f then t.ended.set l.val true l.isLt else t.ended }

/-- The next `b` bytes of a local S-class lane; none when they have not arrived. -/
def takePos (b : Nat) (l : Fin 4) (t : Tile) : Option (Nat × Tile) :=
  match t.local6[Fin.ofNat 6 l.val] with
  | [] => none
  | f :: _ =>
    let code := flitData f / 2 ^ (8 * t.pos[l]) % 2 ^ (8 * b)
    some (code, if 4 ≤ t.pos[l] + b then popFlit l t else { t with pos := t.pos.set l.val (t.pos[l] + b) l.isLt })

/-- What follows in the flit is padding; the Petal group ends too (R114, R183). -/
def dropPad (l : Fin 4) (t : Tile) : Tile :=
  let t1 := { t with petal := t.petal.set l.val [] l.isLt }
  if t.pos[l] = 0 then t1 else popFlit l t1

/-- A window has been worked off: what its input lanes still hold up to their end marks is padding, one flit a move; then the
stage stands at the window boundary on all of them. None while a flit has not arrived. -/
def closeMove (keepCount : Bool) (ls : List (Fin 4)) (t : Tile) : Option Tile :=
  match ls.find? (fun l => !t.ended[l]) with
  | none => some { t with closing := false, ended := Vector.replicate 4 false, petal := Vector.replicate 4 [], red := 0, step := 0, block := 0,
                          taken := if keepCount then t.taken else Vector.replicate 4 0 }
  | some l => if (t.local6[Fin.ofNat 6 l.val]).isEmpty then none else some (popFlit l t)

/-- An element taken from a lane: its code, and whether a Petal bitmap marks it zero. -/
structure Elem where
  code : Nat := 0
  marked : Bool := false
deriving DecidableEq, Repr

/-- The next element, of `b` bytes, of a lane in a Petal mode; none when it has not arrived, or when the window's last flit on the
lane has been consumed. -/
def takeElem (b mode : Nat) (l : Fin 4) (t : Tile) : Option (Elem × Tile) :=
  if t.ended[l] && t.petal[l].isEmpty then none
  else if mode = 3 then (takePos 1 l t).map (fun r => (⟨r.1 * 256, false⟩, r.2))
  else if mode = 1 ∨ mode = 2 then
    let withBits : Option Tile :=
      if t.petal[l].isEmpty then
        (takePos b l t).map (fun r => { r.2 with petal := r.2.petal.set l.val ((List.range 8).map (fun i => bitOf r.1 i)) l.isLt })
      else some t
    withBits.bind (fun t1 =>
      match t1.petal[l] with
      | [] => none
      | bit :: rest =>
        let t2 := { t1 with petal := t1.petal.set l.val rest l.isLt }
        if bit then (takePos b l t2).map (fun r => (⟨r.1, false⟩, r.2)) else some (⟨0, true⟩, t2))
  else (takePos b l t).map (fun r => (⟨r.1, false⟩, r.2))

/-- The next element of a lane, counted; before a segment's first element its header flit is passed over (R335, R358), and after
a vector's last element the rest of the flit is padding (R114). -/
def takeCoded (m : List Byte) (b mode : Nat) (l : Fin 4) (t : Tile) : Option (Elem × Tile) :=
  let q := Config.params m
  let n := t.taken[l]
  let t1 := if q.segment ≠ 0 && n % q.segment = 0 && 2 ≤ (t.local6[Fin.ofNat 6 l.val]).length then popFlit l t else t
  if q.segment ≠ 0 && n % q.segment = 0 && (t.local6[Fin.ofNat 6 l.val]).length < 2 then none
  else (takeElem b mode l t1).map (fun r =>
    let t2 := { r.2 with taken := r.2.taken.set l.val (n + 1) l.isLt }
    (r.1, if q.vector ≠ 0 && (n + 1) % q.vector = 0 then dropPad l t2 else t2))

/-- The next element of a lane in the stage's input format and Petal mode. -/
def takeNext (m : List Byte) (l : Fin 4) (t : Tile) : Option (Elem × Tile) :=
  takeCoded m (elemWidth (byteAt m 3) / 8) (byteAt m 28) l t

end Sys2Proof.Machine
end

