-- ==== Sys2Proof/Machine/Pages.lean ====
section
/-! DEFINITION. The export path: record and page layouts, page closing, the record store, the arbiter (R214, R385-R400). -/

namespace Sys2Proof.Machine

/-! ### Record layouts -/

/-- A fault-log entry, 32 bytes (R456). -/
def logEntryBytes (e : LogEntry) : List Byte :=
  leBytes 4 e.seq ++ leBytes 4 e.powerOn ++ leBytes 8 e.time ++ leBytes 2 e.code ++ leBytes 1 e.index ++
  leBytes 1 (boolNat e.endOfEpisode) ++ leBytes 4 e.detail0 ++ leBytes 8 e.detail1

/-- Bytes of a record (R391, R393, R398, R459, R466). -/
def recBytes : ERec → List Byte
  | .verdict flags cls gen score column index aux0 aux1 seq latency time =>
    leBytes 1 0x01 ++ leBytes 1 flags ++ leBytes 1 cls ++ leBytes 1 gen ++ leBytes 2 score.toNat ++ leBytes 2 column ++
    leBytes 4 index ++ leBytes 2 aux0.toNat ++ leBytes 2 aux1.toNat ++ leBytes 4 seq ++ leBytes 4 latency ++ leBytes 8 time
  | .evidence _ bytes => bytes
  | .census _ bytes => bytes
  | .fault state e flags lost first last gen =>
    leBytes 1 0x04 ++ leBytes 1 flags ++ leBytes 2 64 ++ leBytes 1 state ++ zeros 3 ++ logEntryBytes e ++ leBytes 4 lost ++
    leBytes 4 first ++ leBytes 4 last ++ leBytes 4 gen ++ zeros 8
  | .gap flags count first last time =>
    leBytes 1 0x05 ++ leBytes 1 flags ++ zeros 2 ++ leBytes 4 count ++ leBytes 4 first ++ leBytes 4 last ++ zeros 8 ++
    leBytes 8 time

/-- Length of a record in bytes (R390). -/
def recSize : ERec → Nat
  | .verdict .. => 32
  | .evidence _ bytes => bytes.length
  | .census _ bytes => bytes.length
  | .fault .. => 64
  | .gap .. => 32

/-- Gap and fault records stand in a reserve of 64 slots beside the record store (R394). -/
def inReserve : ERec → Bool
  | .fault .. => true
  | .gap .. => true
  | _ => false

def pageSize (pg : Page) : Nat := (pg.recs.map recSize).sum

/-- CLOSE of R387. -/
def closeCode : CloseWhy → Nat
  | .full => 0
  | .flush => 1
  | .stateChange => 2

/-- The first 4,092 bytes of a page (R387). -/
def pageBody (p : PartId) (seq : Nat) (pg : Page) : List Byte :=
  let recs := (pg.recs.map recBytes).flatten
  leBytes 4 0x45474150 ++ leBytes 1 p.val ++ leBytes 1 1 ++ leBytes 1 (closeCode pg.why) ++ zeros 1 ++ leBytes 8 seq ++
  leBytes 2 pg.recs.length ++ leBytes 2 recs.length ++ zeros 4 ++ leBytes 8 pg.tOpen ++ leBytes 8 pg.tClose ++
  leBytes 4 pg.evdDrop ++ leBytes 4 pg.vrdDrop ++ leBytes 4 pg.cenDrop ++ leBytes 4 pg.ldgGen ++ zeros 8 ++
  recs ++ zeros (4016 - recs.length) ++ leBytes 8 seq ++ zeros 4

/-- A page of 4,096 bytes: the body and its CRC-32C (R387). -/
def pageBytes (p : PartId) (seq : Nat) (pg : Page) : List Byte :=
  let b := pageBody p seq pg
  b ++ leBytes 4 (crc32c b)

/-! ### The record store of 4 MiB (R399) -/

def storeRecs (e : Exp) : List ERec := (e.closed.map (·.recs)).flatten ++ (match e.opened with | some pg => pg.recs | none => [])

/-- Bytes retained in the store, EXP_STORE. -/
def storeUsed (e : Exp) : Nat := ((storeRecs e).map (fun r => if inReserve r then 0 else recSize r)).sum

/-- Slots of the reserve in use (R394). -/
def reserveUsed (e : Exp) : Nat := ((storeRecs e).filter inReserve).length

/-- Edit the records of every page that has no sequence number; a closed page left empty is not sent (R399). -/
def editUnnumbered (e : Exp) (f : List ERec → List ERec) : Exp :=
  { e with
    closed := (e.closed.map (fun pg => if pg.seq.isSome then pg else { pg with recs := f pg.recs })).filter
      (fun pg => pg.seq.isSome || !pg.recs.isEmpty),
    opened := e.opened.map (fun pg => { pg with recs := f pg.recs }) }

/-- Records that may still be discarded, oldest first (R399). -/
def discardable (e : Exp) : List ERec :=
  ((e.closed.filter (fun pg => pg.seq.isNone)).map (·.recs)).flatten ++
  (match e.opened with | some pg => pg.recs | none => [])

/-- Crops with a fragment in a numbered page (R399). -/
def numberedCrops (e : Exp) : List Nat :=
  (((e.closed.filter (fun pg => pg.seq.isSome)).map (·.recs)).flatten).filterMap
    (fun r => match r with | .evidence c _ => some c | _ => none)

/-- A gap record for dropped verdict records (R393). -/
def dropGap (time : Nat) (d : Nat × Nat) : ERec := .gap 2 (d.2 - d.1 + 1) d.1 d.2 time

/-- Put a record in the open page, which has room for it, or open one (R386). -/
def putRec (time ldgGen : Nat) (e : Exp) (r : ERec) : Exp :=
  match e.opened with
  | some pg => { e with opened := some { pg with recs := pg.recs ++ [r] } }
  | none => { e with opened := some { recs := [r], tOpen := time, ldgGen := ldgGen } }

/-- Close the open page, with the drop counters as they stand (R386, R387). -/
def closePage (time : Nat) (why : CloseWhy) (e : Exp) : Exp :=
  match e.opened with
  | none => e
  | some pg =>
    if pg.recs.isEmpty then { e with opened := none }
    else { e with opened := none, closed := e.closed ++
      [{ pg with tClose := time, why := why, evdDrop := e.evdDrop, vrdDrop := e.vrdDrop, cenDrop := e.cenDrop }] }

/-- Bytes left in the open page; a page holds 4,016 (R387). -/
def pageRoom (e : Exp) : Nat := match e.opened with | some pg => 4016 - pageSize pg | none => 4016

/-- A record enters export SRAM: the open page closes first when the record does not fit (R386). -/
def placeRec (time ldgGen : Nat) (e : Exp) (r : ERec) : Exp :=
  if recSize r ≤ pageRoom e then putRec time ldgGen e r
  else putRec time ldgGen (closePage time .full e) r

/-- The gap record of the dropped range enters a page (R394; when it enters is a DESIGN CHOICE, log entry 16). -/
def placeDropGap (time ldgGen : Nat) (e : Exp) : Exp :=
  match e.dropped with
  | none => e
  | some d => placeRec time ldgGen { e with dropped := none } (dropGap time d)

/-- Count a dropped verdict record; a range that is not contiguous with the pending one enters a page first (R394). -/
def dropVerdict (time ldgGen seq : Nat) (e : Exp) : Exp :=
  let e := { e with vrdDrop := satInc e.vrdDrop }
  match e.dropped with
  | none => { e with dropped := some (seq, seq) }
  | some d =>
    if d.2 + 1 = seq then { e with dropped := some (d.1, seq) }
    else { placeDropGap time ldgGen e with dropped := some (seq, seq) }

/-- One discard of R399, in its order; none when nothing may be discarded. -/
def discardOne (time ldgGen : Nat) (e : Exp) : Option Exp :=
  let ds := discardable e
  let keep := numberedCrops e
  match ds.findSome? (fun r => match r with | .evidence c _ => if keep.contains c then none else some c | _ => none) with
  | some c =>
    some { editUnnumbered e (fun rs => rs.filter (fun r => match r with | .evidence k _ => k ≠ c | _ => true)) with
           evdDrop := satInc e.evdDrop }
  | none =>
    match ds.find? (fun r => match r with | .census .. => true | _ => false) with
    | some r => some { editUnnumbered e (fun rs => rs.erase r) with cenDrop := satInc e.cenDrop }
    | none =>
      match ds.find? (fun r => match r with | .verdict .. => true | _ => false) with
      | some (.verdict fl cl gn sc co ix a0 a1 seq lt tm) =>
        some (dropVerdict time ldgGen seq (editUnnumbered e (fun rs => rs.erase (.verdict fl cl gn sc co ix a0 a1 seq lt tm))))
      | _ => none

/-- Make room for `need` bytes in the store of 4 MiB (R399). -/
def makeRoom (time ldgGen need : Nat) : Nat → Exp → Exp
  | 0, e => e
  | n + 1, e =>
    if storeUsed e + need ≤ 4194304 then e
    else match discardOne time ldgGen e with
      | some e' => makeRoom time ldgGen need n e'
      | none => e

/-- A record enters the export path of a partition (R386, R394, R399). A fault record that finds the reserve full is not
exported. A pending gap of dropped records enters before a record that needs no drop. -/
def enterExp (time ldgGen : Nat) (e : Exp) (r : ERec) : Exp :=
  if inReserve r then
    match r with
    | .fault .. => if reserveUsed e ≥ 64 then e else placeRec time ldgGen e r
    | _ => placeRec time ldgGen e r
  else if storeUsed e + recSize r ≤ 4194304 then placeRec time ldgGen (placeDropGap time ldgGen e) r
  else placeRec time ldgGen (makeRoom time ldgGen (recSize r) (storeRecs e).length e) r

/-- Close for a release, a commit point, the end of a drain or a fault entry; every record belongs to one image, so a pending
gap enters first (R386). -/
def closeForChange (time ldgGen : Nat) (e : Exp) : Exp := closePage time .stateChange (placeDropGap time ldgGen e)

/-! ### Delivery and the arbiter (R214, R388) -/

/-- Slots of the ring, N = 2^k. -/
def ringSlots (e : Exp) : Nat := 2 ^ e.pages

/-- EXP_TAIL less EXP_HEAD modulo 2^32 (R385). -/
def tailAhead (e : Exp) : Nat := (e.tail + 2 ^ 32 - e.head.toNat) % 2 ^ 32

/-- A closed page waits and no slot is free for it (R490). -/
def noSlot (e : Exp) : Bool := e.run && !e.closed.isEmpty && decide (ringSlots e ≤ tailAhead e)

/-- The head page may move (R388). -/
def canWrite (e : Exp) : Bool := e.run && !e.closed.isEmpty && decide (tailAhead e < ringSlots e)

/-- Begin to write the head page: it takes its number, the partition's TAIL (R385). -/
def beginWrite (p : PartId) (e : Exp) : Exp :=
  match e.closed with
  | [] => e
  | pg :: rest =>
    let seq := match pg.seq with | some q => q | none => e.tail
    { e with closed := { pg with seq := some seq } :: rest, writing := true,
             ringWrite := some (e.base.toNat + 4096 * (seq % ringSlots e), pageBytes p seq pg) }

/-- RING_FULL is set while the next closed page finds no slot (R490, R473). -/
def markFull (e : Exp) : Exp := if noSlot e then { e with ringFull := true } else e

/-- Partitions in round-robin order after `l`. -/
def partsAfter (l : PartId) : List PartId := (List.range 8).map (fun k => l + 1 + Fin.ofNat 8 k)

def allParts : List PartId := [0, 1, 2, 3, 4, 5, 6, 7]

/-- The partition whose head page moves next, and whether it spends a credit (R214). Within a round of the weighted
round-robin, partitions stand in ascending order (DEDUCED, log entry 17). -/
def arbPick (s : State) : Option (PartId × Bool) :=
  match (partsAfter s.arbLast).find? (fun p => canWrite s.exps[p] && decide (0 < s.exps[p].credits)) with
  | some p => some (p, true)
  | none =>
    match allParts.find? (fun p => canWrite s.exps[p] && decide (s.exps[p].served < s.exps[p].weight)) with
    | some p => some (p, false)
    | none => (allParts.find? (fun p => canWrite s.exps[p])).map (fun p => (p, false))

/-- Every partition that could move has used its weight: a new round begins (R214). -/
def newRound (s : State) : Bool := allParts.all (fun p => !(canWrite s.exps[p] && decide (s.exps[p].served < s.exps[p].weight)))

/-- While no page is moving, the arbiter starts the next (R214, R388). -/
def exportPump (s0 : State) : State :=
  let s := updExps s0 markFull
  if allParts.any (fun p => s.exps[p].writing) then s
  else match arbPick s with
    | none => s
    | some (p, true) =>
      { updExp s p (fun e => beginWrite p { e with credits := e.credits - 1 }) with arbLast := p }
    | some (p, false) =>
      let s1 := if newRound s then updExps s (fun e => { e with served := 0 }) else s
      updExp s1 p (fun e => beginWrite p { e with served := e.served + 1 })

/-- A record of partition `p` enters its export path. -/
def enterRec (s : State) (p : PartId) (r : ERec) : State :=
  exportPump (updExp s p (fun e => enterExp (now s) s.parts[p].regs.ldgGen e r))

/-- The open page of `p` closes for a state change (R386). -/
def closeExport (s : State) (p : PartId) : State :=
  exportPump (updExp s p (closeForChange (now s) s.parts[p].regs.ldgGen))

/-! ### Windows not accepted (R22, R394) -/

/-- Count `n` windows not accepted, whose first indices are `first` to `last`, in the partition's episode. -/
def notAccepted (s : State) (p : PartId) (n first last : Nat) (frames : Bool) : State :=
  if n = 0 then s
  else updPart s p (fun x =>
    { x with
      regs := { x.regs with nacc := x.regs.nacc + n },
      flow := { x.flow with gap := some (match x.flow.gap with
        | none => { count := n, first := first, last := last, frames := frames }
        | some g => { g with count := g.count + n, first := min g.first first, last := max g.last last }) } })

/-- The gap record of an episode (R393). -/
def gapRec (g : GapEpisode) (time : Nat) : ERec :=
  .gap (1 + 4 * boolNat g.frames) (sat32 g.count) (g.first % 2 ^ 32) (g.last % 2 ^ 32) time

/-- End the episode: its gap record enters (R394). -/
def endGap (s : State) (p : PartId) : State :=
  match s.parts[p].flow.gap with
  | none => s
  | some g => enterRec (updFlow s p (fun f => { f with gap := none })) p (gapRec g (now s))

end Sys2Proof.Machine
end

