-- ==== Sys2Proof/Machine/Placement.lean ====
section
/-! DEFINITION. The defect map's current copy, orientations, piece forms, the placement search, boundary gates (R36-R47,
R193-R209). -/

namespace Sys2Proof.Machine

/-! ### The current defect map (R47) -/

/-- Is copy 0 the current one: the valid copy with the higher NEWEST_SEQ? Of two valid copies with one NEWEST_SEQ, as a rebuild
leaves them, copy 0 is current (DESIGN CHOICE, log entry 86). -/
def copy0Current (w : Wafer) : Bool :=
  match w.copy0, w.copy1 with
  | some a, some b => decide (b.newestSeq ≤ a.newestSeq)
  | some _, none => true
  | none, _ => false

def curMap (s : State) : DefMap :=
  if copy0Current s.wafer then s.wafer.copy0.getD {} else s.wafer.copy1.getD {}

/-- A test's result goes whole into the older copy (R47). -/
def commitMap (s : State) (m : DefMap) : State :=
  if copy0Current s.wafer then { s with wafer := { s.wafer with copy1 := some m, mapWritten := some (true, now s) } }
  else { s with wafer := { s.wafer with copy0 := some m, mapWritten := some (false, now s) } }

/-- A sag tears the write of a copy: its header is not valid, and the other copy, where it is valid, is current (R47; DESIGN CHOICE,
log entry 87). A write takes at most 100 ms (bring-up step 6 of file 02). -/
def tearMap (w : Wafer) (t : Nat) : Wafer :=
  match w.mapWritten with
  | none => w
  | some x =>
    if x.2 + 100000000 < t then w
    else if x.1 then { w with copy1 := none, mapWritten := none } else { w with copy0 := none, mapWritten := none }

/-! ### Regions and sites -/

def allRegions : List RegionId := (List.range 20).map (Fin.ofNat 20)

def allSites : List SiteId := (List.range 80).map (Fin.ofNat 80)

/-- The four sites of a region, by 10 r + c ("Names and addresses", file 00). -/
def regionSites (r : RegionId) : List SiteId :=
  let c := 2 * (r.val % 5)
  let w := 2 * (r.val / 5)
  [Fin.ofNat 80 (10 * w + c), Fin.ofNat 80 (10 * w + c + 1), Fin.ofNat 80 (10 * (w + 1) + c), Fin.ofNat 80 (10 * (w + 1) + c + 1)]

/-- The region of a site. -/
def siteRegion (k : SiteId) : RegionId := Fin.ofNat 20 (5 * (k.val / 10 / 2) + k.val % 10 / 2)

/-- The region of a logical tile key. -/
def tileRegion (t : Nat) : RegionId := Fin.ofNat 20 (5 * (t / 600 / 120) + t % 600 / 120)

/-- The neighbour of a region; none at the wafer perimeter. -/
def regionNbr (r : RegionId) : Dir → Option RegionId
  | .n => if 5 ≤ r.val then some (Fin.ofNat 20 (r.val - 5)) else none
  | .e => if r.val % 5 < 4 then some (Fin.ofNat 20 (r.val + 1)) else none
  | .s => if r.val < 15 then some (Fin.ofNat 20 (r.val + 5)) else none
  | .w => if 0 < r.val % 5 then some (Fin.ofNat 20 (r.val - 1)) else none

def dirIdx : Dir → Fin 4
  | .n => 0 | .e => 1 | .s => 2 | .w => 3

def dirOf : Nat → Dir
  | 0 => .n | 1 => .e | 2 => .s | _ => .w

def opposite : Dir → Dir
  | .n => .s | .e => .w | .s => .n | .w => .e

def allDirs : List Dir := [.n, .e, .s, .w]

/-- Usable under the defect map, and not lost since by a trip, a shed or a scrub. -/
def usableNow (s : State) (r : RegionId) : Bool :=
  decide (((curMap s).regions[r]).state = 0) &&
  (let g := s.regions[r]; g.supplyOn && !g.supplyOut && !g.heatOff && !g.cycleOff)

/-- Does the configuration network reach every site of the region (R74, R194)? -/
def reachable (s : State) (r : RegionId) : Bool := (regionSites r).all (fun k => (s.wafer.tree[k]).isSome)

/-- R194; `own` counts the regions of that partition as free (R307). -/
def regionFree (s : State) (own : Option PartId) (r : RegionId) : Bool :=
  let g := s.regions[r]
  usableNow s r && !g.underTest && reachable s r && (g.owner.isNone || (own.isSome && decide (g.owner = own)))

/-- Adjacency for placement: ADJ of R44. -/
def adjacentTo (s : State) (r : RegionId) (d : Dir) : Option RegionId :=
  if bitOf (((curMap s).regions[r]).adj) (dirIdx d).val then regionNbr r d else none

/-! ### Orientation (R196-R201) -/

/-- Compass direction of a side: 0 forward, 1 right, 2 back, 3 left. -/
def facing (code : Fin 8) (side : Nat) : Dir :=
  if code.val < 4 then dirOf ((code.val + side) % 4) else dirOf ((code.val + 4 - side) % 4)

/-- Region-local tile of a piece-local tile. -/
def toRegion (code : Fin 8) (p q : Nat) : Nat × Nat :=
  match code.val with
  | 0 => (p, q)
  | 1 => (119 - q, p)
  | 2 => (119 - p, 119 - q)
  | 3 => (q, 119 - p)
  | 4 => (119 - p, q)
  | 5 => (119 - q, 119 - p)
  | 6 => (p, 119 - q)
  | _ => (q, p)

/-- Key of the logical tile on which piece-local tile (p, q) lands (R196). -/
def pieceTile (pp : PlacedPiece) (p q : Nat) : Nat :=
  let xy := toRegion pp.code p q
  tileKey (120 * (pp.region.val % 5) + xy.1) (120 * (pp.region.val / 5) + xy.2)

/-- The code with mirror bit `h` whose `side` faces `d`. -/
def codeFacing (h : Bool) (side : Nat) (d : Dir) : Fin 8 :=
  let base := if h then [4, 5, 6, 7] else [0, 1, 2, 3]
  (base.find? (fun c => decide (facing c side = d))).getD 0

/-- R200: a carry axis (1 forward, 2 right, 3 back, 4 left) must face E. -/
def axisOk (axis : Nat) (code : Fin 8) : Bool := axis = 0 || decide (facing code (axis - 1) = .e)

/-- FORMS bit of a form (R255). -/
def formBit : Form → Nat
  | .straight => 0 | .cornerRight => 1 | .cornerLeft => 2 | .endForm => 3

/-- Direction from a region to the next on the path. -/
def dirTo (a b : RegionId) : Option Dir := allDirs.find? (fun d => decide (regionNbr a d = some b))

/-- Pieces after the first, by R201: each code's back faces the previous region. -/
def deriveRest (h : Bool) : RegionId → List RegionId → Option (List PlacedPiece)
  | _, [] => some []
  | prev, r :: rest =>
    match dirTo r prev with
    | none => none
    | some back =>
      let code := codeFacing h 2 back
      match rest with
      | [] => some [⟨r, code, .endForm⟩]
      | nxt :: _ =>
        match dirTo r nxt with
        | none => none
        | some d =>
          let form := if d = facing code 0 then Form.straight else if d = facing code 1 then .cornerRight else .cornerLeft
          (deriveRest h r rest).map (fun ps => ⟨r, code, form⟩ :: ps)

/-- The derivation of R201 for a path and a handedness; for L = 1 the lowest code that satisfies R200 whose mirror bit is h. -/
def derive (axes : List (Nat × Nat)) (h : Bool) : List RegionId → Option (List PlacedPiece)
  | [] => none
  | [r] =>
    match ([0, 1, 2, 3, 4, 5, 6, 7] : List (Fin 8)).find? (axisOk (axes.getD 0 (0, 0)).1) with
    | some c => if decide (4 ≤ c.val) = h then some [⟨r, c, .endForm⟩] else none
    | none => none
  | r :: nxt :: rest =>
    match dirTo r nxt with
    | none => none
    | some d => (deriveRest h r (nxt :: rest)).map (fun ps => ⟨r, codeFacing h 0 d, .straight⟩ :: ps)

/-- Every piece offers the form named and satisfies R200. -/
def fits (axes : List (Nat × Nat)) (ps : List PlacedPiece) : Bool :=
  (ps.zip axes).all (fun x => bitOf x.2.2 (formBit x.1.form) && axisOk x.2.1 x.1.code)

/-- The first handedness under which the path fits, `h0` tried first. -/
def fitPath (axes : List (Nat × Nat)) (h0 : Bool) (path : List RegionId) : Option Placement :=
  let try1 := fun h => match derive axes h path with
    | some ps => if fits axes ps then some { mirror := h, pieces := ps } else none
    | none => none
  match try1 h0 with
  | some p => some p
  | none => try1 (!h0)

/-! ### The search of R202, R203 -/

/-- Depth-first extension of `path` (newest first) by `n` more regions; `budget` counts the extensions left. -/
def searchFrom (s : State) (own : Option PartId) (axes : List (Nat × Nat)) :
    Nat → List RegionId → Nat → Option Placement × Nat
  | 0, path, budget => (fitPath axes false path.reverse, budget)
  | n + 1, path, budget =>
    match path with
    | [] => (none, budget)
    | last :: _ =>
      allDirs.foldl (fun acc d =>
        match acc.1 with
        | some p => (some p, acc.2)
        | none =>
          match adjacentTo s last d with
          | none => acc
          | some nxt =>
            if !regionFree s own nxt || path.contains nxt then acc
            else if acc.2 = 0 then acc
            else searchFrom s own axes n (nxt :: path) (acc.2 - 1)) (none, budget)

/-- The placement search; none is NO_PATH. -/
def searchPlacement (s : State) (own : Option PartId) (axes : List (Nat × Nat)) (chainLen : Nat) : Option Placement :=
  (allRegions.foldl (fun acc r =>
    match acc.1 with
    | some p => (some p, acc.2)
    | none =>
      if !regionFree s own r then acc
      else searchFrom s own axes (chainLen - 1) [r] acc.2) ((none : Option Placement), 2 ^ 20)).1

/-- A staged image over the running path's first regions, the running handedness first (R205). -/
def stagedPlacement (axes : List (Nat × Nat)) (chainLen : Nat) (run : Placement) : Option Placement :=
  if chainLen ≤ run.pieces.length then fitPath axes run.mirror ((run.pieces.take chainLen).map (·.region)) else none

/-! ### Holding regions and gates (R194, R206-R208) -/

def placedRegions (p : Placement) : List RegionId := p.pieces.map (·.region)

/-- Regions a partition holds. -/
def heldRegions (s : State) (p : PartId) : List RegionId := allRegions.filter (fun r => decide (s.regions[r].owner = some p))

def mapRegions (s : State) (rs : List RegionId) (f : Region → Region) : State := rs.foldl (fun s r => updRegion s r f) s

/-- The path's regions belong to the partition from the moment its placement chooses them. -/
def holdRegions (s : State) (p : PartId) (rs : List RegionId) : State :=
  mapRegions s rs (fun g => { g with owner := some p })

/-- VDD of a region whose condition has no rate loop (R426): 0.72 V for placement to LOADING, 0.60 V when free. -/
def setVdd (mv : Nat) (g : Region) : Region := { g with vdd := if g.supplyOn then mv else 0 }

def openGate (s : State) (a b : RegionId) : State :=
  match dirTo a b with
  | some d => updRegion s a (fun g => { g with gates := g.gates.set (dirIdx d).val true (dirIdx d).isLt })
  | none => s

/-- Open the gates between consecutive regions of a path, on both sides (R206, R208). -/
def openPath (s : State) : List RegionId → State
  | a :: b :: rest => openPath (openGate (openGate s a b) b a) (b :: rest)
  | _ => s

/-- The region that link `d` of a tile leads into, where it crosses a region boundary. -/
def linkInto (t : Nat) (d : Dir) : Option RegionId :=
  let x := t % 600
  let y := t / 600
  let edge : Bool := match d with
    | .n => y % 120 = 0
    | .e => x % 120 = 119
    | .s => y % 120 = 119
    | .w => x % 120 = 0
  if edge then regionNbr (tileRegion t) d else none

/-- The links of a tile that cross the boundary of a region become neutral: a flit in flight is acknowledged and discarded, and
counted as a link error here, in its sender (R57, R207). -/
def quietLinks (r : RegionId) (k : Nat) (t : Tile) : Tile :=
  let crosses := fun (i : Nat) => match linkInto k (dirOf i) with
    | none => false
    | some n => decide (n = r) || decide (tileRegion k = r)
  let cut := ([0, 1, 2, 3] : List (Fin 4)).filter (fun i => crosses i.val && decide (t.driven[i] ≠ 0))
  { t with driven := Vector.ofFn (fun i : Fin 4 => if crosses i.val then 0 else t.driven[i]),
           counters := { t.counters with linkErr := sat32 (t.counters.linkErr + cut.length) } }

/-- Close every gate of a region, and its neighbours' gates toward it; every link across them is quarantined (R57, R206, R208, R436). -/
def closeGates (s : State) (r : RegionId) : State :=
  let s1 := updRegion s r (fun g => { g with gates := Vector.replicate 4 false })
  let s2 := allDirs.foldl (fun s d => match regionNbr r d with
    | some n => updRegion s n (fun g => { g with gates := g.gates.set (dirIdx (opposite d)).val false (dirIdx (opposite d)).isLt })
    | none => s) s1
  { s2 with tiles := (s2.tiles.map (fun c => (c.1, quietLinks r c.1 c.2))).filter (fun c => decide (c.2 ≠ {})) }

def closeAllGates (s : State) (rs : List RegionId) : State := rs.foldl closeGates s

/-- Gate state of the boundary that link `d` of tile `t` crosses, or true inside a region; none at the perimeter (R207, R209). -/
def linkOpen (s : State) (t : Nat) (d : Dir) : Option Bool :=
  let x := t % 600
  let y := t / 600
  let edge : Bool := match d with
    | .n => y % 120 = 0
    | .e => x % 120 = 119
    | .s => y % 120 = 119
    | .w => x % 120 = 0
  if edge then (regionNbr (tileRegion t) d).map (fun _ => (s.regions[tileRegion t]).gates[dirIdx d]) else some true

/-- The tile next to `t` on a side. -/
def nbrTile (t : Nat) : Dir → Nat
  | .n => t - 600
  | .e => t + 1
  | .s => t + 600
  | .w => t - 1

/-! ### Scrubs (R211, R212) -/

/-- Clear every tile, gateway and block-memory codeword of the regions: every field of a tile at its scrubbed value. -/
def scrubRegions (s : State) (rs : List RegionId) : State :=
  mapRegions { s with
    tiles := s.tiles.filter (fun c => !rs.contains (tileRegion c.1))
    mem := Memory.clear s.mem (fun a => rs.contains (tileRegion (a / 16384))) } rs
    (fun g => { g with gatewayOut := [] })

/-- Grade from the number of usable regions (R37). -/
def gradeOf (n : Nat) : Nat := if n = 20 then 1 else if 18 ≤ n then 2 else 3

/-- USABLE mask of a region table (R42). -/
def usableMask (m : DefMap) : Nat := (allRegions.map (fun r => if (m.regions[r]).state = 0 then 2 ^ r.val else 0)).sum

/-- ADJ follows usability of both regions and the boundary's site edges (R44). -/
def siteEdgeFailed (m : DefMap) (k : SiteId) (d : Dir) : Bool := bitOf ((m.sites[k]).edges) (dirIdx d).val

/-- The two sites of a region on a side. -/
def sideSites (r : RegionId) (d : Dir) : List SiteId :=
  match regionSites r, d with
  | [a, b, _, _], .n => [a, b]
  | [_, b, _, e], .e => [b, e]
  | [_, _, c, e], .s => [c, e]
  | [a, _, c, _], .w => [a, c]
  | _, _ => []

def computeAdj (m : DefMap) (r : RegionId) : Nat :=
  (allDirs.map (fun d => match regionNbr r d with
    | none => 0
    | some n => if (m.regions[r]).state = 0 ∧ (m.regions[n]).state = 0 ∧ !(sideSites r d).any (fun k => siteEdgeFailed m k d)
        then 2 ^ (dirIdx d).val else 0)).sum

/-- Recompute USABLE, GRADE and every ADJ (R37, R39, R42, R44). -/
def regrade (m : DefMap) : DefMap :=
  let mask := usableMask m
  let n := (allRegions.filter (fun r => (m.regions[r]).state = 0)).length
  { m with usable := mask, grade := gradeOf n,
           regions := Vector.ofFn (fun r : RegionId => { m.regions[r] with adj := computeAdj m r }) }

/-- Append a history record: ring index 0 keeps SEQ 0, the rest rotate through 1-2,047 (R42, R46). -/
def addHistory (m : DefMap) (h : HistRec) : DefMap :=
  let idx := if h.seq = 0 then 0 else if m.newestIdx ≥ 2047 then 1 else m.newestIdx + 1
  let ring := (idx, h) :: m.ring.filter (fun x => x.1 ≠ idx)
  { m with tests := h.seq + 1, newestSeq := h.seq, newestIdx := idx, valid := ring.length, ring := ring }

/-- Sequence number of the next history record. -/
def nextTestSeq (m : DefMap) : Nat := m.tests

/-- After every test: a grade below B is logged (R39). -/
def reportGrade (s : State) : State := if (curMap s).grade = 3 then logIrq s 0x000E 0 0 0 false 0 else s

/-- Bad tiles of a map within some regions. -/
def badWithin (m : DefMap) (scope : List RegionId) : List Nat :=
  m.bad.filter (fun k => scope.contains (siteRegion (Fin.ofNat 80 (k / 4096))))

/-- A region fails its scrub read-back twice: out of service, marked lost (R212). -/
def loseRegion (s : State) (r : RegionId) : State :=
  let m := curMap s
  let e := m.regions[r]
  let m1 := regrade { m with regions := m.regions.set r.val { e with state := 3, events := Nat.lor e.events 6 } r.isLt }
  let h : HistRec := { seq := nextTestSeq m, powerOn := s.glb.powerOn, time := now s, kind := 4,
                       outcome := 1 + 4 * boolNat (m1.grade = 3), scope := 2 ^ r.val,
                       bad := sat16 (badWithin m [r]).length }
  let s1 := commitMap (updRegion s r (fun g => { g with supplyOut := true, supplyOn := false, vdd := 0 })) (addHistory m1 h)
  reportGrade (logPlain s1 0x0205 r.val)

end Sys2Proof.Machine
end

