-- ==== Sys2Proof/Machine/Checks.lean ====
section
/-! DEFINITION. The load checks of R288: contract section (check 3), each streamed record (check 5), the end of the stream
(checks 6-8), and the coherence sets of R285. -/

namespace Sys2Proof.Machine

/-- A refusal: cause and DETAIL0 (R257, R458). -/
abbrev Refuse := Nat × Nat

/-- DETAIL0 of a fault that belongs to no single record. -/
def noRecord : Nat := 0xFFFFFFFF

def require (b : Bool) (cause d0 : Nat) : Except Refuse Unit := if b then .ok () else .error (cause, d0)

def countType (recs : List Rec) (ty : Nat) : Nat := (recs.filter (fun r => r.type = ty)).length

/-! ### Section order and numbers (R253, R256, R257) -/

/-- What must stand before a record of section `sec` may: every required record of the sections before it. -/
def sectionsDone (chainLen : Nat) (recs : List Rec) (sec : Nat) : Bool :=
  (sec ≤ 1 || countType recs 0x0001 = 1) && (sec ≤ 2 || countType recs 0x0002 = 1) &&
  (sec ≤ 3 || (countType recs 0x0010 = 1 && countType recs 0x0011 = chainLen && countType recs 0x0017 = 1)) &&
  (sec ≤ 4 || 1 ≤ countType recs 0x0020) && (sec ≤ 6 || countType recs 0x0040 = 1) &&
  (sec ≤ 7 || countType recs 0x0041 = 1) && (sec ≤ 8 || countType recs 0x0042 = 1)

/-- Most records of a type an image holds (R256); none where R256 sets no number. -/
def maxOfType (chainLen ty : Nat) : Option Nat :=
  if ty = 0x0011 then some chainLen
  else if ty = 0x0012 then some 16
  else if ty = 0x0013 ∨ ty = 0x0014 then some 8
  else if ty = 0x0015 then some 16
  else if ty = 0x0016 then some 64
  else if ty = 0x0020 ∨ ty = 0x0021 ∨ ty = 0x0024 ∨ ty = 0x0030 then none
  else if ty = 0x0022 then some 4096
  else some 1

/-- May record `r` follow `recs` (oldest first)? -/
def orderOk (chainLen : Nat) (recs : List Rec) (r : Rec) : Bool :=
  let sec := sectionOf r.type
  let last := recs.foldl (fun m x => max m (sectionOf x.type)) 0
  last ≤ sec && sectionsDone chainLen recs sec &&
  (match maxOfType chainLen r.type with | some n => countType recs r.type < n | none => true) &&
  (r.type ≠ 0x0011 || r.piece = countType recs 0x0011)

/-! ### The contract section (check 3) -/

/-- Read the records of sections 1-3 in order; a failure carries the record's index. -/
def readContractRecs (h : ImgHeader) : List (List Byte) → List Rec → Except Refuse (List Rec)
  | [], recs => .ok recs
  | bs :: rest, recs =>
    match readRecord h bs with
    | .error c => .error (c, recs.length)
    | .ok r =>
      if orderOk h.chainLen recs r && sectionOf r.type ≤ 3 then readContractRecs h rest (recs ++ [r])
      else .error (cFormat, recs.length)

def groupOf (recs : List Rec) (f : Body → Bool) : List Nat := (recs.filter (fun r => f r.body)).map (·.group)

/-- R285 for the contract section: a port with its script or stimuli, an ALIGN with its ports, share one group. -/
def portGroupsOk (recs : List Rec) : Bool :=
  recs.all (fun r => match r.body with
    | .imgPort x => (groupOf recs (fun b => match b with | .script p _ => p = x.port | _ => false)).all (· = r.group)
    | .sndPort x => (groupOf recs (fun b => match b with | .stimulus p _ _ => p = x.port | _ => false)).all (· = r.group)
    | .align a => (groupOf recs (fun b => match b with
        | .imgPort x => !a.sound && bitOf a.members x.port
        | .sndPort x => a.sound && bitOf a.members x.port
        | _ => false)).all (· = r.group)
    | _ => true)

/-- Connections of a camera port (R322). -/
def portConns (x : ImgPortRec) : List ImgId := (List.range x.links).map (fun k => Fin.ofNat 16 (x.port + k))

/-- Members of an image group, in ascending PORT order. -/
def groupPorts (i : Image) (a : AlignRec) : List (Nat × ImgPortRec) := (imgPorts i).filter (fun x => bitOf a.members x.2.port)

def allSame {α β : Type} [DecidableEq β] (f : α → β) : List α → Bool
  | [] => true
  | x :: xs => xs.all (fun y => decide (f y = f x))

/-- R266, R336, R365. -/
def alignOk (i : Image) (a : AlignRec) : Bool :=
  if a.sound then
    let ms := (sndPorts i).filter (fun x => bitOf a.members x.2.port)
    (List.range 8).all (fun k => !bitOf a.members k || (sndPorts i).any (fun x => x.2.port = k && x.2.align = a.id)) &&
    (sndPorts i).all (fun x => x.2.align ≠ a.id || bitOf a.members x.2.port) &&
    allSame (fun x => (x.2.imageRate, x.2.frameRate, x.1)) ms && ms.all (fun x => x.2.commonStart) &&
    (if a.clock = 255 then ms.all (fun x => x.2.master)
     else ms.any (fun x => x.2.port = a.clock) && ms.all (fun x => x.2.port = a.clock || !x.2.master))
  else
    let ms := groupPorts i a
    (List.range 16).all (fun k => !bitOf a.members k || (imgPorts i).any (fun x => x.2.port = k && x.2.align = a.id)) &&
    (imgPorts i).all (fun x => x.2.align ≠ a.id || bitOf a.members x.2.port) &&
    allSame (fun x => [x.2.encoder, boolNat x.2.lineScan, x.2.winW, x.2.winH, x.2.stagA, x.2.stagB,
      x.2.roiH * boolNat (!x.2.lineScan), x.1]) ms &&
    ms.all (fun x => x.2.encoder ≠ 255)

/-- Streams of a gateway piece: ports without a group and groups, image and sound (R334). -/
def gatewayStreams (i : Image) (piece : Nat) : Nat :=
  let im := (imgPorts i).filter (fun x => x.1 = piece)
  let sn := (sndPorts i).filter (fun x => x.1 = piece)
  let groups := fun (xs : List Nat) => (xs.filter (· ≠ 255)).eraseDups.length + (xs.filter (· = 255)).length
  groups (im.map (·.2.align)) + groups (sn.map (·.2.align))

/-- Columns of a stream: N of R331. -/
def streamColumns (ms : List (Nat × ImgPortRec)) : Nat := (ms.map (fun x => x.2.roiW / x.2.winW)).sum

/-- The span rules of R403, R404 that check 3 judges. -/
def spanOk (i : Image) : Bool :=
  let c := imgContract i
  match imgSpan i with
  | none => !c.spanPiece
  | some x =>
    c.spanPiece && c.spanHops + 1 = x.units &&
    (x.spa = decide (0 < x.position)) && (x.spb = decide (x.position + 1 < x.units)) &&
    (x.position = 0 || ((imgPorts i).isEmpty && (sndPorts i).isEmpty)) &&
    (x.position + 1 = x.units || (imgVerdict i).pins.all (fun e => e.classSet = 0))

/-- Fields that concern several records of the contract section (R261-R269, R331, R334, R336, R357, R361, R365, R367). -/
def contractFieldsOk (h : ImgHeader) (i : Image) : Bool :=
  let ps := imgPieces i
  let conns := ((imgPorts i).map (fun x => portConns x.2)).flatten
  let sp := sndPorts i
  let samples := fun (port : Nat) => (((imgStimuli i).filter (fun x => x.1 = port)).map (fun x => x.2.2.length)).sum
  (h.chainLen = 1 || bitOf (ps.getD 0 (0, 0)).2 0) && bitOf (ps.getD (h.chainLen - 1) (0, 0)).2 3 &&
  decide conns.Nodup && decide (sp.map (·.2.port)).Nodup && (imgAligns i).all (alignOk i) &&
  (imgPorts i).all (fun x => x.2.align = 255 || (imgAligns i).any (fun a => !a.sound && a.id = x.2.align)) &&
  sp.all (fun x => x.2.align = 255 || (imgAligns i).any (fun a => a.sound && a.id = x.2.align)) &&
  decide ((imgAligns i).map (fun a => (a.sound, a.id))).Nodup &&
  (List.range h.chainLen).all (fun k => gatewayStreams i k ≤ 4) &&
  (imgAligns i).all (fun a => a.sound || streamColumns (groupPorts i a) ≤ 16384) &&
  (imgStimuli i).all (fun x => sp.any (fun y => y.2.port = x.1 && bitOf y.2.outMask x.2.1)) &&
  sp.all (fun x => samples x.2.port ≤ 2097152) &&
  (sp.length ≤ 1 || (allSame (fun x => x.2.imageRate) sp && sp.all (fun x => x.2.commonStart))) && spanOk i

/-- Scripts name an IMG_PORT, at most one each (R256). -/
def scriptsOk (i : Image) : Bool :=
  let ports := i.recs.filterMap (fun r => match r.body with | .script p _ => some p | _ => none)
  decide ports.Nodup && ports.all (fun p => (imgPorts i).any (fun x => x.2.port = p))

/-- Ports, pins and span ports free, and pins allocated to the bay (R16, R322, R376, R403). -/
def claimsFree (s : State) (p : PartId) (i : Image) : Bool :=
  let mine := fun (o : Option PartId) => o.isNone || decide (o = some p)
  (imgPorts i).all (fun x => (portConns x.2).all (fun c => mine (s.imgs[c]).owner)) &&
  (sndPorts i).all (fun x => mine (s.snds[Fin.ofNat 8 x.2.port]).owner) &&
  (imgVerdict i).pins.all (fun e => let pin := s.pins[Fin.ofNat 32 e.pin]; mine pin.claimed && pin.allocated && decide (pin.bay = p)) &&
  (match imgSpan i with
   | none => true
   | some x => (!x.spa || mine s.spa.owner) && (!x.spb || mine s.spb.owner))

/-- The firmware slot that booted. -/
def bootedSlot (s : State) : FwSlot := if s.sup.bootedB then s.sup.slotB else s.sup.slotA

/-! ### The content key and the chunks (R237-R240) -/

/-- The content key of a slot, where it unwraps on this unit (R237, R238). -/
def contentKey (s : State) (slot : Slot) : Option (List Byte) :=
  if slot.unitBound && decide (slot.unitSerial ≠ s.glb.serial.toNat) then none
  else match s.nv.fleetKeys.lookup slot.keyId with
    | none => none
    | some k => gcmOpen k slot.wrapNonce slot.aad slot.wrappedKey slot.wrapTag

/-- Number of chunks of a slot's ciphertext, and bytes of chunk `i` (R239). -/
def chunkCount (slot : Slot) : Nat := (slot.length + 65535) / 65536
def chunkBytes (slot : Slot) (i : Nat) : Nat := min 65536 (slot.length - 65536 * i)

/-- First logical block of chunk `i` in namespace 1, and the block that holds its tag (R228, R239). -/
def chunkLba (slot : Slot) (i : Nat) : Nat := slot.startLba + 16 * i
def tagLba (slot : Slot) (i : Nat) : Nat := slot.startLba + (slot.length + 4095) / 4096 + 16 * i / 4096

/-- The 96-bit nonce of chunk `i`: four zero bytes, then `i` big-endian (R239). -/
def chunkNonce (i : Nat) : List Byte := zeros 4 ++ beBytes 8 i

/-- A read of `n` blocks of a namespace (R229). -/
def nvmeRead (ns lba n : Nat) : NvmeCmd := { admin := false, opcode := 0x02, ns := ns, lba := lba, blocks := n }

/-- The read of chunk `i`, and of the block that holds its tag (R230, R239; DESIGN CHOICE, log entry 106). -/
def chunkRead (slot : Slot) (i : Nat) : NvmeCmd := nvmeRead 1 (chunkLba slot i) ((chunkBytes slot i + 4095) / 4096)
def tagRead (slot : Slot) (i : Nat) : NvmeCmd := nvmeRead 1 (tagLba slot i) 1

/-- The plaintext of chunk `i`, when its tag verifies (R239, R240). -/
def openChunk (slot : Slot) (key : List Byte) (i : Nat) (cipher tag : List Byte) : Option (List Byte) :=
  gcmOpen key (chunkNonce i) [] (cipher.take (chunkBytes slot i)) tag

/-- The plaintext of chunks from `i` on up to the first whose tag fails, and whether none failed. -/
def openChunks (slot : Slot) (key : List Byte) : Nat → List (List Byte × List Byte) → List Byte × Bool
  | _, [] => ([], true)
  | i, c :: cs => match openChunk slot key i c.1 c.2 with
    | none => ([], false)
    | some x => let r := openChunks slot key (i + 1) cs; (x ++ r.1, r.2)

/-- The records up to the end of the contract section, and the bytes that follow them; at most `fuel` records. -/
def splitFront : Nat → List Byte → List (List Byte) × List Byte
  | 0, bs => ([], bs)
  | fuel + 1, bs =>
    let n := 16 + leAt bs 4 4
    if bs.length < 16 ∨ 4 ≤ sectionOf (leAt bs 0 2) ∨ bs.length < n then ([], bs)
    else let r := splitFront fuel (bs.drop n); (bs.take n :: r.1, r.2)

/-- Do the bytes that follow the contract section begin a later record? -/
def frontEnds (rest : List Byte) : Bool := decide (16 ≤ rest.length) && decide (4 ≤ sectionOf (leAt rest 0 2))

/-- What a request reads of its image before streaming. -/
structure FrontRead where
  header : List Byte
  recs : List (List Byte)
  rest : List Byte
  verified : Bool
deriving DecidableEq, Repr

def readFront (slot : Slot) (key : List Byte) (o : LoadObs) : FrontRead :=
  let x := openChunks slot key 0 o.front
  let r := splitFront x.1.length (x.1.drop 64)
  { header := x.1.take 64, recs := r.1, rest := r.2, verified := x.2 }

/-- Checks 1-3 of R288 on what a request reads from its slot (R295). A chunk whose tag fails ends the load where the reading comes to
it (R240); a record that the image's end cuts off is malformed (R257). -/
def checkFront (s : State) (p : PartId) (slot : Slot) (o : FrontRead) : Except Refuse Image := do
  match readHeader o.header with
  | none => .error (if o.verified || decide (o.header.length = 64) then (cFormat, noRecord) else (cDecrypt, 0))
  | some h =>
    require (h.formatEpoch = slot.epoch && h.chainLen = slot.chainLen && h.length = slot.length) cFormat noRecord
    require ((bootedSlot s).formatSet.contains h.formatEpoch) cEpoch 0
    let recs ← readContractRecs h o.recs []
    require (o.verified || frontEnds o.rest) cDecrypt 0
    require (o.rest.isEmpty || frontEnds o.rest) cFormat recs.length
    let i : Image := { header := h, recs := recs }
    require (sectionsDone h.chainLen recs 4) cFormat recs.length
    require (recs.all (fun r => match r.body with | .epochs f _ _ => f = h.formatEpoch | _ => true)) cFormat 1
    require (scriptsOk i && portGroupsOk recs) cFormat noRecord
    require (contractFieldsOk h i && claimsFree s p i) cContract noRecord
    pure i

/-! ### Streamed records (check 5) -/

/-- Form that placement derived for a piece. -/
def pieceForm (pl : Placement) (k : Nat) : Option PlacedPiece := pl.pieces[k]?

/-- A piece-specific record is used only when its FORMS has the derived form's bit (R255). -/
def usedRec (pl : Placement) (r : Rec) : Bool :=
  r.piece = 255 || (match pieceForm pl r.piece with | some pp => bitOf r.forms (formBit pp.form) | none => false)

/-- CONTEXT rectangles of a piece that share a form bit of `forms`. -/
def contextRects (i : Image) (piece formIdx : Nat) : List (Rect × List Byte) :=
  i.recs.filterMap (fun r => match r.body with
    | .context rect img => if r.piece = piece && bitOf r.forms formIdx then some (rect, img) else none
    | _ => none)

/-- A CONTEXT record of the same piece and form covers the tile, in each form of `forms` (R273, R275). -/
def covered (i : Image) (piece forms p q : Nat) : Bool :=
  (List.range 4).all (fun f => !bitOf forms f || (contextRects i piece f).any (fun x => inRect x.1 p q))

def rectsMeet (a b : Rect) : Bool := a.p0 ≤ b.p1 && b.p0 ≤ a.p1 && a.q0 ≤ b.q1 && b.q0 ≤ a.q1

/-- What a streamed record must satisfy beside its own fields (R200, R270, R273, R275, R276, R278, R282, R404). -/
def streamedOk (i : Image) (r : Rec) : Bool :=
  match r.body with
  | .context rect img =>
    (List.range 4).all (fun f => !bitOf r.forms f || (contextRects i r.piece f).all (fun x => !rectsMeet x.1 rect)) &&
    ((imgPieces i).getD r.piece (0, 0)).1 ≠ 0 ||
      !takesCarry (leAt img 192 8) &&
      (List.range 4).all (fun f => !bitOf r.forms f || (contextRects i r.piece f).all (fun x => !rectsMeet x.1 rect))
  | .regs es => es.all (fun e => covered i r.piece r.forms e.p e.q)
  | .extent es => es.all (fun e => covered i r.piece r.forms e.p e.q)
  | .queue q => (q.segs ++ q.spill).all (fun e => covered i r.piece r.forms e.p e.q) &&
      i.recs.all (fun x => match x.body with | .queue y => y.id ≠ q.id | _ => true)
  | .blob b => (rectTiles b.rect).all (fun t => covered i r.piece r.forms t.1 t.2) &&
      i.recs.all (fun x => match x.body with | .blob y => y.number ≠ b.number && y.digest ≠ b.digest | _ => true)
  | .tunables ts _ =>
      let stage := fun (n : Nat) => (imgCensusMap i).find? (fun e => !e.isChannel && e.number = n)
      ts.all (fun t => match stage t.stage with
        | none => false
        | some e => (t.target ≥ 2 || e.opcode = 0x70) && ((t.target ≠ 2 && t.target ≠ 3) || e.opcode = 0x22))
  | _ => true

/-- R404: the verdict stage stands only at the last position of a span. -/
def spanContextOk (i : Image) (r : Rec) : Bool :=
  match r.body, imgSpan i with
  | .context _ img, some x => byteAt img 256 ≠ 0x70 || x.position + 1 = x.units
  | _, _ => true

/-- A cell that passes the carry on: count mode, where c is its carry-in or a LUT output that takes source 8 (R93, R94, R271). -/
def passesCarry (w : Nat) : Bool :=
  bitOf w 36 && (bitOf w 37 || field w 20 16 = 8 || field w 25 21 = 8 || field w 30 26 = 8 || field w 35 31 = 8)

/-- Tiles, by key, whose CONTEXT in the form placed satisfies a test of its cell words. -/
def tilesWith (i : Image) (pl : Placement) (f : List Byte → Bool) : List Nat :=
  ((List.range pl.pieces.length).map (fun k => match pieceForm pl k with
    | none => []
    | some pp => ((contextRects i k (formBit pp.form)).filter (fun x => f (slice x.2 192 64))).flatMap
        (fun x => (rectTiles x.1).map (fun t => pieceTile pp t.1 t.2)))).flatten

/-- R95: no counter of the records so far chains more than 8 tiles eastward. A tile's counter goes on into its east neighbour where that
tile's cell 0 takes its carry-in; it goes through a tile whose eight cells all pass the carry. -/
def chainsOk (i : Image) (pl : Placement) : Bool :=
  let takes := tilesWith i pl (fun cs => takesCarry (leAt cs 0 8))
  let through := tilesWith i pl (fun cs => (pieces 8 8 cs).all (fun w => passesCarry (leNat w)))
  takes.all (fun k => !(decide (k % 600 + 7 < 600) && (List.range 7).all (fun j => through.contains (k + j)) && takes.contains (k + 7)))

/-- Does a record lie in a rectangle: a context that meets it, a register, an extent or a queue segment in it? -/
def liesIn (rect : Rect) (r : Rec) : Bool :=
  match r.body with
  | .context x _ => rectsMeet x rect
  | .regs es => es.any (fun x => inRect rect x.p x.q)
  | .extent es => es.any (fun x => inRect rect x.p x.q)
  | .queue q => q.segs.any (fun x => inRect rect x.p x.q)
  | _ => false

/-- Records of one stage, in all its pieces and forms, share a group (R285; a record is a stage's where it lies in one of the stage's
rectangles: DEDUCED, log entry 111). -/
def stageGroupsOk (i : Image) : Bool :=
  let stages := (imgCensusMap i).filter (fun e => !e.isChannel)
  stages.all (fun e => allSame (fun r => r.group)
    (i.recs.filter (fun r => stages.any (fun x => x.number = e.number && x.piece = r.piece && liesIn x.rect r))))

/-- What a streamed record must satisfy with those before it: R95 once a context has been read, R285 once the census map has. -/
def togetherOk (i : Image) (pl : Placement) (r : Rec) : Bool :=
  let j : Image := { i with recs := i.recs ++ [r] }
  match r.body with
  | .context _ _ => chainsOk j pl
  | .censusMap _ => stageGroupsOk j
  | _ => true

/-- Check 5 on a record before it is written: R257, with the image so far. -/
def checkStreamed (i : Image) (pl : Placement) (bs : List Byte) : Except Refuse Rec := do
  let idx := i.recs.length
  match readRecord i.header bs with
  | .error c => .error (c, idx)
  | .ok r =>
    require (orderOk i.header.chainLen i.recs r && sectionOf r.type ≥ 4) cFormat idx
    require (streamedOk i r && spanContextOk i r && togetherOk i pl r) cFormat idx
    pure r

/-! ### End of stream: check 6 (R142, R276, R277, R280, R360, R367, R465) -/

def imgQueues (i : Image) (pl : Placement) : List QueueRec :=
  i.recs.filterMap (fun r => match r.body with | .queue q => if usedRec pl r then some q else none | _ => none)

/-- The queue state of a declared queue in a placed piece, empty. -/
def placeQueue (pp : PlacedPiece) (q : QueueRec) : QueueSt :=
  let at_ := fun (e : ExtEntry) => (pieceTile pp e.p e.q, e.base, e.length)
  { cfg := q, tile := (match q.segs with | e :: _ => pieceTile pp e.p e.q | [] => 0), places := q.segs.map at_, spills := q.spill.map at_ }

/-- Declared queues in the forms placed. -/
def placedQueues (i : Image) (pl : Placement) : List QueueSt :=
  i.recs.filterMap (fun r => match r.body, pieceForm pl r.piece with
    | .queue q, some pp => if usedRec pl r then some (placeQueue pp q) else none
    | _, _ => none)

/-- The microconfiguration of the tile of a piece in the form placed. -/
def microAt (i : Image) (pl : Placement) (piece p q : Nat) : Option (List Byte) :=
  match pieceForm pl piece with
  | none => none
  | some pp => ((contextRects i piece (formBit pp.form)).find? (fun x => inRect x.1 p q)).map (fun x => x.2.drop 256)

/-- Every tile of a stage rectangle is covered by a CONTEXT of its opcode, in the form placed (R280). -/
def stageCovered (i : Image) (pl : Placement) (e : CensusEntry) : Bool :=
  e.isChannel || (rectTiles e.rect).all (fun t => match microAt i pl e.piece t.1 t.2 with
    | some m => byteAt m 0 = e.opcode
    | none => false)

/-- Tiles beside the gateway of a piece, with the piece-local port that leads into it. -/
def besideGateway : List (Nat × Nat × Nat) :=
  [(59, 58, 2), (60, 58, 2), (61, 59, 3), (61, 60, 3), (60, 61, 0), (59, 61, 0), (58, 60, 1), (58, 59, 1)]

/-- No route of the last piece sends a flit of lane 4 or 5 to its gateway where that serves span port B: only S-class channels cross a
span (R155, R408). -/
def spanClassOk (i : Image) (pl : Placement) : Bool :=
  let toB := match imgSpan i with | some x => x.spb | none => false
  !toB || i.recs.all (fun r => match r.body with
    | .context rect img => !usedRec pl r || r.piece + 1 ≠ i.header.chainLen || (List.range 30).all (fun j =>
        let w := leAt img (2 * j) 2
        let lane := field w 8 6
        !(bitOf w 0 && (lane = 4 || lane = 5)) || besideGateway.all (fun t => !(inRect rect t.1 t.2.1 && bitOf w (1 + t.2.2))))
    | _ => true)

/-- WIN values that the sliding-window stages give (R360). -/
def winValues (i : Image) (pl : Placement) : List Nat :=
  ((imgCensusMap i).filter (fun e => !e.isChannel && e.opcode = 0x50)).filterMap
    (fun e => (microAt i pl e.piece e.rect.p0 e.rect.q0).map (fun m => leAt m 36 4))

/-- WIN of a partition with sound streams; 0 where none is given. -/
def imgWin (i : Image) (pl : Placement) : Nat := (winValues i pl).headD 0

/-- Length of the stimulus loop of a slot (R367). -/
def loopLen (i : Image) (port slot : Nat) : Nat :=
  (((imgStimuli i).filter (fun x => x.1 = port && x.2.1 = slot)).map (fun x => x.2.2.length)).sum

def check6 (i : Image) (pl : Placement) : Bool :=
  spanClassOk i pl &&
  let qs := imgQueues i pl
  let tq := qs.filter (·.tClass)
  let spill := ((tq.map (fun q => (q.spill.map (·.length)).sum))).sum
  let kib := (imgContract i).spillKib
  let map := imgCensusMap i
  let win := imgWin i pl
  (if tq.isEmpty then kib = 0 && (imgCycles i).isEmpty else 256 ≤ kib && !(imgCycles i).isEmpty) &&
  kib * 128 ≤ spill && decide (tq.map (fun (q : QueueRec) => q.priority)).Nodup &&
  (imgCycles i).all (fun c => map.any (fun e => !e.isChannel && e.number = c.setEntry && e.opcode = 0x30) &&
    c.queues.all (fun q => tq.any (fun x => x.id = q))) &&
  map.length ≤ 8192 && map.all (stageCovered i pl) &&
  ((sndPorts i).isEmpty || !(imgPorts i).isEmpty ||
    (allSame (fun x => x) (winValues i pl) && 16 ≤ win && win ≤ 16777216 && win % 16 = 0)) &&
  ((imgStimuli i).all (fun x => let l := loopLen i x.1 x.2.1; win = 0 || l % win = 0 || win % l = 0))

/-! ### Check 7: the ledger (R187-R189) -/

/-- Microconfigurations of a stage, one per tile's CONTEXT in the forms placed. -/
def stageMicros (i : Image) (pl : Placement) (num : Nat) : List (List Byte) :=
  ((imgCensusMap i).filter (fun e => !e.isChannel && e.number = num)).flatMap (fun e =>
    match pieceForm pl e.piece with
    | none => []
    | some pp => ((contextRects i e.piece (formBit pp.form)).filter (fun x => rectsMeet x.1 e.rect)).map (fun x => x.2.drop 256))

/-- A lossy step that an image performs, as its entry without UNIT and BOUND. -/
def lossyStep (kind place index param0 param1 param2 format : Nat) : LedgerEntry :=
  { kind := kind, place := place, index := index, param0 := BitVec.ofNat 32 param0, param1 := BitVec.ofNat 32 param1,
    param2 := BitVec.ofNat 32 param2, format := format }

/-- F of a floored stage, widened exactly to A32 (R188). -/
def floorA32 (m : List Byte) : Nat := ((a32Of (decodeElem (byteAt m 4) (leAt m 32 4))).1).toNat

/-- Function codes that a stage uses: FUNC where it runs step 4 of R86, and those of the softmax (R168, R187). -/
def stageFuncs (m : List Byte) : List Nat :=
  let op := byteAt m 0
  if op = 0x33 then [6, 7] else if usesArithmetic op && decide (3 ≤ byteAt m 5) then [byteAt m 5] else []

/-- Does a stage round an FP16 factor at step 2: an FP16 output scale, or set attention's 1/√d for a d that is no power of 4? -/
def fp16Factor (m : List Byte) : Bool :=
  let d := (Config.params m).headWidth
  if byteAt m 0 = 0x33 then decide (d ≠ 4 ^ (Nat.log2 d / 2)) else usesArithmetic (byteAt m 0) && outFp16 m

/-- The lossy steps of a stage (R187): function codes 3-8, BF16 flushes at the output and at the table builder, FP16 factors. -/
def stageSteps (num : Nat) (m : List Byte) : List LedgerEntry :=
  let op := byteAt m 0
  (stageFuncs m).map (fun f => lossyStep 4 0 num f 0 0 0xFFFF) ++
  (if byteAt m 4 = 11 ∧ (usesArithmetic op ∨ op = 0x32) then [lossyStep 5 0 num 0 0 0 11] else []) ++
  (if byteAt m 3 = 11 ∧ usesArithmetic op then [lossyStep 5 0 num 1 0 0 11] else []) ++
  (if fp16Factor m then [lossyStep 6 0 num 1 0 0 0xFFFF] else [])

/-- Elements per window on the channels of a stage: those of all its tiles (DEDUCED, log entry 105). -/
def channelElems (i : Image) (pl : Placement) (num : Nat) : Nat :=
  (((imgCensusMap i).filter (fun e => !e.isChannel && e.number = num)).map (fun e =>
    match pieceForm pl e.piece with
    | none => 0
    | some pp => ((contextRects i e.piece (formBit pp.form)).map (fun x =>
        ((rectTiles e.rect).filter (fun t => inRect x.1 t.1 t.2)).length * windowElems (x.2.drop 256))).sum)).sum

/-- S-class channels that a floored or narrowed stage produces (R187). T-class tokens and verdict tokens are never coded. -/
def channelSteps (i : Image) (pl : Placement) (num : Nat) (m : List Byte) : List LedgerEntry :=
  let mode := byteAt m 29
  if (mode = 2 ∨ mode = 3) ∧ byteAt m 0 ≠ 0x70 then
    ((imgCensusMap i).filter (fun e => e.isChannel && e.producer = num && e.opcode ≤ 3)).map (fun e =>
      if mode = 2 then lossyStep 2 1 e.number (floorA32 m) (channelElems i pl num) 0 (byteAt m 4)
      else lossyStep 3 1 e.number 0x37000000 (channelElems i pl num) 0 10)
  else []

/-- An ASRC path: passband edge 0.454, ripple 0.005 dB, stopband 120 dB (R188, R353). -/
def asrcStep (place port : Nat) : LedgerEntry := lossyStep 7 place port 0x3EE872B0 0x3BA3D70A 0x42F00000 0xFFFF

/-- Every lossy step of R187 but the near-lossless evidence streams, which the ledger itself declares (R397). -/
def lossySteps (i : Image) (pl : Placement) : List LedgerEntry :=
  let stages := (((imgCensusMap i).filter (fun e => !e.isChannel)).map (·.number)).eraseDups
  (((imgPorts i).filter (fun x => x.2.compand)).map (fun x => lossyStep 1 2 x.2.port 0 0 0 0)) ++
  (stages.flatMap (fun n => (stageMicros i pl n).flatMap (fun m => stageSteps n m ++ channelSteps i pl n m))).eraseDups ++
  (((sndPorts i).filter (fun x => x.2.inMask ≠ 0)).map (fun x => asrcStep 3 x.2.port)) ++
  (((sndPorts i).filter (fun x => x.2.outMask ≠ 0)).map (fun x => asrcStep 4 x.2.port))

/-- δ that a BOUND gives: 1, 2 or 4 code levels (R181). -/
def deltaOf (bound : Word) : Option Nat := ([1, 2, 4] : List Nat).find? (fun d => cmpV (a32Val bound) (intV d) = some 0)

/-- BOUND at least the bound of R181, in its unit (R88 for the function codes). -/
def boundOk (e : LedgerEntry) : Bool :=
  let b := a32Val e.bound
  let pow := fun (k : Int) => FV.num false 1 k
  match e.kind with
  | 1 => e.unit = 3 && leV (intV 32) b
  | 2 => e.unit = 1 && leV (a32Val e.param0) b
  | 3 => e.unit = 2 && leV (pow (-3)) b
  | 4 =>
    match e.param0.toNat with
    | 3 => e.unit = 1 && leV (pow (-8)) b
    | 4 => e.unit = 1 && leV (pow (-10)) b
    | 5 => e.unit = 1 && leV (pow (-9)) b
    | 8 => e.unit = 2 && leV (pow (-14)) b
    | _ => e.unit = 2 && leV (pow (-13)) b
  | 5 => e.unit = 1 && leV (pow (-126)) b
  | 6 => e.unit = 2 && leV (pow (-24)) b
  | 7 => e.unit = 4 && leV (intV (-125)) b
  | 8 => e.unit = 5 && (deltaOf e.bound).isSome
  | _ => false

/-- Entries rise by KIND, WHERE, PARAM0 (R187). -/
def ledgerKey (e : LedgerEntry) : Nat := (e.kind * 65536 + e.place * 4096 + e.index) * 2 ^ 32 + e.param0.toNat

def rising : List Nat → Bool
  | a :: b :: rest => a < b && rising (b :: rest)
  | _ => true

/-- An entry without UNIT and BOUND. -/
def entryStep (e : LedgerEntry) : LedgerEntry := { e with unit := 0, bound := 0 }

/-- Check 7: the ledger names exactly the lossy steps, each with its PARAMs and FORMAT and a bound no tighter than R181 (R188, R189). -/
def ledgerOk (i : Image) (pl : Placement) : Bool :=
  let es := imgLedger i
  let steps := lossySteps i pl
  rising (es.map ledgerKey) && es.all (fun e => boundOk e && e.reservedZero) &&
  steps.all (fun st => es.any (fun e => decide (entryStep e = st))) &&
  es.all (fun e => if e.kind = 8 then e.index < 8 && decide (entryStep e = lossyStep 8 5 e.index 0 0 0 0xFFFF) else steps.contains (entryStep e))

/-! ### Check 8: signature, digest, counts (R240, R258, R284) -/

/-- The counts of R284: RECORDS and GROUPS equal the header's, each group is carried by as many records as given. -/
def countsOk (i : Image) : Bool :=
  i.recs.length = i.header.records &&
  (match i.recs.getLast? with
   | some { body := .trailer r g counts, .. } =>
     r = i.header.records && g = i.header.groups &&
     (List.range g).all (fun k => let n := (i.recs.filter (fun x => x.group = k + 1)).length; 1 ≤ n && n = counts.getD k 0)
   | _ => false)

/-- Bytes of a record that the image digest covers: all but a blob's DATA (R258). -/
def digestPart (bs : List Byte) : List Byte := if leAt bs 0 2 = 0x0030 then bs.take 72 else bs

/-- Feed bytes to a running SHA-256. -/
def shaFeed (st : ShaState) (bs : List Byte) : ShaState :=
  let all := st.buf ++ bs
  let r := shaBlocks (all.length / 64) st.h all
  { h := r.1, buf := r.2, len := st.len + bs.length }

/-- The digest of what has been fed. -/
def shaFinish (st : ShaState) : List Byte :=
  let m := st.buf ++ shaPad st.len
  (shaBlocks (m.length / 64) st.h m).1.bytes

/-- The front records but the SIGNATURE record, which the signed data leaves out (R258). -/
def afterSignature (recs : List (List Byte)) : List (List Byte) := recs.drop 1

/-- Is an image signed by a chain that ends at an enrolled image root, over its digest (R258, R259)? -/
def imageSigned (s : State) (i : Image) : Bool :=
  i.recs.any (fun x => match x.body with
    | .signature r k certs => (match chainLeaf (s.nv.imageRoots.toList.filterMap id) certs with
      | some leaf => ecdsaOk leaf.key i.digest r k
      | none => false)
    | _ => false)

end Sys2Proof.Machine
end

