-- ==== Sys2Proof/Machine/SpanFrames.lean ====
section
/-! DEFINITION. Span frames and messages: layout, sending, acknowledgement and replay (R410-R415). -/

namespace Sys2Proof.Machine

/-- A 16-byte control message (R412). -/
def spanMsg (ty b1 b2 b3 w4 q8 : Nat) : List Byte :=
  leBytes 1 ty ++ leBytes 1 b1 ++ leBytes 1 b2 ++ leBytes 1 b3 ++ leBytes 4 w4 ++ leBytes 8 q8

def msgHello (serial : BitVec 64) : List Byte := spanMsg 1 0 0 0 0 serial.toNat
def msgReady (position units : Nat) (dready : Bool) (id : BitVec 64) : List Byte :=
  spanMsg 2 position units (boolNat dready) 0 id.toNat
def msgGo (id : BitVec 64) : List Byte := spanMsg 3 0 0 0 0 id.toNat
def msgAbort (cause : Nat) (id : BitVec 64) : List Byte := spanMsg 4 cause 0 0 0 id.toNat
def msgLeave (id : BitVec 64) : List Byte := spanMsg 5 0 0 0 0 id.toNat
def msgTime (dLast : Int) (tTx : Nat) : List Byte := spanMsg 6 0 0 0 (twos 32 dLast) tTx

/-- A window descriptor (R413). -/
def descBytes (w : Window) (tLast : Nat) : List Byte :=
  leBytes 4 w.index ++ leBytes 2 w.column ++ leBytes 1 (boolNat w.incomplete + 2 * boolNat w.sound + 128) ++ zeros 1 ++
  leBytes 8 tLast

/-- The 54 payload bytes of a data frame: 12 slots of 36 bits, an empty slot carrying lane value 6 (R411). -/
def slotBytes (fs : List Flit) : List Byte :=
  leBytes 54 ((List.range 12).map (fun i =>
    (match fs[i]? with | some f => f.toNat | none => 6 * 2 ^ 33) * 2 ^ (36 * i))).sum

/-- Flits of a data frame's payload, empty slots left out. -/
def slotFlits (payload : List Byte) : List Flit :=
  let v := leNat (payload.take 54)
  ((List.range 12).map (fun i => BitVec.ofNat 36 (v / 2 ^ (36 * i)))).filter (fun f => field f.toNat 35 33 ≠ 6)

/-- A span frame (R410). `credit` is the CREDIT field, `dcredit` the DCREDIT count. -/
def spanFrame (x : Spn) (kind seq credit dcredit : Nat) (payload : List Byte) : List Byte :=
  let b := leBytes 1 kind ++ leBytes 1 (boolNat x.nak + 16 * dcredit) ++ leBytes 2 seq ++
    leBytes 2 (x.rxNext + 65535) ++ leBytes 2 credit ++ (payload ++ zeros (54 - payload.length)).take 54
  b ++ leBytes 2 (crc16 b)

/-- CREDIT: units of 32 flits drained on each channel, at most 15 (R410, R415). -/
def creditField (x : Spn) : Nat :=
  ((List.range 4).map (fun c => min 15 ((x.drained[Fin.ofNat 4 c]) / 32) * 16 ^ c)).sum

/-- The credits that the next frame returns leave the counts. -/
def takeCredits (x : Spn) : Spn :=
  { x with drained := x.drained.map (fun n => n - 32 * min 15 (n / 32)), ddrained := x.ddrained - min 15 x.ddrained }

/-- Send a sequenced frame; it is kept until acknowledged (R414). -/
def sendSeq (x : Spn) (kind : Nat) (payload : List Byte) : Spn :=
  let f := spanFrame x kind x.txNext (creditField x) (min 15 x.ddrained) payload
  { takeCredits x with txNext := (x.txNext + 1) % 65536, unacked := x.unacked ++ [(x.txNext, f)] }

/-- Channel after `l` in round-robin order with a flit waiting and a credit (R411). -/
def nextChannel (x : Spn) : Option (Fin 4) :=
  ((List.range 4).map (fun k => x.txLast + 1 + Fin.ofNat 4 k)).find?
    (fun c => decide (0 < x.credits[c]) && !(x.txFlits[c]).isEmpty)

/-- Take up to `n` flits for a data frame, in the order they are sent. -/
def takeFlits : Nat → Spn → Spn × List Flit
  | 0, x => (x, [])
  | n + 1, x =>
    match nextChannel x with
    | none => (x, [])
    | some c =>
      match x.txFlits[c] with
      | [] => (x, [])
      | f :: rest =>
        let r := takeFlits n { x with txFlits := x.txFlits.set c.val rest c.isLt,
                                      credits := x.credits.set c.val (x.credits[c] - 1) c.isLt, txLast := c }
        (r.1, f :: r.2)

/-- Frame what waits while fewer than 1,024 frames are unacknowledged; one control message, then three descriptors, then 12
flits a frame (R411-R415; the order of the kinds is a DESIGN CHOICE, log entry 18). -/
def spanPump : Nat → Spn → Spn
  | 0, x => x
  | n + 1, x =>
    if !x.linkUp || x.unacked.length ≥ 1024 then x
    else match x.sendQ with
      | m :: rest => spanPump n (sendSeq { x with sendQ := rest } 2 m)
      | [] =>
        let k := min 3 (min x.dcredits x.txDesc.length)
        if 0 < k then
          spanPump n (sendSeq { x with txDesc := x.txDesc.drop k, dcredits := x.dcredits - k } 3 ((x.txDesc.take k).flatten))
        else
          let r := takeFlits 12 x
          if r.2.isEmpty then x else spanPump n (sendSeq r.1 1 (slotBytes r.2))

/-- Frames that may still be needed to empty the queues. -/
def spanWork (x : Spn) : Nat :=
  x.sendQ.length + x.txDesc.length + ((List.range 4).map (fun c => (x.txFlits[Fin.ofNat 4 c]).length)).sum

def runSpan (x : Spn) : Spn := spanPump (spanWork x + 1) x

/-- Queue a control message on a span port. -/
def sendMsg (s : State) (q : SpanPort) (m : List Byte) : State :=
  updSpn s q (fun x => runSpan { x with sendQ := x.sendQ ++ [m] })

/-- Span ports a partition uses. -/
def spanPortsOf (s : State) (p : PartId) : List SpanPort :=
  [SpanPort.spa, .spb].filter (fun q => decide ((getSpn s q).owner = some p))

/-- Send a message on each used span port that `keep` selects. -/
def sendAll (s : State) (p : PartId) (keep : SpanPort → Bool) (m : List Byte) : State :=
  ((spanPortsOf s p).filter keep).foldl (fun s q => sendMsg s q m) s

/-- An ACK covers every frame up to its SEQ (R414). -/
def ackFrames (x : Spn) (ack : Nat) : Spn :=
  if x.unacked.any (fun f => f.1 = ack) then
    { x with unacked := (x.unacked.dropWhile (fun f => f.1 ≠ ack)).drop 1, resends := 0, replay := false }
  else x

/-- ACK, NAK and credits of a valid frame (R410, R414, R415). A NAK resends from ACK + 1: an episode is counted when it begins. -/
def takeLink (x : Spn) (frame : List Byte) : Spn :=
  let x1 := ackFrames x (leAt frame 4 2)
  let nak := bitOf (byteAt frame 1) 0
  let x2 := { x1 with
    credits := Vector.ofFn (fun c : Fin 4 => min 2048 (x1.credits[c] + 32 * (leAt frame 6 2 / 16 ^ c.val % 16)))
    dcredits := min 4096 (x1.dcredits + byteAt frame 1 / 16) }
  let x3 := if nak && !x2.unacked.isEmpty then
      { x2 with resends := x2.resends + 1, replay := true, replays := if x2.replay then x2.replays else satInc x2.replays }
    else x2
  runSpan x3

/-- CRC of a frame (R410). -/
def frameCrcOk (frame : List Byte) : Bool := frame.length = 64 && leAt frame 62 2 = crc16 (frame.take 62)

/-- Is a sequenced frame accepted: next SEQ, valid CRC and FEC (R414)? -/
def frameAccepted (x : Spn) (frame : List Byte) (fecOk : Bool) : Bool :=
  frameCrcOk frame && fecOk && leAt frame 2 2 = x.rxNext

/-- Count the check failures of a frame. -/
def countFrame (x : Spn) (frame : List Byte) (fecOk : Bool) : Spn :=
  { x with crcErr := if frameCrcOk frame then x.crcErr else satInc x.crcErr,
           fecUncorr := if fecOk then x.fecUncorr else satInc x.fecUncorr }

end Sys2Proof.Machine
end

