-- ==== Sys2Proof/Machine/Lifecycle.lean ====
section
/-! DEFINITION. What a partition's life shares between commands: pins and ports, fault entry (R448-R451), drains (R301,
R302, R420), scrubs (R211-R213, R438), load lanes (R75), the abort of a load (R312). -/

namespace Sys2Proof.Machine

/-! ### Pins (R372-R375) -/

def levelOf (high : Bool) : Level := if high then .high else .low

def rejectLevel (e : PinEntry) : Level := levelOf e.rejectHigh

def passLevel (e : PinEntry) : Level := levelOf (!e.rejectHigh)

/-- The fail-safe level of an entry (R373). -/
def failLevel (e : PinEntry) : Level := if e.failsafe = 0 then rejectLevel e else passLevel e

def unclaimedLevel (x : Pin) : Level := levelOf x.unclaimedHigh

/-- Go to the fail-safe level of an entry; a pulse in progress is cut short (R373). -/
def pinFail (e : PinEntry) (x : Pin) : Pin := { x with level := failLevel e, pulsing := false, pulseEntry := none, failsafe := true }

/-- A claimed pin with an entry in force goes to its fail-safe level. -/
def pinFailSafe (x : Pin) : Pin := match x.entry with | some e => pinFail e x | none => x

/-- Every pin that a partition claims goes to its fail-safe level. -/
def failPins (s : State) (p : PartId) : State := updPins s (fun x => if x.claimed = some p then pinFailSafe x else x)

/-- The pins a failed release claims go to the new image's fail-safe levels (R299, R373). -/
def failLoadingPins (s : State) (p : PartId) : State :=
  updPins s (fun x => if x.claimed = some p then (match x.loading with | some e => pinFail e x | none => pinFailSafe x) else x)

/-- Claims on pins end; levels stay (R308, R315). -/
def releasePins (s : State) (p : PartId) : State :=
  updPins s (fun x => if x.claimed = some p then { x with claimed := none, loading := none, entry := none } else x)

/-- A release or commit point claims a pin: it rests at its pass level and is marked held (R372, R375). -/
def pinClaim (e : PinEntry) (x : Pin) : Pin :=
  { x with entry := some e, loading := none, failsafe := false, held := true, heldHigh := decide (failLevel e = .high),
           level := if x.pulsing then x.level else passLevel e, pulseEntry := if x.pulsing then x.entry else none }

/-! ### Ports -/

/-- Release every port and span port a partition claims (R308, R322, R348, R364 step 5). -/
def releasePorts (s : State) (p : PartId) : State :=
  let s1 := updImgs s (fun c => if c.owner = some p then
    { c with owner := none, cfg := none, shadow := none, shadowReady := false, ready := false, delivering := false, triggering := false,
             waiting := [], due := [], held := [], overdue := 0, linkDown := false, mismatch := false, locked := false, anchor := none }
    else c)
  let s2 := updSnds s1 (fun c => if c.owner = some p then
    { c with owner := none, shadow := none, stimulus := [], outSamples := [], blockIn := [], buffer := [],
             phase := if c.cfg.isSome && c.phase ≠ .idle then .stopping else .idle,
             silentLeft := (match c.cfg with | some x => x.silent | none => 0) }
    else c)
  (spanPortsOf s2 p).foldl (fun s q => updSpn s q (fun x => { x with owner := none, span := 0 })) s2

/-- Step 2 of R449: image ports stop triggers and close delivery and stay trained; sound ports drive zero data with clocks
running. -/
def quietPorts (s : State) (p : PartId) : State :=
  let s1 := updImgs s (fun c => if c.owner = some p then
    { c with delivering := false, triggering := false, waiting := [], due := [], held := [], overdue := 0 } else c)
  updSnds s1 (fun c => if c.owner = some p && c.phase ≠ .idle then { c with phase := .muted, outSamples := [], blockIn := [] } else c)

/-- Does the partition run or load a span piece? -/
def partSpan (s : State) (p : PartId) : Option SpanRec :=
  match s.parts[p].active, s.parts[p].load with
  | some i, _ => imgSpan i
  | none, some l => imgSpan l.image
  | none, none => none

/-- ABORT with a cause on each used port that `keep` selects (R422). -/
def abortSpan (s : State) (p : PartId) (cause : Nat) (keep : SpanPort → Bool) : State :=
  match partSpan s p with
  | none => s
  | some x => sendAll s p keep (msgAbort cause x.id)

/-! ### Load lanes (R75) -/

/-- Entries whose subtree holds a site of the path. -/
def lanesNeeded (s : State) (rs : List RegionId) : List (Fin 4) :=
  ([0, 1, 2, 3] : List (Fin 4)).filter (fun e => rs.any (fun r => (regionSites r).any (fun k =>
    match s.wafer.tree[k] with | some n => decide (n.root = e) | none => false)))

/-- Give back the lanes of a load and take it from the waiting list. -/
def freeLanes (s : State) (p : PartId) : State :=
  let held := match s.parts[p].load with | some l => l.loadLanes | none => []
  let s1 := { s with wafer := { s.wafer with
    lanesHeld := Vector.ofFn (fun e : Fin 4 => s.wafer.lanesHeld[e] - boolNat (held.contains e))
    laneQueue := s.wafer.laneQueue.filter (fun q => decide (q ≠ p)) } }
  updLoad s1 p (fun l => { l with loadLanes := [] })

/-- A load at the head of the list takes every lane it needs, if each is free (R75). -/
def takeLanes (s : State) (p : PartId) : Option State :=
  match s.parts[p].load with
  | none => none
  | some l =>
    let need := lanesNeeded s (placedRegions l.placement)
    if s.wafer.laneQueue.head? = some p ∧ need.all (fun e => decide (s.wafer.lanesHeld[e] < 2)) then
      let s1 := { s with wafer := { s.wafer with
        lanesHeld := Vector.ofFn (fun e : Fin 4 => s.wafer.lanesHeld[e] + boolNat (need.contains e))
        laneQueue := s.wafer.laneQueue.filter (fun q => decide (q ≠ p)) } }
      some (updLoad s1 p (fun l => { l with loadLanes := need }))
    else none

/-- A load joins those that wait for lanes, in the order in which the supervisor accepted them (R75). -/
def joinLanes (s : State) (p : PartId) : State :=
  let order := fun (q : PartId) => match s.parts[q].load with | some l => l.order | none => 0
  let others := s.wafer.laneQueue.filter (fun q => decide (q ≠ p))
  { s with wafer := { s.wafer with
      laneQueue := others.filter (fun q => decide (order q ≤ order p)) ++ p :: others.filter (fun q => decide (order p < order q)) } }

/-- A load becomes the one in flight (R311): it keeps its turn, or takes the next. -/
def acceptLoad (s : State) (p : PartId) (turn : Option Nat) (l : Load) : State :=
  let n := turn.getD s.wafer.accepts
  let s1 := { s with wafer := { s.wafer with accepts := max s.wafer.accepts (n + 1) } }
  joinLanes (updPart s1 p (fun x => { x with load := some { l with order := n } })) p

/-! ### Tiles of a partition -/

def tileIn (rs : List RegionId) (t : Nat) : Bool := rs.contains (tileRegion t)

/-- Update every tile of the regions that is not at its scrubbed value. -/
def mapTiles (s : State) (rs : List RegionId) (f : Tile → Tile) : State :=
  { s with tiles := (s.tiles.map (fun c => if tileIn rs c.1 then (c.1, f c.2) else c)).filter (fun c => decide (c.2 ≠ {})) }

/-- A tile is empty (R92). -/
def tileEmpty (t : Tile) : Bool :=
  !t.reducing && t.step = 0 && t.red = 0 && !t.closing && t.outElems.isEmpty && t.outPos.isEmpty && t.sendQ.isEmpty &&
  t.side.isEmpty && t.inputs.toList.all (·.isEmpty) && t.local6.toList.all (·.isEmpty) &&
  t.credits.toList.all (· = 4) && t.owed.toList.all (· = 0) && t.driven.toList.all (· = 0)

/-- Regions whose tiles run the partition's image. -/
def runRegions (s : State) (p : PartId) : List RegionId :=
  match s.parts[p].placement with | some pl => placedRegions pl | none => []

def partTiles (s : State) (p : PartId) : List (Nat × Tile) :=
  let rs := runRegions s p
  s.tiles.filter (fun c => tileIn rs c.1)

/-- Every tile, queue and stage of the partition is empty (R92, R302). -/
def partEmpty (s : State) (p : PartId) : Bool :=
  (partTiles s p).all (fun c => tileEmpty c.2) &&
  (s.parts[p].fabric.queues).all (fun q => q.count = 0 && q.segCount = 0) &&
  (s.parts[p].fabric.stages).all (fun g => g.cur.isEmpty && g.tokens.isEmpty && g.mask.isEmpty && g.scores.isEmpty && g.scan.pixel = 0)

/-- Zero the codewords of claims, less those that a kept claim holds (R99, R213). -/
def clearClaims (s : State) (gone kept : List Claim) : State :=
  let inClaim := fun (cs : List Claim) (a : Nat) => cs.any (fun c =>
    decide (c.tile = a / 16384 ∧ c.base ≤ a % 16384 / 8 ∧ a % 16384 / 8 < c.base + c.length))
  { s with mem := Memory.clear s.mem (fun a => inClaim gone a && !inClaim kept a) }

/-- Empty every context of a tile that a test selects. -/
def dropContexts (f : CtxUse → Bool) (t : Tile) : Tile := { t with ctx := t.ctx.map (fun c => if f c.use then {} else c) }

/-- Discard what a staged load has written: spare contexts and staged claims (R304, R312). -/
def dropStaged (s : State) (p : PartId) : State :=
  let cs := s.parts[p].fabric.claims
  let s1 := mapTiles s (heldRegions s p) (dropContexts (· = .staged))
  let s2 := clearClaims s1 (cs.filter (fun c => c.use = .staged)) (cs.filter (fun c => c.use ≠ .staged))
  updFabric s2 p (fun f => { f with claims := f.claims.filter (fun c => decide (c.use ≠ .staged)) })

/-! ### Regions leaving a partition (R212, R426, R437, R438) -/

/-- A region becomes free: it belongs to no partition and stands at 0.60 V. -/
def freeRegion (s : State) (r : RegionId) : State :=
  updRegion s r (fun g => setVdd 600 { g with owner := none, demand := 0, intervals := [] })

/-- A region the network cannot reach is turned off and quarantined until the next power cycle (R438). -/
def retireRegion (s : State) (r : RegionId) : State :=
  updRegion (closeGates s r) r (fun g => { g with owner := none, supplyOn := false, vdd := 0, demand := 0, cycleOff := true, gatewayOut := [] })

/-- The scrub of regions ends: those of `failed` are lost, the rest become free (R211, R212, R438). A region whose supply is off holds
nothing and only leaves its partition; after a heat shed its re-test decides (R432). -/
def endScrub (s : State) (rs failed : List RegionId) : State :=
  rs.foldl (fun s r =>
    if !(s.regions[r]).supplyOn then updRegion (scrubRegions s [r]) r (fun g => { g with owner := none })
    else if !reachable s r then scrubRegions (retireRegion s r) [r]
    else
      let s1 := scrubRegions s [r]
      if failed.contains r then updRegion (loseRegion s1 r) r (fun g => { g with owner := none }) else freeRegion s1 r) s

/-! ### Census at a scrub (R464) -/

/-- A census whose tick has not passed when an unload scrub is due is cancelled. -/
def cancelCensus (s : State) (p : PartId) : State :=
  updCensus s p (fun c => match c.run with
    | some r =>
      if r.latched then { c with queued := false, cancelled := c.cancelled || c.queued }
      else { c with run := none, queued := false, cancelled := true }
    | none => { c with queued := false })

/-- First multiple of 16 ns after a timestamp (R461). -/
def nextTick16 (t : Nat) : Nat := (t / 16 + 1) * 16

/-- A census of the partition's active image with a given tick. -/
def censusOf (s : State) (p : PartId) (tick : Nat) (auto : Bool) : CensusRun :=
  { tick := tick, automatic := auto, image := s.parts[p].active.getD {}, placement := s.parts[p].placement.getD {},
    ldgGen := s.parts[p].regs.ldgGen }

/-- The final census of a fault entry (R449 step 5, R461); one already being read is finished first. -/
def finalCensus (s : State) (p : PartId) : State :=
  let r := censusOf s p (nextTick16 (now s)) true
  let s1 := cancelCensus s p
  updCensus s1 p (fun c => if c.run.isSome then { c with finalRun := some r } else { c with run := some r })

/-- Is any census still to be read before the scrub may end? -/
def censusBusy (c : Census) : Bool := c.run.isSome || c.finalRun.isSome

/-! ### Fault entry (R448-R451) -/

/-- Causes with a final census (R448). -/
def hasFinalCensus (code : Nat) : Bool :=
  code = cMemUncorrectable || code = cSpanLost || code = cSpanAbort || code = cProgressLost

/-- The window of a descriptor (R413). -/
def descWindow (bs : List Byte) : Window :=
  { index := leAt bs 0 4, column := leAt bs 4 2, sound := bitOf (byteAt bs 6) 1, incomplete := bitOf (byteAt bs 6) 0,
    tLast := some (leAt bs 8 8) }

/-- Windows that a fault leaves without a record: in a span piece with a downstream peer, those of the descriptors that it has not
forwarded (R422); otherwise every accepted window without a record. -/
def lostWindows (s : State) (p : PartId) : List Window :=
  match partSpan s p with
  | some x => if x.spb then s.spb.txDesc.map descWindow else s.parts[p].flow.windows
  | none => s.parts[p].flow.windows

def minList : List Nat → Nat
  | [] => 0
  | n :: ns => ns.foldl min n

/-- The fault record of an entry (R459). -/
def faultRec (s : State) (p : PartId) (st : PState) (code d0 : Nat) (census : Bool) : ERec :=
  let x := s.parts[p]
  let ws := if isServing x.state then lostWindows s p else []
  let e : LogEntry := { seq := s.flt.nextSeq, powerOn := s.glb.powerOn, time := now s, code := code, index := p.val,
                        detail0 := d0, detail1 := digest8 (partDigest s p) }
  .fault (stateCode st) e (boolNat (ws.any (·.sound)) + 2 * boolNat census) (sat32 ws.length)
    (minList (ws.map (fun w => w.index)) % 2 ^ 32) ((ws.map (fun w => w.index)).foldl max 0 % 2 ^ 32) x.regs.ldgGen

/-- What a fault state leaves of a partition's flow. -/
def stopFlow (f : Flow) : Flow :=
  { f with inputOpen := false, windows := [], tokens := [], vtok := [], drain := none, drained := false,
           lupin := none, gap := none, interval := 0 }

/-- Does an automatic reload follow (R452)? -/
def autoFollows (x : Partition) (st : PState) : Bool :=
  st = .faultMem || ((st = .faultDark || st = .faultHot) &&
    (match x.active, x.load with
     | some i, _ => (imgContract i).replaceOnFault
     | none, some l => (imgContract l.image).replaceOnFault
     | none, none => false))

/-- A partition enters a fault state with a cause (R448-R451, R459). A partition already in one only logs the cause. -/
def faultEntry (s : State) (p : PartId) (st : PState) (code d0 : Nat) : State :=
  let x := s.parts[p]
  if isFault x.state then logPart s p code d0
  else
    let serving := isServing x.state
    let census := serving && hasFinalCensus code
    let rec0 := faultRec s p st code d0 census
    let s1 := logPart s p code d0
    let s2 := if serving then failPins s1 p else s1
    let s3 := quietPorts s2 p
    let s4 := if x.state = .running && code ≠ cSpanLost && code ≠ cSpanAbort then abortSpan s3 p 2 (fun _ => true) else s3
    let s5 := endGap s4 p
    let s6 := enterRec (closeExport s5 p) p rec0
    let s7 := if census then finalCensus s6 p else cancelCensus s6 p
    let s8 := freeLanes s7 p
    let s9 := updPart s8 p (fun y => { y with
      load := none, active := none,
      flow := { stopFlow y.flow with scrub := if y.placement.isSome || y.load.isSome || serving then some .fault else none,
                                     autoDue := autoFollows x st },
      tun := {}, span := {} })
    let s10 := mapRegions (closeAllGates s9 (heldRegions s9 p)) (heldRegions s9 p) (fun g => setVdd 720 { g with intervals := [] })
    let s11 := (spanPortsOf s10 p).foldl (fun s q => updSpn s q (fun y =>
      { y with span := if st = .faultSpan then 4 else 0, txDesc := [], txFlits := Vector.replicate 4 [] })) s10
    setCause (setPState s11 p st) p (causeOf code)

/-! ### Drains (R301, R302, R420) -/

/-- The partition's inputs stop at their next window ends; a span piece about to end its span sends LEAVE (R301, R420). -/
def beginDrain (s : State) (p : PartId) (why : DrainWhy) : State :=
  let s0 := if s.parts[p].state = .running then endGap s p else s
  let s1 := updFlow s0 p (fun f => { f with inputOpen := false, drain := some why, drained := false })
  let s2 := setPState s1 p .draining
  match partSpan s p with
  | some x => if why = .peerLeft then s2 else sendAll s2 p (fun _ => true) (msgLeave x.id)
  | none => s2

/-- Input restarts: the partition is RUNNING (R303 step 6, R312). -/
def restartInput (s : State) (p : PartId) : State :=
  setPState (updFlow s p (fun f => { f with inputOpen := true, drain := none, drained := false })) p .running

/-! ### Abort (R312, R315) -/

/-- A load has written nothing that runs and holds no more than the running image does: its staged work, its extra regions and
its claims on ports and pins that the running image lacks are given back. -/
def keepOldImage (s : State) (p : PartId) : State :=
  let s1 := freeLanes (dropStaged s p) p
  let old := runRegions s1 p
  let extra := (heldRegions s1 p).filter (fun r => !old.contains r)
  let s2 := endScrub s1 extra []
  let img := s2.parts[p].active.getD {}
  let ports := ((imgPorts img).map (fun x => portConns x.2)).flatten
  let s3 := { s2 with imgs := Vector.ofFn (fun c : ImgId =>
    let x := s2.imgs[c]
    if x.owner = some p then
      (if ports.contains c then { x with shadow := none } else
        { x with
          owner := none, cfg := none, shadow := none, shadowReady := false, ready := false, delivering := false,
          triggering := false, locked := false })
    else x) }
  let s4 := { s3 with snds := Vector.ofFn (fun c : SndId =>
    let x := s3.snds[c]
    if x.owner = some p then
      (if (sndPorts img).any (fun y => y.2.port = c.val) then { x with shadow := none } else { x with owner := none, shadow := none, phase := .idle })
    else x) }
  let s5 := updPins s4 (fun x => if x.claimed = some p then
    (if x.entry.isSome then { x with loading := none } else { x with claimed := none, loading := none }) else x)
  let used := fun (q : SpanPort) => match imgSpan img, q with
    | some x, .spa => x.spa
    | some x, .spb => x.spb
    | none, _ => false
  let s6 := (spanPortsOf s5 p).foldl (fun s q => if used q then s else updSpn s q (fun x => { x with owner := none, span := 0 })) s5
  updPart s6 p (fun x => { x with load := none })

/-- Abort the load in flight, with its cause (R312). A staged load, or a cold one whose drain has not begun, leaves the old
image running; any other ends in EMPTY once its drain and scrub have ended. -/
def abortLoad (s : State) (p : PartId) (code : Nat) : State :=
  match s.parts[p].load with
  | none => s
  | some l =>
    let s1 := setCause (logPart s p code 0) p (causeOf code)
    if l.staged then restartInput (keepOldImage s1 p) p
    else if l.reloadsOld then keepOldImage s1 p
    else
      let s2 := updPart (freeLanes s1 p) p (fun x => { x with load := none })
      match s2.parts[p].flow.drain with
      | some _ => updFlow s2 p (fun f => { f with drain := some .aborted })
      | none =>
        let s3 := if s2.parts[p].flow.scrub.isSome then s2 else closeAllGates s2 (heldRegions s2 p)
        if (heldRegions s3 p).isEmpty then setPState (releasePorts (releasePins s3 p) p) p .empty
        else updFlow s3 p (fun f => { f with scrub := some .toEmpty })

/-! ### Refusal (R315) -/

/-- A load is refused with a cause: the old image runs on where the drain has not begun, otherwise FAULT_HELD with the claims
released. KEY and DECRYPT also stand in the bay's cause field (R237, R240). -/
def refuseLoad (s0 : State) (p : PartId) (code d0 : Nat) : State :=
  let s := if code = cKey then updBay (logIrq s0 0x0306 p.val 0 0 false 17) p (fun b => { b with cause := 6 })
    else if code = cDecrypt then updBay (logIrq s0 0x0307 p.val 0 0 false 17) p (fun b => { b with cause := 7 })
    else s0
  let x := s.parts[p]
  let running := x.active.isSome && (match x.load with | some l => l.staged || l.reloadsOld | none => isServing x.state)
  if running then
    let s1 := setCause (logPart s p code d0) p (causeOf code)
    match x.load with
    | none => s1
    | some l => if l.staged then restartInput (keepOldImage s1 p) p else keepOldImage s1 p
  else if isFault x.state then
    let s1 := setCause (logPart s p code d0) p (causeOf code)
    setPState (updPart (freeLanes (releasePorts (releasePins s1 p) p) p) p (fun y => { y with load := none })) p .faultHeld
  else
    let s1 := faultEntry s p .faultHeld code d0
    releasePorts (releasePins s1 p) p

end Sys2Proof.Machine
end

