-- ==== Sys2Proof/Machine/Loads.lean ====
section
/-! DEFINITION. What the load commands share: requests (R310-R313), placing (R296, R307), streaming (R257, R274, R278, R285-R287),
the commit points (R300, R303, R306). -/

namespace Sys2Proof.Machine

/-! ### Settings that two images may share (R305, R323, R341, R369) -/

def imgScript (i : Image) (port : Nat) : List ScriptEntry :=
  (i.recs.findSome? (fun r => match r.body with | .script p es => if p = port then some es else none | _ => none)).getD []

/-- The alignment group a port names. -/
def alignOf (i : Image) (sound : Bool) (id : Nat) : Option AlignRec :=
  (imgAligns i).find? (fun a => decide (a.sound = sound) && decide (a.id = id))

def camRepeated (old new : Image) (x : Nat × ImgPortRec) : Bool :=
  (imgPorts old).contains x && decide (imgScript old x.2.port = imgScript new x.2.port) &&
  decide (alignOf old false x.2.align = alignOf new false x.2.align)

/-- Ports of the stream that a port belongs to: its group, or itself alone (R331). -/
def camStream (i : Image) (x : ImgPortRec) : List (Nat × ImgPortRec) :=
  (imgPorts i).filter (fun y => if x.align = 255 then decide (y.2.port = x.port) else decide (y.2.align = x.align))

/-- A stream whose every port keeps its settings runs on; any other restarts as one (R305). -/
def camKept (old new : Image) (x : ImgPortRec) : Bool := (camStream new x).all (camRepeated old new)

def portStimuli (i : Image) (port : Nat) : List (Nat × List (BitVec 16)) :=
  (imgStimuli i).filterMap (fun x => if x.1 = port then some (x.2.1, x.2.2) else none)

def sndRepeated (old new : Image) (x : Nat × SndPortRec) : Bool :=
  (sndPorts old).contains x && decide (portStimuli old x.2.port = portStimuli new x.2.port) &&
  decide (alignOf old true x.2.align = alignOf new true x.2.align)

/-- Ports of a sound stream: a group, or a port alone (R357). -/
def sndStream (i : Image) (x : SndPortRec) : List (Nat × SndPortRec) :=
  (sndPorts i).filter (fun y => if x.align = 255 then decide (y.2.port = x.port) else decide (y.2.align = x.align))

def sndKept (old new : Image) (x : SndPortRec) : Bool := (sndStream new x).all (sndRepeated old new)

/-- The camera port of a connection. -/
def connPort (i : Image) (c : ImgId) : Option (Nat × ImgPortRec) := (imgPorts i).find? (fun x => (portConns x.2).contains c)

def sndPortOf (i : Image) (c : SndId) : Option (Nat × SndPortRec) := (sndPorts i).find? (fun x => decide (x.2.port = c.val))

def pinEntryOf (i : Image) (n : PinId) : Option PinEntry := (imgVerdict i).pins.find? (fun e => decide (e.pin = n.val))

/-! ### Claims of a load (R16, R322, R372, R403) -/

/-- The load claims every port, span port and pin of its image. -/
def claimAll (s : State) (p : PartId) (i : Image) : State :=
  let s1 := { s with
    imgs := Vector.ofFn (fun c : ImgId => match connPort i c with
      | some x => { s.imgs[c] with owner := some p, master := Fin.ofNat 16 x.2.port }
      | none => s.imgs[c])
    snds := Vector.ofFn (fun c : SndId => match sndPortOf i c with
      | some _ => { s.snds[c] with owner := some p }
      | none => s.snds[c])
    pins := Vector.ofFn (fun n : PinId => match pinEntryOf i n with
      | some e => { s.pins[n] with claimed := some p, loading := some e }
      | none => s.pins[n]) }
  match imgSpan i with
  | none => s1
  | some x =>
    let s2 := if x.spa then updSpn s1 .spa (fun q => { q with owner := some p }) else s1
    if x.spb then updSpn s2 .spb (fun q => { q with owner := some p }) else s2

/-- Is the port brought up already with these settings: the running image repeats them (R305), or a cold reload kept them (R341)? -/
def bringupDone (s : State) (p : PartId) (i : Image) (c : ImgConn) (x : Nat × ImgPortRec) : Bool :=
  match s.parts[p].active with
  | some old => camRepeated old i x
  | none => decide (c.cfg = some x.2)

/-- Settings go to a connection's shadow side; without `done` its bring-up begins (R286, R323). -/
def shadowCam (done : Bool) (x : ImgPortRec) (c : ImgConn) : ImgConn :=
  if done then { c with shadow := some x, shadowReady := true }
  else { c with shadow := some x, shadowReady := false, ready := false, bringup := 0, bayer := none, mismatch := false }

/-- Port settings go to the shadow sides. -/
def shadowPorts (s : State) (p : PartId) (i : Image) : State :=
  { s with
    imgs := Vector.ofFn (fun c : ImgId => match connPort i c with
      | none => s.imgs[c]
      | some x => shadowCam (bringupDone s p i s.imgs[c] x) x.2 s.imgs[c])
    snds := Vector.ofFn (fun c : SndId => match sndPortOf i c with
      | none => s.snds[c]
      | some x => { s.snds[c] with shadow := some x.2 }) }

/-! ### Streaming begins once the lanes are held (R75) -/

def beginStream (s : State) (p : PartId) (i : Image) : State :=
  updLoad (shadowPorts s p i) p (fun l => { l with phase := .streaming })

/-- Take the lanes and stream, or wait for them. -/
def tryStream (s : State) (p : PartId) : State :=
  match s.parts[p].load with
  | none => s
  | some l =>
    match takeLanes s p with
    | some s1 => beginStream s1 p l.image
    | none => updLoad s p (fun l => { l with phase := .waitLane })

/-! ### Placing (R202, R203, R296 steps 2-4, R52) -/

/-- Close the regions' gates, then open those along the path (R206, R208). -/
def setPathGates (s : State) (rs : List RegionId) : State := openPath (closeAllGates s rs) rs

/-- The path is held at 0.72 V with its gates set; its pre-load scrub begins (R296 steps 2-4, R426). -/
def startPreScrub (s : State) (p : PartId) (pl : Placement) : State :=
  let rs := placedRegions pl
  let s1 := mapRegions (setPathGates (holdRegions s p rs) rs) rs (fun g => setVdd 720 { g with demand := 720 })
  setPState (updLoad s1 p (fun l => { l with phase := .preScrub, placement := pl })) p .placing

/-- The search, were no region under test. -/
def wouldFit (s : State) (p : PartId) (i : Image) : Bool :=
  (searchPlacement (updRegions s (fun g => { g with underTest := false })) (some p) (imgPieces i) i.header.chainLen).isSome

/-- Step 2 of R296; a placement that wants a region under test waits once (R52). -/
def placeCold (s : State) (p : PartId) (mayWait : Bool) : State :=
  match s.parts[p].load with
  | none => s
  | some l =>
    match searchPlacement s (some p) (imgPieces l.image) l.image.header.chainLen with
    | some pl => startPreScrub s p pl
    | none =>
      let s1 := setPState s p .placing
      if mayWait && wouldFit s p l.image then updLoad s1 p (fun l => { l with phase := .waitRetest })
      else refuseLoad s1 p cNoPath 0

/-! ### Requests (R310-R313, R485) -/

/-- The slot that the partition's bay had armed at its latest insertion. -/
def armedSlot (s : State) (p : PartId) : Slot := let b := s.bays[p]; b.slots.getD b.armed.val {}

/-- A load whose front has been read from its first `chunks` chunks (R239, R258). -/
def newLoad (kind : ReqKind) (slot : Slot) (key : List Byte) (chunks : Nat) (f : FrontRead) (i : Image) : Load :=
  let sha := shaFeed {} (f.header ++ (afterSignature f.recs).flatten)
  { kind := kind, image := i, slot := slot, key := key, sha := sha, frontSha := sha,
    bytes := 64 + (f.recs.map (·.length)).sum, chunk := chunks, plain := f.rest }

/-- Step 1 of R307: the trial placement holds what the partition lacks, and the drain begins. A placement that wants a region
under test waits once, the old image running (R52). -/
def trialCold (s : State) (p : PartId) (mayWait : Bool) : State :=
  match s.parts[p].load with
  | none => s
  | some l =>
    match searchPlacement s (some p) (imgPieces l.image) l.image.header.chainLen with
    | some pl =>
      let s1 := holdRegions s p (placedRegions pl)
      beginDrain (updLoad s1 p (fun l => { l with placement := pl, phase := .draining, reloadsOld := false })) p .coldReload
    | none =>
      let s1 := updLoad (setPState s p .running) p (fun l => { l with reloadsOld := true })
      if mayWait && wouldFit s1 p l.image then updLoad s1 p (fun l => { l with phase := .waitRetest })
      else refuseLoad s1 p cNoPath 0

/-- The load of a running partition: staged over its path where that fits, else a cold reload (R205, R303, R307). A span piece
always loads cold (DEDUCED, log entry 19). -/
def loadRunning (s : State) (p : PartId) (old i : Image) : State :=
  let run := s.parts[p].placement.getD {}
  let staged := if (imgSpan i).isSome || (imgSpan old).isSome then none else stagedPlacement (imgPieces i) i.header.chainLen run
  match staged with
  | some pl =>
    let s1 := updLoad s p (fun l => { l with staged := true, placement := pl })
    tryStream (setPState (endGap s1 p) p .staged) p
  | none => trialCold s p true

/-- A request becomes the load in flight (R288 checks 1-4, R296, R303, R307); one that had to wait keeps its turn. -/
def beginLoad (s : State) (p : PartId) (kind : ReqKind) (o : LoadObs) (turn : Option Nat) : State :=
  let s0 := updFlow (setCause s p 0) p (fun f => { f with autoDue := false })
  let s1 := if isFault s0.parts[p].state then releasePorts (releasePins s0 p) p else s0
  let slot := armedSlot s1 p
  match contentKey s1 slot with
  | none => refuseLoad s1 p cKey 0
  | some key =>
    let f := readFront slot key o
    match checkFront s1 p slot f with
    | .error e => refuseLoad s1 p e.1 e.2
    | .ok i =>
      let s2 := acceptLoad (claimAll s1 p i) p turn (newLoad kind slot key o.front.length f i)
      match s2.parts[p].active with
      | some old => loadRunning s2 p old i
      | none => placeCold s2 p true

/-- Is the partition past a commit point, or still clearing what a command left, so that a request waits (R311, R313)? -/
def mustQueue (x : Partition) : Bool :=
  x.flow.lupin.isSome || (x.load.isNone && (x.flow.drain.isSome || x.flow.scrub.isSome))

/-- Queue a request; one that it replaces is reported (R313). -/
def queueRequest (s : State) (p : PartId) (kind : ReqKind) : State :=
  let s1 := if s.parts[p].queued.isSome then logPart s p cReplaced 0 else s
  updPart s1 p (fun x => { x with queued := some kind })

/-- A load request of R310 for an image. -/
def loadRequest (s : State) (p : PartId) (kind : ReqKind) (o : LoadObs) : State :=
  if mustQueue s.parts[p] then queueRequest s p kind
  else
    let s1 := if s.parts[p].load.isSome then abortLoad s p cAbortedRequest else s
    let x := s1.parts[p]
    if x.flow.drain.isSome || x.flow.scrub.isSome then
      acceptLoad s1 p none { kind := kind, phase := .waitAbort, obs := some o }
    else beginLoad s1 p kind o none

/-- A partition with nothing left to clear becomes EMPTY and gives up every claim (R308, R315, R452). -/
def becomeEmpty (s : State) (p : PartId) : State :=
  let s1 := releasePorts (releasePins s p) p
  setPState (updPart s1 p (fun x => { x with
    active := none, placement := none, fabric := {}, tun := {}, span := {}, load := none, flow := {} })) p .empty

/-- A host unload (R310, R312, R313, R452). -/
def unloadRequest (s : State) (p : PartId) : State :=
  if mustQueue s.parts[p] then queueRequest s p .hostUnload
  else
    let s0 := setCause s p 0
    let s1 := if s0.parts[p].load.isSome then abortLoad s0 p cAbortedRequest else s0
    let x := s1.parts[p]
    if x.flow.drain.isSome || x.flow.scrub.isSome then s1
    else if x.active.isSome then beginDrain s1 p .unload
    else becomeEmpty s1 p

/-! ### Writing records (R209, R270-R278) -/

/-- Compass number of a piece-local port; the local port is unchanged (R197). -/
def portMap (code : Fin 8) (j : Nat) : Nat := if j = 4 then 4 else (dirIdx (facing code j)).val

/-- Piece-local port of a compass number. -/
def portUnmap (code : Fin 8) (c : Nat) : Nat := ((List.range 5).find? (fun j => decide (portMap code j = c))).getD 4

/-- A route entry with its ports rewritten (R197). -/
def routeEntry (code : Fin 8) (w : Nat) : RouteEntry :=
  { enable := bitOf w 0, lane := BitVec.ofNat 3 (field w 8 6),
    mask := BitVec.ofNat 5 ((List.range 5).map (fun c => boolNat (bitOf w (1 + portUnmap code c)) * 2 ^ c)).sum }

/-- The context that a 512-byte context image gives a tile; registers and flip-flops take their initial values as it lands. -/
def contextOf (code : Fin 8) (c : List Byte) : Context :=
  let cells : Vector (BitVec 64) 8 := Vector.ofFn (fun k : Fin 8 => BitVec.ofNat 64 (leAt c (192 + 8 * k.val) 8))
  let init : Vector Word 32 := Vector.ofFn (fun k : Fin 32 => BitVec.ofNat 32 (leAt c (64 + 4 * k.val) 4))
  { use := .staged,
    route := Vector.ofFn (fun k : Fin 30 => routeEntry code (leAt c (2 * (6 * portUnmap code (k.val / 6) + k.val % 6)) 2)),
    micro := c.drop 256, gInit := init, g := init, cells := cells, ff := cells.map (fun w => w.getLsbD 38) }

/-- The context of a tile that a load is writing. -/
def loadCtx (t : Tile) : Option (Fin 4) := ([0, 1, 2, 3] : List (Fin 4)).find? (fun k => decide ((t.ctx[k]).use = .staged))

/-- The lowest-numbered empty context (R303). The active one is never written, so a cold load's is the lowest but that (R91). -/
def spareCtx (t : Tile) : Option (Fin 4) :=
  ([0, 1, 2, 3] : List (Fin 4)).find? (fun k => decide (k ≠ t.active) && decide ((t.ctx[k]).use = .empty))

/-- The context that a load writes in a tile: an image occupies exactly one (R91). -/
def contextPlace (t : Tile) : Option (Fin 4) := loadCtx t <|> spareCtx t

def writeContext (t : Tile) (c : Context) : Tile :=
  match contextPlace t with
  | some k => { t with ctx := t.ctx.set k.val c k.isLt }
  | none => t

/-- Set the initial value of a register in the context being loaded (R273, R274). A write where none is being loaded would reach the
active context: it is ignored and counted (R91; DEDUCED, log entry 84). -/
def setInit (reg : Nat) (v : Word) (t : Tile) : Tile :=
  match loadCtx t with
  | none => { t with counters := { t.counters with configErr := satInc t.counters.configErr } }
  | some k =>
    let r : Fin 32 := Fin.ofNat 32 reg
    let c := t.ctx[k]
    { t with ctx := t.ctx.set k.val { c with gInit := c.gInit.set r.val v r.isLt, g := c.g.set r.val v r.isLt } k.isLt }

/-- Is the gate that link `d` of a tile crosses open under a placement (R206); none toward the perimeter. -/
def gateOpen (pl : Placement) (t : Nat) (d : Dir) : Option Bool :=
  let x := t % 600
  let y := t / 600
  let edge : Bool := match d with
    | .n => y % 120 = 0
    | .e => x % 120 = 119
    | .s => y % 120 = 119
    | .w => x % 120 = 0
  let rs := placedRegions pl
  if edge then (regionNbr (tileRegion t) d).map (fun n => (rs.zip (rs.drop 1)).any (fun ab =>
    decide (ab = (tileRegion t, n)) || decide (ab = (n, tileRegion t))))
  else some true

/-- R209 on one tile's context: no entry, enabled or not, names a port whose link crosses a closed gate or the perimeter. -/
def routesConfined (pl : Placement) (t : Nat) (c : Context) : Bool :=
  c.route.toList.all (fun e => ([0, 1, 2, 3] : List Nat).all (fun k =>
    !e.mask.getLsbD k || gateOpen pl t (dirOf k) = some true))

/-- The lowest free run of `n` codewords in a tile (R274). -/
def findRun (cs : List Claim) (tile n : Nat) : Option Nat :=
  let here := cs.filter (fun c => c.tile = tile)
  let starts := 0 :: here.map (fun c => c.base + c.length)
  let ok := starts.filter (fun b => b + n ≤ 2048 && here.all (fun c => b + n ≤ c.base || c.base + c.length ≤ b))
  match ok with
  | [] => none
  | b :: bs => some (bs.foldl min b)

/-- Place one extent and write its base register; none when it does not fit. -/
def placeExtent (s : State) (p : PartId) (tile n reg : Nat) (blob : Option (List Byte)) : Option (State × Nat) :=
  (findRun s.parts[p].fabric.claims tile n).map (fun b =>
    let s1 := updFabric s p (fun f => { f with claims := f.claims ++ [{ tile := tile, base := b, length := n, use := .staged, blob := blob }] })
    (updTile s1 tile (setInit reg (BitVec.ofNat 32 b)), b))

/-- Place extents in order. -/
def placeExtents (s : State) (p : PartId) (pp : PlacedPiece) : List ExtEntry → Option State
  | [] => some s
  | e :: es => match placeExtent s p (pieceTile pp e.p e.q) e.length e.base none with
    | some r => placeExtents r.1 p pp es
    | none => none

/-- Is a blob shared with the running image: equal digest, same region and orientation of its piece (R21, R278)? -/
def sharedBlob (s : State) (p : PartId) (r : Rec) (b : BlobRec) (pp : PlacedPiece) : Bool :=
  match s.parts[p].active, s.parts[p].placement with
  | some old, some pl => old.recs.any (fun y => match y.body with
      | .blob c => decide (c.digest = b.digest) && decide (y.piece = r.piece) && usedRec pl y &&
        (match pieceForm pl y.piece with | some q => decide (q.region = pp.region) && decide (q.code = pp.code) | none => false)
      | _ => false)
  | _, _ => false

/-- A shared blob takes the base of the running copy in every tile (R274). -/
def shareBlob (s : State) (p : PartId) (b : BlobRec) (pp : PlacedPiece) : State :=
  (rectTiles b.rect).foldl (fun s t =>
    let k := pieceTile pp t.1 t.2
    match s.parts[p].fabric.claims.find? (fun c => decide (c.tile = k) && decide (c.use = .inUse) && decide (c.blob = some b.digest)) with
    | none => s
    | some c => updTile (updFabric s p (fun f => { f with claims := f.claims ++ [{ c with use := .staged }] })) k
        (setInit b.baseReg (BitVec.ofNat 32 c.base))) s

/-- Place a blob tile by tile and write its data. -/
def placeBlob (s : State) (p : PartId) (b : BlobRec) (pp : PlacedPiece) (data : List Byte) : List (Nat × Nat) → Option State
  | [] => some s
  | t :: ts =>
    let k := pieceTile pp t.1 t.2
    match placeExtent s p k b.codewords b.baseReg (some b.digest) with
    | none => none
    | some r =>
      let n := 8 * b.codewords
      let s1 := { r.1 with mem := Memory.writeBytes r.1.mem (memAddr k r.2 8) (data.take n) }
      placeBlob s1 p b pp (data.drop n) ts

/-- What writing a record answers. -/
inductive Wrote where
  | done (s : State)
  /-- a tile has no spare context (R21), or an extent finds no run (R274) -/
  | noFit
  | refuse (cause : Nat)

/-- Is a record a blob that the running image shares, whose DATA a staged load does not stream (R278)? -/
def sharesBlob (s : State) (p : PartId) (pl : Placement) (r : Rec) : Bool :=
  match pieceForm pl r.piece, r.body with
  | some pp, .blob b => usedRec pl r && sharedBlob s p r b pp
  | _, _ => false

/-- Does a streamed record's DIGEST fail (R240, R278)? -/
def digestFails (r : Rec) (bs : List Byte) : Bool :=
  match r.body with
  | .blob b => !isSkippedBlob bs && decide (sha256 (bs.drop 48) ≠ b.digest)
  | _ => false

/-- Write a used record into the context, the block memory or nothing (R257, R278, R286). -/
def writeRecord (s : State) (p : PartId) (pl : Placement) (r : Rec) (bs : List Byte) : Wrote :=
  match pieceForm pl r.piece with
  | none => .done s
  | some pp =>
    if digestFails r bs then .refuse cDecrypt
    else if !usedRec pl r then .done s
    else match r.body with
      | .context rect img =>
        let c := contextOf pp.code img
        let ts := (rectTiles rect).map (fun t => pieceTile pp t.1 t.2)
        if !ts.all (fun t => routesConfined pl t c) then .refuse cRoute
        else if !ts.all (fun t => (contextPlace (getTile s t)).isSome) then .noFit
        else .done (ts.foldl (fun s t => updTile s t (fun x => writeContext x c)) s)
      | .regs es => .done (es.foldl (fun s e => updTile s (pieceTile pp e.p e.q) (setInit e.reg e.value)) s)
      | .extent es => match placeExtents s p pp es with
        | some s1 => .done s1
        | none => .noFit
      | .queue q => match placeExtents s p pp (q.segs ++ q.spill) with
        | some s1 => .done s1
        | none => .noFit
      | .blob b =>
        if isSkippedBlob bs then .done (shareBlob s p b pp)
        else match placeBlob s p b pp (bs.drop 72) (rectTiles b.rect) with
          | some s1 => .done s1
          | none => .noFit
      | _ => .done s

/-- A staged image that does not fit is loaded cold: what it staged is discarded and the partition runs on until the drain of
the cold reload (R304, R307). -/
def turnCold (s : State) (p : PartId) : State :=
  match s.parts[p].load with
  | none => s
  | some l =>
    let s1 := updLoad (freeLanes (dropStaged s p) p) p (fun l => { l with staged := false, checked := false })
    let s2 := joinLanes s1 p
    -- the cold reload streams the image again after its contract section
    let front : Image := { l.image with recs := l.image.recs.filter (fun r => sectionOf r.type ≤ 3) }
    let n := 64 + (front.recs.map (fun r => 16 + r.length)).sum
    let s3 := updLoad s2 p (fun l => { l with image := front, bytes := n, chunk := n / 65536, plain := [], got := [], skipped := 0, sha := l.frontSha })
    trialCold s3 p true

/-- A group's application fails: a staged load is aborted and the old image runs on; a cold one ends in FAULT_HELD, its claims
kept (R287, R315, R450). -/
def failGroup (s : State) (p : PartId) (g : Nat) : State :=
  match s.parts[p].load with
  | none => s
  | some l =>
    if l.staged then restartInput (keepOldImage (setCause (logPart s p cGroupFailed g) p (causeOf cGroupFailed)) p) p
    else faultEntry s p .faultHeld cGroupFailed g

/-- Does a claim hold a tile's codeword? -/
def claimHolds (k w : Nat) (c : Claim) : Bool := c.tile = k && c.base ≤ w && w < c.base + c.length

/-- Of the codewords that a record has just written through port B, those that the running image's port A wrote at the same time keep
what they held, and each drop is counted (R98). -/
def dropCollided (s s1 : State) (p : PartId) (hits : List (TileAt × Nat)) : State :=
  let written := (s1.parts[p].fabric.claims).drop (s.parts[p].fabric.claims).length
  hits.foldl (fun u h =>
    let k := tileKey h.1.x h.1.y
    if written.any (fun c => c.blob.isSome && claimHolds k h.2 c) then
      let u1 := updTile u k (fun t => { t with counters := { t.counters with collision := satInc t.counters.collision } })
      { u1 with mem := Memory.writeBytes u1.mem (memAddr k h.2 8) (Memory.readBytes s.mem (memAddr k h.2 8) 8) }
    else u) s1

/-- The next record of the verified plaintext, once it is there whole: its header and 56 bytes of body for a shared blob of a staged
load, and what is left where the image ends within it (R240, R253, R278). -/
def nextRecord (s : State) (p : PartId) (l : Load) : Option (List Byte) :=
  let head := l.plain.take 72
  let shared := l.staged && isSkippedBlob head &&
    (match readRecord l.image.header head with | .ok r => sharesBlob s p l.placement r | .error _ => false)
  let n := if shared then 72 else 16 + leAt l.plain 4 4
  if 16 ≤ l.plain.length ∧ n ≤ l.plain.length then some (l.plain.take n)
  else if l.chunk = chunkCount l.slot ∧ l.plain ≠ [] then some l.plain
  else none

/-- The stream moves on by `n` bytes; chunks that lie in skipped DATA are not read (R240). -/
def advanceStream (l : Load) (n : Nat) : Load :=
  { l with bytes := l.bytes + n, plain := l.plain.drop n, chunk := max l.chunk ((l.bytes + n) / 65536) }

/-- A streamed record (R288 check 5, R257, R274, R287). -/
def streamRecord (s : State) (p : PartId) (l : Load) (bs : List Byte) (readsBack : Bool) (hits : List (TileAt × Nat)) : State :=
  match checkStreamed l.image l.placement bs with
  | .error e => refuseLoad s p e.1 e.2
  | .ok r =>
    let idx := l.image.recs.length
    match writeRecord s p l.placement r bs with
    | .refuse c => refuseLoad s p c (if c = cFormat then idx else 0)
    | .noFit => if l.staged then turnCold s p else refuseLoad s p cContract idx
    | .done s0 =>
      let s1 := if l.staged then dropCollided s s0 p hits else s0
      if !readsBack then failGroup s1 p r.group
      else updLoad s1 p (fun l => { advanceStream l (16 + r.length) with
        image := { l.image with recs := l.image.recs ++ [r] }
        skipped := l.skipped + (16 + r.length - bs.length)
        sha := shaFeed l.sha (digestPart bs) })

/-! ### End of stream and release (R288 checks 6-8, R296 steps 7-9, R303 steps 3-4) -/

/-- Every camera port of the load has reached step 6 of its bring-up. -/
def portsReady (s : State) (i : Image) : Bool :=
  (imgPorts i).all (fun x => (portConns x.2).all (fun c => (s.imgs[c]).shadowReady))

/-- Stage 1 of the Lupin release is broadcast: the commit point of a cold load (R298, R311). -/
def beginLupin (s : State) (p : PartId) : State := updFlow s p (fun f => { f with lupin := some 1 })

/-- DREADY of a piece that enters SPAN_WAIT, and the span state of its ports (R419). -/
def enterSpanWait (s : State) (p : PartId) (x : SpanRec) : State :=
  let s1 := updPart s p (fun y => { y with span := {}, flow := { y.flow with since := now s } })
  let s2 := updLoad (setPState s1 p .spanWait) p (fun l => { l with phase := .spanWait })
  let s3 := (spanPortsOf s2 p).foldl (fun s q => updSpn s q (fun y => { y with span := 1 })) s2
  sendAll s3 p (fun _ => true) (msgReady x.position x.units false x.id)

/-- Once the checks have passed and every port is ready, the load goes on: the staged drain, the rendezvous of a span piece, or
the release, the first of which after a power-up waits for the reservoir (R296 steps 8 and 9, R303 step 4, R445). -/
def advanceLoad (s : State) (p : PartId) : State :=
  match s.parts[p].load with
  | none => s
  | some l =>
    if l.phase = .streaming && l.checked && !s.sup.activating && portsReady s l.image && s.parts[p].flow.lupin.isNone then
      if l.staged then
        if s.parts[p].state = .staged then beginDrain (updLoad s p (fun l => { l with phase := .draining })) p .staged else s
      else match imgSpan l.image with
        | some x => enterSpanWait s p x
        | none => if s.pwr.resReady then beginLupin s p else s
    else if l.phase = .spanWait && s.parts[p].span.due && s.pwr.resReady && s.parts[p].flow.lupin.isNone then beginLupin s p
    else s

/-- Checks 6-8 (R288). -/
def endChecks (s : State) (p : PartId) (l : Load) : State :=
  let d := shaFinish l.sha
  if !check6 l.image l.placement then refuseLoad s p cContract noRecord
  else if !ledgerOk l.image l.placement then refuseLoad s p cLedger 0
  else if !imageSigned s { l.image with digest := d } then refuseLoad s p cSignature 0
  else if d ≠ l.slot.digest then refuseLoad s p cDecrypt 0
  else if !(decide (l.bytes = l.image.header.length) && countsOk l.image) then refuseLoad s p cFormat noRecord
  else advanceLoad (updLoad s p (fun l => { l with checked := true, image := { l.image with digest := d } })) p

/-! ### Commit points (R300, R303 steps 5-7, R306) -/

/-- Queues, timers and stages of an image, empty, with counters at 0 (R156-R158, R276, R277, R300). -/
def freshFabric (i : Image) (pl : Placement) (f : Fabric) : Fabric :=
  { queues := placedQueues i pl
    timers := (imgCycles i).map (fun _ => none)
    stages := ((imgCensusMap i).filter (fun e => !e.isChannel && isTStage e.opcode)).map
      (fun e => { number := e.number, opcode := e.opcode })
    claims := f.claims, postScrub := f.postScrub }

/-- Defaults of the image's tunables, generation 0 (R282, R300, R318). -/
def freshTunables (i : Image) : Tunables :=
  let vals := (imgTunables i).1.map (·.dflt)
  { shadow := Vector.ofFn (fun k : Fin 32 => vals.getD k.val 0), gen := 0, sets := [(0, vals)] }

/-- The registers and flow of a partition whose image has just taken over (R300, R318, and the counters of PRT). -/
def freshRun (i : Image) (pl : Placement) (t : Nat) (x : Partition) : Partition :=
  { x with
    active := some i, placement := some pl, load := none, tun := freshTunables i, fabric := freshFabric i pl x.fabric,
    regs := { x.regs with win := 0, vrd := 0, rej := 0, nacc := 0, ldgGen := (x.regs.ldgGen + 1) % 2 ^ 32 },
    flow := { gap := x.flow.gap, lastRelease := x.flow.lastRelease, inputOpen := true, since := t }, span := {} }

/-- A context takes its initial values (R92). -/
def initContext (c : Context) : Context := { c with use := .inUse, g := c.gInit, ff := c.cells.map (fun w => w.getLsbD 38) }

/-- A tile at a release or switch: its counters are 0 and its stage begins with the image's first window (R105, R176, R300). -/
def freshTile (t : Tile) : Tile :=
  { t with counters := {}, stepped := false, winDone := 0, taken := Vector.replicate 4 0, pos := Vector.replicate 4 0,
           ended := Vector.replicate 4 false, petal := Vector.replicate 4 [], prev := false, red := 0, step := 0, block := 0,
           closing := false, outFlits := 0 }

/-- The tile makes its loaded context active; the context it ran becomes the old image's (R91, R92, R213). -/
def switchTile (t : Tile) : Tile :=
  let old := t.ctx.map (fun c => if c.use = .inUse then { c with use := .old } else c)
  match loadCtx t with
  | none => { freshTile t with ctx := old }
  | some k => { freshTile t with ctx := old.set k.val (initContext old[k]) k.isLt, active := k }

/-- Claims of the image that takes over, and those of the old one until their scrub (R213). -/
def switchClaims (cs : List Claim) : List Claim :=
  cs.map (fun c => if c.use = .inUse then { c with use := .old } else if c.use = .staged then { c with use := .inUse } else c)

/-- Pins pass to the new image; a pin it lacks goes to the old image's fail-safe level, once a pulse has ended (R300, R374). -/
def switchPins (s : State) (p : PartId) (i : Image) : State :=
  { s with pins := Vector.ofFn (fun n : PinId =>
    let x := s.pins[n]
    if x.claimed = some p then
      match pinEntryOf i n with
      | some e => pinClaim e x
      | none => if x.pulsing then x else pinFailSafe x
    else x) }

/-- A camera port's settings take effect and delivery opens; a port of a stream that keeps its settings runs on (R305, R341). Lines under
the settings that it leaves are dropped. -/
def startCam (kept : Bool) (c : ImgConn) : ImgConn :=
  match c.shadow with
  | none => c
  | some x =>
    let c1 := { c with cfg := some x, shadow := none, shadowReady := false }
    if kept then c1
    else { c1 with delivering := true, triggering := decide (x.encoder < 4) && !c.linkDown, anchor := none,
                   due := if c.delivering then [] else c.due, held := if c.delivering then [] else c.held }

/-- A sound port starts at step 1 of R364; one that keeps its settings runs on (R305, R369). -/
def startSnd (kept : Bool) (stim : List (Nat × List (BitVec 16))) (c : Snd) : Snd :=
  match c.shadow with
  | none => c
  | some x =>
    if kept then { c with cfg := some x, shadow := none }
    else { c with cfg := some x, shadow := none, phase := .silent, clockOk := x.master, asrcLocked := false, clockLost := false,
                  rateError := false, mismatch := false, silentLeft := x.silent, buffer := [], outSamples := [], blockIn := [], frame := 0,
                  playFrame := 0, underrun := true, rampLeft := 0, stimulus := stim, driving := x.master || x.mclk,
                  rate := if x.master then 1000 * x.frameRate else 0 }

/-- Ports of the image start (R296 step 10, R305); `old` is the image that a staged commit replaces. -/
def startPorts (s : State) (i : Image) (old : Option Image) : State :=
  { s with
    imgs := Vector.ofFn (fun c : ImgId => match connPort i c with
      | none => s.imgs[c]
      | some x => startCam (match old with | some o => camKept o i x.2 | none => false) s.imgs[c])
    snds := Vector.ofFn (fun c : SndId => match sndPortOf i c with
      | none => s.snds[c]
      | some x => startSnd (match old with | some o => sndKept o i x.2 | none => false) (portStimuli i x.2.port) s.snds[c]) }

/-- Stage 3 of the Lupin release is acknowledged: the partition runs (R300). -/
def commitRelease (s : State) (p : PartId) : State :=
  match s.parts[p].load with
  | none => s
  | some l =>
    let i := l.image
    let s1 := freeLanes (closeExport s p) p
    let s2 := mapTiles s1 (placedRegions l.placement) switchTile
    let s3 := updPart s2 p (freshRun i l.placement (now s))
    let s4 := updFabric s3 p (fun f => { f with claims := switchClaims f.claims })
    let s5 := startPorts (switchPins s4 p i) i none
    let s6 := mapRegions s5 (placedRegions l.placement) (fun g => { g with demand := 720, intervals := [] })
    let s7 := (spanPortsOf s6 p).foldl (fun s q => updSpn s q (fun y =>
      { y with span := 3, drained := Vector.replicate 4 0, ddrained := 0 })) s6
    setPState s7 p .running

/-- The context switch of a staged reload (R303 steps 5 and 6, R306). The gates of the regions beyond L' close before their scrub
(R205, R208). -/
def commitSwitch (s : State) (p : PartId) : State :=
  match s.parts[p].load, s.parts[p].active with
  | some l, some old =>
    let i := l.image
    let beyond := (runRegions s p).filter (fun r => !(placedRegions l.placement).contains r)
    let s1 := freeLanes (closeExport s p) p
    let s2 := mapTiles s1 (runRegions s p) switchTile
    let s3 := updPart s2 p (freshRun i l.placement (now s))
    let s4 := updFabric s3 p (fun f => { f with claims := switchClaims f.claims, postScrub := some beyond })
    let s5 := startPorts (switchPins (closeAllGates s4 beyond) p i) i (some old)
    restartInput s5 p
  | _, _ => s

/-- Ports, pins and regions that the new image does not claim are released (R303 step 7). -/
def releaseUnclaimed (s : State) (p : PartId) (i : Image) : State :=
  { s with
    imgs := Vector.ofFn (fun c : ImgId =>
      let x := s.imgs[c]
      if x.owner = some p && (connPort i c).isNone then
        { x with owner := none, cfg := none, shadow := none, shadowReady := false, ready := false, delivering := false,
                 triggering := false, waiting := [], due := [], held := [], overdue := 0, linkDown := false, mismatch := false,
                 locked := false, anchor := none }
      else x)
    snds := Vector.ofFn (fun c : SndId =>
      let x := s.snds[c]
      if x.owner = some p && (sndPortOf i c).isNone then
        { x with owner := none, stimulus := [], outSamples := [], blockIn := [], buffer := [], phase := .stopping,
                 silentLeft := (match x.cfg with | some y => y.silent | none => 0) }
      else x)
    pins := Vector.ofFn (fun n : PinId =>
      let x := s.pins[n]
      if x.claimed = some p && (pinEntryOf i n).isNone then
        { (if x.pulsing then { x with pulseEntry := x.pulseEntry <|> x.entry } else pinFailSafe x) with
          claimed := none, entry := none, loading := none }
      else x) }

/-! ### The end of a drain (R301, R302, R307, R308, R341, R364, R420) -/

/-- Ports after the drain of a cold reload: those whose settings the new image repeats stay trained (R341). -/
def portsAfterDrain (s : State) (p : PartId) (old new : Image) : State :=
  { s with
    imgs := Vector.ofFn (fun c : ImgId =>
      let x := s.imgs[c]
      if x.owner = some p then
        match connPort old c with
        | none => x
        | some _ =>
          let x1 := { x with delivering := false, triggering := false, waiting := [], due := [], held := [], overdue := 0, anchor := none }
          match connPort new c with
          | none => { x1 with owner := none, cfg := none, ready := false, linkDown := false, mismatch := false, locked := false }
          | some y => if camRepeated old new y then x1
                      else { x1 with cfg := none, ready := false, linkDown := false, mismatch := false, locked := false }
      else x)
    snds := Vector.ofFn (fun c : SndId =>
      let x := s.snds[c]
      if x.owner = some p && (sndPortOf old c).isSome then
        { x with owner := if (sndPortOf new c).isSome then some p else none, stimulus := [], outSamples := [], blockIn := [], buffer := [],
                 phase := .stopping, silentLeft := (match x.cfg with | some y => y.silent | none => 0) }
      else x) }

/-- Pins after the drain hold their fail-safe level; the old image's claims end (R308). -/
def pinsAfterDrain (s : State) (p : PartId) : State :=
  updPins (failPins s p) (fun x => if x.claimed = some p then
    { x with entry := none, claimed := if x.loading.isSome then some p else none } else x)

/-- The image has drained: it runs no more and its regions' scrub begins (R308, R208, R211). -/
def endImage (s : State) (p : PartId) (why : ScrubWhy) : State :=
  let s1 := cancelCensus (closeExport (endGap s p) p) p
  let s2 := closeAllGates s1 (heldRegions s1 p)
  let s3 := mapRegions s2 (heldRegions s2 p) (fun g => setVdd 720 { g with intervals := [] })
  updPart s3 p (fun x => { x with
    active := none, tun := {}, span := {},
    flow := { stopFlow x.flow with scrub := some why } })

end Sys2Proof.Machine
end

