-- ==== Sys2Proof/Machine/Supply.lean ====
section
/-! DEFINITION. The configuration-network tree (R74, R437), region voltage (R426-R430), ranks of the cap loop (R433, R434),
the save record (R442), life records (R250, R251). -/

namespace Sys2Proof.Machine

/-! ### The configuration-network tree (R74) -/

/-- The neighbour of a site. -/
def siteNbr (k : SiteId) : Dir → Option SiteId
  | .n => if 10 ≤ k.val then some (Fin.ofNat 80 (k.val - 10)) else none
  | .e => if k.val % 10 < 9 then some (Fin.ofNat 80 (k.val + 1)) else none
  | .s => if k.val < 70 then some (Fin.ofNat 80 (k.val + 10)) else none
  | .w => if 0 < k.val % 10 then some (Fin.ofNat 80 (k.val - 1)) else none

/-- Is the site's region powered? -/
def sitePowered (s : State) (k : SiteId) : Bool := (s.regions[siteRegion k]).supplyOn

/-- A hop passes unless its test failed at either end, between powered sites. -/
def hopPasses (s : State) (k : SiteId) (d : Dir) (j : SiteId) : Bool :=
  !s.wafer.badHops.contains (k, d) && !s.wafer.badHops.contains (j, opposite d) && sitePowered s k && sitePowered s j

/-- The four entry sites. -/
def entrySite : Fin 4 → SiteId
  | 0 => 71
  | 1 => 73
  | 2 => 76
  | 3 => 78

/-- Does an entry site pass: supply in service, link from the I/O board good, not holed but for reachability? -/
def entryPasses (s : State) (m : DefMap) (e : Fin 4) : Bool :=
  let k := entrySite e
  sitePowered s k && !s.wafer.badEntries.contains e && decide ((m.sites[k]).cause % 8 = 0)

/-- Join the unjoined neighbours of the frontier's sites, in order; the sites joined. -/
def joinSites (s : State) (frontier : List SiteId) (t : Vector (Option TreeNode) 80) : Vector (Option TreeNode) 80 × List SiteId :=
  frontier.foldl (fun acc k => allDirs.foldl (fun acc d =>
    match siteNbr k d with
    | none => acc
    | some j =>
      match acc.1[k] with
      | none => acc
      | some n =>
        if acc.1[j].isNone && hopPasses s k d j then
          (acc.1.set j.val (some { depth := n.depth + 1, root := n.root, parent := some k }) j.isLt, j :: acc.2)
        else acc) acc) (t, [])

def growTree (s : State) : Nat → List SiteId → Vector (Option TreeNode) 80 → Vector (Option TreeNode) 80
  | 0, _, t => t
  | n + 1, frontier, t =>
    let r := joinSites s frontier t
    if r.2.isEmpty then r.1 else growTree s n (allSites.filter (fun k => r.2.contains k)) r.1

/-- The procedure of R74. -/
def formTree (s : State) (m : DefMap) : Vector (Option TreeNode) 80 :=
  let roots := ([0, 1, 2, 3] : List (Fin 4)).filter (entryPasses s m)
  let t0 := roots.foldl (fun t e => t.set (entrySite e).val (some { depth := 0, root := e, parent := none }) (entrySite e).isLt)
    (Vector.replicate 80 (none : Option TreeNode))
  growTree s 80 (allSites.filter (fun k => roots.any (fun e => decide (entrySite e = k)))) t0

/-- Re-form the tree; a powered region that it no longer reaches is unreachable until the next power cycle (R436, R437). -/
def reformTree (s : State) : State :=
  let s1 := { s with wafer := { s.wafer with tree := formTree s (curMap s) } }
  (allRegions.filter (fun r => (s1.regions[r]).supplyOn && !reachable s1 r && !(s1.regions[r]).unreachable)).foldl
    (fun s r => logPlain (updRegion s r (fun g => { g with unreachable := true })) 0x0206 r.val) s1

/-! ### Region voltage (R426, R427) -/

/-- The cap ceiling of a region's partition; 0.85 V where there is none. -/
def capCeilOf (s : State) (r : RegionId) : Nat :=
  match (s.regions[r]).owner with
  | some p => (s.parts[p].regs.capCeil).getD 850
  | none => 850

/-- VDD of a region whose partition runs: the least of demand and ceilings, not below the supply's 0.60 V (R425, R427; DEDUCED,
log entry 20). -/
def governedVdd (s : State) (r : RegionId) : Nat :=
  let g := s.regions[r]
  max 600 (min (min g.demand g.throttleCeil) (min g.currentCeil (capCeilOf s r)))

/-- Set VDD by R427; a change starts a new run of intervals (R429). -/
def govern (s : State) (r : RegionId) : State :=
  let g := s.regions[r]
  match g.owner with
  | none => s
  | some p =>
    if g.supplyOn && isServing s.parts[p].state then
      let v := governedVdd s r
      if v = g.vdd then s else updRegion s r (fun g => { g with vdd := v, intervals := [] })
    else s

def governAll (s : State) : State := allRegions.foldl govern s

/-! ### The rate loop (R428-R430) -/

/-- Host margin in force less what the cap loop has taken, in points. -/
def marginInForce (s : State) (p : PartId) : Nat := s.pwr.force.margin[p] - s.parts[p].regs.marginTaken

/-- The shortest run of latest intervals with at least 8 windows, as (windows, busy samples). -/
def rateSpan : List (Nat × Nat) → Nat → Nat → Option (Nat × Nat)
  | [], _, _ => none
  | (w, b) :: rest, aw, ab => if 8 ≤ aw + w then some (aw + w, ab + b) else rateSpan rest (aw + w) (ab + b)

/-- The run to judge: the shortest with 8 windows, or the latest 10,000 intervals once there are so many. -/
def rateRun (xs : List (Nat × Nat)) : Option (Nat × Nat) :=
  match rateSpan xs 0 0 with
  | some r => some r
  | none => if 10000 ≤ xs.length then some ((xs.map (·.1)).sum, (xs.map (·.2)).sum) else none

/-- A(r) < num / den windows per second, exactly; `b` samples are 16 b ns. -/
def rateBelow (w b num den : Nat) : Bool := w * 1000000000 * den < num * (16 * b)

/-- Cause bits of R430: the ceilings that hold VDD below the demand, or the 0.85 V maximum. -/
def breachBits (s : State) (r : RegionId) : Nat :=
  let g := s.regions[r]
  boolNat (capCeilOf s r ≤ g.vdd && g.vdd < g.demand) + 2 * boolNat (g.throttleCeil ≤ g.vdd && g.vdd < g.demand) +
  4 * boolNat (g.currentCeil ≤ g.vdd && g.vdd < g.demand) + 8 * boolNat (g.vdd = 850)

/-- An evaluation finds the floor breached: bits set, and the episode's first is signalled and logged (R430). -/
def floorBreach (s : State) (p : PartId) (bits : Nat) : State :=
  let opened := s.parts[p].regs.breachOpen
  let s1 := updPartRegs s p (fun x => { x with breachCause := x.breachCause ||| BitVec.ofNat 4 bits, floorBreach := true,
                                               breachOpen := true, breachQuiet := 0 })
  if opened then s1 else irq (logPart s1 p 0x0180 bits) 18

/-- One region's evaluation; the answer says whether it found a breach. -/
def rateLoop (s : State) (p : PartId) (floor w b : Nat) (r : RegionId) : State × Bool :=
  let g := s.regions[r]
  let xs := ((w, b) :: g.intervals).take 10000
  let num := floor * (102 + marginInForce s p)
  let judged := match rateRun xs with
    | some (sw, sb) => if sw = 0 ∨ sb = 0 then none else some (sw, sb)
    | none => none
  let d := match judged with
    | none => g.demand
    | some (sw, sb) =>
      if rateBelow sw sb num 100 then g.demand + 5
      else if !rateBelow sw sb (103 * num) 10000 then g.demand - 5
      else g.demand
  let rate := match judged with
    | none => g.rate
    | some (sw, sb) => sw * 1000000000 / (16 * sb)
  let s1 := govern (updRegion s r (fun g => { g with intervals := xs, demand := max 600 (min 850 d), rate := rate })) r
  match judged with
  | none => (s1, false)
  | some (sw, sb) =>
    let bits := breachBits s1 r
    if rateBelow sw sb floor 1 && bits ≠ 0 then (floorBreach s1 p bits, true) else (s1, false)

/-! ### Ranks (R433) -/

/-- Partitions the cap loop considers, highest-ranked first: by priority, then number. -/
def ranked (s : State) : List PartId :=
  ((List.range 8).map (fun pr => allParts.filter (fun p => decide ((s.pwr.force.prio[p]) = pr) && isServing s.parts[p].state))).flatten

/-! ### The save record (R442) -/

def savePart (s : State) (p : PartId) : SavePart :=
  let x := s.parts[p]
  { state := stateCode x.state, cause := x.regs.cause, ldgGen := x.regs.ldgGen,
    digest := (match x.active with | some i => i.digest | none => zeros 32),
    win := x.regs.win, vrd := x.regs.vrd, rej := x.regs.rej, nacc := x.regs.nacc, lastSeq := x.flow.seq - 1, gen := x.tun.gen }

def saveThermal (s : State) (r : RegionId) : SaveThermal :=
  let g := s.regions[r]
  { temp := g.temp, vdd := g.vdd, demand := g.demand, throttle := g.throttleCeil, highest := g.tempHigh,
    steps := g.throttleSteps, sheds := g.sheds, episodes := g.iEpisodes }

/-- The current save record: the copy with the higher SEQ. -/
def curSave (s : State) : Option SaveRec :=
  match s.nv.saveA, s.nv.saveB with
  | some a, some b => if b.seq ≤ a.seq then some a else some b
  | some a, none => some a
  | none, b => b

/-- Write the older copy (R442). -/
def writeSave (s : State) (at0 : State) (cause : Nat) : State :=
  let r : SaveRec := {
    cause := cause, seq := (match curSave s with | some r => r.seq + 1 | none => 0), powerOn := s.glb.powerOn, time := now at0,
    parts := allParts.map (savePart at0), cap := s.pwr.force.cap, binding := s.pwr.force.binding,
    prio := s.pwr.force.prio.toList, margin := s.pwr.force.margin.toList, thermal := allRegions.map (saveThermal at0),
    tail := s.flt.entries.take 1972 }
  match s.nv.saveA, s.nv.saveB with
  | none, _ => { s with nv := { s.nv with saveA := some r } }
  | some _, none => { s with nv := { s.nv with saveB := some r } }
  | some a, some b => if b.seq ≤ a.seq then { s with nv := { s.nv with saveB := some r } } else { s with nv := { s.nv with saveA := some r } }

/-- A save cut off by the reservoir: the older copy is torn, its header being written last, and the current one stays (R442). -/
def tearSave (s : State) : State :=
  match s.nv.saveA, s.nv.saveB with
  | some a, some b => if b.seq ≤ a.seq then { s with nv := { s.nv with saveB := none } } else { s with nv := { s.nv with saveA := none } }
  | _, _ => s

/-- The 65,536 bytes of a save record. -/
def saveBytes (r : SaveRec) : List Byte :=
  let padTo := fun (n : Nat) (bs : List Byte) => bs ++ zeros (n - bs.length)
  let head := leBytes 4 0x45564153 ++ leBytes 2 1 ++ leBytes 1 r.cause ++ zeros 1 ++ leBytes 4 r.seq ++ leBytes 4 r.powerOn ++
    leBytes 8 r.time ++ leBytes 4 65536 ++ zeros 32
  let part := fun (x : SavePart) => padTo 128 (leBytes 1 x.state ++ leBytes 1 x.cause ++ zeros 2 ++ leBytes 4 x.ldgGen ++
    padTo 32 x.digest ++ leBytes 8 x.win ++ leBytes 8 x.vrd ++ leBytes 8 x.rej ++ leBytes 8 x.nacc ++ leBytes 4 x.lastSeq ++
    leBytes 2 x.gen)
  let policy := padTo 64 (leBytes 2 r.cap ++ leBytes 1 (boolNat r.binding) ++ zeros 5 ++
    (r.prio.map (leBytes 1)).flatten ++ (r.margin.map (leBytes 1)).flatten)
  let therm := fun (x : SaveThermal) => padTo 64 (leBytes 2 (twos 16 x.temp) ++ leBytes 2 x.vdd ++ leBytes 2 x.demand ++
    leBytes 2 x.throttle ++ leBytes 2 (twos 16 x.highest) ++ zeros 2 ++ leBytes 4 x.steps ++ leBytes 4 x.sheds ++
    leBytes 4 x.episodes)
  padTo 65536 (head ++ leBytes 4 (crc32c head) ++ (r.parts.map part).flatten ++ policy ++ (r.thermal.map therm).flatten ++
    (r.tail.map logEntryBytes).flatten)

/-! ### Life records (R247, R249-R251) -/

/-- Wear sources that apply (R247). -/
def wearOf (b : Bay) : BitVec 3 :=
  BitVec.ofNat 3 (boolNat (b.insertions ≥ 4500) + 2 * boolNat (b.stateWrites ≥ 90000) +
    4 * boolNat (b.smartCritical ≠ 0 || b.smartUsed ≥ 90))

/-- May a life record be written: an accepted cartridge, which a refused load does not refuse (R251, R252)? -/
def writable (b : Bay) : Bool := b.accepted && b.power

/-- The 512 bytes of a life record (R250). -/
def lifeBytes (serial : Nat) (b : BayId) (r : LifeRec) : List Byte :=
  let body := leBytes 4 0x4546494C ++ leBytes 4 r.seq ++ leBytes 8 serial ++ leBytes 1 r.kind ++ leBytes 1 b.val ++ zeros 2 ++
    leBytes 4 r.powerOn ++ leBytes 8 r.time ++ leBytes 8 r.windows ++ leBytes 8 r.verdicts ++ leBytes 8 r.rejects ++
    leBytes 4 r.insertions ++ leBytes 4 r.hours ++ r.digest ++ zeros 412
  body ++ leBytes 4 (crc32c body)

/-- The write of a life record to block SEQ mod 2,048 of the ring, and the Flush after it (R229, R249, R251). -/
def lifeCmds (serial : Nat) (b : BayId) (r : LifeRec) : List NvmeCmd :=
  [{ admin := false, opcode := 0x01, ns := 2, lba := r.seq % 2048, blocks := 1, data := lifeBytes serial b r },
   { admin := false, opcode := 0x00, ns := 2 }]

/-- INCREMENT of a counter in the secure element (R241, R246). -/
def seIncrement (k : Nat) : List Byte := leBytes 1 0x05 ++ leBytes 1 k

/-- Write one life record of a kind, with the window counts of the bay's partition. STATE_WRITES is incremented first (R246). -/
def writeLife (s : State) (b : BayId) (kind : Nat) : State :=
  let x := s.parts[b]
  let y := s.bays[b]
  let r : LifeRec := { seq := y.lifeSeq, kind := kind, powerOn := s.glb.powerOn, time := now s, windows := x.regs.win,
                       verdicts := x.regs.vrd, rejects := x.regs.rej, insertions := y.insertions, hours := y.hours,
                       digest := (match x.active with | some i => i.digest | none => zeros 32) }
  updBay s b (fun y => { y with
    stateWrites := satInc y.stateWrites, seSent := y.seSent ++ [seIncrement 1], lifeSeq := y.lifeSeq + 1, lifeLast := some r
    writes := y.writes ++ lifeCmds s.glb.serial.toNat b r })

end Sys2Proof.Machine
end

