-- ==== Sys2Proof/Machine/Power.lean ====
section
/-! DEFINITION. Power, heat and supply loss: the region governors, the throttle governors, host policy, the cap loop, a region
short circuit, a supply sag, cooling (R424-R447). -/

namespace Sys2Proof.Machine

/-! ### RATE_LOOP_TICK (R428-R430) -/

/-- A 100 us tick of the rate loop in one partition: each of its regions is judged, then the interval's window count restarts. A
breach episode ends after 100 ms, 1,000 evaluations, without a breach. -/
def rateTickPart (busy : List (RegionId × Nat)) (s : State) (p : PartId) : State :=
  let x := s.parts[p]
  if !isServing x.state then s
  else
    let floor := (imgContract (x.active.getD {})).rateFloor
    let r := (runRegions s p).foldl (fun acc r =>
      let o := rateLoop acc.1 p floor x.flow.interval ((busy.lookup r).getD 0) r
      (o.1, acc.2 || o.2)) (s, false)
    let s1 := updFlow r.1 p (fun f => { f with interval := 0 })
    if r.2 then s1
    else updPartRegs s1 p (fun y => { y with breachQuiet := if y.breachOpen then y.breachQuiet + 1 else 0,
                                             breachOpen := y.breachOpen && decide (y.breachQuiet + 1 < 1000) })

def execRateLoopTick (busy : List (RegionId × Nat)) (s : State) : Host.Outcome State Fault Refusal :=
  whenUp s (allParts.foldl (rateTickPart busy) s)

/-! ### CURRENT_CEILING_TICK (R427) -/

/-- Above 180 A the ceiling becomes VDD - 5 mV, within the supply's range; below 170 A it rises by 5 mV, up to 0.85 V. Currents are
in 0.1 A. -/
def currentCeiling (amps : Nat) (g : Region) : Region :=
  let c := if 1800 < amps then max 600 (g.vdd - 5) else if amps < 1700 then min 850 (g.currentCeil + 5) else g.currentCeil
  { g with current := amps, currentCeil := c,
           iEpisodes := if g.currentCeil = 850 && c < 850 then satInc g.iEpisodes else g.iEpisodes }

def execCurrentCeilingTick (amps : List (RegionId × Nat)) (s : State) : Host.Outcome State Fault Refusal :=
  whenUp s (amps.foldl (fun s a => if (s.regions[a.1]).supplyOn then govern (updRegion s a.1 (currentCeiling a.2)) a.1 else s) s)

/-! ### THROTTLE_TICK (R431) -/

/-- The region the throttle lowers: the hottest above 95 C with a ceiling above 0.60 V, the lowest n among equals. -/
def hottest (s : State) : Option RegionId :=
  allRegions.foldl (fun best r =>
    let g := s.regions[r]
    if g.supplyOn && decide (950 < g.temp) && decide (600 < g.throttleCeil) then
      match best with
      | none => some r
      | some b => if (s.regions[b]).temp < g.temp then some r else best
    else best) none

/-- A lowering step, counted and signalled; the first of an episode is logged. -/
def throttleDown (s : State) (r : RegionId) : State :=
  let g := s.regions[r]
  let s1 := irq (updRegion s r (fun g => { g with
    throttleCeil := g.throttleCeil - 10, throttleAge := 0,
    throttleSteps := satInc g.throttleSteps, throttleEpisodeSteps := g.throttleEpisodeSteps + 1 })) 18
  if g.throttleCeil = 850 then logPlain s1 0x0203 r.val else s1

/-- A cooled region's ceiling rises once 10 ms have passed since it last changed; at 0.85 V the episode ends. -/
def throttleUp (s : State) (r : RegionId) : State :=
  let g := s.regions[r]
  if g.supplyOn && decide (g.temp < 900) && decide (g.throttleCeil < 850) && decide (10 ≤ g.throttleAge) then
    let s1 := updRegion s r (fun g => { g with throttleCeil := min 850 (g.throttleCeil + 10), throttleAge := 0 })
    if (s1.regions[r]).throttleCeil = 850 then
      logEvent (updRegion s1 r (fun g => { g with throttleEpisodeSteps := 0 })) 0x0203 r.val g.throttleEpisodeSteps 0 true
    else s1
  else s

def execThrottleTick (temps : List (RegionId × Int)) (s : State) : Host.Outcome State Fault Refusal :=
  let s1 := { s with regions := Vector.ofFn (fun r : RegionId =>
    let g := s.regions[r]
    let t := match temps.lookup r with | some t => if g.supplyOn then t else g.temp | none => g.temp
    { g with temp := t, tempHigh := max g.tempHigh t, throttleAge := min 10 (g.throttleAge + 1) }) }
  let h := hottest s1
  let s2 := match h with | some r => throttleDown s1 r | none => s1
  whenUp s (governAll ((allRegions.filter (fun r => decide (h ≠ some r))).foldl throttleUp s2))

/-! ### Regions losing their supply (R432, R436) -/

/-- The converter turns off and the gates quarantine the region: it holds nothing any more. -/
def regionOff (s : State) (r : RegionId) : State :=
  scrubRegions (updRegion (closeGates s r) r
    (fun g => { g with supplyOn := false, vdd := 0, demand := 0, intervals := [] })) [r]

/-- The owning partition, if any, enters a fault state; the tree is re-formed without the region's sites (R432, R436, R449). -/
def darkRegion (s : State) (r : RegionId) (st : PState) (code : Nat) : State :=
  let s1 := regionOff s r
  let s2 := match (s.regions[r]).owner with
    | some p => faultEntry s1 p st code r.val
    | none => s1
  reformTree s2

/-- Heat sheds within the latest hour, this one included (R432). -/
def shedsThisHour (s : State) (g : Region) : List Nat := now s :: g.shedTimes.filter (fun t => decide (now s < t + 3600000000000))

/-- HEAT_SHED: a reading of 105 C or more. -/
def execHeatShed (r : RegionId) (reading : Int) (s : State) : Host.Outcome State Fault Refusal :=
  let g := s.regions[r]
  whenUp s (if g.supplyOn && decide (1050 ≤ reading) then
    let times := shedsThisHour s g
    let s1 := updRegion s r (fun g => { g with
      temp := reading, tempHigh := max g.tempHigh reading, sheds := min 255 (g.sheds + 1), shedTimes := times,
      heatOff := decide (times.length < 3), cycleOff := g.cycleOff || decide (3 ≤ times.length) })
    logEvent (darkRegion s1 r .faultHot cRegionHot) 0x0202 r.val (twos 32 reading) 0 false
  else s)

/-- An in-field re-test begins: the region stands at 0.72 V with its gates closed (R49, R50, R426). -/
def beginRetest (s : State) (r : RegionId) : State :=
  updRegion (closeGates s r) r (fun g => setVdd 720 { g with underTest := true, retest := 1, testStart := now s })

/-- HEAT_SHED_RECHECK: 60 s after a shed, or after a check that found it hot (R432); a region that a partition still holds stays off until
the next check (DESIGN CHOICE, log entry 112). -/
def execHeatShedRecheck (r : RegionId) (hottest : Int) (s : State) : Host.Outcome State Fault Refusal :=
  let g := s.regions[r]
  whenUp s (if g.heatOff && !g.supplyOn then
    let s1 := updRegion s r (fun g => { g with temp := hottest, tempHigh := max g.tempHigh hottest })
    if decide (hottest < 900) && g.owner.isNone then
      beginRetest (reformTree (updRegion s1 r (fun g => setVdd 600 { g with supplyOn := true, heatOff := false }))) r
    else s1
  else s)

/-- SHORT: the region stays out of service until a power-up test after a power cycle (R36, R436). -/
def execShort (r : RegionId) (s : State) : Host.Outcome State Fault Refusal :=
  whenUp s (if (s.regions[r]).supplyOn then
    logPlain (darkRegion (updRegion s r (fun g => { g with cycleOff := true })) r .faultDark cRegionDark) 0x0201 r.val
  else s)

/-! ### Host policy (R433, R481) -/

/-- Is a value inside its item's range? -/
def policyOk (item : PolicyItem) (v : Word) : Bool :=
  match item with
  | .cap => decide (500 ≤ v.toNat ∧ v.toNat ≤ 3600)
  | .ctrl => decide (v.toNat ≤ 1)
  | .prio _ => decide (v.toNat ≤ 7)
  | .margin _ => decide (v.toNat ≤ 50)

def storePolicy (item : PolicyItem) (v : Word) (s : State) : State :=
  match item with
  | .cap => { s with pwr := { s.pwr with cap := v.toNat } }
  | .ctrl => { s with pwr := { s.pwr with binding := v = 1 } }
  | .prio p => updPartRegs s p (fun r => { r with prio := v.toNat })
  | .margin p => updPartRegs s p (fun r => { r with margin := v.toNat })

/-- POLICY_WRITE: the last value before the epoch counts; a value out of range is ignored and sets POLICY_ERR. -/
def execPolicyWrite (item : PolicyItem) (v : Word) (s : State) : Host.Outcome State Fault Refusal :=
  whenUp s (if policyOk item v then storePolicy item v s else { s with pwr := { s.pwr with policyErr := true } })

/-- POLICY_EPOCH: the last values written take effect and are kept; without the binding bit no cap ceiling remains (R433, R434). -/
def execPolicyEpoch (s : State) : Host.Outcome State Fault Refusal :=
  let force : Policy := {
    cap := s.pwr.cap, binding := s.pwr.binding
    prio := Vector.ofFn (fun p : PartId => s.parts[p].regs.prio), margin := Vector.ofFn (fun p : PartId => s.parts[p].regs.margin) }
  let s1 := { s with
    pwr := { s.pwr with force := force }
    parts := s.parts.map (fun x => { x with regs := { x.regs with
      marginTaken := min x.regs.marginTaken x.regs.margin, capCeil := if s.pwr.binding then x.regs.capCeil else none } }) }
  whenUp s (governAll s1)

/-! ### CAP_LOOP_TICK (R434) -/

def maxVdd (s : State) (p : PartId) : Nat := ((runRegions s p).map (fun r => (s.regions[r]).vdd)).foldl max 0

/-- Above the cap: take margin, else lower a cap ceiling, else the cap is unmet. -/
def capOver (s : State) (watts : Nat) : State :=
  let low := (ranked s).reverse
  match low.find? (fun p => decide (0 < marginInForce s p)) with
  | some p => updPartRegs s p (fun r => { r with marginTaken := r.marginTaken + min 5 (marginInForce s p) })
  | none =>
    match if s.pwr.force.binding then low.find? (fun p => decide (600 < (s.parts[p].regs.capCeil).getD 850)) else none with
    | some p => updPartRegs s p (fun r => { r with capCeil := some (min (r.capCeil.getD 850) (maxVdd s p) - 5) })
    | none =>
      let short := watts - s.pwr.force.cap
      let s1 := { s with pwr := { s.pwr with capUnmet := true, shortfall := short } }
      if s.pwr.capUnmet then s1 else logIrq s1 0x000D 0 short 0 false 18

/-- A cap ceiling rises by 5 mV and ends at 0.85 V. -/
def raiseCap (c : Nat) : Option Nat := if 850 ≤ c + 5 then none else some (c + 5)

/-- Well below the cap: raise a cap ceiling, else give margin back. -/
def capUnder (s : State) : State :=
  let s1 := { s with pwr := { s.pwr with capUnmet := false, shortfall := 0 } }
  match (ranked s1).find? (fun p => (s1.parts[p].regs.capCeil).isSome) with
  | some p => updPartRegs s1 p (fun r => { r with capCeil := r.capCeil.bind raiseCap })
  | none =>
    match (ranked s1).find? (fun p => decide (marginInForce s1 p < s1.pwr.force.margin[p])) with
    | some p => updPartRegs s1 p (fun r => { r with marginTaken := r.marginTaken - min 5 r.marginTaken })
    | none => s1

/-- CAP_LOOP_TICK: `watts` is the input power averaged over 10 ms. -/
def execCapLoopTick (watts : Nat) (s : State) : Host.Outcome State Fault Refusal :=
  let s0 := { s with pwr := { s.pwr with inputW := watts } }
  let cap := s.pwr.force.cap
  let s1 := if cap < watts then capOver s0 watts
    else if 50 * watts + max cap 1000 ≤ 50 * cap then capUnder s0
    else s0
  whenUp s (governAll s1)

/-! ### Input and cooling (R424, R446, R447) -/

/-- INPUT_OUT_OF_RANGE: the input voltage in 0.1 V. -/
def execInputOutOfRange (decivolts : Nat) (s : State) : Host.Outcome State Fault Refusal :=
  let low := decide (decivolts < 420)
  let high := decide (580 < decivolts)
  let s1 := { s with pwr := { s.pwr with inputDv := decivolts, lowInput := low, highInput := high } }
  let s2 := if low && !s.pwr.lowInput then logIrq s1 0x000A 0 0 0 false 0 else s1
  whenUp s (if high && !s.pwr.highInput then logIrq s2 0x000B 0 0 0 false 0 else s2)

/-- COOLING_MEASUREMENT: temperatures in 0.1 C, flow in 0.01 L/min. -/
def execCoolingMeasurement (inlet outlet : Int) (flow : Nat) (glycol : Bool) (s : State) : Host.Outcome State Fault Refusal :=
  let out := decide (inlet < 150 ∨ 350 < inlet) || decide (flow < if glycol then 750 else 600)
  let s1 := { s with pwr := { s.pwr with inlet := inlet, outlet := outlet, flow := flow, coolOut := out } }
  whenUp s (if out && !s.pwr.coolOut then logIrq s1 0x000C 0 0 0 false 0 else s1)

/-- RESERVOIR_CHARGED: 4.8 V reached, or the 5 s limit passed (R444, R445). Any load whose first release waited goes on. -/
def execReservoirCharged (reached : Bool) (s : State) : Host.Outcome State Fault Refusal :=
  let s1 := { s with pwr := { s.pwr with resReady := true, resMv := if reached then 4800 else s.pwr.resMv,
                                         saveAtRisk := s.pwr.saveAtRisk || !reached } }
  let s2 := if !reached && !s.pwr.saveAtRisk then logIrq s1 0x0008 0 s.pwr.resC 0 false 0 else s1
  whenUp s (if s.pwr.resReady then s else allParts.foldl advanceLoad s2)

/-! ### Supply loss (R439, R440) -/

/-- All converters off: the wafer is shed. -/
def shedWafer (s : State) : State :=
  { updRegions s (fun g => { g with supplyOn := false, vdd := 0, demand := 0, intervals := [], gates := Vector.replicate 4 false,
                                    gatewayOut := [] }) with
    tiles := [], mem := [] }

/-- The unit stops and restarts from step 1 of R289: claimed pins at fail-safe, the wafer shed, the link down (R291, R292, R454). -/
def restartUnit (s : State) : State :=
  let s1 := updPins (shedWafer s) (fun x => if x.claimed.isSome then pinFailSafe x else x)
  { s1 with glb := { s1.glb with phase := .restarting, linkUp := false, bar0 := false }, sup := { s1.sup with activating := false } }

/-- An activation waits until no partition runs and none has a drain left to end; then the save record is written and the unit
restarts (R291). -/
def finishActivation (s : State) : State :=
  if s.sup.activating && allParts.all (fun p => let x := s.parts[p]; x.active.isNone || (decide (x.flow.drain = some .restart) && x.flow.drained))
  then restartUnit (writeSave s s 2) else s

/-- Activate a firmware slot: it becomes TRIAL and every running partition drains (R291). -/
def activateSlot (s : State) (slotB : Bool) (f : FwSlot → FwSlot) : State :=
  let s1 := irq { s with sup := { s.sup with
    activating := true, openUp := false
    slotA := if slotB then s.sup.slotA else { f s.sup.slotA with state := .trial }
    slotB := if slotB then { f s.sup.slotB with state := .trial } else s.sup.slotB } } 0
  finishActivation (allParts.foldl (fun s p =>
    if (s.parts[p]).state = .running ∨ (s.parts[p]).state = .staged then beginDrain s p .restart else s) s1)

/-- Step 5 of R439 in one bay: accepted, written within its bound, below 100,000 state writes. -/
def sagLife (written : List BayId) (s : State) (b : BayId) : State :=
  let s1 := if writable s.bays[b] && decide ((s.bays[b]).stateWrites < 100000) && written.contains b then writeLife s b 1 else s
  updBay s1 b (fun y => { y with power := false, good := false, perst := true, busLow := true })

def allBays : List BayId := [0, 1, 2, 3, 4, 5, 6, 7]

/-- Step 3 of R439: ports, export SRAM and links lose their supply. -/
def shedBoard (s : State) : State :=
  { s with
    imgs := s.imgs.map (fun c => { c with locked := false, ready := false, delivering := false, triggering := false })
    snds := s.snds.map (fun c => { c with phase := .idle, driving := false })
    spa := { s.spa with linkUp := false, helloAt := none }
    spb := { s.spb with linkUp := false, helloAt := none }
    exps := s.exps.map (fun e => { e with opened := none, closed := [], writing := false, crops := [] }) }

/-- SUPPLY_SAG, or an overvoltage: the record of the state at detection is saved, the pins stand at fail-safe until the restart.
Without `o.saved` the reservoir gave out in step 4: the save is torn and step 5 writes nothing (R440, R442). -/
def execSupplySag (overvoltage : Bool) (o : SagObs) (s : State) : Host.Outcome State Fault Refusal :=
  let s0 := if o.tornMap then { s with wafer := tearMap s.wafer (now s) } else s
  let s1 := updPins (shedWafer s0) (fun x => if x.claimed.isSome then pinFailSafe x else x)
  let s2 := logEvent s1 0x0009 0 (boolNat overvoltage) 0 false
  let s3 := if o.saved then writeSave (shedBoard s2) s (boolNat overvoltage) else tearSave (shedBoard s2)
  let s4 := allBays.foldl (sagLife (if o.saved then o.written else [])) s3
  whenUp s { s4 with glb := { s4.glb with phase := .shed, linkUp := false, bar0 := false } }

/-- RESERVOIR_EXHAUSTED: the I/O board turns off and every pin falls to high impedance (R374, R440). -/
def execReservoirExhausted (s : State) : Host.Outcome State Fault Refusal :=
  .next (match s.glb.phase with
    | .shed => { updPins s (fun x => { x with level := .hiZ }) with glb := { s.glb with phase := .off } }
    | _ => s)

end Sys2Proof.Machine
end

