-- ==== Sys2Proof/Machine/WaferTest.lean ====
section
/-! DEFINITION. The wafer tests: logical tiles of a repaired site (R27-R29), classing tiles (R31-R33), the repair search (R35),
holed sites (R34), regions, grade and history (R36-R48), in-field re-tests (R49-R52). -/

namespace Sys2Proof.Machine

/-! ### Logical tiles of a repaired site (R27-R29): skipped rows first, then skipped columns -/

/-- Unskipped indices below `n`, ascending. -/
def unskipped (skip : List Nat) (n : Nat) : List Nat := (List.range n).filter (fun v => !skip.contains v)

/-- The logical tile of physical tile (px, py) of a site; none in a skipped row or column (R27). -/
def logicalOf (rep : List Nat × List Nat) (k : SiteId) (px py : Nat) : Option (Nat × Nat) :=
  if px < 64 ∧ py < 64 ∧ !rep.2.contains px ∧ !rep.1.contains py then
    some (60 * (k.val % 10) + (unskipped rep.2 px).length, 60 * (k.val / 10) + (unskipped rep.1 py).length)
  else none

/-- The site of a logical tile. -/
def siteOf (x y : Nat) : SiteId := Fin.ofNat 80 (10 * (y / 60) + x / 60)

/-- The physical tile (px, py) that holds logical tile (x, y) in its site. -/
def physicalOf (rep : List Nat × List Nat) (x y : Nat) : Option (Nat × Nat) :=
  match (unskipped rep.2 64)[x % 60]?, (unskipped rep.1 64)[y % 60]? with
  | some px, some py => some (px, py)
  | _, _ => none

/-- The physical edge tile to which a site's edge multiplexer attaches logical link `k` of its side `d` (R29). -/
def edgeTile (rep : List Nat × List Nat) (d : Dir) (k : Nat) : Option (Nat × Nat) :=
  match d with
  | .n => physicalOf rep k 0
  | .s => physicalOf rep k 59
  | .w => physicalOf rep 0 k
  | .e => physicalOf rep 59 k

/-- The physical tile at the far end of a physical tile's link: the next unskipped tile of its row or column, through the bypass
switches of those between (R28), or across the stitched edge the tile attached to the same logical link (R29). -/
def linkEnd (reps : Vector (List Nat × List Nat) 80) (k : SiteId) (px py : Nat) (d : Dir) : Option (SiteId × Nat × Nat) :=
  let rep := reps[k]
  let across := fun (line : Nat) =>
    match siteNbr k d with
    | none => none
    | some j => (edgeTile reps[j] (opposite d) line).map (fun t => (j, t.1, t.2))
  let row := (unskipped rep.1 py).length
  let col := (unskipped rep.2 px).length
  match d with
  | .w => match (unskipped rep.2 px).getLast? with | some q => some (k, q, py) | none => across row
  | .n => match (unskipped rep.1 py).getLast? with | some q => some (k, px, q) | none => across col
  | .e => match (unskipped rep.2 64)[col + 1]? with | some q => some (k, q, py) | none => across row
  | .s => match (unskipped rep.1 64)[row + 1]? with | some q => some (k, px, q) | none => across col

/-! ### Classing tiles (R31-R33) -/

/-- The physical neighbour on a side, within the site. -/
def physNbr (t : Nat × Nat) : Dir → Option (Nat × Nat)
  | .n => if 0 < t.2 then some (t.1, t.2 - 1) else none
  | .e => if t.1 < 63 then some (t.1 + 1, t.2) else none
  | .s => if t.2 < 63 then some (t.1, t.2 + 1) else none
  | .w => if 0 < t.1 then some (t.1 - 1, t.2) else none

/-- Sides of a tile with a tester: a neighbour that returned reports (R31). -/
def testers (f : SiteFindings) (t : Nat × Nat) : List (Dir × (Nat × Nat)) :=
  allDirs.filterMap (fun d => match physNbr t d with
    | some n => if f.silent.contains n then none else some (d, n)
    | none => none)

/-- The vote pass of R32 on one tile. -/
def voteBad (f : SiteFindings) (t : Nat × Nat) : Bool :=
  let ts := testers f t
  let n := ts.length
  let k := (ts.filter (fun x => f.fails.contains (t, x.1))).length
  if 2 ≤ k then true
  else if k = 1 then decide (n < 4) && f.direct.contains t
  else decide (n = 0) && f.direct.contains t

/-- Confirmation passes: a good tile with a bad tester is tested directly (R32). -/
def confirm (f : SiteFindings) (cands : List (Nat × Nat)) : Nat → List (Nat × Nat) → List (Nat × Nat)
  | 0, bad => bad
  | n + 1, bad =>
    let more := cands.filter (fun t => !bad.contains t && f.direct.contains t && (testers f t).any (fun x => bad.contains x.2))
    if more.isEmpty then bad else confirm f cands n (more ++ bad)

/-- Bad tiles of a site. Only a tile with a failing report, or one that fails the direct test, can be bad. -/
def badTiles (f : SiteFindings) : List (Nat × Nat) :=
  let cands := (f.fails.map (·.1) ++ f.direct).eraseDups
  confirm f cands (cands.length + 1) (cands.filter (voteBad f))

/-! ### The repair search (R35) -/

/-- First uncovered bad tile in order of py, then px. -/
def uncovered (bad : List (Nat × Nat)) (rows cols : List Nat) : Option (Nat × Nat) :=
  (bad.filter (fun t => !rows.contains t.2 && !cols.contains t.1)).foldl (fun b t =>
    match b with
    | none => some t
    | some u => if 64 * t.2 + t.1 < 64 * u.2 + u.1 then some t else some u) none

/-- The search, at most `fuel` levels deep; four rows and four columns are eight. -/
def cover (bad : List (Nat × Nat)) : Nat → List Nat → List Nat → Option (List Nat × List Nat)
  | 0, rows, cols => if (uncovered bad rows cols).isNone then some (rows, cols) else none
  | n + 1, rows, cols =>
    match uncovered bad rows cols with
    | none => some (rows, cols)
    | some u =>
      match if rows.length < 4 then cover bad n (u.2 :: rows) cols else none with
      | some r => some r
      | none => if cols.length < 4 then cover bad n rows (u.1 :: cols) else none

/-- Fill to four with the highest numbers not taken, ascending. -/
def fillFour (xs : List Nat) : List Nat :=
  let free := ((List.range 64).reverse.filter (fun k => !xs.contains k)).take (4 - xs.length)
  (List.range 64).filter (fun k => xs.contains k || free.contains k)

/-! ### Couplings (R34, R68) -/

/-- Sites that a chain of passing couplings joins to an entry site. The chain may run through a site that is holed for another
cause or whose region supply is out (DESIGN CHOICE, log entry 88). -/
def coupledFrom (bad : List (SiteId × Dir)) : Nat → List SiteId → List SiteId
  | 0, xs => xs
  | n + 1, xs =>
    let more := (allSites.filter (fun k => !xs.contains k && allDirs.any (fun d => match siteNbr k d with
      | some j => xs.contains j && !bad.contains (k, d) && !bad.contains (j, opposite d)
      | none => false)))
    if more.isEmpty then xs else coupledFrom bad n (xs ++ more)

def coupledSites (bad : List (SiteId × Dir)) : List SiteId := coupledFrom bad 80 [71, 73, 76, 78]

/-- A site's coupling has failed: none of its couplings passes (DESIGN CHOICE, log entry 88), or no chain joins it to an entry site. -/
def couplingFails (bad : List (SiteId × Dir)) (k : SiteId) : Bool :=
  !(coupledSites bad).contains k || allDirs.all (fun d => match siteNbr k d with
    | some j => bad.contains (k, d) || bad.contains (j, opposite d)
    | none => true)

/-! ### Site and region entries -/

def siteFindings (f : WaferFindings) (k : SiteId) : SiteFindings :=
  ((f.sites.find? (fun x => x.1 = k)).map (·.2)).getD { silent := [], fails := [], direct := [], badBypassRows := [], badBypassCols := [] }

/-- Bad wire groups of the edge on a side of a site, as the site north or west of it names it. -/
def edgeGroups (f : WaferFindings) (k : SiteId) (d : Dir) : List (Nat × Nat) :=
  let own := fun (j : SiteId) (side : Dir) => (f.edges.filter (fun x => x.site = j && x.d = side)).flatMap (·.groups)
  match d with
  | .e => own k .e
  | .s => own k .s
  | .n => match siteNbr k .n with | some j => own j .s | none => []
  | .w => match siteNbr k .w with | some j => own j .e | none => []

def edgeFailed (f : WaferFindings) (k : SiteId) (d : Dir) : Bool := (edgeGroups f k d).any (fun g => 2 ≤ g.2)

def edgeSpares (f : WaferFindings) (k : SiteId) (d : Dir) : Nat := ((edgeGroups f k d).filter (fun g => g.2 = 1)).length

/-- Is the edge of a site inside its region? -/
def edgeInside (k : SiteId) (d : Dir) : Bool :=
  match siteNbr k d with | some j => decide (siteRegion j = siteRegion k) | none => false

/-- Bits 0-2 of CAUSE: no cover, bypass failed, coupling failed (R43). -/
def siteCause (f : WaferFindings) (couplings : List (SiteId × Dir)) (k : SiteId) : Nat × List Nat × List Nat :=
  let sf := siteFindings f k
  let bad := badTiles sf
  let couple := 4 * boolNat (couplingFails couplings k)
  match cover bad 8 [] [] with
  | none => (1 + couple, [], [])
  | some rc =>
    let rows := fillFour rc.1
    let cols := fillFour rc.2
    (2 * boolNat (sf.badBypassRows.any rows.contains || sf.badBypassCols.any cols.contains) + couple, rows, cols)

/-- The entry a test gives a site; edges and spares outside `inside` keep what `old` holds. -/
def testSite (f : WaferFindings) (couplings : List (SiteId × Dir)) (old : SiteEntry) (retest : Bool) (k : SiteId) : SiteEntry :=
  let c := siteCause f couplings k
  let take := fun d => !retest || edgeInside k d
  let edge := fun d => boolNat (if take d then edgeFailed f k d else bitOf old.edges (dirIdx d).val) * 2 ^ (dirIdx d).val
  { holed := c.1 ≠ 0, cause := c.1, bad := (badTiles (siteFindings f k)).length, rows := c.2.1, cols := c.2.2,
    edges := edge .n + edge .e + edge .s + edge .w,
    sparesE := if take .e then min 255 (edgeSpares f k .e) else old.sparesE,
    sparesS := if take .s then min 255 (edgeSpares f k .s) else old.sparesS, lastSeq := old.lastSeq }

/-- Keys of a site's bad tiles. -/
def badKeys (f : WaferFindings) (k : SiteId) : List Nat := (badTiles (siteFindings f k)).map (fun t => 4096 * k.val + 64 * t.2 + t.1)

/-- Merge rising: the members of `xs` below 80 x 4,096 in order. -/
def sortKeys (xs : List Nat) : List Nat := insSort (fun a b => decide (a ≤ b)) xs

/-- STATE of a region (R36, R44). -/
def regionState (sites : Vector SiteEntry 80) (supplyIn : Bool) (r : RegionId) : Nat :=
  let ks := regionSites r
  if !supplyIn then 3
  else if ks.any (fun k => (sites[k]).holed) then 1
  else if ks.any (fun k => allDirs.any (fun d => edgeInside k d && bitOf (sites[k]).edges (dirIdx d).val)) then 2
  else 0

/-- Sites that the tree does not reach are holed with bit 3 (R34). -/
def holeUnreached (tree : Vector (Option TreeNode) 80) (sites : Vector SiteEntry 80) : Vector SiteEntry 80 :=
  Vector.ofFn (fun k : SiteId => if tree[k].isSome then sites[k] else { sites[k] with holed := true, cause := (sites[k]).cause + 8 })

/-- The 16 bytes of a site entry (R43). -/
def siteBytes (e : SiteEntry) : List Byte :=
  let four := fun (xs : List Nat) => ((List.range 4).map (fun k => leBytes 1 (if e.holed then 255 else xs.getD k 255))).flatten
  leBytes 1 (boolNat e.holed) ++ leBytes 1 e.cause ++ leBytes 2 e.bad ++ four e.rows ++ four e.cols ++ leBytes 1 e.edges ++
  leBytes 1 (min 255 (e.sparesE + e.sparesS)) ++ leBytes 2 e.lastSeq

/-- A holed site shows 0xFF for its rows and columns; LAST_SEQ follows a test that changes the entry as the map shows it (R43). -/
def closeEntry (seq : Nat) (old e : SiteEntry) : SiteEntry :=
  let e1 := if e.holed then { e with rows := [255, 255, 255, 255], cols := [255, 255, 255, 255] } else e
  { e1 with lastSeq := if siteBytes { e1 with lastSeq := old.lastSeq } = siteBytes old then old.lastSeq else seq % 65536 }

/-- The outcome of a test over `scope`. -/
structure TestResult where
  map : DefMap
  regressed : List RegionId
  lost : List RegionId
deriving DecidableEq, Repr

/-- STATE that a test gives a region. A re-test never makes an unusable region usable, so one that passes keeps its code (R44, R51). -/
def testState (m : DefMap) (sites : Vector SiteEntry 80) (supplyIn : RegionId → Bool) (retest : Bool) (r : RegionId) : Nat :=
  let found := regionState sites (supplyIn r) r
  if retest && found = 0 then (m.regions[r]).state else found

/-- A test's new map: bitmaps, tables, events and grade, without its history record (R36-R44). `retest` says that unusable
regions stay unusable (R51); `first` that the map is being rebuilt, so that nothing is regressed (R48). EVENTS bits 0 and 1 of a region
outside the scope stand: the last test is the last test of that region (DEDUCED, log entry 89). At a rebuild a region that SHIP_USABLE
marks usable and that is not usable now gets bit 2 only, and is neither logged as lost nor counted in OUTCOME (DEDUCED, log entry 90). -/
def testResult (m : DefMap) (seq : Nat) (scope : List RegionId) (sites : Vector SiteEntry 80) (bad : List Nat)
    (supplyIn : RegionId → Bool) (retest first : Bool) : TestResult :=
  let gained := fun (r : RegionId) => bad.any (fun k => decide (siteRegion (Fin.ofNat 80 (k / 4096)) = r) && !m.everBad.contains k)
  let state := testState m sites supplyIn retest
  let usableBefore := fun (r : RegionId) => if first then bitOf m.shipUsable r.val else (m.regions[r]).state = 0
  let lost := scope.filter (fun r => usableBefore r && state r ≠ 0)
  let regressed := if first then [] else scope.filter (fun r => state r = 0 && gained r)
  let others := m.bad.filter (fun k => !scope.contains (siteRegion (Fin.ofNat 80 (k / 4096))))
  let now := sortKeys (others ++ bad)
  let m1 : DefMap := { m with
    sites := Vector.ofFn (fun k : SiteId => if scope.contains (siteRegion k) then closeEntry seq m.sites[k] sites[k] else m.sites[k])
    regions := Vector.ofFn (fun r : RegionId =>
      let e := m.regions[r]
      if scope.contains r then
        { e with state := state r, events := boolNat (regressed.contains r) + 2 * boolNat (!first && lost.contains r) +
            4 * boolNat (bitOf e.events 2 || lost.contains r) }
      else e)
    bad := now, badNow := now.length
    everBad := if first then now else sortKeys (m.everBad ++ bad.filter (fun k => !m.everBad.contains k)) }
  { map := regrade m1, regressed := regressed, lost := if first then [] else lost }

/-- The history record of a test (R45). The rebuilding test, which has no previous test left, counts every bad tile in NEW_BAD (DEDUCED,
log entry 91). -/
def testRecord (s : State) (old : DefMap) (r : TestResult) (seq time kind : Nat) (scope : List RegionId) (bad : List Nat) : HistRec :=
  let was := badWithin old scope
  { seq := seq, powerOn := s.glb.powerOn, time := time, kind := kind
    outcome := boolNat (!r.lost.isEmpty) + 2 * boolNat (!r.regressed.isEmpty) + 4 * boolNat (r.map.grade = 3)
    scope := (scope.map (fun x => 2 ^ x.val)).sum
    newBad := sat16 (bad.filter (fun k => !was.contains k)).length
    recovered := sat16 (was.filter (fun k => !bad.contains k)).length
    bad := sat16 bad.length }

def logRegions (s : State) (code : Nat) (rs : List RegionId) : State := rs.foldl (fun s r => logPlain s code r.val) s

/-! ### The power-up test (R31-R48) -/

/-- The copies that power-up finds valid (R47). -/
def readMaps (w : Wafer) (bad : List (Fin 2)) : Wafer :=
  { w with copy0 := if bad.contains 0 then none else w.copy0, copy1 := if bad.contains 1 then none else w.copy1 }

/-- SEQ of the record of a rebuilding test: one more than the highest of the valid records of either copy, else 1 (R48). -/
def rebuildSeq (w : Wafer) (badRecs : List Nat) : Nat :=
  let held := fun (m : Option DefMap) => match m with | some x => x.ring.map (fun (r : Nat × HistRec) => r.2.seq) | none => []
  (((held w.copy0 ++ held w.copy1).filter (fun q => !badRecs.contains q)).foldl max 0) + 1

/-- Set the bypass switches and edge multiplexers of repaired sites (step 4 of the bring-up); those of a holed site stand. -/
def setRepairs (w : Wafer) (m : DefMap) (scope : List RegionId) : Wafer :=
  { w with settings := Vector.ofFn (fun k : SiteId =>
      if scope.contains (siteRegion k) && !(m.sites[k]).holed then ((m.sites[k]).rows, (m.sites[k]).cols) else w.settings[k]) }

/-- Steps 2-6 of the wafer bring-up on a powered wafer: test, tree, map. -/
def powerUpTest (s1 : State) (e : PowerUp) : State :=
  let f := e.findings
  let s0 := { s1 with wafer := readMaps s1.wafer e.badMaps }
  let first := s0.wafer.copy0.isNone && s0.wafer.copy1.isNone
  let m0 := if first then
      regrade { shipGrade := s0.nv.factoryGrade, shipUsable := s0.nv.factoryUsable, usable := s0.nv.factoryUsable }
    else curMap s0
  let seq := if first then rebuildSeq s1.wafer e.badRecs else nextTestSeq m0
  let s := { s0 with wafer := { s0.wafer with badHops := f.hops, badEntries := f.entries, badCouplings := f.couplings } }
  let raw := Vector.ofFn (fun k : SiteId => testSite f f.couplings m0.sites[k] false k)
  let tree := formTree s { m0 with sites := raw }
  let bad := allSites.flatMap (badKeys f)
  let supplyIn := fun r => (s.regions[r]).supplyOn
  let r := testResult m0 seq allRegions (holeUnreached tree raw) bad supplyIn false first
  let h := testRecord s m0 r seq (now s) (if first then 3 else 1) allRegions bad
  let base := if first then addHistory r.map { s.wafer.factoryRec with seq := 0, kind := 0 } else r.map
  let m := addHistory base h
  let s2 := { s with wafer := setRepairs { s.wafer with tree := tree } m allRegions }
  if first then
    reportGrade (logIrq { s2 with wafer := { s2.wafer with copy0 := some m, copy1 := some m, mapWritten := some (true, now s) } }
      0x000F 0 0 0 false 0)
  else reportGrade (logRegions (logRegions (commitMap s2 m) 0x0204 r.regressed) 0x0205 r.lost)

/-! ### RGN_TEST and IN_FIELD_RETEST_DONE (R49-R52) -/

/-- May a re-test of the region begin (R49)? -/
def retestable (s : State) (r : RegionId) : Bool :=
  let g := s.regions[r]
  g.owner.isNone && !g.underTest && g.supplyOn && !g.supplyOut && !g.cycleOff && !g.heatOff && !g.unreachable && reachable s r

/-- RGN_TEST: START is accepted for an idle region or answered NOT_IDLE; a write without START, or with a reserved bit, does
nothing (R49, R471, R482). -/
def execRgnTest (r : RegionId) (v : Word) (s : State) : Host.Outcome State Fault Refusal :=
  whenUp s (if v = 1 then
    if retestable s r then beginRetest s r
    else updRegion s r (fun g => { g with retest := 5 })
  else s)

/-- RETEST code of a result (RGN_STATUS). A usable region has passed repaired when the test changes the rows or columns that a site
skips, and has passed unchanged otherwise (DEDUCED, log entry 92). -/
def retestCode (m : DefMap) (res : TestResult) (r : RegionId) : Nat :=
  if (m.regions[r]).state ≠ 0 then 7
  else if (res.map.regions[r]).state ≠ 0 then 4
  else if regionSites r |>.any (fun k =>
      decide ((m.sites[k]).rows ≠ (res.map.sites[k]).rows) || decide ((m.sites[k]).cols ≠ (res.map.sites[k]).cols)) then 3
  else 2

/-- The region is idle again, scrubbed, at 0.60 V; one whose supply failed is off (R50, R426). -/
def endRetest (s : State) (r : RegionId) (supplyBad : Bool) (code : Nat) : State :=
  updRegion (scrubRegions s [r]) r (fun g =>
    setVdd 600 { g with underTest := false, retest := code, supplyOn := g.supplyOn && !supplyBad, supplyOut := g.supplyOut || supplyBad })

/-- RETESTS counts the test, whatever its result (R44). -/
def countRetest (m : DefMap) (r : RegionId) : DefMap :=
  { m with regions := m.regions.set r.val { m.regions[r] with retests := (m.regions[r]).retests + 1 } r.isLt }

/-- Findings about a region's own sites replace those of the last test that tested them. -/
def retestHops (r : RegionId) (old new : List (SiteId × Dir)) : List (SiteId × Dir) :=
  old.filter (fun x => decide (siteRegion x.1 ≠ r)) ++ new.filter (fun x => decide (siteRegion x.1 = r))

/-- What step 3 of a re-test finds of hops, entry links and couplings (R34, R50). -/
def retestNet (w : Wafer) (r : RegionId) (f : WaferFindings) : Wafer :=
  { w with
    badHops := retestHops r w.badHops f.hops, badCouplings := retestHops r w.badCouplings f.couplings
    badEntries := w.badEntries.filter (fun e => decide (siteRegion (entrySite e) ≠ r)) ++
      f.entries.filter (fun e => decide (siteRegion (entrySite e) = r)) }

/-- The end of a re-test that a heat shed or a short circuit of its region cut off: the region keeps its repair and state, and the
record shows the tiles that were bad (R45 and the corners of file 02). -/
def abortRetest (s : State) (r : RegionId) : State :=
  let m := countRetest (curMap s) r
  let h : HistRec := { seq := nextTestSeq m, powerOn := s.glb.powerOn, time := (s.regions[r]).testStart, kind := 2,
                       outcome := 8 + 4 * boolNat (m.grade = 3), scope := 2 ^ r.val, bad := sat16 (badWithin m [r]).length }
  reportGrade (endRetest (commitMap s (addHistory m h)) r false 6)

/-- The end of a re-test that ran through: the result is committed, the new repair is set, and the tree is formed over the hops that
now pass (R50, R51; the tree DEDUCED, log entry 93). -/
def finishRetest (s : State) (r : RegionId) (f : WaferFindings) : State :=
  let m := countRetest (curMap s) r
  let seq := nextTestSeq m
  let w := retestNet s.wafer r f
  let raw := Vector.ofFn (fun k : SiteId => if siteRegion k = r then testSite f w.badCouplings m.sites[k] true k else m.sites[k])
  let tree := formTree { s with wafer := w } { m with sites := raw }
  let sites := Vector.ofFn (fun k : SiteId => if siteRegion k = r then (holeUnreached tree raw)[k] else m.sites[k])
  let bad := (regionSites r).flatMap (badKeys f)
  let res := testResult m seq [r] sites bad (fun q => (s.regions[q]).supplyOn && !f.supplyOut.contains q) true false
  let h := testRecord s m res seq (s.regions[r]).testStart 2 [r] bad
  let s1 := commitMap { s with wafer := setRepairs w res.map [r] } (addHistory res.map h)
  let s2 := reformTree (endRetest s1 r (f.supplyOut.contains r) (retestCode m res r))
  reportGrade (logRegions (logRegions s2 0x0204 res.regressed) 0x0205 res.lost)

/-- IN_FIELD_RETEST_DONE: a test whose region has lost its supply since it began has been aborted. -/
def execInFieldRetestDone (r : RegionId) (f : WaferFindings) (aborted : Bool) (s : State) : Host.Outcome State Fault Refusal :=
  whenUp s (if !(s.regions[r]).underTest then s
    else if aborted || !(s.regions[r]).supplyOn then abortRetest s r
    else finishRetest s r f)

end Sys2Proof.Machine
end

