-- ==== Sys2Proof/Machine/LoadCommands.lean ====
section
/-! DEFINITION. The commands of loads, reloads and drains (R75, R240, R287-R316, R449-R453, R485). -/

namespace Sys2Proof.Machine

/-! ### Requests (R310-R313, R452, R453, R485) -/

/-- A PRT_CMD write is refused and changes nothing else (R485). -/
def cmdErr (s : State) (p : PartId) : State := irq (updPartRegs s p (fun r => { r with cmdErr := true })) (partVector p)

/-- RELOAD. -/
def execReload (p : PartId) (o : LoadObs) (s : State) : Host.Outcome State Fault Refusal :=
  whenUp s (if s.glb.serviceOnly || !(s.bays[p]).accepted then cmdErr s p else loadRequest s p .hostReload o)

/-- UNLOAD. -/
def execUnload (p : PartId) (s : State) : Host.Outcome State Fault Refusal :=
  whenUp s (if s.glb.serviceOnly || decide (s.parts[p].state = .empty) then cmdErr s p else unloadRequest s p)

/-- May the queued request start (R313)? -/
def mayStartQueued (x : Partition) : Bool :=
  x.load.isNone && !mustQueue x && (decide (x.state = .running) || decide (x.state = .empty) || isFault x.state)

/-- QUEUED_REQUEST_START. -/
def execQueuedRequestStart (p : PartId) (o : LoadObs) (s : State) : Host.Outcome State Fault Refusal :=
  let x := s.parts[p]
  whenUp s (match x.queued with
    | none => s
    | some k =>
      if mayStartQueued x then
        let s1 := updPart s p (fun y => { y with queued := none })
        if k = .hostUnload then (if x.state = .empty then s1 else unloadRequest s1 p) else loadRequest s1 p k o
      else s)

/-- Automatic reloads of the preceding hour (R453). -/
def reloadsThisHour (s : State) (x : Partition) : List Nat := x.autoTimes.filter (fun t => decide (now s < t + 3600000000000))

/-- AUTO_RELOAD: once, after the scrub of a fault entry that calls for it, with no request queued. -/
def execAutoReload (p : PartId) (o : LoadObs) (s : State) : Host.Outcome State Fault Refusal :=
  let x := s.parts[p]
  whenUp s (if isFault x.state && x.flow.autoDue && x.flow.scrub.isNone && x.queued.isNone then
    let s1 := updFlow s p (fun f => { f with autoDue := false })
    let recent := reloadsThisHour s x
    if !(s.bays[p]).accepted then logPart s1 p 0x0183 0
    else if 3 ≤ recent.length then logPart s1 p 0x0182 0
    else
      let s2 := updPart s1 p (fun y => { y with autoTimes := now s :: recent })
      loadRequest (logPart s2 p 0x0181 (recent.length + 1)) p .automatic o
  else s)

/-! ### Placing, lanes, scrubs before a load -/

/-- Does the placement still wait: no path is free, and one would be but for a region under test (R52)? -/
def stillWaits (s : State) (p : PartId) (i : Image) : Bool :=
  (searchPlacement s (some p) (imgPieces i) i.header.chainLen).isNone && wouldFit s p i

/-- PLACEMENT_RETRY: once the re-test has ended, the placement is tried once more (R52). -/
def execPlacementRetry (p : PartId) (s : State) : Host.Outcome State Fault Refusal :=
  whenUp s (match s.parts[p].load with
    | none => s
    | some l => if l.phase = .waitRetest && !stillWaits s p l.image then (if l.reloadsOld then trialCold s p false else placeCold s p false) else s)

/-- LOAD_LANE_GRANTED: a waiting load that can hold every lane it needs starts (R75). -/
def execLoadLaneGranted (p : PartId) (s : State) : Host.Outcome State Fault Refusal :=
  whenUp s (match s.parts[p].load with
    | none => s
    | some l =>
      if l.phase = .waitLane then (match takeLanes s p with | some s1 => beginStream s1 p l.image | none => s) else s)

/-- PRE_LOAD_SCRUB_DONE: LOADING begins. A region that fails its read-back twice is lost and the search runs afresh (R212, R296
steps 4 and 5; DEDUCED from step 3 of R307). -/
def execPreLoadScrubDone (p : PartId) (failed : List RegionId) (s : State) : Host.Outcome State Fault Refusal :=
  whenUp s (match s.parts[p].load with
    | none => s
    | some l =>
      if l.phase = .preScrub then
        let rs := placedRegions l.placement
        if rs.any failed.contains then placeCold (endScrub (closeAllGates s rs) rs failed) p true
        else tryStream (setPState (scrubRegions s rs) p .loading) p
      else s)

/-! ### The stream -/

/-- A load whose stream still runs. -/
def streaming (l : Load) : Bool := decide (l.phase = .streaming) && !l.checked

/-- The next chunk's plaintext joins the stream; of a chunk that holds skipped DATA, what lies before the stream is dropped. -/
def takeChunk (l : Load) (text : List Byte) : Load :=
  { l with
    chunk := l.chunk + 1
    plain := l.plain ++ text.drop (l.bytes + l.plain.length - 65536 * l.chunk)
    got := l.got.filter (fun c => decide (c ≠ chunkRead l.slot l.chunk)) }

/-- CHUNK_DECRYPTED: the next chunk; a failed tag ends the load, otherwise its plaintext goes on to the loader (R239, R240). -/
def execChunkDecrypted (p : PartId) (cipher tag : List Byte) (s : State) : Host.Outcome State Fault Refusal :=
  whenUp s (match s.parts[p].load with
    | none => s
    | some l =>
      if streaming l && decide (l.chunk < chunkCount l.slot) then
        match openChunk l.slot l.key l.chunk cipher tag with
        | some text => updLoad s p (fun l => takeChunk l text)
        | none => refuseLoad s p cDecrypt 0
      else s)

/-- LOAD_RECORD: the next record, once every chunk that holds it has been verified (R240, R257). -/
def execLoadRecord (p : PartId) (readsBack : Bool) (hits : List (TileAt × Nat)) (s : State) : Host.Outcome State Fault Refusal :=
  whenUp s (match s.parts[p].load with
    | none => s
    | some l =>
      match nextRecord s p l with
      | some bs => if streaming l then streamRecord s p l bs readsBack hits else s
      | none => s)

/-- END_OF_STREAM_CHECKS: once no record is left to read. Where a port has refused the settings that a staged reload wrote to its shadow
side, the load is aborted before the drain instead (R287, R305). -/
def execEndOfStreamChecks (p : PartId) (refused : Option Nat) (s : State) : Host.Outcome State Fault Refusal :=
  whenUp s (match s.parts[p].load with
    | none => s
    | some l =>
      if streaming l && l.plain.isEmpty && decide (chunkCount l.slot ≤ l.chunk) then
        (match if l.staged then refused else none with
        | some g => failGroup s p g
        | none => endChecks s p l)
      else s)

/-! ### The Lupin release (R298-R300, R419) -/

/-- GO to the upstream peer, once the piece has released (R419 steps 4 and 5). -/
def sendGo (s : State) (i : Image) : State :=
  match imgSpan i with
  | some x => if x.spa then sendMsg s .spa (msgGo x.id) else s
  | none => s

/-- LUPIN_STAGE_ACK: every site has acknowledged the stage; at stage 3 the partition runs. A group that cannot apply fails the
load instead (R287). -/
def execLupinStageAck (p : PartId) (failedGroup : Option Nat) (s : State) : Host.Outcome State Fault Refusal :=
  let x := s.parts[p]
  whenUp s (match x.flow.lupin, x.load, failedGroup with
    | some _, some _, some g => failGroup s p g
    | some k, some l, none =>
      if k < 3 then updFlow s p (fun f => { f with lupin := some (k + 1) }) else sendGo (commitRelease s p) l.image
    | _, _, _ => s)

/-- RELEASE_FAILED: a site does not acknowledge a stage within 1 ms (R299). -/
def execReleaseFailed (p : PartId) (s : State) : Host.Outcome State Fault Refusal :=
  whenUp s (match s.parts[p].flow.lupin with
    | none => s
    | some k => faultEntry (abortSpan (failLoadingPins s p) p 2 (fun _ => true)) p .faultHeld cReleaseFailed k)

/-- SPAN_TIMEOUT: 30 s after the entry into SPAN_WAIT (R297). -/
def execSpanTimeout (p : PartId) (s : State) : Host.Outcome State Fault Refusal :=
  whenUp s (if s.parts[p].state = .spanWait ∧ s.parts[p].flow.lupin = none ∧ s.parts[p].flow.since + 30000000000 ≤ now s then
    faultEntry s p .faultHeld cSpanTimeout 0 else s)

/-! ### Drains, switches and scrubs after a load -/

/-- Is everything that entered the partition out again (R302), and every descriptor forwarded (R420)? -/
def drainedOut (s : State) (p : PartId) : Bool :=
  (s.parts[p]).flow.windows.isEmpty && (s.spb.txDesc.isEmpty || decide (s.spb.owner ≠ some p)) && partEmpty s p

/-- The drain ends (R302): what it was for follows. -/
def endDrain (s : State) (p : PartId) (why : DrainWhy) : State :=
  let x := s.parts[p]
  match why with
  | .staged => updFlow (closeExport s p) p (fun f => { f with drained := true })
  | .restart => finishActivation (updFlow (closeExport s p) p (fun f => { f with drained := true }))
  | .coldReload =>
    match x.load with
    | some l =>
      let s1 := portsAfterDrain (pinsAfterDrain s p) p (x.active.getD {}) l.image
      updLoad (endImage s1 p .coldReload) p (fun l => { l with phase := .unloadScrub })
    | none => endImage (releasePorts (pinsAfterDrain s p) p) p .toEmpty
  | .unload | .stopOnRemoval | .aborted => endImage (releasePorts (releasePins (pinsAfterDrain s p) p) p) p .toEmpty
  | .peerLeft =>
    let s1 := setCause (logPart s p cPeerLeft 0) p (causeOf cPeerLeft)
    endImage (releasePorts (releasePins (pinsAfterDrain s1 p) p) p) p .toEmpty

/-- DRAIN_COMPLETE. -/
def execDrainComplete (p : PartId) (s : State) : Host.Outcome State Fault Refusal :=
  whenUp s (match s.parts[p].flow.drain with
    | none => s
    | some why => if !(s.parts[p]).flow.drained && drainedOut s p then finishActivation (endDrain s p why) else s)

/-- CONTEXT_SWITCH: the commit point of a staged reload, which waits until every tile is empty (R92); a group that cannot apply aborts it
and the old image runs on (R287). -/
def execContextSwitch (p : PartId) (failedGroup : Option Nat) (s : State) : Host.Outcome State Fault Refusal :=
  let f := s.parts[p].flow
  whenUp s (if f.drained && decide (f.drain = some .staged) && partEmpty s p then
    match failedGroup with
    | some g => failGroup s p g
    | none => commitSwitch s p
  else s)

/-- The partition's regions are scrubbed and free; `failed` are lost. -/
def freeHeld (s : State) (p : PartId) (failed : List RegionId) : State := endScrub s (heldRegions s p) failed

/-- A load that waited for the clearing of the one it aborted begins now (R312). -/
def startWaiting (s : State) (p : PartId) (l : Option Load) : State :=
  match l with
  | some { kind := k, phase := .waitAbort, obs := some o, order := n, .. } => beginLoad s p k o (some n)
  | _ => s

/-- Step 3 of R307: the path is kept, scrubbed again before its load; a region of it that was lost sends the search afresh. -/
def reloadAfterScrub (s : State) (p : PartId) (l : Load) (failed : List RegionId) : State :=
  let path := placedRegions l.placement
  let s1 := updPart s p (fun x => { x with placement := none, fabric := {}, flow := { x.flow with scrub := none } })
  if path.any failed.contains then placeCold (freeHeld s1 p failed) p true
  else startPreScrub (endScrub s1 ((heldRegions s1 p).filter (fun r => !path.contains r)) failed) p l.placement

/-- UNLOAD_SCRUB_DONE: once every census whose tick has passed has been read (R212, R464). -/
def execUnloadScrubDone (p : PartId) (failed : List RegionId) (s : State) : Host.Outcome State Fault Refusal :=
  let x := s.parts[p]
  whenUp s (if censusBusy x.census then s
  else match x.flow.scrub with
    | none => s
    | some .fault => updPart (freeHeld s p failed) p (fun y => { y with placement := none, fabric := {}, flow := { y.flow with scrub := none } })
    | some .toEmpty => startWaiting (becomeEmpty (freeHeld s p failed) p) p x.load
    | some .coldReload =>
      match x.load with
      | some l => reloadAfterScrub s p l failed
      | none => becomeEmpty (freeHeld s p failed) p)

/-- POST_COMMIT_SCRUB_DONE: the old image's contexts and codewords are clear, and the regions beyond L' free or, on a failed
read-back, lost (R205, R212, R213, R303 step 7). -/
def execPostCommitScrubDone (o : ScrubEnd) (s : State) : Host.Outcome State Fault Refusal :=
  let p := o.part
  let x := s.parts[p]
  whenUp s (match x.fabric.postScrub, x.active with
    | some beyond, some i =>
      let cs := x.fabric.claims
      let s1 := mapTiles s (heldRegions s p) (dropContexts (· = .old))
      let s2 := clearClaims s1 (cs.filter (fun c => c.use = .old)) (cs.filter (fun c => c.use ≠ .old))
      let s3 := updFabric s2 p (fun f => { f with claims := f.claims.filter (fun c => decide (c.use ≠ .old)), postScrub := none })
      releaseUnclaimed (endScrub s3 beyond o.failed) p i
    | _, _ => s)

end Sys2Proof.Machine
end

