-- ==== Sys2Proof/Machine/Bays.lean ====
section
/-! DEFINITION. Model cartridges: insertion, identity, directory, hand-over, removal, protection, wear and life records (R219-R252). -/

namespace Sys2Proof.Machine

/-! ### Presence and power (R221-R223) -/

/-- PRESENCE_ASSERTED: the debounce of 50 ms begins. -/
def execPresenceAsserted (b : BayId) (s : State) : Host.Outcome State Fault Refusal :=
  whenUp s (if (s.bays[b]).presence = .absent then updBay s b (fun x => { x with presence := .debouncing }) else s)

/-- PRESENCE_DEBOUNCE_END: the cartridge counts as inserted; 12 V turns on with PERST# asserted. -/
def execPresenceDebounceEnd (b : BayId) (s : State) : Host.Outcome State Fault Refusal :=
  whenUp s (if (s.bays[b]).presence = .debouncing then
    updBay s b (fun x => { x with presence := .inserted, power := true, perst := true, busLow := false }) else s)

/-! ### Identity (R241-R244, R246) -/

def hexDigit (n : Nat) : Byte := BitVec.ofNat 8 (if n < 10 then 48 + n else 55 + n)

/-- A cartridge ID as 16 upper-case hex digits (R242). -/
def idText (id : BitVec 64) : List Byte := (List.range 16).map (fun k => hexDigit (id.toNat / 16 ^ (15 - k) % 16))

/-- Is a cartridge of this ID already accepted in another bay (R244)? -/
def duplicateId (s : State) (b : BayId) (id : BitVec 64) : Bool :=
  allBays.any (fun q => decide (q ≠ b) && (s.bays[q]).accepted && decide ((s.bays[q]).id = id))

/-- A conversation with a secure element: the responses still to come, and the commands sent so far. -/
structure SeTalk where
  answers : List (List Byte)
  sent : List (List Byte) := []
deriving DecidableEq, Repr

/-- Is a response one that `len` allows, its last byte the CRC-8 of the bytes before it (R241)? -/
def answers (len : Nat → Bool) (a : List Byte) : Bool :=
  !a.isEmpty && len (a.length - 1) && decide (crc8 a.dropLast = (a.getLastD 0).toNat)

/-- Send a command up to `n` times until a response's CRC-8 is right (R241). -/
def seAsk (cmd : List Byte) (len : Nat → Bool) : Nat → SeTalk → Option (List Byte) × SeTalk
  | 0, t => (none, t)
  | n + 1, t =>
    let a := t.answers.headD []
    let t1 : SeTalk := { answers := t.answers.drop 1, sent := t.sent ++ [cmd] }
    if answers len a then (some a.dropLast, t1) else seAsk cmd len n t1

/-- One command with its three retries, whose response has `n` bytes before its CRC-8. -/
def seRead (op : Nat) (params : List Byte) (n : Nat) (t : SeTalk) : Option (List Byte) × SeTalk :=
  seAsk (leBytes 1 op ++ params) (fun k => decide (k = n)) 4 t

/-- The certificate chain from an offset on, in parts of 64 bytes; a shorter part is the last (R241; DEDUCED, log entry 107). -/
def seChain : Nat → Nat → SeTalk → Option (List Byte) × SeTalk
  | 0, _, t => (some [], t)
  | fuel + 1, off, t =>
    match seAsk (leBytes 1 0x02 ++ leBytes 2 off ++ leBytes 1 64) (fun k => decide (k ≤ 64)) 4 t with
    | (none, t1) => (none, t1)
    | (some part, t1) =>
      if part.length < 64 then (some part, t1)
      else let r := seChain fuel (off + 64) t1; (r.1.map (part ++ ·), r.2)

/-- Does an identity hold: the chain ends at an enrolled cartridge root, its leaf's serialNumber is the ID as the secure element
sends it, and the signature over the nonce and that ID verifies under the leaf's key (R241, R242; the bytes that are signed are DEDUCED,
log entry 110)? -/
def identityHolds (s : State) (idBytes nonce chain sig : List Byte) : Bool :=
  match (derItems 4 chain).bind (fun xs => chainLeaf (s.nv.cartRoots.toList.filterMap id) (xs.map (·.whole))) with
  | none => false
  | some leaf => decide (leaf.serial = some (idText (BitVec.ofNat 64 (leNat idBytes)))) &&
      ecdsaOk leaf.key (sha256 (nonce ++ idBytes)) (beNat (sig.take 32)) (beNat (sig.drop 32))

/-- Step 3 of R224 after the ID: the chain and the challenge. -/
def challenge (s : State) (idBytes nonce : List Byte) (t : SeTalk) : Bool × SeTalk :=
  match seChain 49 0 t with
  | (none, t1) => (false, t1)
  | (some chain, t1) =>
    match seRead 0x03 nonce 64 t1 with
    | (none, t2) => (false, t2)
    | (some sig, t2) => (identityHolds s idBytes nonce chain sig, t2)

/-- Step 4 of R224: INSERTIONS is incremented, the counters and the armed-image index are read. -/
def readCounters (t : SeTalk) : Option (List Byte × Fin 4) × SeTalk :=
  match seRead 0x05 (leBytes 1 0) 4 t with
  | (none, t1) => (none, t1)
  | (some _, t1) =>
    match seRead 0x04 [] 12 t1 with
    | (none, t2) => (none, t2)
    | (some cs, t2) =>
      match seRead 0x06 [] 1 t2 with
      | (none, t3) => (none, t3)
      | (some a, t3) => (some (cs, Fin.ofNat 4 (field (byteAt a 0) 1 0)), t3)

/-- The cartridge is refused: the cause stands until it is removed (R252). -/
def refuseBay (s : State) (b : BayId) (code : Nat) : State :=
  logIrq (updBay s b (fun x => { x with cause := causeOf code, accepted := false })) code b.val 0 0 false 17

/-- Wear sources that apply are set and stay set; a new one is signalled (R232, R247). -/
def noteWear (s : State) (b : BayId) : State :=
  let x := s.bays[b]
  let w := x.wear ||| wearOf x
  if w = x.wear then s else irq (updBay s b (fun x => { x with wear := w })) 17

/-- At an insertion, one entry for each counter of this cartridge whose warning first applies (R247). -/
def logWear (s : State) (b : BayId) : State :=
  let x := s.bays[b]
  ([0, 1] : List Nat).foldl (fun s k =>
    if x.wear.getLsbD k && !s.nv.wearLogged.contains (x.id, k) then
      logEvent { s with nv := { s.nv with wearLogged := (x.id, k) :: s.nv.wearLogged } } 0x0310 b.val k 0 false
    else s) s

/-- The identity has passed: the counters and the armed index as step 4 read them. -/
def takeIdentity (s : State) (b : BayId) (counters : List Byte) (armed : Fin 4) : State :=
  let s1 := updBay s b (fun x => { x with
    identityDone := true, insertions := leAt counters 0 4, stateWrites := leAt counters 4 4, hours := leAt counters 8 4, armed := armed })
  logWear (noteWear (logIrq s1 0x0311 b.val 0 (s1.bays[b]).id.toNat false 17) b) b

/-- Steps 3 and 4 of R224. An ID that was read stays shown; the first failure refuses the cartridge (R241, R242, R244). -/
def checkIdentity (s : State) (b : BayId) (o : IdentityObs) : State :=
  let said := fun (s : State) (t : SeTalk) => updBay s b (fun x => { x with seSent := t.sent })
  match seRead 0x01 [] 8 { answers := o.answers } with
  | (none, t) => refuseBay (said s t) b 0x0302
  | (some idBytes, t) =>
    let s1 := updBay s b (fun x => { x with id := BitVec.ofNat 64 (leNat idBytes) })
    if duplicateId s1 b (BitVec.ofNat 64 (leNat idBytes)) then refuseBay (said s1 t) b 0x0303
    else match challenge s idBytes o.nonce t with
      | (false, t1) => refuseBay (said s1 t1) b 0x0302
      | (true, t1) =>
        match readCounters t1 with
        | (none, t2) => refuseBay (said s1 t2) b 0x0302
        | (some c, t2) => takeIdentity (said s1 t2) b c.1 c.2

/-- BAY_POWER_GOOD. -/
def execBayPowerGood (b : BayId) (o : IdentityObs) (s : State) : Host.Outcome State Fault Refusal :=
  whenUp s (if (s.bays[b]).power && !(s.bays[b]).good then checkIdentity (updBay s b (fun x => { x with good := true })) b o else s)

/-! ### NVMe (R222-R236, R249) -/

/-- PERST_RELEASE: 100 ms after power good, whatever the identity answered, the link trains, at whatever width and speed it reaches
(R222, R224, R226). -/
def execPerstRelease (b : BayId) (width gen : Nat) (s : State) : Host.Outcome State Fault Refusal :=
  let x := s.bays[b]
  whenUp s (if x.good && x.perst then
    updBay s b (fun x => { x with perst := false, nvme := .training, linkWidth := width, linkGen := gen }) else s)

/-- A load request waits that would read from the bay. -/
def dropQueuedLoad (s : State) (p : PartId) : State :=
  updPart s p (fun x => { x with queued := x.queued.bind (fun k => if k = .hostUnload then some k else none) })

/-- Every use of the cartridge ends; a load in flight from it is aborted as on removal (R231). -/
def endMedia (s : State) (b : BayId) : State :=
  let s1 := logIrq (updBay s b (fun x => { x with
    accepted := false, retried := [], writes := [], setUp := [], nvme := .held, cause := if x.cause = 0 then 5 else x.cause }))
    0x0305 b.val 0 0 false 17
  let s2 := dropQueuedLoad s1 b
  if (s2.parts[b]).load.isSome && (s2.parts[b]).flow.lupin.isNone then abortLoad s2 b cAbortedMedia else s2

/-- The limits of R230. -/
def nvmeOk (o : NvmeObs) : Bool := decide (63 ≤ o.mqes) && decide (o.capTo ≤ 1) && decide (128 ≤ o.mdtsKiB)

/-- The SMART and health log, read at the insertion and every 24 powered hours (R232). -/
def readSmart (s : State) (b : BayId) (critical used : Nat) : State :=
  noteWear (updBay s b (fun x => { x with smartCritical := critical, smartUsed := used })) b

/-- SEQ of the newest life record of the ring: the highest among the blocks whose CRC is valid (R249). -/
def newestLife (ring : List (List Byte)) : Option Nat :=
  ((ring.filter (fun r => decide (r.length = 512) && decide (leAt r 508 4 = crc32c (r.take 508)))).map (fun r => leAt r 4 4)).max?

/-- A cartridge becomes ACCEPTED, unless one of its ID was accepted meanwhile in another bay (R244; DEDUCED, log entry 25). -/
def acceptBay (s : State) (b : BayId) : State :=
  if duplicateId s b (s.bays[b]).id then refuseBay s b 0x0303 else updBay s b (fun x => { x with accepted := true })

/-- Step 7 of R224: the directory, the newest life record and the armed slot. -/
def readDirectory (s : State) (b : BayId) (o : NvmeObs) : State :=
  let s1 := updBay s b (fun x => { x with lifeSeq := match newestLife o.lifeRing with | some n => n + 1 | none => 0 })
  if !directoryOk o.directory then refuseBay s1 b 0x0304
  else
    let slots := (List.range 4).map (readSlot o.directory)
    let slot := slots.getD (s.bays[b]).armed.val {}
    let s2 := updBay s1 b (fun x => { x with progTime := leAt o.directory 8 8, slots := slots })
    if slot.present && slot.crcOk then acceptBay s2 b else refuseBay s2 b 0x0304

/-- Steps 6 and 7 of R224: a cartridge outside R230 is of no use (DEDUCED, log entry 26), a refused one is read no further, and in
service-only mode no image is read (R293). -/
def useCartridge (s : State) (b : BayId) (o : NvmeObs) : State :=
  let x := s.bays[b]
  let s1 := updBay s b (fun x => { x with nvme := .ready, setUp := [], retried := [] })
  if !x.identityDone || decide (x.cause ≠ 0) then s1
  else if !nvmeOk o then endMedia s1 b
  else
    let s2 := readSmart s1 b o.smartCritical o.smartUsed
    if s.glb.serviceOnly then s2 else readDirectory s2 b o

/-- NVME_READY. -/
def execNvmeReady (b : BayId) (o : NvmeObs) (s : State) : Host.Outcome State Fault Refusal :=
  whenUp s (if (s.bays[b]).nvme = .training then useCartridge s b o else s)

/-- Does the bay's partition run an image with this digest (R225)? -/
def runsDigest (s : State) (p : PartId) (d : List Byte) : Bool :=
  isServing s.parts[p].state && (match s.parts[p].active with | some i => decide (i.digest = d) | none => false)

/-- LOAD_HANDOVER: nothing is loaded when the digests match; otherwise the insertion is a load request. -/
def execLoadHandover (b : BayId) (o : LoadObs) (s : State) : Host.Outcome State Fault Refusal :=
  let x := s.bays[b]
  whenUp s (if x.accepted && decide (x.nvme = .ready) && !s.glb.serviceOnly then
    let s1 := updBay s b (fun x => { x with nvme := .done })
    if runsDigest s b (armedSlot s b).digest then s1 else loadRequest s1 b .insertion o
  else s)

/-- The commands of step 6 of R224, and the reads of step 7: controller and namespace data, one I/O queue pair of depth 64, the
directory, the ring of life records in reads of 128 KiB, the SMART log (R229, R230). -/
def setUpCmds : List NvmeCmd :=
  [{ admin := true, opcode := 0x06, arg := 0x01 }, { admin := true, opcode := 0x06, ns := 1 }, { admin := true, opcode := 0x06, ns := 2 },
   { admin := true, opcode := 0x09, arg := 0x07 }, { admin := true, opcode := 0x05, arg := 64 }, { admin := true, opcode := 0x01, arg := 64 },
   nvmeRead 1 0 1] ++ (List.range 8).map (fun k => nvmeRead 2 (256 * k) 256) ++ [{ admin := true, opcode := 0x02, arg := 0x02 }]

/-- The reads that a stream has asked for and not had: of the next chunk and its tag, and, where no DATA may be skipped, of the chunks
after it, at most 32 (R230, R240; DESIGN CHOICE, log entry 106). -/
def loadReads (l : Load) : List NvmeCmd :=
  let next := ((List.range (if l.staged then 1 else 32)).map (l.chunk + ·)).filter (fun i => decide (i < chunkCount l.slot))
  let reads := next.flatMap (fun i =>
    (if i = l.chunk ∨ i % 256 = 0 then [tagRead l.slot i] else []) ++ [chunkRead l.slot i])
  if streaming l then (reads.filter (fun c => !l.got.contains c)).take 32 else []

/-- The commands that a bay's cartridge has not completed. -/
def outstanding (s : State) (b : BayId) : List NvmeCmd :=
  let x := s.bays[b]
  (if x.nvme = .training then setUpCmds.filter (fun c => !x.setUp.contains c) else []) ++ x.writes ++
  (match s.parts[b].load with | some l => loadReads l | none => [])

/-- A command fails: once it is retried after a controller reset, which undoes the set-up; twice the use of the cartridge ends
(R231). -/
def mediaFailure (s : State) (b : BayId) (c : NvmeCmd) : State :=
  if (s.bays[b]).retried.contains c then endMedia s b
  else updBay s b (fun x => { x with retried := c :: x.retried, resets := x.resets + 1, setUp := [] })

/-- A command's data is taken. -/
def completeCmd (s : State) (b : BayId) (c : NvmeCmd) : State :=
  let s1 := updBay s b (fun x => { x with
    retried := x.retried.erase c, writes := x.writes.erase c, setUp := if x.nvme = .training then c :: x.setUp else x.setUp })
  updLoad s1 b (fun l => { l with got := c :: l.got })

/-- Is a command one that the bay's cartridge has not completed? -/
def cmdOut (s : State) (b : BayId) (c : NvmeCmd) : Bool :=
  let x := s.bays[b]
  decide (x.presence = .inserted) && decide (x.nvme ≠ .held) && (outstanding s b).contains c

/-- NVME_COMMAND_COMPLETION: its data is taken, or its error status counts as a failure. -/
def execNvmeCommandCompletion (c : BayCmd) (ok : Bool) (s : State) : Host.Outcome State Fault Refusal :=
  whenUp s (if cmdOut s c.bay c.cmd then (if ok then completeCmd s c.bay c.cmd else mediaFailure s c.bay c.cmd) else s)

/-- NVME_COMMAND_TIMEOUT. -/
def execNvmeCommandTimeout (c : BayCmd) (s : State) : Host.Outcome State Fault Refusal :=
  whenUp s (if cmdOut s c.bay c.cmd then mediaFailure s c.bay c.cmd else s)

/-! ### Removal and protection (R20, R221, R227, R314) -/

/-- Step 4 of R227: the partition runs on, or drains when its image says so (R20). -/
def stopOnRemoval (s : State) (p : PartId) : State :=
  match s.parts[p].active with
  | some i => if (imgContract i).stopOnRemoval && decide (s.parts[p].state = .running) then beginDrain s p .stopOnRemoval else s
  | none => s

/-- Steps 3-5 of R227. -/
def removeCartridge (s : State) (b : BayId) : State :=
  let s1 := dropQueuedLoad (logIrq s 0x0312 b.val 0 (s.bays[b]).id.toNat false 17) b
  let s2 := if (s1.parts[b]).load.isSome && (s1.parts[b]).flow.lupin.isNone then abortLoad s1 b cAbortedRemoval else s1
  updBay (stopOnRemoval s2 b) b (fun _ => {})

/-- REMOVED: a drop during the debounce restarts it; any later one is a removal (R223). -/
def execRemoved (b : BayId) (s : State) : Host.Outcome State Fault Refusal :=
  whenUp s (match (s.bays[b]).presence with
    | .absent => s
    | .debouncing => updBay s b (fun x => { x with presence := .absent })
    | .inserted => removeCartridge s b)

/-- OVERCURRENT: bay power stays off until presence drops and returns. -/
def execOvercurrent (b : BayId) (s : State) : Host.Outcome State Fault Refusal :=
  whenUp s (if (s.bays[b]).power then
    refuseBay (updBay s b (fun x => { x with
      power := false, good := false, perst := true, tripped := true, accepted := false, linkWidth := 0, linkGen := 0 })) b 0x0301
  else s)

/-! ### Hours, SMART, life records (R232, R246, R251) -/

/-- Is the cartridge refused under the chapter's own causes, rather than its load (R252)? -/
def refused (x : Bay) : Bool := decide (1 ≤ x.cause) && decide (x.cause ≤ 5)

/-- POWERED_HOUR: a refused cartridge is never written (R252). -/
def execPoweredHour (b : BayId) (s : State) : Host.Outcome State Fault Refusal :=
  let x := s.bays[b]
  whenUp s (if x.good && x.identityDone && !refused x then
    updBay s b (fun x => { x with hours := satInc x.hours, seSent := x.seSent ++ [seIncrement 2] }) else s)

/-- SMART_READ_PERIOD: every 24 powered hours, accepted or not (R232). -/
def execSmartReadPeriod (b : BayId) (critical used : Nat) (s : State) : Host.Outcome State Fault Refusal :=
  let x := s.bays[b]
  whenUp s (if x.good && x.identityDone && (decide (x.nvme = .ready) || decide (x.nvme = .done)) then readSmart s b critical used else s)

/-- PERIODIC_LIFE_RECORD: skipped from 100,000 state writes on (R251). -/
def execPeriodicLifeRecord (b : BayId) (s : State) : Host.Outcome State Fault Refusal :=
  whenUp s (if writable s.bays[b] && decide ((s.bays[b]).stateWrites < 100000) then noteWear (writeLife s b 0) b else s)

end Sys2Proof.Machine
end

