-- ==== Sys2Proof/Machine/Census.lean ====
section
/-! DEFINITION. The Larkspur census (R460-R469). -/

namespace Sys2Proof.Machine

/-! ### Requests and ticks (R460, R461, R463) -/

/-- First multiple of 16 ns at least 100 us after a timestamp (R461). -/
def hostTick (t : Nat) : Nat := (t + 100000 + 15) / 16 * 16

/-- A request in a state that takes no census sets CEN_ERR. -/
def censusErr (c : Census) : Census := { c with err := true }

/-- A request that is accepted: it starts a census, is satisfied by the one whose tick is to come, or becomes the queued one
(R463). -/
def askCensus (r : CensusRun) (c : Census) : Census :=
  match c.run with
  | none => { c with run := some r }
  | some x => if x.latched then { c with queued := true } else c

/-- CENSUS_REQUEST. PRT_CEN_REQ has one bit; a write with another bit set is ignored (R471). -/
def execCensusRequest (p : PartId) (v : Word) (s : State) : Host.Outcome State Fault Refusal :=
  whenUp s (if v ≠ 1 then s
    else if isServing s.parts[p].state then updCensus s p (askCensus (censusOf s p (hostTick (now s)) false))
    else updCensus s p censusErr)

/-- CENSUS_PERIOD_WRITE: 0 ends the periodic census, 1-3,600 chooses its first tick as a host request's. -/
def execCensusPeriodWrite (p : PartId) (v : Word) (s : State) : Host.Outcome State Fault Refusal :=
  whenUp s (if 3600 < v.toNat then s
    else updCensus s p (fun c => { c with period := v.toNat, nextPeriodic := if v = 0 then none else some (hostTick (now s)) }))

/-! ### The latches (R462) -/

def latchQueue (q : QueueSt) : QueueLatch :=
  { channel := q.cfg.channel, tile := q.tile, occHigh := q.occHigh, segHigh := q.segHigh, episodes := q.episodes, spilled := q.spilled }

def latchShed (g : StageSt) : ShedLatch :=
  { number := g.number, candidates := g.shedCandidates, windows := g.shedWindows, episodes := g.shedEpisodes }

/-- The tick of a census: it reports the image that is active now; an automatic one keeps the image that faulted (R464). -/
def latchRun (s : State) (p : PartId) (r : CensusRun) : CensusRun :=
  let x := s.parts[p]
  let r1 := match x.active with
    | some i => { r with image := i, placement := x.placement.getD {}, ldgGen := x.regs.ldgGen }
    | none => r
  { r1 with latched := true, holdover := s.tbs.holdover, queues := x.fabric.queues.map latchQueue,
            sheds := x.fabric.stages.map latchShed, spillEpisodes := x.fabric.spillEpisodes, lastDrain := x.fabric.lastDrain }

/-- Every tile of the census copies its counters into its latch, and the run holds the others. -/
def takeTick (s : State) (p : PartId) (r : CensusRun) : State :=
  let r1 := latchRun s p r
  updCensus (mapTiles s (placedRegions r1.placement) (fun t => { t with latch := t.counters })) p (fun c => { c with run := some r1 })

/-- The next periodic tick is one period on. -/
def nextPeriod (c : Census) : Census := { c with nextPeriodic := c.nextPeriodic.map (fun t => t + 1000000000 * c.period) }

/-- The tick of the census in flight that has not passed, and the periodic tick. -/
def censusTicks (c : Census) : List Nat :=
  (match c.run with | some r => if r.latched then [] else [r.tick] | none => []) ++ c.nextPeriodic.toList

/-- CENSUS_TICK, once such a tick has come: the earlier of the tick of the census in flight and the periodic tick. A periodic tick before
the tick of a census in flight is satisfied by it; one that falls while a census is being collected is skipped (R463; log entry 41). -/
def execCensusTick (p : PartId) (s : State) : Host.Outcome State Fault Refusal :=
  let c := s.parts[p].census
  whenUp s (if !(censusTicks c).any (fun t => decide (t ≤ now s)) then s
  else match c.run, c.nextPeriodic with
    | none, none => s
    | none, some t =>
      if isServing s.parts[p].state then updCensus (takeTick s p (censusOf s p t false)) p nextPeriod
      else updCensus s p (fun c => nextPeriod (censusErr c))
    | some r, none => if r.latched then s else takeTick s p r
    | some r, some t =>
      if r.latched then updCensus s p (fun c => nextPeriod { c with skipped := sat16 (c.skipped + 1) })
      else if t < r.tick then updCensus s p nextPeriod
      else if t = r.tick then updCensus (takeTick s p r) p nextPeriod
      else takeTick s p r)

/-! ### Gathering and records (R465-R468) -/

/-- Can the supervisor read a tile (R437, R465)? -/
def tileReadable (s : State) (t : Nat) : Bool := (s.regions[tileRegion t]).supplyOn && reachable s (tileRegion t)

/-- Counters of 32 bits are summed with saturation, those of 48 bits modulo 2^48. -/
def sum32 (ns : List Nat) : Nat := sat32 ns.sum

def sum48 (ns : List Nat) : Nat := ns.sum % 2 ^ 48

/-- Tiles of a stage entry. -/
def entryTiles (pl : Placement) (e : CensusEntry) : List Nat :=
  match pl.pieces[e.piece]? with
  | some pp => (rectTiles e.rect).map (fun t => pieceTile pp t.1 t.2)
  | none => []

/-- The 96 bytes of a stage entry (R467). -/
def stageEntry (s : State) (r : CensusRun) (e : CensusEntry) : List Byte :=
  let ts := entryTiles r.placement e
  let ok := ts.filter (tileReadable s)
  let ls := ok.map (fun t => (getTile s t).latch)
  let shed := (r.sheds.find? (fun g => g.number = e.number)).getD {}
  leBytes 1 0 ++ leBytes 1 e.opcode ++ leBytes 2 e.number ++ leBytes 1 e.piece ++ leBytes 1 (boolNat (ok.length ≠ ts.length)) ++
  leBytes 2 ok.length ++ leBytes 8 (sum48 (ls.map (·.steps))) ++ leBytes 8 (sum48 (ls.map (·.starved))) ++
  leBytes 8 (sum48 (ls.map (·.blocked))) ++ leBytes 4 (sum32 (ls.map (·.overflow))) ++ leBytes 4 (sum32 (ls.map (·.reserved))) ++
  leBytes 4 (sum32 (ls.map (·.collision))) ++ leBytes 4 (sum32 (ls.map (·.eccCorr))) ++ leBytes 4 (sum32 (ls.map (·.eccUncorr))) ++
  leBytes 4 (sum32 (ls.map (·.linkErr))) ++ leBytes 4 (sum32 (ls.map (·.configErr))) ++ leBytes 4 (sat32 shed.candidates) ++
  leBytes 4 (sat32 shed.windows) ++ leBytes 4 (sat32 shed.episodes) ++ leBytes 8 (sum48 (ls.map (·.busy))) ++ zeros 16

/-- The 96 bytes of a channel entry (R468). -/
def channelEntry (s : State) (r : CensusRun) (e : CensusEntry) : List Byte :=
  let qs := r.queues.filter (fun q => q.channel = e.number)
  let ok := qs.filter (fun q => tileReadable s q.tile)
  leBytes 1 1 ++ leBytes 1 e.opcode ++ leBytes 2 e.number ++ leBytes 1 e.piece ++ leBytes 1 (boolNat (ok.length ≠ qs.length)) ++
  leBytes 2 ok.length ++ leBytes 2 ((ok.map (·.occHigh)).foldl max 0) ++ leBytes 2 ((ok.map (·.segHigh)).foldl max 0) ++
  leBytes 4 (sum32 (ok.map (·.episodes))) ++ leBytes 4 (sum32 (ok.map (·.spilled))) ++ zeros 76

def censusEntry (s : State) (r : CensusRun) (e : CensusEntry) : List Byte :=
  if e.isChannel then channelEntry s r e else stageEntry s r e

/-- Entries in groups of at most 41. -/
def groups41 : Nat → List (List Byte) → List (List (List Byte))
  | 0, _ => []
  | n + 1, es => if es.isEmpty then [] else es.take 41 :: groups41 n (es.drop 41)

/-- A census record (R466). The flag of tiles not read stands in a record any of whose entries carries it (log entry 42). -/
def censusRec (r : CensusRun) (id parts k : Nat) (es : List (List Byte)) : List Byte :=
  let flags := boolNat (k = 0) + 2 * boolNat (k + 1 = parts) + 4 * boolNat r.holdover +
    8 * boolNat (es.any (fun e => bitOf (byteAt e 5) 0)) + 16 * boolNat r.automatic
  leBytes 1 0x03 ++ leBytes 1 flags ++ leBytes 2 (32 + 96 * es.length) ++ leBytes 4 id ++ leBytes 8 r.tick ++ leBytes 2 k ++
  leBytes 2 es.length ++ leBytes 4 r.ldgGen ++ leBytes 4 (sat32 r.spillEpisodes) ++ leBytes 4 (sat32 r.lastDrain) ++ es.flatten

/-- The records of a census, in PART order. -/
def censusRecs (s : State) (r : CensusRun) (id : Nat) : List (List Byte) :=
  let es := (imgCensusMap r.image).map (censusEntry s r)
  let gs := groups41 (es.length + 1) es
  (List.range gs.length).map (fun k => censusRec r id gs.length k (gs.getD k []))

/-- What follows a census: the final census of a fault entry, the queued one, or none. -/
def nextRun (s : State) (p : PartId) (c : Census) : Census :=
  match c.finalRun with
  | some f => { c with run := some f, finalRun := none, queued := false }
  | none =>
    if c.queued && isServing s.parts[p].state then { c with run := some (censusOf s p (hostTick (now s)) false), queued := false }
    else { c with run := none, queued := false, cancelled := c.cancelled || c.queued }

/-- CENSUS_COLLECTED: the records enter the export path, and the CEN window holds them. -/
def execCensusCollected (p : PartId) (s : State) : Host.Outcome State Fault Refusal :=
  let c := s.parts[p].census
  whenUp s (match c.run with
    | none => s
    | some r =>
      if !r.latched then s
      else
        let recs := censusRecs s r c.nextId
        let s1 := recs.foldl (fun s b => enterRec s p (.census c.nextId b)) s
        updCensus s1 p (fun c => nextRun s p { c with records := recs, lastId := some c.nextId, nextId := (c.nextId + 1) % 2 ^ 32 }))

end Sys2Proof.Machine
end

