-- ==== Sys2Proof/Machine/Stages.lean ====
section
/-! DEFINITION. What the T-class stages and the verdict stage compute from whole sets of tokens (R148, R164-R177, R494).
Nothing here reads the state. -/

namespace Sys2Proof.Machine

/-! ### Tokens (R139, R165, R167, R169) -/

/-- The flits of a token on a lane from its data words; the last carries the end mark. -/
def mkToken (lane : Nat) : List Nat → List Flit
  | [] => []
  | [w] => [mkFlit lane true w]
  | w :: ws => mkFlit lane false w :: mkToken lane ws

/-- A window token on lane 5 (R167). -/
def windowToken (count : Nat) (shed : Bool) : Flit := mkFlit 5 true (count + 65536 * boolNat shed)

/-- The window-end token of an extraction stage (R166). -/
def windowEndToken (shed : Bool) : Flit := mkFlit 4 true (0xFFFFFFFE + boolNat shed)

/-- Is a whole token the window-end token? -/
def isWindowEnd (tok : List Flit) : Bool := tok.length = 1 && decide (0xFFFFFFFE ≤ flitData (tok.getD 0 0))

/-- A whole token again, sent on a lane. -/
def resend (lane : Nat) (tok : List Flit) : List Flit := mkToken lane (tok.map flitData)

/-- Word `i` of a token. -/
def tokWord (tok : List Flit) (i : Nat) : Nat := flitData (tok.getD i 0)

def candBox (tok : List Flit) : Box :=
  ⟨tokWord tok 0 % 65536, tokWord tok 0 / 65536, tokWord tok 1 % 65536, tokWord tok 1 / 65536⟩

/-- The declared 16-bit key field (R148, R165). -/
def candKey (tok : List Flit) : Nat := tokWord tok 2 / 65536

/-- Elements of width `w` packed in data words (R114). -/
def unpackWords (w : Nat) (ws : List Nat) : List Nat :=
  ws.flatMap (fun x => (List.range (32 / w)).map (fun i => x / 2 ^ (w * i) % 2 ^ w))

/-- Data words of elements of width `w`; at most `fuel`. -/
def packWords (w : Nat) : Nat → List Nat → List Nat
  | 0, _ => []
  | n + 1, es => if es.isEmpty then [] else packData w (es.take (32 / w)) :: packWords w n (es.drop (32 / w))

/-- Feature elements of a candidate token. -/
def candFeats (m : List Byte) (tok : List Flit) : List Nat :=
  (unpackWords ((Config.params m).featureWidth) ((tok.drop 3).map flitData)).take ((Config.params m).featureCount)

/-! ### Orders (R148, R171) -/

/-- Descending key, equal keys in their order. -/
def byKey (toks : List (List Flit)) : List (List Flit) := insSort (fun a b => decide (candKey b ≤ candKey a)) toks

/-- Ascending key, equal keys in their order. -/
def byKeyUp (toks : List (List Flit)) : List (List Flit) := insSort (fun a b => decide (candKey a ≤ candKey b)) toks

/-! ### Non-maximum suppression (R171, R172) -/

def boxArea (b : Box) : Int := ((b.x1 : Int) - b.x0 + 1) * ((b.y1 : Int) - b.y0 + 1)

/-- Width of the overlap of two inclusive intervals; a negative width counts as 0. -/
def overlap1 (a0 a1 b0 b1 : Nat) : Int := max 0 (((min a1 b1 : Nat) : Int) - (max a0 b0 : Nat) + 1)

/-- Is `b` suppressed by a kept `a` at threshold `t` sixteenths: 16 I > t U? -/
def suppresses (t : Nat) (a b : Box) : Bool :=
  let i := overlap1 a.x0 a.x1 b.x0 b.x1 * overlap1 a.y0 a.y1 b.y0 b.y1
  decide ((t : Int) * (boxArea a + boxArea b - i) < 16 * i)

/-- The members kept, in visiting order; a kept member beyond the keep limit suppresses too. -/
def nmsKept (t : Nat) (toks : List (List Flit)) : List (List Flit) :=
  (byKey toks).foldl (fun kept b => if kept.any (fun a => suppresses t (candBox a) (candBox b)) then kept else kept ++ [b]) []

/-! ### kNN graph build (R168, R169) -/

/-- Squared distance of two centres in half-pixels. -/
def boxDist (a b : Box) : Int :=
  let dx : Int := (a.x0 + a.x1 : Nat) - (b.x0 + b.x1 : Nat)
  let dy : Int := (a.y0 + a.y1 : Nat) - (b.y0 + b.y1 : Nat)
  dx * dx + dy * dy

/-- The k nearest other members of member `i`, nearest first, ties by ascending admit index. -/
def nearest (k : Nat) (boxes : List Box) (i : Nat) : List Nat :=
  let me := boxes.getD i ⟨0, 0, 0, 0⟩
  let others := ((List.range boxes.length).filter (· ≠ i)).map (fun j => (boxDist me (boxes.getD j ⟨0, 0, 0, 0⟩), j))
  ((insSort (fun a b => decide (a.1 ≤ b.1)) others).take k).map (·.2)

/-- An edge token's word (R169). -/
def edgeWord (src dst rank : Nat) : Nat := src + 4096 * dst + 16777216 * rank

/-- Every edge token, by ascending source, then rank. -/
def knnEdges (k : Nat) (toks : List (List Flit)) : List (List Flit) :=
  let boxes := toks.map candBox
  (List.range toks.length).flatMap (fun i =>
    let ns := nearest k boxes i
    (List.range ns.length).map (fun r => [mkFlit 4 true (edgeWord i (ns.getD r 0) r)]))

/-! ### Set pooling (R168) -/

/-- Sum of one feature position over the members, in admit order, in A32: accumulator and overflows. -/
def poolSum (fmt : Nat) (codes : List Nat) : Acc × Nat :=
  codes.foldl (fun acc c =>
    let a := splitAct fmt c
    let r := accFloat acc.1 (if a.nan then .nan else .num (a.operand < 0) a.operand.natAbs a.exp)
    (r.1, acc.2 + r.2 + boolNat a.counted)) ({}, 0)

/-- The order of values in which -0 stands below +0 (R162). -/
def belowV (x y : FV) : Bool :=
  ltV x y || (cmpV x y = some 0 && negV x && !negV y)

/-- The larger of two values; a NaN makes the result NaN. -/
def maxV (x y : FV) : FV := if x = .nan ∨ y = .nan then .nan else if belowV x y then y else x

def minV (x y : FV) : FV := if x = .nan ∨ y = .nan then .nan else if belowV y x then y else x

/-- The float layout of an activation format; FP16 for the integer formats, which hold no infinity. -/
def layoutOf (fmt : Nat) : FFmt := (fmtOf fmt).getD fFP16

/-- Largest element of one feature position: value and infinities counted. -/
def poolMax (fmt : Nat) (codes : List Nat) : FV × Nat :=
  match codes.map (fun c => finiteV (layoutOf fmt) (decodeElem fmt c)) with
  | [] => (.nan, 0)
  | x :: xs => (xs.foldl (fun a b => maxV a b.1) x.1, ((x :: xs).map (fun y => boolNat y.2)).sum)

/-- Codes of one feature position, by member. -/
def featColumn (m : List Byte) (toks : List (List Flit)) (j : Nat) : List Nat := toks.map (fun tok => (candFeats m tok).getD j 0)

/-! ### Connected components (R164-R166, R494) -/

/-- Rank value of a score: a NaN ranks below every number, an infinity acts as the largest finite value. -/
def scoreVal (fmt code : Nat) : FV := (finiteV (layoutOf fmt) (decodeElem fmt code)).1

/-- Does score `b` outrank score `a` strictly? -/
def outranks (fmt a b : Nat) : Bool :=
  match scoreVal fmt a, scoreVal fmt b with
  | _, .nan => false
  | .nan, _ => true
  | x, y => ltV x y

/-- The key of a highest score element (R494). -/
def scoreKey (fmt code : Nat) : Nat :=
  if fmt = 0 then code % 256
  else if fmt = 1 then (if code % 256 < 128 then code % 256 else 0)
  else if ltV (intV 0) (scoreVal fmt code) then
    (if decodeElem fmt code = .inf false then (if fmt = 9 then 0x7B else if fmt = 10 then 0x7BFF else 0x7F7F) else code)
  else 0

/-- Two components become one that keeps the label of the first. -/
def joinComps (fmt : Nat) (a b : Comp) : Comp :=
  let top := if outranks fmt a.score b.score then b
    else if outranks fmt b.score a.score then a
    else if a.best ≤ b.best then a else b
  { label := a.label, area := a.area + b.area,
    box := ⟨min a.box.x0 b.box.x0, min a.box.y0 b.box.y0, max a.box.x1 b.box.x1, max a.box.y1 b.box.y1⟩,
    first := min a.first b.first, best := top.best, score := top.score, feats := top.feats, lastRow := max a.lastRow b.lastRow }

/-- Merge component `l2` into `l1`; labels in both rows follow. -/
def mergeLabels (fmt l1 l2 : Nat) (s : Scan) : Scan :=
  match s.opened.find? (fun c => c.label = l1), s.opened.find? (fun c => c.label = l2) with
  | some a, some b =>
    let ren := fun (l : Nat) => if l = l2 then l1 else l
    { s with opened := (s.opened.filter (fun c => c.label ≠ l2)).map (fun c => if c.label = l1 then joinComps fmt a b else c)
             above := s.above.map ren, row := s.row.map ren }
  | _, _ => s

/-- The lowest label 1-4,096 that no open component holds. -/
def freeLabel (s : Scan) : Option Nat :=
  if 4096 ≤ s.opened.length then none
  else (List.range (s.opened.length + 1)).findSome? (fun i => if s.opened.any (fun c => c.label = i + 1) then none else some (i + 1))

/-- The mark of a shed component's pixels. -/
def shedLabel : Nat := 4097

/-- Labels of the neighbours already scanned of the pixel at column `x`: west, north-west, north, north-east. -/
def scanNbrs (eight : Bool) (x : Nat) (s : Scan) : List Nat :=
  let at_ := fun (l : List Nat) (i : Nat) => l.getD i 0
  let west := if 0 < x then [at_ s.row (x - 1)] else []
  let nw := if eight && 0 < x then [at_ s.above (x - 1)] else []
  let ne := if eight then [at_ s.above (x + 1)] else []
  ((west ++ nw ++ [at_ s.above x] ++ ne).filter (· ≠ 0)).eraseDups

/-- The next pixel, in raster order, and the label merges it made. A pixel that touches shed pixels only is of the shed component;
one that also touches a labelled component joins that one (DESIGN CHOICE, log entry 99). -/
def scanPixel (w : Nat) (eight : Bool) (fmt : Nat) (fg : Bool) (score : Nat) (feats : List Nat) (s : Scan) : Scan × Nat :=
  let i := s.pixel
  let x := i % w
  let y := i / w
  let s := { s with pixel := i + 1 }
  if !fg then ({ s with row := s.row ++ [0] }, 0)
  else
    let nbrs := scanNbrs eight x s
    match nbrs.filter (· ≠ shedLabel) with
    | [] =>
      if nbrs.contains shedLabel then ({ s with row := s.row ++ [shedLabel] }, 0)
      else match freeLabel s with
       | none => ({ s with row := s.row ++ [shedLabel], shed := s.shed + 1 }, 0)
       | some l => ({ s with row := s.row ++ [l],
                             opened := s.opened ++ [{ label := l, box := ⟨x, y, x, y⟩, area := 1, first := i, best := i, score := score,
                                                      feats := feats, lastRow := y }] }, 0)
    | l :: rest =>
      let s1 := rest.foldl (fun s l2 => mergeLabels fmt l l2 s) s
      ({ s1 with row := s1.row ++ [l],
                 opened := s1.opened.map (fun c => if c.label = l then
                   let c1 := { c with box := ⟨min c.box.x0 x, c.box.y0, max c.box.x1 x, y⟩, area := c.area + 1, lastRow := y }
                   if outranks fmt c.score score then { c1 with best := i, score := score, feats := feats } else c1 else c) }, rest.length)

/-- The end of a row: components with no pixel on it are complete, and after the last row every one, all by ascending x of their
first pixel (R166). -/
def scanRowEnd (w y : Nat) (last : Bool) (s : Scan) : Scan × List Comp :=
  let fin := fun (c : Comp) => last || decide (c.lastRow < y)
  ({ s with opened := s.opened.filter (fun c => !fin c), above := s.row, row := [] },
   insSort (fun (a b : Comp) => decide (a.first % w ≤ b.first % w)) (s.opened.filter fin))

/-- A candidate token of a component (R165). -/
def compToken (m : List Byte) (c : Comp) : List Flit :=
  mkToken 4 ([c.box.x0 + 65536 * c.box.y0, c.box.x1 + 65536 * c.box.y1, min c.area 65535 + 65536 * scoreKey (byteAt m 3) c.score] ++
    packWords (Config.params m).featureWidth (c.feats.length + 1) c.feats)

/-- An extraction stage's next pixel: the scan after it, the tokens of the components that complete with it, and its steps, one
for the pixel and one a label merge. -/
def extractPixel (m : List Byte) (mask score : Nat) (feats : List Nat) (s : Scan) : Scan × List Flit × Nat :=
  let q := Config.params m
  let i := s.pixel
  let p := scanPixel q.windowWidth (q.connectivity = 8) (byteAt m 3) (mask ≠ 0) score feats s
  if (i + 1) % q.windowWidth ≠ 0 then (p.1, [], 1 + p.2)
  else
    let r := scanRowEnd q.windowWidth (i / q.windowWidth) (decide (i + 1 = q.windowWidth * q.windowHeight)) p.1
    (r.1, ((r.2.filter (fun c => decide (q.minArea ≤ c.area))).map (compToken m)).flatten, 1 + p.2)

/-! ### What a stage sends for a whole set -/

/-- SETS of R272: set-size bound, shed quota, count maximum. -/
def setBound (m : List Byte) : Nat := leAt m 20 2
def shedQuota (m : List Byte) : Nat := leAt m 22 2

/-- The declared maximum of R140: the count maximum, or the stage's member limit where that is 0. -/
def countMax (m : List Byte) : Nat := if leAt m 26 2 = 0 then memberLimit (byteAt m 0) else leAt m 26 2

/-- Window token, then data tokens on lane 4. -/
def sendSet (shed : Bool) (toks : List (List Flit)) : List Flit :=
  windowToken toks.length shed :: (toks.map (resend 4)).flatten

/-! ### Set attention and message passing (R168)

Their order and rounding points are the spec's; where a weight stands is not (log entry 8), and what it leaves open of the
formats between their steps is log entry 98. -/

/-- Weight code of a matrix of the stage: in the tile's block memory, relative to its weights' base register. -/
def setWeight (m : List Byte) (mem : List Host.Cell) (k base mat o i : Nat) : Nat :=
  let a := Config.setWeight m mat o i
  let at_ := fun (n : Nat) => readCodeword mem k ((base + n) % 2048)
  laneCode (byteAt m 2) (at_ a.1) (at_ (a.1 + 1)) a.2.val

/-- Sum of the products of activations (format, code) and weights of one format, in list order: value, overflows, reserved codes. -/
def dotProduct (intMode : Bool) (wfmt : Nat) (xs : List ((Nat × Nat) × Nat)) : FV × Nat × Nat :=
  let r := xs.foldl (fun (acc : Acc × Nat × Nat) x =>
    let a := splitAct x.1.1 x.1.2
    let l := laneStep intMode (buildTable a.operand) a.exp a.nan wfmt x.2 acc.1
    (l.1, acc.2.1 + l.2.1 + boolNat a.counted, acc.2.2 + l.2.2)) ({}, 0, 0)
  (accVal intMode r.1, r.2)

/-- Sum of A32 values in list order. -/
def sumA32 (vs : List FV) : FV × Nat :=
  let r := vs.foldl (fun (acc : Acc × Nat) v => let a := accFloat acc.1 v; (a.1, acc.2 + a.2)) ({}, 0)
  (a32Val r.1.bits, r.2)

/-- 1/√d: exact when d is a power of 4, else rounded to FP16. -/
def invSqrt (d : Nat) : FV :=
  let y := fuExact 8 (intV d)
  if d = 4 ^ (Nat.log2 d / 2) then y else decodeF fFP16 (encodeF fFP16 y).1

/-- Set attention for the members' feature codes: new codes by member, and overflows and reserved codes. -/
def attention (m : List Byte) (mem : List Host.Cell) (k base : Nat) (xs : List (List Nat)) : List (List Nat) × Nat × Nat :=
  let q := Config.params m
  let d := q.headWidth
  let im := integerMode m
  let project := fun (fmt mat h : Nat) (x : List Nat) => (List.range d).map (fun o =>
    let r := dotProduct im (byteAt m 2) ((List.range x.length).map (fun i => ((byteAt m 3, x.getD i 0), setWeight m mem k base mat (d * h + o) i)))
    let c := convert r.1 fmt
    (c.1, r.2.1 + c.2, r.2.2))
  let codes := fun (l : List (Nat × Nat × Nat)) => l.map (·.1)
  let tally := fun (l : List (Nat × Nat × Nat)) => ((l.map (·.2.1)).sum, (l.map (·.2.2)).sum)
  let add := fun (a b : Nat × Nat) => (a.1 + b.1, a.2 + b.2)
  let head := fun (h : Nat) =>
    let qs := xs.map (project (byteAt m 4) 0 h)
    let ks := xs.map (project 8 1 h)
    let vs := xs.map (project 8 2 h)
    let rows := qs.map (fun qi =>
      let s := ks.map (fun kj =>
        let r := dotProduct false 8 ((List.range d).map (fun c => ((byteAt m 4, (codes qi).getD c 0), (codes kj).getD c 0)))
        let x := a32Of (mulV r.1 (invSqrt d))
        (a32Val x.1, r.2.1 + boolNat x.2))
      let top := (s.map (·.1)).foldl maxV (.inf true)
      let e := s.map (fun x => functionUnit 6 0 0 (a32Of (addV x.1 (negateV top))).1)
      let z := sumA32 (e.map (fun x => a32Val x.1))
      let inv := functionUnit 7 0 0 (a32Of z.1).1
      let p := e.map (fun x => convert (mulV (a32Val x.1) (a32Val inv.1)) 10)
      let out := (List.range d).map (fun c =>
        let r := dotProduct false 8 ((List.range p.length).map (fun j => ((10, (p.getD j (0, 0)).1), (codes (vs.getD j [])).getD c 0)))
        let y := convert r.1 (byteAt m 4)
        (y.1, r.2.1 + y.2, r.2.2))
      (out, (s.map (·.2)).sum + (e.map (·.2)).sum + z.2 + inv.2 + (p.map (·.2)).sum))
    (rows.map (fun r => codes r.1),
     [qs, ks, vs, rows.map (·.1)].foldl (fun n l => l.foldl (fun n x => add n (tally x)) n) ((rows.map (·.2)).sum, 0))
  let hs := (List.range q.heads).map head
  ((List.range xs.length).map (fun i => (hs.map (fun h => h.1.getD i [])).flatten), hs.foldl (fun n h => add n h.2) (0, 0))

/-- One round of message passing over nodes whose elements are (format, code): the aggregate over each node's edges in rank order,
then the pointwise update. -/
def messageRound (m : List Byte) (mem : List Host.Cell) (k base : Nat) (nbrs : List (List Nat)) (fmt : Nat) (xs : List (List Nat)) :
    List (List Nat) × Nat × Nat :=
  let q := Config.params m
  let n := q.featureCount
  let rs := (List.range xs.length).map (fun i =>
    let ns := (nbrs.getD i []).map (fun j => xs.getD j [])
    let agg := (List.range n).map (fun f =>
      let col := ns.map (fun x => x.getD f 0)
      if q.aggregateMax then
        (if col.isEmpty then let c := convert (decodeF fFP16 q.emptyValue) fmt; ((fmt, c.1), c.2)
         else let r := poolMax fmt col; let c := convert r.1 fmt; ((fmt, c.1), r.2 + c.2))
      else let r := poolSum fmt col; let c := convert (a32Val r.1.bits) (byteAt m 4); ((byteAt m 4, c.1), r.2 + c.2))
    let own := (xs.getD i []).map (fun c => (fmt, c))
    let input := own ++ agg.map (·.1)
    let out := (List.range n).map (fun o =>
      let r := dotProduct false (byteAt m 2) ((List.range input.length).map (fun j => (input.getD j (0, 0), setWeight m mem k base 0 o j)))
      let y := outA32 m r.1 {} none
      (y.1, r.2.1 + y.2, r.2.2))
    (out.map (·.1), (agg.map (·.2)).sum + (out.map (·.2.1)).sum, (out.map (·.2.2)).sum))
  (rs.map (·.1), (rs.map (·.2.1)).sum, (rs.map (·.2.2)).sum)

/-- The neighbours of a node by its edge tokens, in rank order (R169). -/
def edgesOf (edges : List (List Flit)) (i : Nat) : List Nat :=
  let es := (edges.map (fun e => tokWord e 0)).filter (fun w => field w 11 0 = i)
  (insSort (fun a b => decide (field a 27 24 ≤ field b 27 24)) es).map (fun w => field w 23 12)

/-- Rounds of message passing: the declared number, ended by the loop maximum of SETS where that is smaller (R141, R168). -/
def messageRounds (m : List Byte) : Nat :=
  let r := (Config.params m).rounds
  if leAt m 24 2 = 0 then r else min r (leAt m 24 2)

/-- Each member's box fields with its new features; overflows and reserved codes (R168). -/
def newFeatures (m : List Byte) (mem : List Host.Cell) (k base : Nat) (members edges : List (List Flit)) : List (List Flit) × Nat × Nat :=
  let xs := members.map (candFeats m)
  let r := if byteAt m 0 = 0x33 then attention m mem k base xs
    else (List.range (messageRounds m)).foldl (fun (acc : List (List Nat) × Nat × Nat) n =>
      let x := messageRound m mem k base ((List.range members.length).map (edgesOf edges)) (if n = 0 then byteAt m 3 else byteAt m 4) acc.1
      (x.1, acc.2.1 + x.2.1, acc.2.2 + x.2.2)) (xs, 0, 0)
  ((List.range members.length).map (fun i => mkToken 4 (((members.getD i []).take 3).map flitData ++
    packWords (elemWidth (byteAt m 4)) ((r.1.getD i []).length + 1) (r.1.getD i []))), r.2)

/-- What a stage sends for a complete set: its flits, the members it cut, its steps, overflows and reserved codes. -/
structure SetOut where
  flits : List Flit
  cut : Nat := 0
  steps : Nat := 0
  overflow : Nat := 0
  reserved : Nat := 0

/-- What a set, graph or selection stage sends for its members (R168-R171). -/
def stageResult (m : List Byte) (mem : List Host.Cell) (k base : Nat) (shed : Bool) (members edges : List (List Flit)) : SetOut :=
  let q := Config.params m
  let n := members.length
  let op := byteAt m 0
  let about := Config.stageSteps op m n
  if op = 0x33 ∨ op = 0x35 then
    let r := newFeatures m mem k base members edges
    { flits := sendSet shed r.1, steps := about, overflow := r.2.1, reserved := r.2.2 }
  else if op = 0x34 then
    let es := knnEdges q.k members
    let c := if es.length ≤ 4096 then es.length else Config.edgeCount es.length % 4097
    { flits := windowToken c shed :: es.flatten, steps := n * n }
  else if op = 0x40 then { flits := sendSet shed ((byKey members).take q.k), steps := about }
  else if op = 0x41 then
    let kept := nmsKept q.nmsThreshold members
    { flits := sendSet (shed || decide (q.keepLimit < kept.length)) (kept.take q.keepLimit), cut := kept.length - q.keepLimit, steps := about }
  else { flits := sendSet shed (if q.descending then byKey members else byKeyUp members), steps := about }

/-! ### The verdict decision (R175) -/

/-- Is logit `b` larger than logit `a`, a NaN below every number? -/
def logitAbove (a b : Nat) : Bool :=
  match decodeF fFP16 a, decodeF fFP16 b with
  | _, .nan => false
  | .nan, _ => true
  | x, y => ltV x y

/-- Index of the largest logit: a NaN ranks below every number, equal logits go to the lowest index. -/
def bestLogit (ls : List Nat) : Nat :=
  (List.range ls.length).foldl (fun b i => if logitAbove (ls.getD b 0) (ls.getD i 0) then i else b) 0

/-- Class, reject and score from the logits and the threshold in force; and whether every logit is NaN. -/
def decideVerdict (rejectSet : Nat) (threshold : BitVec 16) (ls : List Nat) : Nat × Bool × BitVec 16 × Bool :=
  let allNan := ls.all (fun c => decodeF fFP16 c = .nan)
  let cls := bestLogit ls
  let logit := ls.getD cls 0
  (cls, allNan || (bitOf rejectSet cls && leV (decodeF fFP16 threshold.toNat) (decodeF fFP16 logit)),
   BitVec.ofNat 16 logit, allNan)

/-- A verdict token's two flits on lane 0 (R177). -/
def verdictFlits (cls : Nat) (rej shed : Bool) (score aux0 aux1 : BitVec 16) : List Flit :=
  mkToken 0 [cls + 256 * boolNat rej + 512 * boolNat shed + 65536 * score.toNat, aux0.toNat + 65536 * aux1.toNat]

/-- The verdict token that two flits carry. -/
def readVerdictToken (a b : Flit) : VToken :=
  let d := flitData a
  { cls := d % 256, reject := bitOf d 8, shed := bitOf d 9, score := BitVec.ofNat 16 (d / 65536),
    aux0 := BitVec.ofNat 16 (flitData b), aux1 := BitVec.ofNat 16 (flitData b / 65536) }

end Sys2Proof.Machine
end

