-- ==== Sys2Proof/Machine/Router.lean ====
section
/-! DEFINITION. Links and routers: the 1-of-4 code (R55-R58), credits (R59), arbitration and routes (R60, R102-R104, R207),
declared queues and spill (R136, R143-R146), gateways (R334, R408), control cells (R93-R95), ECC (R100). -/

namespace Sys2Proof.Machine

/-! ### The 1-of-4 code (R55) -/

/-- The 72 wires of a flit: group g raises wire 4 g + v for value v. -/
def encodeWires (f : Flit) : Wires :=
  BitVec.ofNat 72 (((List.range 18).map (fun g => 2 ^ (4 * g + f.toNat / 4 ^ g % 4))).sum)

/-- Value of a group of four wires; none when it is neutral or has more than one wire high. -/
def groupValue (n : Nat) : Option Nat :=
  match n with
  | 1 => some 0
  | 2 => some 1
  | 4 => some 2
  | 8 => some 3
  | _ => none

/-- The flit of 18 valid groups; none while any group is not valid (R56 step 2). -/
def decodeGroups (w : Nat) : Nat → Option Nat
  | 0 => some 0
  | n + 1 =>
    match decodeGroups w n, groupValue (w / 16 ^ n % 16) with
    | some v, some d => some (v + d * 4 ^ n)
    | _, _ => none

def decodeWires (w : Wires) : Option Flit := (decodeGroups w.toNat 18).map (BitVec.ofNat 36)

/-! ### Tiles -/

/-- Compass number of a router port, local 4. -/
def portIdx : Port → Nat
  | .side d => (dirIdx d).val
  | .loc => 4

/-- Index of a router input by port and lane. -/
def fifo (port lane : Nat) : Fin 30 := Fin.ofNat 30 (6 * port + lane)

/-- Index of a credit count by side and lane. -/
def crd (side lane : Nat) : Fin 24 := Fin.ofNat 24 (6 * side + lane)

/-- Change element `i` of a list. -/
def modAt {α : Type} (f : α → α) : Nat → List α → List α
  | _, [] => []
  | 0, x :: xs => f x :: xs
  | n + 1, x :: xs => x :: modAt f n xs

/-- The partition that owns a tile. -/
def tileOwner (s : State) (k : Nat) : Option PartId := (s.regions[tileRegion k]).owner

/-- The context a tile runs. -/
def activeCtx (t : Tile) : Context := t.ctx[t.active]

/-- The partition whose image runs in a tile now. -/
def runsHere (s : State) (k : Nat) : Option PartId :=
  match tileOwner s k with
  | some p => if isServing s.parts[p].state && decide ((activeCtx (getTile s k)).use = .inUse) then some p else none
  | none => none

/-- Count an event of a tile (R105). -/
def bumpTile (s : State) (k : Nat) (f : TileCounters → TileCounters) : State :=
  updTile s k (fun t => { t with counters := f t.counters })

def countLinkErr (n : Nat) (c : TileCounters) : TileCounters := { c with linkErr := sat32 (c.linkErr + n) }

def countOverflow (n : Nat) (c : TileCounters) : TileCounters := { c with overflow := sat32 (c.overflow + n) }

/-! ### Placed pieces and stages -/

/-- Piece-local tile of a region-local tile: the inverse of `toRegion` (R196). -/
def fromRegion (code : Fin 8) (x y : Nat) : Nat × Nat :=
  match code.val with
  | 0 => (x, y)
  | 1 => (y, 119 - x)
  | 2 => (119 - x, 119 - y)
  | 3 => (119 - y, x)
  | 4 => (119 - x, y)
  | 5 => (119 - y, 119 - x)
  | 6 => (x, 119 - y)
  | _ => (y, x)

/-- Index of the first element that satisfies a test. -/
def indexOf {α : Type} (f : α → Bool) : List α → Option Nat
  | [] => none
  | x :: xs => if f x then some 0 else (indexOf f xs).map (· + 1)

/-- Piece number, placed piece and piece-local place of a tile of a running partition. -/
def tilePiece (s : State) (p : PartId) (k : Nat) : Option (Nat × PlacedPiece × Nat × Nat) :=
  match s.parts[p].placement with
  | none => none
  | some pl =>
    match indexOf (fun pp => decide (pp.region = tileRegion k)) pl.pieces with
    | none => none
    | some n => (pl.pieces[n]?).map (fun pp =>
        let pq := fromRegion pp.code (k % 600 % 120) (k / 600 % 120)
        (n, pp, pq.1, pq.2))

/-- The census-map stage that a tile belongs to (R280). -/
def tileStage (s : State) (p : PartId) (k : Nat) : Option CensusEntry :=
  match tilePiece s p k, s.parts[p].active with
  | some (n, _, a, b), some i => (imgCensusMap i).find? (fun e => !e.isChannel && e.piece = n && inRect e.rect a b)
  | _, _ => none

/-- Where a tile's T-class stage stands in the partition's list. -/
def stageIndex (s : State) (p : PartId) (k : Nat) : Option Nat :=
  match tileStage s p k with
  | some e => indexOf (fun g => decide (g.number = e.number)) s.parts[p].fabric.stages
  | none => none

def updStage (s : State) (p : PartId) (i : Nat) (f : StageSt → StageSt) : State :=
  updFabric s p (fun x => { x with stages := modAt f i x.stages })

def updQueue (s : State) (p : PartId) (i : Nat) (f : QueueSt → QueueSt) : State :=
  updFabric s p (fun x => { x with queues := modAt f i x.queues })

/-- Window number `n` since the release, while it has no verdict record. -/
def windowAt (x : Partition) (n : Nat) : Option Window :=
  if x.flow.entered ≤ n + x.flow.windows.length then x.flow.windows[n + x.flow.windows.length - x.flow.entered]? else none

/-- The tunable values that window number `n` is bound to (R176, R318). -/
def tunValues (x : Partition) (n : Nat) : List Word :=
  match x.tun.sets.find? (fun t => decide (t.1 ≤ n)) with
  | some t => t.2
  | none => []

/-- Value in force of the tunable with a STAGE and TARGET, if the image declares one (R281). -/
def tunFor (x : Partition) (stage target n : Nat) : Option Word :=
  match x.active with
  | none => none
  | some i => ((imgTunables i).1.find? (fun t => t.stage = stage && t.target = target)).map (fun t => (tunValues x n).getD t.id 0)

/-- Put bytes at an offset. -/
def putBytes (m : List Byte) (off : Nat) (bs : List Byte) : List Byte := m.take off ++ bs ++ m.drop (off + bs.length)

/-- A tile's microconfiguration with the tunables of window number `n` in place: TARGETs 2-4 of R281. -/
def tunedMicro (s : State) (p : PartId) (k n : Nat) : List Byte :=
  let m := (activeCtx (getTile s k)).micro
  match tileStage s p k, s.parts[p].active with
  | some e, some i =>
    let vals := tunValues s.parts[p] n
    ((imgTunables i).1.filter (fun t => t.stage = e.number)).foldl (fun m t =>
      let v := (vals.getD t.id 0).toNat
      if t.target = 2 then putBytes m 36 (leBytes 2 v)
      else if t.target = 3 then putBytes m 38 (leBytes 2 v)
      else if t.target = 4 then putBytes m t.offset (leBytes 4 v) else m) m
  | _, _ => m

/-! ### ECC (R100) -/


/-- A read of a codeword that the running image claims found an error. -/
def eccActive (s : State) (p : PartId) (k : Nat) (e : EccRead) : State :=
  match e with
  | .clean => s
  | .single => bumpTile s k (fun c => { c with eccCorr := satInc c.eccCorr })
  | .double => faultEntry (bumpTile s k (fun c => { c with eccUncorr := satInc c.eccUncorr })) p .faultMem cMemUncorrectable
      (k % 600 + 65536 * (k / 600))

/-- A read of codeword `w` of a tile found an error. A staged claim's error aborts the load like a failed group, group 0
(DEDUCED, log entry 33). -/
def eccEffect (s : State) (k w : Nat) (e : EccRead) : State :=
  match e with
  | .clean => s
  | .single => bumpTile s k (fun c => { c with eccCorr := satInc c.eccCorr })
  | .double =>
    let s1 := bumpTile s k (fun c => { c with eccUncorr := satInc c.eccUncorr })
    let clear : State := { s1 with mem := Memory.clear s1.mem (fun a => decide (a / 8 = 2048 * k + w)) }
    match tileOwner s k with
    | none => clear
    | some p =>
      let cs := (s.parts[p].fabric.claims).filter (claimHolds k w)
      if cs.any (fun c => decide (c.use = .inUse)) then eccActive s p k .double
      else if cs.any (fun c => decide (c.use = .staged)) then failGroup s1 p 0
      else clear

/-! ### Control cells (R93-R95) -/

/-- What triggers cells (R94). -/
inductive CellEvent where
  | step | reduction | accepted (lane : Nat) | sent (lane : Nat)
deriving DecidableEq, Repr

/-- What the LUT sources see beside the flip-flops and the carry. -/
structure CellIn where
  reduction : Bool := false
  block : Bool := false
deriving DecidableEq, Repr

/-- A LUT source (R93). -/
def cellSource (t : Tile) (x : CellIn) (cin : Bool) (code : Nat) : Bool :=
  let c := activeCtx t
  if code < 8 then c.ff[Fin.ofNat 8 code]
  else if code = 8 then cin
  else if code < 15 then !(t.local6[Fin.ofNat 6 (code - 9)]).isEmpty
  else if code = 15 then tileEmpty t
  else if code = 16 then x.reduction
  else if code = 17 then x.block
  else if code < 24 then (c.g[(31 : Fin 32)]).getLsbD (code - 18)
  else false

/-- The LUT output of a cell word. -/
def lutOut (t : Tile) (x : CellIn) (cin : Bool) (w : Nat) : Bool :=
  let b := fun (hi lo : Nat) => boolNat (cellSource t x cin (field w hi lo))
  bitOf w (b 20 16 + 2 * b 25 21 + 4 * b 30 26 + 8 * b 35 31)

/-- The quantity c of count mode: the LUT output of the lowest cell, the carry-in of any other. -/
def cellC (t : Tile) (x : CellIn) (cin : Bool) (w : Nat) : Bool := if bitOf w 37 then cin else lutOut t x cin w

/-- The carry-out of a cell: FF and c in count mode; none in logic mode. -/
def cellCarry (t : Tile) (x : CellIn) (cin : Bool) (k : Fin 8) : Bool :=
  let w := ((activeCtx t).cells[k]).toNat
  bitOf w 36 && (activeCtx t).ff[k] && cellC t x cin w

/-- The carry-out of cell 7 for a carry-in of cell 0. -/
def tileCarry (t : Tile) (x : CellIn) (cin : Bool) : Bool :=
  ([0, 1, 2, 3, 4, 5, 6, 7] : List (Fin 8)).foldl (fun c k => cellCarry t x c k) cin

/-- The carry into cell 0 of a tile from its west neighbour, through at most `fuel` tiles; a closed gate reads 0. -/
def carryInto (s : State) : Nat → Nat → Bool
  | 0, _ => false
  | n + 1, k =>
    if linkOpen s k .w = some true ∧ 0 < k % 600 then
      let t := getTile s (k - 1)
      tileCarry t {} (carryInto s n (k - 1))
    else false

/-- Does a trigger field name an event? -/
def triggerIs (w : Nat) : CellEvent → Bool
  | .step => field w 41 39 = 0
  | .reduction => field w 41 39 = 1
  | .accepted l => field w 41 39 = 2 && field w 44 42 = l
  | .sent l => field w 41 39 = 3 && field w 44 42 = l

/-- New value of a cell that its trigger fires (R94). -/
def cellNext (t : Tile) (x : CellIn) (cin : Bool) (k : Fin 8) : Bool :=
  let w := ((activeCtx t).cells[k]).toNat
  let reload := field w 49 45 ≠ 31 && cellSource t x cin (field w 49 45)
  if reload then bitOf w 38
  else if bitOf w 36 then (activeCtx t).ff[k] != cellC t x cin w
  else lutOut t x cin w

/-- Flip-flops after an event, the carry-out of cell 7 and whether cell 7's counter fired. `fired` says whether the counter
that feeds cell 0's carry-in fired; `ev` is none in a tile that only continues a counter. Every value is from before the event. -/
def fireTile (t : Tile) (x : CellIn) (ev : Option CellEvent) (cin fired : Bool) : Vector Bool 8 × Bool × Bool :=
  ([0, 1, 2, 3, 4, 5, 6, 7] : List (Fin 8)).foldl (fun acc k =>
    let w := ((activeCtx t).cells[k]).toNat
    let own := match ev with | some e => triggerIs w e | none => false
    let fires := if bitOf w 36 && bitOf w 37 then acc.2.2 else own
    let c := acc.2.1
    (if fires then acc.1.set k.val (cellNext t x c k) k.isLt else acc.1, cellCarry t x c k, fires))
    ((activeCtx t).ff, cin, fired)

/-- Put flip-flop values in the active context of a tile. -/
def putFf (s : State) (k : Nat) (ff : Vector Bool 8) : State :=
  updTile s k (fun t => { t with ctx := t.ctx.set t.active.val { activeCtx t with ff := ff } t.active.isLt })

/-- A counter's carry fires cells of the tiles eastward, at most `fuel`. -/
def fireEast (s0 : State) (s : State) : Nat → Nat → Bool → Bool → State
  | 0, _, _, _ => s
  | n + 1, k, cin, fired =>
    if fired ∧ linkOpen s0 k .e = some true ∧ k % 600 < 599 then
      let r := fireTile (getTile s0 (k + 1)) {} none cin fired
      fireEast s0 (putFf s (k + 1) r.1) n (k + 1) r.2.1 r.2.2
    else s

/-- A trigger event in a tile: every cell with that trigger captures, and counters carry eastward (R94, R95). -/
def fireCells (s : State) (k : Nat) (x : CellIn) (ev : CellEvent) : State :=
  let r := fireTile (getTile s k) x (some ev) (carryInto s 8 k) false
  fireEast s (putFf s k r.1) 7 k r.2.1 r.2.2

/-! ### Declared queues and spill (R136, R143-R146) -/

/-- Flits that a queue's spill segment holds at most. -/
def spillCap (q : QueueSt) : Nat := (q.spills.map (·.2.2)).sum

/-- May a queue take a flit now? -/
def queueRoom (q : QueueSt) : Bool :=
  (q.count < q.cfg.capacity && q.segCount = 0) || (q.spilling && q.segCount < spillCap q)

/-- Byte address of flit slot `n` of segments, each relative to its base register in its tile (R136, R274, R276). -/
def slotAddr (s : State) : List (Nat × Nat × Nat) → Nat → Nat
  | [], _ => 0
  | e :: es, n =>
    if n < e.2.2 then memAddr e.1 (((activeCtx (getTile s e.1)).g[Fin.ofNat 32 e.2.1].toNat + n) % 2048) 8
    else slotAddr s es (n - e.2.2)

/-- The flit in a slot: bits [35:0] of its codeword (R136). -/
def slotFlit (s : State) (a : Nat) : Flit := BitVec.ofNat 36 (leNat (Memory.readBytes s.mem a 8))

/-- Put a flit in a slot, the codeword's remaining bits 0. -/
def putSlot (s : State) (a : Nat) (f : Flit) : State := { s with mem := Memory.writeBytes s.mem a (leBytes 8 f.toNat) }

/-- Slots of the queue's `n`-th flit from its head, and of its segment's. -/
def queueSlot (s : State) (q : QueueSt) (n : Nat) : Nat := slotAddr s q.places ((q.head + n) % q.cfg.capacity)

def segSlot (s : State) (q : QueueSt) (n : Nat) : Nat := slotAddr s q.spills ((q.segHead + n) % spillCap q)

/-- A flit enters a queue with room: into the queue while its segment is empty and it has room, else into the segment (R145). -/
def queueIn (s : State) (p : PartId) (j : Nat) (f : Flit) : State :=
  match s.parts[p].fabric.queues[j]? with
  | none => s
  | some q =>
    if q.segCount = 0 ∧ q.count < q.cfg.capacity then
      updQueue (putSlot s (queueSlot s q q.count) f) p j (fun q => { q with count := q.count + 1, occHigh := max q.occHigh (q.count + 1) })
    else
      updQueue (putSlot s (segSlot s q q.segCount) f) p j (fun q =>
        { q with segCount := q.segCount + 1, spilled := satInc q.spilled, segHigh := min 65535 (max q.segHigh (q.segCount + 1)) })

/-- The head flit has left: the segment's head moves to the tail. A queue whose segment is empty and that is not full leaves the
spilling state (R145). -/
def queueOut (s : State) (p : PartId) (j : Nat) : State :=
  match s.parts[p].fabric.queues[j]? with
  | none => s
  | some q =>
    let out := fun (q : QueueSt) => { q with head := (q.head + 1) % q.cfg.capacity, count := q.count - 1 }
    if q.segCount = 0 then updQueue s p j (fun q => { out q with spilling := false })
    else
      updQueue (putSlot s (queueSlot s (out q) (q.count - 1)) (slotFlit s (segSlot s q 0))) p j (fun q =>
        { out q with count := q.count, segHead := (q.segHead + 1) % spillCap q, segCount := q.segCount - 1 })

/-- When no queue of the partition spills any more, the spill episode closes and shed mode ends (R146, R149). -/
def closeSpill (s : State) (p : PartId) : State :=
  let x := s.parts[p].fabric
  match x.spillOpen with
  | none => s
  | some t =>
    if x.queues.any (·.spilling) then s
    else updFabric s p (fun x => { x with
      spillOpen := none, lastDrain := now s - t,
      stages := x.stages.map (fun g => { g with shedMode := false }),
      queues := x.queues.map (fun q => { q with inEpisode := false }) })

/-- The declared queue on a router input: the queues hosted in a tile on a lane attach, in record order, to the enabled
inputs of that lane in port order (DESIGN CHOICE, log entry 34). -/
def fifoQueue (s : State) (p : PartId) (k : Nat) (i : Fin 30) : Option Nat :=
  let lane := i.val % 6
  let c := activeCtx (getTile s k)
  let ins := ([0, 1, 2, 3, 4] : List Nat).filter (fun o => (c.route[fifo o lane]).enable)
  match indexOf (fun o => o = i.val / 6) ins with
  | none => none
  | some n =>
    let qs := s.parts[p].fabric.queues
    ((List.range qs.length).filter (fun j => match qs[j]? with
      | some q => decide (q.tile = k) && decide (q.cfg.lane = lane)
      | none => false))[n]?

/-! ### Gateways (R194, R334, R408) -/

/-- Is a tile of the partition a gateway tile? -/
def gatewayPlace (s : State) (p : PartId) (k : Nat) : Option (Nat × PlacedPiece × Nat × Nat) :=
  match tilePiece s p k with
  | some (n, pp, a, b) => if isGatewayTile a b then some (n, pp, a, b) else none
  | none => none

/-- Gateway outputs 0-7: tile and side, 0 forward to 3 left (R334). -/
def gatewayOutputs : List (Nat × Nat × Nat) :=
  [(59, 59, 0), (60, 59, 0), (60, 59, 1), (60, 60, 1), (60, 60, 2), (59, 60, 2), (59, 60, 3), (59, 59, 3)]

/-- The output of a gateway tile toward a compass direction. -/
def outputToward (pp : PlacedPiece) (a b : Nat) (d : Dir) : Option Nat :=
  indexOf (fun o => o.1 = a && o.2.1 = b && decide (facing pp.code o.2.2 = d)) gatewayOutputs

/-- Sound ports of a piece that have fabric slots, in ascending PORT order (R359). -/
def fabricPorts (i : Image) (piece : Nat) : List SndId :=
  ((List.range 8).map (Fin.ofNat 8)).filter (fun c => (sndPorts i).any (fun x =>
    x.1 = piece && x.2.port = c.val && (List.range 32).any (fun k => bitOf x.2.outMask k && !(imgStimuli i).any (fun y => y.1 = c.val && y.2.1 = k))))

/-- Fabric slots of a sound port, ascending. -/
def fabricSlots (i : Image) (x : SndPortRec) : List Nat :=
  (List.range 32).filter (fun k => bitOf x.outMask k && !(imgStimuli i).any (fun y => y.1 = x.port && y.2.1 = k))

/-- The sound port that takes the output blocks of a lane: fabric-slot ports in ascending order take lanes in ascending order,
lane 0 left out at the gateway that serves the verdict port (DESIGN CHOICE, log entry 32). -/
def outputPort (i : Image) (piece lane : Nat) : Option SndId :=
  let first := if piece = verdictPiece i then 1 else 0
  if lane < first then none else (fabricPorts i piece)[lane - first]?

/-- Samples of a whole output block: 16 frames of `m` 24-bit channels, three parts each, most significant first (R358, R359). -/
def blockSamples (m : Nat) (fs : List Flit) : List (List (BitVec 24)) :=
  let bytes := unpackWords 8 ((fs.drop 1).map flitData)
  let at_ := fun (i : Nat) => bytes.getD i 0
  (List.range 16).map (fun fr => (List.range m).map (fun c =>
    let b := 3 * (m * fr + c)
    BitVec.ofNat 24 (65536 * at_ b + 256 * at_ (b + 1) + at_ (b + 2))))

/-- Full frame index of a block from the low 16 bits in its header: the one nearest to the play frame. -/
def fullIndex (near low : Nat) : Nat :=
  let base := near / 65536 * 65536 + low
  if near + 32768 < base ∧ 65536 ≤ base then base - 65536 else if base + 32768 < near then base + 65536 else base

/-- A frame of fabric-slot samples reaches its port: one that it can no longer play, or while its clock is lost or it does not
play, is dropped and each sample counted (R363). -/
def queueFrame (x : Snd) (frame : Nat) (samples : List (BitVec 24)) : Snd :=
  let playing : Bool := x.phase = .running || x.phase = .relock
  if frame < x.playFrame || !playing || !x.clockOk then { x with outDrop := sat32 (x.outDrop + samples.length) }
  else { x with outSamples := insSort (fun a b => decide (a.1 ≤ b.1)) ((frame, samples) :: x.outSamples.filter (fun y => decide (y.1 ≠ frame))) }

/-- A flit of an output block reaches a sound port (R359). -/
def soundIn (i : Image) (f : Flit) (x : Snd) : Snd :=
  match (x.cfg : Option SndPortRec) with
  | none => x
  | some cfg =>
    let m := (fabricSlots i cfg).length
    let fs := x.blockIn ++ [f]
    if fs.length < 1 + 12 * m then { x with blockIn := fs }
    else
      let base := fullIndex x.playFrame (flitData (fs.getD 0 0) % 65536)
      let frames := blockSamples m fs
      (List.range 16).foldl (fun x j => queueFrame x (base + j) (frames.getD j [])) { x with blockIn := [] }

/-- A flit leaves the wafer at a gateway: span channel, verdict token, output-slot samples, or evidence (R177, R178, R359, R408).
Evidence reaches the coder by its own command. -/
def gatewayTake (s : State) (p : PartId) (piece : Nat) (f : Flit) : State :=
  match s.parts[p].active with
  | none => s
  | some i =>
    let lane := flitLane f
    let last : Bool := piece + 1 = i.header.chainLen
    let toSpan := match imgSpan i with | some x => x.spb && last && decide (lane ≤ 3) | none => false
    if toSpan then
      let c : Fin 4 := Fin.ofNat 4 lane
      updSpn s .spb (fun x => runSpan { x with txFlits := x.txFlits.set c.val (x.txFlits[c] ++ [f]) c.isLt })
    else if lane = 0 && decide (piece = verdictPiece i) then
      updFlow s p (fun x =>
        match x.vtok ++ [f] with
        | [a, b] => { x with vtok := [], tokens := x.tokens ++ [readVerdictToken a b] }
        | v => { x with vtok := v })
    else if lane ≤ 3 then
      match outputPort i piece lane with
      | some c => updSnd s c (soundIn i f)
      | none => s
    else s

/-! ### Sending (R56, R59, R60, R102, R104, R207) -/

/-- A credit flit of the counts owed on a side (R59). -/
def creditFlit (t : Tile) (side : Nat) : Flit :=
  mkFlit 7 false (((List.range 6).map (fun l => min 15 (t.owed[crd side l]) * 16 ^ l)).sum)

/-- Credits owed on a side. -/
def owes (t : Tile) (side : Nat) : Bool := (List.range 6).any (fun l => decide (t.owed[crd side l] ≠ 0))

/-- A side's link is neutral. -/
def linkIdle (t : Tile) (d : Dir) : Bool := t.driven[dirIdx d] = 0

def setDriven (d : Dir) (w : Wires) (t : Tile) : Tile := { t with driven := t.driven.set (dirIdx d).val w (dirIdx d).isLt }

/-- Drive a flit toward a side; a closed gate acknowledges and discards it, and counts a link error here (R207). -/
def driveFlit (s : State) (k : Nat) (d : Dir) (f : Flit) : State :=
  if linkOpen s k d = some false then bumpTile s k (countLinkErr 1)
  else updTile s k (setDriven d (encodeWires f))

/-- A credit flit goes before the next data flit whenever credits are owed. -/
def sendCredits (s : State) (k : Nat) (d : Dir) : Option State :=
  let t := getTile s k
  let side := (dirIdx d).val
  if linkIdle t d && owes t side then
    some (updTile (driveFlit s k d (creditFlit t side)) k (fun t =>
      { t with owed := Vector.ofFn (fun j : Fin 24 => if j.val / 6 = side then 0 else t.owed[j]) }))
  else none

/-- May a flit leave on an output port and lane now: a neutral link and a credit, or room on the local lane? -/
def outOk (t : Tile) (lane port : Nat) : Bool :=
  if port < 4 then linkIdle t (dirOf port) && decide (0 < t.credits[crd port lane])
  else decide ((t.local6[Fin.ofNat 6 lane]).length < 4)

/-- May an entry forward a flit now, to every port of its mask? -/
def canForward (t : Tile) (e : RouteEntry) : Bool :=
  (List.range 5).all (fun o => !e.mask.getLsbD o || outOk t e.lane.toNat o)

/-- A flit leaves on one output port. -/
def sendPort (s : State) (k : Nat) (f : Flit) (port : Nat) : State :=
  let lane := flitLane f
  let s1 := updTile s k (fun t => { t with served := t.served.set (port % 5) (Fin.ofNat 6 lane) (Nat.mod_lt _ (by decide)) })
  if port < 4 then
    let c := crd port lane
    driveFlit (updTile s1 k (fun t => { t with credits := t.credits.set c.val (t.credits[c] - 1) c.isLt })) k (dirOf port) f
  else
    let l : Fin 6 := Fin.ofNat 6 lane
    fireCells (updTile s1 k (fun t => { t with local6 := t.local6.set l.val (t.local6[l] ++ [f]) l.isLt })) k {} (.accepted lane)

/-- Forward or fork a flit by its route entry; only its lane changes (R102, R104). -/
def forward (s : State) (k : Nat) (e : RouteEntry) (f : Flit) : State :=
  ((List.range 5).filter (fun o => e.mask.getLsbD o)).foldl (fun s o => sendPort s k (setLane e.lane.toNat f) o) s

/-- A flit leaves a router input: its place is free, so a credit is owed upstream (R59). -/
def popInput (i : Fin 30) (t : Tile) : Tile :=
  let t1 := { t with inputs := t.inputs.set i.val (t.inputs[i].drop 1) i.isLt }
  if i.val < 24 then { t1 with owed := t1.owed.set (i.val % 24) (t1.owed[crd 0 (i.val % 24)] + 1) (Nat.mod_lt _ (by decide)) } else t1

/-- The flit that an input sends next: its own head, or the head of its declared queue. -/
def nextFlit (s : State) (p : PartId) (k : Nat) (i : Fin 30) : Option Flit :=
  match fifoQueue s p k i with
  | some j => (s.parts[p].fabric.queues[j]?).bind (fun q => if q.count = 0 then none else some (slotFlit s (queueSlot s q 0)))
  | none => ((getTile s k).inputs[i]).head?

/-- Send an input's next flit if every output of its entry can take it. -/
def sendInput (s : State) (p : PartId) (k : Nat) (i : Fin 30) : Option State :=
  let t := getTile s k
  let e := (activeCtx t).route[i]
  match nextFlit s p k i with
  | none => none
  | some f =>
    if e.enable && canForward t e then
      let s1 := match fifoQueue s p k i with
        | some j => closeSpill (queueOut s p j) p
        | none => updTile s k (popInput i)
      some (forward s1 k e f)
    else none

/-- The input whose entry names an output port and lane (R103: at most one). -/
def inputFor (t : Tile) (port lane : Nat) : Option (Fin 30) :=
  ((List.range 30).map (Fin.ofNat 30)).find? (fun i =>
    let e := (activeCtx t).route[i]
    e.enable && e.mask.getLsbD port && decide (e.lane.toNat = lane))

/-- Lanes of an output port in round-robin order, after the lane it served last (R60). -/
def lanesAfter (t : Tile) (port : Nat) : List Nat :=
  (List.range 6).map (fun n => ((t.served[Fin.ofNat 5 port]).val + 1 + n) % 6)

/-- The next flit to move over the output ports, each serving its lanes in turn. -/
def sendAny (s : State) (p : PartId) (k : Nat) : Option State :=
  let t := getTile s k
  (List.range 5).findSome? (fun o => (lanesAfter t o).findSome? (fun l => (inputFor t o l).bind (sendInput s p k)))

/-- A head flit enters the declared queue of its input. -/
def enqueueAny (s : State) (p : PartId) (k : Nat) : Option State :=
  ((List.range 30).map (Fin.ofNat 30)).findSome? (fun i =>
    match ((getTile s k).inputs[i]).head?, fifoQueue s p k i with
    | some f, some j =>
      (s.parts[p].fabric.queues[j]?).bind (fun q =>
        if queueRoom q then some (updTile (queueIn s p j f) k (popInput i)) else none)
    | _, _ => none)

/-- The output unit's next flit enters the router's local input (R104); one whose entry is disabled is counted and discarded there
(R102). -/
def sendLocal (s : State) (k : Nat) : Option State :=
  let t := getTile s k
  match t.sendQ with
  | [] => none
  | f :: rest =>
    let i := fifo 4 (flitLane f)
    if !((activeCtx t).route[i]).enable then some (updTile (bumpTile s k (countLinkErr 1)) k (fun t => { t with sendQ := rest }))
    else if (t.inputs[i]).length < 4 then
      some (fireCells (updTile s k (fun t => { t with sendQ := rest, inputs := t.inputs.set i.val (t.inputs[i] ++ [f]) i.isLt }))
        k {} (.sent (flitLane f)))
    else none

/-- A flit of an inbound span channel leaves its receive buffer, so a credit is due to the sender (R415). -/
def spanDrained (s : State) (src : Option (Nat × Nat)) : State :=
  match src with
  | some (n, _) =>
    if 32 ≤ n then
      let c : Fin 4 := Fin.ofNat 4 (n - 32)
      { s with spa := { s.spa with drained := s.spa.drained.set c.val (s.spa.drained[c] + 1) c.isLt } }
    else s
  | none => s

/-- A gateway tile sends the oldest waiting flit of a lane with a credit, the lanes of each output in turn (R60, R334). -/
def sendGateway (s : State) (k : Nat) (pp : PlacedPiece) (a b : Nat) : Option State :=
  let t := getTile s k
  let r := tileRegion k
  allDirs.findSome? (fun d =>
    match outputToward pp a b d with
    | none => none
    | some o =>
      if !linkIdle t d then none
      else (lanesAfter t (dirIdx d).val).findSome? (fun l =>
        let c := crd (dirIdx d).val l
        if t.credits[c] = 0 then none
        else
          match indexOf (fun x : GateFlit => x.out = o && decide (flitLane x.flit = l)) (s.regions[r]).gatewayOut with
          | none => none
          | some n =>
            ((s.regions[r]).gatewayOut[n]?).map (fun x =>
              let s1 := spanDrained (updRegion s r (fun g => { g with gatewayOut := g.gatewayOut.take n ++ g.gatewayOut.drop (n + 1) })) x.src
              driveFlit (updTile s1 k (fun t => { t with
                credits := t.credits.set c.val (t.credits[c] - 1) c.isLt,
                served := t.served.set (dirIdx d).val (Fin.ofNat 6 l) (Nat.lt_succ_of_lt (dirIdx d).isLt) })) k d x.flit)))

end Sys2Proof.Machine
end

