-- ==== Sys2Proof/Machine/Tile.lean ====
section
/-! DEFINITION. Tiles and their links at work: T-class stages and the verdict stage (R139-R141, R148-R150, R164-R175), the
datapath step (R53, R77-R87, R162-R164, R174, R184), TILE_STEP, FLIT_RECEIVED, CREDIT_FLIT_RECEIVED, BACKGROUND_SCRUB. -/

namespace Sys2Proof.Machine

/-! ### T-class stages -/

/-- Steps completed, 48 bits (R156). -/
def countSteps (n : Nat) (c : TileCounters) : TileCounters := { c with steps := (c.steps + n) % 2 ^ 48 }

/-- A stage completes `n` steps: they are counted, and each triggers the cells that wait for a step (R94, R156). -/
def workSteps (s : State) (k n : Nat) (x : CellIn) : State :=
  if n = 0 then s
  else
    let s1 := bumpTile (updTile s k (fun t => { t with stepped := true })) k (countSteps n)
    (List.range n).foldl (fun s _ => fireCells s k x .step) s1

/-- Flits leave a stage: they wait to enter the router's local input. -/
def putSend (s : State) (k : Nat) (fs : List Flit) : State := updTile s k (fun t => { t with sendQ := t.sendQ ++ fs })

/-- The head flit of a local input lane. -/
def localHead (s : State) (k lane : Nat) : Option Flit := ((getTile s k).local6[Fin.ofNat 6 lane]).head?

/-- The stage takes it. -/
def takeLocal (s : State) (k lane : Nat) : State :=
  let l : Fin 6 := Fin.ofNat 6 lane
  updTile s k (fun t => { t with local6 := t.local6.set l.val (t.local6[l].drop 1) l.isLt })

def dataLane (m : List Byte) : Fin 4 := Fin.ofNat 4 (byteAt m 7 % 4)

def sideLane (m : List Byte) : Fin 4 := Fin.ofNat 4 (byteAt m 7 / 4 % 4)

/-- What a window leaves of a stage: its counters and shed mode. -/
def stageClear (g : StageSt) : StageSt :=
  { number := g.number, opcode := g.opcode, shedMode := g.shedMode, shedCandidates := g.shedCandidates,
    shedWindows := g.shedWindows, shedEpisodes := g.shedEpisodes }

/-- Members that a set-entry stage admits: its bound, or in shed mode its quota (R148, R149). -/
def admitLimit (m : List Byte) (g : StageSt) : Nat := if g.shedMode then min (setBound m) (shedQuota m) else setBound m

/-- A set is complete: admit in admit order, shed the rest (R148-R150). -/
def admitSet (s : State) (p : PartId) (k j : Nat) (m : List Byte) (g : StageSt) (endShed : Bool) : State :=
  let n := g.tokens.length
  let lim := admitLimit m g
  let shed := endShed || decide (lim < n)
  let s1 := updStage s p j (fun g => { stageClear g with
    shedCandidates := sat32 (g.shedCandidates + (n - lim)), shedWindows := if shed then satInc g.shedWindows else g.shedWindows })
  putSend s1 k (sendSet shed ((byKey g.tokens).take lim))

/-- A set-entry stage takes a flit of lane 4; one step a candidate. -/
def takeCandidate (s : State) (p : PartId) (k j : Nat) (m : List Byte) (g : StageSt) (f : Flit) : State :=
  let tok := g.cur ++ [f]
  let s1 := takeLocal s k 4
  if !flitEnd f then updStage s1 p j (fun g => { g with cur := tok })
  else if isWindowEnd tok then admitSet (updStage s1 p j (fun g => { g with cur := [] })) p k j m g (bitOf (flitData f) 0)
  else workSteps (updStage s1 p j (fun g => { g with cur := [], tokens := g.tokens ++ [tok] })) k 1 {}

/-- A stage takes its count (R140): what exceeds the declared maximum is cut. The edges that message passing takes after its
members are not members. -/
def takeCount (m : List Byte) (f : Flit) (g : StageSt) : StageSt :=
  let c := flitData f % 8192
  let lim := if g.members.isSome then c else countMax m
  let cut := decide (lim < c)
  { g with expect := some (min c lim), discard := c - lim, shedIn := g.shedIn || bitOf (flitData f) 16 || cut,
           shedCandidates := sat32 (g.shedCandidates + (c - lim)), shedWindows := if cut then satInc g.shedWindows else g.shedWindows }

/-- A stage takes a flit of a data token on lane 4; excess tokens are taken and discarded. -/
def takeMember (f : Flit) (g : StageSt) : StageSt :=
  let tok := g.cur ++ [f]
  if !flitEnd f then { g with cur := tok }
  else match g.expect with
    | some (n + 1) => { g with cur := [], tokens := g.tokens ++ [tok], expect := some n }
    | _ => { g with cur := [], discard := g.discard - 1 }

/-- Has the stage taken every token that its count announced? -/
def setComplete (g : StageSt) : Bool := g.expect = some 0 && g.discard = 0

def isPool (op : Nat) : Bool := op = 0x31 || op = 0x32

/-- The value of a general register of the running image. -/
def regVal (t : Tile) (r : Fin 32) : Nat := ((activeCtx t).g[r]).toNat

/-- A complete set: message passing keeps its members and awaits its edges; any other stage sends its result (R168-R171). -/
def fireSet (s : State) (p : PartId) (k j : Nat) (m : List Byte) (g : StageSt) : State :=
  if byteAt m 0 = 0x35 ∧ g.members.isNone then
    updStage s p j (fun g => { g with members := some g.tokens, tokens := [], expect := none, discard := 0 })
  else
    let members := match g.members with | some ms => ms | none => g.tokens
    let edges := match g.members with | some _ => g.tokens | none => []
    let r := stageResult m s.mem k (regVal (getTile s k) (Config.params m).weightReg) g.shedIn members edges
    let s1 := updStage s p j (fun g => { stageClear g with
      shedCandidates := sat32 (g.shedCandidates + r.cut), shedWindows := if r.cut = 0 then g.shedWindows else satInc g.shedWindows })
    let s2 := bumpTile s1 k (fun c => countOverflow r.overflow { c with reserved := sat32 (c.reserved + r.reserved) })
    putSend (workSteps s2 k r.steps {}) k r.flits

/-- The lanes of an extraction stage: mask, score map and, where it has features, the feature map. -/
def rasterLanes (m : List Byte) : List (Fin 4) :=
  let q := Config.params m
  [dataLane m, Fin.ofNat 4 q.scoreLane] ++ if q.featureCount = 0 then [] else [Fin.ofNat 4 q.featureLane]

/-- An extraction stage takes its next pixel, once its mask, score and feature elements have arrived: candidates leave as their
components complete, and after the last pixel the window-end token (R164, R166). A component shed for want of a label is counted
by this stage. -/
def takePixel (s : State) (p : PartId) (k j : Nat) (m : List Byte) (g : StageSt) : State :=
  let q := Config.params m
  let r := extractPixel m (g.mask.getD 0 0) (g.scores.getD 0 0) g.feats g.scan
  let s1 := workSteps s k r.2.2 {}
  if g.scan.pixel + 1 = q.windowWidth * q.windowHeight then
    let s2 := updStage s1 p j (fun g => { stageClear g with shedCandidates := sat32 (g.shedCandidates + r.1.shed) })
    putSend (updTile s2 k (fun t => { t with closing := true, winDone := t.winDone + 1 })) k (r.2.1 ++ [windowEndToken (decide (r.1.shed ≠ 0))])
  else putSend (updStage s1 p j (fun g => { g with scan := r.1, mask := [], scores := [], feats := [] })) k r.2.1

/-- An extraction stage's next move: padding up to the end marks of a finished window, a pixel, or an element of one. -/
def takeRaster (s : State) (p : PartId) (k j : Nat) (m : List Byte) (g : StageSt) : Option State :=
  let t := getTile s k
  let q := Config.params m
  let plain := if byteAt m 28 = 3 then 0 else byteAt m 28
  let wide := if q.featureWidth = 16 then byteAt m 28 else plain
  let put := fun (r : Tile) (f : StageSt → StageSt) => some (updStage (updTile s k (fun _ => r)) p j f)
  if t.closing then (closeMove false (rasterLanes m) t).map (fun t1 => updTile s k (fun _ => t1))
  else if g.mask.length = 1 ∧ g.scores.length = 1 ∧ g.feats.length = q.featureCount then some (takePixel s p k j m g)
  else
    match (if g.mask.isEmpty then takeCoded m 1 plain (dataLane m) t else none) with
    | some r => put r.2 (fun g => { g with mask := [r.1.code] })
    | none =>
      match (if g.scores.isEmpty then takeNext m (Fin.ofNat 4 q.scoreLane) t else none) with
      | some r => put r.2 (fun g => { g with scores := [r.1.code] })
      | none =>
        match (if g.feats.length < q.featureCount then takeCoded m (q.featureWidth / 8) wide (Fin.ofNat 4 q.featureLane) t else none) with
        | some r => put r.2 (fun g => { g with feats := g.feats ++ [r.1.code] })
        | none => none

/-- The hysteresis stream of a window: its column in its image stream, or the one sequence of a sound pipeline (R175). -/
def hystStream (w : Window) : Nat := 16384 * w.src + w.column

/-- The verdict stage's decision for window `n`, whose logits and window tokens it holds (R175-R177). -/
def fireVerdict (s : State) (p : PartId) (k j stage : Nat) (m : List Byte) (g : StageSt) (w : Window) : State :=
  let x := s.parts[p]
  let n := (getTile s k).winDone
  let v := imgVerdict (x.active.getD {})
  let half := fun (w : Word) => w.setWidth 16
  let tOn := match tunFor x stage 0 n with | some w => half w | none => v.tOn
  let tOff := match tunFor x stage 1 n with | some w => half w | none => v.tOff
  let stream := hystStream w
  let d := decideVerdict v.rejectSet (if x.flow.hyst.contains stream then tOff else tOn) g.scores
  let s1 := updStage (updTile s k (fun t => { t with closing := true, winDone := n + 1 })) p j stageClear
  let s2 := updFlow s1 p (fun f => { f with
    hyst := if d.2.1 then (if f.hyst.contains stream then f.hyst else f.hyst ++ [stream]) else f.hyst.filter (fun c => decide (c ≠ stream)) })
  putSend (bumpTile s2 k (countOverflow (boolNat d.2.2.2))) k
    (verdictFlits d.1 d.2.1 g.shedIn d.2.2.1 (Config.auxValue m n 0) (Config.auxValue m n 1))

/-- The verdict stage takes a window token or a logit, or decides. It decides once the window is known at this unit: at a span's
last position its descriptor may still be on its way, and which stream the window belongs to must not depend on that (R25, R417). -/
def takeVerdict (s : State) (p : PartId) (k j stage : Nat) (m : List Byte) (g : StageSt) : Option State :=
  let t := getTile s k
  let classes := (imgVerdict (s.parts[p].active.getD {})).classes
  if t.closing then (closeMove false [dataLane m] t).map (fun t1 => updTile s k (fun _ => t1))
  else if g.wtokens = (Config.params m).windowTokens ∧ g.scores.length = classes then
    (windowAt s.parts[p] t.winDone).map (fireVerdict s p k j stage m g)
  else
    match (if g.wtokens < (Config.params m).windowTokens then localHead s k 5 else none) with
    | some f => some (updStage (takeLocal s k 5) p j (fun g => { g with wtokens := g.wtokens + 1, shedIn := g.shedIn || bitOf (flitData f) 16 }))
    | none =>
      match (if g.scores.length < classes then takeNext m (dataLane m) t else none) with
      | some r => some (updStage (updTile s k (fun _ => r.2)) p j (fun g => { g with scores := g.scores ++ [r.1.code] }))
      | none => none

/-- One move of the T-class or verdict stage in a tile: a stage acts when its input has arrived and its output has room. -/
def consumeStage (s : State) (p : PartId) (k : Nat) : Option State :=
  let t := getTile s k
  let m := tunedMicro s p k t.winDone
  let op := byteAt m 0
  if !isTStage op || !t.sendQ.isEmpty then none
  else
    match tileStage s p k, stageIndex s p k with
    | some e, some j =>
      (s.parts[p].fabric.stages[j]?).bind (fun g =>
        if op = 0x70 then takeVerdict s p k j e.number m g
        else if op = 0x23 then takeRaster s p k j m g
        else if op = 0x30 then (localHead s k 4).map (takeCandidate s p k j m g)
        else if setComplete g then (if isPool op then none else some (fireSet s p k j m g))
        else if g.expect.isNone then (localHead s k 5).map (fun f => updStage (takeLocal s k 5) p j (takeCount m f))
        else (localHead s k 4).map (fun f =>
          workSteps (updStage (takeLocal s k 4) p j (takeMember f)) k (boolNat (isPool op && flitEnd f)) {}))
    | _, _ => none

/-! ### Moving every flit that can move -/

/-- One move in a tile: credit flits first, then gateway streams, declared queues, the output unit, the router, the stage. -/
def moveOnce (s : State) (p : PartId) (k : Nat) : Option State :=
  match allDirs.findSome? (sendCredits s k) with
  | some s1 => some s1
  | none =>
    match gatewayPlace s p k with
    | some (_, pp, a, b) => sendGateway s k pp a b
    | none =>
      if runsHere s k = some p then
        match enqueueAny s p k with
        | some s1 => some s1
        | none => match sendLocal s k with
          | some s1 => some s1
          | none => match sendAny s p k with
            | some s1 => some s1
            | none => consumeStage s p k
      else none

/-- Moves until nothing more can move, at most `fuel`. -/
def pumpMoves : Nat → State → PartId → Nat → State
  | 0, s, _, _ => s
  | n + 1, s, p, k => match moveOnce s p k with | some s1 => pumpMoves n s1 p k | none => s

/-- Flits in and about a tile: more moves than these, twice over, cannot be needed at once. -/
def pumpFuel (s : State) (p : PartId) (k : Nat) : Nat :=
  let t := getTile s k
  64 + 4 * ((t.inputs.toList.map (·.length)).sum + (t.local6.toList.map (·.length)).sum + t.sendQ.length +
    (s.parts[p].fabric.queues.map (fun q => if q.tile = k then q.count + q.segCount else 0)).sum)

/-- Everything in a tile that can move, moves. -/
def pumpTile (s : State) (k : Nat) : State :=
  match tileOwner s k with
  | some p => if isServing s.parts[p].state then pumpMoves (pumpFuel s p k) s p k else s
  | none => s

/-! ### The sequence of a stage (R53, R131, R160-R164, R173, R174)

What each step of a window takes follows from the operator, its parameters and the position alone, never from the order in which
flits arrive (R131). A position is a reduction end `r` of the window and a step `j` of that reduction. -/

/-- Where a step takes an element from. -/
inductive Src where
  /-- the next element of a local S-class lane -/
  | next (l : Fin 4)
  /-- element `e` of a lane's stream, through the line buffers, once `need` elements have arrived; before the first element, 0 -/
  | buffered (l : Fin 4) (e : Int) (need : Nat)
  /-- zero padding -/
  | zero
  /-- element `e` of a feeder's tensor in block memory -/
  | stored (e : Nat)
  /-- the next element of the lane that the selector at the head of lane 5 names (R141) -/
  | selected
deriving DecidableEq, Repr

/-- Element of a window's tensor at a row, column and channel; outside it, edge or zero padding (R162). Rows and columns count
from the padding's first. -/
def pixelSrc (q : Config.OpParams) (l : Fin 4) (y x c : Nat) : Src :=
  let el := fun (y x : Nat) => let e := (y * q.cols + x) * q.chans + c; Src.buffered l e (e + 1)
  if q.padY ≤ y ∧ y - q.padY < q.rows ∧ q.padX ≤ x ∧ x - q.padX < q.cols then el (y - q.padY) (x - q.padX)
  else if q.edgePad then el (min (y - q.padY) (q.rows - 1)) (min (x - q.padX) (q.cols - 1))
  else .zero

/-- Which input of a concat the `n`-th element of a group comes from. -/
def sliceOf : List Nat → Nat → Nat
  | [], _ => 0
  | a :: as, n => if n < a then 0 else 1 + sliceOf as (n - a)

/-- The element of the second operand that goes with element `e` of the first, where it is broadcast along an axis (R163). -/
def broadcastElem (q : Config.OpParams) (e : Nat) : Nat :=
  if q.broadcast = 1 then e % (q.cols * q.chans)
  else if q.broadcast = 2 then e / (q.cols * q.chans) * q.chans + e % q.chans
  else e / q.chans

/-- The second operand of an elementwise stage. -/
def secondSrc (q : Config.OpParams) (r : Nat) : Src :=
  let l := q.order.getD 1 0
  if q.broadcast = 0 then .next l else let e := broadcastElem q r; .buffered l e (e + 1)

/-- The operands of step `j` of reduction `r` in window `w`: the order of each entry of chapter 07. A depthwise stage's lanes are
neighbouring output positions of a row, whose activations come row by row, then column by column (DEDUCED, log entry 102). A bilinear pass
takes the two source positions about the output's centre, held at the edges. -/
def sources (m : List Byte) (q : Config.OpParams) (w r j : Nat) : List Src :=
  let l := dataLane m
  let c := r % q.chans
  let ox := r / q.chans % q.outCols
  let oy := r / q.chans / q.outCols
  match byteAt m 0 with
  | 0x01 =>
    let n := q.part + j
    [pixelSrc q l (r / q.outCols * q.strideY + n / (q.kw * q.chans) * q.dilY) (r % q.outCols * q.strideX + n / q.chans % q.kw * q.dilX) (n % q.chans)]
  | 0x02 =>
    let groups := (q.outCols + q.lanes - 1) / q.lanes
    let wide := (q.lanes - 1) * q.strideX + q.kw
    [pixelSrc q l (r / q.chans / groups * q.strideY + j / wide) (r / q.chans % groups * q.lanes * q.strideX + j % wide) c]
  | 0x04 | 0x05 | 0x06 => [pixelSrc q l (oy * q.strideY + j / q.kw) (ox * q.strideX + j % q.kw) c]
  | 0x07 => [pixelSrc q l (oy / q.factorY) (ox / q.factorX) c]
  | 0x08 =>
    let near := fun (o f size : Nat) => min (size - 1) (((2 * (o : Int) + 1 - f).fdiv (2 * f) + j).toNat)
    [if q.alongRows then pixelSrc q l oy (near ox q.factorX q.cols) c else pixelSrc q l (near oy q.factorY q.rows) ox c]
  | 0x10 | 0x11 => [if j = 0 then .next (q.order.getD 0 0) else secondSrc q r]
  | 0x12 => [.next (q.order.getD 0 0), secondSrc q r]
  | 0x13 => [if q.order.isEmpty then .selected else .next (q.order.getD (sliceOf q.slices (r % q.slices.sum)) 0)]
  | 0x50 =>
    -- frame f of the stream ends at its sample (f + 1) hop; element n of it is sample (f + 1) hop - frame + n of the channel
    let f := (w * q.reds + r) / (q.chans * q.frame)
    let ch := (w * q.reds + r) / q.frame % q.chans
    let n := r % q.frame
    [.buffered l ((((f + 1) * q.hop : Nat) - (q.frame : Int) + n) * q.chans + ch) ((f + 1) * q.hop * q.chans)]
  | 0x60 =>
    let e := w * q.reds + r
    [.buffered l ((e : Int) - q.delay * q.cols * q.chans) (e + 1)]
  | 0x61 => [.stored (Config.feedOrder m r)]
  | 0x62 => [.next (q.order.getD j 0)]
  | _ => [.next l]

/-- Steps of a reduction: RED_LEN where the stage reduces, else what its entry gives. -/
def redLen (m : List Byte) (q : Config.OpParams) : Nat :=
  let op := byteAt m 0
  if op = 0x04 ∨ op = 0x05 then q.kh * q.kw
  else if op = 0x10 ∨ op = 0x11 ∨ (op = 0x51 ∧ q.power) then 2
  else if reduces op then leAt m 16 4
  else 1

/-- Lanes whose end marks bound a window of the stage. -/
def inLanes (m : List Byte) (q : Config.OpParams) (t : Tile) : List (Fin 4) :=
  let op := byteAt m 0
  if op = 0x61 then []
  else if op = 0x13 ∧ q.order.isEmpty then ([0, 1, 2, 3] : List (Fin 4)).filter (fun l => decide (t.taken[l] ≠ 0))
  else if op = 0x10 ∨ op = 0x11 ∨ op = 0x12 ∨ op = 0x13 ∨ op = 0x62 then q.order.eraseDups
  else [dataLane m]

/-- Stages whose stream runs on over window ends: the ring of a sliding window and a frame store (R173, R174). -/
def keepsStream (op : Nat) : Bool := op = 0x50 || op = 0x60

/-- Bytes of an element in the line buffers: the input format's, or the output's for a feeder (R174, R186). -/
def bufBytes (m : List Byte) : Nat := elemWidth (if byteAt m 0 = 0x61 then byteAt m 4 else byteAt m 3) / 8

/-- Byte address of line-buffer element `e` (R274). -/
def bufAddr (m : List Byte) (q : Config.OpParams) (k : Nat) (t : Tile) (e : Nat) : Nat :=
  16384 * k + (8 * regVal t q.bufReg + bufBytes m * (e % q.bufLen)) % 16384

/-- Codeword of a byte address in its tile. -/
def codewordOf (a : Nat) : Nat := a / 8 % 2048

/-- What fetching an operand gives: nothing has arrived; an element entered the line buffers first, by port A; or the element, with
the codewords read. -/
inductive Fetched where
  | wait
  | stored (t : Tile) (mem : List Host.Cell) (cw : Nat)
  | got (e : Elem) (t : Tile) (reads : List Nat)

/-- Read an element of the line buffers. A zero of a channel that is Petal-coded was marked by its bitmap (R183, R184). -/
def readBuffer (m : List Byte) (q : Config.OpParams) (mem : List Host.Cell) (k e : Nat) (t : Tile) : Fetched :=
  let a := bufAddr m q k t e
  let c := leNat (Memory.readBytes mem a (bufBytes m))
  .got ⟨c, decide (c = 0) && (byteAt m 28 = 1 || byteAt m 28 = 2)⟩ t [codewordOf a]

/-- Fetch one operand (R97, R104, R114). A reader sees memory as it was before the step's write (R98). -/
def fetch (m : List Byte) (q : Config.OpParams) (mem : List Host.Cell) (k : Nat) (t : Tile) : Src → Fetched
  | .next l => match takeNext m l t with
    | none => .wait
    | some r => .got r.1 r.2 []
  | .buffered l e need =>
    if need ≤ t.taken[l] then (if e < 0 then .got {} t [] else readBuffer m q mem k e.toNat t)
    else match takeNext m l t with
      | none => .wait
      | some r =>
        let a := bufAddr m q k t t.taken[l]
        .stored r.2 (Memory.writeBytes mem a (leBytes (bufBytes m) r.1.code)) (codewordOf a)
  | .zero => .got {} t []
  | .stored e => readBuffer m q mem k e t
  | .selected =>
    match t.local6[(5 : Fin 6)] with
    | [] => .wait
    | f :: rest =>
      let l : Fin 4 := Fin.ofNat 4 (flitData f)
      match takeNext m l t with
      | none => .wait
      | some r =>
        let done : Bool := q.vector = 0 || r.2.taken[l] % q.vector = 0
        .got r.1 (if done then { r.2 with local6 := r.2.local6.set 5 rest } else r.2) []

/-- The operands of a step, the last source first: that one may have to wait for its line buffer. -/
def fetchAll (m : List Byte) (q : Config.OpParams) (mem : List Host.Cell) (k : Nat) (t : Tile) : List Src → Fetched × Option Elem
  | [a, b] =>
    match fetch m q mem k t b with
    | .got e t1 r1 => (match fetch m q mem k t1 a with
      | .got d t2 r2 => (.got d t2 (r1 ++ r2), some e)
      | x => (x, none))
    | x => (x, none)
  | a :: _ => (fetch m q mem k t a, none)
  | [] => (.wait, none)

/-! ### Scales (R125, R128) -/

/-- Does the stage take an output scale group? -/
def usesOut (m : List Byte) : Bool := outSe8 m || rowSe8 m || outFp16 m

/-- Sidecar flits of a tile not yet consumed. -/
def sideFlits (m : List Byte) (t : Tile) : List Flit := t.side ++ t.local6[Fin.ofNat 6 (sideLane m).val]

/-- The per-channel scale of a step's activation, and the position after it; none while it has not arrived. -/
def stepScale (m : List Byte) (t : Tile) : Option (Nat × Nat) :=
  let p := t.pos[sideLane m]
  if channelScale m then scaleAt (sideFlits m t) false p else some (127, p)

/-- The block's scale group and the output scale group of an end, in this order, and the position after them. -/
def endScales (m : List Byte) (blockEnd redEnd : Bool) (t : Tile) : Option (List Nat × List Factors × Nat) :=
  let fs := sideFlits m t
  let p := t.pos[sideLane m]
  let bl : Option (List Nat × Nat) := if blockEnd then scaleGroup fs (blockFp16 m) 16 p else some ([], p)
  bl.bind (fun b =>
    let out : Option (List Factors × Nat) := if usesOut m && redEnd then factorGroup m fs 16 b.2 else some ([], b.2)
    out.map (fun x => (b.1, x.1, x.2)))

/-- The sidecar after a position has been reached; the rest of a window's last scale flit is padding (R132). -/
def setSide (m : List Byte) (p : Nat) (windowEnd : Bool) (t : Tile) : Tile :=
  let l := sideLane m
  let k : Fin 6 := Fin.ofNat 6 l.val
  let fs := (sideFlits m t).drop (p / 4)
  let endPad := windowEnd && decide (p % 4 ≠ 0) && (match fs with | f :: _ => flitEnd f | [] => false)
  let n := p / 4 + boolNat endPad
  let side := t.side.drop n
  { t with side := side, local6 := t.local6.set k.val (t.local6[k].drop (n - t.side.length)) k.isLt,
           pos := t.pos.set l.val (if endPad then 0 else p % 4) l.isLt }

/-- Does the stage read its sidecar lane at all? -/
def usesSide (m : List Byte) : Bool := channelScale m || blockScales m || usesOut m

def movedSide (m : List Byte) (p : Nat) (windowEnd : Bool) (t : Tile) : Tile := if usesSide m then setSide m p windowEnd t else t

/-- A tile that waits for scales takes those that are there. -/
def stashSide (m : List Byte) (t : Tile) : Tile :=
  let k : Fin 6 := Fin.ofNat 6 (sideLane m).val
  { t with side := t.side ++ t.local6[k], local6 := t.local6.set k.val [] k.isLt }

/-! ### The step's arithmetic -/

/-- Load the table builder with an activation (R77, R116, R117, R126); overflow counted. -/
def loadTable (m : List Byte) (code channel : Nat) (t : Tile) : Tile × Nat :=
  let a := splitAct (byteAt m 3) code
  let nan := a.nan || channel = 255
  ({ t with table := buildTable a.operand, tableExp := a.exp + ((channel : Int) - 127), tableNan := nan }, boolNat a.counted)

/-- Every lane adds its product (R78, R80-R84): the tile, overflows and reserved codes. A NaN activation reaches all 16 lanes,
whether or not a lane has a weight (R117). -/
def addLanes (intMode : Bool) (fmt : Nat) (code : Fin 16 → Option Nat) (t : Tile) : Tile × Nat × Nat :=
  let rs : Vector (Acc × Nat × Nat) 16 := Vector.ofFn (fun i =>
    match code i with
    | none => (if t.tableNan && !intMode then (accFloat t.acc[i] .nan).1 else t.acc[i], 0, 0)
    | some c => laneStep intMode t.table t.tableExp t.tableNan fmt c t.acc[i])
  ({ t with acc := rs.map (·.1), reducing := true }, (rs.toList.map (·.2.1)).sum, (rs.toList.map (·.2.2)).sum)

/-- Operators whose steps use weight code 1 in U4, or -1 in S4 for the second operand of subtract, in lane 0 (R160, R162-R164). -/
def constWeight (op : Nat) : Bool := op = 0x06 || op = 0x10 || op = 0x11 || op = 0x20 || op = 0x62

/-- Codeword of a step's weights (R82, R274). -/
def weightAddr (m : List Byte) (q : Config.OpParams) (t : Tile) : Nat :=
  (regVal t q.weightReg + Config.weightWord m t.red t.step) % 2048

/-- The lanes' weight format and codes for a step, and the codewords read (R82). -/
def stepCodes (m : List Byte) (q : Config.OpParams) (mem : List Host.Cell) (k : Nat) (t : Tile) : Nat × (Fin 16 → Option Nat) × List Nat :=
  if constWeight (byteAt m 0) then
    let minus : Bool := byteAt m 0 = 0x11 && t.step = 1
    (if minus then 3 else 2, fun i => if i.val = 0 then some (if minus then 15 else 1) else none, [])
  else
    let a := weightAddr m q t
    let b := (a + 1) % 2048
    let w0 := readCodeword mem k a
    let w1 := readCodeword mem k b
    (byteAt m 2, fun i => some (laneCode (byteAt m 2) w0 w1 i.val), if halfRate (byteAt m 2) then [a, b] else [a])

/-- Steps that a step of the sequence takes, as the operator's entry gives its rate (R80, R162, R163). -/
def stepCount (m : List Byte) (q : Config.OpParams) : Nat :=
  let op := byteAt m 0
  if constWeight op ∨ op = 0x08 ∨ op = 0x50 then 1
  else (if halfRate (byteAt m 2) then 2 else 1) * (if op = 0x02 ∧ 16 < q.kh * q.kw then 2 else 1)

/-- The exact product of two activations, in lane 0, with the first one's per-channel scale (R126, R163). -/
def addProduct (m : List Byte) (c1 c2 channel : Nat) (t : Tile) : Tile × Nat :=
  let b := splitAct (byteAt m 3) c2
  let a := loadTable m c1 channel t
  let op := (splitAct (byteAt m 3) c1).operand * b.operand
  let nan := a.1.tableNan || b.nan
  let add := fun (i : Fin 16) => if i.val = 0 then
      (if integerMode m then accInt t.acc[i] op else accFloat t.acc[i] (if nan then .nan else .num (op < 0) op.natAbs (a.1.tableExp + b.exp)))
    else (if nan && !integerMode m then (accFloat t.acc[i] .nan).1 else t.acc[i], 0)
  ({ a.1 with acc := Vector.ofFn (fun i => (add i).1), reducing := true }, (add 0).2 + a.2 + boolNat b.counted)

/-- Block ends of every lane (R85). -/
def endBlock (m : List Byte) (scales : List Nat) (t : Tile) : Tile × Nat :=
  let rs : Vector (Acc × Nat) 16 := Vector.ofFn (fun i =>
    blockEndOp (integerMode m) t.acc[i] t.total[i] (scaleVal (blockFp16 m) (scales.getD i.val 0)))
  ({ t with acc := Vector.replicate 16 {}, total := rs.map (·.1), block := 0 }, (rs.toList.map (·.2)).sum)

/-- Codeword of the biases of a reduction end (R86 step 3, R96). -/
def biasAddr (m : List Byte) (q : Config.OpParams) (t : Tile) : Nat := (regVal t q.biasReg + Config.biasWord m t.red) % 2048

/-- Bias code of output `i`, in ascending order from the codeword: S32 in the integer path, FP16 otherwise. -/
def biasCode (m : List Byte) (q : Config.OpParams) (mem : List Host.Cell) (k : Nat) (t : Tile) (i : Nat) : Option Nat :=
  let b := if integerPath m then 4 else 2
  if q.hasBias then some (leNat (Memory.readBytes mem (16384 * k + (8 * biasAddr m q t + b * i) % 16384) b)) else none

/-- Codewords that reading `n` biases touches. -/
def biasReads (m : List Byte) (q : Config.OpParams) (t : Tile) (n : Nat) : List Nat :=
  let b := if integerPath m then 4 else 2
  if q.hasBias then (List.range ((b * n + 7) / 8)).map (fun i => (biasAddr m q t + i) % 2048) else []

/-- The reduction end: the output unit takes and clears every value and sends the elements of the lanes used (R86). -/
def endReduction (m : List Byte) (q : Config.OpParams) (mem : List Host.Cell) (k : Nat) (fs : List Factors) (last : Bool) (t : Tile) : Tile × Nat :=
  let rs := (List.range (usedLanes m)).map (fun i =>
    let l : Fin 16 := Fin.ofNat 16 i
    outElem m t.acc[l] t.total[l] (fs.getD i {}) (biasCode m q mem k t i))
  let e := emitElems m { t with acc := Vector.replicate 16 {}, total := Vector.replicate 16 {}, reducing := false } (rs.map (·.1)) last
  (e.1, (rs.map (·.2)).sum + e.2)

/-- Max and min pooling keep the larger or smaller element, here in accumulator 0; an infinity acts as the largest finite value and
is counted (R117, R162). `ends` says that the output's last element has come, `last` that it is the window's last output. -/
def poolStep (m : List Byte) (code : Nat) (ends last : Bool) (t : Tile) : Tile × Nat :=
  let fmt := byteAt m 3
  let old := t.acc[(0 : Fin 16)].bits.toNat
  let f := finiteV (layoutOf fmt) (decodeElem fmt code)
  let new := if f.2 then (encodeF (layoutOf fmt) f.1).1 else code
  let x := decodeElem fmt old
  let y := decodeElem fmt new
  let best :=
    if y = .nan ∨ (t.reducing ∧ x = .nan) then nanCode (layoutOf fmt)
    else if !t.reducing then new
    else if byteAt m 0 = 0x04 then (if belowV x y then new else old)
    else (if belowV y x then new else old)
  let r := if ends then emitElems m { t with acc := t.acc.set 0 {}, reducing := false } [best] last
    else ({ t with acc := t.acc.set 0 { bits := BitVec.ofNat 32 best }, reducing := true }, 0)
  (r.1, r.2 + boolNat f.2)

/-- Threshold with hysteresis along a row (R164). -/
def thresholdStep (m : List Byte) (code : Nat) (rowEnd last : Bool) (t : Tile) : Tile × Nat :=
  let x := decodeElem (byteAt m 3) code
  let on1 := leV (decodeF fFP16 (leAt m 36 2)) x
  let off1 := leV (decodeF fFP16 (leAt m 38 2)) x
  let out := on1 || (off1 && t.prev)
  emitElems m { t with prev := out && !rowEnd } [boolNat out] last

/-- The histogram bin of an element (R164). -/
def histBin (m : List Byte) (q : Config.OpParams) (code : Nat) : Nat :=
  let x := decodeElem (byteAt m 3) code
  if x = .nan then Config.histNanBin m % (q.edges.length + 1)
  else (q.edges.filter (fun e => ltV (decodeF fFP16 e) x || (Config.histEqualUp && cmpV (decodeF fFP16 e) x = some 0))).length

/-- Byte address of a histogram count, two bytes each from the base register's codeword. -/
def histAddr (q : Config.OpParams) (k : Nat) (t : Tile) (bin : Nat) : Nat := 16384 * k + (8 * regVal t q.bufReg + 2 * bin) % 16384

/-- Count an element; a count that reaches 65,535 stays there and counts one overflow. -/
def histCount (mem : List Host.Cell) (a : Nat) : List Host.Cell × Nat :=
  let n := leNat (Memory.readBytes mem a 2)
  if n = 65535 then (mem, 0) else (Memory.writeBytes mem a (leBytes 2 (n + 1)), boolNat (n + 1 = 65535))

/-- The counts of a window, high byte first, and memory with them cleared. -/
def histEmit (q : Config.OpParams) (mem : List Host.Cell) (k : Nat) (t : Tile) : List Nat × List Host.Cell :=
  (List.range (q.edges.length + 1)).foldl (fun acc b =>
    let a := histAddr q k t b
    let n := leNat (Memory.readBytes acc.2 a 2)
    (acc.1 ++ [n / 256, n % 256], Memory.writeBytes acc.2 a [0, 0])) ([], mem)

/-- What a step leaves: tile, memory, overflows, reserved codes, steps, the codewords that port A read, in order, and wrote. -/
structure Stepped where
  tile : Tile
  mem : List Host.Cell
  overflow : Nat := 0
  reserved : Nat := 0
  steps : Nat := 0
  reads : List Nat := []
  wrote : Option Nat := none

/-- Does the zero skip of R184 leave this element out? -/
def zeroSkip (m : List Byte) (e : Elem) : Bool := bitOf (byteAt m 1) 3 && reduces (byteAt m 0) && e.marked

/-- One accumulation of a reducing stage (R53, R80, R83, R84): it moves to the next step and counts the block's weights (R85). -/
def accumulate (m : List Byte) (q : Config.OpParams) (mem : List Host.Cell) (k : Nat) (e : Elem) (second : Option Elem) (channel : Nat)
    (t0 : Tile) : Stepped :=
  let t := { t0 with step := t0.step + 1, block := t0.block + 1 }
  let two : Option Nat := match second with
    | some b => some b.code
    | none => if byteAt m 0 = 0x51 ∧ q.power then some e.code else none
  if zeroSkip m e then { tile := { t with reducing := true }, mem := mem }
  else match two with
    | some b =>
      let r := addProduct m e.code b channel t
      { tile := r.1, mem := mem, overflow := r.2, steps := if elemWidth (byteAt m 3) = 16 then 3 else 2 }
    | none =>
      let ld := loadTable m e.code channel t
      let cs := stepCodes m q mem k t0
      let r := addLanes (integerMode m) cs.1 cs.2.1 ld.1
      { tile := r.1, mem := mem, overflow := ld.2 + r.2.1, reserved := r.2.2, steps := stepCount m q, reads := cs.2.2 }

/-- The reduction end is past: the next one begins, or the window is worked off. -/
def nextRed (last : Bool) (t : Tile) : Tile :=
  if last then { t with red := 0, step := 0, closing := true, winDone := t.winDone + 1 } else { t with red := t.red + 1, step := 0 }

/-- A step of a stage that works element by element. -/
def elementStep (m : List Byte) (q : Config.OpParams) (mem : List Host.Cell) (k : Nat) (e : Elem) (t : Tile) : Stepped :=
  let op := byteAt m 0
  let last := decide (t.red + 1 = q.reds)
  if op = 0x04 ∨ op = 0x05 then
    let ends := decide (t.step + 1 = redLen m q)
    let r := poolStep m e.code ends (ends && last) t
    { tile := if ends then nextRed last r.1 else { r.1 with step := r.1.step + 1 }, mem := mem, overflow := r.2, steps := 1 }
  else if op = 0x22 then
    let r := thresholdStep m e.code (decide ((t.red + 1) % (q.cols * q.chans) = 0)) last t
    { tile := nextRed last r.1, mem := mem, overflow := r.2, steps := 1 }
  else if op = 0x21 then
    let a := histAddr q k t (histBin m q e.code)
    let r := histCount mem a
    if last then
      let x := histEmit q r.1 k t
      let y := emitElems m t x.1 true
      { tile := nextRed true y.1, mem := x.2, overflow := r.2 + y.2, steps := 1, reads := [codewordOf a], wrote := some (codewordOf a) }
    else { tile := nextRed false t, mem := r.1, overflow := r.2, steps := 1, reads := [codewordOf a], wrote := some (codewordOf a) }
  else if op = 0x14 then
    -- a split's branch passes its declared slice of each group
    let total := q.slices.sum
    let first := (q.slices.take q.slice).sum
    let len := q.slices.getD q.slice 0
    let i := t.red % total
    if first ≤ i ∧ i < first + len then
      let r := emitElems m t [e.code] (decide (i + 1 = first + len) && decide (q.reds ≤ t.red - i + total))
      { tile := nextRed last r.1, mem := mem, overflow := r.2 }
    else { tile := nextRed last t, mem := mem }
  else
    let r := emitElems m t [e.code] last
    { tile := nextRed last r.1, mem := mem, overflow := r.2 }

/-- Does a block or a reduction of the stage end before its next step? -/
def atEnd (m : List Byte) (q : Config.OpParams) (t : Tile) : Bool :=
  !byElement (byteAt m 0) && (decide (t.step = redLen m q) || (blockScales m && decide (t.block = 32)))

/-- A block end, a reduction end or both: a block ends at 32 weights or, shorter, with the reduction; none while a scale has not
arrived (R85, R86, R128). They take no step of the datapath. -/
def endStep (m : List Byte) (q : Config.OpParams) (mem : List Host.Cell) (k : Nat) (t : Tile) : Option Stepped :=
  let redEnd := decide (t.step = redLen m q)
  let blockEnd := blockScales m && decide (t.block ≠ 0)
  let last := redEnd && decide (t.red + 1 = q.reds)
  (endScales m blockEnd redEnd t).map (fun sc =>
    let t1 := movedSide m sc.2.2 last t
    let b : Tile × Nat := if blockEnd then endBlock m sc.1 t1 else ({ t1 with block := 0 }, 0)
    if redEnd then
      let c := endReduction m q mem k sc.2.1 last b.1
      { tile := nextRed last c.1, mem := mem, overflow := b.2 + c.2, reads := biasReads m q t (usedLanes m) }
    else { tile := b.1, mem := mem, overflow := b.2 })

/-! ### TILE_STEP -/

/-- A port A write meets a port B write to its codeword in time: port A's stands, port B's is dropped and counted (R98). -/
def collide (s : State) (k : Nat) (hit : Bool) : State := if hit then bumpTile s k (fun c => { c with collision := satInc c.collision }) else s

/-- Put a step's result in the state, count it, fire the control cells, and give each codeword read what its check found. -/
def landStep (s : State) (k : Nat) (o : StepObs) (x : CellIn) (r : Stepped) : State :=
  let s1 := { updTile s k (fun _ => r.tile) with mem := r.mem }
  let s2 := bumpTile s1 k (fun c => countOverflow r.overflow { c with reserved := sat32 (c.reserved + r.reserved) })
  let s3 := workSteps s2 k r.steps x
  let s4 := if x.reduction && r.steps = 0 then fireCells s3 k x .reduction else s3
  let s5 := collide s4 k (r.wrote.isSome && o.collided)
  (r.reads.zip o.ecc).foldl (fun s e => eccEffect s k e.1 e.2) s5

/-- The next thing a running tile's datapath can do: the padding of a finished window, a block or reduction end, a step, or an
element into its line buffers. It waits while an operand or a scale has not arrived or a result waits for room; a wait takes the
scales that are there. -/
def dataStep (s : State) (k : Nat) (m : List Byte) (o : StepObs) : State :=
  let t := getTile s k
  let q := Config.params m
  if !t.sendQ.isEmpty then s
  else if t.closing then
    match closeMove (keepsStream (byteAt m 0)) (inLanes m q t) t with
    | none => s
    | some t1 => updTile s k (fun _ => t1)
  else if atEnd m q t then
    match endStep m q s.mem k t with
    | none => updTile s k (stashSide m)
    | some r => landStep s k o { reduction := decide (t.step = redLen m q), block := blockScales m } r
  else match stepScale m t with
    | none => updTile s k (stashSide m)
    | some c =>
      match fetchAll m q s.mem k t (sources m q t.winDone t.red t.step) with
      | (.wait, _) => s
      | (.stored t1 mem cw, _) => landStep s k o {} { tile := t1, mem := mem, wrote := some cw }
      | (.got e t1 reads, second) =>
        let t2 := movedSide m c.2 false t1
        let r := if byElement (byteAt m 0) then elementStep m q s.mem k e t2 else accumulate m q s.mem k e second c.1 t2
        landStep s k o { reduction := decide (t.step + 1 = redLen m q), block := blockScales m && decide (t.block = 31 ∨ t.step + 1 = redLen m q) }
          { r with reads := r.reads ++ reads }

/-- A set-pool stage whose set is complete sends its pooled vector through steps 2-5, or the declared empty value (R168). -/
def poolResult (m : List Byte) (q : Config.OpParams) (mem : List Host.Cell) (k : Nat) (t : Tile) (fs : List Factors) (toks : List (List Flit)) :
    List Nat × Nat :=
  let fmt := byteAt m 3
  let rs := (List.range q.featureCount).map (fun j =>
    let col := featColumn m toks j
    if byteAt m 0 = 0x31 then
      let a := poolSum fmt col
      let r := outA32 m (a32Val a.1.bits) (fs.getD j {}) ((biasCode m q mem k t j).map (· % 65536))
      (r.1, a.2 + r.2)
    else if toks.isEmpty then outConvert m (decodeF fFP16 q.emptyValue)
    else let a := poolMax fmt col; let r := outConvert m a.1; (r.1, a.2 + r.2))
  (rs.map (·.1), (rs.map (·.2)).sum)

/-- A set-pool stage sends its vector on the output lane and a window token to the verdict stage (R167, R168). Sixteen positions
share a reduction end, so its scales come in groups of 16 (R125). -/
def poolStage (s : State) (p : PartId) (k j : Nat) (m : List Byte) (o : StepObs) (g : StageSt) : State :=
  let t := getTile s k
  let q := Config.params m
  let sum := byteAt m 0 = 0x31
  let p0 := t.pos[sideLane m]
  let fs : Option (List Factors × Nat) :=
    if usesOut m ∧ sum then factorGroup m (sideFlits m t) ((q.featureCount + 15) / 16 * 16) p0 else some ([], p0)
  match fs with
  | none => updTile s k (stashSide m)
  | some x =>
    let t1 := if usesOut m ∧ sum then setSide m x.2 true t else t
    let r := poolResult m q s.mem k t x.1 g.tokens
    let e := emitElems m { t1 with sendQ := t1.sendQ ++ [windowToken g.tokens.length g.shedIn] } r.1 true
    let reads := if sum then biasReads m q t q.featureCount else []
    updStage (landStep s k o { reduction := true }
      { tile := { e.1 with winDone := e.1.winDone + 1 }, mem := s.mem, overflow := r.2 + e.2, reads := reads }) p j stageClear

/-- TILE_STEP (R53): what a tile's datapath does next, as its configuration sequences it. A tile that runs no image does nothing. -/
def tileStep (s : State) (k : Nat) (o : StepObs) : State :=
  match runsHere s k with
  | none => s
  | some p =>
    let t := getTile s k
    let m := tunedMicro s p k t.winDone
    let op := byteAt m 0
    if isPool op then
      match (stageIndex s p k).bind (fun j => (s.parts[p].fabric.stages[j]?).map (fun g => (j, g))) with
      | some (j, g) => if setComplete g && t.sendQ.isEmpty then pumpTile (poolStage s p k j m o g) k else s
      | none => s
    else if isTStage op || op = 0 then s
    else pumpTile (dataStep s k m o) k

/-- Does the tile exist ("Names and addresses", file 00)? -/
def tileExists (t : TileAt) : Bool := t.x < 600 && t.y < 480

def execTileStep (t : TileAt) (o : StepObs) (s : State) : Host.Outcome State Fault Refusal :=
  if tileExists t then whenUp s (tileStep s (tileKey t.x t.y) o) else .fault .noSuchTile

/-! ### FLIT_RECEIVED (R56-R59, R102) -/

/-- The sender of a flit sees its acknowledge and returns the link to neutral (R56); then it may send again. -/
def ackSender (s : State) (k : Nat) (d : Dir) (w : Wires) : State :=
  if linkOpen s k d = some true then
    let u := nbrTile k d
    if (getTile s u).driven[dirIdx (opposite d)] = w then pumpTile (updTile s u (setDriven (opposite d) 0)) u else s
  else s

/-- Credits of a credit flit are added, at most 4 a lane; each capped count is a link error (R59, R105). -/
def takeCredits4 (d : Dir) (data : Nat) (t : Tile) : Tile :=
  let side := (dirIdx d).val
  let add := fun (j : Fin 24) => if j.val / 6 = side then field data (4 * (j.val % 6) + 3) (4 * (j.val % 6)) else 0
  let capped := ((List.range 24).filter (fun j => decide (4 < t.credits[Fin.ofNat 24 j] + add (Fin.ofNat 24 j)))).length
  { t with credits := Vector.ofFn (fun j : Fin 24 => min 4 (t.credits[j] + add j)), counters := countLinkErr capped t.counters }

/-- A credit is owed to the sender on a side for a lane. -/
def oweCredit (port lane : Nat) (t : Tile) : Tile :=
  if port < 4 ∧ lane < 6 then
    let c := crd port lane
    { t with owed := t.owed.set c.val (t.owed[c] + 1) c.isLt }
  else t

/-- A latched data flit: lane 6 and disabled entries are counted and discarded, a full input cannot be; the rest waits in its
input (R58, R59, R102). At a gateway tile it leaves the wafer. -/
def latchFlit (s : State) (p : PartId) (k port : Nat) (f : Flit) : State :=
  let lane := flitLane f
  match gatewayPlace s p k with
  | some (n, _, _, _) =>
    if lane < 6 then gatewayTake (updTile s k (oweCredit port lane)) p n f else bumpTile s k (countLinkErr 1)
  | none =>
    let t := getTile s k
    let i := fifo port lane
    if lane = 6 then bumpTile s k (countLinkErr 1)
    else if !(runsHere s k = some p && ((activeCtx t).route[i]).enable) then
      updTile (bumpTile s k (countLinkErr 1)) k (oweCredit port lane)
    else if 4 ≤ (t.inputs[i]).length then s
    else updTile s k (fun t => { t with inputs := t.inputs.set i.val (t.inputs[i] ++ [f]) i.isLt })

/-- A codeword at an input of a tile: nothing happens until all 18 groups are valid; a closed gate or the perimeter passes
nothing (R56, R207). A flit of lane value 7 at the local input is counted as a link error and dropped (R58 gives it no meaning there;
DESIGN CHOICE, log entry 101). -/
def receiveFlit (s : State) (k : Nat) (port : Port) (w : Wires) (ecc : EccRead) : State :=
  match decodeWires w, tileOwner s k with
  | some f, some p =>
    let opened : Bool := match port with | .side d => decide (linkOpen s k d = some true) | .loc => true
    if !opened || !isServing s.parts[p].state then s
    else
      let s1 := match port with
        | .side d =>
          if flitLane f = 7 then updTile s k (takeCredits4 d (flitData f)) else latchFlit s p k (portIdx port) f
        | .loc => if flitLane f = 7 then bumpTile s k (countLinkErr 1) else latchFlit s p k 4 f
      let s2 := pumpTile s1 k
      let s3 := match port with | .side d => ackSender s2 k d w | .loc => s2
      -- a declared queue of the lane reads its codeword, which the running image claims, through port B
      if (s.parts[p].fabric.queues).any (fun q => q.tile = k && decide (q.cfg.lane = flitLane f)) then eccActive s3 p k ecc else s3
  | _, _ => s

def execFlitReceived (t : TileAt) (port : Port) (w : Wires) (ecc : EccRead) (s : State) : Host.Outcome State Fault Refusal :=
  if tileExists t then whenUp s (receiveFlit s (tileKey t.x t.y) port w ecc) else .fault .noSuchTile

/-! ### CREDIT_FLIT_RECEIVED (R59, R145) -/

/-- A credit flit from a side: counts are added with a cap of 4, and what waited for them moves. Other flits are not credits. -/
def receiveCredits (s : State) (k : Nat) (d : Dir) (w : Wires) : State :=
  match decodeWires w, tileOwner s k with
  | some f, some p =>
    if flitLane f = 7 && decide (linkOpen s k d = some true) && isServing s.parts[p].state then
      ackSender (pumpTile (updTile s k (takeCredits4 d (flitData f))) k) k d w
    else s
  | _, _ => s

def execCreditFlitReceived (t : TileAt) (d : Dir) (w : Wires) (s : State) : Host.Outcome State Fault Refusal :=
  if tileExists t then whenUp s (receiveCredits s (tileKey t.x t.y) d w) else .fault .noSuchTile

/-! ### BACKGROUND_SCRUB (R101) -/

/-- Is a tile in service: its region's supply is on? -/
def tileInService (s : State) (k : Nat) : Bool := (s.regions[tileRegion k]).supplyOn

/-- The scrubber reads its next codeword and goes on, in ascending order. Its write-back, which a corrected error and an unclaimed
uncorrectable one have, is abandoned when port A wrote the codeword meanwhile, and dropped and counted when a port A write overlaps
it (R98, R101). -/
def scrubNext (s : State) (k : Nat) (ecc : EccRead) (write : WriteBack) : State :=
  if tileInService s k then
    let w := (getTile s k).scrubPtr
    let s1 := updTile s k (fun t => { t with scrubPtr := (w + 1) % 2048 })
    let s2 := eccEffect s1 k w ecc
    collide { s2 with mem := if write = .landed then s2.mem else s1.mem } k (decide (write = .collided) && decide (ecc ≠ .clean))
  else s

def execBackgroundScrub (t : TileAt) (o : ScrubObs) (s : State) : Host.Outcome State Fault Refusal :=
  if tileExists t then whenUp s (scrubNext s (tileKey t.x t.y) o.ecc o.write) else .fault .noSuchTile

end Sys2Proof.Machine
end

