-- ==== Sys2Proof/Machine/Ports.lean ====
section
/-! DEFINITION. What the image and sound ports share: gateway entry (R334), windows accepted and not accepted (R22, R318, R394),
the descriptors of a span (R417). -/

namespace Sys2Proof.Machine

/-! ### Entry at a gateway (R194, R334, R335, R358) -/

/-- Piece `n` of the partition's running placement. -/
def pieceAt (s : State) (p : PartId) (n : Nat) : Option PlacedPiece := (s.parts[p].placement).bind (fun pl => pl.pieces[n]?)

/-- The gateway tiles of a piece. -/
def gatewayTiles : List (Nat × Nat) := [(59, 59), (60, 59), (60, 60), (59, 60)]

/-- Flits enter the stream gateway of a piece and begin to leave it. -/
def enterGateway (s : State) (p : PartId) (piece : Nat) (fs : List GateFlit) : State :=
  match pieceAt s p piece with
  | none => s
  | some pp =>
    let s1 := updRegion s pp.region (fun g => { g with gatewayOut := g.gatewayOut ++ fs })
    gatewayTiles.foldl (fun s t => pumpTile s (pieceTile pp t.1 t.2)) s1

/-- Lines or blocks of a source that wait at a gateway and are still buffered. -/
def gatewayWaiting (s : State) (p : PartId) (piece src : Nat) : Nat :=
  match pieceAt s p piece with
  | none => 0
  | some pp => ((s.regions[pp.region]).gatewayOut.filterMap (fun x => match x.src with
      | some y => if y.1 = src then some y.2 else none
      | none => none)).eraseDups.length

/-- Lowest port of a list of ports. -/
def lowest : List Nat → Nat
  | [] => 0
  | x :: xs => xs.foldl min x

/-- Image streams of a piece's gateway, by lowest port, ascending (R334). -/
def imgStreams (i : Image) (piece : Nat) : List Nat :=
  insSort (fun a b => decide (a ≤ b))
    (((imgPorts i).filter (fun x => x.1 = piece)).map (fun x => lowest ((camStream i x.2).map (fun y => y.2.port)))).eraseDups

/-- Sound streams of a piece's gateway, by lowest port, ascending (R358). -/
def sndStreams (i : Image) (piece : Nat) : List Nat :=
  insSort (fun a b => decide (a ≤ b))
    (((sndPorts i).filter (fun x => x.1 = piece)).map (fun x => lowest ((sndStream i x.2).map (fun y => y.2.port)))).eraseDups

/-- The S-class lane of an image stream. -/
def imgLane (i : Image) (piece low : Nat) : Nat := (indexOf (fun n => n = low) (imgStreams i piece)).getD 0

/-- The S-class lane of a sound stream: after the gateway's image streams. -/
def sndLane (i : Image) (piece low : Nat) : Nat :=
  (imgStreams i piece).length + (indexOf (fun n => n = low) (sndStreams i piece)).getD 0

/-- Elements packed in flits of a segment or block (R114): the last flit carries the end mark where `mark`. -/
def segFlits (lane w : Nat) (mark : Bool) : Nat → List Nat → List Flit
  | 0, _ => []
  | n + 1, es =>
    if es.isEmpty then []
    else mkFlit lane (mark && decide (es.length ≤ 32 / w)) (packData w (es.take (32 / w))) :: segFlits lane w mark n (es.drop (32 / w))

/-! ### Windows (R22, R152, R318) -/

/-- Windows are accepted, in order: a pending gap of windows not accepted ends first (R394). -/
def acceptWindows (s : State) (p : PartId) (ws : List Window) : State :=
  if ws.isEmpty then s
  else updPart (endGap s p) p (fun x => { x with
    regs := { x.regs with win := x.regs.win + ws.length }
    flow := { x.flow with windows := x.flow.windows ++ ws.map (fun w => { w with gen := x.tun.gen }),
                          entered := x.flow.entered + ws.length, interval := x.flow.interval + ws.length } })

/-- Position 0 of a span sends one descriptor for each window whose last sample has entered, in window order; the window then
belongs to the units downstream (R417). -/
def sendDescriptors (s : State) (p : PartId) : State :=
  match partSpan s p with
  | none => s
  | some x =>
    if x.spb then
      let ready := s.parts[p].flow.windows.takeWhile (fun w => w.tLast.isSome)
      let s1 := updFlow s p (fun f => { f with windows := f.windows.dropWhile (fun w => w.tLast.isSome) })
      updSpn s1 .spb (fun y => runSpan { y with txDesc := y.txDesc ++ ready.map (fun w => descBytes w (w.tLast.getD 0)) })
    else s

/-- Change the partition's windows. -/
def mapWindows (s : State) (p : PartId) (f : Window → Window) : State :=
  updFlow s p (fun x => { x with windows := x.windows.map f })

end Sys2Proof.Machine
end

