-- ==== Sys2Proof/Machine/Image.lean ====
section
/-! DEFINITION. Image ports: bring-up (R323, R324), lines and their triggers (R328-R330), windows and segments (R325-R338), link loss
(R339), events (R340). -/

namespace Sys2Proof.Machine

/-! ### Camera ports and streams -/

/-- The settings a camera port works under: those in force or, before they are, those it has been brought up with. -/
def camCfg (c : ImgConn) : Option ImgPortRec :=
  match c.cfg with
  | some x => some x
  | none => if c.shadowReady then c.shadow else none

/-- The camera port that a connection belongs to. -/
def masterOf (s : State) (c : ImgId) : ImgId := (s.imgs[c]).master

/-- Update every connection of a camera port. -/
def updCam (s : State) (m : ImgId) (f : ImgConn → ImgConn) : State :=
  let own := (s.imgs[m]).owner
  { s with imgs := s.imgs.map (fun c => if c.owner = own && c.owner.isSome && c.master = m then f c else c) }

def allImgs : List ImgId := (List.range 16).map (Fin.ofNat 16)

/-- A camera port at work: its partition and settings. -/
def camPort (s : State) (m : ImgId) : Option (PartId × ImgPortRec) :=
  match (s.imgs[m]).owner, camCfg s.imgs[m] with
  | some p, some x => if (s.imgs[m]).master = m then some (p, x) else none
  | _, _ => none

/-- Members of the stream of a port, ascending (R331). -/
def camMembers (s : State) (p : PartId) (x : ImgPortRec) : List (ImgId × ImgPortRec) :=
  allImgs.filterMap (fun m => match camPort s m with
    | some (q, y) =>
      if q = p && (if x.align = 255 then decide (y.port = x.port) else decide (y.align = x.align)) then some (m, y) else none
    | none => none)

/-- Piece whose gateway serves a camera port (R195). -/
def camPiece (s : State) (p : PartId) (m : ImgId) : Nat :=
  match s.parts[p].active with
  | some i => (((imgPorts i).find? (fun x => decide (x.2.port = m.val))).map (·.1)).getD 0
  | none => 0

/-- Lines a member holds in its buffer: those waiting for the group and those not yet through the gateway. A gap line costs
none (R338). -/
def buffered (s : State) (p : PartId) (m : ImgId) : Nat :=
  ((s.imgs[m]).held.filter (fun l => !l.gap)).length + gatewayWaiting s p (camPiece s p m) m.val

/-! ### Delivery (R325, R326, R331-R335) -/

/-- The FP16 code of an integer. -/
def fp16Of (n : Nat) : Nat := (encodeF fFP16 (intV (n : Int))).1

/-- Elements that one pixel code is delivered as (R325, R326). -/
def pixelElems (x : ImgPortRec) (v : Nat) : List Nat :=
  if x.pixelFormat = 2 ∨ x.pixelFormat = 6 then (if x.compand then [compand (v % 4096)] else [v / 256 % 16, v % 256])
  else if x.pixelFormat = 3 then [v / 256 % 256, v % 256]
  else if x.delivered = 10 then [fp16Of v]
  else [v % 256]

/-- Pixel codes of one pixel: 3 in RGB8. -/
def codesPerPixel (x : ImgPortRec) : Nat := if x.pixelFormat = 7 then 3 else 1

/-- Elements of one pixel. -/
def elemsPerPixel (x : ImgPortRec) : Nat :=
  if x.pixelFormat = 7 then 3 else if x.pixelFormat = 3 || ((x.pixelFormat = 2 || x.pixelFormat = 6) && !x.compand) then 2 else 1

/-- Element width. -/
def camWidth (x : ImgPortRec) : Nat := if x.delivered = 10 then 16 else 8

/-- The elements of a line, or of a frame's rows, inside the region of interest. -/
def cropElems (x : ImgPortRec) (lineWidth : Nat) (pixels : List Nat) : List Nat :=
  let cpp := codesPerPixel x
  let row := fun (r : Nat) =>
    let line := if x.lineScan then pixels else pixels.drop (cpp * lineWidth * r)
    (line.drop (cpp * x.roiX)).take (cpp * x.roiW)
  ((List.range x.roiH).map (fun r => row (x.roiY + r))).flatten.flatMap (pixelElems x)

/-- Offset of a column (R332). -/
def colOffset (x : ImgPortRec) (g : Nat) : Nat := if x.stagA = 0 then 0 else g / x.stagA * x.stagB % x.winH

/-- Columns of a stream: member, its settings, local column (R331). -/
def streamCols (ms : List (ImgId × ImgPortRec)) : List (ImgId × ImgPortRec × Nat) :=
  ms.flatMap (fun m => (List.range (m.2.roiW / m.2.winW)).map (fun k => (m.1, m.2, k)))

/-- Columns of a stream whose windows start at line T: all at a frame. -/
def startCols (ms : List (ImgId × ImgPortRec)) (anchor t : Nat) : List (Nat × ImgId × ImgPortRec × Nat) :=
  let cols := streamCols ms
  ((List.range cols.length).zip cols).filter (fun c =>
    let x := c.2.2.1
    !x.lineScan || (anchor ≤ t && (t - anchor) % x.winH = colOffset x c.1))

/-- Bands of a frame: one for line scan. -/
def bandsOf (x : ImgPortRec) : Nat := if x.lineScan then 1 else x.roiH / x.winH

/-- Is a window of this stream open in a column at line T (R332)? -/
def windowCovers (low g t : Nat) (x : ImgPortRec) (w : Window) : Bool :=
  !w.sound && w.tLast.isNone && decide (w.src = low) && decide (w.column = g) && decide (w.index ≤ t) &&
  (if x.lineScan then decide (t < w.index + x.winH) else decide (w.index = t))

/-- One segment (R335): row `r` of the held elements, column `k` of its member. -/
def segment (x : ImgPortRec) (lane g k r t : Nat) (gap first mark : Bool) (elems : List Nat) (tag : Option (Nat × Nat)) : List GateFlit :=
  let n := x.winW * elemsPerPixel x
  let es := if gap then List.replicate n 0 else (elems.drop (x.roiW * elemsPerPixel x * r + n * k)).take n
  let head := mkFlit lane false (t % 65536 + 65536 * boolNat gap + 131072 * boolNat first + 262144 * g)
  (head :: segFlits lane (camWidth x) mark es.length es).map (fun f => { out := g % 8, flit := f, src := tag })

/-- The segments of line T, or of frame T's rows in order, for the windows that are open (R335, R338). -/
def lineSegments (s : State) (p : PartId) (ms : List (ImgId × ImgPortRec)) (low lane t : Nat) (gap : Bool)
    (elems : ImgId → List Nat) : List GateFlit :=
  let cols := streamCols ms
  let rows := match ms with | m :: _ => (if m.2.lineScan then 1 else m.2.roiH) | [] => 0
  (List.range rows).flatMap (fun r => ((List.range cols.length).zip cols).flatMap (fun c =>
    let x := c.2.2.1
    match (s.parts[p].flow.windows.filter (windowCovers low c.1 t x))[(if x.lineScan then 0 else r / x.winH)]? with
    | none => []
    | some w =>
      let first : Bool := if x.lineScan then decide (t = w.index) else decide (r % x.winH = 0)
      let last : Bool := if x.lineScan then decide (t + 1 = w.index + x.winH) else decide ((r + 1) % x.winH = 0)
      segment x lane c.1 c.2.2.2 r t gap first last (elems c.2.1) (if gap then none else some (c.2.1.val, t))))

/-- Windows that start at line T are accepted, or counted as not accepted (R22, R332, R338). -/
def openWindows (s : State) (p : PartId) (ms : List (ImgId × ImgPortRec)) (low anchor t : Nat) (full : Bool) : State :=
  let cols := startCols ms anchor t
  let bands := match ms with | m :: _ => bandsOf m.2 | [] => 0
  if s.parts[p].flow.inputOpen && !full then
    acceptWindows s p ((List.range bands).flatMap (fun _ => cols.map (fun c => { index := t, src := low, column := c.1 })))
  else
    let s1 := notAccepted s p (bands * cols.length) t t false
    if s.parts[p].flow.inputOpen then
      ms.foldl (fun s m => updImg s m.1 (fun c => { c with
        notAccepted := sat32 (c.notAccepted + bands * (cols.filter (fun k => k.2.1 = m.1)).length) })) s1
    else s1

/-- Windows that line T ends have their last sample now; those it touches are INCOMPLETE after a gap line (R337, R342). -/
def closeWindows (s : State) (p : PartId) (ms : List (ImgId × ImgPortRec)) (low t : Nat) (gap : Bool) : State :=
  match ms with
  | [] => s
  | m :: _ => mapWindows s p (fun w =>
      if windowCovers low w.column t m.2 w then
        { w with incomplete := w.incomplete || gap,
                 tLast := if !m.2.lineScan || decide (t + 1 = w.index + m.2.winH) then some (now s) else none }
      else w)

/-- Line T leaves a stream's buffers for the fabric (R332-R338). -/
def deliverLine (s : State) (p : PartId) (ms : List (ImgId × ImgPortRec)) (t : Nat) (gap : Bool) (elems : ImgId → List Nat) : State :=
  match ms, s.parts[p].active with
  | m :: _, some i =>
    if !(s.imgs[m.1]).delivering then s
    else
      let low := m.1.val
      let anchor := ((s.imgs[m.1]).anchor).getD t
      let full := ms.any (fun k => decide (6 < buffered s p k.1))
      let piece := camPiece s p m.1
      let s1 := ms.foldl (fun s k => updCam s k.1 (fun c => { c with anchor := some anchor })) s
      let s2 := openWindows s1 p ms low anchor t full
      let fs := lineSegments s2 p ms low (imgLane i piece low) t gap elems
      enterGateway (sendDescriptors (closeWindows s2 p ms low t gap) p) p piece fs
  | _, _ => s

/-- The line that a stream releases next: the lowest that any member still owes. -/
def nextDue (s : State) (ms : List (ImgId × ImgPortRec)) : Option Nat :=
  match ms.filterMap (fun m => ((s.imgs[m.1]).due).head?) with
  | [] => none
  | t :: ts => some (ts.foldl min t)

/-- The held line T of a member. -/
def heldLine (c : ImgConn) (t : Nat) : Option HeldLine := c.held.find? (fun l => decide (l.index = t))

/-- Release every line that each member holds, complete or as a gap, in ascending index (R335, R337). -/
def releaseLines : Nat → State → PartId → List (ImgId × ImgPortRec) → State
  | 0, s, _, _ => s
  | n + 1, s, p, ms =>
    match nextDue s ms with
    | none => s
    | some t =>
      if ms.all (fun m => !((s.imgs[m.1]).due).contains t || (heldLine s.imgs[m.1] t).isSome) then
        let gap := ms.any (fun m => match heldLine s.imgs[m.1] t with | some l => l.gap | none => true)
        let elems := fun (m : ImgId) => match heldLine s.imgs[m] t with | some l => l.elems | none => []
        let s1 := ms.foldl (fun s m => updImg s m.1 (fun c =>
          { c with due := c.due.erase t, held := c.held.filter (fun l => decide (l.index ≠ t)) })) s
        releaseLines n (deliverLine s1 p ms t gap elems) p ms
      else s

/-- Release what can be released now. -/
def releaseStream (s : State) (p : PartId) (ms : List (ImgId × ImgPortRec)) : State :=
  releaseLines (1 + (ms.map (fun m => (s.imgs[m.1]).due.length)).sum) s p ms

/-- Put a gap line in place of line T. -/
def gapHeld (t : Nat) (c : ImgConn) : ImgConn :=
  { c with held := { index := t, gap := true } :: c.held.filter (fun l => decide (l.index ≠ t)) }

/-- Line T becomes a gap line for the whole stream: it is forced on every member but `m` (R337, R338). -/
def forceGap (s : State) (ms : List (ImgId × ImgPortRec)) (m : ImgId) (t : Nat) : State :=
  ms.foldl (fun s k => updImg s k.1 (fun c =>
    let c1 := gapHeld t c
    if k.1 = m then c1 else { c1 with gapForced := satInc c.gapForced })) s

/-! ### Triggers and missing lines (R328, R329, R337) -/

/-- Does a member find line T missing at the pulse for T + 4? -/
def lineMissing (t : Nat) (c : ImgConn) : Bool := c.waiting.contains t || (c.due.contains t && (heldLine c t).isNone)

/-- What the declaration does to one member. -/
def declareOne (t : Nat) (c : ImgConn) : ImgConn :=
  let c1 := gapHeld t c
  if lineMissing t c then
    { c1 with missing := satInc c.missing, overdue := c.overdue + boolNat (c.waiting.contains t), waiting := c.waiting.erase t }
  else if (match heldLine c t with | some l => l.gap | none => true) then c1
  else { c1 with gapForced := satInc c.gapForced }

/-- Line T is declared missing wherever it is not complete; while the stream still owes it, it is a gap line in every member. A
member that owed it to nobody any more only counts it. -/
def declareMissing (s : State) (ms : List (ImgId × ImgPortRec)) (t : Nat) : State :=
  if ms.any (fun m => lineMissing t s.imgs[m.1]) then
    let owed := ms.any (fun m => ((s.imgs[m.1]).due).contains t)
    ms.foldl (fun s m => updImg s m.1 (fun c =>
      let c1 := declareOne t c
      if owed then c1 else { c1 with held := c.held })) s
  else s

/-- A line pulse reaches one stream: line T - 4 may be missing, then the trigger packets go (R328, R329). -/
def pulseStream (t : Nat) (s : State) (p : PartId) (ms : List (ImgId × ImgPortRec)) : State :=
  if !ms.any (fun m => (s.imgs[m.1]).triggering || (s.imgs[m.1]).delivering) then s
  else
    let s1 := if 4 ≤ t then declareMissing s ms (t - 4) else s
    let s2 := ms.foldl (fun s m => updImg s m.1 (fun c =>
      let c1 := { c with due := c.due ++ [t] }
      if c.triggering then { c1 with waiting := c1.waiting ++ [t], triggersSent := c1.triggersSent + 1 } else c1)) s1
    releaseStream s2 p ms

/-- A line pulse of an encoder with its full index, to every stream on it, by lowest port. -/
def linePulse (s : State) (e : EncId) (t : Nat) : State :=
  allImgs.foldl (fun s m => match camPort s m with
    | some (p, x) =>
      let ms := camMembers s p x
      if x.encoder = e.val && decide ((ms.head?).map (·.1) = some m) then pulseStream t s p ms else s
    | none => s) s

/-! ### CXP_LINE_RECEIVED -/

/-- A complete line of a member joins its buffer, or is a gap line: after a failing header, or with the buffer full. -/
def takeLine (s : State) (p : PartId) (ms : List (ImgId × ImgPortRec)) (m : ImgId) (x : ImgPortRec) (t : Nat) (pixels : List Nat) : State :=
  let c := s.imgs[m]
  if c.mismatch && c.delivering || decide (8 ≤ buffered s p m) then forceGap s ms m t
  else updImg s m (fun c => { c with held := c.held ++ [{ index := t, elems := cropElems x c.lineWidth pixels }] })

/-- A line of a port without an encoder: its own count is its index (R330). -/
def freeLine (s : State) (p : PartId) (m : ImgId) (x : ImgPortRec) (pixels : List Nat) (crcOk : Bool) : State :=
  let t := (s.imgs[m]).ownIndex
  let ms := camMembers s p x
  let s1 := updImg s m (fun c => { c with ownIndex := (t + 1) % 2 ^ 64, due := c.due ++ [t] })
  releaseStream (if crcOk then takeLine s1 p ms m x t pixels else forceGap s1 ms m t) p ms

/-- A line of a port on an encoder: paired, extra or late (R329). -/
def pairedLine (s : State) (p : PartId) (m : ImgId) (x : ImgPortRec) (pixels : List Nat) (crcOk : Bool) (start : LineStart) : State :=
  let c := s.imgs[m]
  let ms := camMembers s p x
  if start = .overtaken ∧ 0 < c.overdue then
    updImg s m (fun c => { c with late := satInc c.late, overdue := c.overdue - 1 })
  else match (if start = .unasked then [] else c.waiting) with
    | [] => updImg s m (fun c => { c with extra := satInc c.extra })
    | t :: rest =>
      let s1 := updImg s m (fun c => { c with waiting := rest })
      if !crcOk || !c.due.contains t || (heldLine c t).isSome then s1
      else releaseStream (takeLine s1 p ms m x t pixels) p ms

/-- CXP_LINE_RECEIVED. -/
def execCxpLineReceived (c : ImgId) (pixels : List Nat) (crcOk : Bool) (start : LineStart) (s : State) :
    Host.Outcome State Fault Refusal :=
  let m := masterOf s c
  let s1 := if crcOk then s else updImg s c (fun x => { x with crc := satInc x.crc })
  whenUp s (match (s.imgs[c]).owner, camPort s m with
    | some _, some (p, x) =>
      if (s.imgs[m]).linkDown then s
      else if x.encoder = 255 then freeLine s1 p m x pixels crcOk
      else pairedLine s1 p m x pixels crcOk start
    | _, _ => s)

/-! ### Bring-up (R323, R324) -/

/-- The code of a failed bring-up in IMG_STATUS. -/
def bringupCode : BringupCause → Nat
  | .noDevice => 1
  | .linkConfig => 2
  | .scriptCompare => 3
  | .timeout => 4
  | .formatMismatch => 5

/-- Step 6 of a bring-up is reached (R323). A port that still feeds the image it is to leave keeps its triggers and the lines that it
owes, whose windows close as their lines arrive or are declared missing (R22, R305). -/
def finishBringup (bayer : Option (Fin 4)) (y : ImgPortRec) (t : Nat) (c : ImgConn) : ImgConn :=
  let up := { c with ready := true, shadowReady := true, locked := true, bringup := 0, bayer := bayer, linkDown := false, mismatch := false,
                     headerSeen := false, lastHeartbeat := t }
  if c.delivering then up
  else { up with triggering := decide (y.encoder < 4), waiting := [], due := [], held := [], overdue := 0 }

/-- The script of a port in an image (R264). -/
def portScript (i : Image) (port : Nat) : List ScriptEntry :=
  (i.recs.findSome? (fun r => match r.body with | .script q es => if q = port then some es else none | _ => none)).getD []

/-- Does an answer to a script's read equal its value under its mask (R264)? -/
def scriptMatch (e : ScriptEntry) (v : Word) : Bool := Nat.land v.toNat e.mask = Nat.land e.value e.mask

/-- The entries of a script run in order: the packets sent, and whether every compare held within three retries. `reads` holds the
answers to each compare's tries in turn (R264, R323 step 4, R324). -/
def runScript : List ScriptEntry → List (List Word) → List CtrlPacket × Bool
  | [], _ => ([], true)
  | e :: es, reads =>
    if e.op = 1 then let r := runScript es reads; (.write e.addr e.value :: r.1, r.2)
    else if e.op = 3 then runScript es reads
    else match ((reads.headD []).take 4).findIdx? (scriptMatch e) with
      | some k => let r := runScript es (reads.drop 1); (List.replicate (k + 1) (.read e.addr) ++ r.1, r.2)
      | none => (List.replicate 4 (.read e.addr), false)

/-- Steps 3 and 4 of a bring-up: the connections are configured, and the script runs (R323). -/
def bootCamera (i : Image) (x : ImgPortRec) (reads : List (List Word)) : List CtrlPacket × Bool :=
  let r := runScript (portScript i x.port) reads
  (.config x.links x.bitRate :: r.1, r.2)

/-- The group of a port's record in the image being loaded. -/
def portGroup (i : Image) (m : ImgId) : Nat :=
  (i.recs.findSome? (fun r => match r.body with | .imgPort x => if x.port = m.val then some r.group else none | _ => none)).getD 0

/-- A bring-up has failed: the port reports its cause and refuses its group (R287, R324). -/
def failBringup (s : State) (p : PartId) (m : ImgId) (cause : BringupCause) : State :=
  let k := bringupCode cause
  let s1 := logPlain (updCam s m (fun c => { c with ready := false, shadowReady := false, bringup := k })) (0x0400 + k) m.val
  match s.parts[p].load with
  | none => s1
  | some l => failGroup s1 p (portGroup l.image m)

/-- CXP_BRINGUP_COMPLETE: step 6 is reached, unless a compare of the script fails (R323, R324). -/
def execCxpBringupComplete (c : ImgId) (o : BringupObs) (s : State) : Host.Outcome State Fault Refusal :=
  let m := masterOf s c
  let x := s.imgs[m]
  whenUp s (match x.owner, x.shadow with
    | some p, some y =>
      if x.shadowReady then s
      else
        let boot := bootCamera (((s.parts[p].load).map (·.image)).getD {}) y o.reads
        let s1 := updImg s m (fun c => { c with ctrl := boot.1 })
        if boot.2 then advanceLoad (updCam s1 m (finishBringup o.bayer y (now s))) p else failBringup s1 p m .scriptCompare
    | _, _ => s)

/-- CXP_BRINGUP_FAILED. -/
def execCxpBringupFailed (c : ImgId) (cause : BringupCause) (s : State) : Host.Outcome State Fault Refusal :=
  let m := masterOf s c
  let x := s.imgs[m]
  whenUp s (match x.owner with
    | some p => if x.shadow.isSome && !x.shadowReady && s.parts[p].load.isSome then failBringup s p m cause else s
    | none => s)

/-! ### Headers, events, links -/

/-- Does a header fit the contract: the pixel format, and a line that reaches the region's right edge (R327)? -/
def headerOk (x : ImgPortRec) (format width : Nat) : Bool := decide (format = x.pixelFormat) && decide (x.roiX + x.roiW ≤ width)

/-- CXP_IMAGE_HEADER. Before the release only the first header can fail the bring-up (R324); afterwards a failing one begins an
episode that the first passing one ends (R327). -/
def execCxpImageHeader (c : ImgId) (format width : Nat) (bayer : Option (Fin 4)) (s : State) : Host.Outcome State Fault Refusal :=
  let m := masterOf s c
  let x := s.imgs[m]
  whenUp s (match x.owner with
    | none => s
    | some p =>
      let coming := x.shadowReady && decide (x.shadow ≠ x.cfg)
      match (if coming then x.shadow else camCfg x) with
      | none => s
      | some y =>
        let ok := headerOk y format width
        let isBayer : Bool := y.pixelFormat = 4 || y.pixelFormat = 5 || y.pixelFormat = 6
        let s1 := updCam s m (fun c => { c with lineWidth := width, headerSeen := true,
                                                bayer := if ok && isBayer && bayer.isSome then bayer else c.bayer })
        if coming || !x.delivering then
          if ok || x.headerSeen || s.parts[p].load.isNone then s1 else failBringup s1 p m .formatMismatch
        else if ok then updCam s1 m (fun c => { c with mismatch := false })
        else if x.mismatch then s1
        else logPlain (updCam s1 m (fun c => { c with mismatch := true })) 0x0405 m.val)

/-- IMG_EVENT: acknowledged; logged up to 8 times in a second of the timebase, then counted (R340). -/
def execImgEvent (c : ImgId) (id : Nat) (data : List Byte) (s : State) : Host.Outcome State Fault Refusal :=
  let m := masterOf s c
  let x := s.imgs[m]
  let second := now s / 1000000000
  let n := if x.evtSecond = second then x.evtCount else 0
  whenUp s (if (s.imgs[c]).owner.isNone then s
  else
    let s1 := updImg s m (fun y => { y with acksSent := y.acksSent + 1, evtSecond := second, evtCount := min 8 (n + 1) })
    if n < 8 then logEvent s1 0x0407 m.val id (leNat (data.take 8)) false
    else updImg s1 m (fun y => { y with evtSuppressed := satInc y.evtSuppressed }))

/-- A connection of a camera port that is up goes down, and the port with it (R339). -/
def camDown (s : State) (c : ImgId) : State :=
  let m := masterOf s c
  let s1 := updImg s c (fun x => { x with locked := false })
  if (s.imgs[c]).owner.isNone || !(s.imgs[m]).ready || (s.imgs[m]).linkDown then s1
  else logPlain (updCam s1 m (fun x => { x with linkDown := true, triggering := false, waiting := [] })) 0x0406 m.val

/-- LINK_DOWN: lock is lost, or no heartbeat came for 1 s. -/
def execLinkDown (c : ImgId) (s : State) : Host.Outcome State Fault Refusal := whenUp s (camDown s c)

/-- RECONNECTION_ATTEMPT: steps 1-5 are repeated; on success, with what the script read, the port triggers again and keeps its anchor, and a failed script no longer
refuses anything (R339). With DC on a connection it stays down. -/
def execReconnectionAttempt (c : ImgId) (reads : Option (List (List Word))) (s : State) : Host.Outcome State Fault Refusal :=
  let m := masterOf s c
  let dc := allImgs.any (fun k => (s.imgs[k]).dcPresent && decide ((s.imgs[k]).master = m) && decide ((s.imgs[k]).owner = (s.imgs[m]).owner))
  whenUp s (match camPort s m with
    | some (p, x) =>
      match reads with
      | none => s
      | some rs =>
        if (s.imgs[m]).linkDown && !dc then
          let boot := bootCamera (s.parts[p].active.getD {}) x rs
          updCam (updImg s m (fun y => { y with ctrl := boot.1 })) m
            (fun y => { y with linkDown := false, locked := true, triggering := decide (x.encoder < 4), lastHeartbeat := now s })
        else s
    | none => s)

/-- DC_PRESENT: logged once per episode; the connection stays down (R343). -/
def execDcPresent (c : ImgId) (on_ : Bool) (s : State) : Host.Outcome State Fault Refusal :=
  whenUp s (if on_ = (s.imgs[c]).dcPresent then s
  else
    let s1 := updImg s c (fun x => { x with dcPresent := on_ })
    if on_ then camDown (logPlain s1 0x0408 c.val) c else s1)

/-- HEARTBEAT. -/
def execHeartbeat (c : ImgId) (s : State) : Host.Outcome State Fault Refusal :=
  whenUp s (if (s.imgs[c]).owner.isNone then s
  else updImg s c (fun x => { x with heartbeats := x.heartbeats + 1, lastHeartbeat := now s }))

/-- UNSUPPORTED_PACKET: ignored and counted (R320). -/
def execUnsupportedPacket (c : ImgId) (s : State) : Host.Outcome State Fault Refusal :=
  whenUp s (if (s.imgs[c]).owner.isNone then s else updImg s c (fun x => { x with ignored := satInc x.ignored }))

end Sys2Proof.Machine
end

