-- ==== Sys2Proof/Machine/Encoder.lean ====
section
/-! DEFINITION. The encoder inputs (R378-R380, R488) and the triggers they cause (R328). -/

namespace Sys2Proof.Machine

/-- A count of an encoder (R379): the line pulse it emits, if any, by its index. Position and high are signed. -/
def countStep (up : Bool) (x : Enc) : Enc × Option Nat :=
  let pos := if up then x.position + 1 else x.position - 1
  let x1 := { x with position := pos }
  if x.high.toInt < pos.toInt then
    let x2 := { x1 with high := pos }
    if pos.toInt % (x.div : Int) = 0 then ({ x2 with line := x.line + 1 }, some x.line.toNat) else (x2, none)
  else (x1, none)

/-- ENCODER_COUNT. -/
def execEncoderCount (e : EncId) (m : EncMove) (s : State) : Host.Outcome State Fault Refusal :=
  let x := s.encs[e]
  whenUp s (if m = .illegal then updEnc s e (fun x => { x with errors := satInc x.errors })
  else
    let r := countStep (decide (m = .aLeads) != x.invert) x
    let s1 := updEnc s e (fun _ => r.1)
    match r.2 with
    | some t => linePulse s1 e t
    | none => s1)

/-- ENCODER_Z_EDGE. -/
def execEncoderZEdge (e : EncId) (s : State) : Host.Outcome State Fault Refusal :=
  whenUp s (updEnc s e (fun x => { x with zcount := satInc x.zcount, zpos := x.position }))

/-- OPEN bits of ENC_STATUS: A, B, Z from bit 0. -/
def openBits (x : Enc) : Nat := boolNat x.openA + 2 * boolNat x.openB + 4 * boolNat x.openZ

def setOpen (sig : EncSignal) (v : Bool) (x : Enc) : Enc :=
  match sig with
  | .a => { x with openA := v }
  | .b => { x with openB := v }
  | .z => { x with openZ := v }

/-- ENCODER_OPEN: logged once per episode. -/
def execEncoderOpen (e : EncId) (sig : EncSignal) (isOpen : Bool) (s : State) : Host.Outcome State Fault Refusal :=
  let x := setOpen sig isOpen s.encs[e]
  whenUp s (if x = s.encs[e] then s
  else
    let s1 := updEnc s e (fun _ => x)
    if isOpen then logIrq s1 0x0701 e.val (openBits x) 0 false 21 else irq s1 21)

/-- Does an image port of a running or loading image, or one that a partition still claims, name the encoder (R380)? -/
def encClaimed (s : State) (e : EncId) : Bool :=
  let names := fun (x : Option ImgPortRec) => match x with | some y => decide (y.encoder = e.val) | none => false
  allImgs.any (fun c => (s.imgs[c]).owner.isSome && (names (s.imgs[c]).cfg || names (s.imgs[c]).shadow)) ||
  allParts.any (fun p => match s.parts[p].load with
    | some l => (imgPorts l.image).any (fun y => decide (y.2.encoder = e.val) && decide ((s.imgs[Fin.ofNat 16 y.2.port]).owner = some p))
    | none => false)

/-- Is a value in range for the register (R471, R488)? -/
def encValueOk (r : EncReg) (v : Word) : Bool :=
  match r with
  | .ctrl => decide (v.toNat < 2)
  | .div => decide (1 ≤ v.toNat) && decide (v.toNat ≤ 65536)

def storeEnc (r : EncReg) (v : Word) (x : Enc) : Enc :=
  match r with
  | .ctrl => { x with invert := v.getLsbD 0 }
  | .div => { x with div := v.toNat }

/-- ENC_CONFIG_WRITE. -/
def execEncConfigWrite (e : EncId) (r : EncReg) (v : Word) (s : State) : Host.Outcome State Fault Refusal :=
  whenUp s (if !encValueOk r v then s
  else if encClaimed s e then
    (if (s.encs[e]).busy then s else irq (updEnc s e (fun x => { x with busy := true })) 21)
  else updEnc s e (storeEnc r v))

end Sys2Proof.Machine
end

