-- ==== Sys2Proof/Machine/Evidence.lean ====
section
/-! DEFINITION. Evidence crops: matching, the coder, fragments (R395-R398). -/

namespace Sys2Proof.Machine

/-! ### The coder (R397) -/

/-- The adaptive state of the coder: A, n, and the bits written so far, in pieces, newest first. -/
structure Coder where
  a : Nat := 4
  n : Nat := 1
  bits : List (List Bool) := []

/-- The middle of three integers. -/
def median3 (x y z : Int) : Int := max (min x y) (min (max x y) z)

/-- q of a prediction error. -/
def quantErr (d : Nat) (e : Int) : Int :=
  let m : Int := (((e.natAbs + d) / (2 * d + 1) : Nat) : Int)
  if e < 0 then -m else if 0 < e then m else 0

/-- The smallest k with n x 2^k at least A. -/
def riceK (a n : Nat) : Nat → Nat
  | 0 => 0
  | fuel + 1 => if a ≤ n then 0 else riceK a (2 * n) fuel + 1

/-- The low `n` bits of a number, most significant first. -/
def bitsOf (v : Nat) : Nat → List Bool
  | 0 => []
  | n + 1 => v.testBit n :: bitsOf v n

/-- The code of a mapped value. -/
def riceBits (m k : Nat) : List Bool :=
  if m / 2 ^ k < 24 then List.replicate (m / 2 ^ k) true ++ false :: bitsOf m k
  else List.replicate 24 true ++ bitsOf m 9

/-- One value q is written and the state adapts. -/
def codeStep (q : Int) (c : Coder) : Coder :=
  let m := if 0 ≤ q then 2 * q.natAbs else 2 * q.natAbs - 1
  let a := c.a + q.natAbs
  let n := c.n + 1
  let bits := riceBits m (riceK c.a c.n 32) :: c.bits
  if n = 64 then { a := a / 2, n := 32, bits := bits } else { a := a, n := n, bits := bits }

/-- One element with its prediction: the reconstruction and the coder after it. -/
def codeElem (d : Nat) (p : Int) (x : Nat) (c : Coder) : Nat × Coder :=
  let q := quantErr d ((x : Int) - p)
  ((max 0 (min 255 (p + q * (2 * (d : Int) + 1)))).toNat, codeStep q c)

/-- A row after its first column: `left` and `corner` are r(i-1, j) and r(i-1, j-1), `above` the row above from here on.
Without a row above, b and c are a. -/
def codeRest (d : Nat) : List Nat → Option (List Nat × Nat) → Nat → Coder → List Nat × Coder
  | [], _, _, c => ([], c)
  | x :: xs, up, left, c =>
    let ab : Int × Int := match up with
      | some (b :: _, corner) => ((b : Int), (corner : Int))
      | _ => ((left : Int), (left : Int))
    let p := median3 (left : Int) ab.1 ((left : Int) + ab.1 - ab.2)
    let r := codeElem d p x c
    let up' := match up with
      | some (b :: bs, _) => some (bs, b)
      | u => u
    let rest := codeRest d xs up' r.1 r.2
    (r.1 :: rest.1, rest.2)

/-- A whole row; `above` is the reconstructed row above, if any. -/
def codeRow (d : Nat) (row : List Nat) (above : Option (List Nat)) (c : Coder) : List Nat × Coder :=
  match row with
  | [] => ([], c)
  | x :: xs =>
    let p : Int := match above with
      | some (b :: _) => (b : Int)
      | _ => 128
    let r := codeElem d p x c
    let up := match above with
      | some (b :: bs) => some (bs, b)
      | _ => none
    let rest := codeRest d xs up r.1 r.2
    (r.1 :: rest.1, rest.2)

/-- Rows of a crop, top to bottom. -/
def codeRows (d : Nat) : List (List Nat) → Option (List Nat) → Coder → Coder
  | [], _, c => c
  | row :: rows, above, c =>
    let r := codeRow d row above c
    codeRows d rows (some r.1) r.2

/-- Bits to bytes, most significant first, padded with zeros; at most `fuel` bytes. -/
def packBits : Nat → List Bool → List Byte
  | 0, _ => []
  | n + 1, bs =>
    if bs.isEmpty then []
    else BitVec.ofNat 8 ((List.range 8).map (fun i => boolNat (bs.getD i false) * 2 ^ (7 - i))).sum :: packBits n (bs.drop 8)

/-- Coded bytes of a crop. -/
def codeCrop (d w h : Nat) (elems : List Byte) : List Byte :=
  let es := elems.map (·.toNat)
  let rows := (List.range h).map (fun j => (es.drop (w * j)).take w)
  let bits := (codeRows d rows none {}).bits.reverse.flatten
  packBits bits.length bits

/-- δ of a stream: the ledger's KIND 8 entry with WHERE place 5 and the stream's index; 0 without one. -/
def evidenceDelta (i : Image) (stream : Nat) : Nat :=
  match (imgLedger i).find? (fun e => e.kind = 8 && e.place = 5 && e.index = stream) with
  | some e => (deltaOf e.bound).getD 0
  | none => 0

/-! ### Fragments (R386, R398) -/

/-- Round up to a multiple of 8. -/
def up8 (n : Nat) : Nat := (n + 7) / 8 * 8

/-- An evidence fragment. -/
def fragment (c : Crop) (v : RecentVerdict) (delta total num : Nat) (last : Bool) (data : List Byte) : List Byte :=
  let n := up8 data.length
  leBytes 1 0x02 ++ leBytes 1 (boolNat (num = 0) + 2 * boolNat last) ++ leBytes 2 (32 + n) ++ leBytes 1 c.stream ++
  leBytes 1 delta ++ leBytes 2 num ++ leBytes 4 v.index ++ leBytes 2 v.column ++ leBytes 2 c.w ++ leBytes 2 c.h ++
  leBytes 2 c.x0 ++ leBytes 2 c.y0 ++ zeros 2 ++ leBytes 4 v.seq ++ leBytes 4 total ++ data ++ zeros (n - data.length)

/-- Is any fragment of a crop still held? -/
def cropHeld (e : Exp) (crop : Nat) : Bool :=
  (storeRecs e).any (fun r => match r with | .evidence k _ => k = crop | _ => false)

/-- The fragments of a crop enter export SRAM: one that does not fit whole fills the page while at least 64 bytes remain (R386).
When the crop itself is discarded to make room (R399), the rest of it does not enter. -/
def enterFrags (time gen crop : Nat) (mk : Nat → Bool → List Byte → List Byte) : Nat → Nat → List Byte → Exp → Exp
  | 0, _, _, e => e
  | fuel + 1, num, data, e =>
    let whole := 32 + up8 data.length
    let e1 := makeRoom time gen (min whole 4016) (storeRecs e).length e
    if num ≠ 0 && !cropHeld e1 crop then e1
    else
      let room := pageRoom e1
      if whole ≤ room then putRec time gen e1 (.evidence crop (mk num true data))
      else if 64 ≤ room then
        enterFrags time gen crop mk fuel (num + 1) (data.drop (room - 32))
          (putRec time gen e1 (.evidence crop (mk num false (data.take (room - 32)))))
      else enterFrags time gen crop mk fuel num data (closePage time .full e1)

/-- A matched crop is coded and its fragments enter (R396-R398). -/
def enterCrop (time gen : Nat) (i : Image) (c : Crop) (v : RecentVerdict) (e : Exp) : Exp :=
  let delta := evidenceDelta i c.stream
  let data := codeCrop delta c.w c.h c.elems
  let e1 := if storeUsed e + data.length + 40 ≤ 4194304 then placeDropGap time gen e else e
  enterFrags time gen e.nextCrop (fragment c v delta data.length) (2 * data.length + 4) 0 data { e1 with nextCrop := e.nextCrop + 1 }

/-! ### Matching (R396) -/

/-- One millisecond of the timebase. -/
def ms1 : Nat := 1000000

/-- Does a verdict record match a crop? -/
def cropMatches (c : Crop) (v : RecentVerdict) : Bool :=
  v.index % 65536 = c.index16 && v.column = c.column && v.time ≤ c.arrived + ms1 && c.arrived ≤ v.time + ms1

/-- A crop meets the record it matches: it is coded, unless its stream already has a crop for that record. -/
def meetCrop (time gen : Nat) (i : Image) (c : Crop) (v : RecentVerdict) (e : Exp) : Exp :=
  if v.streams.contains c.stream then { e with evdDrop := satInc e.evdDrop }
  else
    let v' := { v with streams := c.stream :: v.streams }
    enterCrop time gen i c v { e with recent := e.recent.map (fun u => if u = v then v' else u) }

/-- Every waiting crop that matches a record just entered is coded, in order of arrival. -/
def meetWaiting (time gen : Nat) (i : Image) (seq : Nat) (e : Exp) : Exp :=
  e.crops.foldl (fun e c =>
    match e.recent.find? (fun v => decide (v.seq = seq)) with
    | some v => if cropMatches c v then meetCrop time gen i c v { e with crops := e.crops.erase c } else e
    | none => e) e

/-- A verdict record becomes the newest of the latest 1 ms. -/
def noteVerdict (v : RecentVerdict) (e : Exp) : Exp :=
  { e with recent := v :: e.recent.filter (fun u => decide (v.time ≤ u.time + ms1)) }

/-! ### The commands -/

/-- The crop that a run of evidence flits carries (R395). -/
def readCrop (arrived : Nat) (flits : List Flit) : Crop :=
  let d := fun (k : Nat) => flitData (flits.getD k 0)
  let w := field (d 0) 19 8 + 1
  let h := field (d 0) 31 20 + 1
  { stream := d 0 % 8, w := w, h := h, index16 := d 1 % 65536, column := d 1 / 65536, x0 := d 2 % 65536, y0 := d 2 / 65536,
    elems := ((unpackWords 8 ((flits.drop 3).map flitData) ++ List.replicate (w * h) 0).take (w * h)).map (BitVec.ofNat 8),
    arrived := arrived }

/-- Bytes of a crop in the evidence input queue: its flits' data (DESIGN CHOICE, log entry 36). -/
def cropSize (c : Crop) : Nat := 4 * (3 + (c.w * c.h + 3) / 4)

/-- EVIDENCE_CROP_RECEIVED: the crop's last flit has arrived. -/
def execEvidenceCropReceived (p : PartId) (flits : List Flit) (s : State) : Host.Outcome State Fault Refusal :=
  let x := s.parts[p]
  let c := readCrop (now s) flits
  whenUp s (match x.active with
    | none => s
    | some i =>
      if !isServing x.state then s
      else exportPump (updExp s p (fun e =>
        if 262144 < (e.crops.map cropSize).sum + cropSize c then { e with evdDrop := satInc e.evdDrop }
        else match e.recent.find? (cropMatches c) with
          | some v => meetCrop (now s) x.regs.ldgGen i c v e
          | none => { e with crops := e.crops ++ [c] })))

/-- EVIDENCE_MATCH_TIMEOUT: the crop that has waited longest, once that is over 1 ms, is dropped and counted. -/
def execEvidenceMatchTimeout (p : PartId) (s : State) : Host.Outcome State Fault Refusal :=
  whenUp s (updExp s p (fun e => match e.crops with
    | [] => e
    | c :: rest => if c.arrived + ms1 < now s then { e with crops := rest, evdDrop := satInc e.evdDrop } else e))

end Sys2Proof.Machine
end

