-- ==== Sys2Proof/Machine/Export.lean ====
section
/-! DEFINITION. Commands of the host link and the export rings (R214, R382-R389, R401, R402, R490). -/

namespace Sys2Proof.Machine

/-- The bit of a ring's vector in GLB_IRQ: EXP_TAIL advanced. -/
def ringEvent (s : State) (p : PartId) : State :=
  { s with glb := { s.glb with irq := s.glb.irq ||| ((1 : Word) <<< (ringVector p).val) } }

/-- Signal a ring's vector, unless its holdoff runs; a signal begins a holdoff (R383). -/
def signalRing (s : State) (p : PartId) : State :=
  let e := s.exps[p]
  if e.holdoffOn then updExp (ringEvent s p) p (fun e => { e with advanced := true })
  else updExp (irq s (ringVector p)) p (fun e => { e with holdoffOn := decide (0 < e.holdoff), holdoffAt := now s, advanced := false })

/-- Is a page open since 100 µs (R386)? -/
def flushDue (time : Nat) (e : Exp) : Bool := match e.opened with | some pg => decide (pg.tOpen + 100000 ≤ time) | none => false

/-- PAGE_FLUSH: the open page closes as a flush page, 100 µs after its T_OPEN. -/
def execPageFlush (p : PartId) (s : State) : Host.Outcome State Fault Refusal :=
  whenUp s (if flushDue (now s) s.exps[p] then exportPump (updExp s p (closePage (now s) .flush)) else s)

/-- VERDICT_CREDIT_REFILL (R214). -/
def execVerdictCreditRefill (s : State) : Host.Outcome State Fault Refusal :=
  whenUp s (exportPump (updExps s (fun e => { e with credits := min 2 (e.credits + 2) })))

/-- The page being written is delivered: EXP_TAIL moves, the page leaves export SRAM, the tail is written back (R388). -/
def deliverPage (e : Exp) : Exp :=
  match e.closed with
  | [] => e
  | pg :: rest =>
    let q := pg.seq.getD e.tail
    { e with closed := rest, writing := false, tail := q + 1,
             lastWb := if e.tailWb then some (BitVec.ofNat 32 (q + 1)) else e.lastWb }

/-- PAGE_DELIVERED: the flush read of the page being written completes. -/
def execPageDelivered (p : PartId) (s : State) : Host.Outcome State Fault Refusal :=
  whenUp s (if (s.exps[p]).writing then exportPump (signalRing (updExp s p deliverPage) p) else s)

/-- IRQ_HOLDOFF_END: an advance during the holdoff is signalled, and begins the next. -/
def execIrqHoldoffEnd (p : PartId) (s : State) : Host.Outcome State Fault Refusal :=
  let e := s.exps[p]
  whenUp s (if !e.holdoffOn || decide (now s < e.holdoffAt + 1000 * e.holdoff) then s
  else
    let s1 := updExp s p (fun e => { e with holdoffOn := false })
    if e.advanced then signalRing s1 p else s1)

/-- Is the ring geometry in range (R384, R490)? -/
def ringOk (e : Exp) : Bool :=
  decide (2 ≤ e.pages) && decide (e.pages ≤ 16) && decide (e.base.toNat % 4096 = 0) &&
  decide (e.base.toNat + 4096 * ringSlots e ≤ 2 ^ 64)

/-- EXP_CTRL_WRITE. A RUN that is set and finds EXP_TAIL ahead of EXP_HEAD signals the vector (R402). -/
def execExpCtrlWrite (p : PartId) (v : Word) (s : State) : Host.Outcome State Fault Refusal :=
  let e := s.exps[p]
  let run := v.getLsbD 0
  whenUp s (if 4 ≤ v.toNat then s
  else if run && !ringOk e then updExp s p (fun e => { e with cfgErr := true })
  else
    let s1 := updExp s p (fun e => { e with run := run, tailWb := v.getLsbD 1 })
    let s2 := if run && !e.run && decide (tailAhead e ≠ 0) then signalRing s1 p else s1
    exportPump s2)

/-- EXP_HEAD_WRITE: pages are released; a move backward or past EXP_TAIL is an error (R389). -/
def execExpHeadWrite (p : PartId) (v : Word) (s : State) : Host.Outcome State Fault Refusal :=
  let e := s.exps[p]
  let ahead := (v - e.head).toNat
  whenUp s (if ahead ≤ tailAhead e then exportPump (updExp s p (fun e => { e with head := v }))
  else updExp s p (fun e => { e with headErr := true }))

/-- HOST_LINK_UP: the link has trained; BAR0 keeps its values (R401, R402). -/
def execHostLinkUp (gen width : Nat) (s : State) : Host.Outcome State Fault Refusal :=
  whenUp s (if s.glb.linkUp then s
  else { s with glb := { s.glb with linkUp := true, linkGen := gen, linkWidth := width } })

/-- HOST_LINK_DOWN: every ring stops; a page that has a number stays and is written again (R401). -/
def execHostLinkDown (s : State) : Host.Outcome State Fault Refusal :=
  whenUp s (if !s.glb.linkUp then s
  else
    let s1 := updExps s (fun e => { e with run := false, linkLost := true, writing := false })
    logIrq { s1 with glb := { s1.glb with linkUp := false, linkGen := 0, linkWidth := 0 } } 0x0007 0 0 0 false 0)

end Sys2Proof.Machine
end

