-- ==== Sys2Proof/Machine/Flow.lean ====
section
/-! DEFINITION. The stall detector and its spills (R142-R146), datapath samples (R156), the progress watchdog (R154). -/

namespace Sys2Proof.Machine

/-- The router input that a declared queue stands on. -/
def queueInput (s : State) (p : PartId) (j : Nat) (q : QueueSt) : Option (Fin 30) :=
  ((List.range 30).map (Fin.ofNat 30)).find? (fun i => decide (fifoQueue s p q.tile i = some j))

/-- Does an entry wait for a downstream credit, or for room on a local lane? -/
def creditBlocked (t : Tile) (e : RouteEntry) : Bool :=
  (List.range 5).any (fun o => e.mask.getLsbD o &&
    (if o < 4 then decide (t.credits[crd o e.lane.toNat] = 0) else decide (4 ≤ (t.local6[Fin.ofNat 6 e.lane.toNat]).length)))

/-- Is a queue full and blocked (R143)? -/
def fullBlocked (s : State) (p : PartId) (j : Nat) (q : QueueSt) : Bool :=
  decide (q.cfg.capacity ≤ q.count) && (!q.spilling || decide (spillCap q ≤ q.segCount)) &&
  (match queueInput s p j q with
   | none => false
   | some i => let t := getTile s q.tile; !(t.inputs[i]).isEmpty && creditBlocked t (activeCtx t).route[i])

/-- Positions of a cycle's queues. -/
def cycleQueues (x : Partition) (c : CycleRec) : List Nat :=
  c.queues.filterMap (fun id => indexOf (fun (q : QueueSt) => decide (q.cfg.id = id)) x.fabric.queues)

/-- Is every queue on a cycle full and blocked? -/
def cycleBlocked (s : State) (p : PartId) (c : CycleRec) : Bool :=
  (cycleQueues s.parts[p] c).all (fun j => match s.parts[p].fabric.queues[j]? with
    | some q => fullBlocked s p j q
    | none => false)

/-- The cycle table of the image that runs. -/
def partCycles (x : Partition) : List CycleRec := match x.active with | some i => imgCycles i | none => []

/-- STALL_DETECTOR_TICK (R144): timers of blocked cycles start at this tick, all others stop. -/
def execStallDetectorTick (p : PartId) (s : State) : Host.Outcome State Fault Refusal :=
  whenUp s (if !isServing s.parts[p].state then s
    else
      let cs := partCycles s.parts[p]
      updFabric s p (fun x => { x with timers := (List.range cs.length).map (fun n =>
        match cs[n]? with
        | some c => if cycleBlocked s p c then some ((x.timers.getD n none).getD (now s)) else none
        | none => none) }))

/-- The lowest-priority queue of a cycle whose spill segment is not full; a lower number is a lower priority. -/
def spillChoice (x : Partition) (c : CycleRec) : Option Nat :=
  let cand := (cycleQueues x c).filterMap (fun j => (x.fabric.queues[j]?).bind (fun q =>
    if q.segCount < spillCap q then some (q.cfg.priority, j) else none))
  ((insSort (fun a b => decide (a.1 ≤ b.1)) cand).head?).map (·.2)

/-- A queue enters the spilling state; its segment takes what waits at its input. It counts each episode once (R157). -/
def beginSpill (s : State) (p : PartId) (j start : Nat) : State :=
  let s1 := updQueue s p j (fun q => { q with
    spilling := true, inEpisode := true, episodes := if q.inEpisode then q.episodes else satInc q.episodes })
  let s2 := updFabric s1 p (fun x => match x.spillOpen with
    | some _ => x
    | none => { x with spillOpen := some start, spillEpisodes := satInc x.spillEpisodes })
  match s.parts[p].fabric.queues[j]? with
  | some q => pumpTile s2 q.tile
  | none => s2

/-- A set-entry stage enters shed mode (R149, R158). -/
def beginShed (n : Nat) (g : StageSt) : StageSt :=
  if g.number = n ∧ !g.shedMode then { g with shedMode := true, shedEpisodes := satInc g.shedEpisodes } else g

/-- The flits of a set's first `n` members. -/
def firstMembers : List Flit → Nat → List Flit
  | [], _ => []
  | f :: fs, n => if n = 0 then [] else f :: firstMembers fs (if flitEnd f then n - 1 else n)

/-- A complete set that a set-entry stage has not begun to send is cut to the quota from the end of its order (R149). Once its
window token has left, its count is given and it goes whole (DEDUCED, log entry 103). -/
def cutWaiting (quota : Nat) : List Flit → Option (List Flit × Nat)
  | [] => none
  | f :: fs =>
    let n := flitData f % 65536
    if flitLane f = 5 ∧ quota < n then some (windowToken quota true :: firstMembers fs quota, n - quota) else none

/-- A stage's waiting set is cut and the candidates are counted as shed. -/
def cutStage (s : State) (p : PartId) (k j : Nat) : State :=
  let t := getTile s k
  match cutWaiting (shedQuota (activeCtx t).micro) t.sendQ with
  | none => s
  | some r =>
    updStage (updTile s k (fun t => { t with sendQ := r.1 })) p j (fun g => { g with
      shedCandidates := sat32 (g.shedCandidates + r.2),
      shedWindows := if bitOf (flitData (t.sendQ.headD 0)) 16 then g.shedWindows else satInc g.shedWindows })

/-- The set-entry stage of a number enters shed mode; a complete set that waits in its tile is cut. -/
def shedStage (s : State) (p : PartId) (n : Nat) : State :=
  let here := fun (c : Nat × Tile) => byteAt (activeCtx c.2).micro 0 = 0x30 &&
    (match tileStage s p c.1 with | some e => decide (e.number = n) | none => false)
  let s1 := match s.tiles.find? here with
    | none => s
    | some c => match stageIndex s p c.1 with
      | some j => if (s.parts[p].fabric.stages.getD j {}).shedMode then s else cutStage s p c.1 j
      | none => s
  updFabric s1 p (fun f => { f with stages := f.stages.map (beginShed n) })

/-- Detection for a cycle in the order of R144: a blocked cycle's timer that has reached 8,192 ns spills or sheds and starts again;
the timer of a cycle that is not blocked stops. -/
def detect (s : State) (p : PartId) (n start : Nat) (c : CycleRec) : State :=
  if !cycleBlocked s p c then updFabric s p (fun f => { f with timers := modAt (fun _ => none) n f.timers })
  else if now s < start + 8192 then s
  else
    let s1 := match spillChoice s.parts[p] c with
      | some j => beginSpill s p j start
      | none => shedStage s p c.setEntry
    updFabric s1 p (fun f => { f with timers := modAt (fun _ => some (now s)) n f.timers })

/-- DETECTION_WINDOW_EXPIRY (R144): the timer of a cycle is looked at. -/
def execDetectionWindowExpiry (p : PartId) (cycle : Nat) (s : State) : Host.Outcome State Fault Refusal :=
  whenUp s (
    let x := s.parts[p]
    match (partCycles x)[cycle]?, x.fabric.timers.getD cycle none with
    | some c, some start => if isServing x.state then detect s p cycle start c else s
    | _, _ => s)

/-- Local lanes whose flit the datapath waits for: those of a step's operands whose next element has not arrived, the selector's, and
the sidecar's while scales that the next step or end needs have not (R128, R156). A feeder, a finished window and a stage without
an operator wait for none. -/
def starves (m : List Byte) (t : Tile) : Bool :=
  let q := Config.params m
  let redEnd := decide (t.step = redLen m q)
  if byteAt m 0 = 0 ∨ t.closing then false
  else if atEnd m q t then (endScales m (blockScales m && decide (t.block ≠ 0)) redEnd t).isNone
  else (stepScale m t).isNone ||
    (match fetchAll m q [] 0 t (sources m q t.winDone t.red t.step) with | (.wait, _) => true | _ => false)

/-- Does a T-class or verdict stage wait for data tokens or elements? A count or window token is none (DEDUCED, log entry 104). -/
def tokenStarves (op classes : Nat) (g : StageSt) : Bool :=
  if op = 0x70 then g.scores.length < classes
  else if op = 0x23 ∨ op = 0x30 then true
  else g.expect.isSome && !setComplete g

/-- Does the datapath of a tile of a running image wait for a data or sidecar flit? -/
def waitsData (s : State) (p : PartId) (k : Nat) (t : Tile) : Bool :=
  let m := (activeCtx t).micro
  if isTStage (byteAt m 0) then
    match (stageIndex s p k).bind (fun j => s.parts[p].fabric.stages[j]?) with
    | some g => !t.closing && tokenStarves (byteAt m 0) (imgVerdict (s.parts[p].active.getD {})).classes g
    | none => false
  else starves m t

/-- A tile's 16 ns sample (R156): busy, blocked, starved or idle. -/
def sampleTile (waits : Bool) (t : Tile) : Tile :=
  let c := activeCtx t
  if c.use ≠ .inUse then t
  else
    let wrap := fun n => (n + 1) % 2 ^ 48
    let k := t.counters
    let t1 := { t with stepped := false }
    if t.stepped then { t1 with counters := { k with busy := wrap k.busy } }
    else if !t.sendQ.isEmpty then { t1 with counters := { k with blocked := wrap k.blocked } }
    else if waits then { t1 with counters := { k with starved := wrap k.starved } }
    else t1

/-- STALL_SAMPLE (R156): every tile that runs an image samples its datapath state. -/
def execStallSample (s : State) : Host.Outcome State Fault Refusal :=
  let ts := s.tiles.map (fun c => (c.1, match runsHere s c.1 with
    | some p => sampleTile (waitsData s p c.1 c.2) c.2
    | none => c.2))
  whenUp s { s with tiles := ts.filter (fun c => decide (c.2 ≠ {})) }

/-- Has the oldest accepted window without a record waited, from its last sample, beyond the declared bound plus 10 ms, with no spill
episode open or one that has lasted more than 100 ms (R152, R154)? -/
def progressLost (s : State) (p : PartId) : Bool :=
  let x := s.parts[p]
  (match x.flow.windows with
   | w :: _ => (match w.tLast with
     | some t => decide (t + lateBound (imgContract (x.active.getD {})) + 10000000 < now s)
     | none => false)
   | [] => false) &&
  (match x.fabric.spillOpen with | some t => decide (t + 100000000 < now s) | none => true)

/-- PROGRESS_WATCHDOG (R154). -/
def execProgressWatchdog (p : PartId) (s : State) : Host.Outcome State Fault Refusal :=
  whenUp s (if isServing s.parts[p].state && progressLost s p then
    faultEntry s p .faultHeld cProgressLost s.parts[p].flow.windows.length else s)

end Sys2Proof.Machine
end

