-- ==== Sys2Proof/Machine/Sound.lean ====
section
/-! DEFINITION. Sound ports: frames and clocks (R344-R350), the ASRC (R351-R355), blocks and windows (R356-R362), start and stop
(R364), output slots (R359, R363, R367, R368). -/

namespace Sys2Proof.Machine

def allSnds : List SndId := [0, 1, 2, 3, 4, 5, 6, 7]

/-! ### Streams -/

/-- A sound port in use: its partition and settings. -/
def sndPort (s : State) (c : SndId) : Option (PartId × SndPortRec) :=
  match (s.snds[c]).owner, (s.snds[c]).cfg with
  | some p, some x => some (p, x)
  | _, _ => none

/-- Members of the stream of a port, ascending (R357). -/
def sndMembers (s : State) (p : PartId) (x : SndPortRec) : List (SndId × SndPortRec) :=
  allSnds.filterMap (fun c => match sndPort s c with
    | some (q, y) => if q = p && (if x.align = 255 then decide (y.port = x.port) else decide (y.align = x.align)) then some (c, y) else none
    | none => none)

/-- Piece whose gateway serves a sound port. -/
def sndPiece (i : Image) (port : Nat) : Nat := (((sndPorts i).find? (fun x => decide (x.2.port = port))).map (·.1)).getD 0

/-- The active image of a partition, empty when it runs none. -/
def activeImage (s : State) (p : PartId) : Image := (s.parts[p].active).getD {}

/-- Image-rate frames that a member holds: those in its buffer and those in blocks that still wait at the gateway (R366). -/
def framesHeld (s : State) (p : PartId) (low : Nat) (c : SndId) : Nat :=
  ((s.snds[c]).buffer.filter (·.isSome)).length + 16 * gatewayWaiting s p (sndPiece (activeImage s p) low) (16 + low)

/-- The measured rate in mHz that a port's ASRC tracks: that of its group's clock port, or its own (R351, R365). -/
def trackedRate (s : State) (p : PartId) (c : SndId) (x : SndPortRec) : Nat :=
  let clock := match (if x.align = 255 then none else alignOf (activeImage s p) true x.align) with
    | some a => if a.clock = 255 then c else Fin.ofNat 8 a.clock
    | none => c
  let r := (s.snds[clock]).rate
  if r = 0 then 1000 * x.frameRate else r

/-! ### The frame on the wires (R344-R348) -/

/-- BCLK periods of a frame. -/
def framePeriods (x : SndPortRec) : Nat := x.slots * x.slotWidth

/-- Slot and bit number, MSB first, that BCLK period `n` of a frame carries. -/
def periodSlot (x : SndPortRec) (n : Nat) : Nat × Nat :=
  let m := (n + framePeriods x - x.offset) % framePeriods x
  (m / x.slotWidth, x.slotWidth - 1 - m % x.slotWidth)

/-- Periods for which a master drives FSYNC active (R345). -/
def fsyncPeriods (x : SndPortRec) : Nat :=
  match x.fsyncForm with
  | 0 => 1
  | 1 => x.slotWidth
  | _ => framePeriods x / 2

/-- MCLK: the largest of three multiples of the frame rate up to 49.152 MHz (R347). -/
def mclkHz (x : SndPortRec) : Nat :=
  (([512, 256, 128].map (fun k => k * x.frameRate)).find? (fun f => decide (f ≤ 49152000))).getD 0

/-- What a port drives on its wires at period `n` of a frame; none is high impedance. -/
structure SndWires where
  bclkHz : Option Nat := none
  fsync : Option Bool := none
  dout : Option Bool := none
  mclkHz : Option Nat := none
deriving DecidableEq, Repr

/-- Wires of a port (R344-R348): the first OFFSET periods of a frame carry the end of the frame before. -/
def sndWires (y : Snd) (n : Nat) : SndWires :=
  match y.cfg with
  | none => {}
  | some x =>
    if y.phase = .idle then {}
    else
      let at_ := periodSlot x n
      let codes := if n < x.offset then y.doutBefore else y.dout
      { bclkHz := if x.master then some (x.frameRate * framePeriods x) else none
        fsync := if x.master then some (xor (decide (n < fsyncPeriods x)) x.fsyncLow) else none
        dout := some (bitOf (((codes.find? (fun z => z.1 = at_.1)).map (·.2)).getD 0) at_.2)
        mclkHz := if x.mclk then some (mclkHz x) else none }

/-- A frame of the port passes: its output slots carry the output ASRC's results at SLOT_WIDTH, free values (R352, R353), or zero. -/
def outFrame (free : Nat) (x : SndPortRec) (y : Snd) : Snd :=
  { y with doutBefore := y.dout,
           dout := if y.phase = .running && y.clockOk then
               y.playing.map (fun z => (z.1, (Config.asrcOutput (free + z.1) z.2).toNat % 2 ^ x.slotWidth))
             else [] }

/-! ### Windows (R360, R361) -/

/-- Streams of a partition: members of each, by lowest port. -/
def partStreams (s : State) (p : PartId) : List (List (SndId × SndPortRec)) :=
  (allSnds.filterMap (fun c => match sndPort s c with
    | some (q, x) => if q = p then some (sndMembers s p x) else none
    | none => none)).eraseDups

/-- Members that hold more than 3,072 frames. -/
def overfull (s : State) (p : PartId) : List SndId :=
  (partStreams s p).flatMap (fun ms => (ms.filter (fun m => decide (3072 < framesHeld s p (lowest (ms.map (fun k => k.1.val))) m.1))).map (·.1))

/-- The window that starts at frame `base` is accepted or counted, once for all the partition's streams (R360, R361, R366). -/
def openSoundWindow (s : State) (p : PartId) (base : Nat) : State :=
  if (match s.parts[p].flow.sndLast with | some b => decide (base ≤ b) | none => false) then s
  else
    let crowded := overfull s p
    let s1 := updFlow s p (fun f => { f with sndLast := some base })
    if s.parts[p].flow.inputOpen && crowded.isEmpty then acceptWindows s1 p [{ index := base, sound := true }]
    else
      let s2 := notAccepted s1 p 1 base base true
      if s.parts[p].flow.inputOpen then crowded.foldl (fun s c => updSnd s c (fun y => { y with notAccepted := satInc y.notAccepted })) s2 else s2

/-- Frame `k` leaves the ASRC of a sound partition: it may be the first of a window (R360). A companion stream opens none (R361). -/
def firstFrame (s : State) (p : PartId) (k : Nat) : State :=
  match s.parts[p].active with
  | none => s
  | some i =>
    let win := imgWin i (s.parts[p].placement.getD {})
    if (imgPorts i).isEmpty ∧ win ≠ 0 ∧ k % win = 0 then openSoundWindow s p k else s

/-! ### SOUND_FRAME -/

/-- Selected input slots, ascending (R357). -/
def maskSlots (mask : Nat) : List Nat := (List.range 32).filter (fun k => bitOf mask k)

/-- One image-rate frame of a port's channels; its codes are free values (R353). -/
def asrcFrame (free : Nat) (x : SndPortRec) (slots : List Int) : List (BitVec 24) :=
  let ks := maskSlots x.inMask
  (List.range ks.length).map (fun j => Config.asrcSample (free + j) (slots.getD (ks.getD j 0) 0))

/-- `n` image-rate frames join the buffer; none is an absent one. A frame that finds the buffer of 4,096 full is dropped (R366). -/
def pushFrames (s : State) (p : PartId) (c : SndId) (x : SndPortRec) (absent : Bool) (slots : List Int) : Nat → State
  | 0 => s
  | n + 1 =>
    let s1 := pushFrames s p c x absent slots n
    let low := lowest ((sndMembers s1 p x).map (fun m => m.1.val))
    let held := framesHeld s1 p low c
    let f : Option (List (BitVec 24)) := if absent || decide (4096 ≤ held) then none else some (asrcFrame s1.freeCount x slots)
    let s2 := updSnd s1 c (fun y => { y with buffer := y.buffer ++ [f], bufHigh := max y.bufHigh (held + boolNat f.isSome) })
    let k := (s1.snds[c]).frame + (s1.snds[c]).buffer.length
    firstFrame { s2 with freeCount := s1.freeCount + (maskSlots x.inMask).length } p k

/-- A silent frame has passed; the last one ends the silent start once the ASRCs have locked (R350, R364). -/
def silentFrame (y : Snd) : Snd :=
  let left := y.silentLeft - 1
  { y with silentLeft := left,
           phase := if left = 0 && y.asrcLocked then
               (match y.phase with | .silent => .waitT0 | .relock => .running | q => q)
             else y.phase }

/-- Counts of a frame's defects (R349). -/
def countSync (sync : FrameSync) (y : Snd) : Snd :=
  match sync with
  | .missed => { y with fsyncMiss := satInc y.fsyncMiss }
  | .frameError => { y with frameErr := satInc y.frameErr }
  | _ => y

/-- A clock loss or a rate error: DOUT stops, input is absent (R350). -/
def loseClock (y : Snd) : Snd :=
  { y with clockOk := false, asrcLocked := false, underrun := true, playing := [], dout := [], doutBefore := [],
           phase := match y.phase with | .waitT0 => .silent | q => q }

/-- Has the port been started and not yet stopped? -/
def started (y : Snd) : Bool :=
  y.phase = .silent || y.phase = .waitT0 || y.phase = .running || y.phase = .relock

/-- Is T0 set and are frames delivered? -/
def delivers (y : Snd) : Bool := y.phase = .running || y.phase = .relock

/-- A frame with a valid clock. -/
def goodFrame (s : State) (p : PartId) (c : SndId) (x : SndPortRec) (slots : List Int) (sync : FrameSync) (milliHz : Nat) : State :=
  let s0 := updSnd s c (fun y => countSync sync { y with clockOk := true, rate := if x.master then 1000 * x.frameRate else milliHz })
  let s1 := { updSnd s0 c (outFrame s.freeCount x) with freeCount := s.freeCount + 32 }
  match (s1.snds[c]).phase with
  | .silent | .stopping => updSnd s1 c silentFrame
  | .running | .relock =>
    let y := s1.snds[c]
    let acc := y.phaseAcc + 1000 * imageRateHz x.imageRate
    let r := trackedRate s1 p c x
    let absent : Bool := decide (y.phase = .relock) || y.mismatch || decide (sync = .frameError)
    let s2 := pushFrames (updSnd s1 c (fun y => { y with phaseAcc := acc % r })) p c x absent slots (acc / r)
    if y.phase = .relock then updSnd s2 c silentFrame else s2
  | _ => s1

/-- SOUND_FRAME. A master cannot lose its clock; a slave in a clock episode takes nothing until the clock is back. -/
def execSoundFrame (c : SndId) (slots : List Int) (sync : FrameSync) (milliHz : Nat) (s : State) : Host.Outcome State Fault Refusal :=
  let y := s.snds[c]
  whenUp s (match y.cfg with
    | none => s
    | some x =>
      if y.phase = .idle || y.clockLost || y.rateError then s
      else if x.master then goodFrame s ((y.owner).getD 0) c x slots .good milliHz
      else if sync = .rateError && started y then
        logPlain (updSnd s c (fun y => { loseClock y with rateError := true, rate := milliHz })) 0x0502 c.val
      else goodFrame s ((y.owner).getD 0) c x slots sync milliHz)

/-! ### Clocks (R349, R350, R365) -/

/-- CLOCK_LOST: logged once per episode; a master has none. -/
def execClockLost (c : SndId) (s : State) : Host.Outcome State Fault Refusal :=
  let y := s.snds[c]
  whenUp s (match y.cfg with
    | none => s
    | some x =>
      if x.master || y.clockLost || !started y then s
      else logPlain (updSnd s c (fun y => { loseClock y with clockLost := true, rate := 0 })) 0x0501 c.val)

/-- The image-rate frame of an instant (R356). -/
def frameAt (y : Snd) (x : SndPortRec) (t : Nat) : Nat := (t - y.t0) * imageRateHz x.imageRate / 1000000000

/-- The clock is back: SILENT frames run while the ASRC locks again, and the index has run on (R350). -/
def returnClock (x : SndPortRec) (t : Nat) (y : Snd) : Snd :=
  let y1 := { y with clockOk := true, clockLost := false, rateError := false, silentLeft := x.silent }
  if y.phase = .running ∨ y.phase = .relock then
    { y1 with phase := .relock, buffer := y.buffer ++ List.replicate (frameAt y x t - (y.frame + y.buffer.length)) none }
  else y1

/-- CLOCK_RETURN. -/
def execClockReturn (c : SndId) (s : State) : Host.Outcome State Fault Refusal :=
  let y := s.snds[c]
  whenUp s (match y.cfg with
    | none => s
    | some x => if (y.clockLost || y.rateError) && started y then updSnd s c (returnClock x (now s)) else s)

/-- CLOCK_MISMATCH: a member whose rate differs from its clock port's, or agrees again. -/
def execClockMismatch (c : SndId) (mismatch : Bool) (s : State) : Host.Outcome State Fault Refusal :=
  let y := s.snds[c]
  whenUp s (if y.cfg.isNone || decide (y.mismatch = mismatch) then s
  else
    let s1 := updSnd s c (fun y => { y with mismatch := mismatch })
    if mismatch then logPlain s1 0x0503 c.val else s1)

/-- ASRC_LOCK: ends a silent start or a relock whose SILENT frames have run. -/
def execAsrcLock (c : SndId) (s : State) : Host.Outcome State Fault Refusal :=
  let y := s.snds[c]
  whenUp s (if y.clockOk && started y then
    updSnd s c (fun y => { y with asrcLocked := true,
                                  phase := if y.silentLeft = 0 then
                                      (match y.phase with | .silent => .waitT0 | .relock => .running | q => q)
                                    else y.phase })
  else s)

/-! ### Start and stop (R364) -/

/-- First multiple of 4,096 ns after an instant. -/
def nextT0 (t : Nat) : Nat := (t / 4096 + 1) * 4096

/-- T0 is set and delivery begins from frame 0. -/
def startAt (t0 : Nat) (y : Snd) : Snd :=
  { y with phase := .running, t0 := t0, frame := 0, phaseAcc := 0, buffer := [], playFrame := 0, outSamples := [] }

/-- SOUND_START_T0: every port of the partition that has ended step 2, those with the common start flag only together. -/
def execSoundStartT0 (p : PartId) (s : State) : Host.Outcome State Fault Refusal :=
  let flagged := fun (y : Snd) => match y.cfg with | some x => x.commonStart | none => false
  let waits := s.snds.toList.any (fun y => decide (y.owner = some p) && decide (y.phase = .silent) && flagged y)
  whenUp s (updSnds s (fun y =>
    if y.owner = some p && decide (y.phase = .waitT0) && !(waits && flagged y) then startAt (nextT0 (now s)) y else y))

/-- SOUND_STOP: clocks stop and the port goes to high impedance (R348). -/
def execSoundStop (c : SndId) (s : State) : Host.Outcome State Fault Refusal :=
  whenUp s (updSnd s c (fun y => if y.phase = .stopping then
    { y with phase := .idle, cfg := none, driving := false, clockOk := false, asrcLocked := false, clockLost := false, rateError := false,
             mismatch := false, rate := 0, silentLeft := 0, playing := [], dout := [], doutBefore := [] }
  else y))

/-! ### SOUND_BLOCK_DELIVERED (R358-R362, R366, R369) -/

/-- The 16 frames a member gives a block: what its buffer lacks is absent. -/
def blockFrames (y : Snd) : List (Option (List (BitVec 24))) := (List.range 16).map (fun k => (y.buffer[k]?).getD none)

/-- Frames of the block that the stream inserts: those absent in any member. -/
def insertedMask (s : State) (ms : List (SndId × SndPortRec)) : List Bool :=
  (List.range 16).map (fun k => ms.any (fun m => (((s.snds[m.1]).buffer[k]?).getD none).isNone))

/-- Three elements of a sample, most significant first (R357). -/
def sampleElems (v : BitVec 24) : List Nat := [v.toNat / 65536, v.toNat / 256 % 256, v.toNat % 256]

/-- Elements of a block, frame by frame, members in ascending PORT order. -/
def blockElems (s : State) (ms : List (SndId × SndPortRec)) (mask : List Bool) : List Nat :=
  (List.range 16).flatMap (fun k => ms.flatMap (fun m =>
    let n := (maskSlots m.2.inMask).length
    match (if mask.getD k true then none else ((s.snds[m.1]).buffer[k]?).getD none) with
    | some xs => xs.flatMap sampleElems
    | none => List.replicate (3 * n) 0))

/-- The flits of a block (R358). -/
def blockFlits (s : State) (ms : List (SndId × SndPortRec)) (lane base low : Nat) (mark : Bool) (mask : List Bool) : List GateFlit :=
  let es := blockElems s ms mask
  let bits := ((List.range 16).map (fun k => boolNat (mask.getD k true) * 2 ^ k)).sum
  let head := mkFlit lane (mark && es.isEmpty) (base % 65536 + 65536 * bits)
  (head :: segFlits lane 8 mark es.length es).map (fun f => { out := 0, flit := f, src := some (16 + low, base) })

/-- The frames of a block leave a member's buffer and its inserted ones are counted (R362). -/
def takeBlock (mask : List Bool) (y : Snd) : Snd :=
  let own := (blockFrames y).map (·.isNone)
  let n := (own.filter (fun b => b)).length
  let all := (mask.filter (fun b => b)).length
  { y with buffer := y.buffer.drop 16, frame := y.frame + 16, insOwn := sat32 (y.insOwn + n), insForced := sat32 (y.insForced + (all - n)) }

/-- Is a sound window open over a block? -/
def blockCovered (win base : Nat) (w : Window) : Bool :=
  w.sound && w.tLast.isNone && decide (w.index ≤ base) && decide (base < w.index + win)

/-- The block's effect on its window: INCOMPLETE after an inserted frame, and its last sample once every stream has delivered the
window's last block. -/
def closeSoundWindow (s : State) (p : PartId) (win base : Nat) (inserted : Bool) : State :=
  let done := (partStreams s p).all (fun ms => match ms with
    | m :: _ => decide (base + 16 ≤ (s.snds[m.1]).frame)
    | [] => true)
  mapWindows s p (fun w => if blockCovered win base w then
    { w with incomplete := w.incomplete || inserted,
             tLast := if base + 16 = w.index + win && done then some (now s) else none } else w)

/-- A block of a stream leaves its buffers. Companion streams deliver while input is open; the streams of a sound partition deliver
the blocks of accepted windows. -/
def deliverBlock (s : State) (p : PartId) (i : Image) (ms : List (SndId × SndPortRec)) : State :=
  match ms with
  | [] => s
  | m :: _ =>
    let base := (s.snds[m.1]).frame
    let low := m.1.val
    let piece := sndPiece i low
    let lane := sndLane i piece low
    let mask := insertedMask s ms
    let take := fun (s : State) => ms.foldl (fun s k => updSnd s k.1 (takeBlock mask)) s
    if !(imgPorts i).isEmpty then
      let fs := blockFlits s ms lane base low false mask
      if s.parts[p].flow.inputOpen then enterGateway (take s) p piece fs else take s
    else
      let win := imgWin i (s.parts[p].placement.getD {})
      -- a window whose first frame never left the ASRC, the clock being lost, opens here
      let s1 := if base % win = 0 then openSoundWindow s p base else s
      match s1.parts[p].flow.windows.find? (blockCovered win base) with
      | none => take s1
      | some w =>
        let fs := blockFlits s1 ms lane base low (decide (base + 16 = w.index + win)) mask
        enterGateway (sendDescriptors (closeSoundWindow (take s1) p win base (mask.any (fun b => b))) p) p piece fs

/-- SOUND_BLOCK_DELIVERED: the 16th frame of a block has left the input ASRC of a stream. -/
def execSoundBlockDelivered (c : SndId) (s : State) : Host.Outcome State Fault Refusal :=
  whenUp s (match sndPort s c with
    | some (p, x) =>
      let y := s.snds[c]
      match s.parts[p].active with
      | some i => if (y.phase = .running ∨ y.phase = .relock) ∧ x.inMask ≠ 0 then deliverBlock s p i (sndMembers s p x) else s
      | none => s
    | none => s)

/-! ### OUTPUT_PLAY_CHECK (R367, R368) -/

/-- Sample of a stimulus slot at a frame, as a 24-bit code with the 16 bits uppermost (DEDUCED, log entry 37). -/
def stimulusAt (y : Snd) (slot frame : Nat) : Option (BitVec 24) :=
  let loop := (y.stimulus.filter (fun x => x.1 = slot)).flatMap (·.2)
  if loop.isEmpty then none else some ((loop.getD (frame % loop.length) 0).setWidth 24 <<< 8)

/-- What every output slot plays at a frame: the loop sample, the fabric-slot sample, or zero. -/
def playedAt (i : Image) (x : SndPortRec) (y : Snd) (frame : Nat) : List (Nat × BitVec 24) :=
  let fab := fabricSlots i x
  let samples := ((y.outSamples.find? (fun z => z.1 = frame)).map (·.2)).getD []
  (maskSlots x.outMask).map (fun k =>
    (k, match stimulusAt y k frame with
        | some v => v
        | none => match indexOf (fun j => j = k) fab with | some n => samples.getD n 0 | none => 0))

/-- The gain ½(1 + cos(π n / d)) of R368 for n ≤ d, in units of 2^-64. -/
def fadeGain (n d : Nat) : Int :=
  let one : Int := 2 ^ 64
  let far := d < 2 * n
  let y : Int := 57952155664616982739 * ((if far then d - n else n : Nat) : Int) / (d : Int)
  let sq := y * y / one
  let terms := (List.range 20).foldl (fun (a : Int × Int) (k : Nat) =>
    (a.1 + a.2, -(a.2 * sq / (one * (2 * (k : Int) + 1) * (2 * (k : Int) + 2))))) (0, one)
  (if far then one - terms.1 else one + terms.1) / 2

/-- A sample under a gain: the product's neighbour below or above, since R368 states no rounding (log entry 5). -/
def gained (g : Int) (up : Bool) (v : BitVec 24) : BitVec 24 :=
  let p := v.toInt * g
  BitVec.ofInt 24 (if up && p % 2 ^ 64 ≠ 0 then p / 2 ^ 64 + 1 else p / 2 ^ 64)

/-- Samples of a frame pass through a gain. -/
def gainFrame (free : Nat) (g : Nat → Option Int) (z : Nat × List (BitVec 24)) : Nat × List (BitVec 24) :=
  match g z.1 with
  | some w => (z.1, z.2.zipIdx.map (fun v => gained w (Config.gainUp free z.1 v.2) v.1))
  | none => z

/-- Samples of some frames pass through their gains. -/
def gainFrames (free : Nat) (g : Nat → Option Int) (y : Snd) : Snd :=
  { y with outSamples := y.outSamples.map (gainFrame free g) }

/-- The check of frame k when its sample is present: it ends an underrun with a ramp. -/
def checkPresent (ramp ch free k : Nat) (y : Snd) : Snd :=
  let y1 := if y.underrun then { y with underrun := false, rampLeft := ramp } else y
  if 0 < y1.rampLeft then
    let j := ramp - y1.rampLeft
    gainFrames free (fun f => if f = k then some (2 ^ 64 - fadeGain (j + 1) (ramp + 1)) else none)
      { y1 with rampLeft := y1.rampLeft - 1, unbounded := sat32 (y1.unbounded + ch) }
  else { y1 with cleanRun := min ramp (y1.cleanRun + 1) }

/-- The check of frame k when its sample is missing: an underrun begins or goes on. The frames faded before it are counted, those
ramped or zero already have been. -/
def checkMissing (ramp ch free k : Nat) (y : Snd) : Snd :=
  let y1 := if y.underrun then y
    else gainFrames free (fun f => if k ≤ f + ramp && f < k then some (fadeGain (f + ramp - k + 1) (ramp + 1)) else none)
      { y with underrun := true, underruns := satInc y.underruns, unbounded := sat32 (y.unbounded + ch * y.cleanRun), cleanRun := 0, rampLeft := 0 }
  { y1 with unbounded := sat32 (y1.unbounded + ch) }

/-- Frame k has been checked and frame k - RAMP is played. -/
def advancePlay (i : Image) (x : SndPortRec) (k : Nat) (y : Snd) : Snd :=
  let y1 := { y with playFrame := k + 1, playing := if k < x.ramp then [] else playedAt i x y (k - x.ramp) }
  { y1 with outSamples := y1.outSamples.filter (fun z => decide (k < z.1 + x.ramp)) }

/-- A frame that the port cannot play passes; the samples that the fabric and the stimulus supply for it are dropped (R350, R363). -/
def skipPlay (x : SndPortRec) (ch k : Nat) (y : Snd) : Snd :=
  { y with playFrame := k + 1, playing := [], underrun := true, cleanRun := 0, rampLeft := 0,
           outDrop := sat32 (y.outDrop + ch * (y.outSamples.filter (fun z => decide (z.1 ≤ k))).length
             + ((maskSlots x.outMask).filter (fun n => (stimulusAt y n k).isSome)).length),
           outSamples := y.outSamples.filter (fun z => decide (k < z.1)) }

/-- OUTPUT_PLAY_CHECK. -/
def execOutputPlayCheck (c : SndId) (s : State) : Host.Outcome State Fault Refusal :=
  whenUp s (match sndPort s c with
    | some (p, x) =>
      let i := activeImage s p
      let y := s.snds[c]
      let k := y.playFrame
      let ch := (fabricSlots i x).length
      if y.phase = .relock || (decide (y.phase = .running) && !y.clockOk) then updSnd s c (skipPlay x ch k)
      else if y.phase = .running then
        let present := y.outSamples.any (fun z => z.1 = k)
        let check : Snd → Snd := if ch = 0 then id else if present then checkPresent x.ramp ch s.freeCount k else checkMissing x.ramp ch s.freeCount k
        { updSnd s c (fun y => advancePlay i x k (check y)) with freeCount := s.freeCount + 1 }
      else s
    | none => s)

end Sys2Proof.Machine
end

