-- ==== Sys2Proof/Machine/Span.lean ====
section
/-! DEFINITION. The commands of the span links (R403-R423). -/

namespace Sys2Proof.Machine

def spanIdx : SpanPort → Nat
  | .spa => 0
  | .spb => 1

def otherSpan : SpanPort → SpanPort
  | .spa => .spb
  | .spb => .spa

def usesSpan (x : SpanRec) : SpanPort → Bool
  | .spa => x.spa
  | .spb => x.spb

/-- The partition that claims a port, with the span record of the piece it runs there. -/
def runningPiece (s : State) (q : SpanPort) : Option (PartId × SpanRec) :=
  (getSpn s q).owner.bind (fun p => ((s.parts[p].active).bind imgSpan).bind (fun x => if usesSpan x q then some (p, x) else none))

/-- The partition that claims a port, with the span record of the piece that waits there in SPAN_WAIT. -/
def waitingPiece (s : State) (q : SpanPort) : Option (PartId × SpanRec) :=
  (getSpn s q).owner.bind (fun p => if s.parts[p].state = .spanWait then
    ((s.parts[p].load).bind (fun l => imgSpan l.image)).map (fun x => (p, x)) else none)

/-- A change of a link; a descriptor that it lets SPB frame leaves its place on SPA (R415, R417). -/
def linkStep (s : State) (q : SpanPort) (f : Spn → Spn) : State :=
  let s1 := updSpn s q f
  let n := s.spb.txDesc.length - s1.spb.txDesc.length
  if s.spb.owner.isSome ∧ s.spa.owner = s.spb.owner then { s1 with spa := { s1.spa with ddrained := s1.spa.ddrained + n } } else s1

/-! ### Links (R409, R421-R423) -/

/-- A link that is new or lost numbers its frames afresh; the receiving side's peer is not yet recorded (log entry 38). -/
def clearLink (x : Spn) : Spn :=
  { x with helloAt := none, rxNext := 0, nak := false, txNext := 0, unacked := [], resends := 0, replay := false, sendQ := [] }

/-- SPAN_LINK_UP. -/
def execSpanLinkUp (q : SpanPort) (s : State) : Host.Outcome State Fault Refusal :=
  whenUp s (if (getSpn s q).linkUp then s
    else sendMsg (updSpn s q (fun x => { clearLink x with module_ := true, linkUp := true })) q (msgHello s.glb.serial))

/-- A link is lost during the drain of R420: the drain ends at once; a unit that did not begin it unloads to EMPTY (R423). -/
def lossInDrain (s : State) (p : PartId) (why : DrainWhy) : State :=
  let s1 := enterRec (logPart s p cSpanLinkLost 0) p (faultRec s p .draining cSpanLinkLost 0 false)
  let s2 := updFlow s1 p (fun f => { f with windows := [], tokens := [] })
  let s3 := (spanPortsOf s2 p).foldl (fun s q => updSpn s q (fun y => { y with txDesc := [], txFlits := Vector.replicate 4 [] })) s2
  match why with
  | .peerLeft =>
    let s4 := setCause s3 p (causeOf cSpanLinkLost)
    endImage (releasePorts (releasePins (pinsAfterDrain s4 p) p) p) p .toEmpty
  | _ => finishActivation (endDrain s3 p why)

/-- What a lost link does to the piece that uses it (R419, R421, R423). -/
def lossOfPiece (s : State) (q : SpanPort) : State :=
  match runningPiece s q with
  | none => s
  | some (p, x) =>
    match s.parts[p].state, s.parts[p].flow.drain with
    | .running, _ => faultEntry (sendAll s p (fun r => decide (r ≠ q)) (msgAbort 1 x.id)) p .faultSpan cSpanLost 0
    | .draining, some why => if s.parts[p].flow.drained then s else lossInDrain s p why
    | _, _ => s

/-- A link that is up is lost. -/
def loseLink (s : State) (q : SpanPort) (serial : Bool) : State :=
  if !(getSpn s q).linkUp then s
  else
    let s1 := updSpn s q (fun x => { clearLink x with linkUp := false, lostEv := true, serialEv := x.serialEv || serial })
    lossOfPiece (logIrq s1 0x0601 (spanIdx q) 0 0 false 20) q

/-- SPAN_LOST. -/
def execSpanLost (q : SpanPort) (why : LinkLossReason) (s : State) : Host.Outcome State Fault Refusal :=
  whenUp s (loseLink s q (decide (why = .serialChanged)))

/-! ### Frames (R410, R411, R413-R417) -/

/-- A sequenced frame that is not the next one, or fails a check, is discarded and NAK is set (R414). -/
def discardFrame (s : State) (q : SpanPort) (frame : List Byte) (fecOk : Bool) : State :=
  updSpn s q (fun x => { countFrame x frame fecOk with nak := true })

/-- A sequenced frame is accepted: the next is expected, and its ACK, NAK and credits act (R410, R414, R415). -/
def acceptFrame (s : State) (q : SpanPort) (frame : List Byte) : State :=
  linkStep s q (fun x => takeLink { x with rxNext := (x.rxNext + 1) % 65536, nak := false } frame)

/-- Flits of inbound span channels leave the gateway of piece 0: channel c on output c, lane c (R407, R408). -/
def channelFlits (fs : List Flit) : List GateFlit :=
  (fs.filter (fun f => decide (flitLane f ≤ 3))).map (fun f => { out := flitLane f, flit := f, src := some (32 + flitLane f, 0) })

/-- SPAN_DATA_FRAME. Channels run downstream only, so flits come in on SPA (R407). -/
def execSpanDataFrame (q : SpanPort) (frame : List Byte) (fecOk : Bool) (s : State) : Host.Outcome State Fault Refusal :=
  whenUp s (if !(getSpn s q).linkUp then s
    else if frameAccepted (getSpn s q) frame fecOk then
      let s1 := acceptFrame s q frame
      match q, runningPiece s q with
      | .spa, some (p, _) => enterGateway s1 p 0 (channelFlits (slotFlits (frame.drop 8)))
      | _, _ => s1
    else discardFrame s q frame fecOk)

/-- SPAN_IDLE_FRAME. -/
def execSpanIdleFrame (q : SpanPort) (frame : List Byte) (s : State) : Host.Outcome State Fault Refusal :=
  whenUp s (if !(getSpn s q).linkUp then s
    else if frameCrcOk frame then linkStep s q (fun x => takeLink x frame)
    else updSpn s q (fun x => countFrame x frame true))

/-- The offset of the peer's timebase over this unit's, with its rate (R418): the latest two estimates, extended to now (log entry
39). -/
def offsetNow (x : Spn) (t : Nat) : Int :=
  match x.offsets with
  | [] => 0
  | [a] => a.1
  | a :: b :: _ => if b.2 < a.2 then a.1 + (a.1 - b.1) * ((t : Int) - a.2) / ((a.2 : Int) - b.2) else a.1

/-- The three descriptors of a frame's payload that are valid, T_LAST on this unit's timebase (R413, R417, R418). -/
def frameDescs (s : State) (q : SpanPort) (payload : List Byte) : List Window :=
  ([0, 16, 32].map (fun k => (payload.drop k).take 16)).filterMap (fun b =>
    if bitOf (byteAt b 6) 7 then
      let w := descWindow b
      some { w with tLast := some ((w.tLast.getD 0 : Int) - offsetNow (getSpn s q) (now s)).toNat }
    else none)

/-- Descriptors reach a piece: it forwards them, or at the last position pairs them with verdict tokens in order (R417). A window's
tunables are those in force as its descriptor arrives (log entry 35). -/
def takeDescs (s : State) (p : PartId) (x : SpanRec) (ws : List Window) : State :=
  if x.spb then
    linkStep (updSpn s .spb (fun y => { y with txDesc := y.txDesc ++ ws.map (fun w => descBytes w (w.tLast.getD 0)) })) .spb runSpan
  else updPart s p (fun y => { y with flow := { y.flow with
    windows := y.flow.windows ++ ws.map (fun w => { w with gen := y.tun.gen }), entered := y.flow.entered + ws.length } })

/-- SPAN_DESCRIPTOR_FRAME. -/
def execSpanDescriptorFrame (q : SpanPort) (frame : List Byte) (fecOk : Bool) (s : State) : Host.Outcome State Fault Refusal :=
  whenUp s (if !(getSpn s q).linkUp then s
    else if frameAccepted (getSpn s q) frame fecOk then
      let s1 := acceptFrame s q frame
      match q, runningPiece s q with
      | .spa, some (p, x) => takeDescs s1 p x (frameDescs s q (frame.drop 8))
      | _, _ => s1
    else discardFrame s q frame fecOk)

/-! ### Messages (R412, R417-R423) -/

/-- A control message has come in a control frame of its own, accepted in order (log entry 40). -/
def tookMsg (s : State) (q : SpanPort) : State :=
  updSpn s q (fun x => { x with rxNext := (x.rxNext + 1) % 65536, nak := false })

/-- A message acts only on a link that is up. -/
def onLink (s : State) (q : SpanPort) (f : State → State) : Host.Outcome State Fault Refusal :=
  whenUp s (if (getSpn s q).linkUp then f (tookMsg s q) else s)

/-- HELLO: the first on a link records the peer's serial; another serial later loses the link (R412, R421). -/
def execHello (q : SpanPort) (serial : BitVec 64) (s : State) : Host.Outcome State Fault Refusal :=
  onLink s q (fun s =>
    if (getSpn s q).helloAt.isSome && decide ((getSpn s q).peer ≠ some serial) then loseLink s q true
    else updSpn s q (fun x => { x with helloAt := some (now s), peer := some serial }))

/-- Does a READY match the receiving piece (R419)? -/
def readyMatches (x : SpanRec) (q : SpanPort) (position units : Nat) (id : BitVec 64) : Bool :=
  decide (id = x.id) && decide (units = x.units) &&
  (match q with
   | .spa => decide (position + 1 = x.position)
   | .spb => decide (position = x.position + 1))

/-- Does a matching READY set DREADY (R419 steps 2 and 3)? -/
def setsDready (x : SpanRec) (q : SpanPort) (dready : Bool) : Bool :=
  match q with
  | .spa => decide (0 < x.position) && dready
  | .spb => decide (x.position = 0)

/-- DREADY is set; the unit at the last position then releases (R419 steps 2-4). -/
def setDready (s : State) (p : PartId) (x : SpanRec) : State :=
  let last : Bool := x.position + 1 = x.units
  let s1 := updPart s p (fun y => { y with span := { dready := true, due := y.span.due || last } })
  advanceLoad ((spanPortsOf s1 p).foldl (fun s q => updSpn s q (fun y => { y with span := 2 })) s1) p

/-- READY. -/
def execReady (q : SpanPort) (position units : Nat) (dready : Bool) (spanId : BitVec 64) (s : State) :
    Host.Outcome State Fault Refusal :=
  onLink s q (fun s => match waitingPiece s q with
    | some (p, x) =>
      if readyMatches x q position units spanId && setsDready x q dready && !s.parts[p].span.dready then setDready s p x else s
    | none => s)

/-- Credits of a sender at GO (R415). -/
def goCredits (x : Spn) : Spn := { x with credits := Vector.replicate 4 2048, dcredits := 4096 }

/-- GO: SPB's credits are set and the release follows; GO goes on upstream once it is done (R419 step 5). -/
def execGo (q : SpanPort) (spanId : BitVec 64) (s : State) : Host.Outcome State Fault Refusal :=
  onLink s q (fun s => match q, waitingPiece s q with
    | .spb, some (p, x) =>
      if decide (spanId = x.id) && !s.parts[p].span.due then
        advanceLoad (updPart (updSpn s .spb goCredits) p (fun y => { y with span := { y.span with due := true } })) p
      else s
    | _, _ => s)

/-- ABORT: a RUNNING piece forwards it and enters FAULT_SPAN (R422). -/
def execAbort (q : SpanPort) (cause : Nat) (spanId : BitVec 64) (s : State) : Host.Outcome State Fault Refusal :=
  onLink s q (fun s => match runningPiece s q with
    | some (p, x) =>
      if spanId = x.id ∧ s.parts[p].state = .running then
        faultEntry (sendAll s p (fun r => decide (r ≠ q)) (msgAbort cause x.id)) p .faultSpan cSpanAbort 0
      else s
    | none => s)

/-- LEAVE: a RUNNING piece forwards it and drains (R420). -/
def execLeave (q : SpanPort) (spanId : BitVec 64) (s : State) : Host.Outcome State Fault Refusal :=
  onLink s q (fun s => match runningPiece s q with
    | some (p, x) =>
      if spanId = x.id ∧ s.parts[p].state = .running then
        beginDrain (sendAll s p (fun r => decide (r ≠ q)) (msgLeave x.id)) p .peerLeft
      else s
    | none => s)

/-- TIME: this unit's D_A, and the offset from the peer's D_B (R418). -/
def takeTime (t : Nat) (dLast : Int) (tTx : Nat) (x : Spn) : Spn :=
  let dA : Int := (t : Int) - tTx
  { x with dLocal := dA, offsets := (((dLast - dA) / 2, t) :: x.offsets).take 2 }

/-- TIME. -/
def execTime (q : SpanPort) (dLast : Int) (tTx : Nat) (s : State) : Host.Outcome State Fault Refusal :=
  onLink s q (fun s => updSpn s q (takeTime (now s) dLast tTx))

/-- SPAN_HELLO_PERIOD. -/
def execSpanHelloPeriod (q : SpanPort) (s : State) : Host.Outcome State Fault Refusal :=
  whenUp s (if (getSpn s q).linkUp then sendMsg s q (msgHello s.glb.serial) else s)

/-- SPAN_TIME_PERIOD. -/
def execSpanTimePeriod (q : SpanPort) (s : State) : Host.Outcome State Fault Refusal :=
  whenUp s (if (getSpn s q).linkUp then sendMsg s q (msgTime (getSpn s q).dLocal (now s)) else s)

/-- SPAN_READY_PERIOD: READY on each used port of a piece in SPAN_WAIT. -/
def execSpanReadyPeriod (p : PartId) (s : State) : Host.Outcome State Fault Refusal :=
  let x := s.parts[p]
  whenUp s (match (if x.state = .spanWait then (x.load).bind (fun l => imgSpan l.image) else none) with
    | some y => sendAll s p (fun _ => true) (msgReady y.position y.units x.span.dready y.id)
    | none => s)

end Sys2Proof.Machine
end

