-- ==== Sys2Proof/Machine/Supervisor.lean ====
section
/-! DEFINITION. The supervisor: power-up (R289, R440), firmware slots, health check and service-only mode (R290-R293, R477, R478),
the watchdog (R454), the fault-log view (R457). -/

namespace Sys2Proof.Machine

/-! ### Firmware slots -/

def fwSlot (s : State) (slotB : Bool) : FwSlot := if slotB then s.sup.slotB else s.sup.slotA

def updSlot (s : State) (slotB : Bool) (f : FwSlot → FwSlot) : State :=
  { s with sup := { s.sup with slotA := if slotB then s.sup.slotA else f s.sup.slotA
                               slotB := if slotB then f s.sup.slotB else s.sup.slotB } }

/-- A slot in TRIAL, if any. -/
def trialSlot (s : State) : Option Bool :=
  if s.sup.slotA.state = .trial then some false else if s.sup.slotB.state = .trial then some true else none

def activeSlot (s : State) : Option Bool :=
  if s.sup.slotA.state = .active then some false else if s.sup.slotB.state = .active then some true else none

/-- The slot that boots (R290). -/
def slotToBoot (s : State) : Option Bool :=
  match trialSlot s with
  | some b => some b
  | none => activeSlot s

/-! ### Power-up (R289) -/

/-- From the end of step 1 a held pin stands at its recorded level, any other at its unclaimed level (R374, R375). -/
def bootPin (x : Pin) : Pin :=
  { x with claimed := none, entry := none, loading := none, pulsing := false, pulseEntry := none, failsafe := x.held,
           level := if x.held then levelOf x.heldHigh else unclaimedLevel x }

/-- A region at step 1; one that a short or a third shed took out of service stays out through a restart (R36, R432). -/
def bootRegion (restart : Bool) (out : Bool) (g : Region) : Region :=
  let off := restart && g.cycleOff
  setVdd 720 { supplyOn := !off && !out, supplyOut := out, cycleOff := off }

/-- Register values at a restart: what the unit NV store keeps stands, everything else takes its reset value (R433, R442,
R455, R474, R488). -/
def bootState (s : State) (e : PowerUp) : State :=
  let restart := decide (s.glb.phase = .restarting)
  let fresh : State := {}
  { fresh with
    pending := s.pending
    freeCount := s.freeCount
    nv := s.nv
    glb := { serial := s.glb.serial, powerOn := s.glb.powerOn + 1, phase := .up, bar0 := true,
             linkUp := decide (e.linkWidth ≠ 0), linkWidth := e.linkWidth, linkGen := e.linkGen }
    sup := { slotA := s.sup.slotA, slotB := s.sup.slotB, watchdogCount := s.sup.watchdogCount,
             revertCheck := s.sup.revertCheck, watchdogRun := s.sup.watchdogRun }
    wafer := { copy0 := s.wafer.copy0, copy1 := s.wafer.copy1, factoryRec := s.wafer.factoryRec }
    pwr := { cap := s.pwr.force.cap, binding := s.pwr.force.binding, force := s.pwr.force,
             resC := if e.resPresent then e.resC else 0, resEsr := if e.resPresent then e.resEsr else 0,
             saveAtRisk := !e.resPresent || decide (e.resC < 3500) || decide (1200 < e.resEsr) }
    regions := Vector.ofFn (fun r : RegionId => bootRegion restart (e.findings.supplyOut.contains r) s.regions[r])
    parts := Vector.ofFn (fun p : PartId => { regs := { prio := s.pwr.force.prio[p], margin := s.pwr.force.margin[p] } })
    encs := s.encs.map (fun x => { invert := x.invert, div := x.div })
    pins := s.pins.map bootPin
    flt := { entries := s.flt.entries, nextSeq := s.flt.nextSeq } }

/-- Step 2: the slot boots; a TRIAL slot whose signature fails has failed its trial, and the ACTIVE slot boots in its place. The
answer is none when no slot boots. -/
def bootSlot (s : State) (fwOk : Bool) : State × Option Bool :=
  match slotToBoot s with
  | none => (s, none)
  | some b =>
    if fwOk then (s, some b)
    else
      let s1 := updSlot s b (fun f => { f with state := .failed })
      if (fwSlot s b).state = .trial then
        ({ s1 with sup := { s1.sup with revertCheck := some 1 } }, activeSlot s1)
      else (s1, none)

/-- Step 3: the entries that wait for the log to be open (R292, R454, R455). Nothing is signalled, since BAR0 does not answer yet. -/
def bootLog (s : State) : State :=
  let s1 := match s.sup.watchdogRun with
    | none => s
    | some (run, t) =>
      let e : LogEntry := { seq := s.flt.nextSeq, powerOn := run, time := t, code := 0x0001 }
      { s with flt := { s.flt with entries := (e :: s.flt.entries).take 4096, nextSeq := s.flt.nextSeq + 1 } }
  let s2 := match s.sup.revertCheck with
    | none => s1
    | some k => logEvent s1 0x0003 0 k 0 false
  let s3 := if s.pwr.saveAtRisk then logEvent s2 0x0008 0 s.pwr.resC 0 false else s2
  { s3 with sup := { s3.sup with watchdogRun := none, revertCheck := none } }

/-- Step 5: the mesh locks to the internal TCXO (R67-R69). -/
def bootLock (s : State) : State :=
  { s with tbs := { locked := true, refPresent := true, everLocked := true } }

/-- Microcode epochs of the in-service sites (step 7). -/
def microFound (s : State) : List Nat :=
  (allSites.filter (fun k => (s.wafer.tree[k]).isSome && !((curMap s).sites[k]).holed)).map (fun k => s.wafer.microEpoch[k])

/-- Every in-service site reports one epoch. -/
def microAgree (s : State) : Bool := match microFound s with | [] => true | e :: rest => rest.all (· = e)

/-- The epoch lies in the booted firmware's tested set. -/
def microTested (s : State) : Bool := match microFound s with | [] => true | e :: _ => (bootedSlot s).microSet.contains e

/-- GLB_EPOCHS: firmware epoch, and the microcode epoch when all sites agree. -/
def glbEpochs (s : State) : Nat :=
  (bootedSlot s).epoch + 65536 * (if microAgree s then (microFound s).headD 0 else 0)

/-- Steps 6 and 7 on the powered wafer; the regions in service then stand at 0.60 V (R426). -/
def bootWafer (s : State) (e : PowerUp) : State :=
  let s1 := powerUpTest s e
  { updRegions s1 (setVdd 600) with
    wafer := { s1.wafer with microEpoch := Vector.ofFn (fun k : SiteId => (e.microOdd.lookup k).getD e.microEpoch) } }

/-- A third watchdog restart, or an ACTIVE slot whose epoch checks fail, leads to service-only mode (R293, R454). -/
def bootService (s : State) : State :=
  if (bootedSlot s).state = .trial then s
  else
    let s1 := if 3 ≤ s.sup.watchdogCount then logIrq { s with glb := { s.glb with serviceOnly := true } } 0x0002 0 0 0 false 0 else s
    if microAgree s && microTested s then s1
    else logIrq { s1 with glb := { s1.glb with serviceOnly := true } } 0x0004 0 (glbEpochs s) 0 false 0

/-- The insertion sequence of an occupied bay (R224), run whole: both branches, then step 7. -/
def bootBay (e : PowerUp) (s : State) (b : BayId) : State :=
  match e.bays.find? (fun c => decide (c.bay = b)) with
  | none => s
  | some c =>
    let s1 := updBay s b (fun _ => {
      presence := .inserted, power := true, good := true, perst := false, busLow := false, linkWidth := c.linkWidth, linkGen := c.linkGen })
    useCartridge (checkIdentity s1 b c.identity) b c.nvme

/-- Step 8: the accepted bays' armed images, in ascending bay order (R203). -/
def bootLoad (e : PowerUp) (s : State) (b : BayId) : State :=
  match e.bays.find? (fun c => decide (c.bay = b)) with
  | none => s
  | some c =>
    if (s.bays[b]).accepted && !s.glb.serviceOnly && microAgree s && microTested s then
      loadRequest (updBay s b (fun x => { x with nvme := .done })) b .insertion c.load
    else s

/-- UNIT_POWER_UP. With no slot that boots, the unit does not come up. -/
def execUnitPowerUp (e : PowerUp) (s : State) : Host.Outcome State Fault Refusal :=
  .next (if isUp s then s
  else
    let r := bootSlot (bootState s e) e.fwOk
    match r.2 with
    | none => { r.1 with glb := { r.1.glb with phase := .off, bar0 := false, linkUp := false } }
    | some slotB =>
      let s1 := bootLog { r.1 with sup := { r.1.sup with bootedB := slotB } }
      let s2 := bootService (bootWafer (bootLock s1) e)
      allBays.foldl (bootLoad e) (allBays.foldl (bootBay e) s2))

/-! ### HEALTH_CHECK and WATCHDOG (R292, R454) -/

/-- The first check of R292 that fails, numbered from 1 in its order (DESIGN CHOICE, log entry 27). The map is committed whenever
the power-up has run. -/
def failedCheck (s : State) (stepsDone serviced : Bool) : Option Nat :=
  if !stepsDone then some 1
  else if !microAgree s then some 2
  else if !microTested s then some 3
  else if !serviced then some 5
  else none

/-- The trial passes: the slot becomes ACTIVE, the old ACTIVE slot PREVIOUS. -/
def passTrial (s : State) (b : Bool) : State :=
  let s1 := updSlot s (!b) (fun f => if f.state = .active then { f with state := .previous } else f)
  let s2 := updSlot s1 b (fun f => { f with state := .active })
  irq { s2 with sup := { s2.sup with watchdogCount := 0 } } 0

/-- HEALTH_CHECK. -/
def execHealthCheck (stepsDone watchdogServiced : Bool) (s : State) : Host.Outcome State Fault Refusal :=
  let b := s.sup.bootedB
  whenUp s (if (fwSlot s b).state = .trial then
    match failedCheck s stepsDone watchdogServiced with
    | none => passTrial s b
    | some k => restartUnit (logIrq (updSlot s b (fun f => { f with state := .failed })) 0x0003 0 k 0 false 0)
  else s)

/-- WATCHDOG: neither a save record nor a life record is written; a TRIAL slot fails its health check. -/
def execWatchdog (s : State) : Host.Outcome State Fault Refusal :=
  let b := s.sup.bootedB
  let trial := decide ((fwSlot s b).state = .trial)
  let s1 := if trial then updSlot s b (fun f => { f with state := .failed }) else s
  let s2 := { s1 with sup := { s1.sup with
    watchdogCount := if 3600000000000 ≤ now s then 1 else s1.sup.watchdogCount + 1
    watchdogRun := some (s.glb.powerOn, now s), revertCheck := if trial then some 5 else none } }
  whenUp s (restartUnit s2)

/-! ### Firmware commands (R477, R478) -/

/-- Is a command refused: one is being carried out, or a slot is TRIAL? -/
def fwRefused (s : State) : Bool := s.sup.busy.isSome || (trialSlot s).isSome

def fwError (s : State) : State := { s with sup := { s.sup with errRefused := true } }

def fwSeqError (s : State) : State := { s with sup := { s.sup with errSeq := true } }

/-- The slot that new firmware goes to: the one that is not ACTIVE. -/
def uploadSlot (s : State) : Bool := decide (s.sup.slotA.state = .active)

/-- OPEN. -/
def execFwOpen (s : State) : Host.Outcome State Fault Refusal :=
  whenUp s (if fwRefused s then fwError s
  else
    let s1 := updSlot s (uploadSlot s) (fun _ => {})
    irq { s1 with sup := { s1.sup with blocks := [], openUp := true, done := true } } 0)

/-- WRITE: it completes on FW_COMMAND_DONE. -/
def execFwWrite (s : State) : Host.Outcome State Fault Refusal :=
  let next := s.sup.blocks.length
  whenUp s (if fwRefused s then fwError s
  else if !s.sup.openUp || decide (s.sup.fwBlock.toNat ≠ next) || decide (next = 4096) then fwSeqError s
  else { s with sup := { s.sup with blocks := s.sup.blocks ++ [s.sup.fwBuf.toList], busy := some .write } })

/-- CLOSE: its verification completes on FW_COMMAND_DONE. -/
def execFwClose (s : State) : Host.Outcome State Fault Refusal :=
  let next := s.sup.blocks.length
  let len := s.sup.fwLen.toNat
  whenUp s (if fwRefused s then fwError s
  else if s.sup.openUp && decide (256 * (next - 1) < len) && decide (len ≤ 256 * next) then
    { s with sup := { s.sup with busy := some .close } }
  else fwSeqError s)

/-- ACTIVATE. -/
def execFwActivate (slotB : Bool) (s : State) : Host.Outcome State Fault Refusal :=
  whenUp s (if fwRefused s || decide ((fwSlot s slotB).state ≠ .previous) then fwError s
  else activateSlot { s with sup := { s.sup with done := true } } slotB (fun f => f))

/-- A verified build's place in its slot. -/
def installFw (i : FwInfo) (f : FwSlot) : FwSlot :=
  { f with epoch := i.epoch, minor := i.minor, major := i.major, microSet := i.microSet, formatSet := i.formatSet }

/-- FW_COMMAND_DONE: a WRITE or a CLOSE completes. -/
def execFwCommandDone (verified : Bool) (info : FwInfo) (s : State) : Host.Outcome State Fault Refusal :=
  let s1 := { s with sup := { s.sup with busy := none, done := true } }
  whenUp s (match s.sup.busy with
    | none => s
    | some .write => s1
    | some .close =>
      let s2 := { s1 with sup := { s1.sup with openUp := false } }
      if verified then activateSlot s2 (uploadSlot s) (installFw info)
      else irq (updSlot { s2 with sup := { s2.sup with errSig := true } } (uploadSlot s) (fun f => { f with state := .failed })) 0)

/-! ### FLT_SEL_WRITE (R457) -/

/-- FLT_SEL_WRITE: the entry of that SEQ, or zero when it is not held. -/
def execFltSelWrite (v : Word) (s : State) : Host.Outcome State Fault Refusal :=
  let bytes := match s.flt.entries.find? (fun e => decide (e.seq % 2 ^ 32 = v.toNat)) with
    | some e => logEntryBytes e
    | none => zeros 32
  whenUp s { s with flt := { s.flt with sel := v, data := Vector.ofFn (fun k : Fin 8 => BitVec.ofNat 32 (leAt bytes (4 * k.val) 4)) } }

end Sys2Proof.Machine
end

