-- ==== Sys2Proof/Machine/Flags.lean ====
section
/-! DEFINITION. The status words of the host register map, computed from the state bit by bit (R476). -/

namespace Sys2Proof.Machine

/-- Bit `i` of a word where a flag holds. -/
def flag (i : Nat) (b : Bool) : Nat := boolNat b * 2 ^ i

/-- A mask of the members of a list for which a test holds. -/
def maskOf {α : Type} (f : α → Bool) (xs : List α) : Nat := ((List.range xs.length).map (fun i => match xs[i]? with
  | some x => flag i (f x)
  | none => 0)).sum

def ownerBits (o : Option PartId) : Nat := match o with | some p => p.val | none => 0

def glbStatus (s : State) : Nat :=
  let m := curMap s
  flag 0 s.glb.serviceOnly + 2 * m.grade + 16 * m.shipGrade + 256 * s.glb.linkWidth + 4096 * s.glb.linkGen + flag 16 (curSave s).isSome

def slotCode : SlotState → Nat
  | .empty => 0 | .trial => 1 | .active => 2 | .previous => 3 | .failed => 4

def supSlots (s : State) : Nat := slotCode s.sup.slotA.state + 16 * slotCode s.sup.slotB.state + flag 8 s.sup.bootedB

def supFwStatus (s : State) : Nat :=
  flag 0 s.sup.busy.isSome + flag 1 s.sup.openUp + flag 2 s.sup.done + flag 3 s.sup.errSeq + flag 4 s.sup.errSig + flag 5 s.sup.errRefused

def tbsStatus (s : State) : Nat :=
  flag 0 s.tbs.locked + flag 1 s.tbs.holdover + flag 2 s.tbs.refPresent + flag 3 s.tbs.lostEv + flag 4 s.tbs.backEv + 32 * s.tbs.srcInUse.val

def pwrStatus (s : State) : Nat :=
  flag 0 s.pwr.lowInput + flag 1 s.pwr.highInput + flag 2 s.pwr.capUnmet + flag 3 s.pwr.saveAtRisk + flag 4 s.pwr.coolOut +
  flag 8 s.pwr.policyErr

def rgnStatus (s : State) (r : RegionId) : Nat :=
  let g := s.regions[r]
  let e := (curMap s).regions[r]
  e.state + flag 2 g.unreachable + flag 3 g.owner.isSome + 16 * ownerBits g.owner + flag 7 g.heatOff + 256 * e.adj +
  4096 * maskOf (fun b => b) g.gates.toList + 65536 * g.retest + flag 19 g.cycleOff

def kindCode : ReqKind → Nat
  | .insertion => 0 | .hostReload => 1 | .hostUnload => 2 | .automatic => 3

def prtQueue (x : Partition) : Nat :=
  flag 0 x.load.isSome + flag 1 x.queued.isSome + 4 * (match x.queued with | some k => kindCode k | none => 0) +
  16 * (match x.load with | some l => kindCode l.kind | none => 0)

def prtEvents (x : Partition) : Nat :=
  flag 0 x.regs.applyErr + flag 1 x.regs.applyBusy + flag 2 x.regs.applyDone + flag 3 x.regs.cmdErr + flag 4 x.regs.stateChg +
  flag 5 x.regs.causeSet

def prtBreach (x : Partition) : Nat := x.regs.breachCause.toNat + flag 8 x.regs.floorBreach

def cenStatus (x : Partition) : Nat :=
  flag 0 x.census.err + flag 1 x.census.cancelled + flag 2 x.census.run.isSome +
  flag 3 (x.census.queued || x.census.finalRun.isSome) + 65536 * sat16 x.census.skipped

/-- Indicator: red over amber over green (1 green, 2 amber, 3 red), and whether it blinks. -/
def indicator (s : State) (b : BayId) : Nat × Bool :=
  let x := s.bays[b]
  if x.cause ≠ 0 ∨ x.tripped then (3, false)
  else if !x.power then (0, false)
  else if x.wear ≠ 0 then (2, false)
  else if (s.parts[b]).load.isSome then (1, true)
  else if x.accepted && isServing (s.parts[b]).state then (1, false)
  else (0, false)

def bayStatus (s : State) (b : BayId) : Nat :=
  let x := s.bays[b]
  let i := indicator s b
  flag 0 true + flag 1 (x.power && x.good) + flag 2 x.accepted + flag 3 (s.parts[b]).load.isSome + 16 * i.1 + flag 6 i.2 +
  flag 7 (decide (x.wear ≠ 0)) + 256 * x.linkWidth + 4096 * x.linkGen + 65536 * x.cause + 16777216 * x.wear.toNat

/-- Status of a connection; the camera-port fields come from its master and read 0 where no image claims it. -/
def imgStatus (s : State) (c : ImgId) : Nat :=
  let x := s.imgs[c]
  let own := flag 5 x.locked + flag 7 x.dcPresent
  if x.owner.isNone then own
  else
    let m := s.imgs[masterOf s c]
    let cfg := (camCfg m).getD {}
    own + ownerBits x.owner + 8 + flag 4 m.ready + flag 6 m.linkDown + flag 8 m.mismatch + 512 * m.bringup +
    (match m.bayer with | some b => 4096 * b.val + 16384 | none => 0) + 65536 * cfg.links + 1048576 * cfg.bitRate +
    16777216 * (masterOf s c).val

def sndStatus (s : State) (c : SndId) : Nat :=
  let x := s.snds[c]
  ownerBits x.owner + flag 3 x.owner.isSome + flag 4 (match x.cfg with | some y => y.master | none => false) + flag 5 x.clockOk +
  flag 6 x.asrcLocked + flag 7 x.clockLost + flag 8 x.rateError + flag 9 x.mismatch + flag 10 (delivers x)

def encStatus (s : State) (e : EncId) : Nat := flag 0 (s.encs[e]).busy + 2 * openBits s.encs[e] + flag 4 (encClaimed s e)

def expStatus (e : Exp) : Nat := flag 0 e.headErr + flag 1 e.cfgErr + flag 2 e.linkLost + flag 3 e.ringFull

def spnStatus (s : State) (q : SpanPort) : Nat :=
  let x := getSpn s q
  let recent := match x.helloAt with | some t => x.linkUp && decide (now s ≤ t + 2000000) | none => false
  flag 0 x.module_ + flag 1 x.linkUp + flag 2 recent + 16 * ownerBits x.owner + flag 7 x.owner.isSome + 256 * x.span + flag 11 x.replay

def spnEvents (x : Spn) : Nat := flag 0 x.lostEv + flag 1 x.serialEv

end Sys2Proof.Machine
end

