-- ==== Sys2Proof/Machine/Verdicts.lean ====
section
/-! DEFINITION. The verdict port and the pins (R178, R372-R376, R391, R392, R417, R489), tunables (R283, R317-R319, R483). -/

namespace Sys2Proof.Machine

/-! ### VERDICT_RELEASE -/

/-- What the verdict port releases next: the oldest token and the oldest window without a record, once that window's last
sample has entered (on a span: its descriptor has arrived), at least the declared interval after the previous release. -/
def nextRelease (s : State) (x : Partition) (c : Contract) : Option (VToken × Window × Nat) :=
  match x.flow.tokens, x.flow.windows with
  | t :: _, w :: _ =>
    match w.tLast with
    | some last =>
      let due := match x.flow.lastRelease with | some r => decide (r + c.verdictInterval ≤ now s) | none => true
      if isServing x.state && due then some (t, w, last) else none
    | none => none
  | _, _ => none

/-- FLAGS of a verdict record (R391, R392). -/
def verdictFlags (t : VToken) (w : Window) (late : Bool) : Nat :=
  boolNat t.reject + 2 * boolNat t.shed + 4 * boolNat w.incomplete + 8 * boolNat late + 16 * boolNat w.sound

/-- LATENCY: ns from the last-sample instant to the release (R391). -/
def latencyOf (released last : Nat) : Nat := sat32 (released - last)

/-- The record of a release. -/
def verdictRec (s : State) (f : Flow) (c : Contract) (t : VToken) (w : Window) (last : Nat) : ERec :=
  let lat := latencyOf (now s) last
  .verdict (verdictFlags t w (decide (lateBound c < lat))) t.cls (w.gen % 256) t.score (if w.sound then 0 else w.column)
    (w.index % 2 ^ 32) t.aux0 t.aux1 (f.seq % 2 ^ 32) lat (now s)

/-- A claimed pin at a release of its partition: one that matches during a pulse restarts the width (R372). -/
def pinRelease (time : Nat) (e : PinEntry) (t : VToken) (x : Pin) : Pin :=
  if t.reject && bitOf e.classSet t.cls then
    { x with level := rejectLevel e, pulsing := decide (e.pulseNs ≠ 0), pulseAt := time, pulseEntry := none }
  else if e.pulseNs = 0 then { x with level := passLevel e, pulsing := false, pulseEntry := none }
  else x

/-- The pins that the running image claims. -/
def drivePins (s : State) (p : PartId) (i : Image) (t : VToken) : State :=
  { s with pins := Vector.ofFn (fun n : PinId =>
    let x := s.pins[n]
    match (if x.claimed = some p && !x.failsafe then pinEntryOf i n else none) with
    | some e => pinRelease (now s) e t x
    | none => x) }

/-- On the last unit of a span, a descriptor paired with its token leaves its place (R415, R417). -/
def descPaired (s : State) (p : PartId) : State :=
  match partSpan s p with
  | some x => if x.spa then { s with spa := { s.spa with ddrained := s.spa.ddrained + 1 } } else s
  | none => s

/-- VERDICT_RELEASE. -/
def execVerdictRelease (p : PartId) (s : State) : Host.Outcome State Fault Refusal :=
  let x := s.parts[p]
  whenUp s (match x.active with
    | none => s
    | some i =>
      let c := imgContract i
      match nextRelease s x c with
      | none => s
      | some (t, w, last) =>
        let r := verdictRec s x.flow c t w last
        let s1 := updPart s p (fun y => { y with
          regs := { y.regs with vrd := y.regs.vrd + 1, rej := y.regs.rej + boolNat t.reject }
          flow := { y.flow with tokens := y.flow.tokens.drop 1, windows := y.flow.windows.drop 1,
                                lastRelease := some (now s), seq := y.flow.seq + 1 } })
        let s2 := enterRec (drivePins s1 p i t) p r
        let v : RecentVerdict := { column := if w.sound then 0 else w.column, index := w.index % 2 ^ 32, seq := x.flow.seq % 2 ^ 32,
                                   time := now s }
        exportPump (updExp (descPaired s2 p) p (fun e => meetWaiting (now s) x.regs.ldgGen i v.seq (noteVerdict v e))))

/-! ### PIN_PULSE_END -/

/-- The pulse of a pin is over: it returns to the pass level of the settings it ran under; a pin that the running image does
not claim goes to its fail-safe level (R372, R374). -/
def endPulse (kept : Bool) (x : Pin) : Pin :=
  match x.pulseEntry <|> x.entry with
  | none => { x with pulsing := false, pulseEntry := none }
  | some e => if kept then { x with level := passLevel e, pulsing := false, pulseEntry := none } else pinFail e x

/-- Has the width of a pin's pulse passed since its latest matching release (R372)? -/
def pulseOver (time : Nat) (x : Pin) : Bool :=
  x.pulsing && (match x.pulseEntry <|> x.entry with
    | some e => decide (x.pulseAt + e.pulseNs ≤ time)
    | none => true)

/-- PIN_PULSE_END. -/
def execPinPulseEnd (pin : PinId) (s : State) : Host.Outcome State Fault Refusal :=
  let x := s.pins[pin]
  let kept := match x.claimed with
    | some p => (match s.parts[p].active with | some i => (pinEntryOf i pin).isSome | none => false)
    | none => false
  whenUp s (if pulseOver (now s) x then updPin s pin (endPulse kept) else s)

/-! ### VRD_ALLOC_WRITE -/

/-- Drive the unclaimed level of a new allocation entry; the pin is no longer held (R375, R376). -/
def allocPin (b : Nat) (x : Pin) : Pin :=
  { x with bay := Fin.ofNat 8 (b % 8), allocated := bitOf b 3, unclaimedHigh := bitOf b 4, level := levelOf (bitOf b 4), entry := none,
           pulsing := false, pulseEntry := none, held := false, heldHigh := false, failsafe := false }

/-- Byte of an allocation entry. -/
def allocByte (x : Pin) : Nat := x.bay.val + 8 * boolNat x.allocated + 16 * boolNat x.unclaimedHigh

/-- VRD_ALLOC_WRITE: byte `k` of the word is pin 4 i + k's. A byte that would change a claimed pin's entry sets ALLOC_HELD. -/
def execVrdAllocWrite (i : Fin 8) (v : Word) (s : State) : Host.Outcome State Fault Refusal :=
  let byte := fun (k : Nat) => v.toNat / 256 ^ k % 256
  let pinOf := fun (k : Nat) => Fin.ofNat 32 (4 * i.val + k)
  let held := ([0, 1, 2, 3] : List Nat).any (fun k => (s.pins[pinOf k]).claimed.isSome && allocByte s.pins[pinOf k] ≠ byte k)
  whenUp s (if ([0, 1, 2, 3] : List Nat).any (fun k => decide (32 ≤ byte k)) then s
  else
    let s1 := ([0, 1, 2, 3] : List Nat).foldl (fun s k =>
      if (s.pins[pinOf k]).claimed.isSome then s else updPin s (pinOf k) (allocPin (byte k))) s
    if held && !s.allocHeld then irq { s1 with allocHeld := true } 21 else s1)

/-! ### APPLY and PRT_TUN_WRITE -/

/-- Is a shadow set acceptable: bounds, no NaN, every relation (R283)? -/
def shadowOk (ts : List TunEntry) (rels : List RelEntry) (vals : List Word) : Bool :=
  ts.all (fun t =>
    let v := vals.getD t.id 0
    !tunNan t.format v && tunLe t.format t.min v && tunLe t.format v t.max) &&
  rels.all (relHolds ts vals)

/-- An apply is pending while a window bound to an earlier generation has no verdict record (R319). -/
def applyPending (x : Partition) : Bool := x.flow.windows.any (fun w => decide (w.gen ≠ x.tun.gen))

/-- The next generation takes force: every window accepted from now on is bound to it (R318). -/
def newGeneration (vals : List Word) (x : Partition) : Partition :=
  { x with tun := { x.tun with gen := (x.tun.gen + 1) % 65536, sets := (x.flow.entered, vals) :: x.tun.sets } }

/-- APPLY: the result is an event of the partition (R283, R317, R319). An image without tunables accepts it without effect. -/
def execApply (p : PartId) (v : Word) (s : State) : Host.Outcome State Fault Refusal :=
  let x := s.parts[p]
  let err := irq (updPartRegs s p (fun r => { r with applyErr := true })) (partVector p)
  whenUp s (if v ≠ 1 then s
  else match x.active with
    | none => err
    | some i =>
      if !isServing x.state then err
      else if applyPending x then irq (updPartRegs s p (fun r => { r with applyBusy := true })) (partVector p)
      else
        let tr := imgTunables i
        let vals := x.tun.shadow.toList.take tr.1.length
        if shadowOk tr.1 tr.2 vals then
          let s1 := irq (updPartRegs s p (fun r => { r with applyDone := true })) (partVector p)
          if tr.1.isEmpty then s1 else updPart s1 p (newGeneration vals)
        else err)

/-- Does a value fit a tunable's format: FP16 and U16 leave the upper half 0 (R483)? -/
def tunFits (t : TunEntry) (v : Word) : Bool := t.format = 0 || decide (v.toNat < 65536)

/-- PRT_TUN_WRITE. -/
def execPrtTunWrite (p : PartId) (n : Fin 32) (v : Word) (s : State) : Host.Outcome State Fault Refusal :=
  let x := s.parts[p]
  whenUp s (match x.active with
    | none => s
    | some i =>
      match (imgTunables i).1[n.val]? with
      | none => s
      | some t => if tunFits t v then updPart s p (fun y => { y with tun := { y.tun with shadow := y.tun.shadow.set n.val v n.isLt } }) else s)

end Sys2Proof.Machine
end

