-- ==== Sys2Proof/Machine/HostReg.lean ====
section
/-! DEFINITION. The host register map: what a read of BAR0 returns, and what a write to a register without a command of its own does
(R9-R13, R470-R491). -/

namespace Sys2Proof.Machine

/-! ### Addresses (R10, R476) -/

/-- Instance and offset of an address in a group, if it lies there. -/
def inGroup (base stride count a : Nat) : Option (Nat × Nat) :=
  if base ≤ a ∧ a < base + stride * count then some ((a - base) / stride, (a - base) % stride) else none

/-- Word `k` of bytes. -/
def wordAt (bs : List Byte) (k : Nat) : Nat := leAt bs (4 * k) 4

/-! ### 64-bit pairs (R472) -/

/-- The quantity whose low half stands at an address of a PRT instance. -/
def prtPair (x : Partition) (off : Nat) : Option Nat :=
  match off with
  | 0x140 => some x.regs.win
  | 0x148 => some x.regs.vrd
  | 0x150 => some x.regs.rej
  | 0x158 => some x.regs.nacc
  | _ => none

/-- Current frame index of a sound port. -/
def sndFrameNow (s : State) (c : SndId) : Nat :=
  let y := s.snds[c]
  match y.cfg with
  | some x => if delivers y then frameAt y x (now s) else y.frame
  | none => y.frame

/-- The span record of the piece that claims a port. -/
def claimedPiece (s : State) (q : SpanPort) : Option SpanRec := (getSpn s q).owner.bind (partSpan s)

def spanAt (n : Nat) : SpanPort := if n = 0 then .spa else .spb

/-- Is a cartridge present (R223)? -/
def bayPresent (x : Bay) : Bool := decide (x.presence = .inserted)

/-- The 64-bit quantity whose LO register stands at an address. -/
def pairAt (s : State) (a : Nat) : Option Nat :=
  if a = 0x008 then some s.glb.serial.toNat
  else if a = 0x808 then some (now s)
  else match inGroup 0x2000 0x200 8 a with
  | some (n, off) => prtPair s.parts[Fin.ofNat 8 n] off
  | none =>
  match inGroup 0x3000 0x80 8 a with
  | some (n, off) =>
    let x := s.bays[Fin.ofNat 8 n]
    if off = 0x04 then some (if bayPresent x then x.id.toNat else 0)
    else if off = 0x18 then some (if bayPresent x then x.progTime else 0)
    else none
  | none =>
  match inGroup 0x3400 0x80 16 a with
  | some (n, off) =>
    let c : ImgId := Fin.ofNat 16 n
    if off = 0x24 then some (if (s.imgs[c]).owner.isSome then (s.imgs[masterOf s c]).anchor.getD 0 else 0) else none
  | none =>
  match inGroup 0x3C00 0x100 8 a with
  | some (n, off) =>
    if off = 0x28 then some (s.snds[Fin.ofNat 8 n]).t0
    else if off = 0x30 then some (sndFrameNow s (Fin.ofNat 8 n))
    else none
  | none =>
  match inGroup 0x4400 0x40 4 a with
  | some (n, off) =>
    let e := s.encs[Fin.ofNat 4 n]
    if off = 0x14 then some e.zpos.toNat else if off = 0x1C then some e.position.toNat
    else if off = 0x24 then some e.line.toNat else none
  | none =>
  match inGroup 0x4800 0x80 8 a with
  | some (n, off) =>
    let e := s.exps[Fin.ofNat 8 n]
    if off = 0x08 then some e.base.toNat else if off = 0x1C then some e.tailPtr.toNat else none
  | none =>
  match inGroup 0x4C00 0x100 2 a with
  | some (n, off) =>
    if off = 0x08 then some ((getSpn s (spanAt n)).peer.getD 0).toNat
    else if off = 0x10 then some (match claimedPiece s (spanAt n) with | some x => x.id.toNat | none => 0)
    else none
  | none => none

/-! ### Single registers -/

def slotWord (f : FwSlot) : Nat := if f.state = .empty then 0 else f.epoch + 65536 * f.minor + 16777216 * f.major

/-- [15:0] the element at an index, [23:16] the number of elements. -/
def listWord (xs : List Nat) (i : Nat) : Nat := xs.getD i 0 + 65536 * xs.length

def readGlb (s : State) (off : Nat) : Nat :=
  match off with
  | 0x000 => 0x30385857
  | 0x004 => 0x142
  | 0x010 => glbStatus s
  | 0x014 => glbEpochs s
  | 0x018 => minList (microFound s) + 65536 * (microFound s).foldl max 0
  | 0x01C => s.glb.powerOn
  | 0x020 => s.glb.irq.toNat
  | 0x024 => s.glb.scratch.toNat
  | _ => 0

/-- Fingerprint of the selected root: the first 8 bytes of the hash of its public key, 0 when it is not enrolled. -/
def rootId (s : State) : Nat :=
  let k : Fin 4 := Fin.ofNat 4 (field s.sup.rootSel.toNat 1 0)
  match if bitOf s.sup.rootSel.toNat 8 then s.nv.cartRoots[k] else s.nv.imageRoots[k] with
  | some key => leNat ((sha256 key).take 8)
  | none => 0

def readSup (s : State) (off : Nat) : Nat :=
  let sel := s.sup.tsetSel.toNat
  match off with
  | 0x000 => supSlots s
  | 0x004 => slotWord s.sup.slotA
  | 0x008 => slotWord s.sup.slotB
  | 0x010 => supFwStatus s
  | 0x014 => s.sup.fwBlock.toNat
  | 0x018 => s.sup.fwLen.toNat
  | 0x01C => sel
  | 0x020 => listWord (if bitOf sel 8 then (bootedSlot s).formatSet else (bootedSlot s).microSet) (field sel 4 0)
  | 0x024 => match curSave s with | some r => r.seq | none => 0
  | 0x028 => s.sup.saveSel.toNat
  | 0x02C => s.sup.rootSel.toNat
  | 0x030 => rootId s % 2 ^ 32
  | 0x034 => rootId s / 2 ^ 32
  | _ =>
    if 0x100 ≤ off ∧ off < 0x200 then
      match curSave s with
      | some r => wordAt (saveBytes r) (64 * s.sup.saveSel.toNat + (off - 0x100) / 4)
      | none => 0
    else 0

def readTbs (s : State) (off : Nat) : Nat :=
  match off with
  | 0x00 => s.tbs.src.val
  | 0x04 => tbsStatus s
  | 0x10 => s.tbs.losses
  | 0x14 => if s.tbs.holdover then 0 else twos 32 s.tbs.refPpb
  | _ => 0

def readPwr (s : State) (off : Nat) : Nat :=
  match off with
  | 0x00 => s.pwr.cap
  | 0x04 => boolNat s.pwr.binding
  | 0x08 => s.pwr.force.cap + flag 16 s.pwr.force.binding
  | 0x0C => pwrStatus s
  | 0x10 => s.pwr.shortfall
  | 0x14 => s.pwr.inputW + 65536 * s.pwr.inputDv
  | 0x18 => s.pwr.resC
  | 0x1C => s.pwr.resEsr
  | 0x20 => s.pwr.resMv
  | 0x24 => twos 16 s.pwr.inlet + 65536 * twos 16 s.pwr.outlet
  | 0x28 => s.pwr.flow
  | _ => 0

def readRgn (s : State) (r : RegionId) (off : Nat) : Nat :=
  let g := s.regions[r]
  match off with
  | 0x00 => rgnStatus s r
  | 0x08 => if g.supplyOn then g.vdd + 65536 * g.demand else 0
  | 0x0C => g.throttleCeil + 65536 * g.currentCeil
  | 0x10 => match g.owner with | some p => ((s.parts[p]).regs.capCeil).getD 0 | none => 0
  | 0x14 => twos 16 g.temp + 65536 * twos 16 g.tempHigh
  | 0x18 => g.current
  | 0x1C => g.rate
  | 0x20 => g.throttleSteps
  | 0x24 => g.sheds + 256 * min 255 (g.shedTimes.filter (fun t => decide (now s < t + 3600000000000))).length
  | 0x28 => g.iEpisodes
  | 0x2C => ((curMap s).regions[r]).retests
  | _ => 0

/-- The placement that the registers show (R486). -/
def shownPlacement (x : Partition) : Option Placement :=
  match x.placement, x.load with
  | some pl, _ => some pl
  | none, some l => if x.state = .loading ∨ x.state = .spanWait then some l.placement else none
  | none, none => none

def formCode : Form → Nat
  | .straight => 0 | .cornerRight => 1 | .cornerLeft => 2 | .endForm => 3

/-- Byte of PRT_PATH and of PRT_PIECE for piece `k`. -/
def pathByte (pl : Option Placement) (k : Nat) : Nat :=
  match pl.bind (fun x => x.pieces[k]?) with | some y => y.region.val | none => 255

def pieceByte (pl : Option Placement) (k : Nat) : Nat :=
  match pl.bind (fun x => x.pieces[k]?) with | some y => y.code.val + 8 * formCode y.form + 128 | none => 0

/-- Four bytes of a table, from index `i`. -/
def quad (f : Nat → Nat) (i : Nat) : Nat := f i + 256 * f (i + 1) + 65536 * f (i + 2) + 16777216 * f (i + 3)

/-- An image of the partition, with its digest: active or staged. -/
def selImage (x : Partition) (staged : Bool) : Option (Image × List Byte) :=
  if staged then (x.load.bind (fun l => if l.staged then some (l.image, l.slot.digest) else none))
  else x.active.map (fun i => (i, i.digest))

/-- The registers that describe the image PRT_IMG_SEL selects. -/
def readPrtImage (i : Image) (digest : List Byte) (epochSel off : Nat) : Nat :=
  let c := imgContract i
  let h := i.header
  match off with
  | 0x08C =>
    let xs := if bitOf epochSel 8 then (imgEpochs i).2 else (imgEpochs i).1
    listWord xs (field epochSel 3 0)
  | 0x094 => h.build
  | 0x098 => c.rateFloor
  | 0x09C => c.verdictInterval
  | 0x0A0 => c.latencyBudget
  | 0x0A4 => boolNat c.stopOnRemoval + 2 * boolNat c.replaceOnFault + 4 * boolNat c.spanPiece + 256 * h.chainLen + 16384 * c.spanHops +
    65536 * h.formatEpoch
  | _ =>
    if 0x100 ≤ off ∧ off < 0x120 then wordAt h.name ((off - 0x100) / 4)
    else if 0x120 ≤ off ∧ off < 0x140 then wordAt digest ((off - 0x120) / 4)
    else 0

/-- The 8 bytes of a relation entry (R281). -/
def relBytes (r : RelEntry) : List Byte := leBytes 1 r.a ++ leBytes 1 r.b ++ leBytes 1 (boolNat r.strict) ++ zeros 5

/-- Bytes that PRT_TDECL_DATA shows (R484). -/
def declBytes (x : Partition) : List Byte :=
  match x.active with
  | none => []
  | some i =>
    let t := imgTunables i
    let sel := x.regs.tdeclSel.toNat
    let k := field sel 4 0
    match field sel 9 8 with
    | 0 => (match t.1[k]? with | some e => tunBytes e | none => [])
    | 1 => (match t.2[k]? with | some e => relBytes e | none => [])
    | _ => (match x.tun.sets with
      | v :: _ => if k < t.1.length then leBytes 4 (v.2.getD k 0).toNat else []
      | [] => [])

/-- The ledger that PRT_LDG_SEL selects, if there is one (R190). -/
def selLedger (x : Partition) : List LedgerEntry :=
  match selImage x (bitOf x.regs.ldgSel.toNat 15) with | some i => imgLedger i.1 | none => []

/-- KiB streamed, and KiB that the load streams: bytes of skipped blobs do not count. -/
def loadKib (x : Partition) (total : Bool) : Nat :=
  match x.load with
  | some l => ((if total then l.image.header.length else l.bytes) - l.skipped) / 1024
  | none => 0

def readPrt (s : State) (p : PartId) (off : Nat) : Nat :=
  let x := s.parts[p]
  let r := x.regs
  let pl := shownPlacement x
  match off with
  | 0x000 => stateCode x.state
  | 0x004 => r.cause
  | 0x00C => prtQueue x
  | 0x010 => prtEvents x
  | 0x014 => prtBreach x
  | 0x018 => loadKib x false
  | 0x01C => loadKib x true
  | 0x020 => (match pl with | some y => y.pieces.length + flag 8 y.mirror | none => 0)
  | 0x050 => r.prio
  | 0x054 => r.margin
  | 0x058 => marginInForce s p + 256 * s.pwr.force.margin[p] + 65536 * s.pwr.force.prio[p]
  | 0x064 => x.tun.gen + flag 16 (applyPending x)
  | 0x068 => r.ldgSel.toNat
  | 0x06C => (selLedger x).length
  | 0x070 => r.ldgGen
  | 0x074 => r.tdeclSel.toNat
  | 0x07C => x.census.period
  | 0x080 => cenStatus x
  | 0x084 => x.census.lastId.getD 0xFFFFFFFF
  | 0x088 => r.epochSel.toNat
  | 0x090 => r.imgSel.toNat
  | 0x0A8 => (match x.active with | some i => (imgTunables i).1.length + 256 * (imgTunables i).2.length | none => 0)
  | _ =>
    if 0x024 ≤ off ∧ off < 0x038 then quad (pathByte pl) (off - 0x024)
    else if 0x038 ≤ off ∧ off < 0x04C then quad (pieceByte pl) (off - 0x038)
    else if 0x0C0 ≤ off ∧ off < 0x0E0 then
      (match (selLedger x)[field r.ldgSel.toNat 11 0]? with | some e => wordAt (ledgerBytes e) ((off - 0x0C0) / 4) | none => 0)
    else if 0x0E0 ≤ off ∧ off < 0x100 then wordAt (declBytes x) ((off - 0x0E0) / 4)
    else if 0x180 ≤ off then
      (match x.active with
       | some i => if (off - 0x180) / 4 < (imgTunables i).1.length then (x.tun.shadow[Fin.ofNat 32 ((off - 0x180) / 4)]).toNat else 0
       | none => 0)
    else match selImage x (bitOf r.imgSel.toNat 0) with
      | some i => readPrtImage i.1 i.2 r.epochSel.toNat off
      | none => 0

def readBay (s : State) (b : BayId) (off : Nat) : Nat :=
  let x := s.bays[b]
  let t := x.slots.getD x.armed.val {}
  if !bayPresent x then 0
  else match off with
    | 0x00 => bayStatus s b
    | 0x0C => x.insertions
    | 0x10 => x.stateWrites
    | 0x14 => x.hours
    | 0x20 => x.smartCritical + 256 * x.smartUsed
    | 0x24 => x.armed.val + flag 8 t.present + 65536 * t.epoch + 16777216 * t.chainLen
    | 0x28 => t.keyId
    | _ => if 0x40 ≤ off ∧ off < 0x60 then wordAt t.digest ((off - 0x40) / 4) else 0

def readImg (s : State) (c : ImgId) (off : Nat) : Nat :=
  let x := s.imgs[c]
  let cam := fun (f : ImgConn → Nat) => if x.owner.isSome then f s.imgs[masterOf s c] else 0
  match off with
  | 0x00 => imgStatus s c
  | 0x04 => cam (·.missing)
  | 0x08 => cam (·.gapForced)
  | 0x0C => cam (·.extra)
  | 0x10 => cam (·.late)
  | 0x14 => x.ignored
  | 0x18 => cam (·.evtSuppressed)
  | 0x1C => cam (·.notAccepted)
  | 0x20 => x.crc
  | _ => 0

def readSnd (s : State) (c : SndId) (off : Nat) : Nat :=
  let x := s.snds[c]
  match off with
  | 0x00 => sndStatus s c
  | 0x04 => if x.clockOk then x.rate else 0
  | 0x08 => x.fsyncMiss
  | 0x0C => x.frameErr
  | 0x10 => x.insOwn
  | 0x14 => x.insForced
  | 0x18 => x.outDrop
  | 0x1C => x.underruns
  | 0x20 => x.unbounded
  | 0x24 => x.notAccepted
  | 0x38 => x.bufHigh
  | _ => 0

def readEnc (s : State) (e : EncId) (off : Nat) : Nat :=
  let x := s.encs[e]
  match off with
  | 0x00 => boolNat x.invert
  | 0x04 => x.div
  | 0x08 => encStatus s e
  | 0x0C => x.errors
  | 0x10 => x.zcount
  | _ => 0

def readVrd (s : State) (off : Nat) : Nat :=
  let ps := s.pins.toList
  match off with
  | 0x20 => boolNat s.allocHeld
  | 0x24 => maskOf (fun x => x.claimed.isSome) ps
  | 0x28 => maskOf (fun x => decide (x.level = .high)) ps
  | 0x2C => maskOf (fun x => x.failsafe) ps
  | 0x30 => maskOf (fun x => decide (x.level = .hiZ)) ps
  | _ => if off < 0x20 then quad (fun k => match ps[k]? with | some x => allocByte x | none => 0) off else 0

def readExp (e : Exp) (off : Nat) : Nat :=
  match off with
  | 0x00 => flag 0 e.run + flag 1 e.tailWb
  | 0x04 => expStatus e
  | 0x10 => e.pages
  | 0x14 => e.head.toNat
  | 0x18 => e.tail % 2 ^ 32
  | 0x24 => e.weight
  | 0x28 => e.holdoff
  | 0x2C => e.evdDrop
  | 0x30 => e.cenDrop
  | 0x34 => e.vrdDrop
  | 0x38 => storeUsed e
  | _ => 0

def readSpn (s : State) (q : SpanPort) (off : Nat) : Nat :=
  let x := getSpn s q
  match off with
  | 0x00 => spnStatus s q
  | 0x04 => spnEvents x
  | 0x18 => x.replays
  | 0x1C => x.fecCorr
  | 0x20 => x.fecUncorr
  | 0x24 => x.crcErr
  | 0x28 => twos 32 (offsetNow x (now s))
  | 0x2C => (match claimedPiece s q with | some y => y.position + 256 * y.units | none => 0)
  | _ => 0

/-! ### The defect-map and census windows (R40-R47, R469, R491) -/

/-- The 64 bytes of the header (R42). -/
def defHeader (m : DefMap) : List Byte :=
  let b := leBytes 4 0x4D464544 ++ leBytes 2 1 ++ leBytes 1 m.shipGrade ++ leBytes 1 m.grade ++ leBytes 4 m.usable ++
    leBytes 4 m.shipUsable ++ leBytes 4 m.tests ++ leBytes 4 m.newestSeq ++ leBytes 2 m.valid ++ leBytes 2 m.newestIdx ++
    leBytes 4 m.badNow ++ zeros 28
  b ++ leBytes 4 (crc32c b)

/-- The 8 bytes of a region entry (R44). -/
def regionBytes (e : RegionEntry) : List Byte :=
  leBytes 1 e.state ++ leBytes 1 e.adj ++ leBytes 1 e.events ++ zeros 1 ++ leBytes 4 e.retests

/-- The 32 bytes of a history record (R45). -/
def histBytes (h : HistRec) : List Byte :=
  let b := leBytes 4 h.seq ++ leBytes 4 h.powerOn ++ leBytes 8 h.time ++ leBytes 1 h.kind ++ leBytes 1 h.outcome ++ leBytes 3 h.scope ++
    zeros 1 ++ leBytes 2 h.newBad ++ leBytes 2 h.recovered ++ leBytes 2 h.bad
  b ++ leBytes 4 (crc32c b)

/-- Four bytes of a bitmap area, from its byte `i`: site `i / 512`, tile row and eight columns (R41). -/
def bitmapWord (tiles : List Nat) (i : Nat) : Nat :=
  maskOf (fun k => tiles.contains (8 * i + k)) (List.range 32)

/-- The word at an offset of the map (R40). -/
def defWord (m : DefMap) (off : Nat) : Nat :=
  if off < 0x40 then leAt (defHeader m) off 4
  else if off < 0x540 then leAt (siteBytes m.sites[Fin.ofNat 80 ((off - 0x40) / 16)]) ((off - 0x40) % 16) 4
  else if off < 0x5E0 then leAt (regionBytes m.regions[Fin.ofNat 20 ((off - 0x540) / 8)]) ((off - 0x540) % 8) 4
  else if off < 0x800 then 0
  else if off < 0xA800 then bitmapWord m.bad (off - 0x800)
  else if off < 0x14800 then bitmapWord m.everBad (off - 0xA800)
  else if off < 0x18000 then 0
  else if off < 0x28000 then
    match m.ring.lookup ((off - 0x18000) / 32) with
    | some h => leAt (histBytes h) ((off - 0x18000) % 32) 4
    | none => 0
  else 0

/-- The census of the partition that CEN_SEL selects. -/
def selCensus (s : State) : Census := (s.parts[Fin.ofNat 8 (field s.cenSel.toNat 2 0)]).census

/-- The word at an offset of the CEN window. -/
def cenWord (s : State) (off : Nat) : Nat :=
  leAt ((((selCensus s).records.drop (16 * field s.cenSel.toNat 11 8)).take 16).flatten) off 4

/-! ### Reads -/

/-- What a register that is no half of a pair reads as; an address that no register occupies reads 0 (R12). -/
def readPlain (s : State) (a : Nat) : Nat :=
  if a < 0x400 then readGlb s a
  else if a < 0x800 then readSup s (a - 0x400)
  else if a < 0x1000 then readTbs s (a - 0x800)
  else if a < 0x1400 then readPwr s (a - 0x1000)
  else match inGroup 0x1400 0x40 20 a with
  | some (n, off) => readRgn s (Fin.ofNat 20 n) off
  | none =>
  match inGroup 0x2000 0x200 8 a with
  | some (n, off) => readPrt s (Fin.ofNat 8 n) off
  | none =>
  match inGroup 0x3000 0x80 8 a with
  | some (n, off) => readBay s (Fin.ofNat 8 n) off
  | none =>
  match inGroup 0x3400 0x80 16 a with
  | some (n, off) => readImg s (Fin.ofNat 16 n) off
  | none =>
  match inGroup 0x3C00 0x100 8 a with
  | some (n, off) => readSnd s (Fin.ofNat 8 n) off
  | none =>
  match inGroup 0x4400 0x40 4 a with
  | some (n, off) => readEnc s (Fin.ofNat 4 n) off
  | none =>
  match inGroup 0x4800 0x80 8 a with
  | some (n, off) => readExp s.exps[Fin.ofNat 8 n] off
  | none =>
  match inGroup 0x4C00 0x100 2 a with
  | some (n, off) => readSpn s (spanAt n) off
  | none =>
  if 0x4500 ≤ a ∧ a < 0x4800 then readVrd s (a - 0x4500)
  else if a = 0x5000 then (match s.flt.entries with | e :: _ => e.seq | [] => 0)
  else if a = 0x5004 then s.flt.sel.toNat
  else if a = 0x5008 then s.flt.suppressed
  else if 0x5010 ≤ a ∧ a < 0x5030 then (s.flt.data[Fin.ofNat 8 ((a - 0x5010) / 4)]).toNat
  else if a = 0x5100 then s.defPage.toNat
  else if a = 0x5104 then s.cenSel.toNat
  else if a = 0x5108 then (selCensus s).lastId.getD 0xFFFFFFFF
  else if 0x6000 ≤ a ∧ a < 0x6200 then (s.glb.msix[Fin.ofNat 128 ((a - 0x6000) / 4)]).toNat
  else if a = 0x7000 then s.glb.pba.toNat
  else if 0x8000 ≤ a ∧ a < 0x10000 then defWord (curMap s) (32768 * s.defPage.toNat + (a - 0x8000))
  else if 0x10000 ≤ a ∧ a < 0x20000 then cenWord s (a - 0x10000)
  else 0

/-- The value of an aligned 32-bit read of BAR0: a LO register returns its half, a HI register the half latched by the latest read of
its LO register (R472). -/
def readReg (s : State) (a : Nat) : Word :=
  match pairAt s a with
  | some v => BitVec.ofNat 32 v
  | none =>
    if 4 ≤ a ∧ (pairAt s (a - 4)).isSome then (s.glb.hiLatch.lookup (a - 4)).getD 0
    else BitVec.ofNat 32 (readPlain s a)

/-- A read of a 32-bit register: a LO register latches the upper half; no other register is changed. -/
def readWord (s : State) (addr : Nat) : State :=
  let latch := match pairAt s addr with
    | some q => (addr, BitVec.ofNat 32 (q / 2 ^ 32)) :: s.glb.hiLatch.filter (fun x => x.1 ≠ addr)
    | none => s.glb.hiLatch
  { s with glb := { s.glb with readData := readReg s addr, hiLatch := latch } }

/-- The addressed bytes of a 32-bit register. -/
def partOf (v : Word) (addr bytes : Nat) : Word := BitVec.ofNat 32 (v.toNat / 256 ^ (addr % 4) % 256 ^ bytes)

/-- LO_REGISTER_READ of 4, 2 or 1 bytes: the narrow ones read the whole register and give the addressed bytes (R470). -/
def execLoRegisterRead (a : RegAccess) (s : State) : Host.Outcome State Fault Refusal :=
  whenUp s (if a.addr % a.bytes ≠ 0 then s
  else if a.bytes = 4 then readWord s a.addr
  else
    let s1 := readWord s (a.addr / 4 * 4)
    { s1 with glb := { s1.glb with readData := partOf s1.glb.readData a.addr a.bytes } })

/-! ### Writes (R9, R11, R471, R473) -/

/-- A write whose value has a bit outside `mask` is ignored. -/
def fitsMask (v : Word) (mask : Nat) : Bool := decide (Nat.land v.toNat mask = v.toNat)

/-- A flag after a W1C write of `v`. -/
def w1c (v : Word) (i : Nat) (b : Bool) : Bool := b && !v.getLsbD i

def writeSup (s : State) (off : Nat) (v : Word) : State :=
  let put := fun (mask : Nat) (t : Sup) => if fitsMask v mask then { s with sup := t } else s
  match off with
  | 0x010 => put 0x3F { s.sup with done := w1c v 2 s.sup.done, errSeq := w1c v 3 s.sup.errSeq, errSig := w1c v 4 s.sup.errSig,
                                   errRefused := w1c v 5 s.sup.errRefused }
  | 0x014 => put 0xFFF { s.sup with fwBlock := v }
  | 0x018 => if 1 ≤ v.toNat ∧ v.toNat ≤ 1048576 then { s with sup := { s.sup with fwLen := v } } else s
  | 0x01C => put 0x11F { s.sup with tsetSel := v }
  | 0x028 => put 0xFF { s.sup with saveSel := v }
  | 0x02C => put 0x103 { s.sup with rootSel := v }
  | _ =>
    if 0x300 ≤ off ∧ off < 0x400 ∧ off % 4 = 0 then
      let k : Fin 64 := Fin.ofNat 64 ((off - 0x300) / 4)
      { s with sup := { s.sup with fwBuf := s.sup.fwBuf.set k.val v k.isLt } }
    else s

def writePrt (s : State) (p : PartId) (off : Nat) (v : Word) : State :=
  let put := fun (mask : Nat) (f : PrtRegs → PrtRegs) => if fitsMask v mask then updPartRegs s p f else s
  match off with
  | 0x010 => put 0x3F (fun r => { r with
      applyErr := w1c v 0 r.applyErr, applyBusy := w1c v 1 r.applyBusy, applyDone := w1c v 2 r.applyDone, cmdErr := w1c v 3 r.cmdErr,
      stateChg := w1c v 4 r.stateChg, causeSet := w1c v 5 r.causeSet })
  | 0x014 => put 0x10F (fun r => { r with
      breachCause := r.breachCause &&& ~~~(v.setWidth 4), floorBreach := w1c v 8 r.floorBreach })
  | 0x068 => put 0x8FFF (fun r => { r with ldgSel := v })
  | 0x074 => if field v.toNat 9 8 = 3 then s else put 0x31F (fun r => { r with tdeclSel := v })
  | 0x080 => if fitsMask v 0xFFFF000F then updCensus s p (fun c => { c with err := w1c v 0 c.err, cancelled := w1c v 1 c.cancelled }) else s
  | 0x088 => put 0x10F (fun r => { r with epochSel := v })
  | 0x090 => put 0x1 (fun r => { r with imgSel := v })
  | _ => s

/-- Low or high half of a 64-bit register. -/
def setLow (q : BitVec 64) (v : Word) : BitVec 64 := BitVec.ofNat 64 (q.toNat / 2 ^ 32 * 2 ^ 32 + v.toNat)

def setHigh (q : BitVec 64) (v : Word) : BitVec 64 := BitVec.ofNat 64 (v.toNat * 2 ^ 32 + q.toNat % 2 ^ 32)

def writeExp (s : State) (p : PartId) (off : Nat) (v : Word) : State :=
  let e := s.exps[p]
  let put := fun (ok : Bool) (f : Exp → Exp) => if ok then updExp s p f else s
  match off with
  | 0x04 =>
    if fitsMask v 0xF then
      exportPump (updExp s p (fun e => { e with headErr := w1c v 0 e.headErr, cfgErr := w1c v 1 e.cfgErr,
                                                linkLost := w1c v 2 e.linkLost, ringFull := w1c v 3 e.ringFull }))
    else s
  | 0x08 => put (!e.run && decide (v.toNat % 4096 = 0)) (fun e => { e with base := setLow e.base v })
  | 0x0C => put (!e.run) (fun e => { e with base := setHigh e.base v })
  | 0x10 => put (!e.run && fitsMask v 0x1F) (fun e => { e with pages := v.toNat })
  | 0x1C => put (decide (v.toNat % 4 = 0)) (fun e => { e with tailPtr := setLow e.tailPtr v })
  | 0x20 => put true (fun e => { e with tailPtr := setHigh e.tailPtr v })
  | 0x24 => put (decide (1 ≤ v.toNat) && decide (v.toNat ≤ 16)) (fun e => { e with weight := v.toNat })
  | 0x28 => put (decide (v.toNat ≤ 1000)) (fun e => { e with holdoff := v.toNat })
  | _ => s

/-- A word of the MSI-X table; a vector that is no longer masked sends the message that waits (log entry 44). -/
def writeMsix (s : State) (k : Fin 128) (v : Word) : State :=
  let w : Word := if k.val % 4 = 0 then v &&& 0xFFFFFFFC else if k.val % 4 = 3 then v &&& 1 else v
  let g := { s.glb with msix := s.glb.msix.set k.val w k.isLt }
  let n : Fin 32 := Fin.ofNat 32 (k.val / 4)
  { s with glb := if g.pba.getLsbD n.val && !vectorMasked g n then sendVector g n else g }

/-- A write to a register without a command of its own, by its access type. RO registers, addresses that no register occupies and
registers with a command of their own change nothing here. -/
def writeReg (s : State) (a : Nat) (v : Word) : State :=
  if a = 0x020 then { s with glb := { s.glb with irq := s.glb.irq &&& ~~~v } }
  else if a = 0x024 then { s with glb := { s.glb with scratch := v } }
  else if 0x400 ≤ a ∧ a < 0x800 then writeSup s (a - 0x400) v
  else if a = 0x804 then
    (if fitsMask v 0x7F then { s with tbs := { s.tbs with lostEv := w1c v 3 s.tbs.lostEv, backEv := w1c v 4 s.tbs.backEv } } else s)
  else if a = 0x100C then
    (if fitsMask v 0x11F then { s with pwr := { s.pwr with policyErr := w1c v 8 s.pwr.policyErr } } else s)
  else if a = 0x4520 then (if fitsMask v 1 then { s with allocHeld := w1c v 0 s.allocHeld } else s)
  else if a = 0x5100 then (if v.toNat ≤ 4 then { s with defPage := v } else s)
  else if a = 0x5104 then (if fitsMask v 0xF07 then { s with cenSel := v } else s)
  else if 0x6000 ≤ a ∧ a < 0x6200 then writeMsix s (Fin.ofNat 128 ((a - 0x6000) / 4)) v
  else match inGroup 0x2000 0x200 8 a with
  | some (n, off) => writePrt s (Fin.ofNat 8 n) off v
  | none =>
  match inGroup 0x4400 0x40 4 a with
  | some (n, off) =>
    if off = 0x08 ∧ fitsMask v 0x1F then updEnc s (Fin.ofNat 4 n) (fun x => { x with busy := w1c v 0 x.busy }) else s
  | none =>
  match inGroup 0x4800 0x80 8 a with
  | some (n, off) => writeExp s (Fin.ofNat 8 n) off v
  | none =>
  match inGroup 0x4C00 0x100 2 a with
  | some (n, off) =>
    if off = 0x04 ∧ fitsMask v 3 then
      updSpn s (spanAt n) (fun x => { x with lostEv := w1c v 0 x.lostEv, serialEv := w1c v 1 x.serialEv })
    else s
  | none => s

/-- REGISTER_WRITE: a write narrower than 32 bits, or an unaligned access, is ignored (R470). -/
def execRegisterWrite (a : RegAccess) (v : Word) (s : State) : Host.Outcome State Fault Refusal :=
  whenUp s (if a.bytes = 4 ∧ a.addr % 4 = 0 then writeReg s a.addr v else s)

end Sys2Proof.Machine
end

