-- ==== Sys2Proof/Machine/Timebase.lean ====
section
/-! DEFINITION. The Phlox timebase: lock, loss and return of the reference, the source (R66-R72, R480), and the passing of time
while no command waits. -/

namespace Sys2Proof.Machine

/-- One oscillator period: the timestamp counts once the mesh has locked (R69). The step idles by it (log entry 3). -/
def tick (s : State) : State :=
  if isUp s && s.tbs.everLocked then { s with tbs := { s.tbs with time := s.tbs.time + 1 } } else s

/-- A loss of the reference in use: holdover, the event bit, the count, the fault (R70). -/
def loseReference (s : State) : State :=
  if s.tbs.refPresent then
    logIrq { s with tbs := { s.tbs with locked := false, holdover := true, refPresent := false, slewing := false,
                                        lostEv := true, losses := satInc s.tbs.losses } } 0x0005 0 0 0 false 19
  else s

/-- MESH_LOCK: at the end of the slew after an accepted reference the mesh declares lock (R68, R71). -/
def execMeshLock (s : State) : Host.Outcome State Fault Refusal :=
  whenUp s (if s.tbs.refPresent && !s.tbs.locked then
    { s with tbs := { s.tbs with locked := true, holdover := false, slewing := false, everLocked := true } }
  else s)

/-- REFERENCE_LOST. -/
def execReferenceLost (s : State) : Host.Outcome State Fault Refusal := whenUp s (loseReference s)

/-- REFERENCE_BACK: 1 ms of edges within 100 ppm of nominal; the slew begins and HOLDOVER stays (R71). -/
def execReferenceBack (ppb : Int) (s : State) : Host.Outcome State Fault Refusal :=
  whenUp s (if !s.tbs.refPresent && decide (ppb.natAbs ≤ 100000) then
    logIrq { s with tbs := { s.tbs with refPresent := true, slewing := true, backEv := true, refPpb := ppb,
                                        srcInUse := s.tbs.src } } 0x0006 0 0 0 false 19
  else s)

/-- TBS_SRC_WRITE: a new source is a loss of the old one; the new one arrives by REFERENCE_BACK. The source already selected, a
reserved value or a reserved bit changes nothing (R471, R480). -/
def execTbsSrcWrite (v : Word) (s : State) : Host.Outcome State Fault Refusal :=
  whenUp s (if v.toNat < 3 ∧ v.toNat ≠ s.tbs.src.val then
    loseReference { s with tbs := { s.tbs with src := Fin.ofNat 3 v.toNat } }
  else s)

end Sys2Proof.Machine
end

