-- ==== Sys2Proof/Machine/Dispatch.lean ====
section
/-! DEFINITION. The dispatch: one arm per command, each a direct call of its meaning. -/

namespace Sys2Proof.Machine

/-- What a command does to everything but the queue. -/
def exec (i : Instr) (s : State) : Host.Outcome State Fault Refusal :=
  match i with
  | .unitPowerUp e => Sys2Proof.Machine.execUnitPowerUp e s
  | .healthCheck stepsDone watchdogServiced => Sys2Proof.Machine.execHealthCheck stepsDone watchdogServiced s
  | .watchdog => Sys2Proof.Machine.execWatchdog s
  | .meshLock => Sys2Proof.Machine.execMeshLock s
  | .referenceLost => Sys2Proof.Machine.execReferenceLost s
  | .referenceBack ppb => Sys2Proof.Machine.execReferenceBack ppb s
  | .tbsSrcWrite v => Sys2Proof.Machine.execTbsSrcWrite v s
  | .tileStep t o => Sys2Proof.Machine.execTileStep t o s
  | .flitReceived t port wires ecc => Sys2Proof.Machine.execFlitReceived t port wires ecc s
  | .creditFlitReceived t d wires => Sys2Proof.Machine.execCreditFlitReceived t d wires s
  | .contextSwitch p failedGroup => Sys2Proof.Machine.execContextSwitch p failedGroup s
  | .backgroundScrub t o => Sys2Proof.Machine.execBackgroundScrub t o s
  | .stallDetectorTick p => Sys2Proof.Machine.execStallDetectorTick p s
  | .detectionWindowExpiry p cycle => Sys2Proof.Machine.execDetectionWindowExpiry p cycle s
  | .stallSample => Sys2Proof.Machine.execStallSample s
  | .progressWatchdog p => Sys2Proof.Machine.execProgressWatchdog p s
  | .verdictRelease p => Sys2Proof.Machine.execVerdictRelease p s
  | .pinPulseEnd pin => Sys2Proof.Machine.execPinPulseEnd pin s
  | .presenceDebounceEnd b => Sys2Proof.Machine.execPresenceDebounceEnd b s
  | .bayPowerGood b o => Sys2Proof.Machine.execBayPowerGood b o s
  | .perstRelease b width gen => Sys2Proof.Machine.execPerstRelease b width gen s
  | .nvmeReady b o => Sys2Proof.Machine.execNvmeReady b o s
  | .loadHandover b o => Sys2Proof.Machine.execLoadHandover b o s
  | .nvmeCommandCompletion c ok => Sys2Proof.Machine.execNvmeCommandCompletion c ok s
  | .nvmeCommandTimeout c => Sys2Proof.Machine.execNvmeCommandTimeout c s
  | .removed b => Sys2Proof.Machine.execRemoved b s
  | .overcurrent b => Sys2Proof.Machine.execOvercurrent b s
  | .poweredHour b => Sys2Proof.Machine.execPoweredHour b s
  | .smartReadPeriod b critical used => Sys2Proof.Machine.execSmartReadPeriod b critical used s
  | .periodicLifeRecord b => Sys2Proof.Machine.execPeriodicLifeRecord b s
  | .reload p o => Sys2Proof.Machine.execReload p o s
  | .unload p => Sys2Proof.Machine.execUnload p s
  | .queuedRequestStart p o => Sys2Proof.Machine.execQueuedRequestStart p o s
  | .autoReload p o => Sys2Proof.Machine.execAutoReload p o s
  | .placementRetry p => Sys2Proof.Machine.execPlacementRetry p s
  | .loadLaneGranted p => Sys2Proof.Machine.execLoadLaneGranted p s
  | .preLoadScrubDone p failed => Sys2Proof.Machine.execPreLoadScrubDone p failed s
  | .chunkDecrypted p cipher tag => Sys2Proof.Machine.execChunkDecrypted p cipher tag s
  | .loadRecord p readsBack collided => Sys2Proof.Machine.execLoadRecord p readsBack collided s
  | .endOfStreamChecks p refused => Sys2Proof.Machine.execEndOfStreamChecks p refused s
  | .lupinStageAck p failedGroup => Sys2Proof.Machine.execLupinStageAck p failedGroup s
  | .releaseFailed p => Sys2Proof.Machine.execReleaseFailed p s
  | .drainComplete p => Sys2Proof.Machine.execDrainComplete p s
  | .unloadScrubDone p failed => Sys2Proof.Machine.execUnloadScrubDone p failed s
  | .postCommitScrubDone o => Sys2Proof.Machine.execPostCommitScrubDone o s
  | .spanTimeout p => Sys2Proof.Machine.execSpanTimeout p s
  | .apply p v => Sys2Proof.Machine.execApply p v s
  | .prtTunWrite p n v => Sys2Proof.Machine.execPrtTunWrite p n v s
  | .rgnTest r v => Sys2Proof.Machine.execRgnTest r v s
  | .inFieldRetestDone r f aborted => Sys2Proof.Machine.execInFieldRetestDone r f aborted s
  | .rateLoopTick busy => Sys2Proof.Machine.execRateLoopTick busy s
  | .currentCeilingTick amps => Sys2Proof.Machine.execCurrentCeilingTick amps s
  | .throttleTick temps => Sys2Proof.Machine.execThrottleTick temps s
  | .heatShed r reading => Sys2Proof.Machine.execHeatShed r reading s
  | .heatShedRecheck r hottest => Sys2Proof.Machine.execHeatShedRecheck r hottest s
  | .policyWrite item v => Sys2Proof.Machine.execPolicyWrite item v s
  | .policyEpoch => Sys2Proof.Machine.execPolicyEpoch s
  | .capLoopTick watts => Sys2Proof.Machine.execCapLoopTick watts s
  | .short r => Sys2Proof.Machine.execShort r s
  | .supplySag overvoltage o => Sys2Proof.Machine.execSupplySag overvoltage o s
  | .reservoirExhausted => Sys2Proof.Machine.execReservoirExhausted s
  | .inputOutOfRange decivolts => Sys2Proof.Machine.execInputOutOfRange decivolts s
  | .coolingMeasurement inlet outlet flow glycol => Sys2Proof.Machine.execCoolingMeasurement inlet outlet flow glycol s
  | .cxpBringupComplete c o => Sys2Proof.Machine.execCxpBringupComplete c o s
  | .cxpBringupFailed c cause => Sys2Proof.Machine.execCxpBringupFailed c cause s
  | .encoderCount e m => Sys2Proof.Machine.execEncoderCount e m s
  | .encoderZEdge e => Sys2Proof.Machine.execEncoderZEdge e s
  | .encoderOpen e sig isOpen => Sys2Proof.Machine.execEncoderOpen e sig isOpen s
  | .encConfigWrite e r v => Sys2Proof.Machine.execEncConfigWrite e r v s
  | .cxpLineReceived c pixels crcOk start => Sys2Proof.Machine.execCxpLineReceived c pixels crcOk start s
  | .cxpImageHeader c format width bayer => Sys2Proof.Machine.execCxpImageHeader c format width bayer s
  | .imgEvent c id data => Sys2Proof.Machine.execImgEvent c id data s
  | .linkDown c => Sys2Proof.Machine.execLinkDown c s
  | .reconnectionAttempt c reads => Sys2Proof.Machine.execReconnectionAttempt c reads s
  | .dcPresent c on => Sys2Proof.Machine.execDcPresent c on s
  | .soundFrame port slots sync milliHz => Sys2Proof.Machine.execSoundFrame port slots sync milliHz s
  | .clockLost port => Sys2Proof.Machine.execClockLost port s
  | .clockReturn port => Sys2Proof.Machine.execClockReturn port s
  | .clockMismatch port mismatch => Sys2Proof.Machine.execClockMismatch port mismatch s
  | .asrcLock port => Sys2Proof.Machine.execAsrcLock port s
  | .soundStartT0 p => Sys2Proof.Machine.execSoundStartT0 p s
  | .soundBlockDelivered port => Sys2Proof.Machine.execSoundBlockDelivered port s
  | .outputPlayCheck port => Sys2Proof.Machine.execOutputPlayCheck port s
  | .soundStop port => Sys2Proof.Machine.execSoundStop port s
  | .pageFlush p => Sys2Proof.Machine.execPageFlush p s
  | .verdictCreditRefill => Sys2Proof.Machine.execVerdictCreditRefill s
  | .pageDelivered p => Sys2Proof.Machine.execPageDelivered p s
  | .irqHoldoffEnd p => Sys2Proof.Machine.execIrqHoldoffEnd p s
  | .expCtrlWrite p v => Sys2Proof.Machine.execExpCtrlWrite p v s
  | .expHeadWrite p v => Sys2Proof.Machine.execExpHeadWrite p v s
  | .hostLinkDown => Sys2Proof.Machine.execHostLinkDown s
  | .evidenceCropReceived p flits => Sys2Proof.Machine.execEvidenceCropReceived p flits s
  | .evidenceMatchTimeout p => Sys2Proof.Machine.execEvidenceMatchTimeout p s
  | .vrdAllocWrite n v => Sys2Proof.Machine.execVrdAllocWrite n v s
  | .spanLinkUp port => Sys2Proof.Machine.execSpanLinkUp port s
  | .spanDataFrame port frame fecOk => Sys2Proof.Machine.execSpanDataFrame port frame fecOk s
  | .spanIdleFrame port frame => Sys2Proof.Machine.execSpanIdleFrame port frame s
  | .spanDescriptorFrame port frame fecOk => Sys2Proof.Machine.execSpanDescriptorFrame port frame fecOk s
  | .hello port serial => Sys2Proof.Machine.execHello port serial s
  | .ready port position units dready spanId => Sys2Proof.Machine.execReady port position units dready spanId s
  | .go port spanId => Sys2Proof.Machine.execGo port spanId s
  | .abort port cause spanId => Sys2Proof.Machine.execAbort port cause spanId s
  | .leave port spanId => Sys2Proof.Machine.execLeave port spanId s
  | .time port dLast tTx => Sys2Proof.Machine.execTime port dLast tTx s
  | .spanHelloPeriod port => Sys2Proof.Machine.execSpanHelloPeriod port s
  | .spanReadyPeriod p => Sys2Proof.Machine.execSpanReadyPeriod p s
  | .spanTimePeriod port => Sys2Proof.Machine.execSpanTimePeriod port s
  | .spanLost port why => Sys2Proof.Machine.execSpanLost port why s
  | .censusRequest p v => Sys2Proof.Machine.execCensusRequest p v s
  | .censusPeriodWrite p v => Sys2Proof.Machine.execCensusPeriodWrite p v s
  | .censusTick p => Sys2Proof.Machine.execCensusTick p s
  | .censusCollected p => Sys2Proof.Machine.execCensusCollected p s
  | .fltSelWrite v => Sys2Proof.Machine.execFltSelWrite v s
  | .loRegisterRead a => Sys2Proof.Machine.execLoRegisterRead a s
  | .fwOpen => Sys2Proof.Machine.execFwOpen s
  | .fwWrite => Sys2Proof.Machine.execFwWrite s
  | .fwClose => Sys2Proof.Machine.execFwClose s
  | .fwActivate slotB => Sys2Proof.Machine.execFwActivate slotB s
  | .registerWrite a v => Sys2Proof.Machine.execRegisterWrite a v s
  | .presenceAsserted b => Sys2Proof.Machine.execPresenceAsserted b s
  | .fwCommandDone verified info => Sys2Proof.Machine.execFwCommandDone verified info s
  | .reservoirCharged reached => Sys2Proof.Machine.execReservoirCharged reached s
  | .hostLinkUp gen width => Sys2Proof.Machine.execHostLinkUp gen width s
  | .heartbeat c => Sys2Proof.Machine.execHeartbeat c s
  | .unsupportedPacket c => Sys2Proof.Machine.execUnsupportedPacket c s

end Sys2Proof.Machine
end

