-- ==== Sys2Proof/Safety.lean ====
section
/-! DEFINITION. What a safe state is, and the frames that claims speak of: the stores keep their one form, every region supply
keeps to its range (R425), the fault log numbers its entries (R455-R457), vectors 22-31 stay silent (R383), no entry site serves
more than two loads (R75). -/

namespace Sys2Proof.Machine

/-! ### The invariant -/

/-- Block memory and the tile table stand in their one form: rising keys, nothing at its default listed. -/
def storeOk (s : State) : Prop := Memory.wf s.mem = true ∧ tabWf ({} : Tile) s.tiles = true

/-- A region's VDD lies in 0.60-0.85 V while its supply is on and is 0 while it is off; its throttle ceiling is at most 0.85 V
(R425, R427). -/
def regionOk (g : Region) : Prop :=
  g.throttleCeil ≤ 850 ∧ (g.supplyOn = true → 600 ≤ g.vdd ∧ g.vdd ≤ 850) ∧ (g.supplyOn = false → g.vdd = 0)

def suppliesOk (s : State) : Prop := ∀ r : RegionId, regionOk s.regions[r]

/-- The log holds at most 4,096 entries, newest first, whose SEQs run without a gap up to the next one's (R455, R456). -/
def logOk (f : FaultLog) : Prop :=
  f.entries.length ≤ 4096 ∧ ∀ (i : Nat) (h : i < f.entries.length), (f.entries[i]).seq + i + 1 = f.nextSeq

/-- Vectors 22-31 are never signalled: no message, no bit of GLB_IRQ, none pending (R383). -/
def vectorsOk (g : Glb) : Prop :=
  ∀ v : Fin 32, 22 ≤ v.val → g.vectors[v] = 0 ∧ g.irq.getLsbD v.val = false ∧ g.pba.getLsbD v.val = false

/-- At most two loads hold lanes at an entry site (R75). -/
def lanesOk (w : Wafer) : Prop := ∀ e : Fin 4, w.lanesHeld[e] ≤ 2

/-- The invariant that every step keeps. -/
structure Inv (s : State) : Prop where
  store : storeOk s
  supplies : suppliesOk s
  log : logOk s.flt
  vectors : vectorsOk s.glb
  lanes : lanesOk s.wafer

/-! ### Frames -/

/-- The unit's identity, status and link, without what is signalled. -/
def Glb.quiet (g : Glb) : Glb := { g with irq := 0, vectors := Vector.replicate 32 0, pba := 0 }

/-- The fields of `State`; the identity of the unit apart from what is signalled, the fault log apart from its view. -/
inductive Fld where
  | pending | glb | signals | sup | nv | tbs | wafer | pwr | regions | parts | bays | imgs | snds | encs | pins | allocHeld | exps | arbLast
  | spa | spb | flt | fltView | defPage | cenSel | tiles | mem | freeCount
deriving DecidableEq, Repr

/-- A field stands alike in two states. -/
def Fld.same : Fld → State → State → Prop
  | .pending, s, t => t.pending = s.pending
  | .glb, s, t => t.glb.quiet = s.glb.quiet
  | .signals, s, t => t.glb.irq = s.glb.irq ∧ t.glb.vectors = s.glb.vectors ∧ t.glb.pba = s.glb.pba
  | .sup, s, t => t.sup = s.sup
  | .nv, s, t => t.nv = s.nv
  | .tbs, s, t => t.tbs = s.tbs
  | .wafer, s, t => t.wafer = s.wafer
  | .pwr, s, t => t.pwr = s.pwr
  | .regions, s, t => t.regions = s.regions
  | .parts, s, t => t.parts = s.parts
  | .bays, s, t => t.bays = s.bays
  | .imgs, s, t => t.imgs = s.imgs
  | .snds, s, t => t.snds = s.snds
  | .encs, s, t => t.encs = s.encs
  | .pins, s, t => t.pins = s.pins
  | .allocHeld, s, t => t.allocHeld = s.allocHeld
  | .exps, s, t => t.exps = s.exps
  | .arbLast, s, t => t.arbLast = s.arbLast
  | .spa, s, t => t.spa = s.spa
  | .spb, s, t => t.spb = s.spb
  | .flt, s, t => t.flt.entries = s.flt.entries ∧ t.flt.nextSeq = s.flt.nextSeq ∧ t.flt.suppressed = s.flt.suppressed
  | .fltView, s, t => t.flt.sel = s.flt.sel ∧ t.flt.data = s.flt.data
  | .defPage, s, t => t.defPage = s.defPage
  | .cenSel, s, t => t.cenSel = s.cenSel
  | .tiles, s, t => t.tiles = s.tiles
  | .mem, s, t => t.mem = s.mem
  | .freeCount, s, t => t.freeCount = s.freeCount

/-- Only the fields of `l` may differ. -/
def Touch (l : List Fld) (s t : State) : Prop := ∀ f : Fld, f ∉ l → f.same s t


/-- The fields of the state that a command may change. -/
def mayTouch : Instr → List Fld
  | .unitPowerUp _
      => [.glb, .signals, .sup, .nv, .tbs, .wafer, .pwr, .regions, .parts, .bays, .imgs, .snds, .encs, .pins,
          .allocHeld, .exps, .arbLast, .spa, .spb, .flt, .fltView, .defPage, .cenSel, .tiles, .mem]
  | .healthCheck _ _
      => [.glb, .signals, .sup, .regions, .pins, .flt, .tiles, .mem]
  | .watchdog
      => [.glb, .sup, .regions, .pins, .tiles, .mem]
  | .meshLock
      => [.tbs]
  | .referenceLost | .referenceBack _ | .tbsSrcWrite _
      => [.signals, .tbs, .flt]
  | .tileStep _ _ | .contextSwitch _ _ | .backgroundScrub _ _ | .unload _ | .lupinStageAck _ _ | .heatShed _ _
   | .short _ | .cxpBringupFailed _ _ | .cxpImageHeader _ _ _ _ | .flitReceived _ _ _ _ | .cxpBringupComplete _ _
      => [.signals, .wafer, .regions, .parts, .imgs, .snds, .pins, .exps, .arbLast, .spa, .spb, .flt, .tiles, .mem]
  | .creditFlitReceived _ _ _ | .detectionWindowExpiry _ _
      => [.regions, .parts, .spa, .tiles, .mem]
  | .stallDetectorTick _ | .prtTunWrite _ _ _ | .censusRequest _ _ | .censusPeriodWrite _ _
      => [.parts]
  | .stallSample
      => [.tiles]
  | .progressWatchdog _ | .releaseFailed _ | .spanTimeout _ | .abort _ _ _
      => [.signals, .wafer, .regions, .parts, .imgs, .snds, .pins, .exps, .arbLast, .spa, .spb, .flt, .tiles]
  | .verdictRelease _
      => [.parts, .pins, .exps, .arbLast, .spa]
  | .pinPulseEnd _
      => [.pins]
  | .presenceDebounceEnd _ | .perstRelease _ _ _ | .poweredHour _ | .presenceAsserted _
      => [.bays]
  | .bayPowerGood _ _
      => [.signals, .nv, .bays, .flt]
  | .nvmeReady _ _ | .nvmeCommandCompletion _ _ | .nvmeCommandTimeout _
      => [.signals, .wafer, .regions, .parts, .bays, .imgs, .snds, .pins, .spa, .spb, .flt, .tiles, .mem]
  | .loadHandover _ _ | .removed _ | .reload _ _ | .queuedRequestStart _ _ | .autoReload _ _ | .placementRetry _
   | .preLoadScrubDone _ _ | .chunkDecrypted _ _ _ | .loadRecord _ _ _ | .endOfStreamChecks _ _ | .unloadScrubDone _ _
      => [.signals, .wafer, .regions, .parts, .bays, .imgs, .snds, .pins, .exps, .arbLast, .spa, .spb, .flt, .tiles, .mem]
  | .overcurrent _
      => [.signals, .bays, .flt]
  | .smartReadPeriod _ _ _ | .periodicLifeRecord _
      => [.signals, .bays]
  | .loadLaneGranted _
      => [.wafer, .parts, .imgs, .snds]
  | .drainComplete _
      => [.glb, .signals, .sup, .nv, .regions, .parts, .imgs, .snds, .pins, .exps, .arbLast, .spa, .spb, .flt, .tiles, .mem]
  | .postCommitScrubDone _
      => [.signals, .wafer, .regions, .parts, .imgs, .snds, .pins, .flt, .tiles, .mem]
  | .apply _ _
      => [.signals, .parts]
  | .rgnTest _ _
      => [.regions, .tiles]
  | .currentCeilingTick _
      => [.regions]
  | .inFieldRetestDone _ _ _
      => [.signals, .wafer, .regions, .flt, .tiles, .mem]
  | .rateLoopTick _
      => [.signals, .regions, .parts, .flt]
  | .throttleTick _
      => [.signals, .regions, .flt]
  | .heatShedRecheck _ _
      => [.wafer, .regions, .flt, .tiles]
  | .policyWrite _ _
      => [.pwr, .parts]
  | .policyEpoch
      => [.pwr, .regions, .parts]
  | .capLoopTick _
      => [.signals, .pwr, .regions, .parts, .flt]
  | .supplySag _ _
      => [.glb, .nv, .wafer, .regions, .bays, .imgs, .snds, .pins, .exps, .spa, .spb, .flt, .tiles, .mem]
  | .reservoirExhausted
      => [.glb, .pins]
  | .inputOutOfRange _ | .coolingMeasurement _ _ _ _
      => [.signals, .pwr, .flt]
  | .encoderCount _ _
      => [.regions, .parts, .imgs, .encs, .exps, .arbLast, .spa, .spb, .tiles, .mem]
  | .encoderZEdge _
      => [.encs]
  | .encoderOpen _ _ _
      => [.signals, .encs, .flt]
  | .encConfigWrite _ _ _
      => [.signals, .encs]
  | .cxpLineReceived _ _ _ _
      => [.regions, .parts, .imgs, .exps, .arbLast, .spa, .spb, .tiles, .mem]
  | .imgEvent _ _ _ | .linkDown _ | .dcPresent _ _
      => [.imgs, .flt]
  | .reconnectionAttempt _ _ | .heartbeat _ | .unsupportedPacket _
      => [.imgs]
  | .soundFrame _ _ _ _
      => [.parts, .snds, .exps, .arbLast, .flt, .freeCount]
  | .clockLost _ | .clockMismatch _ _
      => [.snds, .flt]
  | .clockReturn _ | .asrcLock _ | .soundStartT0 _ | .soundStop _
      => [.snds]
  | .soundBlockDelivered _
      => [.regions, .parts, .snds, .exps, .arbLast, .spa, .spb, .tiles, .mem]
  | .outputPlayCheck _
      => [.snds, .freeCount]
  | .pageFlush _ | .verdictCreditRefill | .expHeadWrite _ _ | .evidenceCropReceived _ _
      => [.exps, .arbLast]
  | .pageDelivered _ | .expCtrlWrite _ _
      => [.signals, .exps, .arbLast]
  | .irqHoldoffEnd _
      => [.signals, .exps]
  | .hostLinkDown
      => [.glb, .signals, .exps, .flt]
  | .evidenceMatchTimeout _
      => [.exps]
  | .vrdAllocWrite _ _
      => [.signals, .pins, .allocHeld]
  | .spanLinkUp _ | .spanIdleFrame _ _ | .time _ _ _ | .spanHelloPeriod _ | .spanReadyPeriod _ | .spanTimePeriod _
      => [.spa, .spb]
  | .spanDataFrame _ _ _
      => [.regions, .parts, .spa, .spb, .tiles, .mem]
  | .spanDescriptorFrame _ _ _
      => [.parts, .spa, .spb]
  | .hello _ _ | .spanLost _ _
      => [.glb, .signals, .sup, .nv, .wafer, .regions, .parts, .imgs, .snds, .pins, .exps, .arbLast, .spa, .spb, .flt, .tiles, .mem]
  | .ready _ _ _ _ _ | .go _ _ | .leave _ _
      => [.signals, .parts, .exps, .arbLast, .spa, .spb]
  | .censusTick _
      => [.parts, .tiles]
  | .censusCollected _
      => [.parts, .exps, .arbLast]
  | .fltSelWrite _
      => [.fltView]
  | .loRegisterRead _ | .hostLinkUp _ _
      => [.glb]
  | .fwOpen
      => [.signals, .sup]
  | .fwWrite | .fwClose
      => [.sup]
  | .fwActivate _ | .fwCommandDone _ _
      => [.glb, .signals, .sup, .nv, .regions, .parts, .pins, .exps, .arbLast, .spa, .spb, .tiles, .mem]
  | .registerWrite _ _
      => [.glb, .signals, .sup, .tbs, .pwr, .parts, .encs, .allocHeld, .exps, .arbLast, .spa, .spb, .defPage, .cenSel]
  | .reservoirCharged _
      => [.signals, .pwr, .parts, .exps, .arbLast, .spa, .spb, .flt]

/-- The partitions, and the bays of the same number, that a command may change: for a command to one of them, that one. -/
def mayReach : Instr → List PartId
  | .contextSwitch p _ | .stallDetectorTick p | .progressWatchdog p | .verdictRelease p | .presenceDebounceEnd p
   | .bayPowerGood p _ | .perstRelease p _ _ | .nvmeReady p _ | .loadHandover p _ | .removed p | .overcurrent p | .poweredHour p | .smartReadPeriod p _ _
   | .periodicLifeRecord p | .reload p _ | .unload p | .queuedRequestStart p _ | .autoReload p _ | .placementRetry p
   | .loadLaneGranted p | .preLoadScrubDone p _ | .chunkDecrypted p _ _ | .loadRecord p _ _ | .endOfStreamChecks p _
   | .lupinStageAck p _ | .releaseFailed p | .drainComplete p | .unloadScrubDone p _
   | .spanTimeout p | .apply p _ | .prtTunWrite p _ _ | .censusRequest p _ | .censusPeriodWrite p _ | .censusTick p
   | .censusCollected p | .presenceAsserted p
      => [p]
  | .nvmeCommandCompletion c _ | .nvmeCommandTimeout c => [c.bay]
  | .postCommitScrubDone o => [o.part]
  | .healthCheck _ _ | .watchdog | .meshLock | .referenceLost | .referenceBack _ | .tbsSrcWrite _ | .stallSample
   | .pinPulseEnd _ | .rgnTest _ _ | .inFieldRetestDone _ _ _ | .currentCeilingTick _ | .throttleTick _
   | .heatShedRecheck _ _ | .reservoirExhausted | .inputOutOfRange _ | .coolingMeasurement _ _ _ _ | .encoderZEdge _
   | .encoderOpen _ _ _ | .encConfigWrite _ _ _ | .imgEvent _ _ _ | .linkDown _ | .reconnectionAttempt _ _
   | .dcPresent _ _ | .clockLost _ | .clockReturn _ | .clockMismatch _ _ | .asrcLock _ | .soundStartT0 _
   | .outputPlayCheck _ | .soundStop _ | .pageFlush _ | .verdictCreditRefill | .pageDelivered _ | .irqHoldoffEnd _
   | .expCtrlWrite _ _ | .expHeadWrite _ _ | .hostLinkDown | .evidenceCropReceived _ _ | .evidenceMatchTimeout _
   | .vrdAllocWrite _ _ | .spanLinkUp _ | .spanIdleFrame _ _ | .time _ _ _ | .spanHelloPeriod _ | .spanReadyPeriod _
   | .spanTimePeriod _ | .fltSelWrite _ | .loRegisterRead _ | .fwOpen | .fwWrite | .fwClose | .hostLinkUp _ _
   | .heartbeat _ | .unsupportedPacket _
      => []
  | .soundFrame _ _ _ _ | .unitPowerUp _ | .tileStep _ _ | .flitReceived _ _ _ _ | .creditFlitReceived _ _ _
   | .backgroundScrub _ _ | .detectionWindowExpiry _ _ | .rateLoopTick _ | .heatShed _ _ | .policyWrite _ _
   | .policyEpoch | .capLoopTick _ | .short _ | .supplySag _ _ | .cxpBringupComplete _ _ | .cxpBringupFailed _ _
   | .encoderCount _ _ | .cxpLineReceived _ _ _ _ | .cxpImageHeader _ _ _ _ | .soundBlockDelivered _
   | .spanDataFrame _ _ _ | .spanDescriptorFrame _ _ _ | .hello _ _ | .ready _ _ _ _ _ | .go _ _ | .abort _ _ _
   | .leave _ _ | .spanLost _ _ | .fwActivate _ | .registerWrite _ _ | .fwCommandDone _ _ | .reservoirCharged _
      => allParts

/-- An event is logged and its vector signalled: the log and what is signalled stand as `logEvent` and `irq` leave them (R383, R455). -/
def reports (s t : State) (code index d0 d1 : Nat) (e : Bool) (v : Fin 32) : Prop :=
  t.flt = (logEvent s code index d0 d1 e).flt ∧ t.glb = (irq s v).glb

/-- A ring's instance without what the export arbiter changes: page numbers, the write under way, credits, RING_FULL (R214, R388). -/
def Exp.settled (e : Exp) : Exp :=
  { e with
    closed := e.closed.map (fun pg => { pg with seq := none }), writing := false, ringWrite := none, credits := 0, served := 0,
    ringFull := false }

/-- A port has framed a control message next: a frame of 64 bytes under the next SEQ carries it first, kept until acknowledged
(R410, R412, R414). -/
def framesNext (x y : Spn) (m : List Byte) : Prop :=
  ∃ f rest, y.unacked = x.unacked ++ (x.txNext, f) :: rest ∧ f.length = 64 ∧ leAt f 2 2 = x.txNext % 65536 ∧ (f.drop 8).take 16 = m

/-- The wafer is shed: every converter off, every boundary gate closed, every tile and byte of block memory at its scrubbed value. -/
def waferShed (t : State) : Prop :=
  (∀ r : RegionId, t.regions[r].supplyOn = false ∧ t.regions[r].vdd = 0 ∧ t.regions[r].gates = Vector.replicate 4 false) ∧
  t.tiles = [] ∧ t.mem = []

/-- Every claimed pin stands at its fail-safe level. -/
def claimedPinsFailSafe (s t : State) : Prop :=
  ∀ n : PinId, t.pins[n] = if s.pins[n].claimed.isSome then pinFailSafe s.pins[n] else s.pins[n]

/-- Tiles keep all but what their links carry and the link errors counted there. -/
def onlyLinks (s t : State) : Prop :=
  ∀ k : Nat, { getTile t k with
    driven := (getTile s k).driven
    counters := { (getTile t k).counters with linkErr := (getTile s k).counters.linkErr } } = getTile s k

/-- A partition stands in a fault state with its cause: nothing of it runs or loads, no window is left (R448-R451). -/
def standsInFault (t : State) (p : PartId) (st : PState) (code : Nat) : Prop :=
  t.parts[p].state = st ∧ t.parts[p].regs.cause = code % 256 ∧ t.parts[p].active = none ∧ t.parts[p].load = none ∧
  t.parts[p].flow.inputOpen = false ∧ t.parts[p].flow.windows = [] ∧ t.parts[p].flow.tokens = [] ∧ t.parts[p].flow.drain = none

/-- A partition drains, and its inputs accept no window (R301). -/
def drains (t : State) (p : PartId) (why : DrainWhy) : Prop :=
  t.parts[p].state = .draining ∧ t.parts[p].flow.drain = some why ∧ t.parts[p].flow.inputOpen = false

/-- The tiles and the block memory of a region stand at their scrubbed values (R211). -/
def regionScrubbed (t : State) (r : RegionId) : Prop :=
  (∀ k : Nat, tileRegion k = r → getTile t k = {}) ∧ (∀ a : Nat, tileRegion (a / 16384) = r → Memory.read t.mem a = 0)

end Sys2Proof.Machine
end

