-- ==== Sys2Proof/Certificates/Slice0/Obligations.lean ====
section
/-! DEFINITION. The statements for the provers. Each is named for what it says; where one rests on a choice of the model, its docstring
says so and names the log entry. -/

open Sys2Proof Sys2Proof.Machine

/-- One step takes the command at the front of the queue and answers what `exec` answers for it on the state with the queue's rest. -/
def Obligations.StepRunsFrontCommand : Prop :=
  ∀ (c : Instr) (rest : List Instr) (s : State),
    step { s with pending := c :: rest } = exec c { s with pending := rest }

/-- On an empty queue one step is one oscillator period: the timestamp of a unit that is up and has locked once counts by 1, and nothing
else changes (the model's choice, log entry 3; the count is that of R69). From one step to the next the timestamp of a unit that stays
powered stands or counts by 1; it never jumps. -/
def Obligations.TimestampCountsTicksAndNeverJumps : Prop :=
  (∀ s : State, s.pending = [] →
     ∃ t, step s = .next t ∧ Touch [.tbs] s t ∧
       t.tbs = (if s.glb.phase = .up ∧ s.tbs.everLocked = true then { s.tbs with time := s.tbs.time + 1 } else s.tbs)) ∧
  (∀ s t : State, step s = .next t → (∀ e rest, s.pending ≠ .unitPowerUp e :: rest) →
     t.tbs.time = s.tbs.time ∨ t.tbs.time = s.tbs.time + 1)

/-- A command answers a next state, whatever the state, except that the four tile commands fault on a tile outside columns 0-599 and rows
0-479 (the model's choice, log entry 9). -/
def Obligations.CommandsAnswer : Prop :=
  ∀ (c : Instr) (s : State), exec c s = .fault .noSuchTile ∧ (∃ x : TileAt, ¬(x.x < 600 ∧ x.y < 480) ∧
      ((∃ o, c = .tileStep x o) ∨ (∃ q w e, c = .flitReceived x q w e) ∨ (∃ d w, c = .creditFlitReceived x d w) ∨
       (∃ o, c = .backgroundScrub x o))) ∨
    ∃ t, exec c s = .next t

/-- A step changes only the fields of the state that `mayTouch` lists for its command. -/
def Obligations.CommandsChangeOnlyTheirFields : Prop :=
  ∀ (c : Instr) (s t : State), exec c s = .next t → Touch (mayTouch c) s t

/-- A command to one partition or one bay changes no other partition and no other bay. -/
def Obligations.CommandsToOnePartitionReachNoOther : Prop :=
  ∀ (c : Instr) (s t : State) (q : PartId), exec c s = .next t → q ∉ mayReach c → t.parts[q] = s.parts[q] ∧ t.bays[q] = s.bays[q]

/-- Every step keeps the invariant. That a region with its supply on never stands below 0.60 V rests on the model's reading of R425 and
R427 (log entry 20). -/
def Obligations.StepKeepsInvariant : Prop :=
  ∀ s t : State, Inv s → step s = .next t → Inv t

/-- The state after reset satisfies the invariant. -/
def Obligations.ResetMeetsInvariant : Prop :=
  Inv State.reset

/-- A command that reaches a unit that is not up changes nothing, except the unit's power-up and, while the wafer is shed, the reservoir's
end (the model's choice, log entry 11). -/
def Obligations.CommandsWaitForPowerUp : Prop :=
  ∀ (c : Instr) (s : State), s.glb.phase ≠ .up → (∀ e, c ≠ .unitPowerUp e) → c ≠ .reservoirExhausted →
    exec c s = .next s ∨ exec c s = .fault .noSuchTile

/-- Signalling an interrupt vector sets its bit of GLB_IRQ; an unmasked vector sends one message and clears its pending bit, a masked one
sends none and sets its pending bit; every other bit and count stands (R383; the masking is the model's choice, log entry 44). An event
enters the fault log as its newest entry, numbered next, with the unit's POWER_ON and timestamp; the log keeps the latest 4,096. The 17th
event of one CODE and INDEX in a second of the timebase is counted instead and enters nothing (the second of the timebase is the model's
choice, log entry 15). -/
def Obligations.EventsReachTheirVectorAndTheLog : Prop :=
  (∀ (s : State) (v : Fin 32),
     Touch [.signals] s (irq s v) ∧
     (irq s v).glb.irq.getLsbD v.val = true ∧
     (irq s v).glb.pba.getLsbD v.val = vectorMasked s.glb v ∧
     (irq s v).glb.vectors[v] = s.glb.vectors[v] + (if vectorMasked s.glb v then 0 else 1) ∧
     ∀ w : Fin 32, w ≠ v →
       (irq s v).glb.irq.getLsbD w.val = s.glb.irq.getLsbD w.val ∧ (irq s v).glb.pba.getLsbD w.val = s.glb.pba.getLsbD w.val ∧
       (irq s v).glb.vectors[w] = s.glb.vectors[w]) ∧
  (∀ (s : State) (code index d0 d1 : Nat) (e : Bool),
     Touch [.flt] s (logEvent s code index d0 d1 e) ∧
     (entriesThisSecond s code index < 16 →
       (logEvent s code index d0 d1 e).flt = { s.flt with
         entries := ({ seq := s.flt.nextSeq, powerOn := s.glb.powerOn, time := now s, code := code, index := index,
                       endOfEpisode := e, detail0 := d0, detail1 := d1 } :: s.flt.entries).take 4096
         nextSeq := s.flt.nextSeq + 1 }) ∧
     (16 ≤ entriesThisSecond s code index →
       (logEvent s code index d0 d1 e).flt = { s.flt with suppressed := min (s.flt.suppressed + 1) (2 ^ 32 - 1) }))

/-- FLT_NEWEST reads the SEQ of the newest entry. FLT_SEL_WRITE latches the entry of that SEQ into FLT_DATA0-7, bytes 0-31, 4 bytes a
register in ascending order, or zero when the log holds no such entry, and changes nothing else. What is latched stands until the next
write of FLT_SEL or the next power-up. -/
def Obligations.FaultLogViewLatchesOneEntry : Prop :=
  (∀ (v : Word) (s : State), s.glb.phase = .up → logOk s.flt →
    ∃ t, exec (.fltSelWrite v) s = .next t ∧ Touch [.fltView] s t ∧ t.flt.sel = v ∧
      (∀ e ∈ s.flt.entries, e.seq % 2 ^ 32 = v.toNat →
        ∀ k : Fin 8, t.flt.data[k] = BitVec.ofNat 32 (leNat (((logEntryBytes e).drop (4 * k.val)).take 4))) ∧
      ((∀ e ∈ s.flt.entries, e.seq % 2 ^ 32 ≠ v.toNat) → ∀ k : Fin 8, t.flt.data[k] = 0)) ∧
  (∀ s : State, s.glb.phase = .up →
    (∀ e es, s.flt.entries = e :: es →
      ∃ t, exec (.loRegisterRead ⟨0x5000, 4⟩) s = .next t ∧ t.glb.readData = BitVec.ofNat 32 e.seq ∧ t.flt = s.flt) ∧
    ∀ k : Fin 8, ∃ t, exec (.loRegisterRead ⟨(0x5010 + 4 * k.val), 4⟩) s = .next t ∧ t.glb.readData = s.flt.data[k] ∧ t.flt = s.flt) ∧
  ∀ (c : Instr) (s t : State), (∀ v, c ≠ .fltSelWrite v) → (∀ e, c ≠ .unitPowerUp e) → exec c s = .next t →
    t.flt.data = s.flt.data ∧ t.flt.sel = s.flt.sel

/-- The reference of the timebase: MESH_LOCK declares lock while a reference is present; REFERENCE_LOST and a new TBS_SRC enter holdover
with LOST_EV, one loss counted and the fault reported; REFERENCE_BACK within 100 ppm begins the slew with BACK_EV and leaves HOLDOVER
standing; the source already selected, or a reserved value, changes nothing. The timestamp stands through all of them. -/
def Obligations.TimebaseFollowsItsReference : Prop :=
  ∀ s : State, s.glb.phase = .up →
    (s.tbs.refPresent = true → s.tbs.locked = false →
      exec .meshLock s = .next { s with tbs := { s.tbs with locked := true, holdover := false, slewing := false, everLocked := true } }) ∧
    (s.tbs.refPresent = true → ∃ t, exec .referenceLost s = .next t ∧ Touch [.signals, .tbs, .flt] s t ∧
      t.tbs = { s.tbs with locked := false, holdover := true, refPresent := false, slewing := false, lostEv := true,
                           losses := min (s.tbs.losses + 1) (2 ^ 32 - 1) } ∧
      reports s t 0x0005 0 0 0 false 19) ∧
    (∀ ppb : Int, s.tbs.refPresent = false → -100000 ≤ ppb → ppb ≤ 100000 →
      ∃ t, exec (.referenceBack ppb) s = .next t ∧ Touch [.signals, .tbs, .flt] s t ∧
        t.tbs = { s.tbs with refPresent := true, slewing := true, backEv := true, refPpb := ppb, srcInUse := s.tbs.src } ∧
        reports s t 0x0006 0 0 0 false 19) ∧
    (∀ ppb : Int, (ppb < -100000 ∨ 100000 < ppb) → exec (.referenceBack ppb) s = .next s) ∧
    (∀ v : Word, ∀ h : v.toNat < 3, v.toNat ≠ s.tbs.src.val → s.tbs.refPresent = true →
      ∃ t, exec (.tbsSrcWrite v) s = .next t ∧ Touch [.signals, .tbs, .flt] s t ∧
        t.tbs = { s.tbs with src := ⟨v.toNat, h⟩, locked := false, holdover := true, refPresent := false, slewing := false, lostEv := true,
                             losses := min (s.tbs.losses + 1) (2 ^ 32 - 1) } ∧
        reports s t 0x0005 0 0 0 false 19) ∧
    (∀ v : Word, (3 ≤ v.toNat ∨ v.toNat = s.tbs.src.val) → exec (.tbsSrcWrite v) s = .next s)

/-- UNIT_POWER_UP with a slot that boots: the unit is up, BAR0 answers, POWER_ON counts by 1, the host link has what it trained to, and
the mesh is locked; the host power policy, the encoders' settings, the serial number and the firmware slots' builds stand. Where no slot
boots the unit stays off. That every run of R289 counts POWER_ON and starts the timestamp afresh is the model's reading (log entry 24),
and the occupied bays' insertion runs within the command (log entry 70). -/
def Obligations.PowerUpBringsTheUnitUp : Prop :=
  ∀ (e : PowerUp) (s : State), s.glb.phase ≠ .up →
    (∀ b, slotToBoot s = some b → e.fwOk = true →
      ∃ t, exec (.unitPowerUp e) s = .next t ∧
        t.glb.phase = .up ∧ t.glb.bar0 = true ∧ t.glb.powerOn = s.glb.powerOn + 1 ∧ t.glb.serial = s.glb.serial ∧
        t.glb.linkUp = decide (e.linkWidth ≠ 0) ∧ t.glb.linkWidth = e.linkWidth ∧ t.glb.linkGen = e.linkGen ∧
        t.sup.bootedB = b ∧ t.sup.slotA = s.sup.slotA ∧ t.sup.slotB = s.sup.slotB ∧
        t.tbs.locked = true ∧ t.tbs.everLocked = true ∧
        t.pwr.force = s.pwr.force ∧ t.pwr.cap = s.pwr.force.cap ∧ t.pwr.binding = s.pwr.force.binding ∧
        (∀ k : EncId, t.encs[k] = { invert := s.encs[k].invert, div := s.encs[k].div }) ∧
        t.pending = s.pending ∧
        (e.bays = [] → ∀ p : PartId, t.parts[p].state = .empty ∧ t.parts[p].regs.prio = s.pwr.force.prio[p] ∧
          t.parts[p].regs.margin = s.pwr.force.margin[p]) ∧
        (e.bays = [] → ∀ n : PinId, t.pins[n].claimed = none ∧
          t.pins[n].level = if s.pins[n].held then (if s.pins[n].heldHigh then .high else .low)
            else if s.pins[n].unclaimedHigh then .high else .low)) ∧
    (slotToBoot s = none → ∃ t, exec (.unitPowerUp e) s = .next t ∧ t.glb.phase = .off ∧ t.glb.bar0 = false)

/-- HEALTH_CHECK of a booted slot in TRIAL: on a pass it becomes ACTIVE and the old ACTIVE slot PREVIOUS; on a failure it becomes FAILED,
FW_REVERTED is logged with the check that failed, and the unit restarts with the wafer shed and the claimed pins at fail-safe. (The number
of each check is the model's choice, log entry 27.) WATCHDOG: every region converter turns off and the claimed pins stand at fail-safe;
the unit restarts; a slot in TRIAL becomes FAILED; neither a save record nor a life record is written. -/
def Obligations.TrialSlotsAreJudgedAndWatchdogSheds : Prop :=
  (∀ (a b : Bool) (s : State), s.glb.phase = .up → (fwSlot s s.sup.bootedB).state = .trial →
     (failedCheck s a b = none → ∃ t, exec (.healthCheck a b) s = .next t ∧ Touch [.signals, .sup] s t ∧
       t.glb = (irq s 0).glb ∧ t.sup.bootedB = s.sup.bootedB ∧ t.sup.watchdogCount = 0 ∧
       fwSlot t s.sup.bootedB = { fwSlot s s.sup.bootedB with state := .active } ∧
       fwSlot t (!s.sup.bootedB) = (if (fwSlot s (!s.sup.bootedB)).state = .active
         then { fwSlot s (!s.sup.bootedB) with state := .previous } else fwSlot s (!s.sup.bootedB))) ∧
     (∀ k, failedCheck s a b = some k → ∃ t, exec (.healthCheck a b) s = .next t ∧
       t.glb.phase = .restarting ∧ t.glb.bar0 = false ∧ t.glb.linkUp = false ∧
       fwSlot t s.sup.bootedB = { fwSlot s s.sup.bootedB with state := .failed } ∧
       fwSlot t (!s.sup.bootedB) = fwSlot s (!s.sup.bootedB) ∧
       t.flt = (logEvent s 0x0003 0 k 0 false).flt ∧ waferShed t ∧ claimedPinsFailSafe s t)) ∧
  (∀ s : State, s.glb.phase = .up →
     ∃ t, exec .watchdog s = .next t ∧ t.glb.phase = .restarting ∧ waferShed t ∧ claimedPinsFailSafe s t ∧
       t.nv = s.nv ∧ t.bays = s.bays ∧ t.flt = s.flt ∧ t.sup.watchdogRun = some (s.glb.powerOn, now s) ∧
       t.sup.watchdogCount = (if now s < 3600000000000 then s.sup.watchdogCount + 1 else 1) ∧
       fwSlot t s.sup.bootedB = (if (fwSlot s s.sup.bootedB).state = .trial then { fwSlot s s.sup.bootedB with state := .failed }
         else fwSlot s s.sup.bootedB) ∧
       fwSlot t (!s.sup.bootedB) = fwSlot s (!s.sup.bootedB))

/-- The upload commands of firmware. OPEN empties the slot that is not ACTIVE and opens the upload; WRITE stores the buffer as the next
block; CLOSE with a length in the last block's range begins its verification; an out-of-order WRITE or CLOSE sets ERR_SEQ; while a command
is being carried out or a slot is TRIAL every one of them, and ACTIVATE, is ignored and sets ERR_REFUSED. Activation of firmware.
FW_COMMAND_DONE ends a WRITE; it ends a CLOSE by activating the slot that is not ACTIVE when signature and CRC verify, and by marking it
FAILED with ERR_SIG when they do not. ACTIVATE activates a PREVIOUS slot. A slot that is activated is in TRIAL; while a partition runs the
unit waits for its drain, and with none running it restarts at once. -/
def Obligations.FirmwareIsUploadedThenActivated : Prop :=
  (∀ s : State, s.glb.phase = .up →
     ((s.sup.busy.isSome = true ∨ s.sup.slotA.state = .trial ∨ s.sup.slotB.state = .trial) →
       ∀ c, c ∈ [Instr.fwOpen, .fwWrite, .fwClose, .fwActivate false, .fwActivate true] →
         exec c s = .next { s with sup := { s.sup with errRefused := true } }) ∧
     (s.sup.busy = none → s.sup.slotA.state ≠ .trial → s.sup.slotB.state ≠ .trial →
       (∃ t, exec .fwOpen s = .next t ∧ Touch [.signals, .sup] s t ∧ t.glb = (irq s 0).glb ∧
         t.sup.openUp = true ∧ t.sup.blocks = [] ∧
         (s.sup.slotA.state = .active → t.sup.slotA = s.sup.slotA ∧ t.sup.slotB.state = .empty) ∧
         (s.sup.slotA.state ≠ .active → t.sup.slotB = s.sup.slotB ∧ t.sup.slotA.state = .empty)) ∧
       (s.sup.openUp = true → s.sup.fwBlock.toNat = s.sup.blocks.length → s.sup.blocks.length ≠ 4096 →
         exec .fwWrite s = .next { s with sup := { s.sup with blocks := s.sup.blocks ++ [s.sup.fwBuf.toList], busy := some .write } }) ∧
       ((s.sup.openUp = false ∨ s.sup.fwBlock.toNat ≠ s.sup.blocks.length ∨ s.sup.blocks.length = 4096) →
         exec .fwWrite s = .next { s with sup := { s.sup with errSeq := true } }) ∧
       (s.sup.openUp = true → 256 * s.sup.blocks.length < s.sup.fwLen.toNat + 256 → s.sup.fwLen.toNat ≤ 256 * s.sup.blocks.length →
         s.sup.fwLen ≠ 0 → exec .fwClose s = .next { s with sup := { s.sup with busy := some .close } }) ∧
       ((s.sup.openUp = false ∨ s.sup.fwLen.toNat + 256 ≤ 256 * s.sup.blocks.length ∨ 256 * s.sup.blocks.length < s.sup.fwLen.toNat) →
         exec .fwClose s = .next { s with sup := { s.sup with errSeq := true } }))) ∧
  (∀ s : State, s.glb.phase = .up →
     (∀ v i, s.sup.busy = some .write → exec (.fwCommandDone v i) s = .next { s with sup := { s.sup with busy := none, done := true } }) ∧
     (∀ i, s.sup.busy = some .close → s.sup.slotA.state = .active → ∃ t, exec (.fwCommandDone false i) s = .next t ∧
       Touch [.signals, .sup] s t ∧ t.sup.slotB = { s.sup.slotB with state := .failed } ∧ t.sup.slotA = s.sup.slotA ∧
       t.sup.errSig = true ∧ t.sup.busy = none ∧ t.sup.done = true ∧ t.sup.openUp = false) ∧
     (∀ i, s.sup.busy = some .close → s.sup.slotA.state = .active → ∃ t, exec (.fwCommandDone true i) s = .next t ∧
       t.sup.busy = none ∧ t.sup.done = true ∧ t.sup.openUp = false ∧ t.sup.slotA = s.sup.slotA ∧
       t.sup.slotB = { state := .trial, epoch := i.epoch, minor := i.minor, major := i.major, microSet := i.microSet, formatSet := i.formatSet } ∧
       ((∀ p : PartId, s.parts[p].active = none ∧ s.parts[p].state = .empty) → t.glb.phase = .restarting ∧ waferShed t ∧ claimedPinsFailSafe s t)) ∧
     (∀ b, s.sup.busy = none → s.sup.slotA.state ≠ .trial → s.sup.slotB.state ≠ .trial → (fwSlot s b).state = .previous →
       ∃ t, exec (.fwActivate b) s = .next t ∧ t.sup.done = true ∧
         fwSlot t b = { fwSlot s b with state := .trial } ∧ fwSlot t (!b) = fwSlot s (!b) ∧
         ((∀ p : PartId, s.parts[p].active = none ∧ s.parts[p].state = .empty) → t.glb.phase = .restarting ∧ waferShed t ∧ claimedPinsFailSafe s t)))

/-- The 1-of-4 code of a flit: wire 4g + v of group g is raised exactly when the two bits of the group have the value v; decoding an
encoded flit gives it back, no other wires decode to it, and wires of which a group is neutral or has more than one wire high decode to
nothing. -/
def Obligations.WireCodesRoundTrip : Prop :=
  (∀ (f : Flit) (g : Fin 18) (v : Fin 4), (encodeWires f).getLsbD (4 * g.val + v.val) = decide (f.toNat / 4 ^ g.val % 4 = v.val)) ∧
  (∀ f : Flit, decodeWires (encodeWires f) = some f) ∧
  (∀ (w : Wires) (f : Flit), decodeWires w = some f → w = encodeWires f) ∧
  (∀ (w : Wires) (g : Fin 18), (∀ v : Fin 4, w.toNat / 16 ^ g.val % 16 ≠ 2 ^ v.val) → decodeWires w = none)

/-- TILE_STEP of a tile that runs an image. Under an operator that steps its lanes, while a result waits for room or the step's
operand has not arrived the step has no effect of its own and the tile only moves its flits; a step of a reducing operator short of its
end adds in each lane the product of its weight code, by the decoded weight in integer mode exactly, advances the sequence by one and
leaves block memory alone. The operand of each step is the one that the stage's configuration names (`sources`). A tile without an
operator, and a T-class or verdict stage that is no set-pool stage, takes no step of the datapath. A tile that runs no image takes none,
and a tile outside the wafer's 600 by 480 is refused with a fault (log entry 9). -/
def Obligations.TileStepsAccumulateOrWait : Prop :=
  ∀ (a : TileAt) (o : StepObs) (k : Nat) (m : List Byte) (q : Config.OpParams) (t : Tile) (s : State), s.glb.phase = .up → storeOk s →
    k = tileKey a.x a.y → t = getTile s k → q = Config.params m →
    (tileExists a = false → exec (.tileStep a o) s = .fault .noSuchTile) ∧
    (tileExists a = true → runsHere s k = none → exec (.tileStep a o) s = .next s) ∧
    (∀ p, tileExists a = true → runsHere s k = some p → m = tunedMicro s p k t.winDone → isPool (byteAt m 0) = false →
      ((byteAt m 0 = 0 ∨ isTStage (byteAt m 0) = true) → exec (.tileStep a o) s = .next s) ∧
      (byteAt m 0 ≠ 0 → isTStage (byteAt m 0) = false → t.sendQ ≠ [] → exec (.tileStep a o) s = .next (pumpTile s k)) ∧
      (∀ c, byteAt m 0 ≠ 0 → isTStage (byteAt m 0) = false → t.sendQ = [] → t.closing = false → atEnd m q t = false →
        stepScale m t = some c →
        ((fetchAll m q s.mem k t (sources m q t.winDone t.red t.step)).1 = .wait → exec (.tileStep a o) s = .next (pumpTile s k)) ∧
        (∀ e t1 reads, fetchAll m q s.mem k t (sources m q t.winDone t.red t.step) = (.got e t1 reads, none) →
          byElement (byteAt m 0) = false → zeroSkip m e = false → (byteAt m 0 = 0x51 → q.power = false) → o.ecc = [] →
          ∃ u t2, exec (.tileStep a o) s = .next (pumpTile u k) ∧ u.mem = s.mem ∧ Touch [.tiles] s u ∧ t2 = movedSide m c.2 false t1 ∧
            (getTile u k).reducing = true ∧ (getTile u k).total = t.total ∧ (getTile u k).step = t.step + 1 ∧ (getTile u k).red = t.red ∧
            (∀ i : Fin 16, (stepCodes m q s.mem k t2).2.1 i = none → integerMode m = true → (getTile u k).acc[i] = t.acc[i]) ∧
            (∀ (i : Fin 16) (d : Nat) (w : WSel), (stepCodes m q s.mem k t2).2.1 i = some d → integerMode m = true →
              decodeWeight (stepCodes m q s.mem k t2).1 d = .sel w → t.acc[i].sat = false →
              -2147483648 ≤ t.acc[i].bits.toInt + intProduct (buildTable (splitAct (byteAt m 3) e.code).operand) w →
              t.acc[i].bits.toInt + intProduct (buildTable (splitAct (byteAt m 3) e.code).operand) w ≤ 2147483647 →
              (getTile u k).acc[i].bits.toInt =
                t.acc[i].bits.toInt + intProduct (buildTable (splitAct (byteAt m 3) e.code).operand) w))))

/-- FLIT_RECEIVED and CREDIT_FLIT_RECEIVED at a tile of a serving partition. A codeword that is not valid, or comes over a closed gate,
has no effect. At any of its five ports, a data flit of an enabled entry waits behind those of its lane while the input has room; one of a
disabled entry is counted as a link error and dropped, its credit owed; lane 6 is counted and dropped; at a gateway tile a data flit leaves
the wafer. A credit flit adds its counts with a cap of 4. In each case the tile then moves its flits, and a neighbour that sent the flit
sees its acknowledge. BACKGROUND_SCRUB of a tile in service reads its codewords in ascending order: a single-bit error is counted; a
double-bit error is counted and, in a codeword that no partition owns, leaves it zero once the write-back lands; in a codeword that the
running image claims it takes the partition to FAULT_MEM. A write-back that collides with a write of port A is dropped and counted. That
FLIT_RECEIVED also acknowledges the sender is the model's choice (log entry 62), as is what becomes of a lane value of 7 at the local input
(log entry 101); what a scrub read finds and how its write-back goes are operands (log entries 6 and 82). -/
def Obligations.TilesTakeFlitsCreditsAndScrubReads : Prop :=
  ∀ (a : TileAt) (k : Nat) (s : State), s.glb.phase = .up → tileExists a = true → k = tileKey a.x a.y →
    (∀ pt w e, (decodeWires w = none ∨ tileOwner s k = none) → exec (.flitReceived a pt w e) s = .next s) ∧
    (∀ d w e, linkOpen s k d ≠ some true → exec (.flitReceived a (.side d) w e) s = .next s ∧
      exec (.creditFlitReceived a d w) s = .next s) ∧
    (∀ (p : PartId) (pt : Port) (w : Wires) (e : EccRead) (f : Flit) (i : Fin 30) (back : State → State),
      tileOwner s k = some p → isServing s.parts[p].state = true → (∀ d, pt = .side d → linkOpen s k d = some true) →
      decodeWires w = some f → (s.parts[p].fabric.queues).any (fun q => q.tile = k && decide (q.cfg.lane = flitLane f)) = false →
      i = fifo (portIdx pt) (flitLane f) → back = (fun u => match pt with | .side d => ackSender (pumpTile u k) k d w | .loc => pumpTile u k) →
      (gatewayPlace s p k = none → runsHere s k = some p → flitLane f < 6 → (activeCtx (getTile s k)).route[i].enable = true →
        (getTile s k).inputs[i].length < 4 → exec (.flitReceived a pt w e) s = .next (back (updTile s k (fun t =>
          { t with inputs := t.inputs.set i (t.inputs[i] ++ [f]) })))) ∧
      (gatewayPlace s p k = none → flitLane f < 6 → (runsHere s k = none ∨ (activeCtx (getTile s k)).route[i].enable = false) →
        exec (.flitReceived a pt w e) s = .next (back (updTile (updTile s k (fun t =>
          { t with
            counters := { t.counters with linkErr := min (t.counters.linkErr + 1) 4294967295 } })) k (oweCredit (portIdx pt) (flitLane f))))) ∧
      ((flitLane f = 6 ∨ (flitLane f = 7 ∧ pt = .loc)) → exec (.flitReceived a pt w e) s = .next (back (updTile s k (fun t =>
        { t with
          counters := { t.counters with linkErr := min (t.counters.linkErr + 1) 4294967295 } })))) ∧
      (∀ n pp x y, gatewayPlace s p k = some (n, pp, x, y) → flitLane f < 6 → exec (.flitReceived a pt w e) s =
        .next (back (gatewayTake (updTile s k (oweCredit (portIdx pt) (flitLane f))) p n f)))) ∧
    (∀ (p : PartId) (d : Dir) (w : Wires) (f : Flit), tileOwner s k = some p → isServing s.parts[p].state = true →
      linkOpen s k d = some true → decodeWires w = some f →
      (flitLane f ≠ 7 → exec (.creditFlitReceived a d w) s = .next s) ∧
      (flitLane f = 7 → storeOk s →
        ∃ u, exec (.creditFlitReceived a d w) s = .next (ackSender (pumpTile u k) k d w) ∧ Touch [.tiles] s u ∧
          (∀ j, j ≠ k → getTile u j = getTile s j) ∧
          ∀ l : Fin 6, (getTile u k).credits[crd (dirIdx d).val l.val] =
            min 4 ((getTile s k).credits[crd (dirIdx d).val l.val] + (flitData f / 16 ^ l.val) % 16))) ∧
    (tileInService s k = false → ∀ o, exec (.backgroundScrub a o) s = .next s) ∧
    (∀ wr : WriteBack, storeOk s → tileInService s k = true →
      (∃ t, exec (.backgroundScrub a ⟨.clean, wr⟩) s = .next t ∧ Touch [.tiles] s t ∧ (∀ j, j ≠ k → getTile t j = getTile s j) ∧
        getTile t k = { getTile s k with scrubPtr := ((getTile s k).scrubPtr + 1) % 2048 }) ∧
      (∃ t, exec (.backgroundScrub a ⟨.single, wr⟩) s = .next t ∧ Touch [.tiles] s t ∧ (∀ j, j ≠ k → getTile t j = getTile s j) ∧
        (getTile t k).scrubPtr = ((getTile s k).scrubPtr + 1) % 2048 ∧
        (getTile t k).counters.eccCorr = min ((getTile s k).counters.eccCorr + 1) 4294967295 ∧
        (getTile t k).counters.collision = (if wr = .collided then min ((getTile s k).counters.collision + 1) 4294967295
          else (getTile s k).counters.collision)) ∧
      (tileOwner s k = none → ∃ t, exec (.backgroundScrub a ⟨.double, wr⟩) s = .next t ∧ Touch [.tiles, .mem] s t ∧
        (getTile t k).counters.eccUncorr = min ((getTile s k).counters.eccUncorr + 1) 4294967295 ∧
        (getTile t k).counters.collision = (if wr = .collided then min ((getTile s k).counters.collision + 1) 4294967295
          else (getTile s k).counters.collision) ∧
        ∀ b, Memory.read t.mem b = if wr = .landed ∧ b / 8 = 2048 * k + (getTile s k).scrubPtr then 0 else Memory.read s.mem b) ∧
      (∀ p, tileOwner s k = some p → isFault s.parts[p].state = false →
        ((s.parts[p].fabric.claims).filter (claimHolds k (getTile s k).scrubPtr)).any (fun c => decide (c.use = .inUse)) = true →
        ∃ t, exec (.backgroundScrub a ⟨.double, wr⟩) s = .next t ∧ standsInFault t p .faultMem cMemUncorrectable ∧ t.mem = s.mem))

/-- The stall detector of a serving partition. At its tick the timer of a cycle whose queues are all full and blocked starts, or goes on,
and every other timer stops. When a timer is looked at, that of a cycle no longer blocked stops and one short of 8,192 ns stands; else the
chosen queue begins to spill, or, with every segment full, the cycle's set-entry stage sheds from then on, and the timer starts again. At
a stall sample a tile that runs an image counts busy when a step has completed since the last sample, and any tile that runs none keeps
all it has. A cycle that names no queue counts as blocked (the model's reading, log entry 79). -/
def Obligations.StallsAreTimedSpilledAndSampled : Prop :=
  ∀ (p : PartId) (s : State), s.glb.phase = .up →
    (isServing s.parts[p].state = false → exec (.stallDetectorTick p) s = .next s ∧ ∀ n, exec (.detectionWindowExpiry p n) s = .next s) ∧
    (isServing s.parts[p].state = true → ∃ t, exec (.stallDetectorTick p) s = .next t ∧ Touch [.parts] s t ∧
      (∀ q, q ≠ p → t.parts[q] = s.parts[q]) ∧ ∀ n c, (partCycles s.parts[p])[n]? = some c →
        (cycleBlocked s p c = true → ∀ old, s.parts[p].fabric.timers.getD n none = some old →
          t.parts[p].fabric.timers[n]? = some (some old)) ∧
        (cycleBlocked s p c = true → s.parts[p].fabric.timers.getD n none = none → t.parts[p].fabric.timers[n]? = some (some (now s))) ∧
        (cycleBlocked s p c = false → t.parts[p].fabric.timers[n]? = some none)) ∧
    (∀ n c start, isServing s.parts[p].state = true → (partCycles s.parts[p])[n]? = some c →
      s.parts[p].fabric.timers.getD n none = some start →
      (cycleBlocked s p c = false → ∃ t, exec (.detectionWindowExpiry p n) s = .next t ∧ Touch [.parts] s t ∧
        t.parts[p].fabric.timers[n]? = some none ∧ t.parts[p].fabric.queues = s.parts[p].fabric.queues ∧
        t.parts[p].fabric.stages = s.parts[p].fabric.stages) ∧
      (cycleBlocked s p c = true → now s < start + 8192 → exec (.detectionWindowExpiry p n) s = .next s) ∧
      (cycleBlocked s p c = true → start + 8192 ≤ now s → spillChoice s.parts[p] c = none →
        ∃ t, exec (.detectionWindowExpiry p n) s = .next t ∧
        Touch [.parts, .tiles] s t ∧ t.parts[p].fabric.timers[n]? = some (some (now s)) ∧
        (∀ g ∈ t.parts[p].fabric.stages, g.number = c.setEntry → g.shedMode = true) ∧
        t.parts[p].fabric.queues = s.parts[p].fabric.queues) ∧
      (∀ j q, cycleBlocked s p c = true → start + 8192 ≤ now s → spillChoice s.parts[p] c = some j →
        s.parts[p].fabric.queues[j]? = some q →
        ∃ u q', exec (.detectionWindowExpiry p n) s = .next (updFabric (pumpTile u q.tile) p (fun f =>
            { f with timers := modAt (fun _ => some (now s)) n f.timers })) ∧ Touch [.parts] s u ∧
          u.parts[p].fabric.queues[j]? = some q' ∧ q'.spilling = true ∧ q'.count = q.count ∧
          u.parts[p].fabric.spillOpen.isSome = true)) ∧
    (storeOk s → ∃ t, exec .stallSample s = .next t ∧ Touch [.tiles] s t ∧
      (∀ k, runsHere s k = none → getTile t k = getTile s k) ∧
      (∀ k r, runsHere s k = some r → (getTile t k).stepped = false ∧ (getTile t k).acc = (getTile s k).acc ∧
        ((getTile s k).stepped = true → (getTile t k).counters =
          { (getTile s k).counters with busy := ((getTile s k).counters.busy + 1) % 2 ^ 48 })))

/-- A cartridge is inserted: PRESENCE_ASSERTED starts the debounce, PRESENCE_DEBOUNCE_END turns 12 V on with PERST# asserted,
PERST_RELEASE lets a bay whose power is good train at whatever width and speed it reaches, whatever its identity answered. REMOVED
clears the bay to empty, logs the removal with the cartridge ID, and leaves the partition running its image, which drains only where the
image declares stop-on-removal; a drop during the debounce restarts it. OVERCURRENT turns the bay off until presence drops. That an
overcurrent also ends ACCEPTED is the model's reading (log entry 70). -/
def Obligations.BaysPowerUpInOrderAndEmptyOnRemoval : Prop :=
  (∀ (b : BayId) (s : State), s.glb.phase = .up →
     (s.bays[b].presence = .absent → ∃ t, exec (.presenceAsserted b) s = .next t ∧ Touch [.bays] s t ∧
       t.bays[b] = { s.bays[b] with presence := .debouncing }) ∧
     (s.bays[b].presence = .debouncing → ∃ t, exec (.presenceDebounceEnd b) s = .next t ∧ Touch [.bays] s t ∧
       t.bays[b] = { s.bays[b] with presence := .inserted, power := true, perst := true, busLow := false }) ∧
     (s.bays[b].presence ≠ .debouncing → exec (.presenceDebounceEnd b) s = .next s) ∧
     (∀ w g, s.bays[b].good = true → s.bays[b].perst = true →
       ∃ t, exec (.perstRelease b w g) s = .next t ∧ Touch [.bays] s t ∧
         t.bays[b] = { s.bays[b] with perst := false, nvme := .training, linkWidth := w, linkGen := g }) ∧
     (∀ w g, (s.bays[b].good = false ∨ s.bays[b].perst = false) → exec (.perstRelease b w g) s = .next s)) ∧
  (∀ (b : BayId) (s : State), s.glb.phase = .up →
     (s.bays[b].presence = .inserted → s.parts[b].load = none →
       ∃ t, exec (.removed b) s = .next t ∧ t.bays[b] = {} ∧ t.parts[b].active = s.parts[b].active ∧
         (∀ i, s.parts[b].active = some i → (imgContract i).stopOnRemoval = true → s.parts[b].state = .running →
           drains t b .stopOnRemoval) ∧
         (∀ i, s.parts[b].active = some i → (imgContract i).stopOnRemoval = false →
           t.parts[b].state = s.parts[b].state ∧ t.parts[b].flow = s.parts[b].flow ∧
           reports s t 0x0312 b.val 0 s.bays[b].id.toNat false 17)) ∧
     (s.bays[b].presence = .debouncing → ∃ t, exec (.removed b) s = .next t ∧ Touch [.bays] s t ∧
       t.bays[b] = { s.bays[b] with presence := .absent }) ∧
     (s.bays[b].power = true → ∃ t, exec (.overcurrent b) s = .next t ∧ Touch [.signals, .bays, .flt] s t ∧
       t.bays[b].power = false ∧ t.bays[b].perst = true ∧ t.bays[b].accepted = false ∧ t.bays[b].tripped = true ∧
       t.bays[b].cause = 1 ∧ reports s t 0x0301 b.val 0 0 false 17))

/-- BAY_POWER_GOOD runs the identity check: the ID, the challenge under the chain of its certificates, then the counters. It passes when
each command's response comes whole with its CRC-8 within three retries, no other bay has an accepted cartridge of the same ID, and the
chain and the challenge hold; then the bay shows the counters and the armed index as read. Any failure refuses the cartridge with its
cause, and an ID that was read stays shown. An ID counts against another bay while the cartridge there is ACCEPTED (R244; when it is checked
is the model's reading, log entry 25). -/
def Obligations.IdentityCheckAcceptsOrRefuses : Prop :=
  ∀ (b : BayId) (o : IdentityObs) (s : State), s.glb.phase = .up → s.bays[b].power = true → s.bays[b].good = false →
    ((seRead 0x01 [] 8 { answers := o.answers }).1 = none →
      ∃ t, exec (.bayPowerGood b o) s = .next t ∧ t.bays[b].cause = 2 ∧ t.bays[b].accepted = false ∧ t.bays[b].id = s.bays[b].id ∧
        t.bays[b].good = true ∧ t.bays[b].identityDone = s.bays[b].identityDone ∧ reports s t 0x0302 b.val 0 0 false 17) ∧
    (∀ idBytes talk, seRead 0x01 [] 8 { answers := o.answers } = (some idBytes, talk) →
      ((∃ q : BayId, q ≠ b ∧ s.bays[q].accepted = true ∧ s.bays[q].id = BitVec.ofNat 64 (leNat idBytes)) →
        ∃ t, exec (.bayPowerGood b o) s = .next t ∧ t.bays[b].cause = 3 ∧ t.bays[b].accepted = false ∧
          t.bays[b].id = BitVec.ofNat 64 (leNat idBytes) ∧ reports s t 0x0303 b.val 0 0 false 17) ∧
      ((∀ q : BayId, q ≠ b → s.bays[q].accepted = true → s.bays[q].id ≠ BitVec.ofNat 64 (leNat idBytes)) →
        (((challenge s idBytes o.nonce talk).1 = false ∨ (readCounters (challenge s idBytes o.nonce talk).2).1 = none) →
          ∃ t, exec (.bayPowerGood b o) s = .next t ∧ t.bays[b].cause = 2 ∧ t.bays[b].accepted = false ∧
            t.bays[b].id = BitVec.ofNat 64 (leNat idBytes) ∧ t.bays[b].identityDone = s.bays[b].identityDone ∧
            reports s t 0x0302 b.val 0 0 false 17) ∧
        (∀ c, (challenge s idBytes o.nonce talk).1 = true → (readCounters (challenge s idBytes o.nonce talk).2).1 = some c →
          ∃ t, exec (.bayPowerGood b o) s = .next t ∧ Touch [.signals, .nv, .bays, .flt] s t ∧
            (∀ q, q ≠ b → t.bays[q] = s.bays[q]) ∧
            t.bays[b].good = true ∧ t.bays[b].id = BitVec.ofNat 64 (leNat idBytes) ∧ t.bays[b].identityDone = true ∧
            t.bays[b].cause = s.bays[b].cause ∧ t.bays[b].insertions = leAt c.1 0 4 ∧ t.bays[b].stateWrites = leAt c.1 4 4 ∧
            t.bays[b].hours = leAt c.1 8 4 ∧ t.bays[b].armed = c.2)))

/-- NVME_READY takes the cartridge into use: with R230's limits met and a sound directory whose armed entry is present the cartridge is
accepted; with no sound armed entry it is refused with CART_NO_IMAGE and no other slot is tried; in service-only mode its SMART log is read
and no image is; a refused cartridge only shows its link (log entry 26). LOAD_HANDOVER loads nothing when the partition runs an image with
the armed slot's digest, and is a load request otherwise. -/
def Obligations.CartridgesAreTakenIntoUseThenHandedOver : Prop :=
  (∀ (b : BayId) (o : NvmeObs) (s : State), s.glb.phase = .up → s.bays[b].nvme = .training →
     ((s.bays[b].identityDone = false ∨ s.bays[b].cause ≠ 0) → ∃ t, exec (.nvmeReady b o) s = .next t ∧ Touch [.bays] s t ∧
       t.bays[b] = { s.bays[b] with nvme := .ready, setUp := [], retried := [] }) ∧
     (s.bays[b].identityDone = true → s.bays[b].cause = 0 → 63 ≤ o.mqes → o.capTo ≤ 1 → 128 ≤ o.mdtsKiB →
       (s.glb.serviceOnly = true → ∃ t, exec (.nvmeReady b o) s = .next t ∧ Touch [.signals, .bays] s t ∧ t.bays[b].nvme = .ready ∧
         t.bays[b].smartCritical = o.smartCritical ∧ t.bays[b].smartUsed = o.smartUsed ∧ t.bays[b].accepted = s.bays[b].accepted ∧
         t.bays[b].slots = s.bays[b].slots) ∧
       (s.glb.serviceOnly = false → directoryOk o.directory = true →
         (readSlot o.directory s.bays[b].armed.val).present = true → (readSlot o.directory s.bays[b].armed.val).crcOk = true →
         duplicateId s b s.bays[b].id = false →
         ∃ t, exec (.nvmeReady b o) s = .next t ∧ t.bays[b].accepted = true ∧ t.bays[b].cause = 0 ∧ t.bays[b].nvme = .ready ∧
           t.bays[b].slots = (List.range 4).map (readSlot o.directory) ∧
           t.bays[b].smartCritical = o.smartCritical ∧ t.bays[b].smartUsed = o.smartUsed) ∧
       (s.glb.serviceOnly = false →
         (directoryOk o.directory = false ∨ (readSlot o.directory s.bays[b].armed.val).present = false ∨
           (readSlot o.directory s.bays[b].armed.val).crcOk = false) →
         ∃ t, exec (.nvmeReady b o) s = .next t ∧ t.bays[b].accepted = false ∧ t.bays[b].cause = 4))) ∧
  (∀ (b : BayId) (o : LoadObs) (s : State), s.glb.phase = .up → s.bays[b].accepted = true → s.bays[b].nvme = .ready →
     s.glb.serviceOnly = false →
     (∀ i, isServing s.parts[b].state = true → s.parts[b].active = some i → i.digest = (armedSlot s b).digest →
       ∃ t, exec (.loadHandover b o) s = .next t ∧ Touch [.bays] s t ∧ t.bays[b] = { s.bays[b] with nvme := .done }) ∧
     ((isServing s.parts[b].state = false ∨ ∀ i, s.parts[b].active = some i → i.digest ≠ (armedSlot s b).digest) →
       exec (.loadHandover b o) s = .next (loadRequest (updBay s b (fun x => { x with nvme := .done })) b .insertion o)))

/-- An NVMe command that the cartridge has not completed: its completion ends its episode and its data is taken; its first failure is
retried after a controller reset; its second ends every use of the cartridge with CART_MEDIA, and the partition keeps running any image
already committed. A command that is not outstanding changes nothing. The wear of a cartridge: POWERED_HOUR counts an hour of a cartridge
whose identity has passed and which none of the chapter's causes refuses, saturating; SMART_READ_PERIOD takes the SMART values and sets the
wear warning on a critical warning or 90 percent used; PERIODIC_LIFE_RECORD counts a state write and writes a record of KIND 0 with the
partition's counts to its block of the ring, with a Flush after it, and is skipped from 100,000 state writes on. That the second failure also
ends ACCEPTED is the model's reading (log entry 70). -/
def Obligations.MediaFailuresEndUseAndWearIsRecorded : Prop :=
  (∀ (b : BayId) (c : NvmeCmd) (s : State), s.glb.phase = .up →
     (cmdOut s b c = false → ∀ ok, exec (.nvmeCommandCompletion ⟨b, c⟩ ok) s = .next s ∧ exec (.nvmeCommandTimeout ⟨b, c⟩) s = .next s) ∧
     (cmdOut s b c = true →
       (∃ t, exec (.nvmeCommandCompletion ⟨b, c⟩ true) s = .next t ∧ Touch [.parts, .bays] s t ∧
         t.bays[b].retried = s.bays[b].retried.erase c ∧ t.bays[b].writes = s.bays[b].writes.erase c ∧
         (s.bays[b].nvme = .training → t.bays[b].setUp = c :: s.bays[b].setUp) ∧
         (∀ l, s.parts[b].load = some l → t.parts[b] = { s.parts[b] with load := some { l with got := c :: l.got } })) ∧
       (∀ i, i ∈ [Instr.nvmeCommandTimeout ⟨b, c⟩, .nvmeCommandCompletion ⟨b, c⟩ false] →
         (c ∉ s.bays[b].retried → ∃ t, exec i s = .next t ∧ Touch [.bays] s t ∧
           t.bays[b] = { s.bays[b] with retried := c :: s.bays[b].retried, resets := s.bays[b].resets + 1, setUp := [] }) ∧
         (c ∈ s.bays[b].retried → ∃ t, exec i s = .next t ∧ t.bays[b].accepted = false ∧ t.bays[b].nvme = .held ∧
           t.bays[b].cause = (if s.bays[b].cause = 0 then 5 else s.bays[b].cause) ∧ t.parts[b].active = s.parts[b].active ∧
           (s.parts[b].load = none → reports s t 0x0305 b.val 0 0 false 17 ∧ t.parts[b].state = s.parts[b].state))))) ∧
  (∀ (b : BayId) (s : State), s.glb.phase = .up →
     (s.bays[b].good = true → s.bays[b].identityDone = true → (s.bays[b].cause = 0 ∨ 5 < s.bays[b].cause) →
       ∃ t, exec (.poweredHour b) s = .next t ∧ Touch [.bays] s t ∧
         t.bays[b] = { s.bays[b] with hours := min (s.bays[b].hours + 1) (2 ^ 32 - 1), seSent := s.bays[b].seSent ++ [[5, 2]] }) ∧
     (∀ c u, s.bays[b].good = true → s.bays[b].identityDone = true → (s.bays[b].nvme = .ready ∨ s.bays[b].nvme = .done) →
       ∃ t, exec (.smartReadPeriod b c u) s = .next t ∧ Touch [.signals, .bays] s t ∧
         t.bays[b].smartCritical = c ∧ t.bays[b].smartUsed = u ∧ t.bays[b].accepted = s.bays[b].accepted ∧
         t.bays[b].wear.getLsbD 2 = (s.bays[b].wear.getLsbD 2 || decide (c ≠ 0 ∨ 90 ≤ u))) ∧
     (s.bays[b].accepted = true → s.bays[b].power = true → s.bays[b].stateWrites < 100000 →
       ∃ t r, exec (.periodicLifeRecord b) s = .next t ∧ Touch [.signals, .bays] s t ∧
         t.bays[b].stateWrites = s.bays[b].stateWrites + 1 ∧ t.bays[b].lifeSeq = s.bays[b].lifeSeq + 1 ∧
         t.bays[b].lifeLast = some r ∧ t.bays[b].writes = s.bays[b].writes ++
           [{ admin := false, opcode := 1, ns := 2, lba := s.bays[b].lifeSeq % 2048, blocks := 1, data := lifeBytes s.glb.serial.toNat b r },
            { admin := false, opcode := 0, ns := 2 }] ∧
         r = { seq := s.bays[b].lifeSeq, kind := 0, powerOn := s.glb.powerOn, time := now s,
               windows := s.parts[b].regs.win, verdicts := s.parts[b].regs.vrd, rejects := s.parts[b].regs.rej,
               insertions := s.bays[b].insertions, hours := s.bays[b].hours,
               digest := (match s.parts[b].active with | some i => i.digest | none => zeros 32) }) ∧
     (100000 ≤ s.bays[b].stateWrites → exec (.periodicLifeRecord b) s = .next s))

/-- A host reload or unload that cannot be accepted, in service-only mode, with no accepted cartridge, or of an EMPTY partition, sets
CMD_ERR, signals the partition's vector and changes nothing else. A load request: while the partition is past a commit point, or clears
what an earlier command left, it is queued, replacing and reporting a queued one; with nothing in flight it begins at once. On an EMPTY
partition a request whose key and front checks pass and whose image finds a path holds that path at 0.72 V with the pre-load scrub
running: the partition is PLACING. -/
def Obligations.LoadCommandsAreRefusedQueuedOrBegun : Prop :=
  (∀ (p : PartId) (c : Instr) (s : State), s.glb.phase = .up →
     ((∃ o, c = .reload p o ∧ (s.glb.serviceOnly = true ∨ s.bays[p].accepted = false)) ∨
       (c = .unload p ∧ (s.glb.serviceOnly = true ∨ s.parts[p].state = .empty))) →
     ∃ t, exec c s = .next t ∧ Touch [.signals, .parts] s t ∧ (∀ q, q ≠ p → t.parts[q] = s.parts[q]) ∧
       t.parts[p] = { s.parts[p] with regs := { s.parts[p].regs with cmdErr := true } } ∧ t.glb = (irq s (partVector p)).glb) ∧
  (∀ (p : PartId) (o : LoadObs) (s : State), s.glb.phase = .up → s.glb.serviceOnly = false → s.bays[p].accepted = true →
     ((s.parts[p].flow.lupin.isSome = true ∨
         (s.parts[p].load = none ∧ (s.parts[p].flow.drain.isSome = true ∨ s.parts[p].flow.scrub.isSome = true))) →
       ∃ t, exec (.reload p o) s = .next t ∧ Touch [.parts, .flt] s t ∧ t.parts[p] = { s.parts[p] with queued := some .hostReload } ∧
         (s.parts[p].queued = none → t.flt = s.flt) ∧
         (s.parts[p].queued.isSome = true → t.flt = (logPart s p cReplaced 0).flt)) ∧
     (exec (.reload p o) s = .next (loadRequest s p .hostReload o)) ∧
     (∀ kind key i pl, s.parts[p].state = .empty → s.parts[p].active = none → s.parts[p].load = none → s.parts[p].flow.lupin = none →
       s.parts[p].flow.drain = none → s.parts[p].flow.scrub = none → contentKey s (armedSlot s p) = some key →
       checkFront s p (armedSlot s p) (readFront (armedSlot s p) key o) = .ok i → searchPlacement s (some p) (imgPieces i) i.header.chainLen = some pl →
       ∃ t m, loadRequest s p kind o = t ∧ t.parts[p].state = .placing ∧ t.parts[p].regs.cause = 0 ∧ t.parts[p].load = some m ∧
         m.kind = kind ∧ m.image = i ∧ m.placement = pl ∧ m.phase = .preScrub ∧ m.key = key ∧ t.mem = s.mem ∧ (storeOk s → onlyLinks s t) ∧
         ∀ r ∈ placedRegions pl, t.regions[r].owner = some p ∧ t.regions[r].demand = 720 ∧
           t.regions[r].vdd = if s.regions[r].supplyOn then 720 else 0))

/-- A load that is not the image's to make is refused before it streams: on an EMPTY partition a key that does not unwrap leaves
FAULT_HELD with the cause KEY, the same cause in the bay, and a front check that fails leaves FAULT_HELD with that check's cause, which
for a chunk whose tag fails (DECRYPT) also stands in the bay. -/
def Obligations.FrontChecksRefuseALoad : Prop :=
  ∀ (p : PartId) (o : LoadObs) (s : State), s.glb.phase = .up → s.glb.serviceOnly = false → s.bays[p].accepted = true →
    s.parts[p].state = .empty → s.parts[p].active = none → s.parts[p].load = none →
    s.parts[p].flow.lupin = none → s.parts[p].flow.drain = none → s.parts[p].flow.scrub = none →
    (contentKey s (armedSlot s p) = none → ∃ t, exec (.reload p o) s = .next t ∧ standsInFault t p .faultHeld 0x0108 ∧
      t.bays[p].cause = 6 ∧ t.mem = s.mem ∧ (storeOk s → onlyLinks s t)) ∧
    (∀ key e, contentKey s (armedSlot s p) = some key → checkFront s p (armedSlot s p) (readFront (armedSlot s p) key o) = .error e →
      ∃ t, exec (.reload p o) s = .next t ∧ standsInFault t p .faultHeld e.1 ∧ t.mem = s.mem ∧ (storeOk s → onlyLinks s t) ∧
        (e.1 ≠ 0x0107 → e.1 ≠ 0x0108 → t.bays = s.bays) ∧ (e.1 = 0x0107 → t.bays[p].cause = 7))

/-- UNLOAD of a partition that runs an image, with no load in flight and nothing being cleared, begins its drain; a queued unload starts
the same way once the partition is RUNNING again. -/
def Obligations.UnloadBeginsTheDrain : Prop :=
  ∀ (p : PartId) (s : State), s.glb.phase = .up → s.glb.serviceOnly = false → s.parts[p].active.isSome = true →
    s.parts[p].load = none → s.parts[p].flow.lupin = none → s.parts[p].flow.drain = none → s.parts[p].flow.scrub = none →
    (s.parts[p].state ≠ .empty → ∃ t, exec (.unload p) s = .next t ∧ drains t p .unload ∧ t.parts[p].regs.cause = 0 ∧
      t.parts[p].active = s.parts[p].active ∧ t.mem = s.mem ∧ t.tiles = s.tiles) ∧
    (∀ o, s.parts[p].state = .running → s.parts[p].queued = some .hostUnload →
      ∃ t, exec (.queuedRequestStart p o) s = .next t ∧ drains t p .unload ∧ t.parts[p].queued = none) ∧
    (∀ o, s.parts[p].queued = none → exec (.queuedRequestStart p o) s = .next s)

/-- AUTO_RELOAD after a fault entry's scrub: the fourth within an hour only logs AUTO_LIMIT, one with no accepted cartridge only logs
AUTO_NO_CARTRIDGE; otherwise it is counted, logged, and is a load request of its own kind. PLACEMENT_RETRY of a load that waited for a
re-test: a path that is found is held at 0.72 V for the partition, which is PLACING with its pre-load scrub running; with none, and none
to be had once tests end, the load ends in FAULT_HELD with NO_PATH; while the test runs on it goes on waiting. -/
def Obligations.AutomaticReloadsAndRetriesAreLimited : Prop :=
  (∀ (p : PartId) (o : LoadObs) (s : State), s.glb.phase = .up → isFault s.parts[p].state = true → s.parts[p].flow.autoDue = true →
     s.parts[p].flow.scrub = none → s.parts[p].queued = none →
     (s.bays[p].accepted = false → ∃ t, exec (.autoReload p o) s = .next t ∧ Touch [.parts, .flt] s t ∧
       t.parts[p] = { s.parts[p] with flow := { s.parts[p].flow with autoDue := false } } ∧ t.flt = (logPart s p 0x0183 0).flt) ∧
     (s.bays[p].accepted = true → 3 ≤ (s.parts[p].autoTimes.filter (fun u => decide (now s < u + 3600000000000))).length →
       ∃ t, exec (.autoReload p o) s = .next t ∧ Touch [.parts, .flt] s t ∧
         t.parts[p] = { s.parts[p] with flow := { s.parts[p].flow with autoDue := false } } ∧ t.flt = (logPart s p 0x0182 0).flt) ∧
     (s.bays[p].accepted = true → (s.parts[p].autoTimes.filter (fun u => decide (now s < u + 3600000000000))).length < 3 →
       exec (.autoReload p o) s = .next (loadRequest (logPart (updPart s p (fun y => { y with
         flow := { y.flow with autoDue := false }
         autoTimes := now s :: s.parts[p].autoTimes.filter (fun u => decide (now s < u + 3600000000000)) })) p 0x0181
         ((s.parts[p].autoTimes.filter (fun u => decide (now s < u + 3600000000000))).length + 1)) p .automatic o))) ∧
  (∀ (p : PartId) (l : Load) (s : State), s.glb.phase = .up → s.parts[p].load = some l → l.phase = .waitRetest → l.reloadsOld = false →
     (∀ pl, searchPlacement s (some p) (imgPieces l.image) l.image.header.chainLen = some pl →
       ∃ t, exec (.placementRetry p) s = .next t ∧ t.parts[p].state = .placing ∧
         t.parts[p].load = some { l with phase := .preScrub, placement := pl } ∧ t.parts[p].active = s.parts[p].active ∧
         (∀ r ∈ placedRegions pl, t.regions[r].owner = some p ∧ t.regions[r].demand = 720 ∧
           t.regions[r].vdd = if s.regions[r].supplyOn then 720 else 0) ∧
         (∀ r, r ∉ placedRegions pl → t.regions[r].owner = s.regions[r].owner ∧ t.regions[r].vdd = s.regions[r].vdd)) ∧
     (searchPlacement s (some p) (imgPieces l.image) l.image.header.chainLen = none →
       (wouldFit s p l.image = true → exec (.placementRetry p) s = .next s) ∧
       (wouldFit s p l.image = false → s.parts[p].active = none →
         ∃ t, exec (.placementRetry p) s = .next t ∧ standsInFault t p .faultHeld 0x0109)))

/-- The load lanes: a load at the head of the waiting list that finds every lane it needs free takes one at each entry and streams;
otherwise LOAD_LANE_GRANTED changes nothing. PRE_LOAD_SCRUB_DONE leaves the path's tiles and block memory scrubbed and the partition
LOADING, streaming or waiting for its lanes. The stream: the plaintext of the next chunk whose tag verifies joins what is to be read and
nothing else changes; a chunk whose tag fails ends a cold load in FAULT_HELD with DECRYPT, the same cause in the bay. A record that the
verified chunks do not hold whole is not taken. A load stands in the waiting list from its acceptance on (the model's reading, log entry
73). -/
def Obligations.StreamsStartOnFreeLanesAndStopAtBadChunks : Prop :=
  (∀ (p : PartId) (l : Load) (s : State), s.glb.phase = .up → s.parts[p].load = some l →
     (l.phase = .waitLane → s.wafer.laneQueue.head? = some p → (∀ e ∈ lanesNeeded s (placedRegions l.placement), s.wafer.lanesHeld[e] < 2) →
       ∃ t, exec (.loadLaneGranted p) s = .next t ∧ Touch [.wafer, .parts, .imgs, .snds] s t ∧
         t.parts[p].load = some { l with phase := .streaming, loadLanes := lanesNeeded s (placedRegions l.placement) } ∧
         (∀ e : Fin 4, t.wafer.lanesHeld[e] = s.wafer.lanesHeld[e] + if e ∈ lanesNeeded s (placedRegions l.placement) then 1 else 0) ∧
         t.wafer.laneQueue = s.wafer.laneQueue.filter (fun q => decide (q ≠ p))) ∧
     (l.phase = .waitLane → (s.wafer.laneQueue.head? ≠ some p ∨ ∃ e ∈ lanesNeeded s (placedRegions l.placement), 2 ≤ s.wafer.lanesHeld[e]) →
       exec (.loadLaneGranted p) s = .next s) ∧
     (l.phase = .preScrub → ∃ t, exec (.preLoadScrubDone p []) s = .next t ∧ t.parts[p].state = .loading ∧
       (∃ m, t.parts[p].load = some m ∧ (m.phase = .streaming ∨ m.phase = .waitLane) ∧ m.image = l.image ∧ m.placement = l.placement) ∧
       ∀ r ∈ placedRegions l.placement, regionScrubbed t r)) ∧
  (∀ (p : PartId) (l : Load) (s : State), s.glb.phase = .up → s.parts[p].load = some l → l.phase = .streaming → l.checked = false →
     (∀ cipher tag text, l.chunk < chunkCount l.slot → openChunk l.slot l.key l.chunk cipher tag = some text →
       ∃ t m, exec (.chunkDecrypted p cipher tag) s = .next t ∧ Touch [.parts] s t ∧ t.parts[p] = { s.parts[p] with load := some m } ∧
         m.chunk = l.chunk + 1 ∧ m.bytes = l.bytes ∧ m.image = l.image ∧ m.phase = .streaming ∧
         (l.bytes + l.plain.length = 65536 * l.chunk → m.plain = l.plain ++ text)) ∧
     (∀ cipher tag, l.chunk < chunkCount l.slot → openChunk l.slot l.key l.chunk cipher tag = none → s.parts[p].active = none →
       isFault s.parts[p].state = false →
       ∃ t, exec (.chunkDecrypted p cipher tag) s = .next t ∧ standsInFault t p .faultHeld 0x0107 ∧ t.bays[p].cause = 7) ∧
     (∀ cipher tag, chunkCount l.slot ≤ l.chunk → exec (.chunkDecrypted p cipher tag) s = .next s) ∧
     (∀ ok hits, nextRecord s p l = none → exec (.loadRecord p ok hits) s = .next s))

/-- LOAD_RECORD of the next record of the verified plaintext. One that passes check 5 and is written joins the image, its bytes count
toward the image and the digest, and what `writeRecord` wrote stands, less what a staged load's port lost to the running image's; a group
that does not read back fails the load; one that fails check 5, or may not be written, ends a cold load with its cause; a staged one that
finds no room turns the load cold. -/
def Obligations.StreamedRecordsAreCheckedThenWritten : Prop :=
  ∀ (p : PartId) (l : Load) (bs : List Byte) (hits : List (TileAt × Nat)) (s : State), s.glb.phase = .up → s.parts[p].load = some l →
    l.phase = .streaming → l.checked = false → nextRecord s p l = some bs →
    (∀ r s1 u, checkStreamed l.image l.placement bs = .ok r → writeRecord s p l.placement r bs = .done s1 →
      u = (if l.staged then dropCollided s s1 p hits else s1) →
      (∃ t m, exec (.loadRecord p true hits) s = .next t ∧ t.parts[p].load = some m ∧ m.image.recs = l.image.recs ++ [r] ∧
        m.bytes = l.bytes + (16 + r.length) ∧ m.plain = l.plain.drop (16 + r.length) ∧ m.sha = shaFeed l.sha (digestPart bs) ∧
        m.phase = .streaming ∧ m.placement = l.placement ∧ t.mem = u.mem ∧ t.tiles = u.tiles) ∧
      exec (.loadRecord p false hits) s = .next (failGroup u p r.group)) ∧
    (∀ ok r, checkStreamed l.image l.placement bs = .ok r → writeRecord s p l.placement r bs = .noFit → l.staged = true →
      exec (.loadRecord p ok hits) s = .next (turnCold s p)) ∧
    (s.parts[p].active = none → isFault s.parts[p].state = false → ∀ ok,
      (∀ e, checkStreamed l.image l.placement bs = .error e →
        ∃ t, exec (.loadRecord p ok hits) s = .next t ∧ standsInFault t p .faultHeld e.1) ∧
      (∀ r, checkStreamed l.image l.placement bs = .ok r →
        (∀ c, writeRecord s p l.placement r bs = .refuse c →
          ∃ t, exec (.loadRecord p ok hits) s = .next t ∧ standsInFault t p .faultHeld c) ∧
        (writeRecord s p l.placement r bs = .noFit → l.staged = false →
          ∃ t, exec (.loadRecord p ok hits) s = .next t ∧ standsInFault t p .faultHeld 0x0103)))

/-- END_OF_STREAM_CHECKS, once no record is left to read, runs checks 6-8 in order, the first failure ending a cold load in FAULT_HELD
with its cause; when all pass the load is checked and goes on: a load that needs no rendezvous begins its Lupin release at stage 1 once its
ports and the reservoir are ready. A staged reload whose settings a port has refused is aborted instead with GROUP_FAILED: the old image runs
on with its input open. Before that it changes nothing. -/
def Obligations.EndOfStreamChecksRunInOrder : Prop :=
  ∀ (p : PartId) (l : Load) (g : Option Nat) (s : State), s.glb.phase = .up → s.parts[p].load = some l → l.phase = .streaming →
    l.checked = false →
    ((l.plain ≠ [] ∨ l.chunk < chunkCount l.slot) → exec (.endOfStreamChecks p g) s = .next s) ∧
    (∀ old, l.plain = [] → chunkCount l.slot ≤ l.chunk → s.parts[p].active = some old → l.staged = true → g.isSome = true →
      ∃ t, exec (.endOfStreamChecks p g) s = .next t ∧ t.parts[p].state = .running ∧ t.parts[p].active = some old ∧
        t.parts[p].load = none ∧ t.parts[p].flow.inputOpen = true ∧ t.parts[p].regs.cause = 0x0A) ∧
    (l.plain = [] → chunkCount l.slot ≤ l.chunk → s.parts[p].active = none → isFault s.parts[p].state = false →
      l.staged = false ∨ g = none →
      (check6 l.image l.placement = false → ∃ t, exec (.endOfStreamChecks p g) s = .next t ∧ standsInFault t p .faultHeld 0x0103) ∧
      (check6 l.image l.placement = true →
        (ledgerOk l.image l.placement = false → ∃ t, exec (.endOfStreamChecks p g) s = .next t ∧ standsInFault t p .faultHeld 0x0105) ∧
        (ledgerOk l.image l.placement = true → ∀ d, d = shaFinish l.sha →
          (imageSigned s { l.image with digest := d } = false →
            ∃ t, exec (.endOfStreamChecks p g) s = .next t ∧ standsInFault t p .faultHeld 0x0106) ∧
          (imageSigned s { l.image with digest := d } = true →
            (d ≠ l.slot.digest → ∃ t, exec (.endOfStreamChecks p g) s = .next t ∧ standsInFault t p .faultHeld 0x0107) ∧
            (d = l.slot.digest → (l.bytes ≠ l.image.header.length ∨ countsOk l.image = false) →
              ∃ t, exec (.endOfStreamChecks p g) s = .next t ∧ standsInFault t p .faultHeld 0x0101) ∧
            (d = l.slot.digest → l.bytes = l.image.header.length → countsOk l.image = true → l.staged = false →
              imgSpan l.image = none → portsReady s l.image = true → s.pwr.resReady = true → s.sup.activating = false →
              s.parts[p].flow.lupin = none →
              ∃ t m, exec (.endOfStreamChecks p g) s = .next t ∧ Touch [.parts] s t ∧ t.parts[p].flow.lupin = some 1 ∧
                t.parts[p].load = some m ∧ m.checked = true ∧ m.image.digest = d ∧ m.image.recs = l.image.recs)))))

/-- The Lupin release goes stage by stage: an acknowledgement of stage 1 or 2 starts the next and changes nothing else; at stage 3 the
partition is RUNNING its new image with every input open, the counts of its run at 0, every tunable at its default in generation 0 and
PRT_LDG_GEN one more. A stage that a site does not acknowledge leaves FAULT_HELD with RELEASE_FAILED. The commit point of a staged reload:
once its drain is complete and every tile, queue and stage is empty, CONTEXT_SWITCH runs the new image with the inputs open, its counts at
0 and its tunables at their defaults, and every tile of the partition switched to its loaded context; a group that cannot apply leaves the
old image running, with GROUP_FAILED. -/
def Obligations.CommitPointsRunTheNewImage : Prop :=
  (∀ (p : PartId) (k : Nat) (s : State), s.glb.phase = .up → s.parts[p].flow.lupin = some k →
     (∀ l, s.parts[p].load = some l → k < 3 → ∃ t, exec (.lupinStageAck p none) s = .next t ∧ Touch [.parts] s t ∧
       t.parts[p] = { s.parts[p] with flow := { s.parts[p].flow with lupin := some (k + 1) } }) ∧
     (∀ l, s.parts[p].load = some l → 3 ≤ k → ∃ t, exec (.lupinStageAck p none) s = .next t ∧
       t.parts[p].state = .running ∧ t.parts[p].active = some l.image ∧ t.parts[p].placement = some l.placement ∧ t.parts[p].load = none ∧
       t.parts[p].flow.inputOpen = true ∧ t.parts[p].flow.windows = [] ∧ t.parts[p].flow.hyst = [] ∧ t.parts[p].flow.lupin = none ∧
       t.parts[p].regs.win = 0 ∧ t.parts[p].regs.vrd = 0 ∧ t.parts[p].regs.rej = 0 ∧ t.parts[p].regs.nacc = 0 ∧
       t.parts[p].tun = freshTunables l.image ∧ t.parts[p].regs.ldgGen = (s.parts[p].regs.ldgGen + 1) % 2 ^ 32) ∧
     (isFault s.parts[p].state = false → ∃ t, exec (.releaseFailed p) s = .next t ∧ standsInFault t p .faultHeld 0x0113) ∧
     (∀ l g, s.parts[p].load = some l → l.staged = false → isFault s.parts[p].state = false →
       ∃ t, exec (.lupinStageAck p (some g)) s = .next t ∧ standsInFault t p .faultHeld 0x010A)) ∧
  (∀ (p : PartId) (l : Load) (old : Image) (s : State), s.glb.phase = .up → s.parts[p].flow.drain = some .staged →
     s.parts[p].flow.drained = true → s.parts[p].load = some l → s.parts[p].active = some old →
     (∀ g, partEmpty s p = false → exec (.contextSwitch p g) s = .next s) ∧
     (partEmpty s p = true → ∃ t, exec (.contextSwitch p none) s = .next t ∧ t.parts[p].state = .running ∧ t.parts[p].active = some l.image ∧
       t.parts[p].load = none ∧ t.parts[p].flow.inputOpen = true ∧ t.parts[p].flow.drain = none ∧ t.parts[p].regs.win = 0 ∧
       t.parts[p].tun = freshTunables l.image ∧ t.parts[p].regs.ldgGen = (s.parts[p].regs.ldgGen + 1) % 2 ^ 32 ∧
       (storeOk s → ∀ k : Nat, tileIn (runRegions s p) k = true → getTile t k = switchTile (getTile s k))) ∧
     (∀ g, partEmpty s p = true → l.staged = true → ∃ t, exec (.contextSwitch p (some g)) s = .next t ∧ t.parts[p].state = .running ∧
       t.parts[p].active = some old ∧ t.parts[p].load = none ∧ t.parts[p].flow.inputOpen = true ∧ t.parts[p].regs.cause = 0x0A))

/-- DRAIN_COMPLETE ends a drain only when every accepted window has its record and every tile, queue and stage is empty. After an unload,
a removal or an aborted load the image runs no more, its pins stand unclaimed, and the unload scrub of its regions is due; a staged drain
only waits for its context switch. UNLOAD_SCRUB_DONE to EMPTY, once no census is still to be read: the partition holds nothing any more,
its regions are scrubbed and belong to no partition, and one of `failed` is off. POST_COMMIT_SCRUB_DONE leaves no claim and no context of
the replaced image. -/
def Obligations.DrainsEndEmptyAndScrubsGiveRegionsBack : Prop :=
  (∀ (p : PartId) (why : DrainWhy) (s : State), s.glb.phase = .up → s.sup.activating = false → s.parts[p].flow.drain = some why →
     s.parts[p].flow.drained = false →
     (drainedOut s p = false → exec (.drainComplete p) s = .next s) ∧
     (drainedOut s p = true → why = .staged → ∃ t, exec (.drainComplete p) s = .next t ∧ t.parts[p].flow.drained = true ∧
       t.parts[p].active = s.parts[p].active ∧ t.pins = s.pins ∧ t.mem = s.mem ∧ t.tiles = s.tiles) ∧
     (drainedOut s p = true → why ∈ [DrainWhy.unload, .stopOnRemoval, .aborted] →
       ∃ t, exec (.drainComplete p) s = .next t ∧ t.parts[p].active = none ∧ t.parts[p].flow.scrub = some .toEmpty ∧
         t.parts[p].flow.drain = none ∧ t.parts[p].flow.inputOpen = false ∧ t.mem = s.mem ∧ (storeOk s → onlyLinks s t) ∧
         ∀ n : PinId, s.pins[n].claimed = some p → t.pins[n].claimed = none ∧ t.pins[n].entry = none ∧
           (∀ e, s.pins[n].entry = some e → t.pins[n].level = failLevel e))) ∧
  (∀ (p : PartId) (s : State), s.glb.phase = .up →
     (∀ failed, s.parts[p].flow.scrub = some .toEmpty → censusBusy s.parts[p].census = false → s.parts[p].load = none →
       ∃ t, exec (.unloadScrubDone p failed) s = .next t ∧ t.parts[p].state = .empty ∧ t.parts[p].active = none ∧
         t.parts[p].placement = none ∧ t.parts[p].load = none ∧ t.parts[p].flow = {} ∧
         ∀ r : RegionId, s.regions[r].owner = some p → t.regions[r].owner = none ∧ regionScrubbed t r ∧
           (r ∈ failed → t.regions[r].supplyOn = false)) ∧
     (∀ failed, censusBusy s.parts[p].census = true → exec (.unloadScrubDone p failed) s = .next s) ∧
     (∀ beyond i failed, s.parts[p].fabric.postScrub = some beyond → s.parts[p].active = some i →
       ∃ t, exec (.postCommitScrubDone ⟨p, failed⟩) s = .next t ∧ t.parts[p].fabric.postScrub = none ∧ t.parts[p].active = some i ∧
         t.parts[p].state = s.parts[p].state ∧
         t.parts[p].fabric.claims = s.parts[p].fabric.claims.filter (fun c => decide (c.use ≠ .old)) ∧
         (storeOk s → ∀ (k : Nat) (c : Fin 4), tileIn (heldRegions s p) k = true → (getTile t k).ctx[c].use ≠ .old)))

/-- A span piece that still waits for its rendezvous 30 s after it entered SPAN_WAIT goes to FAULT_HELD with SPAN_TIMEOUT and its regions'
unload scrub due; a partition whose oldest accepted window has outrun its bound with no spill episode in the way goes to FAULT_HELD with
PROGRESS_LOST and takes its final census. Entry into a fault state: nothing of the partition runs or loads any more, the cause is logged,
the boundary gates of its regions close, and from RUNNING, STAGED or DRAINING every pin it claims goes to its fail-safe level. A cause
that finds the partition already in a fault state is logged and changes nothing else. -/
def Obligations.FaultEntriesStopThePartition : Prop :=
  (∀ (p : PartId) (s : State), s.glb.phase = .up →
     (s.parts[p].state = .spanWait → s.parts[p].flow.lupin = none → s.parts[p].load.isSome = true →
       s.parts[p].flow.since + 30000000000 ≤ now s → ∃ t, exec (.spanTimeout p) s = .next t ∧ standsInFault t p .faultHeld 0x010B ∧ t.parts[p].flow.scrub = some .fault) ∧
     ((s.parts[p].state ≠ .spanWait ∨ s.parts[p].flow.lupin.isSome = true ∨ now s < s.parts[p].flow.since + 30000000000) → exec (.spanTimeout p) s = .next s) ∧
     (isServing s.parts[p].state = true → progressLost s p = true →
       ∃ t, exec (.progressWatchdog p) s = .next t ∧ standsInFault t p .faultHeld 0x010C ∧ t.parts[p].flow.scrub = some .fault ∧
         (t.parts[p].census.run.isSome = true ∨ t.parts[p].census.finalRun.isSome = true)) ∧
     ((isServing s.parts[p].state = false ∨ progressLost s p = false) → exec (.progressWatchdog p) s = .next s)) ∧
  (∀ (s : State) (p : PartId) (st : PState) (code d0 : Nat),
     (isFault s.parts[p].state = false →
       standsInFault (faultEntry s p st code d0) p st code ∧ (faultEntry s p st code d0).flt = (logPart s p code d0).flt ∧
       (∀ q, q ≠ p → (faultEntry s p st code d0).parts[q] = s.parts[q]) ∧
       (storeOk s → onlyLinks s (faultEntry s p st code d0)) ∧ (faultEntry s p st code d0).mem = s.mem ∧
       (∀ r : RegionId, s.regions[r].owner = some p →
         (faultEntry s p st code d0).regions[r].gates = Vector.replicate 4 false ∧ (faultEntry s p st code d0).regions[r].owner = some p) ∧
       ∀ n : PinId, (faultEntry s p st code d0).pins[n] =
         if isServing s.parts[p].state = true ∧ s.pins[n].claimed = some p then pinFailSafe s.pins[n] else s.pins[n]) ∧
     (isFault s.parts[p].state = true →
       Touch [.flt] s (faultEntry s p st code d0) ∧ (faultEntry s p st code d0).flt = (logPart s p code d0).flt))

/-- PRT_APPLY is accepted only while the partition is RUNNING, STAGED or DRAINING, and is checked against its active image; in any other
state it sets APPLY_ERR and nothing else changes. While an earlier apply is pending it sets APPLY_BUSY; a shadow set that breaks a bound
or a relation sets APPLY_ERR and changes no value in force; an accepted set is the next generation, bound from the next window on. -/
def Obligations.ApplyTakesTheWholeShadowSetOrNothing : Prop :=
  ∀ (p : PartId) (s : State), s.glb.phase = .up →
    ((s.parts[p].state ≠ .running ∧ s.parts[p].state ≠ .staged ∧ s.parts[p].state ≠ .draining) →
      ∃ t, exec (.apply p 1) s = .next t ∧ Touch [.signals, .parts] s t ∧
        t.parts[p] = { s.parts[p] with regs := { s.parts[p].regs with applyErr := true } } ∧ ∀ q, q ≠ p → t.parts[q] = s.parts[q]) ∧
    (∀ i, isServing s.parts[p].state = true → s.parts[p].active = some i → (∃ w ∈ s.parts[p].flow.windows, w.gen ≠ s.parts[p].tun.gen) →
      ∃ t, exec (.apply p 1) s = .next t ∧ Touch [.signals, .parts] s t ∧
        t.parts[p] = { s.parts[p] with regs := { s.parts[p].regs with applyBusy := true } }) ∧
    (∀ i, isServing s.parts[p].state = true → s.parts[p].active = some i → (∀ w ∈ s.parts[p].flow.windows, w.gen = s.parts[p].tun.gen) →
      (shadowOk (imgTunables i).1 (imgTunables i).2 (s.parts[p].tun.shadow.toList.take (imgTunables i).1.length) = false →
        ∃ t, exec (.apply p 1) s = .next t ∧ Touch [.signals, .parts] s t ∧
          t.parts[p] = { s.parts[p] with regs := { s.parts[p].regs with applyErr := true } }) ∧
      (shadowOk (imgTunables i).1 (imgTunables i).2 (s.parts[p].tun.shadow.toList.take (imgTunables i).1.length) = true →
        (imgTunables i).1 ≠ [] →
        ∃ t, exec (.apply p 1) s = .next t ∧ Touch [.signals, .parts] s t ∧
          t.parts[p] = { s.parts[p] with
            regs := { s.parts[p].regs with applyDone := true }
            tun := { s.parts[p].tun with
              gen := (s.parts[p].tun.gen + 1) % 65536
              sets := (s.parts[p].flow.entered, s.parts[p].tun.shadow.toList.take (imgTunables i).1.length) :: s.parts[p].tun.sets } })) ∧
    (∀ v : Word, v ≠ 1 → exec (.apply p v) s = .next s)

/-- A write of PRT_TUNn stores a value that fits the tunable's format in the shadow register and nothing else; the values in force stand.
Without an active image, at n not below NT, or with a value that does not fit, it is ignored. -/
def Obligations.TunableWritesReachOnlyTheShadow : Prop :=
  ∀ (p : PartId) (n : Fin 32) (v : Word) (s : State), s.glb.phase = .up →
    (∀ i e, s.parts[p].active = some i → (imgTunables i).1[n.val]? = some e →
      (e.format = 0 ∨ v.toNat < 65536) →
      ∃ t, exec (.prtTunWrite p n v) s = .next t ∧ Touch [.parts] s t ∧
        t.parts[p] = { s.parts[p] with tun := { s.parts[p].tun with shadow := s.parts[p].tun.shadow.set n.val v n.isLt } }) ∧
    (s.parts[p].active = none → exec (.prtTunWrite p n v) s = .next s) ∧
    (∀ i, s.parts[p].active = some i → (imgTunables i).1.length ≤ n.val → exec (.prtTunWrite p n v) s = .next s) ∧
    (∀ i e, s.parts[p].active = some i → (imgTunables i).1[n.val]? = some e → e.format ≠ 0 →
      65536 ≤ v.toNat → exec (.prtTunWrite p n v) s = .next s)

/-- VERDICT_RELEASE releases the oldest token with the oldest accepted window once that window's last sample has entered and the declared
interval has passed since the previous release: one record is counted, a reject with it, both leave their queues, and each pin that the
running image claims takes its level from the token. Until then nothing happens. PIN_PULSE_END, once the width has passed since the
latest matching release: a pulsing pin that the running image claims returns to the pass level of the settings its pulse ran under; one
that it does not claim goes to its fail-safe level. A pin without a pulse, or whose width has not passed, keeps its level. -/
def Obligations.VerdictsPairTokensAndPulsesEnd : Prop :=
  (∀ (p : PartId) (i : Image) (s : State), s.glb.phase = .up → s.parts[p].active = some i →
     (∀ tok toks w ws last, isServing s.parts[p].state = true → s.parts[p].flow.tokens = tok :: toks → s.parts[p].flow.windows = w :: ws →
       w.tLast = some last → (∀ r, s.parts[p].flow.lastRelease = some r → r + (imgContract i).verdictInterval ≤ now s) →
       ∃ t, exec (.verdictRelease p) s = .next t ∧ Touch [.parts, .pins, .exps, .arbLast, .spa] s t ∧
         (∀ q, q ≠ p → t.parts[q] = s.parts[q]) ∧
         t.parts[p].regs.vrd = s.parts[p].regs.vrd + 1 ∧ t.parts[p].regs.rej = s.parts[p].regs.rej + (if tok.reject then 1 else 0) ∧
         t.parts[p].flow.tokens = toks ∧ t.parts[p].flow.windows = ws ∧ t.parts[p].flow.seq = s.parts[p].flow.seq + 1 ∧
         t.parts[p].flow.lastRelease = some (now s) ∧ t.parts[p].state = s.parts[p].state ∧
         (∀ n : PinId, (s.pins[n].claimed ≠ some p ∨ s.pins[n].failsafe = true ∨ pinEntryOf i n = none) → t.pins[n] = s.pins[n]) ∧
         (∀ (n : PinId) e, s.pins[n].claimed = some p → s.pins[n].failsafe = false → pinEntryOf i n = some e →
           (tok.reject = true → bitOf e.classSet tok.cls = true → t.pins[n].level = rejectLevel e ∧ t.pins[n].pulsing = decide (e.pulseNs ≠ 0)) ∧
           ((tok.reject = false ∨ bitOf e.classSet tok.cls = false) → e.pulseNs = 0 → t.pins[n].level = passLevel e) ∧
           ((tok.reject = false ∨ bitOf e.classSet tok.cls = false) → e.pulseNs ≠ 0 → t.pins[n] = s.pins[n]))) ∧
     ((isServing s.parts[p].state = false ∨ s.parts[p].flow.tokens = [] ∨ s.parts[p].flow.windows = [] ∨
         (∃ w ws, s.parts[p].flow.windows = w :: ws ∧ w.tLast = none) ∨ (∃ r, s.parts[p].flow.lastRelease = some r ∧
         now s < r + (imgContract i).verdictInterval)) → exec (.verdictRelease p) s = .next s)) ∧
  (∀ (n : PinId) (s : State), s.glb.phase = .up →
     (s.pins[n].pulsing = false → exec (.pinPulseEnd n) s = .next s) ∧
     (∀ e, s.pins[n].pulsing = true → (s.pins[n].pulseEntry <|> s.pins[n].entry) = some e →
       (now s < s.pins[n].pulseAt + e.pulseNs → exec (.pinPulseEnd n) s = .next s) ∧
       (s.pins[n].pulseAt + e.pulseNs ≤ now s →
         ∃ t, exec (.pinPulseEnd n) s = .next t ∧ Touch [.pins] s t ∧ t.pins[n].pulsing = false ∧ (∀ m, m ≠ n → t.pins[m] = s.pins[m]) ∧
           (∀ p i, s.pins[n].claimed = some p → s.parts[p].active = some i → (pinEntryOf i n).isSome = true →
             t.pins[n].level = passLevel e) ∧
           ((∀ p i, s.pins[n].claimed = some p → s.parts[p].active = some i → pinEntryOf i n = none) → t.pins[n].level = failLevel e))))

/-- A VRD_ALLOC write goes byte by byte: an unclaimed pin takes its new entry and drives its unclaimed level at once, a claimed pin keeps
its entry, and a byte that would change a claimed pin's entry sets ALLOC_HELD; a reserved bit in any byte makes the whole write do
nothing. That a byte which changes nothing does not set ALLOC_HELD is the model's reading (log entry 52). -/
def Obligations.PinAllocationGoesByteByByte : Prop :=
  ∀ (i : Fin 8) (v : Word) (s : State), s.glb.phase = .up →
    ((∃ k : Fin 4, 32 ≤ v.toNat / 256 ^ k.val % 256) → exec (.vrdAllocWrite i v) s = .next s) ∧
    ((∀ k : Fin 4, v.toNat / 256 ^ k.val % 256 < 32) →
      ∃ t, exec (.vrdAllocWrite i v) s = .next t ∧ Touch [.signals, .pins, .allocHeld] s t ∧
        (∀ n : PinId, (n.val / 4 ≠ i.val ∨ s.pins[n].claimed.isSome = true) → t.pins[n] = s.pins[n]) ∧
        (∀ (n : PinId) (b : Nat), n.val / 4 = i.val → s.pins[n].claimed = none → b = v.toNat / 256 ^ (n.val % 4) % 256 →
          t.pins[n].bay.val = b % 8 ∧ t.pins[n].allocated = b.testBit 3 ∧ t.pins[n].unclaimedHigh = b.testBit 4 ∧
          t.pins[n].level = (if b.testBit 4 then .high else .low) ∧ t.pins[n].held = false) ∧
        t.allocHeld = (s.allocHeld || decide (∃ n : PinId, n.val / 4 = i.val ∧ s.pins[n].claimed.isSome = true ∧
          allocByte s.pins[n] ≠ v.toNat / 256 ^ (n.val % 4) % 256)))

/-- RGN_TEST starts a re-test of a region that belongs to no partition, is not under test, has its supply in service and is reached by the
configuration network: the region closes its gates and stands at 0.72 V under test. Any other region reports NOT_IDLE and nothing else of
it changes; a re-test that runs goes on. IN_FIELD_RETEST_DONE ends a region's re-test: it is no longer under test, its tiles and
block memory stand at their scrubbed values and, where its supply held, it stands at 0.60 V; an aborted one, or one whose region has lost
its supply, reports ABORTED, a finished one its result. Without a running re-test it does nothing. -/
def Obligations.RetestsStartIdleAndEndWithTheirResult : Prop :=
  (∀ (r : RegionId) (s : State), s.glb.phase = .up →
     (s.regions[r].owner = none → s.regions[r].underTest = false → s.regions[r].supplyOn = true → s.regions[r].supplyOut = false →
       s.regions[r].cycleOff = false → s.regions[r].heatOff = false → s.regions[r].unreachable = false → reachable s r = true →
       ∃ t, exec (.rgnTest r 1) s = .next t ∧ Touch [.regions, .tiles] s t ∧ (storeOk s → onlyLinks s t) ∧ t.regions[r].underTest = true ∧ t.regions[r].retest = 1 ∧
         t.regions[r].vdd = 720 ∧ t.regions[r].gates = Vector.replicate 4 false ∧ t.regions[r].testStart = now s) ∧
     ((s.regions[r].owner.isSome = true ∨ s.regions[r].underTest = true ∨ s.regions[r].supplyOn = false ∨
         s.regions[r].unreachable = true ∨ reachable s r = false) →
       ∃ t, exec (.rgnTest r 1) s = .next t ∧ Touch [.regions] s t ∧
         t.regions[r] = { s.regions[r] with retest := 5 } ∧ ∀ q, q ≠ r → t.regions[q] = s.regions[q])) ∧
  (∀ (r : RegionId) (f : WaferFindings) (s : State), s.glb.phase = .up →
     (∀ a, s.regions[r].underTest = false → exec (.inFieldRetestDone r f a) s = .next s) ∧
     (∀ a, s.regions[r].underTest = true → (a = true ∨ s.regions[r].supplyOn = false) →
       ∃ t, exec (.inFieldRetestDone r f a) s = .next t ∧ t.regions[r].underTest = false ∧ t.regions[r].retest = 6 ∧
         t.regions[r].vdd = (if s.regions[r].supplyOn = true then 600 else 0) ∧ regionScrubbed t r) ∧
     (s.regions[r].underTest = true → s.regions[r].supplyOn = true →
       ∃ t, exec (.inFieldRetestDone r f false) s = .next t ∧ t.regions[r].underTest = false ∧
         t.regions[r].retest ∈ [2, 3, 4, 7] ∧ regionScrubbed t r ∧ (r ∉ f.supplyOut → t.regions[r].vdd = 600)))

/-- After a current-ceiling, throttle or cap-loop tick or a policy epoch, every region whose supply is on and whose partition runs stands
at the least of its demand and its throttle, current and cap ceilings, not below 0.60 V (the floor is the model's choice, log entry 20);
for the current-ceiling tick this is said of the regions it measures. -/
def Obligations.RunningRegionsStandAtTheLeastCeiling : Prop :=
  ∀ (c : Instr) (s t : State), s.glb.phase = .up → exec c s = .next t →
    ((∃ temps, c = .throttleTick temps) ∨ c = .policyEpoch ∨ (∃ w, c = .capLoopTick w) ∨ (∃ amps, c = .currentCeilingTick amps)) →
    ∀ (r : RegionId) (p : PartId), t.regions[r].owner = some p → isServing t.parts[p].state = true → t.regions[r].supplyOn = true →
      (∀ amps, c = .currentCeilingTick amps → r ∈ amps.map (·.1)) →
      t.regions[r].vdd = max 600 (min (min t.regions[r].demand t.regions[r].throttleCeil) (min t.regions[r].currentCeil (capCeilOf t r)))

/-- CURRENT_CEILING_TICK: above 180 A a region's ceiling becomes its VDD less 5 mV, within the supply's range; below 170 A it rises by 5
mV, up to 0.85 V; between, it stands. An unmeasured region keeps everything. THROTTLE_TICK lowers the ceiling of one region only, the
hottest above 95 C whose ceiling is above 0.60 V, by 10 mV; every other region's ceiling stands or, cooled below 90 C for 10 ms since its
last change, rises by 10 mV up to 0.85 V. -/
def Obligations.CeilingsFollowCurrentAndHeat : Prop :=
  (∀ (r : RegionId) (a : Nat) (s : State), s.glb.phase = .up → s.regions[r].supplyOn = true →
     ∃ t, exec (.currentCeilingTick [(r, a)]) s = .next t ∧ Touch [.regions] s t ∧ (∀ q, q ≠ r → t.regions[q] = s.regions[q]) ∧
       t.regions[r].current = a ∧
       (1800 < a → t.regions[r].currentCeil = max 600 (s.regions[r].vdd - 5)) ∧
       (a < 1700 → t.regions[r].currentCeil = min 850 (s.regions[r].currentCeil + 5)) ∧
       (1700 ≤ a → a ≤ 1800 → t.regions[r].currentCeil = s.regions[r].currentCeil)) ∧
  (∀ (temps : List (RegionId × Int)) (s : State), s.glb.phase = .up →
     ∃ t, exec (.throttleTick temps) s = .next t ∧
       ∀ r : RegionId, let g := s.regions[r]; let v := if g.supplyOn then (temps.lookup r).getD g.temp else g.temp
         t.regions[r].temp = v ∧ t.regions[r].tempHigh = max g.tempHigh v ∧
         (t.regions[r].throttleCeil < g.throttleCeil → t.regions[r].throttleCeil = g.throttleCeil - 10 ∧ 950 < v ∧ 600 < g.throttleCeil ∧
           ∀ q : RegionId, s.regions[q].supplyOn = true → 600 < s.regions[q].throttleCeil → t.regions[q].temp ≤ v) ∧
         (g.throttleCeil < t.regions[r].throttleCeil → t.regions[r].throttleCeil = min 850 (g.throttleCeil + 10) ∧ v < 900 ∧ 9 ≤ g.throttleAge) ∧
         t.regions[r].supplyOn = g.supplyOn ∧ t.regions[r].owner = g.owner)

/-- SHORT and HEAT_SHED turn a region's converter off: its gates close, its tiles and block memory hold nothing any more, and a running
partition that owns it enters FAULT_DARK or FAULT_HOT. A shorted region, and one shed three times in an hour, stays out until a power
cycle; one shed less often waits for its re-check, which powers it for a re-test once it is below 90 C and belongs to no partition; one
still held stays off until the next check (the model's choice, log entry 112). -/
def Obligations.RegionLossDarkensItsPartition : Prop :=
  ∀ (r : RegionId) (s : State), s.glb.phase = .up →
    (s.regions[r].supplyOn = true → ∃ t, exec (.short r) s = .next t ∧ t.regions[r].supplyOn = false ∧ t.regions[r].vdd = 0 ∧
      t.regions[r].gates = Vector.replicate 4 false ∧ t.regions[r].cycleOff = true ∧ regionScrubbed t r ∧
      ∀ p, s.regions[r].owner = some p → isFault s.parts[p].state = false → standsInFault t p .faultDark 0x0120) ∧
    (∀ x, s.regions[r].supplyOn = true → 1050 ≤ x → ∃ t, exec (.heatShed r x) s = .next t ∧ t.regions[r].supplyOn = false ∧
      t.regions[r].vdd = 0 ∧ t.regions[r].temp = x ∧ t.regions[r].sheds = min 255 (s.regions[r].sheds + 1) ∧ regionScrubbed t r ∧
      t.regions[r].cycleOff = (s.regions[r].cycleOff ||
        decide (2 ≤ (s.regions[r].shedTimes.filter (fun u => decide (now s < u + 3600000000000))).length)) ∧
      ∀ p, s.regions[r].owner = some p → isFault s.parts[p].state = false → standsInFault t p .faultHot 0x0121) ∧
    (∀ x, x < 1050 → exec (.heatShed r x) s = .next s) ∧
    (∀ x, s.regions[r].heatOff = true → s.regions[r].supplyOn = false → s.regions[r].owner = none → x < 900 →
      ∃ t, exec (.heatShedRecheck r x) s = .next t ∧ t.regions[r].supplyOn = true ∧ t.regions[r].heatOff = false ∧
        t.regions[r].underTest = true ∧ t.regions[r].vdd = 720) ∧
    (∀ x, s.regions[r].heatOff = true → s.regions[r].supplyOn = false → (900 ≤ x ∨ s.regions[r].owner.isSome = true) →
      ∃ t, exec (.heatShedRecheck r x) s = .next t ∧ Touch [.regions] s t ∧
        t.regions[r] = { s.regions[r] with temp := x, tempHigh := max s.regions[r].tempHigh x })

/-- Host power policy: a write in its item's range waits in its register for the next policy epoch, one outside it is ignored and sets
POLICY_ERR; at the epoch the last values written come into force, and without the binding bit no cap ceiling remains. -/
def Obligations.PolicyTakesEffectAtTheEpoch : Prop :=
  ∀ (v : Word) (s : State), s.glb.phase = .up →
    (500 ≤ v.toNat → v.toNat ≤ 3600 → exec (.policyWrite .cap v) s = .next { s with pwr := { s.pwr with cap := v.toNat } }) ∧
    (v.toNat ≤ 1 → exec (.policyWrite .ctrl v) s = .next { s with pwr := { s.pwr with binding := decide (v = 1) } }) ∧
    (∀ p, v.toNat ≤ 7 → exec (.policyWrite (.prio p) v) s = .next (updPartRegs s p (fun r => { r with prio := v.toNat }))) ∧
    (∀ p, v.toNat ≤ 50 → exec (.policyWrite (.margin p) v) s = .next (updPartRegs s p (fun r => { r with margin := v.toNat }))) ∧
    (∀ item, policyOk item v = false → exec (.policyWrite item v) s = .next { s with pwr := { s.pwr with policyErr := true } }) ∧
    ∃ t, exec .policyEpoch s = .next t ∧ Touch [.pwr, .regions, .parts] s t ∧
      t.pwr.force.cap = s.pwr.cap ∧ t.pwr.force.binding = s.pwr.binding ∧
      (∀ p : PartId, t.pwr.force.prio[p] = s.parts[p].regs.prio ∧ t.pwr.force.margin[p] = s.parts[p].regs.margin ∧
        t.parts[p].regs.marginTaken ≤ t.pwr.force.margin[p] ∧ (s.pwr.binding = false → t.parts[p].regs.capCeil = none) ∧
        t.parts[p].state = s.parts[p].state ∧ t.parts[p].flow = s.parts[p].flow)

/-- CAP_LOOP_TICK above the cap takes margin from one partition before it lowers any cap ceiling; with no margin left and no binding cap
it moves neither, sets CAP_UNMET and gives the shortfall in watts. Well below the cap CAP_UNMET clears. RATE_LOOP_TICK, where no region
serves two running partitions: the demand of a running partition's region moves by at most 5 mV and stays within 0.60-0.85 V, every other
region stands, and the interval's window count restarts in every running partition only. -/
def Obligations.CapAndRateLoopsStepTheirRegions : Prop :=
  (∀ (w : Nat) (s : State), s.glb.phase = .up →
     (s.pwr.force.cap < w → (∃ p ∈ ranked s, 0 < marginInForce s p) →
       ∃ t, exec (.capLoopTick w) s = .next t ∧ t.pwr.inputW = w ∧ (∀ p : PartId, t.parts[p].regs.capCeil = s.parts[p].regs.capCeil) ∧
         ∃ p ∈ ranked s, 0 < marginInForce s p ∧
           t.parts[p].regs.marginTaken = s.parts[p].regs.marginTaken + min 5 (marginInForce s p) ∧
           ∀ q, q ≠ p → t.parts[q].regs.marginTaken = s.parts[q].regs.marginTaken) ∧
     (s.pwr.force.cap < w → (∀ p ∈ ranked s, marginInForce s p = 0) → s.pwr.force.binding = false →
       ∃ t, exec (.capLoopTick w) s = .next t ∧ t.parts = s.parts ∧ t.pwr.capUnmet = true ∧ t.pwr.shortfall = w - s.pwr.force.cap) ∧
     (50 * w + max s.pwr.force.cap 1000 ≤ 50 * s.pwr.force.cap →
       ∃ t, exec (.capLoopTick w) s = .next t ∧ t.pwr.capUnmet = false ∧ t.pwr.shortfall = 0 ∧ t.pwr.inputW = w)) ∧
  (∀ (busy : List (RegionId × Nat)) (s : State), s.glb.phase = .up →
     (allParts.flatMap (fun p => if isServing s.parts[p].state then runRegions s p else [])).Nodup →
     ∃ t, exec (.rateLoopTick busy) s = .next t ∧ Touch [.signals, .regions, .parts, .flt] s t ∧
       (∀ p : PartId, isServing s.parts[p].state = true → t.parts[p].flow.interval = 0 ∧ t.parts[p].state = s.parts[p].state) ∧
       (∀ p : PartId, isServing s.parts[p].state = false → t.parts[p] = s.parts[p]) ∧
       ∀ r : RegionId,
         ((∀ p : PartId, isServing s.parts[p].state = true → r ∉ runRegions s p) → t.regions[r] = s.regions[r]) ∧
         (600 ≤ s.regions[r].demand → s.regions[r].demand ≤ 850 →
           600 ≤ t.regions[r].demand ∧ t.regions[r].demand ≤ 850 ∧ t.regions[r].demand ≤ s.regions[r].demand + 5 ∧
           s.regions[r].demand ≤ t.regions[r].demand + 5))

/-- A supply sag or overvoltage sheds the wafer, drives every claimed pin to its fail-safe level and, while the reservoir lasts, writes the
save record with the cause and a life record on exactly those accepted cartridges of `written` below 100,000 state writes; every bay turns
off with PERST# and its bus lines low. Where the reservoir gives out first the current save record stands and no life record is written.
When the reservoir is exhausted every pin falls to high impedance. -/
def Obligations.SagShedsTheWaferAndSaves : Prop :=
  ∀ (ov torn saved : Bool) (written : List BayId) (s : State), s.glb.phase = .up →
    (∃ t, exec (.supplySag ov ⟨written, torn, saved⟩) s = .next t ∧ t.glb.phase = .shed ∧ t.glb.linkUp = false ∧ waferShed t ∧ claimedPinsFailSafe s t ∧
      t.flt = (logEvent s 0x0009 0 (if ov then 1 else 0) 0 false).flt ∧
      (saved = false → curSave t = curSave s) ∧
      (saved = true → ∃ r, curSave t = some r ∧ r.cause = (if ov then 1 else 0) ∧ r.powerOn = s.glb.powerOn ∧ r.time = now s ∧
        (∀ old, curSave s = some old → r.seq = old.seq + 1) ∧ (curSave s = none → r.seq = 0)) ∧
      ∀ b : BayId, t.bays[b].power = false ∧ t.bays[b].perst = true ∧ t.bays[b].busLow = true ∧
        t.bays[b].lifeSeq = s.bays[b].lifeSeq + (if saved = true ∧ b ∈ written ∧ s.bays[b].accepted = true ∧ s.bays[b].power = true ∧
          s.bays[b].stateWrites < 100000 then 1 else 0)) ∧
    (∀ u, u.glb.phase = .shed → ∃ t, exec .reservoirExhausted u = .next t ∧ t.glb.phase = .off ∧ ∀ n : PinId, t.pins[n].level = .hiZ)

/-- The unit's measurements: LOW_INPUT below 42 V, HIGH_INPUT above 58 V, COOLING_OUT_OF_SPEC outside the inlet and flow limits, each
logged when it begins and not again while it lasts; the reservoir's charge lets waiting releases go on and sets SAVE_AT_RISK when it was
not reached in time. -/
def Obligations.MeasurementsReportOncePerEpisode : Prop :=
  ∀ s : State, s.glb.phase = .up →
    (∀ d : Nat, ∃ t, exec (.inputOutOfRange d) s = .next t ∧ Touch [.signals, .pwr, .flt] s t ∧ t.pwr.inputDv = d ∧
      t.pwr.lowInput = decide (d < 420) ∧ t.pwr.highInput = decide (580 < d) ∧
      (d < 420 → s.pwr.lowInput = false → reports s t 0x000A 0 0 0 false 0) ∧
      (580 < d → s.pwr.highInput = false → reports s t 0x000B 0 0 0 false 0) ∧
      ((d < 420 → s.pwr.lowInput = true) → (580 < d → s.pwr.highInput = true) → t.flt = s.flt ∧ t.glb = s.glb)) ∧
    (∀ (inlet outlet : Int) (flow : Nat) (glycol : Bool), ∃ t, exec (.coolingMeasurement inlet outlet flow glycol) s = .next t ∧
      Touch [.signals, .pwr, .flt] s t ∧
      t.pwr.inlet = inlet ∧ t.pwr.outlet = outlet ∧ t.pwr.flow = flow ∧
      t.pwr.coolOut = (decide (inlet < 150) || decide (350 < inlet) || decide (flow < if glycol then 750 else 600)) ∧
      (t.pwr.coolOut = true → s.pwr.coolOut = false → reports s t 0x000C 0 0 0 false 0) ∧
      ((t.pwr.coolOut = true → s.pwr.coolOut = true) → t.flt = s.flt ∧ t.glb = s.glb)) ∧
    (∀ a, s.pwr.resReady = false → ∃ t, exec (.reservoirCharged a) s = .next t ∧ t.pwr.resReady = true ∧
      t.pwr.saveAtRisk = (s.pwr.saveAtRisk || !a) ∧ (a = true → t.pwr.resMv = 4800) ∧ (a = true → t.flt = s.flt))

/-- A camera port's bring-up. Its script runs; where every compare holds, its completion makes the port ready on the settings it was
brought up with, which trigger on an encoder's pulses, and ends what was wrong with it; a port that still feeds an image keeps its triggers
and lines. A failing compare, or a failure before the release of a cold load puts the loading partition into FAULT_HELD with
GROUP_FAILED. Of a port that delivers, a header that does not fit the contract begins an episode, logged once, and one that fits ends it;
a port that is not yet delivering only keeps a first header that fits. -/
def Obligations.CameraPortsComeUpAndCheckHeaders : Prop :=
  ∀ (c m : ImgId) (p : PartId) (x : ImgConn) (y : ImgPortRec) (s : State), s.glb.phase = .up → m = s.imgs[c].master → x = s.imgs[m] →
    x.master = m → x.owner = some p →
    (∀ b reads boot, x.shadow = some y → x.shadowReady = false →
      boot = bootCamera (((s.parts[p].load).map (·.image)).getD {}) y reads →
      (boot.2 = true → ∃ t, exec (.cxpBringupComplete c ⟨b, reads⟩) s = .next t ∧
        Touch [.signals, .parts, .imgs, .exps, .arbLast, .spa, .spb] s t ∧ t.imgs[m].ready = true ∧ t.imgs[m].shadowReady = true ∧
        t.imgs[m].bringup = 0 ∧ t.imgs[m].bayer = b ∧ t.imgs[m].linkDown = false ∧ t.imgs[m].mismatch = false ∧
        t.imgs[m].ctrl = boot.1 ∧
        (x.delivering = false → t.imgs[m].triggering = decide (y.encoder < 4) ∧ t.imgs[m].waiting = [] ∧ t.imgs[m].due = [] ∧
          t.imgs[m].held = []) ∧
        (x.delivering = true → t.imgs[m].triggering = x.triggering ∧ t.imgs[m].waiting = x.waiting ∧ t.imgs[m].due = x.due ∧
          t.imgs[m].held = x.held) ∧
        ∀ k : ImgId, s.imgs[k].master ≠ m → t.imgs[k] = s.imgs[k]) ∧
      (∀ l, boot.2 = false → s.parts[p].load = some l → l.staged = false → isFault s.parts[p].state = false →
        ∃ t, exec (.cxpBringupComplete c ⟨b, reads⟩) s = .next t ∧ standsInFault t p .faultHeld cGroupFailed)) ∧
    (∀ b reads, (x.shadow = none ∨ x.shadowReady = true) → exec (.cxpBringupComplete c ⟨b, reads⟩) s = .next s) ∧
    (∀ cause l, x.shadow = some y → x.shadowReady = false → s.parts[p].load = some l → l.staged = false →
      isFault s.parts[p].state = false → ∃ t, exec (.cxpBringupFailed c cause) s = .next t ∧
        Touch [.signals, .wafer, .regions, .parts, .imgs, .snds, .pins, .exps, .arbLast, .spa, .spb, .flt, .tiles, .mem] s t ∧
        standsInFault t p .faultHeld cGroupFailed ∧ ∀ q, q ≠ p → t.parts[q] = s.parts[q]) ∧
    (∀ cause, (x.shadow = none ∨ x.shadowReady = true ∨ s.parts[p].load = none) → exec (.cxpBringupFailed c cause) s = .next s) ∧
    (∀ f w b, x.delivering = true → x.cfg = some y → (x.shadowReady = true → x.shadow = some y) →
      (f = y.pixelFormat → y.roiX + y.roiW ≤ w → ∃ t, exec (.cxpImageHeader c f w b) s = .next t ∧ Touch [.imgs] s t ∧
        t.imgs[m].mismatch = false ∧ t.imgs[m].lineWidth = w) ∧
      ((f ≠ y.pixelFormat ∨ w < y.roiX + y.roiW) → ∃ t, exec (.cxpImageHeader c f w b) s = .next t ∧ Touch [.imgs, .flt] s t ∧
        t.imgs[m].mismatch = true ∧ t.imgs[m].bayer = x.bayer ∧
        t.flt = if x.mismatch then s.flt else (logEvent s 0x0405 m.val 0 0 false).flt)) ∧
    (∀ f w b, x.delivering = false → x.shadowReady = true → x.shadow = some y → f = y.pixelFormat → y.roiX + y.roiW ≤ w →
      ∃ t, exec (.cxpImageHeader c f w b) s = .next t ∧ Touch [.imgs] s t ∧ t.imgs[m].headerSeen = true ∧ t.imgs[m].lineWidth = w ∧
        t.imgs[m].mismatch = x.mismatch)

/-- Lines of a camera port in use. While its link is down every line is discarded; a stream-packet CRC error is counted. On an encoder a
line that no trigger asked for is counted as extra, one that its successor has overtaken as late, and any other takes the oldest trigger
that waits; without an encoder a line takes the port's own next index. How a line stands to the triggers is the command's operand (log
entry 1). (See also log entry 53.) -/
def Obligations.CameraLinesTakeTheirTriggers : Prop :=
  ∀ (c m : ImgId) (p : PartId) (x : ImgConn) (y : ImgPortRec) (px : List Nat) (s : State), s.glb.phase = .up →
    m = s.imgs[c].master → x = s.imgs[m] → x.master = m → x.owner = some p → s.imgs[c].owner = some p → camCfg x = some y →
    (∀ ok st, x.linkDown = true → exec (.cxpLineReceived c px ok st) s = .next s) ∧
    (x.linkDown = false →
      (y.encoder = 255 → ∀ ok st, ∃ t, exec (.cxpLineReceived c px ok st) s = .next t ∧
        Touch [.regions, .parts, .imgs, .exps, .arbLast, .spa, .spb, .tiles, .mem] s t ∧ t.imgs[m].ownIndex = (x.ownIndex + 1) % 2 ^ 64 ∧
        t.imgs[c].crc = if ok then s.imgs[c].crc else min (s.imgs[c].crc + 1) 4294967295) ∧
      (y.encoder ≠ 255 →
        (∃ t, exec (.cxpLineReceived c px true .unasked) s = .next t ∧
          t.imgs = s.imgs.set m { x with extra := min (x.extra + 1) 4294967295 } ∧ Touch [.imgs] s t) ∧
        (0 < x.overdue → ∃ t, exec (.cxpLineReceived c px true .overtaken) s = .next t ∧
          t.imgs = s.imgs.set m { x with late := min (x.late + 1) 4294967295, overdue := x.overdue - 1 } ∧ Touch [.imgs] s t) ∧
        (∀ k ks, x.waiting = k :: ks → ∃ t, exec (.cxpLineReceived c px true .awaited) s = .next t ∧
          Touch [.regions, .parts, .imgs, .exps, .arbLast, .spa, .spb, .tiles, .mem] s t ∧ t.imgs[m].waiting = ks ∧
          t.imgs[m].extra = x.extra ∧ t.imgs[m].late = x.late) ∧
        (∀ k ks, c = m → x.waiting = k :: ks → ∃ t, exec (.cxpLineReceived c px false .awaited) s = .next t ∧ Touch [.imgs] s t ∧
          t.imgs = s.imgs.set m { x with waiting := ks, crc := min (x.crc + 1) 4294967295 })))

/-- A camera port's links. A connection of a port that is up goes down with its port, once per episode logged, and the port's triggers
stop; a reconnection, which repeats the script, brings it back and keeps its anchor, but not while a connection carries DC, which is
logged once. Heartbeats and unsupported packets are counted. An event is acknowledged; the first eight in a second are logged, the others
counted. The second is one of the timebase (the model's reading, log entry 15). -/
def Obligations.CameraLinksGoDownAndComeBack : Prop :=
  ∀ (c m : ImgId) (p : PartId) (x : ImgConn) (s : State), s.glb.phase = .up → m = s.imgs[c].master → x = s.imgs[m] → x.master = m →
    x.owner = some p → s.imgs[c].owner = some p →
    (x.ready = true → x.linkDown = false → ∃ t, exec (.linkDown c) s = .next t ∧ Touch [.imgs, .flt] s t ∧ t.imgs[c].locked = false ∧
      t.imgs[m].linkDown = true ∧ t.imgs[m].triggering = false ∧ t.imgs[m].waiting = [] ∧ t.imgs[m].anchor = x.anchor ∧
      t.flt = (logEvent s 0x0406 m.val 0 0 false).flt) ∧
    (x.linkDown = true → ∃ t, exec (.linkDown c) s = .next t ∧ Touch [.imgs] s t ∧
      t.imgs = s.imgs.set c { s.imgs[c] with locked := false }) ∧
    (∀ y reads, camCfg x = some y → x.linkDown = true →
      (∀ k : ImgId, s.imgs[k].master = m → s.imgs[k].owner = some p → s.imgs[k].dcPresent = false) →
      ∃ t, exec (.reconnectionAttempt c (some reads)) s = .next t ∧ Touch [.imgs] s t ∧ t.imgs[m].linkDown = false ∧
        t.imgs[m].triggering = decide (y.encoder < 4) ∧ t.imgs[m].anchor = x.anchor ∧ t.imgs[m].held = x.held ∧
        t.imgs[m].ctrl = (bootCamera (s.parts[p].active.getD {}) y reads).1) ∧
    (exec (.reconnectionAttempt c none) s = .next s) ∧
    (∀ reads, (s.imgs[c].dcPresent = true ∨ x.linkDown = false) → exec (.reconnectionAttempt c reads) s = .next s) ∧
    (s.imgs[c].dcPresent = false → x.ready = true → x.linkDown = true → ∃ t, exec (.dcPresent c true) s = .next t ∧
      Touch [.imgs, .flt] s t ∧ t.imgs[c].dcPresent = true ∧ t.imgs[m].linkDown = true ∧ t.flt = (logEvent s 0x0408 c.val 0 0 false).flt) ∧
    (exec (.dcPresent c s.imgs[c].dcPresent) s = .next s) ∧
    (∃ t, exec (.heartbeat c) s = .next t ∧ Touch [.imgs] s t ∧
      t.imgs = s.imgs.set c { s.imgs[c] with heartbeats := s.imgs[c].heartbeats + 1, lastHeartbeat := now s }) ∧
    (∃ t, exec (.unsupportedPacket c) s = .next t ∧ Touch [.imgs] s t ∧
      t.imgs = s.imgs.set c { s.imgs[c] with ignored := min (s.imgs[c].ignored + 1) 4294967295 }) ∧
    (∀ id data n, n = (if x.evtSecond = now s / 1000000000 then x.evtCount else 0) → ∃ t, exec (.imgEvent c id data) s = .next t ∧
      Touch [.imgs, .flt] s t ∧ t.imgs[m].acksSent = x.acksSent + 1 ∧
      t.flt = (if n < 8 then (logEvent s 0x0407 m.val id (leNat (data.take 8)) false).flt else s.flt) ∧
      t.imgs[m].evtSuppressed = if n < 8 then x.evtSuppressed else min 4294967295 (x.evtSuppressed + 1))

/-- The encoder inputs. A valid transition moves the position by one, upward when A leads and the input is not inverted or B leads and it
is; past the furthest position reached, the high mark follows, and at a multiple of ENC_DIV the line index moves on; elsewhere no line
pulse leaves, and nothing but the encoder changes. An illegal transition only counts an error. A Z edge counts and latches the position.
An open signal is logged and signalled once per episode. ENC_CTRL and ENC_DIV take a write only while no image port claimed by a partition
names the encoder; otherwise BUSY is set. -/
def Obligations.EncodersCountAndTakeTheirSettings : Prop :=
  ∀ (e : EncId) (s : State), s.glb.phase = .up →
    (∃ t, exec (.encoderCount e .illegal) s = .next t ∧ Touch [.encs] s t ∧
      t.encs = s.encs.set e { s.encs[e] with errors := min (s.encs[e].errors + 1) 4294967295 }) ∧
    (∀ (m : EncMove) (pos : BitVec 64), m ≠ .illegal →
      pos = s.encs[e].position + (if (m = .aLeads ↔ s.encs[e].invert = false) then 1 else -1) →
      ∃ t, exec (.encoderCount e m) s = .next t ∧
        (pos.toInt ≤ s.encs[e].high.toInt → Touch [.encs] s t ∧ t.encs = s.encs.set e { s.encs[e] with position := pos }) ∧
        (s.encs[e].high.toInt < pos.toInt → pos.toInt % (s.encs[e].div : Int) ≠ 0 → Touch [.encs] s t ∧
          t.encs = s.encs.set e { s.encs[e] with position := pos, high := pos }) ∧
        (s.encs[e].high.toInt < pos.toInt → pos.toInt % (s.encs[e].div : Int) = 0 →
          Touch [.encs, .regions, .parts, .imgs, .exps, .arbLast, .spa, .spb, .tiles, .mem] s t ∧
          t.encs = s.encs.set e { s.encs[e] with position := pos, high := pos, line := s.encs[e].line + 1 })) ∧
    (∃ t, exec (.encoderZEdge e) s = .next t ∧ Touch [.encs] s t ∧
      t.encs = s.encs.set e { s.encs[e] with zcount := min (s.encs[e].zcount + 1) 4294967295, zpos := s.encs[e].position }) ∧
    (∀ (sig : EncSignal) (o : Bool), (setOpen sig o s.encs[e] = s.encs[e] → exec (.encoderOpen e sig o) s = .next s) ∧
      (setOpen sig o s.encs[e] ≠ s.encs[e] → ∃ t, exec (.encoderOpen e sig o) s = .next t ∧ Touch [.signals, .encs, .flt] s t ∧
        t.encs = s.encs.set e (setOpen sig o s.encs[e]) ∧ t.glb = (irq s 21).glb ∧ (o = false → Touch [.signals, .encs] s t) ∧
        (o = true → reports s t 0x0701 e.val (openBits (setOpen sig o s.encs[e])) 0 false 21))) ∧
    (∀ (r : EncReg) (v : Word),
      ((r = .ctrl ∧ 2 ≤ v.toNat ∨ r = .div ∧ (v.toNat = 0 ∨ 65536 < v.toNat)) → exec (.encConfigWrite e r v) s = .next s) ∧
      ((r = .ctrl ∧ v.toNat < 2 ∨ r = .div ∧ 1 ≤ v.toNat ∧ v.toNat ≤ 65536) → encClaimed s e = false →
        ∃ t, exec (.encConfigWrite e r v) s = .next t ∧ Touch [.encs] s t ∧ t.encs = s.encs.set e
          { s.encs[e] with
            invert := if r = .ctrl then v.getLsbD 0 else s.encs[e].invert, div := if r = .div then v.toNat else s.encs[e].div }) ∧
      ((r = .ctrl ∧ v.toNat < 2 ∨ r = .div ∧ 1 ≤ v.toNat ∧ v.toNat ≤ 65536) → encClaimed s e = true →
        ∃ t, exec (.encConfigWrite e r v) s = .next t ∧ Touch [.signals, .encs] s t ∧
          t.encs = s.encs.set e { s.encs[e] with busy := true }))

/-- The host's registers. A read of an aligned address changes no register but the latch of its pair: a LO register returns the low half
of its quantity and latches the upper half, which a read of the HI register then returns; a narrower read gives the addressed bytes. An
unaligned read or write, and a write narrower than 32 bits, does nothing. A write
to GLB_SCRATCH stores its value; each 1 written to GLB_IRQ clears that bit; a 1 in TBS_STATUS clears that event, and a reserved bit makes
the write do nothing; a ring's page count takes a write only while the ring does not run. -/
def Obligations.HostReadsLatchPairsAndWritesFollowAccessTypes : Prop :=
  ∀ (s : State), s.glb.phase = .up →
    (∀ (a q : Nat), a % 4 = 0 → pairAt s a = some q →
      ∃ t, exec (.loRegisterRead ⟨a, 4⟩) s = .next t ∧ Touch [.glb] s t ∧ t.glb.readData = BitVec.ofNat 32 q ∧
        ∃ u, exec (.loRegisterRead ⟨(a + 4), 4⟩) t = .next u ∧ u.glb.readData = BitVec.ofNat 32 (q / 2 ^ 32)) ∧
    (∀ a n : Nat, (n = 1 ∨ n = 2) → a % n = 0 → ∃ t u, exec (.loRegisterRead ⟨a, n⟩) s = .next t ∧ Touch [.glb] s t ∧
      exec (.loRegisterRead ⟨(a / 4 * 4), 4⟩) s = .next u ∧
      t.glb.readData.toNat = u.glb.readData.toNat / 256 ^ (a % 4) % 256 ^ n) ∧
    (∀ a n : Nat, (n = 2 ∨ n = 4) → a % n ≠ 0 → exec (.loRegisterRead ⟨a, n⟩) s = .next s) ∧
    (∀ (a n : Nat) (v : Word), (n ≠ 4 ∨ a % 4 ≠ 0) → exec (.registerWrite ⟨a, n⟩ v) s = .next s) ∧
    (∀ v : Word, ∃ t, exec (.registerWrite ⟨0x024, 4⟩ v) s = .next t ∧ t = { s with glb := { s.glb with scratch := v } }) ∧
    (∀ v : Word, ∃ t, exec (.registerWrite ⟨0x020, 4⟩ v) s = .next t ∧ t = { s with glb := { s.glb with irq := s.glb.irq &&& ~~~v } }) ∧
    (∀ v : Word, v.toNat < 128 → ∃ t, exec (.registerWrite ⟨0x804, 4⟩ v) s = .next t ∧
      t = { s with tbs := { s.tbs with lostEv := s.tbs.lostEv && !v.getLsbD 3, backEv := s.tbs.backEv && !v.getLsbD 4 } }) ∧
    (∀ v : Word, 128 ≤ v.toNat → exec (.registerWrite ⟨0x804, 4⟩ v) s = .next s) ∧
    (∀ (p : PartId) (v : Word), v.toNat < 32 → s.exps[p].run = false →
      ∃ t, exec (.registerWrite ⟨(0x4810 + 128 * p.val), 4⟩ v) s = .next t ∧ Touch [.exps] s t ∧
        t.exps = s.exps.set p { s.exps[p] with pages := v.toNat }) ∧
    (∀ (p : PartId) (v : Word), (32 ≤ v.toNat ∨ s.exps[p].run = true) →
      exec (.registerWrite ⟨(0x4810 + 128 * p.val), 4⟩ v) s = .next s)

/-- Clocks and starts of a sound port in use. A clock loss of a slave is logged once per episode, silences the outputs and unlocks the
ASRC; a master has none. When the clock is back the port runs its SILENT frames again. A disagreement with the clock port is logged once.
An ASRC lock ends a start or relock whose SILENT frames have run. A port that has ended its silent start gets T0 at the next multiple of
4,096 ns, one with the common start flag only when no flagged port of the partition is still silent. A port that has run out its stop is
idle. -/
def Obligations.SoundPortsStartRelockAndStop : Prop :=
  ∀ (c : SndId) (x : SndPortRec) (y : Snd) (s : State), s.glb.phase = .up → y = s.snds[c] → y.cfg = some x →
    ((x.master = true ∨ y.clockLost = true ∨ started y = false) → exec (.clockLost c) s = .next s) ∧
    (x.master = false → y.clockLost = false → started y = true → ∃ t, exec (.clockLost c) s = .next t ∧ Touch [.snds, .flt] s t ∧
      t.flt = (logEvent s 0x0501 c.val 0 0 false).flt ∧ t.snds = s.snds.set c
        { y with
          clockOk := false, asrcLocked := false, underrun := true, playing := [], dout := [], doutBefore := [], clockLost := true, rate := 0,
          phase := if y.phase = .waitT0 then .silent else y.phase }) ∧
    ((y.clockLost = true ∨ y.rateError = true) → started y = true → ∃ t, exec (.clockReturn c) s = .next t ∧ Touch [.snds] s t ∧
      t.snds[c].clockOk = true ∧ t.snds[c].clockLost = false ∧ t.snds[c].rateError = false ∧ t.snds[c].silentLeft = x.silent ∧
      t.snds[c].phase = (if y.phase = .running then .relock else y.phase) ∧ t.snds[c].frame = y.frame ∧ t.snds[c].playFrame = y.playFrame ∧
      (∀ d, d ≠ c → t.snds[d] = s.snds[d])) ∧
    (y.clockLost = false → y.rateError = false → exec (.clockReturn c) s = .next s) ∧
    (exec (.clockMismatch c y.mismatch) s = .next s) ∧
    (∃ t, exec (.clockMismatch c (!y.mismatch)) s = .next t ∧ Touch [.snds, .flt] s t ∧
      t.snds = s.snds.set c { y with mismatch := !y.mismatch } ∧
      t.flt = if y.mismatch then s.flt else (logEvent s 0x0503 c.val 0 0 false).flt) ∧
    (y.clockOk = true → started y = true → ∃ t, exec (.asrcLock c) s = .next t ∧ Touch [.snds] s t ∧ t.snds = s.snds.set c
        { y with
          asrcLocked := true,
          phase := if y.silentLeft = 0 ∧ y.phase = .silent then .waitT0 else if y.silentLeft = 0 ∧ y.phase = .relock then .running
            else y.phase }) ∧
    ((y.clockOk = false ∨ started y = false) → exec (.asrcLock c) s = .next s) ∧
    (∀ p, y.owner = some p → y.phase = .waitT0 →
      (x.commonStart = true → ∀ (d : SndId) (z : SndPortRec), s.snds[d].owner = some p → s.snds[d].cfg = some z → z.commonStart = true →
        s.snds[d].phase ≠ .silent) →
      ∃ t, exec (.soundStartT0 p) s = .next t ∧ Touch [.snds] s t ∧ t.snds[c].phase = .running ∧ t.snds[c].t0 % 4096 = 0 ∧
        now s < t.snds[c].t0 ∧ t.snds[c].t0 ≤ now s + 4096 ∧ t.snds[c].frame = 0 ∧ t.snds[c].playFrame = 0 ∧ t.snds[c].buffer = []) ∧
    (∀ p, y.owner = some p → y.phase = .waitT0 → x.commonStart = true →
      (∃ (d : SndId) (z : SndPortRec), s.snds[d].owner = some p ∧ s.snds[d].cfg = some z ∧ z.commonStart = true ∧
        s.snds[d].phase = .silent) → ∃ t, exec (.soundStartT0 p) s = .next t ∧ Touch [.snds] s t ∧ t.snds[c] = y) ∧
    (y.phase = .stopping → ∃ t, exec (.soundStop c) s = .next t ∧ Touch [.snds] s t ∧ t.snds[c].phase = .idle ∧ t.snds[c].cfg = none ∧
      t.snds[c].driving = false ∧ t.snds[c].clockOk = false ∧ (∀ d, d ≠ c → t.snds[d] = s.snds[d])) ∧
    (y.phase ≠ .stopping → exec (.soundStop c) s = .next s)

/-- Frames and blocks of a sound port in use. A TDM frame of a running port that stands alone adds to its buffer as many image-rate frames
as the ratio of the rates gives, with the remainder kept; after a frame error they are all absent. A rate error of a slave is logged. A
frame in the silent start counts it down. No frame changes another port but its count of windows not accepted. A delivered block takes 16
frames from the buffer of every member of the stream and counts the frames inserted for the member itself. That only the frames computed
at an erroneous frame are absent is the model's reading (log entry 50); sample values are free (log entry 5). -/
def Obligations.SoundFramesFillBlocksOfSixteen : Prop :=
  ∀ (c : SndId) (p : PartId) (x : SndPortRec) (y : Snd) (s : State), s.glb.phase = .up → y = s.snds[c] → y.cfg = some x →
    y.owner = some p → y.clockLost = false → y.rateError = false →
    (∀ (slots : List Int) (sync : FrameSync) (hz r n : Nat), y.phase = .running → x.align = 255 → (sync = .rateError → x.master = true) →
      r = (if x.master = true ∨ hz = 0 then 1000 * x.frameRate else hz) → n = (y.phaseAcc + 1000 * imageRateHz x.imageRate) / r →
      ∃ t, exec (.soundFrame c slots sync hz) s = .next t ∧ Touch [.parts, .snds, .exps, .arbLast, .freeCount] s t ∧
        t.snds[c].phaseAcc = (y.phaseAcc + 1000 * imageRateHz x.imageRate) % r ∧ t.snds[c].buffer.length = y.buffer.length + n ∧
        t.snds[c].buffer.take y.buffer.length = y.buffer ∧ t.snds[c].frame = y.frame ∧
        (sync = .frameError → x.master = false → ∀ f ∈ t.snds[c].buffer.drop y.buffer.length, f = none) ∧
        (∀ d, d ≠ c → t.snds[d] = { s.snds[d] with notAccepted := t.snds[d].notAccepted })) ∧
    (∀ (slots : List Int) (hz : Nat), x.master = false → started y = true → ∃ t, exec (.soundFrame c slots .rateError hz) s = .next t ∧
      Touch [.snds, .flt] s t ∧ t.snds[c].rateError = true ∧ t.snds[c].clockOk = false ∧ t.snds[c].asrcLocked = false ∧
      t.flt = (logEvent s 0x0502 c.val 0 0 false).flt) ∧
    (∀ (slots : List Int) (hz : Nat), y.phase = .silent → ∃ t, exec (.soundFrame c slots .good hz) s = .next t ∧
      Touch [.snds, .freeCount] s t ∧
      t.snds[c].silentLeft = y.silentLeft - 1 ∧ t.snds[c].buffer = y.buffer ∧
      t.snds[c].phase = if y.silentLeft ≤ 1 ∧ y.asrcLocked = true then .waitT0 else .silent) ∧
    (∀ i, y.phase = .running → x.inMask ≠ 0 → s.parts[p].active = some i → ∃ t, exec (.soundBlockDelivered c) s = .next t ∧
      Touch [.regions, .parts, .snds, .exps, .arbLast, .spa, .spb, .tiles, .mem] s t ∧
      ∀ m ∈ sndMembers s p x, t.snds[m.1].frame = s.snds[m.1].frame + 16 ∧ t.snds[m.1].buffer = s.snds[m.1].buffer.drop 16 ∧
        t.snds[m.1].insOwn = min 4294967295 (s.snds[m.1].insOwn +
          ((List.range 16).filter (fun k => decide ((s.snds[m.1].buffer[k]?).getD none = none))).length))

/-- OUTPUT_PLAY_CHECK of a running port with fabric slots: a present sample outside an underrun and a ramp adds nothing to the counts; a
missing one begins an underrun, counted once with the frames faded before it, or goes on with it; before frame RAMP nothing is played. A
port without its clock plays nothing, and every sample that is due, of the fabric or of a stimulus loop, is dropped and counted. How the
exact products of faded and ramped samples round is free (log entry 5). -/
def Obligations.OutputsCheckEachFrameOnce : Prop :=
  ∀ (c : SndId) (p : PartId) (x : SndPortRec) (y : Snd) (ch : Nat) (s : State), s.glb.phase = .up → y = s.snds[c] → y.cfg = some x →
    y.owner = some p → ch = (fabricSlots (activeImage s p) x).length → y.phase = .running →
    (y.clockOk = true → ∃ t, exec (.outputPlayCheck c) s = .next t ∧ Touch [.snds, .freeCount] s t ∧
      t.snds[c].playFrame = y.playFrame + 1 ∧ (∀ d, d ≠ c → t.snds[d] = s.snds[d]) ∧
      (y.playFrame < x.ramp → t.snds[c].playing = []) ∧ (∀ z ∈ t.snds[c].outSamples, y.playFrame < z.1 + x.ramp) ∧
      (ch ≠ 0 → y.outSamples.any (fun z => z.1 = y.playFrame) = true → y.underrun = false → y.rampLeft = 0 →
        t.snds[c].underrun = false ∧ t.snds[c].underruns = y.underruns ∧ t.snds[c].unbounded = y.unbounded) ∧
      (ch ≠ 0 → y.outSamples.any (fun z => z.1 = y.playFrame) = false → t.snds[c].underrun = true ∧
        t.snds[c].underruns = (if y.underrun then y.underruns else min 4294967295 (y.underruns + 1)) ∧
        t.snds[c].unbounded = min 4294967295 ((if y.underrun then y.unbounded else min 4294967295 (y.unbounded + ch * y.cleanRun)) + ch))) ∧
    (y.clockOk = false → ∃ t, exec (.outputPlayCheck c) s = .next t ∧ Touch [.snds] s t ∧ t.snds[c].playFrame = y.playFrame + 1 ∧
      t.snds[c].playing = [] ∧ t.snds[c].underrun = true ∧
      t.snds[c].outDrop = min 4294967295 (y.outDrop + ch * (y.outSamples.filter (fun z => decide (z.1 ≤ y.playFrame))).length +
        ((maskSlots x.outMask).filter (fun n => (stimulusAt y n y.playFrame).isSome)).length))

/-- The export path. PAGE_FLUSH closes a page that has stood open for 100 µs as a flush page at that time, and any other stays open.
PAGE_DELIVERED moves EXP_TAIL past the page being written, which leaves the store, writes the tail back when enabled and signals the
ring's vector, or only notes the advance while the holdoff runs; the holdoff's end, EXP_HOLDOFF µs after the signal that began it, signals
a noted advance. A refill gives every partition its two credits, of which the page that the arbiter starts at once may spend one. One page
is in transfer at a time (the model's reading, log entry 78). -/
def Obligations.PagesCloseAndAreDeliveredInOrder : Prop :=
  ∀ (p : PartId) (s : State), s.glb.phase = .up →
    (∀ pg, s.exps[p].opened = some pg → now s < pg.tOpen + 100000 → exec (.pageFlush p) s = .next s) ∧
    (s.exps[p].opened = none → exec (.pageFlush p) s = .next s) ∧
    (∀ pg, s.exps[p].opened = some pg → pg.tOpen + 100000 ≤ now s → ∃ t, exec (.pageFlush p) s = .next t ∧
      Touch [.exps, .arbLast] s t ∧ t.exps[p].opened = none ∧ (∀ q, q ≠ p → (t.exps[q]).settled = (s.exps[q]).settled) ∧
      (pg.recs ≠ [] → t.exps[p].closed.map (·.recs) = s.exps[p].closed.map (·.recs) ++ [pg.recs] ∧
        ∃ pg', t.exps[p].closed.getLast? = some pg' ∧ pg'.why = .flush ∧ pg'.tOpen = pg.tOpen ∧ pg'.tClose = now s ∧
          pg'.evdDrop = s.exps[p].evdDrop ∧ pg'.vrdDrop = s.exps[p].vrdDrop ∧ pg'.cenDrop = s.exps[p].cenDrop)) ∧
    (s.exps[p].writing = false → exec (.pageDelivered p) s = .next s) ∧
    (∀ pg rest n, s.exps[p].writing = true → s.exps[p].closed = pg :: rest → pg.seq = some n →
      ∃ t, exec (.pageDelivered p) s = .next t ∧ Touch [.signals, .exps, .arbLast] s t ∧ t.exps[p].tail = n + 1 ∧
        t.exps[p].closed.map (·.recs) = rest.map (·.recs) ∧ t.exps[p].head = s.exps[p].head ∧
        (s.exps[p].tailWb = true → t.exps[p].lastWb = some (BitVec.ofNat 32 (n + 1))) ∧
        (s.exps[p].tailWb = false → t.exps[p].lastWb = s.exps[p].lastWb) ∧
        (s.exps[p].holdoffOn = false → t.glb = (irq s (ringVector p)).glb ∧ t.exps[p].holdoffOn = decide (0 < s.exps[p].holdoff)) ∧
        (s.exps[p].holdoffOn = true → t.exps[p].holdoffOn = true ∧ t.exps[p].advanced = true ∧ t.glb.vectors = s.glb.vectors)) ∧
    (s.exps[p].holdoffOn = true → now s < s.exps[p].holdoffAt + 1000 * s.exps[p].holdoff → exec (.irqHoldoffEnd p) s = .next s) ∧
    (s.exps[p].holdoffOn = true → s.exps[p].holdoffAt + 1000 * s.exps[p].holdoff ≤ now s →
      ∃ t, exec (.irqHoldoffEnd p) s = .next t ∧ Touch [.signals, .exps] s t ∧
      (s.exps[p].advanced = false → t.glb = s.glb ∧ t.exps = s.exps.set p { s.exps[p] with holdoffOn := false }) ∧
      (s.exps[p].advanced = true → t.glb = (irq s (ringVector p)).glb ∧
        t.exps = s.exps.set p { s.exps[p] with holdoffOn := decide (0 < s.exps[p].holdoff), holdoffAt := now s, advanced := false })) ∧
    (s.exps[p].holdoffOn = false → exec (.irqHoldoffEnd p) s = .next s) ∧
    (∃ t, exec .verdictCreditRefill s = .next t ∧ Touch [.exps, .arbLast] s t ∧ (t.exps[p]).settled = (s.exps[p]).settled ∧
      (t.exps[p].credits = 2 ∨ t.exps[p].credits = 1 ∧ t.exps[p].writing = true ∧ t.arbLast = p))

/-- The host steers a ring by EXP_CTRL and EXP_HEAD. RUN = 1 with EXP_BASE or EXP_PAGES out of range is ignored and sets CFG_ERR; a write
that sets a reserved bit does nothing; otherwise RUN and the write-back enable take the value, and a RUN that is set while EXP_TAIL stands
ahead of EXP_HEAD signals the ring's vector. EXP_HEAD moves forward, at most to EXP_TAIL; any other value is ignored and sets HEAD_ERR.
Link-down clears RUN and sets LINK_LOST in every instance, keeps every page, and is logged and signalled; link-up records the generation
and width and starts no ring. The model's readings: RUN is set when it changes from 0 to 1 (log entry 51), EXP_BASE is out of range as log
entry 58 says, and width and generation read 0 while the link is down (log entry 57). -/
def Obligations.RingsFollowTheHostAndItsLink : Prop :=
  ∀ (p : PartId) (s : State), s.glb.phase = .up →
    (∀ v : Word, 4 ≤ v.toNat → exec (.expCtrlWrite p v) s = .next s) ∧
    (∀ v : Word, v.toNat < 4 → v.getLsbD 0 = true → ringOk s.exps[p] = false →
      ∃ t, exec (.expCtrlWrite p v) s = .next t ∧ Touch [.exps] s t ∧ t.exps = s.exps.set p { s.exps[p] with cfgErr := true }) ∧
    (∀ v : Word, v.toNat < 4 → (v.getLsbD 0 = true → ringOk s.exps[p] = true) →
      ∃ t, exec (.expCtrlWrite p v) s = .next t ∧ Touch [.signals, .exps, .arbLast] s t ∧ t.exps[p].run = v.getLsbD 0 ∧
        t.exps[p].tailWb = v.getLsbD 1 ∧ t.exps[p].tail = s.exps[p].tail ∧ t.exps[p].head = s.exps[p].head ∧
        (∀ q, q ≠ p → (t.exps[q]).settled = (s.exps[q]).settled) ∧
        (v.getLsbD 0 = true → s.exps[p].run = false → tailAhead s.exps[p] ≠ 0 → s.exps[p].holdoffOn = false →
          t.glb = (irq s (ringVector p)).glb) ∧
        ((v.getLsbD 0 = false ∨ s.exps[p].run = true ∨ tailAhead s.exps[p] = 0) → t.glb = s.glb)) ∧
    (∀ v : Word, (v - s.exps[p].head).toNat ≤ tailAhead s.exps[p] →
      ∃ t, exec (.expHeadWrite p v) s = .next t ∧ Touch [.exps, .arbLast] s t ∧ t.exps[p].head = v ∧ t.exps[p].tail = s.exps[p].tail ∧
        ∀ q, q ≠ p → (t.exps[q]).settled = (s.exps[q]).settled) ∧
    (∀ v : Word, tailAhead s.exps[p] < (v - s.exps[p].head).toNat →
      ∃ t, exec (.expHeadWrite p v) s = .next t ∧ Touch [.exps] s t ∧ t.exps = s.exps.set p { s.exps[p] with headErr := true }) ∧
    (s.glb.linkUp = true → ∃ t, exec .hostLinkDown s = .next t ∧ Touch [.glb, .signals, .exps, .flt] s t ∧ t.glb.linkUp = false ∧
      t.exps[p] = { s.exps[p] with run := false, linkLost := true, writing := false } ∧
      t.flt = (logEvent s 0x0007 0 0 0 false).flt ∧ t.glb.vectors = (irq s 0).glb.vectors) ∧
    (∀ g w : Nat, s.glb.linkUp = false → ∃ t, exec (.hostLinkUp g w) s = .next t ∧
      t = { s with glb := { s.glb with linkUp := true, linkGen := g, linkWidth := w } })

/-- Evidence crops. A crop of a running image that meets a record of the latest millisecond which has no crop of its stream yet is coded:
it takes the next crop number, and the record keeps its stream. One whose record already has a crop of its stream, and one that the input
queue of 256 KiB has no room for (how a crop's size is counted is the model's choice, log entry 36), is dropped and counted. A crop that
meets no record waits; when its millisecond is over, the one that waited longest is dropped and counted. -/
def Obligations.CropsMeetTheirRecordsOrAreDropped : Prop :=
  ∀ (p : PartId) (i : Image) (flits : List Flit) (c : Crop) (s : State), s.glb.phase = .up → s.parts[p].active = some i →
    isServing s.parts[p].state = true → c = readCrop (now s) flits →
    (262144 < (s.exps[p].crops.map cropSize).sum + cropSize c → ∃ t, exec (.evidenceCropReceived p flits) s = .next t ∧
      Touch [.exps, .arbLast] s t ∧ t.exps[p].evdDrop = min (s.exps[p].evdDrop + 1) 4294967295 ∧ t.exps[p].crops = s.exps[p].crops ∧
      t.exps[p].nextCrop = s.exps[p].nextCrop) ∧
    ((s.exps[p].crops.map cropSize).sum + cropSize c ≤ 262144 →
      (s.exps[p].recent.all (fun v => !cropMatches c v) = true → ∃ t, exec (.evidenceCropReceived p flits) s = .next t ∧
        Touch [.exps, .arbLast] s t ∧ t.exps[p].crops = s.exps[p].crops ++ [c] ∧ t.exps[p].evdDrop = s.exps[p].evdDrop) ∧
      (∀ v, s.exps[p].recent.find? (cropMatches c) = some v → c.stream ∈ v.streams → ∃ t, exec (.evidenceCropReceived p flits) s = .next t ∧
        Touch [.exps, .arbLast] s t ∧ t.exps[p].evdDrop = min (s.exps[p].evdDrop + 1) 4294967295 ∧ t.exps[p].nextCrop = s.exps[p].nextCrop) ∧
      (∀ v, s.exps[p].recent.find? (cropMatches c) = some v → c.stream ∉ v.streams → ∃ t, exec (.evidenceCropReceived p flits) s = .next t ∧
        Touch [.exps, .arbLast] s t ∧ t.exps[p].nextCrop = s.exps[p].nextCrop + 1 ∧
        t.exps[p].recent = s.exps[p].recent.map (fun u => if u = v then { v with streams := c.stream :: v.streams } else u))) ∧
    (∀ d ds, s.exps[p].crops = d :: ds → now s ≤ d.arrived + 1000000 → exec (.evidenceMatchTimeout p) s = .next s) ∧
    (∀ d ds, s.exps[p].crops = d :: ds → d.arrived + 1000000 < now s → ∃ t, exec (.evidenceMatchTimeout p) s = .next t ∧ Touch [.exps] s t ∧
      t.exps = s.exps.set p { s.exps[p] with crops := ds, evdDrop := min (s.exps[p].evdDrop + 1) 4294967295 }) ∧
    (s.exps[p].crops = [] → exec (.evidenceMatchTimeout p) s = .next s)

/-- Frames of a span link that is up. A sequenced frame that is the next one expected and passes its checks is accepted: the next number
is expected and NAK ends; any other is discarded, NAK is set and its failing checks are counted. An idle frame expects nothing. The
descriptors of an accepted frame reach the piece at the last position in order. On a link that is down every frame is discarded. That ACK
and credits of a discarded frame are not taken is the model's choice (log entry 40). -/
def Obligations.SpanFramesAreAcceptedInOrder : Prop :=
  ∀ (q : SpanPort) (f : List Byte) (fec : Bool) (x : Spn) (s : State), s.glb.phase = .up → x = getSpn s q →
    (x.linkUp = false → exec (.spanDataFrame q f fec) s = .next s ∧ exec (.spanDescriptorFrame q f fec) s = .next s ∧
      exec (.spanIdleFrame q f) s = .next s) ∧
    (x.linkUp = true → frameCrcOk f = true → fec = true → leAt f 2 2 = x.rxNext →
      (∃ t, exec (.spanDataFrame q f fec) s = .next t ∧ Touch [.regions, .parts, .spa, .spb, .tiles, .mem] s t ∧
        (getSpn t q).rxNext = (x.rxNext + 1) % 65536 ∧ (getSpn t q).nak = false ∧ (getSpn t q).crcErr = x.crcErr) ∧
      (∃ t, exec (.spanDescriptorFrame q f fec) s = .next t ∧ Touch [.parts, .spa, .spb] s t ∧
        (getSpn t q).rxNext = (x.rxNext + 1) % 65536 ∧ (getSpn t q).nak = false ∧
        (∀ p y, q = .spa → runningPiece s q = some (p, y) → y.spb = false → t.parts[p].flow.windows = s.parts[p].flow.windows ++
            (frameDescs s q (f.drop 8)).map (fun w => { w with gen := s.parts[p].tun.gen }) ∧
          t.parts[p].flow.entered = s.parts[p].flow.entered + (frameDescs s q (f.drop 8)).length ∧
          ∀ r, r ≠ p → t.parts[r] = s.parts[r]))) ∧
    (x.linkUp = true → (frameCrcOk f = false ∨ fec = false ∨ leAt f 2 2 ≠ x.rxNext) →
      ∀ c, (c = .spanDataFrame q f fec ∨ c = .spanDescriptorFrame q f fec) → ∃ t, exec c s = .next t ∧ Touch [.spa, .spb] s t ∧
        getSpn t (otherSpan q) = getSpn s (otherSpan q) ∧ getSpn t q =
          { x with
            nak := true, crcErr := if frameCrcOk f then x.crcErr else min (x.crcErr + 1) 4294967295,
            fecUncorr := if fec then x.fecUncorr else min (x.fecUncorr + 1) 4294967295 }) ∧
    (x.linkUp = true → ∃ t, exec (.spanIdleFrame q f) s = .next t ∧ Touch [.spa, .spb] s t ∧ (getSpn t q).rxNext = x.rxNext ∧
      (getSpn t q).nak = x.nak ∧
      (getSpn t q).crcErr = if frameCrcOk f then x.crcErr else min (x.crcErr + 1) 4294967295)

/-- Links and their periodic messages. A link that comes up numbers its frames afresh and sends HELLO first; HELLO and TIME follow in
their periods, and READY on each port of a piece in SPAN_WAIT. A lost link reports itself; a piece that runs over it enters FAULT_SPAN
(what is cleared with the link is the model's choice, log entry 38). -/
def Obligations.SpanLinksComeUpSendAndAreLost : Prop :=
  ∀ (q : SpanPort) (x : Spn) (s : State), s.glb.phase = .up → x = getSpn s q →
    (x.linkUp = false → ∃ t, exec (.spanLinkUp q) s = .next t ∧ Touch [.spa, .spb] s t ∧ (getSpn t q).linkUp = true ∧
      (getSpn t q).rxNext = 0 ∧ (getSpn t q).helloAt = none ∧
      framesNext { x with txNext := 0, unacked := [] } (getSpn t q) (msgHello s.glb.serial)) ∧
    (x.linkUp = true → exec (.spanLinkUp q) s = .next s) ∧
    (x.linkUp = true → x.sendQ = [] → x.unacked.length < 1024 →
      (∃ t, exec (.spanHelloPeriod q) s = .next t ∧ Touch [.spa, .spb] s t ∧ framesNext x (getSpn t q) (msgHello s.glb.serial)) ∧
      (∃ t, exec (.spanTimePeriod q) s = .next t ∧ Touch [.spa, .spb] s t ∧ framesNext x (getSpn t q) (msgTime x.dLocal (now s))) ∧
      (∀ p l y, s.parts[p].state = .spanWait → s.parts[p].load = some l → imgSpan l.image = some y → x.owner = some p →
        ∃ t, exec (.spanReadyPeriod p) s = .next t ∧ Touch [.spa, .spb] s t ∧
          framesNext x (getSpn t q) (msgReady y.position y.units s.parts[p].span.dready y.id))) ∧
    (x.linkUp = false → exec (.spanHelloPeriod q) s = .next s ∧ exec (.spanTimePeriod q) s = .next s) ∧
    (∀ p, s.parts[p].state ≠ .spanWait → exec (.spanReadyPeriod p) s = .next s) ∧
    (∀ why, x.linkUp = false → exec (.spanLost q why) s = .next s) ∧
    (∀ why, x.linkUp = true → runningPiece s q = none → ∃ t, exec (.spanLost q why) s = .next t ∧ Touch [.signals, .spa, .spb, .flt] s t ∧
      reports s t 0x0601 (spanIdx q) 0 0 false 20 ∧ (getSpn t q).linkUp = false ∧ (getSpn t q).lostEv = true ∧
      (getSpn t q).serialEv = (x.serialEv || decide (why = .serialChanged)) ∧ (getSpn t q).unacked = [] ∧
      getSpn t (otherSpan q) = getSpn s (otherSpan q)) ∧
    (∀ why p y, x.linkUp = true → runningPiece s q = some (p, y) → s.parts[p].state = .running →
      ∃ t, exec (.spanLost q why) s = .next t ∧ standsInFault t p .faultSpan cSpanLost ∧ (getSpn t q).linkUp = false ∧
        (getSpn t q).lostEv = true ∧ ∀ r, r ≠ p → t.parts[r] = s.parts[r])

/-- Messages of a span link that is up. HELLO records the peer's serial; another serial on the same link loses it. A READY that matches
sets DREADY, and at the last position the release is due; a GO makes it due elsewhere, with full credits on SPB; a release that is due
starts when the reservoir is charged. ABORT takes a running piece of that span to FAULT_SPAN, LEAVE makes it drain, and a message of
another span, or in another state, does nothing to it. TIME gives an offset by half the difference of the two delays (rounded down, log
entry 39). On a link that is down no message acts. Each message counts as one accepted control frame (the model's choice, log entry 40),
and the recorded peer stands until the next HELLO (log entry 80). -/
def Obligations.SpanMessagesFormAndEndASpan : Prop :=
  ∀ (q : SpanPort) (x : Spn) (s : State), s.glb.phase = .up → x = getSpn s q →
    (x.linkUp = false → ∀ c, ((∃ n, c = .hello q n) ∨ (∃ a b d i, c = .ready q a b d i) ∨ (∃ i, c = .go q i) ∨ (∃ a i, c = .abort q a i) ∨
      (∃ i, c = .leave q i) ∨ (∃ d n, c = .time q d n)) → exec c s = .next s) ∧
    (x.linkUp = true →
      (∀ n, (x.helloAt = none ∨ x.peer = some n) → ∃ t, exec (.hello q n) s = .next t ∧ Touch [.spa, .spb] s t ∧
        (getSpn t q).peer = some n ∧ (getSpn t q).helloAt = some (now s) ∧ (getSpn t q).linkUp = true) ∧
      (∀ n, x.helloAt.isSome = true → x.peer ≠ some n → ∃ t, exec (.hello q n) s = .next t ∧ (getSpn t q).linkUp = false ∧
        (getSpn t q).lostEv = true ∧ (getSpn t q).serialEv = true) ∧
      (∀ (d : Int) (n : Nat), ∃ t, exec (.time q d n) s = .next t ∧ Touch [.spa, .spb] s t ∧ (getSpn t q).dLocal = (now s : Int) - n ∧
        (getSpn t q).offsets = ((d - ((now s : Int) - n)) / 2, now s) :: x.offsets.take 1) ∧
      (∀ p y l pos un d i due, waitingPiece s q = some (p, y) → s.parts[p].load = some l → l.phase = .spanWait → i = y.id → un = y.units →
        pos + (if q = .spa then 1 else 0) = y.position + (if q = .spb then 1 else 0) →
        (if q = .spa then 0 < y.position ∧ d = true else y.position = 0) → s.parts[p].span.dready = false →
        due = (s.parts[p].span.due || decide (y.position + 1 = y.units)) →
        ∃ t, exec (.ready q pos un d i) s = .next t ∧ Touch [.parts, .spa, .spb] s t ∧ t.parts[p].span = { dready := true, due := due } ∧
          t.parts[p].state = .spanWait ∧
          (t.parts[p].flow.lupin = if due = true ∧ s.pwr.resReady = true ∧ s.parts[p].flow.lupin = none then some 1
            else s.parts[p].flow.lupin)) ∧
      (∀ p y l, q = .spb → waitingPiece s q = some (p, y) → s.parts[p].load = some l → l.phase = .spanWait → s.parts[p].span.due = false →
        ∃ t, exec (.go q y.id) s = .next t ∧ Touch [.parts, .spa, .spb] s t ∧ t.parts[p].span.due = true ∧
          t.spb.credits = Vector.replicate 4 2048 ∧ t.spb.dcredits = 4096 ∧
          (s.pwr.resReady = true → s.parts[p].flow.lupin = none → t.parts[p].flow.lupin = some 1)) ∧
      (∀ p y, runningPiece s q = some (p, y) → s.parts[p].state = .running →
        (∀ cause, ∃ t, exec (.abort q cause y.id) s = .next t ∧ standsInFault t p .faultSpan cSpanAbort ∧
          ∀ r, r ≠ p → t.parts[r] = s.parts[r]) ∧
        (∃ t, exec (.leave q y.id) s = .next t ∧ Touch [.signals, .parts, .exps, .arbLast, .spa, .spb] s t ∧ drains t p .peerLeft ∧
          ∀ r, r ≠ p → t.parts[r] = s.parts[r])) ∧
      (∀ p y i, runningPiece s q = some (p, y) → (i ≠ y.id ∨ s.parts[p].state ≠ .running) → ∀ c,
        ((∃ cause, c = .abort q cause i) ∨ c = .leave q i) → ∃ t, exec c s = .next t ∧ Touch [.spa, .spb] s t ∧
          (getSpn t q).rxNext = (x.rxNext + 1) % 65536 ∧ getSpn t (otherSpan q) = getSpn s (otherSpan q)))

/-- The Larkspur census. A request in a state that takes none sets CEN_ERR; otherwise it starts a census, is satisfied by the one whose
tick is to come, or becomes the queued one. A period of 1 to 3,600 s chooses its first tick as a request does, 0 ends the periodic census.
At the tick of the census in flight, and at a periodic tick with none in flight, every tile of the placement latches its counters; before
it nothing happens. A tick that falls while a census is collected is
skipped and counted. A collected census leaves its records, numbered from part 0, with every entry of the census map in one of them. -/
def Obligations.CensusesLatchTogetherAndReportAllEntries : Prop :=
  ∀ (p : PartId) (c : Census) (s : State), s.glb.phase = .up → c = s.parts[p].census →
    (∀ v : Word, v ≠ 1 → exec (.censusRequest p v) s = .next s) ∧
    (isServing s.parts[p].state = false → ∃ t, exec (.censusRequest p 1) s = .next t ∧ Touch [.parts] s t ∧
      t.parts = s.parts.set p { s.parts[p] with census := { c with err := true } }) ∧
    (isServing s.parts[p].state = true → ∃ t, exec (.censusRequest p 1) s = .next t ∧ Touch [.parts] s t ∧
      (c.run = none → ∃ r, t.parts = s.parts.set p { s.parts[p] with census := { c with run := some r } } ∧ r.latched = false ∧
        r.automatic = false ∧ r.tick % 16 = 0 ∧ now s + 100000 ≤ r.tick ∧ r.tick < now s + 100016) ∧
      (∀ r, c.run = some r → r.latched = false → t.parts = s.parts) ∧
      (∀ r, c.run = some r → r.latched = true →
        t.parts = s.parts.set p { s.parts[p] with census := { c with queued := true } })) ∧
    (∀ v : Word, 3600 < v.toNat → exec (.censusPeriodWrite p v) s = .next s) ∧
    (∀ v : Word, v.toNat ≤ 3600 → ∃ t, exec (.censusPeriodWrite p v) s = .next t ∧ Touch [.parts] s t ∧
      t.parts[p].census.period = v.toNat ∧ (v = 0 → t.parts[p].census.nextPeriodic = none) ∧
      (v ≠ 0 → ∃ k, t.parts[p].census.nextPeriodic = some k ∧ k % 16 = 0 ∧ now s + 100000 ≤ k ∧ k < now s + 100016)) ∧
    (c.run = none → c.nextPeriodic = none → exec (.censusTick p) s = .next s) ∧
    ((∀ u ∈ censusTicks c, now s < u) → exec (.censusTick p) s = .next s) ∧
    (∀ n i pl, c.run = none → c.nextPeriodic = some n → n ≤ now s → isServing s.parts[p].state = true → s.parts[p].active = some i →
      s.parts[p].placement = some pl → ∃ t r', exec (.censusTick p) s = .next t ∧ Touch [.parts, .tiles] s t ∧
        t.parts[p].census.run = some r' ∧ r'.latched = true ∧ r'.tick = n ∧ r'.image = i ∧ r'.automatic = false ∧
        t.parts[p].census.nextPeriodic = some (n + 1000000000 * c.period) ∧
        (storeOk s → ∀ k, tileRegion k ∈ placedRegions pl → getTile t k = { getTile s k with latch := (getTile s k).counters })) ∧
    (∀ r i pl, c.run = some r → r.latched = false → c.nextPeriodic = none → r.tick ≤ now s → s.parts[p].active = some i →
      s.parts[p].placement = some pl → ∃ t r', exec (.censusTick p) s = .next t ∧ Touch [.parts, .tiles] s t ∧ t.parts[p].census.run = some r' ∧ r'.latched = true ∧
        r'.tick = r.tick ∧ r'.image = i ∧ r'.holdover = s.tbs.holdover ∧
        (storeOk s → ∀ k, tileRegion k ∈ placedRegions pl → getTile t k = { getTile s k with latch := (getTile s k).counters }) ∧
        (∀ k, tileRegion k ∉ placedRegions pl → getTile t k = getTile s k)) ∧
    (∀ r n, c.run = some r → r.latched = true → c.nextPeriodic = some n → n ≤ now s → ∃ t, exec (.censusTick p) s = .next t ∧ Touch [.parts] s t ∧
      t.parts = s.parts.set p { s.parts[p] with
        census := { c with skipped := min (c.skipped + 1) 65535, nextPeriodic := some (n + 1000000000 * c.period) } }) ∧
    ((c.run = none ∨ ∃ r, c.run = some r ∧ r.latched = false) → exec (.censusCollected p) s = .next s) ∧
    (∀ r, c.run = some r → r.latched = true → ∃ t, exec (.censusCollected p) s = .next t ∧ Touch [.parts, .exps, .arbLast] s t ∧
      t.parts[p].census.lastId = some c.nextId ∧ t.parts[p].census.nextId = (c.nextId + 1) % 4294967296 ∧
      (c.finalRun = none → c.queued = false → t.parts[p].census.run = none) ∧
      (∀ k rec, t.parts[p].census.records[k]? = some rec → leAt rec 0 1 = 3 ∧ leAt rec 2 2 = rec.length ∧
        leAt rec 4 4 = c.nextId % 4294967296 ∧ leAt rec 8 8 = r.tick % 2 ^ 64 ∧ leAt rec 16 2 = k % 65536 ∧
        rec.length = 32 + 96 * leAt rec 18 2) ∧
      (t.parts[p].census.records.map (fun rec => leAt rec 18 2)).sum = (imgCensusMap r.image).length ∧
      ∀ q, q ≠ p → t.parts[q] = s.parts[q])

/-- Commands complete, each with its own effect, under conditions on the state and the operands alone. Tiles: a flit of an enabled entry
joins its input and is acknowledged, a credit flit adds its credits, a scrub read moves on. A release takes the oldest token and window; a
pulse that has run its width ends. Bays and cartridges: each step of an insertion, each use of the NVMe side and each wear count takes
place. Loads: each stage goes on to the next. (What the statements on these commands say besides is not repeated here. That FLIT_RECEIVED
acknowledges the sender is the model's choice, log entry 62.) -/
def Obligations.CommandsCompleteWithTheirEffect : Prop :=
  ∀ s : State, s.glb.phase = .up →
    (∀ (x : TileAt) (k : Nat) (p : PartId) (d : Dir) (w : Wires) (e : EccRead) (f : Flit) (i : Fin 30), tileExists x = true →
      k = tileKey x.x x.y → tileOwner s k = some p → isServing s.parts[p].state = true → linkOpen s k d = some true →
      decodeWires w = some f → i = fifo (dirIdx d).val (flitLane f) →
      (flitLane f < 6 → gatewayPlace s p k = none → runsHere s k = some p → (activeCtx (getTile s k)).route[i].enable = true →
        (getTile s k).inputs[i].length < 4 →
        (s.parts[p].fabric.queues).any (fun q => q.tile = k && decide (q.cfg.lane = flitLane f)) = false →
        exec (.flitReceived x (.side d) w e) s = .next (ackSender (pumpTile (updTile s k (fun t =>
          { t with inputs := t.inputs.set i (t.inputs[i] ++ [f]) })) k) k d w)) ∧
      (flitLane f = 7 → exec (.creditFlitReceived x d w) s =
        .next (ackSender (pumpTile (updTile s k (takeCredits4 d (flitData f))) k) k d w))) ∧
    (∀ (x : TileAt) (k : Nat) (wr : WriteBack), tileExists x = true → k = tileKey x.x x.y → tileInService s k = true → storeOk s →
      ∃ t, exec (.backgroundScrub x ⟨.clean, wr⟩) s = .next t ∧ (getTile t k).scrubPtr = ((getTile s k).scrubPtr + 1) % 2048) ∧
    (∀ (p : PartId) i tok toks w ws last, isServing s.parts[p].state = true → s.parts[p].active = some i →
      s.parts[p].flow.tokens = tok :: toks → s.parts[p].flow.windows = w :: ws → w.tLast = some last →
      (∀ r, s.parts[p].flow.lastRelease = some r → r + (imgContract i).verdictInterval ≤ now s) →
      ∃ t, exec (.verdictRelease p) s = .next t ∧ t.parts[p].regs.vrd = s.parts[p].regs.vrd + 1 ∧ t.parts[p].flow.tokens = toks ∧
        t.parts[p].flow.windows = ws) ∧
    (∀ (n : PinId) e, s.pins[n].pulsing = true → (s.pins[n].pulseEntry <|> s.pins[n].entry) = some e →
      s.pins[n].pulseAt + e.pulseNs ≤ now s → ∃ t, exec (.pinPulseEnd n) s = .next t ∧ t.pins[n].pulsing = false) ∧
    (∀ b : BayId,
      (s.bays[b].presence = .absent → ∃ t, exec (.presenceAsserted b) s = .next t ∧ t.bays[b].presence = .debouncing) ∧
      (s.bays[b].presence = .debouncing → ∃ t, exec (.presenceDebounceEnd b) s = .next t ∧ t.bays[b].power = true) ∧
      (∀ o, s.bays[b].power = true → s.bays[b].good = false → ∃ t, exec (.bayPowerGood b o) s = .next t ∧ t.bays[b].good = true) ∧
      (∀ w g, s.bays[b].good = true → s.bays[b].perst = true →
        ∃ t, exec (.perstRelease b w g) s = .next t ∧ t.bays[b].perst = false ∧ t.bays[b].linkWidth = w) ∧
      (∀ o, s.bays[b].nvme = .training → s.bays[b].identityDone = true → s.bays[b].cause = 0 → 63 ≤ o.mqes → o.capTo ≤ 1 → 128 ≤ o.mdtsKiB →
        s.glb.serviceOnly = false → directoryOk o.directory = true → (readSlot o.directory s.bays[b].armed.val).present = true →
        (readSlot o.directory s.bays[b].armed.val).crcOk = true → duplicateId s b s.bays[b].id = false →
        ∃ t, exec (.nvmeReady b o) s = .next t ∧ t.bays[b].accepted = true ∧ t.bays[b].nvme = .ready) ∧
      (∀ c, cmdOut s b c = true → c ∉ s.bays[b].retried →
        (∃ t, exec (.nvmeCommandTimeout ⟨b, c⟩) s = .next t ∧ t.bays[b].resets = s.bays[b].resets + 1) ∧
        (∃ t, exec (.nvmeCommandCompletion ⟨b, c⟩ false) s = .next t ∧ t.bays[b].resets = s.bays[b].resets + 1)) ∧
      (s.bays[b].presence = .inserted → s.parts[b].load = none → ∃ t, exec (.removed b) s = .next t ∧ t.bays[b] = {}) ∧
      (s.bays[b].power = true → ∃ t, exec (.overcurrent b) s = .next t ∧ t.bays[b].power = false ∧ t.bays[b].cause = 1) ∧
      (s.bays[b].good = true → s.bays[b].identityDone = true → (s.bays[b].cause = 0 ∨ 5 < s.bays[b].cause) →
        ∃ t, exec (.poweredHour b) s = .next t ∧ t.bays[b].hours = min (s.bays[b].hours + 1) (2 ^ 32 - 1)) ∧
      (∀ c u, s.bays[b].good = true → s.bays[b].identityDone = true → (s.bays[b].nvme = .ready ∨ s.bays[b].nvme = .done) →
        ∃ t, exec (.smartReadPeriod b c u) s = .next t ∧ t.bays[b].smartCritical = c ∧ t.bays[b].smartUsed = u) ∧
      (s.bays[b].accepted = true → s.bays[b].power = true → s.bays[b].stateWrites < 100000 →
        ∃ t, exec (.periodicLifeRecord b) s = .next t ∧ t.bays[b].stateWrites = s.bays[b].stateWrites + 1)) ∧
    (∀ p : PartId,
      (∀ o, s.glb.serviceOnly = false → s.bays[p].accepted = true → s.parts[p].flow.lupin.isSome = true →
        ∃ t, exec (.reload p o) s = .next t ∧ t.parts[p].queued = some .hostReload) ∧
      (∀ o, s.bays[p].accepted = true → s.bays[p].nvme = .ready → s.glb.serviceOnly = false → isServing s.parts[p].state = false →
        exec (.loadHandover p o) s = .next (loadRequest (updBay s p (fun x => { x with nvme := .done })) p .insertion o)) ∧
      (∀ l, s.parts[p].load = some l →
        (l.phase = .preScrub → ∃ t, exec (.preLoadScrubDone p []) s = .next t ∧ t.parts[p].state = .loading) ∧
        (∀ cipher tag text, l.phase = .streaming → l.checked = false → l.chunk < chunkCount l.slot →
          openChunk l.slot l.key l.chunk cipher tag = some text →
          ∃ t m, exec (.chunkDecrypted p cipher tag) s = .next t ∧ t.parts[p].load = some m ∧ m.chunk = l.chunk + 1) ∧
        (∀ k, s.parts[p].flow.lupin = some k → k < 3 →
          ∃ t, exec (.lupinStageAck p none) s = .next t ∧ t.parts[p].flow.lupin = some (k + 1)) ∧
        (∀ k, s.parts[p].flow.lupin = some k → 3 ≤ k →
          ∃ t, exec (.lupinStageAck p none) s = .next t ∧ t.parts[p].state = .running ∧ t.parts[p].active = some l.image)) ∧
      (s.parts[p].flow.drain = some .unload → s.parts[p].flow.drained = false → s.sup.activating = false → drainedOut s p = true →
        ∃ t, exec (.drainComplete p) s = .next t ∧ t.parts[p].active = none ∧ t.parts[p].flow.scrub = some .toEmpty) ∧
      (s.parts[p].flow.scrub = some .toEmpty → censusBusy s.parts[p].census = false → s.parts[p].load = none →
        ∃ t, exec (.unloadScrubDone p []) s = .next t ∧ t.parts[p].state = .empty))
end

