-- ==== Sys2Proof/Laws/State.lean ====
section
/-! SUPPORT. What each update of one component leaves: one lemma per field, and what a component reads after it. -/

namespace Sys2Proof.Machine

/-! ### updPart -/

@[simp] theorem updPart_pending (s : State) (p : PartId) (f : Partition → Partition) : (updPart s p f).pending = s.pending := rfl
@[simp] theorem updPart_glb (s : State) (p : PartId) (f : Partition → Partition) : (updPart s p f).glb = s.glb := rfl
@[simp] theorem updPart_sup (s : State) (p : PartId) (f : Partition → Partition) : (updPart s p f).sup = s.sup := rfl
@[simp] theorem updPart_nv (s : State) (p : PartId) (f : Partition → Partition) : (updPart s p f).nv = s.nv := rfl
@[simp] theorem updPart_tbs (s : State) (p : PartId) (f : Partition → Partition) : (updPart s p f).tbs = s.tbs := rfl
@[simp] theorem updPart_wafer (s : State) (p : PartId) (f : Partition → Partition) : (updPart s p f).wafer = s.wafer := rfl
@[simp] theorem updPart_pwr (s : State) (p : PartId) (f : Partition → Partition) : (updPart s p f).pwr = s.pwr := rfl
@[simp] theorem updPart_regions (s : State) (p : PartId) (f : Partition → Partition) : (updPart s p f).regions = s.regions := rfl
@[simp] theorem updPart_bays (s : State) (p : PartId) (f : Partition → Partition) : (updPart s p f).bays = s.bays := rfl
@[simp] theorem updPart_imgs (s : State) (p : PartId) (f : Partition → Partition) : (updPart s p f).imgs = s.imgs := rfl
@[simp] theorem updPart_snds (s : State) (p : PartId) (f : Partition → Partition) : (updPart s p f).snds = s.snds := rfl
@[simp] theorem updPart_encs (s : State) (p : PartId) (f : Partition → Partition) : (updPart s p f).encs = s.encs := rfl
@[simp] theorem updPart_pins (s : State) (p : PartId) (f : Partition → Partition) : (updPart s p f).pins = s.pins := rfl
@[simp] theorem updPart_allocHeld (s : State) (p : PartId) (f : Partition → Partition) : (updPart s p f).allocHeld = s.allocHeld := rfl
@[simp] theorem updPart_exps (s : State) (p : PartId) (f : Partition → Partition) : (updPart s p f).exps = s.exps := rfl
@[simp] theorem updPart_arbLast (s : State) (p : PartId) (f : Partition → Partition) : (updPart s p f).arbLast = s.arbLast := rfl
@[simp] theorem updPart_spa (s : State) (p : PartId) (f : Partition → Partition) : (updPart s p f).spa = s.spa := rfl
@[simp] theorem updPart_spb (s : State) (p : PartId) (f : Partition → Partition) : (updPart s p f).spb = s.spb := rfl
@[simp] theorem updPart_flt (s : State) (p : PartId) (f : Partition → Partition) : (updPart s p f).flt = s.flt := rfl
@[simp] theorem updPart_defPage (s : State) (p : PartId) (f : Partition → Partition) : (updPart s p f).defPage = s.defPage := rfl
@[simp] theorem updPart_cenSel (s : State) (p : PartId) (f : Partition → Partition) : (updPart s p f).cenSel = s.cenSel := rfl
@[simp] theorem updPart_tiles (s : State) (p : PartId) (f : Partition → Partition) : (updPart s p f).tiles = s.tiles := rfl
@[simp] theorem updPart_mem (s : State) (p : PartId) (f : Partition → Partition) : (updPart s p f).mem = s.mem := rfl
@[simp] theorem updPart_freeCount (s : State) (p : PartId) (f : Partition → Partition) : (updPart s p f).freeCount = s.freeCount := rfl

/-! ### updRegion -/

@[simp] theorem updRegion_pending (s : State) (r : RegionId) (f : Region → Region) : (updRegion s r f).pending = s.pending := rfl
@[simp] theorem updRegion_glb (s : State) (r : RegionId) (f : Region → Region) : (updRegion s r f).glb = s.glb := rfl
@[simp] theorem updRegion_sup (s : State) (r : RegionId) (f : Region → Region) : (updRegion s r f).sup = s.sup := rfl
@[simp] theorem updRegion_nv (s : State) (r : RegionId) (f : Region → Region) : (updRegion s r f).nv = s.nv := rfl
@[simp] theorem updRegion_tbs (s : State) (r : RegionId) (f : Region → Region) : (updRegion s r f).tbs = s.tbs := rfl
@[simp] theorem updRegion_wafer (s : State) (r : RegionId) (f : Region → Region) : (updRegion s r f).wafer = s.wafer := rfl
@[simp] theorem updRegion_pwr (s : State) (r : RegionId) (f : Region → Region) : (updRegion s r f).pwr = s.pwr := rfl
@[simp] theorem updRegion_parts (s : State) (r : RegionId) (f : Region → Region) : (updRegion s r f).parts = s.parts := rfl
@[simp] theorem updRegion_bays (s : State) (r : RegionId) (f : Region → Region) : (updRegion s r f).bays = s.bays := rfl
@[simp] theorem updRegion_imgs (s : State) (r : RegionId) (f : Region → Region) : (updRegion s r f).imgs = s.imgs := rfl
@[simp] theorem updRegion_snds (s : State) (r : RegionId) (f : Region → Region) : (updRegion s r f).snds = s.snds := rfl
@[simp] theorem updRegion_encs (s : State) (r : RegionId) (f : Region → Region) : (updRegion s r f).encs = s.encs := rfl
@[simp] theorem updRegion_pins (s : State) (r : RegionId) (f : Region → Region) : (updRegion s r f).pins = s.pins := rfl
@[simp] theorem updRegion_allocHeld (s : State) (r : RegionId) (f : Region → Region) : (updRegion s r f).allocHeld = s.allocHeld := rfl
@[simp] theorem updRegion_exps (s : State) (r : RegionId) (f : Region → Region) : (updRegion s r f).exps = s.exps := rfl
@[simp] theorem updRegion_arbLast (s : State) (r : RegionId) (f : Region → Region) : (updRegion s r f).arbLast = s.arbLast := rfl
@[simp] theorem updRegion_spa (s : State) (r : RegionId) (f : Region → Region) : (updRegion s r f).spa = s.spa := rfl
@[simp] theorem updRegion_spb (s : State) (r : RegionId) (f : Region → Region) : (updRegion s r f).spb = s.spb := rfl
@[simp] theorem updRegion_flt (s : State) (r : RegionId) (f : Region → Region) : (updRegion s r f).flt = s.flt := rfl
@[simp] theorem updRegion_defPage (s : State) (r : RegionId) (f : Region → Region) : (updRegion s r f).defPage = s.defPage := rfl
@[simp] theorem updRegion_cenSel (s : State) (r : RegionId) (f : Region → Region) : (updRegion s r f).cenSel = s.cenSel := rfl
@[simp] theorem updRegion_tiles (s : State) (r : RegionId) (f : Region → Region) : (updRegion s r f).tiles = s.tiles := rfl
@[simp] theorem updRegion_mem (s : State) (r : RegionId) (f : Region → Region) : (updRegion s r f).mem = s.mem := rfl
@[simp] theorem updRegion_freeCount (s : State) (r : RegionId) (f : Region → Region) : (updRegion s r f).freeCount = s.freeCount := rfl

/-! ### updBay -/

@[simp] theorem updBay_pending (s : State) (b : BayId) (f : Bay → Bay) : (updBay s b f).pending = s.pending := rfl
@[simp] theorem updBay_glb (s : State) (b : BayId) (f : Bay → Bay) : (updBay s b f).glb = s.glb := rfl
@[simp] theorem updBay_sup (s : State) (b : BayId) (f : Bay → Bay) : (updBay s b f).sup = s.sup := rfl
@[simp] theorem updBay_nv (s : State) (b : BayId) (f : Bay → Bay) : (updBay s b f).nv = s.nv := rfl
@[simp] theorem updBay_tbs (s : State) (b : BayId) (f : Bay → Bay) : (updBay s b f).tbs = s.tbs := rfl
@[simp] theorem updBay_wafer (s : State) (b : BayId) (f : Bay → Bay) : (updBay s b f).wafer = s.wafer := rfl
@[simp] theorem updBay_pwr (s : State) (b : BayId) (f : Bay → Bay) : (updBay s b f).pwr = s.pwr := rfl
@[simp] theorem updBay_regions (s : State) (b : BayId) (f : Bay → Bay) : (updBay s b f).regions = s.regions := rfl
@[simp] theorem updBay_parts (s : State) (b : BayId) (f : Bay → Bay) : (updBay s b f).parts = s.parts := rfl
@[simp] theorem updBay_imgs (s : State) (b : BayId) (f : Bay → Bay) : (updBay s b f).imgs = s.imgs := rfl
@[simp] theorem updBay_snds (s : State) (b : BayId) (f : Bay → Bay) : (updBay s b f).snds = s.snds := rfl
@[simp] theorem updBay_encs (s : State) (b : BayId) (f : Bay → Bay) : (updBay s b f).encs = s.encs := rfl
@[simp] theorem updBay_pins (s : State) (b : BayId) (f : Bay → Bay) : (updBay s b f).pins = s.pins := rfl
@[simp] theorem updBay_allocHeld (s : State) (b : BayId) (f : Bay → Bay) : (updBay s b f).allocHeld = s.allocHeld := rfl
@[simp] theorem updBay_exps (s : State) (b : BayId) (f : Bay → Bay) : (updBay s b f).exps = s.exps := rfl
@[simp] theorem updBay_arbLast (s : State) (b : BayId) (f : Bay → Bay) : (updBay s b f).arbLast = s.arbLast := rfl
@[simp] theorem updBay_spa (s : State) (b : BayId) (f : Bay → Bay) : (updBay s b f).spa = s.spa := rfl
@[simp] theorem updBay_spb (s : State) (b : BayId) (f : Bay → Bay) : (updBay s b f).spb = s.spb := rfl
@[simp] theorem updBay_flt (s : State) (b : BayId) (f : Bay → Bay) : (updBay s b f).flt = s.flt := rfl
@[simp] theorem updBay_defPage (s : State) (b : BayId) (f : Bay → Bay) : (updBay s b f).defPage = s.defPage := rfl
@[simp] theorem updBay_cenSel (s : State) (b : BayId) (f : Bay → Bay) : (updBay s b f).cenSel = s.cenSel := rfl
@[simp] theorem updBay_tiles (s : State) (b : BayId) (f : Bay → Bay) : (updBay s b f).tiles = s.tiles := rfl
@[simp] theorem updBay_mem (s : State) (b : BayId) (f : Bay → Bay) : (updBay s b f).mem = s.mem := rfl
@[simp] theorem updBay_freeCount (s : State) (b : BayId) (f : Bay → Bay) : (updBay s b f).freeCount = s.freeCount := rfl

/-! ### updImg -/

@[simp] theorem updImg_pending (s : State) (c : ImgId) (f : ImgConn → ImgConn) : (updImg s c f).pending = s.pending := rfl
@[simp] theorem updImg_glb (s : State) (c : ImgId) (f : ImgConn → ImgConn) : (updImg s c f).glb = s.glb := rfl
@[simp] theorem updImg_sup (s : State) (c : ImgId) (f : ImgConn → ImgConn) : (updImg s c f).sup = s.sup := rfl
@[simp] theorem updImg_nv (s : State) (c : ImgId) (f : ImgConn → ImgConn) : (updImg s c f).nv = s.nv := rfl
@[simp] theorem updImg_tbs (s : State) (c : ImgId) (f : ImgConn → ImgConn) : (updImg s c f).tbs = s.tbs := rfl
@[simp] theorem updImg_wafer (s : State) (c : ImgId) (f : ImgConn → ImgConn) : (updImg s c f).wafer = s.wafer := rfl
@[simp] theorem updImg_pwr (s : State) (c : ImgId) (f : ImgConn → ImgConn) : (updImg s c f).pwr = s.pwr := rfl
@[simp] theorem updImg_regions (s : State) (c : ImgId) (f : ImgConn → ImgConn) : (updImg s c f).regions = s.regions := rfl
@[simp] theorem updImg_parts (s : State) (c : ImgId) (f : ImgConn → ImgConn) : (updImg s c f).parts = s.parts := rfl
@[simp] theorem updImg_bays (s : State) (c : ImgId) (f : ImgConn → ImgConn) : (updImg s c f).bays = s.bays := rfl
@[simp] theorem updImg_snds (s : State) (c : ImgId) (f : ImgConn → ImgConn) : (updImg s c f).snds = s.snds := rfl
@[simp] theorem updImg_encs (s : State) (c : ImgId) (f : ImgConn → ImgConn) : (updImg s c f).encs = s.encs := rfl
@[simp] theorem updImg_pins (s : State) (c : ImgId) (f : ImgConn → ImgConn) : (updImg s c f).pins = s.pins := rfl
@[simp] theorem updImg_allocHeld (s : State) (c : ImgId) (f : ImgConn → ImgConn) : (updImg s c f).allocHeld = s.allocHeld := rfl
@[simp] theorem updImg_exps (s : State) (c : ImgId) (f : ImgConn → ImgConn) : (updImg s c f).exps = s.exps := rfl
@[simp] theorem updImg_arbLast (s : State) (c : ImgId) (f : ImgConn → ImgConn) : (updImg s c f).arbLast = s.arbLast := rfl
@[simp] theorem updImg_spa (s : State) (c : ImgId) (f : ImgConn → ImgConn) : (updImg s c f).spa = s.spa := rfl
@[simp] theorem updImg_spb (s : State) (c : ImgId) (f : ImgConn → ImgConn) : (updImg s c f).spb = s.spb := rfl
@[simp] theorem updImg_flt (s : State) (c : ImgId) (f : ImgConn → ImgConn) : (updImg s c f).flt = s.flt := rfl
@[simp] theorem updImg_defPage (s : State) (c : ImgId) (f : ImgConn → ImgConn) : (updImg s c f).defPage = s.defPage := rfl
@[simp] theorem updImg_cenSel (s : State) (c : ImgId) (f : ImgConn → ImgConn) : (updImg s c f).cenSel = s.cenSel := rfl
@[simp] theorem updImg_tiles (s : State) (c : ImgId) (f : ImgConn → ImgConn) : (updImg s c f).tiles = s.tiles := rfl
@[simp] theorem updImg_mem (s : State) (c : ImgId) (f : ImgConn → ImgConn) : (updImg s c f).mem = s.mem := rfl
@[simp] theorem updImg_freeCount (s : State) (c : ImgId) (f : ImgConn → ImgConn) : (updImg s c f).freeCount = s.freeCount := rfl

/-! ### updSnd -/

@[simp] theorem updSnd_pending (s : State) (c : SndId) (f : Snd → Snd) : (updSnd s c f).pending = s.pending := rfl
@[simp] theorem updSnd_glb (s : State) (c : SndId) (f : Snd → Snd) : (updSnd s c f).glb = s.glb := rfl
@[simp] theorem updSnd_sup (s : State) (c : SndId) (f : Snd → Snd) : (updSnd s c f).sup = s.sup := rfl
@[simp] theorem updSnd_nv (s : State) (c : SndId) (f : Snd → Snd) : (updSnd s c f).nv = s.nv := rfl
@[simp] theorem updSnd_tbs (s : State) (c : SndId) (f : Snd → Snd) : (updSnd s c f).tbs = s.tbs := rfl
@[simp] theorem updSnd_wafer (s : State) (c : SndId) (f : Snd → Snd) : (updSnd s c f).wafer = s.wafer := rfl
@[simp] theorem updSnd_pwr (s : State) (c : SndId) (f : Snd → Snd) : (updSnd s c f).pwr = s.pwr := rfl
@[simp] theorem updSnd_regions (s : State) (c : SndId) (f : Snd → Snd) : (updSnd s c f).regions = s.regions := rfl
@[simp] theorem updSnd_parts (s : State) (c : SndId) (f : Snd → Snd) : (updSnd s c f).parts = s.parts := rfl
@[simp] theorem updSnd_bays (s : State) (c : SndId) (f : Snd → Snd) : (updSnd s c f).bays = s.bays := rfl
@[simp] theorem updSnd_imgs (s : State) (c : SndId) (f : Snd → Snd) : (updSnd s c f).imgs = s.imgs := rfl
@[simp] theorem updSnd_encs (s : State) (c : SndId) (f : Snd → Snd) : (updSnd s c f).encs = s.encs := rfl
@[simp] theorem updSnd_pins (s : State) (c : SndId) (f : Snd → Snd) : (updSnd s c f).pins = s.pins := rfl
@[simp] theorem updSnd_allocHeld (s : State) (c : SndId) (f : Snd → Snd) : (updSnd s c f).allocHeld = s.allocHeld := rfl
@[simp] theorem updSnd_exps (s : State) (c : SndId) (f : Snd → Snd) : (updSnd s c f).exps = s.exps := rfl
@[simp] theorem updSnd_arbLast (s : State) (c : SndId) (f : Snd → Snd) : (updSnd s c f).arbLast = s.arbLast := rfl
@[simp] theorem updSnd_spa (s : State) (c : SndId) (f : Snd → Snd) : (updSnd s c f).spa = s.spa := rfl
@[simp] theorem updSnd_spb (s : State) (c : SndId) (f : Snd → Snd) : (updSnd s c f).spb = s.spb := rfl
@[simp] theorem updSnd_flt (s : State) (c : SndId) (f : Snd → Snd) : (updSnd s c f).flt = s.flt := rfl
@[simp] theorem updSnd_defPage (s : State) (c : SndId) (f : Snd → Snd) : (updSnd s c f).defPage = s.defPage := rfl
@[simp] theorem updSnd_cenSel (s : State) (c : SndId) (f : Snd → Snd) : (updSnd s c f).cenSel = s.cenSel := rfl
@[simp] theorem updSnd_tiles (s : State) (c : SndId) (f : Snd → Snd) : (updSnd s c f).tiles = s.tiles := rfl
@[simp] theorem updSnd_mem (s : State) (c : SndId) (f : Snd → Snd) : (updSnd s c f).mem = s.mem := rfl
@[simp] theorem updSnd_freeCount (s : State) (c : SndId) (f : Snd → Snd) : (updSnd s c f).freeCount = s.freeCount := rfl

/-! ### updEnc -/

@[simp] theorem updEnc_pending (s : State) (e : EncId) (f : Enc → Enc) : (updEnc s e f).pending = s.pending := rfl
@[simp] theorem updEnc_glb (s : State) (e : EncId) (f : Enc → Enc) : (updEnc s e f).glb = s.glb := rfl
@[simp] theorem updEnc_sup (s : State) (e : EncId) (f : Enc → Enc) : (updEnc s e f).sup = s.sup := rfl
@[simp] theorem updEnc_nv (s : State) (e : EncId) (f : Enc → Enc) : (updEnc s e f).nv = s.nv := rfl
@[simp] theorem updEnc_tbs (s : State) (e : EncId) (f : Enc → Enc) : (updEnc s e f).tbs = s.tbs := rfl
@[simp] theorem updEnc_wafer (s : State) (e : EncId) (f : Enc → Enc) : (updEnc s e f).wafer = s.wafer := rfl
@[simp] theorem updEnc_pwr (s : State) (e : EncId) (f : Enc → Enc) : (updEnc s e f).pwr = s.pwr := rfl
@[simp] theorem updEnc_regions (s : State) (e : EncId) (f : Enc → Enc) : (updEnc s e f).regions = s.regions := rfl
@[simp] theorem updEnc_parts (s : State) (e : EncId) (f : Enc → Enc) : (updEnc s e f).parts = s.parts := rfl
@[simp] theorem updEnc_bays (s : State) (e : EncId) (f : Enc → Enc) : (updEnc s e f).bays = s.bays := rfl
@[simp] theorem updEnc_imgs (s : State) (e : EncId) (f : Enc → Enc) : (updEnc s e f).imgs = s.imgs := rfl
@[simp] theorem updEnc_snds (s : State) (e : EncId) (f : Enc → Enc) : (updEnc s e f).snds = s.snds := rfl
@[simp] theorem updEnc_pins (s : State) (e : EncId) (f : Enc → Enc) : (updEnc s e f).pins = s.pins := rfl
@[simp] theorem updEnc_allocHeld (s : State) (e : EncId) (f : Enc → Enc) : (updEnc s e f).allocHeld = s.allocHeld := rfl
@[simp] theorem updEnc_exps (s : State) (e : EncId) (f : Enc → Enc) : (updEnc s e f).exps = s.exps := rfl
@[simp] theorem updEnc_arbLast (s : State) (e : EncId) (f : Enc → Enc) : (updEnc s e f).arbLast = s.arbLast := rfl
@[simp] theorem updEnc_spa (s : State) (e : EncId) (f : Enc → Enc) : (updEnc s e f).spa = s.spa := rfl
@[simp] theorem updEnc_spb (s : State) (e : EncId) (f : Enc → Enc) : (updEnc s e f).spb = s.spb := rfl
@[simp] theorem updEnc_flt (s : State) (e : EncId) (f : Enc → Enc) : (updEnc s e f).flt = s.flt := rfl
@[simp] theorem updEnc_defPage (s : State) (e : EncId) (f : Enc → Enc) : (updEnc s e f).defPage = s.defPage := rfl
@[simp] theorem updEnc_cenSel (s : State) (e : EncId) (f : Enc → Enc) : (updEnc s e f).cenSel = s.cenSel := rfl
@[simp] theorem updEnc_tiles (s : State) (e : EncId) (f : Enc → Enc) : (updEnc s e f).tiles = s.tiles := rfl
@[simp] theorem updEnc_mem (s : State) (e : EncId) (f : Enc → Enc) : (updEnc s e f).mem = s.mem := rfl
@[simp] theorem updEnc_freeCount (s : State) (e : EncId) (f : Enc → Enc) : (updEnc s e f).freeCount = s.freeCount := rfl

/-! ### updPin -/

@[simp] theorem updPin_pending (s : State) (n : PinId) (f : Pin → Pin) : (updPin s n f).pending = s.pending := rfl
@[simp] theorem updPin_glb (s : State) (n : PinId) (f : Pin → Pin) : (updPin s n f).glb = s.glb := rfl
@[simp] theorem updPin_sup (s : State) (n : PinId) (f : Pin → Pin) : (updPin s n f).sup = s.sup := rfl
@[simp] theorem updPin_nv (s : State) (n : PinId) (f : Pin → Pin) : (updPin s n f).nv = s.nv := rfl
@[simp] theorem updPin_tbs (s : State) (n : PinId) (f : Pin → Pin) : (updPin s n f).tbs = s.tbs := rfl
@[simp] theorem updPin_wafer (s : State) (n : PinId) (f : Pin → Pin) : (updPin s n f).wafer = s.wafer := rfl
@[simp] theorem updPin_pwr (s : State) (n : PinId) (f : Pin → Pin) : (updPin s n f).pwr = s.pwr := rfl
@[simp] theorem updPin_regions (s : State) (n : PinId) (f : Pin → Pin) : (updPin s n f).regions = s.regions := rfl
@[simp] theorem updPin_parts (s : State) (n : PinId) (f : Pin → Pin) : (updPin s n f).parts = s.parts := rfl
@[simp] theorem updPin_bays (s : State) (n : PinId) (f : Pin → Pin) : (updPin s n f).bays = s.bays := rfl
@[simp] theorem updPin_imgs (s : State) (n : PinId) (f : Pin → Pin) : (updPin s n f).imgs = s.imgs := rfl
@[simp] theorem updPin_snds (s : State) (n : PinId) (f : Pin → Pin) : (updPin s n f).snds = s.snds := rfl
@[simp] theorem updPin_encs (s : State) (n : PinId) (f : Pin → Pin) : (updPin s n f).encs = s.encs := rfl
@[simp] theorem updPin_allocHeld (s : State) (n : PinId) (f : Pin → Pin) : (updPin s n f).allocHeld = s.allocHeld := rfl
@[simp] theorem updPin_exps (s : State) (n : PinId) (f : Pin → Pin) : (updPin s n f).exps = s.exps := rfl
@[simp] theorem updPin_arbLast (s : State) (n : PinId) (f : Pin → Pin) : (updPin s n f).arbLast = s.arbLast := rfl
@[simp] theorem updPin_spa (s : State) (n : PinId) (f : Pin → Pin) : (updPin s n f).spa = s.spa := rfl
@[simp] theorem updPin_spb (s : State) (n : PinId) (f : Pin → Pin) : (updPin s n f).spb = s.spb := rfl
@[simp] theorem updPin_flt (s : State) (n : PinId) (f : Pin → Pin) : (updPin s n f).flt = s.flt := rfl
@[simp] theorem updPin_defPage (s : State) (n : PinId) (f : Pin → Pin) : (updPin s n f).defPage = s.defPage := rfl
@[simp] theorem updPin_cenSel (s : State) (n : PinId) (f : Pin → Pin) : (updPin s n f).cenSel = s.cenSel := rfl
@[simp] theorem updPin_tiles (s : State) (n : PinId) (f : Pin → Pin) : (updPin s n f).tiles = s.tiles := rfl
@[simp] theorem updPin_mem (s : State) (n : PinId) (f : Pin → Pin) : (updPin s n f).mem = s.mem := rfl
@[simp] theorem updPin_freeCount (s : State) (n : PinId) (f : Pin → Pin) : (updPin s n f).freeCount = s.freeCount := rfl

/-! ### updExp -/

@[simp] theorem updExp_pending (s : State) (p : PartId) (f : Exp → Exp) : (updExp s p f).pending = s.pending := rfl
@[simp] theorem updExp_glb (s : State) (p : PartId) (f : Exp → Exp) : (updExp s p f).glb = s.glb := rfl
@[simp] theorem updExp_sup (s : State) (p : PartId) (f : Exp → Exp) : (updExp s p f).sup = s.sup := rfl
@[simp] theorem updExp_nv (s : State) (p : PartId) (f : Exp → Exp) : (updExp s p f).nv = s.nv := rfl
@[simp] theorem updExp_tbs (s : State) (p : PartId) (f : Exp → Exp) : (updExp s p f).tbs = s.tbs := rfl
@[simp] theorem updExp_wafer (s : State) (p : PartId) (f : Exp → Exp) : (updExp s p f).wafer = s.wafer := rfl
@[simp] theorem updExp_pwr (s : State) (p : PartId) (f : Exp → Exp) : (updExp s p f).pwr = s.pwr := rfl
@[simp] theorem updExp_regions (s : State) (p : PartId) (f : Exp → Exp) : (updExp s p f).regions = s.regions := rfl
@[simp] theorem updExp_parts (s : State) (p : PartId) (f : Exp → Exp) : (updExp s p f).parts = s.parts := rfl
@[simp] theorem updExp_bays (s : State) (p : PartId) (f : Exp → Exp) : (updExp s p f).bays = s.bays := rfl
@[simp] theorem updExp_imgs (s : State) (p : PartId) (f : Exp → Exp) : (updExp s p f).imgs = s.imgs := rfl
@[simp] theorem updExp_snds (s : State) (p : PartId) (f : Exp → Exp) : (updExp s p f).snds = s.snds := rfl
@[simp] theorem updExp_encs (s : State) (p : PartId) (f : Exp → Exp) : (updExp s p f).encs = s.encs := rfl
@[simp] theorem updExp_pins (s : State) (p : PartId) (f : Exp → Exp) : (updExp s p f).pins = s.pins := rfl
@[simp] theorem updExp_allocHeld (s : State) (p : PartId) (f : Exp → Exp) : (updExp s p f).allocHeld = s.allocHeld := rfl
@[simp] theorem updExp_arbLast (s : State) (p : PartId) (f : Exp → Exp) : (updExp s p f).arbLast = s.arbLast := rfl
@[simp] theorem updExp_spa (s : State) (p : PartId) (f : Exp → Exp) : (updExp s p f).spa = s.spa := rfl
@[simp] theorem updExp_spb (s : State) (p : PartId) (f : Exp → Exp) : (updExp s p f).spb = s.spb := rfl
@[simp] theorem updExp_flt (s : State) (p : PartId) (f : Exp → Exp) : (updExp s p f).flt = s.flt := rfl
@[simp] theorem updExp_defPage (s : State) (p : PartId) (f : Exp → Exp) : (updExp s p f).defPage = s.defPage := rfl
@[simp] theorem updExp_cenSel (s : State) (p : PartId) (f : Exp → Exp) : (updExp s p f).cenSel = s.cenSel := rfl
@[simp] theorem updExp_tiles (s : State) (p : PartId) (f : Exp → Exp) : (updExp s p f).tiles = s.tiles := rfl
@[simp] theorem updExp_mem (s : State) (p : PartId) (f : Exp → Exp) : (updExp s p f).mem = s.mem := rfl
@[simp] theorem updExp_freeCount (s : State) (p : PartId) (f : Exp → Exp) : (updExp s p f).freeCount = s.freeCount := rfl

/-! ### updTile -/

@[simp] theorem updTile_pending (s : State) (k : Nat) (f : Tile → Tile) : (updTile s k f).pending = s.pending := rfl
@[simp] theorem updTile_glb (s : State) (k : Nat) (f : Tile → Tile) : (updTile s k f).glb = s.glb := rfl
@[simp] theorem updTile_sup (s : State) (k : Nat) (f : Tile → Tile) : (updTile s k f).sup = s.sup := rfl
@[simp] theorem updTile_nv (s : State) (k : Nat) (f : Tile → Tile) : (updTile s k f).nv = s.nv := rfl
@[simp] theorem updTile_tbs (s : State) (k : Nat) (f : Tile → Tile) : (updTile s k f).tbs = s.tbs := rfl
@[simp] theorem updTile_wafer (s : State) (k : Nat) (f : Tile → Tile) : (updTile s k f).wafer = s.wafer := rfl
@[simp] theorem updTile_pwr (s : State) (k : Nat) (f : Tile → Tile) : (updTile s k f).pwr = s.pwr := rfl
@[simp] theorem updTile_regions (s : State) (k : Nat) (f : Tile → Tile) : (updTile s k f).regions = s.regions := rfl
@[simp] theorem updTile_parts (s : State) (k : Nat) (f : Tile → Tile) : (updTile s k f).parts = s.parts := rfl
@[simp] theorem updTile_bays (s : State) (k : Nat) (f : Tile → Tile) : (updTile s k f).bays = s.bays := rfl
@[simp] theorem updTile_imgs (s : State) (k : Nat) (f : Tile → Tile) : (updTile s k f).imgs = s.imgs := rfl
@[simp] theorem updTile_snds (s : State) (k : Nat) (f : Tile → Tile) : (updTile s k f).snds = s.snds := rfl
@[simp] theorem updTile_encs (s : State) (k : Nat) (f : Tile → Tile) : (updTile s k f).encs = s.encs := rfl
@[simp] theorem updTile_pins (s : State) (k : Nat) (f : Tile → Tile) : (updTile s k f).pins = s.pins := rfl
@[simp] theorem updTile_allocHeld (s : State) (k : Nat) (f : Tile → Tile) : (updTile s k f).allocHeld = s.allocHeld := rfl
@[simp] theorem updTile_exps (s : State) (k : Nat) (f : Tile → Tile) : (updTile s k f).exps = s.exps := rfl
@[simp] theorem updTile_arbLast (s : State) (k : Nat) (f : Tile → Tile) : (updTile s k f).arbLast = s.arbLast := rfl
@[simp] theorem updTile_spa (s : State) (k : Nat) (f : Tile → Tile) : (updTile s k f).spa = s.spa := rfl
@[simp] theorem updTile_spb (s : State) (k : Nat) (f : Tile → Tile) : (updTile s k f).spb = s.spb := rfl
@[simp] theorem updTile_flt (s : State) (k : Nat) (f : Tile → Tile) : (updTile s k f).flt = s.flt := rfl
@[simp] theorem updTile_defPage (s : State) (k : Nat) (f : Tile → Tile) : (updTile s k f).defPage = s.defPage := rfl
@[simp] theorem updTile_cenSel (s : State) (k : Nat) (f : Tile → Tile) : (updTile s k f).cenSel = s.cenSel := rfl
@[simp] theorem updTile_mem (s : State) (k : Nat) (f : Tile → Tile) : (updTile s k f).mem = s.mem := rfl
@[simp] theorem updTile_freeCount (s : State) (k : Nat) (f : Tile → Tile) : (updTile s k f).freeCount = s.freeCount := rfl

/-! ### updImgs -/

@[simp] theorem updImgs_pending (s : State) (f : ImgConn → ImgConn) : (updImgs s f).pending = s.pending := rfl
@[simp] theorem updImgs_glb (s : State) (f : ImgConn → ImgConn) : (updImgs s f).glb = s.glb := rfl
@[simp] theorem updImgs_sup (s : State) (f : ImgConn → ImgConn) : (updImgs s f).sup = s.sup := rfl
@[simp] theorem updImgs_nv (s : State) (f : ImgConn → ImgConn) : (updImgs s f).nv = s.nv := rfl
@[simp] theorem updImgs_tbs (s : State) (f : ImgConn → ImgConn) : (updImgs s f).tbs = s.tbs := rfl
@[simp] theorem updImgs_wafer (s : State) (f : ImgConn → ImgConn) : (updImgs s f).wafer = s.wafer := rfl
@[simp] theorem updImgs_pwr (s : State) (f : ImgConn → ImgConn) : (updImgs s f).pwr = s.pwr := rfl
@[simp] theorem updImgs_regions (s : State) (f : ImgConn → ImgConn) : (updImgs s f).regions = s.regions := rfl
@[simp] theorem updImgs_parts (s : State) (f : ImgConn → ImgConn) : (updImgs s f).parts = s.parts := rfl
@[simp] theorem updImgs_bays (s : State) (f : ImgConn → ImgConn) : (updImgs s f).bays = s.bays := rfl
@[simp] theorem updImgs_snds (s : State) (f : ImgConn → ImgConn) : (updImgs s f).snds = s.snds := rfl
@[simp] theorem updImgs_encs (s : State) (f : ImgConn → ImgConn) : (updImgs s f).encs = s.encs := rfl
@[simp] theorem updImgs_pins (s : State) (f : ImgConn → ImgConn) : (updImgs s f).pins = s.pins := rfl
@[simp] theorem updImgs_allocHeld (s : State) (f : ImgConn → ImgConn) : (updImgs s f).allocHeld = s.allocHeld := rfl
@[simp] theorem updImgs_exps (s : State) (f : ImgConn → ImgConn) : (updImgs s f).exps = s.exps := rfl
@[simp] theorem updImgs_arbLast (s : State) (f : ImgConn → ImgConn) : (updImgs s f).arbLast = s.arbLast := rfl
@[simp] theorem updImgs_spa (s : State) (f : ImgConn → ImgConn) : (updImgs s f).spa = s.spa := rfl
@[simp] theorem updImgs_spb (s : State) (f : ImgConn → ImgConn) : (updImgs s f).spb = s.spb := rfl
@[simp] theorem updImgs_flt (s : State) (f : ImgConn → ImgConn) : (updImgs s f).flt = s.flt := rfl
@[simp] theorem updImgs_defPage (s : State) (f : ImgConn → ImgConn) : (updImgs s f).defPage = s.defPage := rfl
@[simp] theorem updImgs_cenSel (s : State) (f : ImgConn → ImgConn) : (updImgs s f).cenSel = s.cenSel := rfl
@[simp] theorem updImgs_tiles (s : State) (f : ImgConn → ImgConn) : (updImgs s f).tiles = s.tiles := rfl
@[simp] theorem updImgs_mem (s : State) (f : ImgConn → ImgConn) : (updImgs s f).mem = s.mem := rfl
@[simp] theorem updImgs_freeCount (s : State) (f : ImgConn → ImgConn) : (updImgs s f).freeCount = s.freeCount := rfl

/-! ### updSnds -/

@[simp] theorem updSnds_pending (s : State) (f : Snd → Snd) : (updSnds s f).pending = s.pending := rfl
@[simp] theorem updSnds_glb (s : State) (f : Snd → Snd) : (updSnds s f).glb = s.glb := rfl
@[simp] theorem updSnds_sup (s : State) (f : Snd → Snd) : (updSnds s f).sup = s.sup := rfl
@[simp] theorem updSnds_nv (s : State) (f : Snd → Snd) : (updSnds s f).nv = s.nv := rfl
@[simp] theorem updSnds_tbs (s : State) (f : Snd → Snd) : (updSnds s f).tbs = s.tbs := rfl
@[simp] theorem updSnds_wafer (s : State) (f : Snd → Snd) : (updSnds s f).wafer = s.wafer := rfl
@[simp] theorem updSnds_pwr (s : State) (f : Snd → Snd) : (updSnds s f).pwr = s.pwr := rfl
@[simp] theorem updSnds_regions (s : State) (f : Snd → Snd) : (updSnds s f).regions = s.regions := rfl
@[simp] theorem updSnds_parts (s : State) (f : Snd → Snd) : (updSnds s f).parts = s.parts := rfl
@[simp] theorem updSnds_bays (s : State) (f : Snd → Snd) : (updSnds s f).bays = s.bays := rfl
@[simp] theorem updSnds_imgs (s : State) (f : Snd → Snd) : (updSnds s f).imgs = s.imgs := rfl
@[simp] theorem updSnds_encs (s : State) (f : Snd → Snd) : (updSnds s f).encs = s.encs := rfl
@[simp] theorem updSnds_pins (s : State) (f : Snd → Snd) : (updSnds s f).pins = s.pins := rfl
@[simp] theorem updSnds_allocHeld (s : State) (f : Snd → Snd) : (updSnds s f).allocHeld = s.allocHeld := rfl
@[simp] theorem updSnds_exps (s : State) (f : Snd → Snd) : (updSnds s f).exps = s.exps := rfl
@[simp] theorem updSnds_arbLast (s : State) (f : Snd → Snd) : (updSnds s f).arbLast = s.arbLast := rfl
@[simp] theorem updSnds_spa (s : State) (f : Snd → Snd) : (updSnds s f).spa = s.spa := rfl
@[simp] theorem updSnds_spb (s : State) (f : Snd → Snd) : (updSnds s f).spb = s.spb := rfl
@[simp] theorem updSnds_flt (s : State) (f : Snd → Snd) : (updSnds s f).flt = s.flt := rfl
@[simp] theorem updSnds_defPage (s : State) (f : Snd → Snd) : (updSnds s f).defPage = s.defPage := rfl
@[simp] theorem updSnds_cenSel (s : State) (f : Snd → Snd) : (updSnds s f).cenSel = s.cenSel := rfl
@[simp] theorem updSnds_tiles (s : State) (f : Snd → Snd) : (updSnds s f).tiles = s.tiles := rfl
@[simp] theorem updSnds_mem (s : State) (f : Snd → Snd) : (updSnds s f).mem = s.mem := rfl
@[simp] theorem updSnds_freeCount (s : State) (f : Snd → Snd) : (updSnds s f).freeCount = s.freeCount := rfl

/-! ### updPins -/

@[simp] theorem updPins_pending (s : State) (f : Pin → Pin) : (updPins s f).pending = s.pending := rfl
@[simp] theorem updPins_glb (s : State) (f : Pin → Pin) : (updPins s f).glb = s.glb := rfl
@[simp] theorem updPins_sup (s : State) (f : Pin → Pin) : (updPins s f).sup = s.sup := rfl
@[simp] theorem updPins_nv (s : State) (f : Pin → Pin) : (updPins s f).nv = s.nv := rfl
@[simp] theorem updPins_tbs (s : State) (f : Pin → Pin) : (updPins s f).tbs = s.tbs := rfl
@[simp] theorem updPins_wafer (s : State) (f : Pin → Pin) : (updPins s f).wafer = s.wafer := rfl
@[simp] theorem updPins_pwr (s : State) (f : Pin → Pin) : (updPins s f).pwr = s.pwr := rfl
@[simp] theorem updPins_regions (s : State) (f : Pin → Pin) : (updPins s f).regions = s.regions := rfl
@[simp] theorem updPins_parts (s : State) (f : Pin → Pin) : (updPins s f).parts = s.parts := rfl
@[simp] theorem updPins_bays (s : State) (f : Pin → Pin) : (updPins s f).bays = s.bays := rfl
@[simp] theorem updPins_imgs (s : State) (f : Pin → Pin) : (updPins s f).imgs = s.imgs := rfl
@[simp] theorem updPins_snds (s : State) (f : Pin → Pin) : (updPins s f).snds = s.snds := rfl
@[simp] theorem updPins_encs (s : State) (f : Pin → Pin) : (updPins s f).encs = s.encs := rfl
@[simp] theorem updPins_allocHeld (s : State) (f : Pin → Pin) : (updPins s f).allocHeld = s.allocHeld := rfl
@[simp] theorem updPins_exps (s : State) (f : Pin → Pin) : (updPins s f).exps = s.exps := rfl
@[simp] theorem updPins_arbLast (s : State) (f : Pin → Pin) : (updPins s f).arbLast = s.arbLast := rfl
@[simp] theorem updPins_spa (s : State) (f : Pin → Pin) : (updPins s f).spa = s.spa := rfl
@[simp] theorem updPins_spb (s : State) (f : Pin → Pin) : (updPins s f).spb = s.spb := rfl
@[simp] theorem updPins_flt (s : State) (f : Pin → Pin) : (updPins s f).flt = s.flt := rfl
@[simp] theorem updPins_defPage (s : State) (f : Pin → Pin) : (updPins s f).defPage = s.defPage := rfl
@[simp] theorem updPins_cenSel (s : State) (f : Pin → Pin) : (updPins s f).cenSel = s.cenSel := rfl
@[simp] theorem updPins_tiles (s : State) (f : Pin → Pin) : (updPins s f).tiles = s.tiles := rfl
@[simp] theorem updPins_mem (s : State) (f : Pin → Pin) : (updPins s f).mem = s.mem := rfl
@[simp] theorem updPins_freeCount (s : State) (f : Pin → Pin) : (updPins s f).freeCount = s.freeCount := rfl

/-! ### updRegions -/

@[simp] theorem updRegions_pending (s : State) (f : Region → Region) : (updRegions s f).pending = s.pending := rfl
@[simp] theorem updRegions_glb (s : State) (f : Region → Region) : (updRegions s f).glb = s.glb := rfl
@[simp] theorem updRegions_sup (s : State) (f : Region → Region) : (updRegions s f).sup = s.sup := rfl
@[simp] theorem updRegions_nv (s : State) (f : Region → Region) : (updRegions s f).nv = s.nv := rfl
@[simp] theorem updRegions_tbs (s : State) (f : Region → Region) : (updRegions s f).tbs = s.tbs := rfl
@[simp] theorem updRegions_wafer (s : State) (f : Region → Region) : (updRegions s f).wafer = s.wafer := rfl
@[simp] theorem updRegions_pwr (s : State) (f : Region → Region) : (updRegions s f).pwr = s.pwr := rfl
@[simp] theorem updRegions_parts (s : State) (f : Region → Region) : (updRegions s f).parts = s.parts := rfl
@[simp] theorem updRegions_bays (s : State) (f : Region → Region) : (updRegions s f).bays = s.bays := rfl
@[simp] theorem updRegions_imgs (s : State) (f : Region → Region) : (updRegions s f).imgs = s.imgs := rfl
@[simp] theorem updRegions_snds (s : State) (f : Region → Region) : (updRegions s f).snds = s.snds := rfl
@[simp] theorem updRegions_encs (s : State) (f : Region → Region) : (updRegions s f).encs = s.encs := rfl
@[simp] theorem updRegions_pins (s : State) (f : Region → Region) : (updRegions s f).pins = s.pins := rfl
@[simp] theorem updRegions_allocHeld (s : State) (f : Region → Region) : (updRegions s f).allocHeld = s.allocHeld := rfl
@[simp] theorem updRegions_exps (s : State) (f : Region → Region) : (updRegions s f).exps = s.exps := rfl
@[simp] theorem updRegions_arbLast (s : State) (f : Region → Region) : (updRegions s f).arbLast = s.arbLast := rfl
@[simp] theorem updRegions_spa (s : State) (f : Region → Region) : (updRegions s f).spa = s.spa := rfl
@[simp] theorem updRegions_spb (s : State) (f : Region → Region) : (updRegions s f).spb = s.spb := rfl
@[simp] theorem updRegions_flt (s : State) (f : Region → Region) : (updRegions s f).flt = s.flt := rfl
@[simp] theorem updRegions_defPage (s : State) (f : Region → Region) : (updRegions s f).defPage = s.defPage := rfl
@[simp] theorem updRegions_cenSel (s : State) (f : Region → Region) : (updRegions s f).cenSel = s.cenSel := rfl
@[simp] theorem updRegions_tiles (s : State) (f : Region → Region) : (updRegions s f).tiles = s.tiles := rfl
@[simp] theorem updRegions_mem (s : State) (f : Region → Region) : (updRegions s f).mem = s.mem := rfl
@[simp] theorem updRegions_freeCount (s : State) (f : Region → Region) : (updRegions s f).freeCount = s.freeCount := rfl

/-! ### updExps -/

@[simp] theorem updExps_pending (s : State) (f : Exp → Exp) : (updExps s f).pending = s.pending := rfl
@[simp] theorem updExps_glb (s : State) (f : Exp → Exp) : (updExps s f).glb = s.glb := rfl
@[simp] theorem updExps_sup (s : State) (f : Exp → Exp) : (updExps s f).sup = s.sup := rfl
@[simp] theorem updExps_nv (s : State) (f : Exp → Exp) : (updExps s f).nv = s.nv := rfl
@[simp] theorem updExps_tbs (s : State) (f : Exp → Exp) : (updExps s f).tbs = s.tbs := rfl
@[simp] theorem updExps_wafer (s : State) (f : Exp → Exp) : (updExps s f).wafer = s.wafer := rfl
@[simp] theorem updExps_pwr (s : State) (f : Exp → Exp) : (updExps s f).pwr = s.pwr := rfl
@[simp] theorem updExps_regions (s : State) (f : Exp → Exp) : (updExps s f).regions = s.regions := rfl
@[simp] theorem updExps_parts (s : State) (f : Exp → Exp) : (updExps s f).parts = s.parts := rfl
@[simp] theorem updExps_bays (s : State) (f : Exp → Exp) : (updExps s f).bays = s.bays := rfl
@[simp] theorem updExps_imgs (s : State) (f : Exp → Exp) : (updExps s f).imgs = s.imgs := rfl
@[simp] theorem updExps_snds (s : State) (f : Exp → Exp) : (updExps s f).snds = s.snds := rfl
@[simp] theorem updExps_encs (s : State) (f : Exp → Exp) : (updExps s f).encs = s.encs := rfl
@[simp] theorem updExps_pins (s : State) (f : Exp → Exp) : (updExps s f).pins = s.pins := rfl
@[simp] theorem updExps_allocHeld (s : State) (f : Exp → Exp) : (updExps s f).allocHeld = s.allocHeld := rfl
@[simp] theorem updExps_arbLast (s : State) (f : Exp → Exp) : (updExps s f).arbLast = s.arbLast := rfl
@[simp] theorem updExps_spa (s : State) (f : Exp → Exp) : (updExps s f).spa = s.spa := rfl
@[simp] theorem updExps_spb (s : State) (f : Exp → Exp) : (updExps s f).spb = s.spb := rfl
@[simp] theorem updExps_flt (s : State) (f : Exp → Exp) : (updExps s f).flt = s.flt := rfl
@[simp] theorem updExps_defPage (s : State) (f : Exp → Exp) : (updExps s f).defPage = s.defPage := rfl
@[simp] theorem updExps_cenSel (s : State) (f : Exp → Exp) : (updExps s f).cenSel = s.cenSel := rfl
@[simp] theorem updExps_tiles (s : State) (f : Exp → Exp) : (updExps s f).tiles = s.tiles := rfl
@[simp] theorem updExps_mem (s : State) (f : Exp → Exp) : (updExps s f).mem = s.mem := rfl
@[simp] theorem updExps_freeCount (s : State) (f : Exp → Exp) : (updExps s f).freeCount = s.freeCount := rfl

/-! ### updPartRegs -/

@[simp] theorem updPartRegs_pending (s : State) (p : PartId) (f : PrtRegs → PrtRegs) : (updPartRegs s p f).pending = s.pending := rfl
@[simp] theorem updPartRegs_glb (s : State) (p : PartId) (f : PrtRegs → PrtRegs) : (updPartRegs s p f).glb = s.glb := rfl
@[simp] theorem updPartRegs_sup (s : State) (p : PartId) (f : PrtRegs → PrtRegs) : (updPartRegs s p f).sup = s.sup := rfl
@[simp] theorem updPartRegs_nv (s : State) (p : PartId) (f : PrtRegs → PrtRegs) : (updPartRegs s p f).nv = s.nv := rfl
@[simp] theorem updPartRegs_tbs (s : State) (p : PartId) (f : PrtRegs → PrtRegs) : (updPartRegs s p f).tbs = s.tbs := rfl
@[simp] theorem updPartRegs_wafer (s : State) (p : PartId) (f : PrtRegs → PrtRegs) : (updPartRegs s p f).wafer = s.wafer := rfl
@[simp] theorem updPartRegs_pwr (s : State) (p : PartId) (f : PrtRegs → PrtRegs) : (updPartRegs s p f).pwr = s.pwr := rfl
@[simp] theorem updPartRegs_regions (s : State) (p : PartId) (f : PrtRegs → PrtRegs) : (updPartRegs s p f).regions = s.regions := rfl
@[simp] theorem updPartRegs_bays (s : State) (p : PartId) (f : PrtRegs → PrtRegs) : (updPartRegs s p f).bays = s.bays := rfl
@[simp] theorem updPartRegs_imgs (s : State) (p : PartId) (f : PrtRegs → PrtRegs) : (updPartRegs s p f).imgs = s.imgs := rfl
@[simp] theorem updPartRegs_snds (s : State) (p : PartId) (f : PrtRegs → PrtRegs) : (updPartRegs s p f).snds = s.snds := rfl
@[simp] theorem updPartRegs_encs (s : State) (p : PartId) (f : PrtRegs → PrtRegs) : (updPartRegs s p f).encs = s.encs := rfl
@[simp] theorem updPartRegs_pins (s : State) (p : PartId) (f : PrtRegs → PrtRegs) : (updPartRegs s p f).pins = s.pins := rfl
@[simp] theorem updPartRegs_allocHeld (s : State) (p : PartId) (f : PrtRegs → PrtRegs) : (updPartRegs s p f).allocHeld = s.allocHeld := rfl
@[simp] theorem updPartRegs_exps (s : State) (p : PartId) (f : PrtRegs → PrtRegs) : (updPartRegs s p f).exps = s.exps := rfl
@[simp] theorem updPartRegs_arbLast (s : State) (p : PartId) (f : PrtRegs → PrtRegs) : (updPartRegs s p f).arbLast = s.arbLast := rfl
@[simp] theorem updPartRegs_spa (s : State) (p : PartId) (f : PrtRegs → PrtRegs) : (updPartRegs s p f).spa = s.spa := rfl
@[simp] theorem updPartRegs_spb (s : State) (p : PartId) (f : PrtRegs → PrtRegs) : (updPartRegs s p f).spb = s.spb := rfl
@[simp] theorem updPartRegs_flt (s : State) (p : PartId) (f : PrtRegs → PrtRegs) : (updPartRegs s p f).flt = s.flt := rfl
@[simp] theorem updPartRegs_defPage (s : State) (p : PartId) (f : PrtRegs → PrtRegs) : (updPartRegs s p f).defPage = s.defPage := rfl
@[simp] theorem updPartRegs_cenSel (s : State) (p : PartId) (f : PrtRegs → PrtRegs) : (updPartRegs s p f).cenSel = s.cenSel := rfl
@[simp] theorem updPartRegs_tiles (s : State) (p : PartId) (f : PrtRegs → PrtRegs) : (updPartRegs s p f).tiles = s.tiles := rfl
@[simp] theorem updPartRegs_mem (s : State) (p : PartId) (f : PrtRegs → PrtRegs) : (updPartRegs s p f).mem = s.mem := rfl
@[simp] theorem updPartRegs_freeCount (s : State) (p : PartId) (f : PrtRegs → PrtRegs) : (updPartRegs s p f).freeCount = s.freeCount := rfl

/-! ### updFlow -/

@[simp] theorem updFlow_pending (s : State) (p : PartId) (f : Flow → Flow) : (updFlow s p f).pending = s.pending := rfl
@[simp] theorem updFlow_glb (s : State) (p : PartId) (f : Flow → Flow) : (updFlow s p f).glb = s.glb := rfl
@[simp] theorem updFlow_sup (s : State) (p : PartId) (f : Flow → Flow) : (updFlow s p f).sup = s.sup := rfl
@[simp] theorem updFlow_nv (s : State) (p : PartId) (f : Flow → Flow) : (updFlow s p f).nv = s.nv := rfl
@[simp] theorem updFlow_tbs (s : State) (p : PartId) (f : Flow → Flow) : (updFlow s p f).tbs = s.tbs := rfl
@[simp] theorem updFlow_wafer (s : State) (p : PartId) (f : Flow → Flow) : (updFlow s p f).wafer = s.wafer := rfl
@[simp] theorem updFlow_pwr (s : State) (p : PartId) (f : Flow → Flow) : (updFlow s p f).pwr = s.pwr := rfl
@[simp] theorem updFlow_regions (s : State) (p : PartId) (f : Flow → Flow) : (updFlow s p f).regions = s.regions := rfl
@[simp] theorem updFlow_bays (s : State) (p : PartId) (f : Flow → Flow) : (updFlow s p f).bays = s.bays := rfl
@[simp] theorem updFlow_imgs (s : State) (p : PartId) (f : Flow → Flow) : (updFlow s p f).imgs = s.imgs := rfl
@[simp] theorem updFlow_snds (s : State) (p : PartId) (f : Flow → Flow) : (updFlow s p f).snds = s.snds := rfl
@[simp] theorem updFlow_encs (s : State) (p : PartId) (f : Flow → Flow) : (updFlow s p f).encs = s.encs := rfl
@[simp] theorem updFlow_pins (s : State) (p : PartId) (f : Flow → Flow) : (updFlow s p f).pins = s.pins := rfl
@[simp] theorem updFlow_allocHeld (s : State) (p : PartId) (f : Flow → Flow) : (updFlow s p f).allocHeld = s.allocHeld := rfl
@[simp] theorem updFlow_exps (s : State) (p : PartId) (f : Flow → Flow) : (updFlow s p f).exps = s.exps := rfl
@[simp] theorem updFlow_arbLast (s : State) (p : PartId) (f : Flow → Flow) : (updFlow s p f).arbLast = s.arbLast := rfl
@[simp] theorem updFlow_spa (s : State) (p : PartId) (f : Flow → Flow) : (updFlow s p f).spa = s.spa := rfl
@[simp] theorem updFlow_spb (s : State) (p : PartId) (f : Flow → Flow) : (updFlow s p f).spb = s.spb := rfl
@[simp] theorem updFlow_flt (s : State) (p : PartId) (f : Flow → Flow) : (updFlow s p f).flt = s.flt := rfl
@[simp] theorem updFlow_defPage (s : State) (p : PartId) (f : Flow → Flow) : (updFlow s p f).defPage = s.defPage := rfl
@[simp] theorem updFlow_cenSel (s : State) (p : PartId) (f : Flow → Flow) : (updFlow s p f).cenSel = s.cenSel := rfl
@[simp] theorem updFlow_tiles (s : State) (p : PartId) (f : Flow → Flow) : (updFlow s p f).tiles = s.tiles := rfl
@[simp] theorem updFlow_mem (s : State) (p : PartId) (f : Flow → Flow) : (updFlow s p f).mem = s.mem := rfl
@[simp] theorem updFlow_freeCount (s : State) (p : PartId) (f : Flow → Flow) : (updFlow s p f).freeCount = s.freeCount := rfl

/-! ### updFabric -/

@[simp] theorem updFabric_pending (s : State) (p : PartId) (f : Fabric → Fabric) : (updFabric s p f).pending = s.pending := rfl
@[simp] theorem updFabric_glb (s : State) (p : PartId) (f : Fabric → Fabric) : (updFabric s p f).glb = s.glb := rfl
@[simp] theorem updFabric_sup (s : State) (p : PartId) (f : Fabric → Fabric) : (updFabric s p f).sup = s.sup := rfl
@[simp] theorem updFabric_nv (s : State) (p : PartId) (f : Fabric → Fabric) : (updFabric s p f).nv = s.nv := rfl
@[simp] theorem updFabric_tbs (s : State) (p : PartId) (f : Fabric → Fabric) : (updFabric s p f).tbs = s.tbs := rfl
@[simp] theorem updFabric_wafer (s : State) (p : PartId) (f : Fabric → Fabric) : (updFabric s p f).wafer = s.wafer := rfl
@[simp] theorem updFabric_pwr (s : State) (p : PartId) (f : Fabric → Fabric) : (updFabric s p f).pwr = s.pwr := rfl
@[simp] theorem updFabric_regions (s : State) (p : PartId) (f : Fabric → Fabric) : (updFabric s p f).regions = s.regions := rfl
@[simp] theorem updFabric_bays (s : State) (p : PartId) (f : Fabric → Fabric) : (updFabric s p f).bays = s.bays := rfl
@[simp] theorem updFabric_imgs (s : State) (p : PartId) (f : Fabric → Fabric) : (updFabric s p f).imgs = s.imgs := rfl
@[simp] theorem updFabric_snds (s : State) (p : PartId) (f : Fabric → Fabric) : (updFabric s p f).snds = s.snds := rfl
@[simp] theorem updFabric_encs (s : State) (p : PartId) (f : Fabric → Fabric) : (updFabric s p f).encs = s.encs := rfl
@[simp] theorem updFabric_pins (s : State) (p : PartId) (f : Fabric → Fabric) : (updFabric s p f).pins = s.pins := rfl
@[simp] theorem updFabric_allocHeld (s : State) (p : PartId) (f : Fabric → Fabric) : (updFabric s p f).allocHeld = s.allocHeld := rfl
@[simp] theorem updFabric_exps (s : State) (p : PartId) (f : Fabric → Fabric) : (updFabric s p f).exps = s.exps := rfl
@[simp] theorem updFabric_arbLast (s : State) (p : PartId) (f : Fabric → Fabric) : (updFabric s p f).arbLast = s.arbLast := rfl
@[simp] theorem updFabric_spa (s : State) (p : PartId) (f : Fabric → Fabric) : (updFabric s p f).spa = s.spa := rfl
@[simp] theorem updFabric_spb (s : State) (p : PartId) (f : Fabric → Fabric) : (updFabric s p f).spb = s.spb := rfl
@[simp] theorem updFabric_flt (s : State) (p : PartId) (f : Fabric → Fabric) : (updFabric s p f).flt = s.flt := rfl
@[simp] theorem updFabric_defPage (s : State) (p : PartId) (f : Fabric → Fabric) : (updFabric s p f).defPage = s.defPage := rfl
@[simp] theorem updFabric_cenSel (s : State) (p : PartId) (f : Fabric → Fabric) : (updFabric s p f).cenSel = s.cenSel := rfl
@[simp] theorem updFabric_tiles (s : State) (p : PartId) (f : Fabric → Fabric) : (updFabric s p f).tiles = s.tiles := rfl
@[simp] theorem updFabric_mem (s : State) (p : PartId) (f : Fabric → Fabric) : (updFabric s p f).mem = s.mem := rfl
@[simp] theorem updFabric_freeCount (s : State) (p : PartId) (f : Fabric → Fabric) : (updFabric s p f).freeCount = s.freeCount := rfl

/-! ### updLoad -/

@[simp] theorem updLoad_pending (s : State) (p : PartId) (f : Load → Load) : (updLoad s p f).pending = s.pending := rfl
@[simp] theorem updLoad_glb (s : State) (p : PartId) (f : Load → Load) : (updLoad s p f).glb = s.glb := rfl
@[simp] theorem updLoad_sup (s : State) (p : PartId) (f : Load → Load) : (updLoad s p f).sup = s.sup := rfl
@[simp] theorem updLoad_nv (s : State) (p : PartId) (f : Load → Load) : (updLoad s p f).nv = s.nv := rfl
@[simp] theorem updLoad_tbs (s : State) (p : PartId) (f : Load → Load) : (updLoad s p f).tbs = s.tbs := rfl
@[simp] theorem updLoad_wafer (s : State) (p : PartId) (f : Load → Load) : (updLoad s p f).wafer = s.wafer := rfl
@[simp] theorem updLoad_pwr (s : State) (p : PartId) (f : Load → Load) : (updLoad s p f).pwr = s.pwr := rfl
@[simp] theorem updLoad_regions (s : State) (p : PartId) (f : Load → Load) : (updLoad s p f).regions = s.regions := rfl
@[simp] theorem updLoad_bays (s : State) (p : PartId) (f : Load → Load) : (updLoad s p f).bays = s.bays := rfl
@[simp] theorem updLoad_imgs (s : State) (p : PartId) (f : Load → Load) : (updLoad s p f).imgs = s.imgs := rfl
@[simp] theorem updLoad_snds (s : State) (p : PartId) (f : Load → Load) : (updLoad s p f).snds = s.snds := rfl
@[simp] theorem updLoad_encs (s : State) (p : PartId) (f : Load → Load) : (updLoad s p f).encs = s.encs := rfl
@[simp] theorem updLoad_pins (s : State) (p : PartId) (f : Load → Load) : (updLoad s p f).pins = s.pins := rfl
@[simp] theorem updLoad_allocHeld (s : State) (p : PartId) (f : Load → Load) : (updLoad s p f).allocHeld = s.allocHeld := rfl
@[simp] theorem updLoad_exps (s : State) (p : PartId) (f : Load → Load) : (updLoad s p f).exps = s.exps := rfl
@[simp] theorem updLoad_arbLast (s : State) (p : PartId) (f : Load → Load) : (updLoad s p f).arbLast = s.arbLast := rfl
@[simp] theorem updLoad_spa (s : State) (p : PartId) (f : Load → Load) : (updLoad s p f).spa = s.spa := rfl
@[simp] theorem updLoad_spb (s : State) (p : PartId) (f : Load → Load) : (updLoad s p f).spb = s.spb := rfl
@[simp] theorem updLoad_flt (s : State) (p : PartId) (f : Load → Load) : (updLoad s p f).flt = s.flt := rfl
@[simp] theorem updLoad_defPage (s : State) (p : PartId) (f : Load → Load) : (updLoad s p f).defPage = s.defPage := rfl
@[simp] theorem updLoad_cenSel (s : State) (p : PartId) (f : Load → Load) : (updLoad s p f).cenSel = s.cenSel := rfl
@[simp] theorem updLoad_tiles (s : State) (p : PartId) (f : Load → Load) : (updLoad s p f).tiles = s.tiles := rfl
@[simp] theorem updLoad_mem (s : State) (p : PartId) (f : Load → Load) : (updLoad s p f).mem = s.mem := rfl
@[simp] theorem updLoad_freeCount (s : State) (p : PartId) (f : Load → Load) : (updLoad s p f).freeCount = s.freeCount := rfl

/-! ### updCensus -/

@[simp] theorem updCensus_pending (s : State) (p : PartId) (f : Census → Census) : (updCensus s p f).pending = s.pending := rfl
@[simp] theorem updCensus_glb (s : State) (p : PartId) (f : Census → Census) : (updCensus s p f).glb = s.glb := rfl
@[simp] theorem updCensus_sup (s : State) (p : PartId) (f : Census → Census) : (updCensus s p f).sup = s.sup := rfl
@[simp] theorem updCensus_nv (s : State) (p : PartId) (f : Census → Census) : (updCensus s p f).nv = s.nv := rfl
@[simp] theorem updCensus_tbs (s : State) (p : PartId) (f : Census → Census) : (updCensus s p f).tbs = s.tbs := rfl
@[simp] theorem updCensus_wafer (s : State) (p : PartId) (f : Census → Census) : (updCensus s p f).wafer = s.wafer := rfl
@[simp] theorem updCensus_pwr (s : State) (p : PartId) (f : Census → Census) : (updCensus s p f).pwr = s.pwr := rfl
@[simp] theorem updCensus_regions (s : State) (p : PartId) (f : Census → Census) : (updCensus s p f).regions = s.regions := rfl
@[simp] theorem updCensus_bays (s : State) (p : PartId) (f : Census → Census) : (updCensus s p f).bays = s.bays := rfl
@[simp] theorem updCensus_imgs (s : State) (p : PartId) (f : Census → Census) : (updCensus s p f).imgs = s.imgs := rfl
@[simp] theorem updCensus_snds (s : State) (p : PartId) (f : Census → Census) : (updCensus s p f).snds = s.snds := rfl
@[simp] theorem updCensus_encs (s : State) (p : PartId) (f : Census → Census) : (updCensus s p f).encs = s.encs := rfl
@[simp] theorem updCensus_pins (s : State) (p : PartId) (f : Census → Census) : (updCensus s p f).pins = s.pins := rfl
@[simp] theorem updCensus_allocHeld (s : State) (p : PartId) (f : Census → Census) : (updCensus s p f).allocHeld = s.allocHeld := rfl
@[simp] theorem updCensus_exps (s : State) (p : PartId) (f : Census → Census) : (updCensus s p f).exps = s.exps := rfl
@[simp] theorem updCensus_arbLast (s : State) (p : PartId) (f : Census → Census) : (updCensus s p f).arbLast = s.arbLast := rfl
@[simp] theorem updCensus_spa (s : State) (p : PartId) (f : Census → Census) : (updCensus s p f).spa = s.spa := rfl
@[simp] theorem updCensus_spb (s : State) (p : PartId) (f : Census → Census) : (updCensus s p f).spb = s.spb := rfl
@[simp] theorem updCensus_flt (s : State) (p : PartId) (f : Census → Census) : (updCensus s p f).flt = s.flt := rfl
@[simp] theorem updCensus_defPage (s : State) (p : PartId) (f : Census → Census) : (updCensus s p f).defPage = s.defPage := rfl
@[simp] theorem updCensus_cenSel (s : State) (p : PartId) (f : Census → Census) : (updCensus s p f).cenSel = s.cenSel := rfl
@[simp] theorem updCensus_tiles (s : State) (p : PartId) (f : Census → Census) : (updCensus s p f).tiles = s.tiles := rfl
@[simp] theorem updCensus_mem (s : State) (p : PartId) (f : Census → Census) : (updCensus s p f).mem = s.mem := rfl
@[simp] theorem updCensus_freeCount (s : State) (p : PartId) (f : Census → Census) : (updCensus s p f).freeCount = s.freeCount := rfl

/-! ### irq -/

@[simp] theorem irq_pending (s : State) (v : Fin 32) : (irq s v).pending = s.pending := rfl
@[simp] theorem irq_sup (s : State) (v : Fin 32) : (irq s v).sup = s.sup := rfl
@[simp] theorem irq_nv (s : State) (v : Fin 32) : (irq s v).nv = s.nv := rfl
@[simp] theorem irq_tbs (s : State) (v : Fin 32) : (irq s v).tbs = s.tbs := rfl
@[simp] theorem irq_wafer (s : State) (v : Fin 32) : (irq s v).wafer = s.wafer := rfl
@[simp] theorem irq_pwr (s : State) (v : Fin 32) : (irq s v).pwr = s.pwr := rfl
@[simp] theorem irq_regions (s : State) (v : Fin 32) : (irq s v).regions = s.regions := rfl
@[simp] theorem irq_parts (s : State) (v : Fin 32) : (irq s v).parts = s.parts := rfl
@[simp] theorem irq_bays (s : State) (v : Fin 32) : (irq s v).bays = s.bays := rfl
@[simp] theorem irq_imgs (s : State) (v : Fin 32) : (irq s v).imgs = s.imgs := rfl
@[simp] theorem irq_snds (s : State) (v : Fin 32) : (irq s v).snds = s.snds := rfl
@[simp] theorem irq_encs (s : State) (v : Fin 32) : (irq s v).encs = s.encs := rfl
@[simp] theorem irq_pins (s : State) (v : Fin 32) : (irq s v).pins = s.pins := rfl
@[simp] theorem irq_allocHeld (s : State) (v : Fin 32) : (irq s v).allocHeld = s.allocHeld := rfl
@[simp] theorem irq_exps (s : State) (v : Fin 32) : (irq s v).exps = s.exps := rfl
@[simp] theorem irq_arbLast (s : State) (v : Fin 32) : (irq s v).arbLast = s.arbLast := rfl
@[simp] theorem irq_spa (s : State) (v : Fin 32) : (irq s v).spa = s.spa := rfl
@[simp] theorem irq_spb (s : State) (v : Fin 32) : (irq s v).spb = s.spb := rfl
@[simp] theorem irq_flt (s : State) (v : Fin 32) : (irq s v).flt = s.flt := rfl
@[simp] theorem irq_defPage (s : State) (v : Fin 32) : (irq s v).defPage = s.defPage := rfl
@[simp] theorem irq_cenSel (s : State) (v : Fin 32) : (irq s v).cenSel = s.cenSel := rfl
@[simp] theorem irq_tiles (s : State) (v : Fin 32) : (irq s v).tiles = s.tiles := rfl
@[simp] theorem irq_mem (s : State) (v : Fin 32) : (irq s v).mem = s.mem := rfl
@[simp] theorem irq_freeCount (s : State) (v : Fin 32) : (irq s v).freeCount = s.freeCount := rfl

/-! ### updSpn -/

@[simp] theorem updSpn_pending (s : State) (q : SpanPort) (f : Spn → Spn) : (updSpn s q f).pending = s.pending := by cases q <;> rfl
@[simp] theorem updSpn_glb (s : State) (q : SpanPort) (f : Spn → Spn) : (updSpn s q f).glb = s.glb := by cases q <;> rfl
@[simp] theorem updSpn_sup (s : State) (q : SpanPort) (f : Spn → Spn) : (updSpn s q f).sup = s.sup := by cases q <;> rfl
@[simp] theorem updSpn_nv (s : State) (q : SpanPort) (f : Spn → Spn) : (updSpn s q f).nv = s.nv := by cases q <;> rfl
@[simp] theorem updSpn_tbs (s : State) (q : SpanPort) (f : Spn → Spn) : (updSpn s q f).tbs = s.tbs := by cases q <;> rfl
@[simp] theorem updSpn_wafer (s : State) (q : SpanPort) (f : Spn → Spn) : (updSpn s q f).wafer = s.wafer := by cases q <;> rfl
@[simp] theorem updSpn_pwr (s : State) (q : SpanPort) (f : Spn → Spn) : (updSpn s q f).pwr = s.pwr := by cases q <;> rfl
@[simp] theorem updSpn_regions (s : State) (q : SpanPort) (f : Spn → Spn) : (updSpn s q f).regions = s.regions := by cases q <;> rfl
@[simp] theorem updSpn_parts (s : State) (q : SpanPort) (f : Spn → Spn) : (updSpn s q f).parts = s.parts := by cases q <;> rfl
@[simp] theorem updSpn_bays (s : State) (q : SpanPort) (f : Spn → Spn) : (updSpn s q f).bays = s.bays := by cases q <;> rfl
@[simp] theorem updSpn_imgs (s : State) (q : SpanPort) (f : Spn → Spn) : (updSpn s q f).imgs = s.imgs := by cases q <;> rfl
@[simp] theorem updSpn_snds (s : State) (q : SpanPort) (f : Spn → Spn) : (updSpn s q f).snds = s.snds := by cases q <;> rfl
@[simp] theorem updSpn_encs (s : State) (q : SpanPort) (f : Spn → Spn) : (updSpn s q f).encs = s.encs := by cases q <;> rfl
@[simp] theorem updSpn_pins (s : State) (q : SpanPort) (f : Spn → Spn) : (updSpn s q f).pins = s.pins := by cases q <;> rfl
@[simp] theorem updSpn_allocHeld (s : State) (q : SpanPort) (f : Spn → Spn) : (updSpn s q f).allocHeld = s.allocHeld := by cases q <;> rfl
@[simp] theorem updSpn_exps (s : State) (q : SpanPort) (f : Spn → Spn) : (updSpn s q f).exps = s.exps := by cases q <;> rfl
@[simp] theorem updSpn_arbLast (s : State) (q : SpanPort) (f : Spn → Spn) : (updSpn s q f).arbLast = s.arbLast := by cases q <;> rfl
@[simp] theorem updSpn_flt (s : State) (q : SpanPort) (f : Spn → Spn) : (updSpn s q f).flt = s.flt := by cases q <;> rfl
@[simp] theorem updSpn_defPage (s : State) (q : SpanPort) (f : Spn → Spn) : (updSpn s q f).defPage = s.defPage := by cases q <;> rfl
@[simp] theorem updSpn_cenSel (s : State) (q : SpanPort) (f : Spn → Spn) : (updSpn s q f).cenSel = s.cenSel := by cases q <;> rfl
@[simp] theorem updSpn_tiles (s : State) (q : SpanPort) (f : Spn → Spn) : (updSpn s q f).tiles = s.tiles := by cases q <;> rfl
@[simp] theorem updSpn_mem (s : State) (q : SpanPort) (f : Spn → Spn) : (updSpn s q f).mem = s.mem := by cases q <;> rfl
@[simp] theorem updSpn_freeCount (s : State) (q : SpanPort) (f : Spn → Spn) : (updSpn s q f).freeCount = s.freeCount := by cases q <;> rfl

@[simp] theorem updSpn_getSpn_self (s : State) (q : SpanPort) (f : Spn → Spn) : getSpn (updSpn s q f) q = f (getSpn s q) := by
  cases q <;> rfl

/-! ### logEvent -/

@[simp] theorem logEvent_pending (s : State) (c i a b : Nat) (e : Bool) : (logEvent s c i a b e).pending = s.pending := by
  unfold logEvent; split <;> rfl
@[simp] theorem logEvent_glb (s : State) (c i a b : Nat) (e : Bool) : (logEvent s c i a b e).glb = s.glb := by
  unfold logEvent; split <;> rfl
@[simp] theorem logEvent_sup (s : State) (c i a b : Nat) (e : Bool) : (logEvent s c i a b e).sup = s.sup := by
  unfold logEvent; split <;> rfl
@[simp] theorem logEvent_nv (s : State) (c i a b : Nat) (e : Bool) : (logEvent s c i a b e).nv = s.nv := by
  unfold logEvent; split <;> rfl
@[simp] theorem logEvent_tbs (s : State) (c i a b : Nat) (e : Bool) : (logEvent s c i a b e).tbs = s.tbs := by
  unfold logEvent; split <;> rfl
@[simp] theorem logEvent_wafer (s : State) (c i a b : Nat) (e : Bool) : (logEvent s c i a b e).wafer = s.wafer := by
  unfold logEvent; split <;> rfl
@[simp] theorem logEvent_pwr (s : State) (c i a b : Nat) (e : Bool) : (logEvent s c i a b e).pwr = s.pwr := by
  unfold logEvent; split <;> rfl
@[simp] theorem logEvent_regions (s : State) (c i a b : Nat) (e : Bool) : (logEvent s c i a b e).regions = s.regions := by
  unfold logEvent; split <;> rfl
@[simp] theorem logEvent_parts (s : State) (c i a b : Nat) (e : Bool) : (logEvent s c i a b e).parts = s.parts := by
  unfold logEvent; split <;> rfl
@[simp] theorem logEvent_bays (s : State) (c i a b : Nat) (e : Bool) : (logEvent s c i a b e).bays = s.bays := by
  unfold logEvent; split <;> rfl
@[simp] theorem logEvent_imgs (s : State) (c i a b : Nat) (e : Bool) : (logEvent s c i a b e).imgs = s.imgs := by
  unfold logEvent; split <;> rfl
@[simp] theorem logEvent_snds (s : State) (c i a b : Nat) (e : Bool) : (logEvent s c i a b e).snds = s.snds := by
  unfold logEvent; split <;> rfl
@[simp] theorem logEvent_encs (s : State) (c i a b : Nat) (e : Bool) : (logEvent s c i a b e).encs = s.encs := by
  unfold logEvent; split <;> rfl
@[simp] theorem logEvent_pins (s : State) (c i a b : Nat) (e : Bool) : (logEvent s c i a b e).pins = s.pins := by
  unfold logEvent; split <;> rfl
@[simp] theorem logEvent_allocHeld (s : State) (c i a b : Nat) (e : Bool) : (logEvent s c i a b e).allocHeld = s.allocHeld := by
  unfold logEvent; split <;> rfl
@[simp] theorem logEvent_exps (s : State) (c i a b : Nat) (e : Bool) : (logEvent s c i a b e).exps = s.exps := by
  unfold logEvent; split <;> rfl
@[simp] theorem logEvent_arbLast (s : State) (c i a b : Nat) (e : Bool) : (logEvent s c i a b e).arbLast = s.arbLast := by
  unfold logEvent; split <;> rfl
@[simp] theorem logEvent_spa (s : State) (c i a b : Nat) (e : Bool) : (logEvent s c i a b e).spa = s.spa := by
  unfold logEvent; split <;> rfl
@[simp] theorem logEvent_spb (s : State) (c i a b : Nat) (e : Bool) : (logEvent s c i a b e).spb = s.spb := by
  unfold logEvent; split <;> rfl
@[simp] theorem logEvent_defPage (s : State) (c i a b : Nat) (e : Bool) : (logEvent s c i a b e).defPage = s.defPage := by
  unfold logEvent; split <;> rfl
@[simp] theorem logEvent_cenSel (s : State) (c i a b : Nat) (e : Bool) : (logEvent s c i a b e).cenSel = s.cenSel := by
  unfold logEvent; split <;> rfl
@[simp] theorem logEvent_tiles (s : State) (c i a b : Nat) (e : Bool) : (logEvent s c i a b e).tiles = s.tiles := by
  unfold logEvent; split <;> rfl
@[simp] theorem logEvent_mem (s : State) (c i a b : Nat) (e : Bool) : (logEvent s c i a b e).mem = s.mem := by
  unfold logEvent; split <;> rfl
@[simp] theorem logEvent_freeCount (s : State) (c i a b : Nat) (e : Bool) : (logEvent s c i a b e).freeCount = s.freeCount := by
  unfold logEvent; split <;> rfl

/-! ### The component that an update names -/

@[simp] theorem updPart_self (s : State) (p : PartId) (f : Partition → Partition) : (updPart s p f).parts[p.val] = f s.parts[p.val] := by
  simp [updPart]
theorem updPart_other (s : State) (p : PartId) (f : Partition → Partition) (j : PartId) (h : j ≠ p) : (updPart s p f).parts[j.val] = s.parts[j.val] := by
  have h' : p.val ≠ j.val := fun e => h (Fin.ext e.symm)
  simp [updPart, h']
@[simp] theorem updRegion_self (s : State) (r : RegionId) (f : Region → Region) : (updRegion s r f).regions[r.val] = f s.regions[r.val] := by
  simp [updRegion]
theorem updRegion_other (s : State) (r : RegionId) (f : Region → Region) (j : RegionId) (h : j ≠ r) : (updRegion s r f).regions[j.val] = s.regions[j.val] := by
  have h' : r.val ≠ j.val := fun e => h (Fin.ext e.symm)
  simp [updRegion, h']
@[simp] theorem updBay_self (s : State) (b : BayId) (f : Bay → Bay) : (updBay s b f).bays[b.val] = f s.bays[b.val] := by
  simp [updBay]
theorem updBay_other (s : State) (b : BayId) (f : Bay → Bay) (j : BayId) (h : j ≠ b) : (updBay s b f).bays[j.val] = s.bays[j.val] := by
  have h' : b.val ≠ j.val := fun e => h (Fin.ext e.symm)
  simp [updBay, h']
@[simp] theorem updImg_self (s : State) (c : ImgId) (f : ImgConn → ImgConn) : (updImg s c f).imgs[c.val] = f s.imgs[c.val] := by
  simp [updImg]
theorem updImg_other (s : State) (c : ImgId) (f : ImgConn → ImgConn) (j : ImgId) (h : j ≠ c) : (updImg s c f).imgs[j.val] = s.imgs[j.val] := by
  have h' : c.val ≠ j.val := fun e => h (Fin.ext e.symm)
  simp [updImg, h']
@[simp] theorem updSnd_self (s : State) (c : SndId) (f : Snd → Snd) : (updSnd s c f).snds[c.val] = f s.snds[c.val] := by
  simp [updSnd]
theorem updSnd_other (s : State) (c : SndId) (f : Snd → Snd) (j : SndId) (h : j ≠ c) : (updSnd s c f).snds[j.val] = s.snds[j.val] := by
  have h' : c.val ≠ j.val := fun e => h (Fin.ext e.symm)
  simp [updSnd, h']
@[simp] theorem updEnc_self (s : State) (e : EncId) (f : Enc → Enc) : (updEnc s e f).encs[e.val] = f s.encs[e.val] := by
  simp [updEnc]
theorem updEnc_other (s : State) (e : EncId) (f : Enc → Enc) (j : EncId) (h : j ≠ e) : (updEnc s e f).encs[j.val] = s.encs[j.val] := by
  have h' : e.val ≠ j.val := fun e => h (Fin.ext e.symm)
  simp [updEnc, h']
@[simp] theorem updPin_self (s : State) (n : PinId) (f : Pin → Pin) : (updPin s n f).pins[n.val] = f s.pins[n.val] := by
  simp [updPin]
theorem updPin_other (s : State) (n : PinId) (f : Pin → Pin) (j : PinId) (h : j ≠ n) : (updPin s n f).pins[j.val] = s.pins[j.val] := by
  have h' : n.val ≠ j.val := fun e => h (Fin.ext e.symm)
  simp [updPin, h']
@[simp] theorem updExp_self (s : State) (p : PartId) (f : Exp → Exp) : (updExp s p f).exps[p.val] = f s.exps[p.val] := by
  simp [updExp]
theorem updExp_other (s : State) (p : PartId) (f : Exp → Exp) (j : PartId) (h : j ≠ p) : (updExp s p f).exps[j.val] = s.exps[j.val] := by
  have h' : p.val ≠ j.val := fun e => h (Fin.ext e.symm)
  simp [updExp, h']
@[simp] theorem updPartRegs_self (s : State) (p : PartId) (f : PrtRegs → PrtRegs) :
    (updPartRegs s p f).parts[p.val] = { s.parts[p.val] with regs := f s.parts[p.val].regs } := by
  simp [updPartRegs]
theorem updPartRegs_other (s : State) (p : PartId) (f : PrtRegs → PrtRegs) (j : PartId) (h : j ≠ p) : (updPartRegs s p f).parts[j.val] = s.parts[j.val] :=
  updPart_other s p _ j h
@[simp] theorem updFlow_self (s : State) (p : PartId) (f : Flow → Flow) :
    (updFlow s p f).parts[p.val] = { s.parts[p.val] with flow := f s.parts[p.val].flow } := by
  simp [updFlow]
theorem updFlow_other (s : State) (p : PartId) (f : Flow → Flow) (j : PartId) (h : j ≠ p) : (updFlow s p f).parts[j.val] = s.parts[j.val] :=
  updPart_other s p _ j h
@[simp] theorem updFabric_self (s : State) (p : PartId) (f : Fabric → Fabric) :
    (updFabric s p f).parts[p.val] = { s.parts[p.val] with fabric := f s.parts[p.val].fabric } := by
  simp [updFabric]
theorem updFabric_other (s : State) (p : PartId) (f : Fabric → Fabric) (j : PartId) (h : j ≠ p) : (updFabric s p f).parts[j.val] = s.parts[j.val] :=
  updPart_other s p _ j h
@[simp] theorem updCensus_self (s : State) (p : PartId) (f : Census → Census) :
    (updCensus s p f).parts[p.val] = { s.parts[p.val] with census := f s.parts[p.val].census } := by
  simp [updCensus]
theorem updCensus_other (s : State) (p : PartId) (f : Census → Census) (j : PartId) (h : j ≠ p) : (updCensus s p f).parts[j.val] = s.parts[j.val] :=
  updPart_other s p _ j h
@[simp] theorem updLoad_self (s : State) (p : PartId) (f : Load → Load) :
    (updLoad s p f).parts[p.val] = { s.parts[p.val] with load := s.parts[p.val].load.map f } := by
  simp [updLoad]
theorem updLoad_other (s : State) (p : PartId) (f : Load → Load) (j : PartId) (h : j ≠ p) : (updLoad s p f).parts[j.val] = s.parts[j.val] :=
  updPart_other s p _ j h

end Sys2Proof.Machine
end

