-- ==== Sys2Proof/Laws/Events.lean ====
section
/-! SUPPORT. What the fault log and the vectors hold after an event, as functions of what they held before. -/

namespace Sys2Proof.Machine

/-- The log after one event, from the log, POWER_ON and timestamp before. -/
def logInto (f : FaultLog) (powerOn time code index d0 d1 : Nat) (e : Bool) : FaultLog :=
  if 16 ≤ (f.entries.filter (fun x => x.code = code && x.index = index && x.time / 1000000000 = time / 1000000000)).length then
    { f with suppressed := satInc f.suppressed }
  else
    { f with
      entries := ({ seq := f.nextSeq, powerOn := powerOn, time := time, code := code, index := index, endOfEpisode := e,
                    detail0 := d0, detail1 := d1 } :: f.entries).take 4096
      nextSeq := f.nextSeq + 1 }

@[simp] theorem logEvent_flt (s : State) (code index d0 d1 : Nat) (e : Bool) :
    (logEvent s code index d0 d1 e).flt = logInto s.flt s.glb.powerOn s.tbs.time.toNat code index d0 d1 e := by
  unfold logEvent logInto entriesThisSecond now
  split <;> rfl

@[simp] theorem irq_glb (s : State) (v : Fin 32) :
    (irq s v).glb = sendVector { s.glb with irq := s.glb.irq ||| ((1 : Word) <<< v.val) } v := rfl

/-- An event that is logged and signalled over a state with the same log, vectors and time. -/
theorem logIrq_reports {s u : State} (hf : u.flt = s.flt) (hg : u.glb = s.glb) (ht : u.tbs.time = s.tbs.time)
    (code index d0 d1 : Nat) (e : Bool) (v : Fin 32) : reports s (logIrq u code index d0 d1 e v) code index d0 d1 e v := by
  constructor <;> simp [logIrq, hf, hg, ht]

end Sys2Proof.Machine
end

