-- ==== Sys2Proof/Laws/Exec.lean ====
section
/-! SUPPORT. What `exec` calls for each command, and what a command answers on a unit that is up or not. -/

namespace Sys2Proof.Machine

/-- On a unit that is up a command has its effect. -/
theorem whenUp_of_up {s : State} (t : State) (h : s.glb.phase = .up) : whenUp s t = .next t := by simp [whenUp, isUp, h]

/-- On a unit that is not up a command has no effect (log entry 11). -/
theorem whenUp_of_down {s : State} (t : State) (h : s.glb.phase ≠ .up) : whenUp s t = .next s := by simp [whenUp, isUp, h]

theorem isUp_iff (s : State) : isUp s = true ↔ s.glb.phase = .up := by simp [isUp]

theorem exec_unitPowerUp (e : PowerUp) (s : State) : exec (.unitPowerUp e) s = execUnitPowerUp e s := rfl
theorem exec_healthCheck (stepsDone : Bool) (watchdogServiced : Bool) (s : State) : exec (.healthCheck stepsDone watchdogServiced) s = execHealthCheck stepsDone watchdogServiced s := rfl
theorem exec_watchdog (s : State) : exec (.watchdog) s = execWatchdog s := rfl
theorem exec_meshLock (s : State) : exec (.meshLock) s = execMeshLock s := rfl
theorem exec_referenceLost (s : State) : exec (.referenceLost) s = execReferenceLost s := rfl
theorem exec_referenceBack (ppb : Int) (s : State) : exec (.referenceBack ppb) s = execReferenceBack ppb s := rfl
theorem exec_tbsSrcWrite (v : Word) (s : State) : exec (.tbsSrcWrite v) s = execTbsSrcWrite v s := rfl
theorem exec_tileStep (t : TileAt) (o : StepObs) (s : State) : exec (.tileStep t o) s = execTileStep t o s := rfl
theorem exec_flitReceived (t : TileAt) (port : Port) (wires : Wires) (ecc : EccRead) (s : State) : exec (.flitReceived t port wires ecc) s = execFlitReceived t port wires ecc s := rfl
theorem exec_creditFlitReceived (t : TileAt) (d : Dir) (wires : Wires) (s : State) : exec (.creditFlitReceived t d wires) s = execCreditFlitReceived t d wires s := rfl
theorem exec_contextSwitch (p : PartId) (failedGroup : Option Nat) (s : State) : exec (.contextSwitch p failedGroup) s = execContextSwitch p failedGroup s := rfl
theorem exec_backgroundScrub (t : TileAt) (o : ScrubObs) (s : State) : exec (.backgroundScrub t o) s = execBackgroundScrub t o s := rfl
theorem exec_stallDetectorTick (p : PartId) (s : State) : exec (.stallDetectorTick p) s = execStallDetectorTick p s := rfl
theorem exec_detectionWindowExpiry (p : PartId) (cycle : Nat) (s : State) : exec (.detectionWindowExpiry p cycle) s = execDetectionWindowExpiry p cycle s := rfl
theorem exec_stallSample (s : State) : exec (.stallSample) s = execStallSample s := rfl
theorem exec_progressWatchdog (p : PartId) (s : State) : exec (.progressWatchdog p) s = execProgressWatchdog p s := rfl
theorem exec_verdictRelease (p : PartId) (s : State) : exec (.verdictRelease p) s = execVerdictRelease p s := rfl
theorem exec_pinPulseEnd (pin : PinId) (s : State) : exec (.pinPulseEnd pin) s = execPinPulseEnd pin s := rfl
theorem exec_presenceDebounceEnd (b : BayId) (s : State) : exec (.presenceDebounceEnd b) s = execPresenceDebounceEnd b s := rfl
theorem exec_bayPowerGood (b : BayId) (o : IdentityObs) (s : State) : exec (.bayPowerGood b o) s = execBayPowerGood b o s := rfl
theorem exec_perstRelease (b : BayId) (width : Nat) (gen : Nat) (s : State) : exec (.perstRelease b width gen) s = execPerstRelease b width gen s := rfl
theorem exec_nvmeReady (b : BayId) (o : NvmeObs) (s : State) : exec (.nvmeReady b o) s = execNvmeReady b o s := rfl
theorem exec_loadHandover (b : BayId) (o : LoadObs) (s : State) : exec (.loadHandover b o) s = execLoadHandover b o s := rfl
theorem exec_nvmeCommandCompletion (c : BayCmd) (ok : Bool) (s : State) :
    exec (.nvmeCommandCompletion c ok) s = execNvmeCommandCompletion c ok s := rfl
theorem exec_nvmeCommandTimeout (c : BayCmd) (s : State) : exec (.nvmeCommandTimeout c) s = execNvmeCommandTimeout c s := rfl
theorem exec_removed (b : BayId) (s : State) : exec (.removed b) s = execRemoved b s := rfl
theorem exec_overcurrent (b : BayId) (s : State) : exec (.overcurrent b) s = execOvercurrent b s := rfl
theorem exec_poweredHour (b : BayId) (s : State) : exec (.poweredHour b) s = execPoweredHour b s := rfl
theorem exec_smartReadPeriod (b : BayId) (critical : Nat) (used : Nat) (s : State) : exec (.smartReadPeriod b critical used) s = execSmartReadPeriod b critical used s := rfl
theorem exec_periodicLifeRecord (b : BayId) (s : State) : exec (.periodicLifeRecord b) s = execPeriodicLifeRecord b s := rfl
theorem exec_reload (p : PartId) (o : LoadObs) (s : State) : exec (.reload p o) s = execReload p o s := rfl
theorem exec_unload (p : PartId) (s : State) : exec (.unload p) s = execUnload p s := rfl
theorem exec_queuedRequestStart (p : PartId) (o : LoadObs) (s : State) : exec (.queuedRequestStart p o) s = execQueuedRequestStart p o s := rfl
theorem exec_autoReload (p : PartId) (o : LoadObs) (s : State) : exec (.autoReload p o) s = execAutoReload p o s := rfl
theorem exec_placementRetry (p : PartId) (s : State) : exec (.placementRetry p) s = execPlacementRetry p s := rfl
theorem exec_loadLaneGranted (p : PartId) (s : State) : exec (.loadLaneGranted p) s = execLoadLaneGranted p s := rfl
theorem exec_preLoadScrubDone (p : PartId) (failed : List RegionId) (s : State) : exec (.preLoadScrubDone p failed) s = execPreLoadScrubDone p failed s := rfl
theorem exec_chunkDecrypted (p : PartId) (cipher tag : List Byte) (s : State) :
    exec (.chunkDecrypted p cipher tag) s = execChunkDecrypted p cipher tag s := rfl
theorem exec_loadRecord (p : PartId) (readsBack : Bool) (collided : List (TileAt × Nat)) (s : State) :
    exec (.loadRecord p readsBack collided) s = execLoadRecord p readsBack collided s := rfl
theorem exec_endOfStreamChecks (p : PartId) (refused : Option Nat) (s : State) :
    exec (.endOfStreamChecks p refused) s = execEndOfStreamChecks p refused s := rfl
theorem exec_lupinStageAck (p : PartId) (failedGroup : Option Nat) (s : State) : exec (.lupinStageAck p failedGroup) s = execLupinStageAck p failedGroup s := rfl
theorem exec_releaseFailed (p : PartId) (s : State) : exec (.releaseFailed p) s = execReleaseFailed p s := rfl
theorem exec_drainComplete (p : PartId) (s : State) : exec (.drainComplete p) s = execDrainComplete p s := rfl
theorem exec_unloadScrubDone (p : PartId) (failed : List RegionId) (s : State) : exec (.unloadScrubDone p failed) s = execUnloadScrubDone p failed s := rfl
theorem exec_postCommitScrubDone (o : ScrubEnd) (s : State) : exec (.postCommitScrubDone o) s = execPostCommitScrubDone o s := rfl
theorem exec_spanTimeout (p : PartId) (s : State) : exec (.spanTimeout p) s = execSpanTimeout p s := rfl
theorem exec_apply (p : PartId) (v : Word) (s : State) : exec (.apply p v) s = execApply p v s := rfl
theorem exec_prtTunWrite (p : PartId) (n : Fin 32) (v : Word) (s : State) : exec (.prtTunWrite p n v) s = execPrtTunWrite p n v s := rfl
theorem exec_rgnTest (r : RegionId) (v : Word) (s : State) : exec (.rgnTest r v) s = execRgnTest r v s := rfl
theorem exec_inFieldRetestDone (r : RegionId) (f : WaferFindings) (aborted : Bool) (s : State) : exec (.inFieldRetestDone r f aborted) s = execInFieldRetestDone r f aborted s := rfl
theorem exec_rateLoopTick (busy : List (RegionId × Nat)) (s : State) : exec (.rateLoopTick busy) s = execRateLoopTick busy s := rfl
theorem exec_currentCeilingTick (amps : List (RegionId × Nat)) (s : State) : exec (.currentCeilingTick amps) s = execCurrentCeilingTick amps s := rfl
theorem exec_throttleTick (temps : List (RegionId × Int)) (s : State) : exec (.throttleTick temps) s = execThrottleTick temps s := rfl
theorem exec_heatShed (r : RegionId) (reading : Int) (s : State) : exec (.heatShed r reading) s = execHeatShed r reading s := rfl
theorem exec_heatShedRecheck (r : RegionId) (hottest : Int) (s : State) : exec (.heatShedRecheck r hottest) s = execHeatShedRecheck r hottest s := rfl
theorem exec_policyWrite (item : PolicyItem) (v : Word) (s : State) : exec (.policyWrite item v) s = execPolicyWrite item v s := rfl
theorem exec_policyEpoch (s : State) : exec (.policyEpoch) s = execPolicyEpoch s := rfl
theorem exec_capLoopTick (watts : Nat) (s : State) : exec (.capLoopTick watts) s = execCapLoopTick watts s := rfl
theorem exec_short (r : RegionId) (s : State) : exec (.short r) s = execShort r s := rfl
theorem exec_supplySag (overvoltage : Bool) (o : SagObs) (s : State) :
    exec (.supplySag overvoltage o) s = execSupplySag overvoltage o s := rfl
theorem exec_reservoirExhausted (s : State) : exec (.reservoirExhausted) s = execReservoirExhausted s := rfl
theorem exec_inputOutOfRange (decivolts : Nat) (s : State) : exec (.inputOutOfRange decivolts) s = execInputOutOfRange decivolts s := rfl
theorem exec_coolingMeasurement (inlet : Int) (outlet : Int) (flow : Nat) (glycol : Bool) (s : State) : exec (.coolingMeasurement inlet outlet flow glycol) s = execCoolingMeasurement inlet outlet flow glycol s := rfl
theorem exec_cxpBringupComplete (c : ImgId) (o : BringupObs) (s : State) :
    exec (.cxpBringupComplete c o) s = execCxpBringupComplete c o s := rfl
theorem exec_cxpBringupFailed (c : ImgId) (cause : BringupCause) (s : State) : exec (.cxpBringupFailed c cause) s = execCxpBringupFailed c cause s := rfl
theorem exec_encoderCount (e : EncId) (m : EncMove) (s : State) : exec (.encoderCount e m) s = execEncoderCount e m s := rfl
theorem exec_encoderZEdge (e : EncId) (s : State) : exec (.encoderZEdge e) s = execEncoderZEdge e s := rfl
theorem exec_encoderOpen (e : EncId) (sig : EncSignal) (isOpen : Bool) (s : State) : exec (.encoderOpen e sig isOpen) s = execEncoderOpen e sig isOpen s := rfl
theorem exec_encConfigWrite (e : EncId) (r : EncReg) (v : Word) (s : State) : exec (.encConfigWrite e r v) s = execEncConfigWrite e r v s := rfl
theorem exec_cxpLineReceived (c : ImgId) (pixels : List Nat) (crcOk : Bool) (start : LineStart) (s : State) : exec (.cxpLineReceived c pixels crcOk start) s = execCxpLineReceived c pixels crcOk start s := rfl
theorem exec_cxpImageHeader (c : ImgId) (format : Nat) (width : Nat) (bayer : Option (Fin 4)) (s : State) : exec (.cxpImageHeader c format width bayer) s = execCxpImageHeader c format width bayer s := rfl
theorem exec_imgEvent (c : ImgId) (id : Nat) (data : List Byte) (s : State) : exec (.imgEvent c id data) s = execImgEvent c id data s := rfl
theorem exec_linkDown (c : ImgId) (s : State) : exec (.linkDown c) s = execLinkDown c s := rfl
theorem exec_reconnectionAttempt (c : ImgId) (reads : Option (List (List Word))) (s : State) :
    exec (.reconnectionAttempt c reads) s = execReconnectionAttempt c reads s := rfl
theorem exec_dcPresent (c : ImgId) (on : Bool) (s : State) : exec (.dcPresent c on) s = execDcPresent c on s := rfl
theorem exec_soundFrame (port : SndId) (slots : List Int) (sync : FrameSync) (milliHz : Nat) (s : State) : exec (.soundFrame port slots sync milliHz) s = execSoundFrame port slots sync milliHz s := rfl
theorem exec_clockLost (port : SndId) (s : State) : exec (.clockLost port) s = execClockLost port s := rfl
theorem exec_clockReturn (port : SndId) (s : State) : exec (.clockReturn port) s = execClockReturn port s := rfl
theorem exec_clockMismatch (port : SndId) (mismatch : Bool) (s : State) : exec (.clockMismatch port mismatch) s = execClockMismatch port mismatch s := rfl
theorem exec_asrcLock (port : SndId) (s : State) : exec (.asrcLock port) s = execAsrcLock port s := rfl
theorem exec_soundStartT0 (p : PartId) (s : State) : exec (.soundStartT0 p) s = execSoundStartT0 p s := rfl
theorem exec_soundBlockDelivered (port : SndId) (s : State) : exec (.soundBlockDelivered port) s = execSoundBlockDelivered port s := rfl
theorem exec_outputPlayCheck (port : SndId) (s : State) : exec (.outputPlayCheck port) s = execOutputPlayCheck port s := rfl
theorem exec_soundStop (port : SndId) (s : State) : exec (.soundStop port) s = execSoundStop port s := rfl
theorem exec_pageFlush (p : PartId) (s : State) : exec (.pageFlush p) s = execPageFlush p s := rfl
theorem exec_verdictCreditRefill (s : State) : exec (.verdictCreditRefill) s = execVerdictCreditRefill s := rfl
theorem exec_pageDelivered (p : PartId) (s : State) : exec (.pageDelivered p) s = execPageDelivered p s := rfl
theorem exec_irqHoldoffEnd (p : PartId) (s : State) : exec (.irqHoldoffEnd p) s = execIrqHoldoffEnd p s := rfl
theorem exec_expCtrlWrite (p : PartId) (v : Word) (s : State) : exec (.expCtrlWrite p v) s = execExpCtrlWrite p v s := rfl
theorem exec_expHeadWrite (p : PartId) (v : Word) (s : State) : exec (.expHeadWrite p v) s = execExpHeadWrite p v s := rfl
theorem exec_hostLinkDown (s : State) : exec (.hostLinkDown) s = execHostLinkDown s := rfl
theorem exec_evidenceCropReceived (p : PartId) (flits : List Flit) (s : State) : exec (.evidenceCropReceived p flits) s = execEvidenceCropReceived p flits s := rfl
theorem exec_evidenceMatchTimeout (p : PartId) (s : State) : exec (.evidenceMatchTimeout p) s = execEvidenceMatchTimeout p s := rfl
theorem exec_vrdAllocWrite (i : Fin 8) (v : Word) (s : State) : exec (.vrdAllocWrite i v) s = execVrdAllocWrite i v s := rfl
theorem exec_spanLinkUp (port : SpanPort) (s : State) : exec (.spanLinkUp port) s = execSpanLinkUp port s := rfl
theorem exec_spanDataFrame (port : SpanPort) (frame : List Byte) (fecOk : Bool) (s : State) : exec (.spanDataFrame port frame fecOk) s = execSpanDataFrame port frame fecOk s := rfl
theorem exec_spanIdleFrame (port : SpanPort) (frame : List Byte) (s : State) : exec (.spanIdleFrame port frame) s = execSpanIdleFrame port frame s := rfl
theorem exec_spanDescriptorFrame (port : SpanPort) (frame : List Byte) (fecOk : Bool) (s : State) : exec (.spanDescriptorFrame port frame fecOk) s = execSpanDescriptorFrame port frame fecOk s := rfl
theorem exec_hello (port : SpanPort) (serial : BitVec 64) (s : State) : exec (.hello port serial) s = execHello port serial s := rfl
theorem exec_ready (port : SpanPort) (position : Nat) (units : Nat) (dready : Bool) (spanId : BitVec 64) (s : State) : exec (.ready port position units dready spanId) s = execReady port position units dready spanId s := rfl
theorem exec_go (port : SpanPort) (spanId : BitVec 64) (s : State) : exec (.go port spanId) s = execGo port spanId s := rfl
theorem exec_abort (port : SpanPort) (cause : Nat) (spanId : BitVec 64) (s : State) : exec (.abort port cause spanId) s = execAbort port cause spanId s := rfl
theorem exec_leave (port : SpanPort) (spanId : BitVec 64) (s : State) : exec (.leave port spanId) s = execLeave port spanId s := rfl
theorem exec_time (port : SpanPort) (dLast : Int) (tTx : Nat) (s : State) : exec (.time port dLast tTx) s = execTime port dLast tTx s := rfl
theorem exec_spanHelloPeriod (port : SpanPort) (s : State) : exec (.spanHelloPeriod port) s = execSpanHelloPeriod port s := rfl
theorem exec_spanReadyPeriod (p : PartId) (s : State) : exec (.spanReadyPeriod p) s = execSpanReadyPeriod p s := rfl
theorem exec_spanTimePeriod (port : SpanPort) (s : State) : exec (.spanTimePeriod port) s = execSpanTimePeriod port s := rfl
theorem exec_spanLost (port : SpanPort) (why : LinkLossReason) (s : State) : exec (.spanLost port why) s = execSpanLost port why s := rfl
theorem exec_censusRequest (p : PartId) (v : Word) (s : State) : exec (.censusRequest p v) s = execCensusRequest p v s := rfl
theorem exec_censusPeriodWrite (p : PartId) (v : Word) (s : State) : exec (.censusPeriodWrite p v) s = execCensusPeriodWrite p v s := rfl
theorem exec_censusTick (p : PartId) (s : State) : exec (.censusTick p) s = execCensusTick p s := rfl
theorem exec_censusCollected (p : PartId) (s : State) : exec (.censusCollected p) s = execCensusCollected p s := rfl
theorem exec_fltSelWrite (v : Word) (s : State) : exec (.fltSelWrite v) s = execFltSelWrite v s := rfl
theorem exec_loRegisterRead (a : RegAccess) (s : State) : exec (.loRegisterRead a) s = execLoRegisterRead a s := rfl
theorem exec_fwOpen (s : State) : exec (.fwOpen) s = execFwOpen s := rfl
theorem exec_fwWrite (s : State) : exec (.fwWrite) s = execFwWrite s := rfl
theorem exec_fwClose (s : State) : exec (.fwClose) s = execFwClose s := rfl
theorem exec_fwActivate (slotB : Bool) (s : State) : exec (.fwActivate slotB) s = execFwActivate slotB s := rfl
theorem exec_registerWrite (a : RegAccess) (v : Word) (s : State) : exec (.registerWrite a v) s = execRegisterWrite a v s := rfl
theorem exec_presenceAsserted (b : BayId) (s : State) : exec (.presenceAsserted b) s = execPresenceAsserted b s := rfl
theorem exec_fwCommandDone (verified : Bool) (info : FwInfo) (s : State) : exec (.fwCommandDone verified info) s = execFwCommandDone verified info s := rfl
theorem exec_reservoirCharged (reached : Bool) (s : State) : exec (.reservoirCharged reached) s = execReservoirCharged reached s := rfl
theorem exec_hostLinkUp (gen : Nat) (width : Nat) (s : State) : exec (.hostLinkUp gen width) s = execHostLinkUp gen width s := rfl
theorem exec_heartbeat (c : ImgId) (s : State) : exec (.heartbeat c) s = execHeartbeat c s := rfl
theorem exec_unsupportedPacket (c : ImgId) (s : State) : exec (.unsupportedPacket c) s = execUnsupportedPacket c s := rfl

end Sys2Proof.Machine
end

