-- ==== Sys2Proof/Laws/Export.lean ====
section
/-! SUPPORT. What the export arbiter changes: at most the page it begins to write, the credits and shares it spends, and RING_FULL. -/

namespace Sys2Proof.Machine

@[simp] theorem markFull_settled (e : Exp) : (markFull e).settled = e.settled := by
  unfold markFull
  split <;> rfl

@[simp] theorem beginWrite_settled (p : PartId) (e : Exp) : (beginWrite p e).settled = e.settled := by
  unfold beginWrite
  split
  · rfl
  · rename_i h
    simp [Exp.settled, h]

/-- Whatever the arbiter begins, every ring's instance stands as before but for what `settled` leaves out. -/
theorem exportPump_settled (s : State) (q : PartId) : ((exportPump s).exps[q]).settled = (s.exps[q]).settled := by
  have h0 : ((updExps s markFull).exps[q]).settled = (s.exps[q]).settled := by simp [updExps]
  have step : ∀ (u : State) (p : PartId) (f : Exp → Exp), (∀ e, (f e).settled = e.settled) →
      ((updExp u p f).exps[q]).settled = (u.exps[q]).settled := by
    intro u p f hf
    by_cases hp : q = p
    · subst hp
      simp [updExp, hf]
    · simp [updExp, Fin.val_ne_of_ne (Ne.symm hp)]
  unfold exportPump
  extract_lets s1 s2
  change (s1.exps[q]).settled = _ at h0
  split
  · exact h0
  · split
    · exact h0
    · exact (step s1 _ (fun e => beginWrite _ { e with credits := e.credits - 1 }) (fun e => (beginWrite_settled _ _).trans rfl)).trans h0
    · refine (step s2 _ (fun e => beginWrite _ { e with served := e.served + 1 })
        (fun e => (beginWrite_settled _ _).trans rfl)).trans (Eq.trans ?_ h0)
      simp only [s2]
      split
      · simp [updExps, Exp.settled]
      · rfl

end Sys2Proof.Machine
end

