-- ==== Sys2Proof/Laws/Store.lean ====
section
/-! SUPPORT. The sparse tables and block memory: every operation keeps the one form, and a read after a write gives what was
written there and what stood before everywhere else. -/

namespace Sys2Proof.Machine

variable {α : Type} [DecidableEq α]

/-! ### The form -/

theorem tabWfFrom_mono (d : α) {lo hi : Nat} (h : lo ≤ hi) : ∀ l : List (Nat × α), tabWfFrom d hi l = true → tabWfFrom d lo l = true
  | [], _ => rfl
  | (k, v) :: r, hw => by
    simp only [tabWfFrom, Bool.and_eq_true, decide_eq_true_eq] at hw ⊢
    exact ⟨⟨by omega, hw.1.2⟩, hw.2⟩

theorem tabPut_wfFrom (d : α) (k : Nat) (v : α) : ∀ (l : List (Nat × α)) (lo : Nat), lo ≤ k → tabWfFrom d lo l = true →
    tabWfFrom d lo (tabPut d k v l) = true
  | [], lo, hlo, _ => by
    unfold tabPut
    split
    · rfl
    · simp_all [tabWfFrom]
  | (j, w) :: r, lo, hlo, hw => by
    simp only [tabWfFrom, Bool.and_eq_true, decide_eq_true_eq] at hw
    obtain ⟨⟨hj, hwd⟩, hr⟩ := hw
    unfold tabPut
    split
    · split
      · simp_all [tabWfFrom]
      · simp only [tabWfFrom, Bool.and_eq_true, decide_eq_true_eq]
        exact ⟨⟨hlo, ‹_›⟩, ⟨by omega, hwd⟩, hr⟩
    · split
      · split
        · exact tabWfFrom_mono d (by omega) r hr
        · simp only [tabWfFrom, Bool.and_eq_true, decide_eq_true_eq]
          subst_vars
          exact ⟨⟨hlo, ‹_›⟩, hr⟩
      · simp only [tabWfFrom, Bool.and_eq_true, decide_eq_true_eq]
        exact ⟨⟨hj, hwd⟩, tabPut_wfFrom d k v r (j + 1) (by omega) hr⟩

theorem tabPut_wf (d : α) (k : Nat) (v : α) (l : List (Nat × α)) (h : tabWf d l = true) : tabWf d (tabPut d k v l) = true :=
  tabPut_wfFrom d k v l 0 (Nat.zero_le _) h

theorem tabWfFrom_filter (d : α) (p : Nat × α → Bool) : ∀ (l : List (Nat × α)) (lo : Nat), tabWfFrom d lo l = true →
    tabWfFrom d lo (l.filter p) = true
  | [], _, _ => rfl
  | (j, w) :: r, lo, hw => by
    simp only [tabWfFrom, Bool.and_eq_true, decide_eq_true_eq] at hw
    obtain ⟨⟨hj, hwd⟩, hr⟩ := hw
    have ih := tabWfFrom_filter d p r (j + 1) hr
    by_cases hp : p (j, w) = true
    · simp only [List.filter_cons_of_pos hp, tabWfFrom, Bool.and_eq_true, decide_eq_true_eq]
      exact ⟨⟨hj, hwd⟩, ih⟩
    · rw [List.filter_cons_of_neg hp]
      exact tabWfFrom_mono d (by omega) _ ih

theorem tabWf_filter (d : α) (p : Nat × α → Bool) (l : List (Nat × α)) (h : tabWf d l = true) : tabWf d (l.filter p) = true :=
  tabWfFrom_filter d p l 0 h

/-- Changing the entries of a table and dropping those that come to the default keeps the form. -/
theorem tabWfFrom_mapFilter (d : α) (f : Nat × α → Nat × α) (hf : ∀ c, (f c).1 = c.1) : ∀ (l : List (Nat × α)) (lo : Nat),
    tabWfFrom d lo l = true → tabWfFrom d lo ((l.map f).filter (fun c => decide (c.2 ≠ d))) = true
  | [], _, _ => rfl
  | (j, w) :: r, lo, hw => by
    simp only [tabWfFrom, Bool.and_eq_true, decide_eq_true_eq] at hw
    have ih := tabWfFrom_mapFilter d f hf r (j + 1) hw.2
    rw [List.map_cons]
    by_cases hp : (f (j, w)).2 ≠ d
    · rw [List.filter_cons_of_pos (by simpa using hp)]
      have hk : (f (j, w)).1 = j := hf (j, w)
      simp only [tabWfFrom, hk, Bool.and_eq_true, decide_eq_true_eq]
      exact ⟨⟨hw.1.1, hp⟩, ih⟩
    · rw [List.filter_cons_of_neg (by simpa using hp)]
      exact tabWfFrom_mono d (by omega) _ ih

theorem tabWf_mapFilter (d : α) (f : Nat × α → Nat × α) (hf : ∀ c, (f c).1 = c.1) (l : List (Nat × α)) (h : tabWf d l = true) :
    tabWf d ((l.map f).filter (fun c => decide (c.2 ≠ d))) = true :=
  tabWfFrom_mapFilter d f hf l 0 h

/-! ### Reading after writing -/

theorem tabGet_of_lt (d : α) (k : Nat) : ∀ (l : List (Nat × α)) (lo : Nat), k < lo → tabWfFrom d lo l = true → tabGet d k l = d
  | [], _, _, _ => rfl
  | (j, w) :: r, lo, hk, hw => by
    simp only [tabWfFrom, Bool.and_eq_true, decide_eq_true_eq] at hw
    have : j ≠ k := by omega
    simp only [tabGet, this, if_false]
    exact tabGet_of_lt d k r (j + 1) (by omega) hw.2

theorem tabGet_put_from (d : α) (k i : Nat) (v : α) : ∀ (l : List (Nat × α)) (lo : Nat), tabWfFrom d lo l = true →
    tabGet d i (tabPut d k v l) = if i = k then v else tabGet d i l
  | [], _, _ => by
    unfold tabPut
    by_cases hi : i = k <;> split <;> simp_all [tabGet, Ne.symm]
  | (j, w) :: r, lo, hw => by
    simp only [tabWfFrom, Bool.and_eq_true, decide_eq_true_eq] at hw
    have hr := hw.2
    unfold tabPut
    split
    · have hj : tabGet d k ((j, w) :: r) = d := by
        have : j ≠ k := by omega
        simp only [tabGet, this, if_false]
        exact tabGet_of_lt d k r (j + 1) (by omega) hr
      split
      · by_cases hi : i = k
        · subst hi; simp_all
        · simp [hi]
      · by_cases hi : i = k
        · simp [tabGet, hi]
        · simp [tabGet, hi, Ne.symm hi]
    · split
      · have hkj : k = j := ‹_›
        split
        · by_cases hi : i = k
          · have hv : v = d := ‹_›
            simp only [hi, if_true, hv]
            exact tabGet_of_lt d k r (j + 1) (by omega) hr
          · have hji : j ≠ i := by omega
            simp [tabGet, hi, hji]
        · by_cases hi : i = k
          · simp [tabGet, hi]
          · have hji : j ≠ i := by omega
            simp [tabGet, hi, hji, Ne.symm hi]
      · have ih := tabGet_put_from d k i v r (j + 1) hr
        by_cases hji : j = i
        · have : i ≠ k := by omega
          simp [tabGet, hji, this]
        · simp only [tabGet, hji, if_false]
          exact ih

/-- A table entry after a put. -/
theorem tabGet_put (d : α) (k i : Nat) (v : α) (l : List (Nat × α)) (h : tabWf d l = true) :
    tabGet d i (tabPut d k v l) = if i = k then v else tabGet d i l :=
  tabGet_put_from d k i v l 0 h

omit [DecidableEq α] in
/-- Filtering by key leaves the entries kept and gives the others the default. -/
theorem tabGet_filter_key (d : α) (p : Nat → Bool) (i : Nat) : ∀ l : List (Nat × α),
    tabGet d i (l.filter (fun c => p c.1)) = if p i then tabGet d i l else d
  | [] => by simp [tabGet]
  | (j, w) :: r => by
    have ih := tabGet_filter_key d p i r
    by_cases hp : p j = true
    · rw [List.filter_cons_of_pos (by simpa using hp)]
      by_cases hj : j = i
      · subst hj; simp [tabGet, hp]
      · simp [tabGet, hj, ih]
    · rw [List.filter_cons_of_neg (by simpa using hp), ih]
      by_cases hj : j = i
      · subst hj; simp [hp]
      · simp [tabGet, hj]

/-! ### Block memory -/

theorem Memory.write_wf (m : List Host.Cell) (a : Nat) (b : Byte) (h : Memory.wf m = true) : Memory.wf (Memory.write m a b) = true :=
  tabPut_wf 0 a b m h

theorem Memory.writeBytes_wf : ∀ (bs : List Byte) (m : List Host.Cell) (a : Nat), Memory.wf m = true →
    Memory.wf (Memory.writeBytes m a bs) = true
  | [], _, _, h => h
  | b :: bs, m, a, h => Memory.writeBytes_wf bs _ (a + 1) (Memory.write_wf m a b h)

theorem Memory.clear_wf (m : List Host.Cell) (p : Nat → Bool) (h : Memory.wf m = true) : Memory.wf (Memory.clear m p) = true :=
  tabWf_filter 0 _ m h

theorem Memory.read_write (m : List Host.Cell) (a i : Nat) (b : Byte) (h : Memory.wf m = true) :
    Memory.read (Memory.write m a b) i = if i = a then b else Memory.read m i :=
  tabGet_put 0 a i b m h

/-- A byte outside those written reads as before. -/
theorem Memory.read_writeBytes_other : ∀ (bs : List Byte) (m : List Host.Cell) (a i : Nat), Memory.wf m = true →
    (i < a ∨ a + bs.length ≤ i) → Memory.read (Memory.writeBytes m a bs) i = Memory.read m i
  | [], _, _, _, _, _ => rfl
  | b :: bs, m, a, i, h, hi => by
    simp only [List.length_cons] at hi
    unfold Memory.writeBytes
    rw [Memory.read_writeBytes_other bs _ (a + 1) i (Memory.write_wf m a b h) (by omega), Memory.read_write m a i b h]
    simp only [ite_eq_right_iff]
    intro h1
    omega

/-- A byte written reads as written. -/
theorem Memory.read_writeBytes_at : ∀ (bs : List Byte) (m : List Host.Cell) (a n : Nat) (hn : n < bs.length), Memory.wf m = true →
    Memory.read (Memory.writeBytes m a bs) (a + n) = bs[n]
  | b :: bs, m, a, 0, _, h => by
    unfold Memory.writeBytes
    rw [Memory.read_writeBytes_other bs _ (a + 1) (a + 0) (Memory.write_wf m a b h) (by omega), Memory.read_write m a _ b h]
    simp
  | b :: bs, m, a, n + 1, hn, h => by
    unfold Memory.writeBytes
    have := Memory.read_writeBytes_at bs (Memory.write m a b) (a + 1) n (by simpa using hn) (Memory.write_wf m a b h)
    rw [show a + (n + 1) = a + 1 + n by omega, this]
    simp

/-- A byte cleared reads 0; any other reads as before. -/
theorem Memory.read_clear (m : List Host.Cell) (p : Nat → Bool) (i : Nat) :
    Memory.read (Memory.clear m p) i = if p i then 0 else Memory.read m i := by
  have := tabGet_filter_key (0 : Byte) (fun a => !p a) i m
  unfold Memory.read Memory.clear
  rw [this]
  cases p i <;> rfl

/-! ### Tiles -/

theorem getTile_updTile (s : State) (k j : Nat) (f : Tile → Tile) (h : tabWf ({} : Tile) s.tiles = true) :
    getTile (updTile s k f) j = if j = k then f (getTile s k) else getTile s j :=
  tabGet_put ({} : Tile) k j _ s.tiles h

theorem updTile_wf (s : State) (k : Nat) (f : Tile → Tile) (h : tabWf ({} : Tile) s.tiles = true) :
    tabWf ({} : Tile) (updTile s k f).tiles = true :=
  tabPut_wf {} k _ s.tiles h

theorem reset_mem_wf : Memory.wf State.reset.mem = true := rfl

theorem reset_tiles_wf : tabWf ({} : Tile) State.reset.tiles = true := rfl

end Sys2Proof.Machine
end

