-- ==== Sys2Proof/Laws/Frame.lean ====
section
/-! SUPPORT. What a change of the state touches: `Touch l s t` says that `t` differs from `s` at most in the fields `l`. One lemma a
shared operation says what it touches; claims cite it instead of unfolding the operation. -/

namespace Sys2Proof.Machine

theorem Fld.same_refl (f : Fld) (s : State) : f.same s s := by cases f <;> first | rfl | exact ⟨rfl, rfl, rfl⟩ | exact ⟨rfl, rfl⟩

theorem Fld.same_trans (f : Fld) {s t u : State} (h : f.same s t) (k : f.same t u) : f.same s u := by
  cases f <;> first | exact Eq.trans k h | exact ⟨k.1.trans h.1, k.2.1.trans h.2.1, k.2.2.trans h.2.2⟩ | exact ⟨k.1.trans h.1, k.2.trans h.2⟩

theorem Touch.refl (l : List Fld) (s : State) : Touch l s s := fun f _ => f.same_refl s

theorem Touch.mono {l m : List Fld} {s t : State} (h : Touch l s t) (hl : l ⊆ m) : Touch m s t := fun f hf => h f (fun hm => hf (hl hm))

theorem Touch.trans {l : List Fld} {s t u : State} (h : Touch l s t) (k : Touch l t u) : Touch l s u :=
  fun f hf => f.same_trans (h f hf) (k f hf)

/-- One more change, whose fields are among those allowed. -/
theorem Touch.step {l m : List Fld} {s t u : State} (h : Touch m s t) (k : Touch l t u) (hl : l ⊆ m) : Touch m s u :=
  h.trans (k.mono hl)

/-- A state written out field by field over `t`. -/
theorem Touch.lit {m : List Fld} {t u : State}
    (hpending : (u.pending = t.pending) ∨ Fld.pending ∈ m := by first | exact Or.inr (by decide) | exact Or.inl rfl)
    (hglb : (u.glb.quiet = t.glb.quiet) ∨ Fld.glb ∈ m := by first | exact Or.inr (by decide) | exact Or.inl rfl)
    (hsignals : (u.glb.irq = t.glb.irq ∧ u.glb.vectors = t.glb.vectors ∧ u.glb.pba = t.glb.pba) ∨ Fld.signals ∈ m := by first | exact Or.inr (by decide) | exact Or.inl ⟨rfl, rfl, rfl⟩)
    (hsup : (u.sup = t.sup) ∨ Fld.sup ∈ m := by first | exact Or.inr (by decide) | exact Or.inl rfl)
    (hnv : (u.nv = t.nv) ∨ Fld.nv ∈ m := by first | exact Or.inr (by decide) | exact Or.inl rfl)
    (htbs : (u.tbs = t.tbs) ∨ Fld.tbs ∈ m := by first | exact Or.inr (by decide) | exact Or.inl rfl)
    (hwafer : (u.wafer = t.wafer) ∨ Fld.wafer ∈ m := by first | exact Or.inr (by decide) | exact Or.inl rfl)
    (hpwr : (u.pwr = t.pwr) ∨ Fld.pwr ∈ m := by first | exact Or.inr (by decide) | exact Or.inl rfl)
    (hregions : (u.regions = t.regions) ∨ Fld.regions ∈ m := by first | exact Or.inr (by decide) | exact Or.inl rfl)
    (hparts : (u.parts = t.parts) ∨ Fld.parts ∈ m := by first | exact Or.inr (by decide) | exact Or.inl rfl)
    (hbays : (u.bays = t.bays) ∨ Fld.bays ∈ m := by first | exact Or.inr (by decide) | exact Or.inl rfl)
    (himgs : (u.imgs = t.imgs) ∨ Fld.imgs ∈ m := by first | exact Or.inr (by decide) | exact Or.inl rfl)
    (hsnds : (u.snds = t.snds) ∨ Fld.snds ∈ m := by first | exact Or.inr (by decide) | exact Or.inl rfl)
    (hencs : (u.encs = t.encs) ∨ Fld.encs ∈ m := by first | exact Or.inr (by decide) | exact Or.inl rfl)
    (hpins : (u.pins = t.pins) ∨ Fld.pins ∈ m := by first | exact Or.inr (by decide) | exact Or.inl rfl)
    (hallocHeld : (u.allocHeld = t.allocHeld) ∨ Fld.allocHeld ∈ m := by first | exact Or.inr (by decide) | exact Or.inl rfl)
    (hexps : (u.exps = t.exps) ∨ Fld.exps ∈ m := by first | exact Or.inr (by decide) | exact Or.inl rfl)
    (harbLast : (u.arbLast = t.arbLast) ∨ Fld.arbLast ∈ m := by first | exact Or.inr (by decide) | exact Or.inl rfl)
    (hspa : (u.spa = t.spa) ∨ Fld.spa ∈ m := by first | exact Or.inr (by decide) | exact Or.inl rfl)
    (hspb : (u.spb = t.spb) ∨ Fld.spb ∈ m := by first | exact Or.inr (by decide) | exact Or.inl rfl)
    (hflt : (u.flt.entries = t.flt.entries ∧ u.flt.nextSeq = t.flt.nextSeq ∧ u.flt.suppressed = t.flt.suppressed) ∨ Fld.flt ∈ m := by first | exact Or.inr (by decide) | exact Or.inl ⟨rfl, rfl, rfl⟩)
    (hfltView : (u.flt.sel = t.flt.sel ∧ u.flt.data = t.flt.data) ∨ Fld.fltView ∈ m := by first | exact Or.inr (by decide) | exact Or.inl ⟨rfl, rfl⟩)
    (hdefPage : (u.defPage = t.defPage) ∨ Fld.defPage ∈ m := by first | exact Or.inr (by decide) | exact Or.inl rfl)
    (hcenSel : (u.cenSel = t.cenSel) ∨ Fld.cenSel ∈ m := by first | exact Or.inr (by decide) | exact Or.inl rfl)
    (htiles : (u.tiles = t.tiles) ∨ Fld.tiles ∈ m := by first | exact Or.inr (by decide) | exact Or.inl rfl)
    (hmem : (u.mem = t.mem) ∨ Fld.mem ∈ m := by first | exact Or.inr (by decide) | exact Or.inl rfl)
    (hfreeCount : (u.freeCount = t.freeCount) ∨ Fld.freeCount ∈ m := by first | exact Or.inr (by decide) | exact Or.inl rfl)
    : Touch m t u := by
  intro f hf
  cases f
  · exact hpending.resolve_right hf
  · exact hglb.resolve_right hf
  · exact hsignals.resolve_right hf
  · exact hsup.resolve_right hf
  · exact hnv.resolve_right hf
  · exact htbs.resolve_right hf
  · exact hwafer.resolve_right hf
  · exact hpwr.resolve_right hf
  · exact hregions.resolve_right hf
  · exact hparts.resolve_right hf
  · exact hbays.resolve_right hf
  · exact himgs.resolve_right hf
  · exact hsnds.resolve_right hf
  · exact hencs.resolve_right hf
  · exact hpins.resolve_right hf
  · exact hallocHeld.resolve_right hf
  · exact hexps.resolve_right hf
  · exact harbLast.resolve_right hf
  · exact hspa.resolve_right hf
  · exact hspb.resolve_right hf
  · exact hflt.resolve_right hf
  · exact hfltView.resolve_right hf
  · exact hdefPage.resolve_right hf
  · exact hcenSel.resolve_right hf
  · exact htiles.resolve_right hf
  · exact hmem.resolve_right hf
  · exact hfreeCount.resolve_right hf

/-- A fold whose every turn touches only `l` touches only `l`. -/
theorem Touch.foldl {α : Type} {m : List Fld} {s0 : State} (f : State → α → State) (hf : ∀ t a, Touch m s0 t → Touch m s0 (f t a)) :
    ∀ (l : List α) (s : State), Touch m s0 s → Touch m s0 (l.foldl f s)
  | [], _, h => h
  | a :: l, s, h => Touch.foldl f hf l (f s a) (hf s a h)

/-! ### What the frame says of each field -/

theorem Touch.pending_eq {l : List Fld} {s t : State} (h : Touch l s t) (hl : Fld.pending ∉ l := by decide) : t.pending = s.pending := h .pending hl
theorem Touch.glb_eq {l : List Fld} {s t : State} (h : Touch l s t) (hl : Fld.glb ∉ l := by decide) : t.glb.quiet = s.glb.quiet := h .glb hl
theorem Touch.signals_eq {l : List Fld} {s t : State} (h : Touch l s t) (hl : Fld.signals ∉ l := by decide) : t.glb.irq = s.glb.irq ∧ t.glb.vectors = s.glb.vectors ∧ t.glb.pba = s.glb.pba := h .signals hl
theorem Touch.sup_eq {l : List Fld} {s t : State} (h : Touch l s t) (hl : Fld.sup ∉ l := by decide) : t.sup = s.sup := h .sup hl
theorem Touch.nv_eq {l : List Fld} {s t : State} (h : Touch l s t) (hl : Fld.nv ∉ l := by decide) : t.nv = s.nv := h .nv hl
theorem Touch.tbs_eq {l : List Fld} {s t : State} (h : Touch l s t) (hl : Fld.tbs ∉ l := by decide) : t.tbs = s.tbs := h .tbs hl
theorem Touch.wafer_eq {l : List Fld} {s t : State} (h : Touch l s t) (hl : Fld.wafer ∉ l := by decide) : t.wafer = s.wafer := h .wafer hl
theorem Touch.pwr_eq {l : List Fld} {s t : State} (h : Touch l s t) (hl : Fld.pwr ∉ l := by decide) : t.pwr = s.pwr := h .pwr hl
theorem Touch.regions_eq {l : List Fld} {s t : State} (h : Touch l s t) (hl : Fld.regions ∉ l := by decide) : t.regions = s.regions := h .regions hl
theorem Touch.parts_eq {l : List Fld} {s t : State} (h : Touch l s t) (hl : Fld.parts ∉ l := by decide) : t.parts = s.parts := h .parts hl
theorem Touch.bays_eq {l : List Fld} {s t : State} (h : Touch l s t) (hl : Fld.bays ∉ l := by decide) : t.bays = s.bays := h .bays hl
theorem Touch.imgs_eq {l : List Fld} {s t : State} (h : Touch l s t) (hl : Fld.imgs ∉ l := by decide) : t.imgs = s.imgs := h .imgs hl
theorem Touch.snds_eq {l : List Fld} {s t : State} (h : Touch l s t) (hl : Fld.snds ∉ l := by decide) : t.snds = s.snds := h .snds hl
theorem Touch.encs_eq {l : List Fld} {s t : State} (h : Touch l s t) (hl : Fld.encs ∉ l := by decide) : t.encs = s.encs := h .encs hl
theorem Touch.pins_eq {l : List Fld} {s t : State} (h : Touch l s t) (hl : Fld.pins ∉ l := by decide) : t.pins = s.pins := h .pins hl
theorem Touch.allocHeld_eq {l : List Fld} {s t : State} (h : Touch l s t) (hl : Fld.allocHeld ∉ l := by decide) : t.allocHeld = s.allocHeld := h .allocHeld hl
theorem Touch.exps_eq {l : List Fld} {s t : State} (h : Touch l s t) (hl : Fld.exps ∉ l := by decide) : t.exps = s.exps := h .exps hl
theorem Touch.arbLast_eq {l : List Fld} {s t : State} (h : Touch l s t) (hl : Fld.arbLast ∉ l := by decide) : t.arbLast = s.arbLast := h .arbLast hl
theorem Touch.spa_eq {l : List Fld} {s t : State} (h : Touch l s t) (hl : Fld.spa ∉ l := by decide) : t.spa = s.spa := h .spa hl
theorem Touch.spb_eq {l : List Fld} {s t : State} (h : Touch l s t) (hl : Fld.spb ∉ l := by decide) : t.spb = s.spb := h .spb hl
theorem Touch.flt_eq {l : List Fld} {s t : State} (h : Touch l s t) (hl : Fld.flt ∉ l := by decide) : t.flt.entries = s.flt.entries ∧ t.flt.nextSeq = s.flt.nextSeq ∧ t.flt.suppressed = s.flt.suppressed := h .flt hl
theorem Touch.fltView_eq {l : List Fld} {s t : State} (h : Touch l s t) (hl : Fld.fltView ∉ l := by decide) : t.flt.sel = s.flt.sel ∧ t.flt.data = s.flt.data := h .fltView hl
theorem Touch.defPage_eq {l : List Fld} {s t : State} (h : Touch l s t) (hl : Fld.defPage ∉ l := by decide) : t.defPage = s.defPage := h .defPage hl
theorem Touch.cenSel_eq {l : List Fld} {s t : State} (h : Touch l s t) (hl : Fld.cenSel ∉ l := by decide) : t.cenSel = s.cenSel := h .cenSel hl
theorem Touch.tiles_eq {l : List Fld} {s t : State} (h : Touch l s t) (hl : Fld.tiles ∉ l := by decide) : t.tiles = s.tiles := h .tiles hl
theorem Touch.mem_eq {l : List Fld} {s t : State} (h : Touch l s t) (hl : Fld.mem ∉ l := by decide) : t.mem = s.mem := h .mem hl
theorem Touch.freeCount_eq {l : List Fld} {s t : State} (h : Touch l s t) (hl : Fld.freeCount ∉ l := by decide) : t.freeCount = s.freeCount := h .freeCount hl

end Sys2Proof.Machine
end

