-- ==== Sys2Proof/Laws/Keeps.lean ====
section
/-! SUPPORT. What a change of the state keeps: `Keeps l ps s t` says that `t` differs from `s` at most in the fields `l`, that only the
partitions and bays of `ps` may differ, and that the invariant stands in `t` if it stands in `s`. -/

namespace Sys2Proof.Machine

-- One proof at a time: a default argument that is a tactic waits for every proof before it.
set_option Elab.async false

/-- Only the fields of `l` and the partitions and bays of `ps` differ, and the invariant is kept. -/
structure Keeps (l : List Fld) (ps : List PartId) (s t : State) : Prop where
  touch : Touch l s t
  others : ∀ q : PartId, q ∉ ps → t.parts[q] = s.parts[q] ∧ t.bays[q] = s.bays[q]
  inv : Inv s → Inv t

/-- A command that completes with a state that keeps. -/
def Ends (l : List Fld) (ps : List PartId) (s : State) (o : Host.Outcome State Fault Refusal) : Prop :=
  ∃ t, o = .next t ∧ Keeps l ps s t

theorem mem_allParts (q : PartId) : q ∈ allParts := by revert q; decide

theorem subset_allParts (l : List PartId) : l ⊆ allParts := fun q _ => mem_allParts q

/-- The fields the invariant speaks of stand alike. -/
theorem Inv.of_same {s t : State} (h : Inv s) (hm : t.mem = s.mem) (ht : t.tiles = s.tiles) (hr : t.regions = s.regions)
    (hf : t.flt = s.flt) (hg : t.glb = s.glb) (hw : t.wafer = s.wafer) : Inv t where
  store := by unfold storeOk; rw [hm, ht]; exact h.store
  supplies := by unfold suppliesOk; rw [hr]; exact h.supplies
  log := by rw [hf]; exact h.log
  vectors := by rw [hg]; exact h.vectors
  lanes := by rw [hw]; exact h.lanes

/-! ### The pieces of the invariant -/

theorem shift_bit_ne {v w : Nat} (h : v ≠ w) (hw : w < 32) : ((1 : Word) <<< v).getLsbD w = false := by
  simp only [BitVec.getLsbD_shiftLeft, hw, decide_true, Bool.true_and]
  rcases Nat.lt_or_gt_of_ne h with h | h <;> simp <;> omega

/-- A message on a vector below 22 leaves the reserved vectors silent. -/
theorem sendVector_ok (g : Glb) (v : Fin 32) (hv : v.val < 22) (h : vectorsOk g) : vectorsOk (sendVector g v) := by
  intro w hw
  obtain ⟨h1, h2, h3⟩ := h w hw
  have hne : v.val ≠ w.val := by omega
  have hs := shift_bit_ne hne w.isLt
  unfold sendVector
  split
  · exact ⟨h1, h2, by simp only [BitVec.getLsbD_or, h3, hs, Bool.or_self]⟩
  · refine ⟨?_, h2, by simp only [BitVec.getLsbD_and, h3, Bool.false_and]⟩
    have : (g.vectors.set v.val (g.vectors[v] + 1) v.isLt)[w.val] = g.vectors[w.val] := by
      rw [Vector.getElem_set_ne]
      exact hne
    exact this.trans h1

/-- One more entry, numbered next, keeps the log in order. -/
theorem logOk_cons (f : FaultLog) (e : LogEntry) (he : e.seq = f.nextSeq) (h : logOk f) :
    logOk { f with entries := (e :: f.entries).take 4096, nextSeq := f.nextSeq + 1 } := by
  refine ⟨by simp, ?_⟩
  intro i hi
  simp only [List.length_take, List.length_cons, Nat.lt_min] at hi
  simp only [List.getElem_take]
  cases i with
  | zero => simpa using he
  | succ n =>
    have := h.2 n (by omega)
    simp only [List.getElem_cons_succ]
    omega

namespace Keeps

variable {l m : List Fld} {ps qs : List PartId} {s t u : State}

theorem refl (l : List Fld) {ps : List PartId} (s : State) : Keeps l ps s s := ⟨Touch.refl l s, fun _ _ => ⟨rfl, rfl⟩, id⟩

theorem trans (h : Keeps l ps s t) (k : Keeps l ps t u) : Keeps l ps s u :=
  ⟨h.touch.trans k.touch, fun q hq => ⟨(k.others q hq).1.trans (h.others q hq).1, (k.others q hq).2.trans (h.others q hq).2⟩,
   fun i => k.inv (h.inv i)⟩

theorem mono (h : Keeps l ps s t) (hl : l ⊆ m) (hp : ps ⊆ qs) : Keeps m qs s t :=
  ⟨h.touch.mono hl, fun q hq => h.others q (fun hm => hq (hp hm)), h.inv⟩

/-- One more change, whose fields and partitions are among those allowed. -/
theorem step (k : Keeps l ps t u) (hl : l ⊆ m) (h : Keeps m qs s t)
    (hp : ps ⊆ qs := by first | exact List.Subset.refl _ | exact List.nil_subset _ | exact subset_allParts _) : Keeps m qs s u :=
  h.trans (k.mono hl hp)

/-- A conditional change. -/
theorem ite {c : Prop} [Decidable c] (h : c → Keeps m ps s t) (k : ¬c → Keeps m ps s u) : Keeps m ps s (if c then t else u) := by
  split
  · exact h ‹_›
  · exact k ‹_›

/-- A fold whose every turn keeps, keeps. -/
theorem foldl {α : Type} {s0 : State} (f : State → α → State) (hf : ∀ t a, Keeps m ps s0 t → Keeps m ps s0 (f t a)) :
    ∀ (l : List α) (s : State), Keeps m ps s0 s → Keeps m ps s0 (l.foldl f s)
  | [], _, h => h
  | a :: l, s, h => foldl f hf l (f s a) (hf s a h)

/-- A state written out over `t`, with the invariant's own proof. -/
theorem litInv (h : Keeps m ps s t) (k : Touch m t u) (hi : Inv t → Inv u)
    (ho : ∀ q : PartId, q ∉ ps → u.parts[q] = t.parts[q] ∧ u.bays[q] = t.bays[q] := by
      first | exact fun q hq => absurd (mem_allParts q) hq | exact fun _ _ => ⟨rfl, rfl⟩) : Keeps m ps s u :=
  h.trans ⟨k, ho, hi⟩

/-- A state written out over `t`, none of whose changes the invariant speaks of. -/
theorem lit (h : Keeps m ps s t) (k : Touch m t u)
    (ho : ∀ q : PartId, q ∉ ps → u.parts[q] = t.parts[q] ∧ u.bays[q] = t.bays[q] := by
      first | exact fun q hq => absurd (mem_allParts q) hq | exact fun _ _ => ⟨rfl, rfl⟩)
    (hm : u.mem = t.mem := by rfl) (ht : u.tiles = t.tiles := by rfl) (hr : u.regions = t.regions := by rfl)
    (hf : u.flt = t.flt := by rfl) (hg : u.glb = t.glb := by rfl) (hw : u.wafer = t.wafer := by rfl) : Keeps m ps s u :=
  h.trans ⟨k, ho, fun i => i.of_same hm ht hr hf hg hw⟩

end Keeps

theorem Ends.next {l : List Fld} {ps : List PartId} {s t : State} (h : Keeps l ps s t) : Ends l ps s (.next t) := ⟨t, rfl, h⟩

/-- The next state of a command that ends so keeps. -/
theorem Ends.keeps {l : List Fld} {ps : List PartId} {s t : State} {o : Host.Outcome State Fault Refusal} (h : Ends l ps s o)
    (ho : o = .next t) : Keeps l ps s t := by
  obtain ⟨u, hu, k⟩ := h
  rw [hu] at ho
  cases ho
  exact k

/-- What a command does to a unit that is up. -/
theorem Ends.whenUp {l : List Fld} {ps : List PartId} {s t : State} (h : Keeps l ps s t) : Ends l ps s (whenUp s t) :=
  .next (.ite (fun _ => h) (fun _ => .refl _ _))

end Sys2Proof.Machine
end

