-- ==== Sys2Proof/Laws/KeepsOps.lean ====
section
/-! SUPPORT. What the helpers of the model keep: the shared operations and a partition's life. One lemma a helper; claims cite it instead of unfolding the helper. -/

namespace Sys2Proof.Machine

-- One proof at a time: a default argument that is a tactic waits for every proof before it.
set_option Elab.async false

/-! ### Ops.lean -/

/-- Another entry of a vector is as before. -/
theorem set_other {α : Type} {n : Nat} (v : Vector α n) (i j : Fin n) (x : α) (h : j ≠ i) : (v.set i.val x i.isLt)[j] = v[j] := by
  show (v.set i.val x i.isLt)[j.val] = v[j.val]
  rw [Vector.getElem_set_ne]
  exact fun hv => h (Fin.ext hv.symm)

theorem updPart_keeps (s : State) (p : PartId) (f : Partition → Partition) : Keeps [.parts] [p] s (updPart s p f) :=
  .lit (.refl _ _) .lit (fun q hq => ⟨set_other _ p q _ (by simpa using hq), rfl⟩)

/-- A region after a change that keeps it in order as it stands. -/
theorem updRegion_keepsAt (s : State) (r : RegionId) (f : Region → Region)
    (hf : regionOk s.regions[r] → regionOk (f s.regions[r])) :
    Keeps [.regions] [] s (updRegion s r f) := by
  refine .litInv (t := s) (.refl _ _) .lit (fun h => ⟨h.store, ?_, h.log, h.vectors, h.lanes⟩)
  intro q
  by_cases hq : q = r
  · subst hq
    have : (updRegion s q f).regions[q] = f s.regions[q] := by simp
    rw [this]
    exact hf (h.supplies q)
  · have : (updRegion s r f).regions[q] = s.regions[q] := updRegion_other s r f q hq
    rw [this]
    exact h.supplies q

/-- A region after a change that keeps any region in order. -/
theorem updRegion_keeps (s : State) (r : RegionId) (f : Region → Region)
    (hf : ∀ g, regionOk g → regionOk (f g) := by
      intro g hg
      first
      | exact hg
      | (obtain ⟨h1, h2, h3⟩ := hg; refine ⟨?_, ?_, ?_⟩ <;> simp_all [setVdd] <;> (try split) <;> (try simp_all) <;> omega)) :
    Keeps [.regions] [] s (updRegion s r f) :=
  updRegion_keepsAt s r f (fun h => hf _ h)

theorem updBay_keeps (s : State) (b : BayId) (f : Bay → Bay) : Keeps [.bays] [b] s (updBay s b f) :=
  .lit (.refl _ _) .lit (fun q hq => ⟨rfl, set_other _ b q _ (by simpa using hq)⟩)

theorem updImg_keeps (s : State) (c : ImgId) (f : ImgConn → ImgConn) : Keeps [.imgs] [] s (updImg s c f) := .lit (.refl _ _) .lit

theorem updSnd_keeps (s : State) (c : SndId) (f : Snd → Snd) : Keeps [.snds] [] s (updSnd s c f) := .lit (.refl _ _) .lit

theorem updEnc_keeps (s : State) (e : EncId) (f : Enc → Enc) : Keeps [.encs] [] s (updEnc s e f) := .lit (.refl _ _) .lit

theorem updPin_keeps (s : State) (n : PinId) (f : Pin → Pin) : Keeps [.pins] [] s (updPin s n f) := .lit (.refl _ _) .lit

theorem updExp_keeps (s : State) (p : PartId) (f : Exp → Exp) : Keeps [.exps] [] s (updExp s p f) := .lit (.refl _ _) .lit

theorem updSpn_keeps (s : State) (q : SpanPort) (f : Spn → Spn) : Keeps [.spa, .spb] [] s (updSpn s q f) := by
  cases q
  · exact .lit (.refl _ _) .lit
  · exact .lit (.refl _ _) .lit

theorem updTile_keeps (s : State) (t : Nat) (f : Tile → Tile) : Keeps [.tiles] [] s (updTile s t f) :=
  .litInv (t := s) (.refl _ _) .lit (fun h => ⟨⟨h.store.1, updTile_wf s t f h.store.2⟩, h.supplies, h.log, h.vectors, h.lanes⟩)

theorem updImgs_keeps (s : State) (f : ImgConn → ImgConn) : Keeps [.imgs] [] s (updImgs s f) := .lit (.refl _ _) .lit

theorem updSnds_keeps (s : State) (f : Snd → Snd) : Keeps [.snds] [] s (updSnds s f) := .lit (.refl _ _) .lit

theorem updPins_keeps (s : State) (f : Pin → Pin) : Keeps [.pins] [] s (updPins s f) := .lit (.refl _ _) .lit

theorem updRegions_keeps (s : State) (f : Region → Region)
    (hf : ∀ g, regionOk g → regionOk (f g) := by
      intro g hg
      first
      | exact hg
      | (obtain ⟨h1, h2, h3⟩ := hg; refine ⟨?_, ?_, ?_⟩ <;> simp_all [setVdd] <;> (try split) <;> (try simp_all) <;> omega)) :
    Keeps [.regions] [] s (updRegions s f) := by
  refine .litInv (t := s) (.refl _ _) .lit (fun h => ⟨h.store, ?_, h.log, h.vectors, h.lanes⟩)
  intro q
  have : (updRegions s f).regions[q] = f s.regions[q] := by simp [updRegions]
  rw [this]
  exact hf _ (h.supplies q)

theorem updExps_keeps (s : State) (f : Exp → Exp) : Keeps [.exps] [] s (updExps s f) := .lit (.refl _ _) .lit

theorem updPartRegs_keeps (s : State) (p : PartId) (f : PrtRegs → PrtRegs) : Keeps [.parts] [p] s (updPartRegs s p f) := by
  unfold updPartRegs
  exact .step (updPart_keeps _ _ _) (by decide) (.refl _ _)

theorem updFlow_keeps (s : State) (p : PartId) (f : Flow → Flow) : Keeps [.parts] [p] s (updFlow s p f) := by
  unfold updFlow
  exact .step (updPart_keeps _ _ _) (by decide) (.refl _ _)

theorem updFabric_keeps (s : State) (p : PartId) (f : Fabric → Fabric) : Keeps [.parts] [p] s (updFabric s p f) := by
  unfold updFabric
  exact .step (updPart_keeps _ _ _) (by decide) (.refl _ _)

theorem updLoad_keeps (s : State) (p : PartId) (f : Load → Load) : Keeps [.parts] [p] s (updLoad s p f) := by
  unfold updLoad
  exact .step (updPart_keeps _ _ _) (by decide) (.refl _ _)

theorem updCensus_keeps (s : State) (p : PartId) (f : Census → Census) : Keeps [.parts] [p] s (updCensus s p f) := by
  unfold updCensus
  exact .step (updPart_keeps _ _ _) (by decide) (.refl _ _)

/-- A message on a vector below 22. -/
theorem irq_keeps (s : State) (v : Fin 32) (hv : v.val < 22 := by first | decide | (simp only [partVector, ringVector]; omega)) :
    Keeps [.signals] [] s (irq s v) := by
  have hq : (irq s v).glb.quiet = s.glb.quiet := by
    unfold irq sendVector Glb.quiet
    dsimp only
    split <;> rfl
  refine .litInv (t := s) (.refl _ _) (.lit (hglb := Or.inl hq)) (fun h => ⟨h.store, h.supplies, h.log, ?_, h.lanes⟩)
  exact sendVector_ok _ v hv (fun w hw => by
    have := h.vectors w hw
    refine ⟨this.1, ?_, this.2.2⟩
    simp only [BitVec.getLsbD_or, this.2.1, Bool.false_or]
    exact shift_bit_ne (v := v.val) (w := w.val) (by omega) w.isLt)

theorem logEvent_keeps (s : State) (code index d0 d1 : Nat) (isEnd : Bool) : Keeps [.flt] [] s (logEvent s code index d0 d1 isEnd) := by
  unfold logEvent
  refine .ite (fun _ => ?_) (fun _ => ?_)
  · exact .litInv (t := s) (.refl _ _) .lit (fun h => ⟨h.store, h.supplies, h.log, h.vectors, h.lanes⟩)
  · exact .litInv (t := s) (.refl _ _) .lit (fun h => ⟨h.store, h.supplies, logOk_cons _ _ rfl h.log, h.vectors, h.lanes⟩)

theorem logPlain_keeps (s : State) (code index : Nat) : Keeps [.flt] [] s (logPlain s code index) := by
  unfold logPlain
  exact .step (logEvent_keeps _ _ _ _ _ _) (by decide) (.refl _ _)

theorem logIrq_keeps (s : State) (code index d0 d1 : Nat) (isEnd : Bool) (v : Fin 32) (hv : v.val < 22 := by decide) :
    Keeps [.signals, .flt] [] s (logIrq s code index d0 d1 isEnd v) :=
  .step (irq_keeps _ _ hv) (by decide) (.step (logEvent_keeps _ _ _ _ _ _) (by decide) (.refl _ _))

theorem setPState_keeps (s : State) (p : PartId) (st : PState) : Keeps [.signals, .parts] [p] s (setPState s p st) := by
  unfold setPState
  refine .ite (fun _ => ?_) (fun _ => ?_)
  · exact .refl _ _
  · exact .step (irq_keeps _ _) (by decide) (.step (updPart_keeps _ _ _) (by decide) (.refl _ _))

theorem setCause_keeps (s : State) (p : PartId) (c : Nat) : Keeps [.signals, .parts] [p] s (setCause s p c) := by
  unfold setCause
  extract_lets +onlyGivenNames v1
  have hv1 : Keeps [.signals, .parts] [p] s v1 :=
    .step (updPartRegs_keeps _ _ _) (by decide) (.refl _ _)
  clear_value v1
  refine .ite (fun _ => ?_) (fun _ => ?_)
  · exact .step (irq_keeps _ _) (by decide) hv1
  · exact hv1

theorem logPart_keeps (s : State) (p : PartId) (code d0 : Nat) : Keeps [.flt] [] s (logPart s p code d0) := by
  unfold logPart
  exact .step (logEvent_keeps _ _ _ _ _ _) (by decide) (.refl _ _)

/-! ### Pages.lean -/

theorem exportPump_keeps (s0 : State) : Keeps [.exps, .arbLast] [] s0 (exportPump s0) := by
  unfold exportPump
  extract_lets +onlyGivenNames v1
  have hv1 : Keeps [.exps, .arbLast] [] s0 v1 :=
    .step (updExps_keeps _ _) (by decide) (.refl _ _)
  clear_value v1
  refine .ite (fun _ => ?_) (fun _ => ?_)
  · exact hv1
  · split
    · exact hv1
    · extract_lets +onlyGivenNames u2
      have hu2 : Keeps [.exps, .arbLast] [] s0 u2 :=
        .step (updExp_keeps _ _ _) (by decide) hv1
      clear_value u2
      exact .lit (t := u2) hu2 .lit
    · extract_lets +onlyGivenNames v3
      have hv3 : Keeps [.exps, .arbLast] [] s0 v3 := by
        unfold v3
        refine .ite (fun _ => ?_) (fun _ => ?_)
        · exact .step (updExps_keeps _ _) (by decide) hv1
        · exact hv1
      clear_value v3
      exact .step (updExp_keeps _ _ _) (by decide) hv3

theorem enterRec_keeps (s : State) (p : PartId) (r : ERec) : Keeps [.exps, .arbLast] [] s (enterRec s p r) := by
  unfold enterRec
  exact .step (exportPump_keeps _) (by decide) (.step (updExp_keeps _ _ _) (by decide) (.refl _ _))

theorem closeExport_keeps (s : State) (p : PartId) : Keeps [.exps, .arbLast] [] s (closeExport s p) := by
  unfold closeExport
  exact .step (exportPump_keeps _) (by decide) (.step (updExp_keeps _ _ _) (by decide) (.refl _ _))

theorem notAccepted_keeps (s : State) (p : PartId) (n first last : Nat) (frames : Bool) : Keeps [.parts] [p] s (notAccepted s p n first last frames) := by
  unfold notAccepted
  refine .ite (fun _ => ?_) (fun _ => ?_)
  · exact .refl _ _
  · exact .step (updPart_keeps _ _ _) (by decide) (.refl _ _)

theorem endGap_keeps (s : State) (p : PartId) : Keeps [.parts, .exps, .arbLast] [p] s (endGap s p) := by
  unfold endGap
  split
  · exact .refl _ _
  · exact .step (enterRec_keeps _ _ _) (by decide) (.step (updFlow_keeps _ _ _) (by decide) (.refl _ _))

/-! ### Placement.lean -/

theorem commitMap_keeps (s : State) (m : DefMap) : Keeps [.wafer] [] s (commitMap s m) := by
  unfold commitMap
  refine .ite (fun _ => ?_) (fun _ => ?_)
  · exact .litInv (t := s) (.refl _ _) .lit (fun h => ⟨h.store, h.supplies, h.log, h.vectors, h.lanes⟩)
  · exact .litInv (t := s) (.refl _ _) .lit (fun h => ⟨h.store, h.supplies, h.log, h.vectors, h.lanes⟩)

theorem mapRegions_keeps (s : State) (rs : List RegionId) (f : Region → Region)
    (hf : ∀ g, regionOk g → regionOk (f g) := by
      intro g hg
      first
      | exact hg
      | (obtain ⟨h1, h2, h3⟩ := hg; refine ⟨?_, ?_, ?_⟩ <;> simp_all [setVdd] <;> (try split) <;> (try simp_all) <;> omega)) :
    Keeps [.regions] [] s (mapRegions s rs f) :=
  .foldl _ (fun _ _ h => .step (updRegion_keeps _ _ _ hf) (by decide) h) _ _ (.refl _ _)

theorem holdRegions_keeps (s : State) (p : PartId) (rs : List RegionId) : Keeps [.regions] [] s (holdRegions s p rs) := by
  unfold holdRegions
  exact .step (mapRegions_keeps _ _ _) (by decide) (.refl _ _)

theorem openGate_keeps (s : State) (a b : RegionId) : Keeps [.regions] [] s (openGate s a b) := by
  unfold openGate
  split
  · exact .step (updRegion_keeps _ _ _) (by decide) (.refl _ _)
  · exact .refl _ _

theorem openPath_keeps : ∀ (s : State) (rs : List RegionId), Keeps [.regions] [] s (openPath s rs)
  | s, [] => .refl _ _
  | s, [_] => .refl _ _
  | s, a :: b :: rest =>
    (openPath_keeps (openGate (openGate s a b) b a) (b :: rest)).step (by decide)
      (.step (openGate_keeps _ _ _) (by decide) (.step (openGate_keeps _ _ _) (by decide) (.refl _ _)))

/-- Every tile changes by itself; those that come to the default are listed no more. -/
theorem mapAllTiles_keeps (s : State) (f : Nat → Tile → Tile) :
    Keeps [.tiles] [] s { s with tiles := (s.tiles.map (fun c => (c.1, f c.1 c.2))).filter (fun c => decide (c.2 ≠ {})) } :=
  .litInv (t := s) (.refl _ _) .lit (fun h => ⟨⟨h.store.1, tabWf_mapFilter _ (fun c => (c.1, f c.1 c.2)) (fun _ => rfl) _ h.store.2⟩,
    h.supplies, h.log, h.vectors, h.lanes⟩)

theorem closeGates_keeps (s : State) (r : RegionId) : Keeps [.regions, .tiles] [] s (closeGates s r) := by
  unfold closeGates
  extract_lets +onlyGivenNames v1 v2
  have hv1 : Keeps [.regions, .tiles] [] s v1 :=
    .step (updRegion_keeps _ _ _) (by decide) (.refl _ _)
  clear_value v1
  have hv2 : Keeps [.regions, .tiles] [] s v2 := by
    unfold v2
    refine .foldl _ (fun v3 a4 hv3 => ?_) _ _ hv1
    split
    · exact .step (updRegion_keeps _ _ _) (by decide) hv3
    · exact hv3
  clear_value v2
  exact .step (mapAllTiles_keeps _ _) (by decide) hv2

theorem closeAllGates_keeps (s : State) (rs : List RegionId) : Keeps [.regions, .tiles] [] s (closeAllGates s rs) := by
  unfold closeAllGates
  refine .foldl _ (fun v1 a2 hv1 => .step (closeGates_keeps _ _) (by decide) hv1) _ _ ?_
  exact .refl _ _

theorem scrubRegions_keeps (s : State) (rs : List RegionId) : Keeps [.regions, .tiles, .mem] [] s (scrubRegions s rs) :=
  .step (mapRegions_keeps _ _ _) (by decide) (.litInv (t := s) (.refl _ _) .lit (fun h =>
    ⟨⟨Memory.clear_wf s.mem (fun a => rs.contains (tileRegion (a / 16384))) h.store.1, tabWf_filter _ (fun c => !rs.contains (tileRegion c.1)) _ h.store.2⟩, h.supplies, h.log, h.vectors, h.lanes⟩))

theorem reportGrade_keeps (s : State) : Keeps [.signals, .flt] [] s (reportGrade s) := by
  unfold reportGrade
  refine .ite (fun _ => ?_) (fun _ => ?_)
  · exact .step (logIrq_keeps _ _ _ _ _ _ _) (by decide) (.refl _ _)
  · exact .refl _ _

theorem loseRegion_keeps (s : State) (r : RegionId) : Keeps [.signals, .wafer, .regions, .flt] [] s (loseRegion s r) := by
  unfold loseRegion
  extract_lets +onlyGivenNames w1 w2 w3 w4 v5
  have hv5 : Keeps [.signals, .wafer, .regions, .flt] [] s v5 :=
    .step (commitMap_keeps _ _) (by decide) (.step (updRegion_keeps _ _ _) (by decide) (.refl _ _))
  clear_value v5
  exact .step (reportGrade_keeps _) (by decide) (.step (logPlain_keeps _ _ _) (by decide) hv5)

/-! ### SpanFrames.lean -/

theorem sendMsg_keeps (s : State) (q : SpanPort) (m : List Byte) : Keeps [.spa, .spb] [] s (sendMsg s q m) := by
  unfold sendMsg
  exact .step (updSpn_keeps _ _ _) (by decide) (.refl _ _)

theorem sendAll_keeps (s : State) (p : PartId) (keep : SpanPort → Bool) (m : List Byte) : Keeps [.spa, .spb] [] s (sendAll s p keep m) := by
  unfold sendAll
  refine .foldl _ (fun v1 a2 hv1 => ?_) _ _ ?_
  · exact .step (sendMsg_keeps _ _ _) (by decide) hv1
  · exact .refl _ _

/-! ### Lifecycle.lean -/

theorem failPins_keeps (s : State) (p : PartId) : Keeps [.pins] [] s (failPins s p) := by
  unfold failPins
  exact .step (updPins_keeps _ _) (by decide) (.refl _ _)

theorem failLoadingPins_keeps (s : State) (p : PartId) : Keeps [.pins] [] s (failLoadingPins s p) := by
  unfold failLoadingPins
  exact .step (updPins_keeps _ _) (by decide) (.refl _ _)

theorem releasePins_keeps (s : State) (p : PartId) : Keeps [.pins] [] s (releasePins s p) := by
  unfold releasePins
  exact .step (updPins_keeps _ _) (by decide) (.refl _ _)

theorem releasePorts_keeps (s : State) (p : PartId) : Keeps [.imgs, .snds, .spa, .spb] [] s (releasePorts s p) := by
  unfold releasePorts
  extract_lets +onlyGivenNames v1 v2
  have hv1 : Keeps [.imgs, .snds, .spa, .spb] [] s v1 :=
    .step (updImgs_keeps _ _) (by decide) (.refl _ _)
  clear_value v1
  have hv2 : Keeps [.imgs, .snds, .spa, .spb] [] s v2 :=
    .step (updSnds_keeps _ _) (by decide) hv1
  clear_value v2
  refine .foldl _ (fun v3 a4 hv3 => ?_) _ _ ?_
  · exact .step (updSpn_keeps _ _ _) (by decide) hv3
  · exact hv2

theorem quietPorts_keeps (s : State) (p : PartId) : Keeps [.imgs, .snds] [] s (quietPorts s p) := by
  unfold quietPorts
  extract_lets +onlyGivenNames v1
  have hv1 : Keeps [.imgs, .snds] [] s v1 :=
    .step (updImgs_keeps _ _) (by decide) (.refl _ _)
  clear_value v1
  exact .step (updSnds_keeps _ _) (by decide) hv1

theorem abortSpan_keeps (s : State) (p : PartId) (cause : Nat) (keep : SpanPort → Bool) : Keeps [.spa, .spb] [] s (abortSpan s p cause keep) := by
  unfold abortSpan
  split
  · exact .refl _ _
  · exact .step (sendAll_keeps _ _ _ _) (by decide) (.refl _ _)

theorem freeLanes_keeps (s : State) (p : PartId) : Keeps [.wafer, .parts] [p] s (freeLanes s p) := by
  unfold freeLanes
  extract_lets held u1 s1
  have h1 : Keeps [.wafer, .parts] [p] s s1 := by
    unfold s1
    refine .litInv (t := s) (.refl _ _) .lit (fun h => ⟨h.store, h.supplies, h.log, h.vectors, ?_⟩)
    intro e
    have := h.lanes e
    simp only [Fin.getElem_fin, Vector.getElem_ofFn] at this ⊢
    omega
  exact .step (updLoad_keeps _ _ _) (by decide) h1

theorem takeLanes_keeps (s : State) (p : PartId) (t : State) (ht : takeLanes s p = some t) : Keeps [.wafer, .parts] [p] s t := by
  unfold takeLanes at ht
  split at ht
  · exact absurd ht (by simp)
  · rename_i l _
    extract_lets need u1 s1 at ht
    split at ht
    · rename_i hc
      have h1 : Keeps [.wafer, .parts] [p] s s1 := by
        unfold s1
        refine .litInv (t := s) (.refl _ _) .lit (fun h => ⟨h.store, h.supplies, h.log, h.vectors, ?_⟩)
        intro e
        have := h.lanes e
        have hn := List.all_eq_true.mp hc.2 e
        by_cases he : e ∈ need
        · have := of_decide_eq_true (hn he)
          simp only [Fin.getElem_fin, Vector.getElem_ofFn, boolNat] at this ⊢
          split <;> omega
        · have hc : need.contains e = false := by simpa using he
          simp only [Fin.getElem_fin, Vector.getElem_ofFn, hc, boolNat, Fin.eta] at this ⊢
          simpa using this
      injection ht with ht
      subst ht
      exact .step (updLoad_keeps _ _ _) (by decide) h1
    · exact absurd ht (by simp)

theorem joinLanes_keeps (s : State) (p : PartId) : Keeps [.wafer] [] s (joinLanes s p) :=
  .litInv (t := s) (.refl _ _) .lit (fun h => ⟨h.store, h.supplies, h.log, h.vectors, h.lanes⟩)

theorem acceptLoad_keeps (s : State) (p : PartId) (turn : Option Nat) (l : Load) :
    Keeps [.wafer, .parts] [p] s (acceptLoad s p turn l) := by
  unfold acceptLoad
  extract_lets n w v2
  have hv2 : Keeps [.wafer, .parts] [p] s v2 :=
    .litInv (t := s) (.refl _ _) .lit (fun h => ⟨h.store, h.supplies, h.log, h.vectors, h.lanes⟩)
  clear_value v2
  exact .step (joinLanes_keeps _ _) (by decide) (.step (updPart_keeps _ _ _) (by decide) hv2)

theorem mapTiles_keeps (s : State) (rs : List RegionId) (f : Tile → Tile) : Keeps [.tiles] [] s (mapTiles s rs f) :=
  .litInv (t := s) (.refl _ _) .lit (fun h => ⟨⟨h.store.1, tabWf_mapFilter _ _ (fun c => by split <;> rfl) _ h.store.2⟩,
    h.supplies, h.log, h.vectors, h.lanes⟩)

theorem clearClaims_keeps (s : State) (gone kept : List Claim) : Keeps [.mem] [] s (clearClaims s gone kept) :=
  .litInv (t := s) (.refl _ _) .lit (fun h => ⟨⟨tabWf_filter _ _ _ h.store.1, h.store.2⟩, h.supplies, h.log, h.vectors, h.lanes⟩)

theorem dropStaged_keeps (s : State) (p : PartId) : Keeps [.parts, .tiles, .mem] [p] s (dropStaged s p) := by
  unfold dropStaged
  extract_lets +onlyGivenNames w1 v2 v3
  have hv2 : Keeps [.parts, .tiles, .mem] [p] s v2 :=
    .step (mapTiles_keeps _ _ _) (by decide) (.refl _ _)
  clear_value v2
  have hv3 : Keeps [.parts, .tiles, .mem] [p] s v3 :=
    .step (clearClaims_keeps _ _ _) (by decide) hv2
  clear_value v3
  exact .step (updFabric_keeps _ _ _) (by decide) hv3

theorem freeRegion_keeps (s : State) (r : RegionId) : Keeps [.regions] [] s (freeRegion s r) := by
  unfold freeRegion
  exact .step (updRegion_keeps _ _ _) (by decide) (.refl _ _)

theorem retireRegion_keeps (s : State) (r : RegionId) : Keeps [.regions, .tiles] [] s (retireRegion s r) := by
  unfold retireRegion
  exact .step (updRegion_keeps _ _ _) (by decide) (.step (closeGates_keeps _ _) (by decide) (.refl _ _))

theorem endScrub_keeps (s : State) (rs failed : List RegionId) : Keeps [.signals, .wafer, .regions, .flt, .tiles, .mem] [] s (endScrub s rs failed) := by
  unfold endScrub
  refine .foldl _ (fun v1 a2 hv1 => ?_) _ _ ?_
  · refine .ite (fun _ => ?_) (fun _ => ?_)
    · exact .step (updRegion_keeps _ _ _) (by decide) (.step (scrubRegions_keeps _ _) (by decide) hv1)
    · refine .ite (fun _ => ?_) (fun _ => ?_)
      · exact .step (scrubRegions_keeps _ _) (by decide) (.step (retireRegion_keeps _ _) (by decide) hv1)
      · extract_lets +onlyGivenNames v3
        have hv3 : Keeps [.signals, .wafer, .regions, .flt, .tiles, .mem] [] s v3 :=
          .step (scrubRegions_keeps _ _) (by decide) hv1
        clear_value v3
        refine .ite (fun _ => ?_) (fun _ => ?_)
        · exact .step (updRegion_keeps _ _ _) (by decide) (.step (loseRegion_keeps _ _) (by decide) hv3)
        · exact .step (freeRegion_keeps _ _) (by decide) hv3
  · exact .refl _ _

theorem cancelCensus_keeps (s : State) (p : PartId) : Keeps [.parts] [p] s (cancelCensus s p) := by
  unfold cancelCensus
  exact .step (updCensus_keeps _ _ _) (by decide) (.refl _ _)

theorem finalCensus_keeps (s : State) (p : PartId) : Keeps [.parts] [p] s (finalCensus s p) := by
  unfold finalCensus
  extract_lets +onlyGivenNames w1 v2
  have hv2 : Keeps [.parts] [p] s v2 :=
    .step (cancelCensus_keeps _ _) (by decide) (.refl _ _)
  clear_value v2
  exact .step (updCensus_keeps _ _ _) (by decide) hv2

theorem faultEntry_keeps (s : State) (p : PartId) (st : PState) (code d0 : Nat) : Keeps [.signals, .wafer, .regions, .parts, .imgs, .snds, .pins, .exps, .arbLast, .spa, .spb, .flt, .tiles] [p] s (faultEntry s p st code d0) := by
  unfold faultEntry
  extract_lets +onlyGivenNames w1
  refine .ite (fun _ => ?_) (fun _ => ?_)
  · exact .step (logPart_keeps _ _ _ _) (by decide) (.refl _ _)
  · extract_lets +onlyGivenNames w2 w3 w4 v5 v6 v7 v8 v9 v10 v11 v12 v13 v14 v15
    have hv5 : Keeps [.signals, .wafer, .regions, .parts, .imgs, .snds, .pins, .exps, .arbLast, .spa, .spb, .flt, .tiles] [p] s v5 :=
      .step (logPart_keeps _ _ _ _) (by decide) (.refl _ _)
    clear_value v5
    have hv6 : Keeps [.signals, .wafer, .regions, .parts, .imgs, .snds, .pins, .exps, .arbLast, .spa, .spb, .flt, .tiles] [p] s v6 := by
      unfold v6
      refine .ite (fun _ => ?_) (fun _ => ?_)
      · exact .step (failPins_keeps _ _) (by decide) hv5
      · exact hv5
    clear_value v6
    have hv7 : Keeps [.signals, .wafer, .regions, .parts, .imgs, .snds, .pins, .exps, .arbLast, .spa, .spb, .flt, .tiles] [p] s v7 :=
      .step (quietPorts_keeps _ _) (by decide) hv6
    clear_value v7
    have hv8 : Keeps [.signals, .wafer, .regions, .parts, .imgs, .snds, .pins, .exps, .arbLast, .spa, .spb, .flt, .tiles] [p] s v8 := by
      unfold v8
      refine .ite (fun _ => ?_) (fun _ => ?_)
      · exact .step (abortSpan_keeps _ _ _ _) (by decide) hv7
      · exact hv7
    clear_value v8
    have hv9 : Keeps [.signals, .wafer, .regions, .parts, .imgs, .snds, .pins, .exps, .arbLast, .spa, .spb, .flt, .tiles] [p] s v9 :=
      .step (endGap_keeps _ _) (by decide) hv8
    clear_value v9
    have hv10 : Keeps [.signals, .wafer, .regions, .parts, .imgs, .snds, .pins, .exps, .arbLast, .spa, .spb, .flt, .tiles] [p] s v10 :=
      .step (enterRec_keeps _ _ _) (by decide) (.step (closeExport_keeps _ _) (by decide) hv9)
    clear_value v10
    have hv11 : Keeps [.signals, .wafer, .regions, .parts, .imgs, .snds, .pins, .exps, .arbLast, .spa, .spb, .flt, .tiles] [p] s v11 := by
      unfold v11
      refine .ite (fun _ => ?_) (fun _ => ?_)
      · exact .step (finalCensus_keeps _ _) (by decide) hv10
      · exact .step (cancelCensus_keeps _ _) (by decide) hv10
    clear_value v11
    have hv12 : Keeps [.signals, .wafer, .regions, .parts, .imgs, .snds, .pins, .exps, .arbLast, .spa, .spb, .flt, .tiles] [p] s v12 :=
      .step (freeLanes_keeps _ _) (by decide) hv11
    clear_value v12
    have hv13 : Keeps [.signals, .wafer, .regions, .parts, .imgs, .snds, .pins, .exps, .arbLast, .spa, .spb, .flt, .tiles] [p] s v13 :=
      .step (updPart_keeps _ _ _) (by decide) hv12
    clear_value v13
    have hv14 : Keeps [.signals, .wafer, .regions, .parts, .imgs, .snds, .pins, .exps, .arbLast, .spa, .spb, .flt, .tiles] [p] s v14 :=
      .step (mapRegions_keeps _ _ _) (by decide) (.step (closeAllGates_keeps _ _) (by decide) hv13)
    clear_value v14
    have hv15 : Keeps [.signals, .wafer, .regions, .parts, .imgs, .snds, .pins, .exps, .arbLast, .spa, .spb, .flt, .tiles] [p] s v15 := by
      unfold v15
      refine .foldl _ (fun v16 a17 hv16 => ?_) _ _ ?_
      · exact .step (updSpn_keeps _ _ _) (by decide) hv16
      · exact hv14
    clear_value v15
    exact .step (setCause_keeps _ _ _) (by decide) (.step (setPState_keeps _ _ _) (by decide) hv15)

theorem beginDrain_keeps (s : State) (p : PartId) (why : DrainWhy) : Keeps [.signals, .parts, .exps, .arbLast, .spa, .spb] [p] s (beginDrain s p why) := by
  unfold beginDrain
  extract_lets +onlyGivenNames v1 v2 v3
  have hv1 : Keeps [.signals, .parts, .exps, .arbLast, .spa, .spb] [p] s v1 := by
    unfold v1
    refine .ite (fun _ => ?_) (fun _ => ?_)
    · exact .step (endGap_keeps _ _) (by decide) (.refl _ _)
    · exact .refl _ _
  clear_value v1
  have hv2 : Keeps [.signals, .parts, .exps, .arbLast, .spa, .spb] [p] s v2 :=
    .step (updFlow_keeps _ _ _) (by decide) hv1
  clear_value v2
  have hv3 : Keeps [.signals, .parts, .exps, .arbLast, .spa, .spb] [p] s v3 :=
    .step (setPState_keeps _ _ _) (by decide) hv2
  clear_value v3
  split
  · refine .ite (fun _ => ?_) (fun _ => ?_)
    · exact hv3
    · exact .step (sendAll_keeps _ _ _ _) (by decide) hv3
  · exact hv3

theorem restartInput_keeps (s : State) (p : PartId) : Keeps [.signals, .parts] [p] s (restartInput s p) := by
  unfold restartInput
  exact .step (setPState_keeps _ _ _) (by decide) (.step (updFlow_keeps _ _ _) (by decide) (.refl _ _))

theorem keepOldImage_keeps (s : State) (p : PartId) : Keeps [.signals, .wafer, .regions, .parts, .imgs, .snds, .pins, .spa, .spb, .flt, .tiles, .mem] [p] s (keepOldImage s p) := by
  unfold keepOldImage
  extract_lets +onlyGivenNames v1 w2 w3 v4 w5 w6 v7 v8 v9 w10 v11
  have hv1 : Keeps [.signals, .wafer, .regions, .parts, .imgs, .snds, .pins, .spa, .spb, .flt, .tiles, .mem] [p] s v1 :=
    .step (freeLanes_keeps _ _) (by decide) (.step (dropStaged_keeps _ _) (by decide) (.refl _ _))
  clear_value v1
  have hv4 : Keeps [.signals, .wafer, .regions, .parts, .imgs, .snds, .pins, .spa, .spb, .flt, .tiles, .mem] [p] s v4 :=
    .step (endScrub_keeps _ _ _) (by decide) hv1
  clear_value v4
  have hv7 : Keeps [.signals, .wafer, .regions, .parts, .imgs, .snds, .pins, .spa, .spb, .flt, .tiles, .mem] [p] s v7 := by
    unfold v7
    exact .lit (t := v4) hv4 .lit
  clear_value v7
  have hv8 : Keeps [.signals, .wafer, .regions, .parts, .imgs, .snds, .pins, .spa, .spb, .flt, .tiles, .mem] [p] s v8 := by
    unfold v8
    exact .lit (t := v7) hv7 .lit
  clear_value v8
  have hv9 : Keeps [.signals, .wafer, .regions, .parts, .imgs, .snds, .pins, .spa, .spb, .flt, .tiles, .mem] [p] s v9 :=
    .step (updPins_keeps _ _) (by decide) hv8
  clear_value v9
  have hv11 : Keeps [.signals, .wafer, .regions, .parts, .imgs, .snds, .pins, .spa, .spb, .flt, .tiles, .mem] [p] s v11 := by
    unfold v11
    refine .foldl _ (fun v12 a13 hv12 => ?_) _ _ ?_
    · refine .ite (fun _ => ?_) (fun _ => ?_)
      · exact hv12
      · exact .step (updSpn_keeps _ _ _) (by decide) hv12
    · exact hv9
  clear_value v11
  exact .step (updPart_keeps _ _ _) (by decide) hv11

theorem abortLoad_keeps (s : State) (p : PartId) (code : Nat) : Keeps [.signals, .wafer, .regions, .parts, .imgs, .snds, .pins, .spa, .spb, .flt, .tiles, .mem] [p] s (abortLoad s p code) := by
  unfold abortLoad
  split
  · exact .refl _ _
  · extract_lets +onlyGivenNames v1
    have hv1 : Keeps [.signals, .wafer, .regions, .parts, .imgs, .snds, .pins, .spa, .spb, .flt, .tiles, .mem] [p] s v1 :=
      .step (setCause_keeps _ _ _) (by decide) (.step (logPart_keeps _ _ _ _) (by decide) (.refl _ _))
    clear_value v1
    refine .ite (fun _ => ?_) (fun _ => ?_)
    · exact .step (restartInput_keeps _ _) (by decide) (.step (keepOldImage_keeps _ _) (by decide) hv1)
    · refine .ite (fun _ => ?_) (fun _ => ?_)
      · exact .step (keepOldImage_keeps _ _) (by decide) hv1
      · extract_lets +onlyGivenNames v2
        have hv2 : Keeps [.signals, .wafer, .regions, .parts, .imgs, .snds, .pins, .spa, .spb, .flt, .tiles, .mem] [p] s v2 :=
          .step (updPart_keeps _ _ _) (by decide) (.step (freeLanes_keeps _ _) (by decide) hv1)
        clear_value v2
        split
        · exact .step (updFlow_keeps _ _ _) (by decide) hv2
        · extract_lets +onlyGivenNames v3
          have hv3 : Keeps [.signals, .wafer, .regions, .parts, .imgs, .snds, .pins, .spa, .spb, .flt, .tiles, .mem] [p] s v3 := by
            unfold v3
            refine .ite (fun _ => ?_) (fun _ => ?_)
            · exact hv2
            · exact .step (closeAllGates_keeps _ _) (by decide) hv2
          clear_value v3
          refine .ite (fun _ => ?_) (fun _ => ?_)
          · exact .step (setPState_keeps _ _ _) (by decide) (.step (releasePorts_keeps _ _) (by decide) (.step (releasePins_keeps _ _) (by decide) hv3))
          · exact .step (updFlow_keeps _ _ _) (by decide) hv3

theorem refuseLoad_keeps (s0 : State) (p : PartId) (code d0 : Nat) : Keeps [.signals, .wafer, .regions, .parts, .bays, .imgs, .snds, .pins, .exps, .arbLast, .spa, .spb, .flt, .tiles, .mem] [p] s0 (refuseLoad s0 p code d0) := by
  unfold refuseLoad
  extract_lets +onlyGivenNames v1 w2 w3
  have hv1 : Keeps [.signals, .wafer, .regions, .parts, .bays, .imgs, .snds, .pins, .exps, .arbLast, .spa, .spb, .flt, .tiles, .mem] [p] s0 v1 := by
    unfold v1
    refine .ite (fun _ => ?_) (fun _ => ?_)
    · exact .step (updBay_keeps _ _ _) (by decide) (.step (logIrq_keeps _ _ _ _ _ _ _) (by decide) (.refl _ _))
    · refine .ite (fun _ => ?_) (fun _ => ?_)
      · exact .step (updBay_keeps _ _ _) (by decide) (.step (logIrq_keeps _ _ _ _ _ _ _) (by decide) (.refl _ _))
      · exact .refl _ _
  clear_value v1
  refine .ite (fun _ => ?_) (fun _ => ?_)
  · extract_lets +onlyGivenNames v4
    have hv4 : Keeps [.signals, .wafer, .regions, .parts, .bays, .imgs, .snds, .pins, .exps, .arbLast, .spa, .spb, .flt, .tiles, .mem] [p] s0 v4 :=
      .step (setCause_keeps _ _ _) (by decide) (.step (logPart_keeps _ _ _ _) (by decide) hv1)
    clear_value v4
    split
    · exact hv4
    · refine .ite (fun _ => ?_) (fun _ => ?_)
      · exact .step (restartInput_keeps _ _) (by decide) (.step (keepOldImage_keeps _ _) (by decide) hv4)
      · exact .step (keepOldImage_keeps _ _) (by decide) hv4
  · refine .ite (fun _ => ?_) (fun _ => ?_)
    · extract_lets +onlyGivenNames v5
      have hv5 : Keeps [.signals, .wafer, .regions, .parts, .bays, .imgs, .snds, .pins, .exps, .arbLast, .spa, .spb, .flt, .tiles, .mem] [p] s0 v5 :=
        .step (setCause_keeps _ _ _) (by decide) (.step (logPart_keeps _ _ _ _) (by decide) hv1)
      clear_value v5
      refine .step (setPState_keeps _ _ _) (by decide) ?_
      exact .step (updPart_keeps _ _ _) (by decide) (.step (freeLanes_keeps _ _) (by decide) (.step (releasePorts_keeps _ _) (by decide) (.step (releasePins_keeps _ _) (by decide) hv5)))
    · extract_lets +onlyGivenNames v6
      have hv6 : Keeps [.signals, .wafer, .regions, .parts, .bays, .imgs, .snds, .pins, .exps, .arbLast, .spa, .spb, .flt, .tiles, .mem] [p] s0 v6 :=
        .step (faultEntry_keeps _ _ _ _ _) (by decide) hv1
      clear_value v6
      exact .step (releasePorts_keeps _ _) (by decide) (.step (releasePins_keeps _ _) (by decide) hv6)

end Sys2Proof.Machine
end

