-- ==== Sys2Proof/Laws/KeepsLoads.lean ====
section
/-! SUPPORT. What the helpers of the model keep: loads, power, wafer tests. One lemma a helper; claims cite it instead of unfolding the helper. -/

namespace Sys2Proof.Machine

-- One proof at a time: a default argument that is a tactic waits for every proof before it.
set_option Elab.async false

/-! ### Loads.lean -/

theorem claimAll_keeps (s : State) (p : PartId) (i : Image) : Keeps [.imgs, .snds, .pins, .spa, .spb] [] s (claimAll s p i) := by
  unfold claimAll
  extract_lets +onlyGivenNames v1
  have hv1 : Keeps [.imgs, .snds, .pins, .spa, .spb] [] s v1 := by
    unfold v1
    exact .lit (t := s) (.refl _ _) .lit
  clear_value v1
  split
  · exact hv1
  · extract_lets +onlyGivenNames v2
    have hv2 : Keeps [.imgs, .snds, .pins, .spa, .spb] [] s v2 := by
      unfold v2
      refine .ite (fun _ => ?_) (fun _ => ?_)
      · exact .step (updSpn_keeps _ _ _) (by decide) hv1
      · exact hv1
    clear_value v2
    refine .ite (fun _ => ?_) (fun _ => ?_)
    · exact .step (updSpn_keeps _ _ _) (by decide) hv2
    · exact hv2

theorem shadowPorts_keeps (s : State) (p : PartId) (i : Image) : Keeps [.imgs, .snds] [] s (shadowPorts s p i) := by
  unfold shadowPorts
  exact .lit (t := s) (.refl _ _) .lit

theorem beginStream_keeps (s : State) (p : PartId) (i : Image) : Keeps [.parts, .imgs, .snds] [p] s (beginStream s p i) := by
  unfold beginStream
  exact .step (updLoad_keeps _ _ _) (by decide) (.step (shadowPorts_keeps _ _ _) (by decide) (.refl _ _))

theorem tryStream_keeps (s : State) (p : PartId) : Keeps [.wafer, .parts, .imgs, .snds] [p] s (tryStream s p) := by
  unfold tryStream
  split
  · exact .refl _ _
  · split
    · rename_i v1 qv1
      have hv1 : Keeps [.wafer, .parts, .imgs, .snds] [p] s v1 := by
        exact .step (takeLanes_keeps _ _ _ qv1) (by decide) (.refl _ _)
      exact .step (beginStream_keeps _ _ _) (by decide) hv1
    · exact .step (updLoad_keeps _ _ _) (by decide) (.refl _ _)

theorem setPathGates_keeps (s : State) (rs : List RegionId) : Keeps [.regions, .tiles] [] s (setPathGates s rs) :=
  .step (openPath_keeps _ _) (by decide) (.step (closeAllGates_keeps _ _) (by decide) (.refl _ _))

theorem startPreScrub_keeps (s : State) (p : PartId) (pl : Placement) : Keeps [.signals, .regions, .parts, .tiles] [p] s (startPreScrub s p pl) := by
  unfold startPreScrub
  extract_lets +onlyGivenNames w1 v2
  have hv2 : Keeps [.signals, .regions, .parts, .tiles] [p] s v2 :=
    .step (mapRegions_keeps _ _ _) (by decide) (.step (setPathGates_keeps _ _) (by decide) (.step (holdRegions_keeps _ _ _) (by decide) (.refl _ _)))
  clear_value v2
  exact .step (setPState_keeps _ _ _) (by decide) (.step (updLoad_keeps _ _ _) (by decide) hv2)

theorem placeCold_keeps (s : State) (p : PartId) (mayWait : Bool) : Keeps [.signals, .wafer, .regions, .parts, .bays, .imgs, .snds, .pins, .exps, .arbLast, .spa, .spb, .flt, .tiles, .mem] [p] s (placeCold s p mayWait) := by
  unfold placeCold
  split
  · exact .refl _ _
  · split
    · exact .step (startPreScrub_keeps _ _ _) (by decide) (.refl _ _)
    · extract_lets +onlyGivenNames v1
      have hv1 : Keeps [.signals, .wafer, .regions, .parts, .bays, .imgs, .snds, .pins, .exps, .arbLast, .spa, .spb, .flt, .tiles, .mem] [p] s v1 :=
        .step (setPState_keeps _ _ _) (by decide) (.refl _ _)
      clear_value v1
      refine .ite (fun _ => ?_) (fun _ => ?_)
      · exact .step (updLoad_keeps _ _ _) (by decide) hv1
      · exact .step (refuseLoad_keeps _ _ _ _) (by decide) hv1

theorem trialCold_keeps (s : State) (p : PartId) (mayWait : Bool) : Keeps [.signals, .wafer, .regions, .parts, .bays, .imgs, .snds, .pins, .exps, .arbLast, .spa, .spb, .flt, .tiles, .mem] [p] s (trialCold s p mayWait) := by
  unfold trialCold
  split
  · exact .refl _ _
  · split
    · extract_lets +onlyGivenNames v1
      have hv1 : Keeps [.signals, .wafer, .regions, .parts, .bays, .imgs, .snds, .pins, .exps, .arbLast, .spa, .spb, .flt, .tiles, .mem] [p] s v1 :=
        .step (holdRegions_keeps _ _ _) (by decide) (.refl _ _)
      clear_value v1
      exact .step (beginDrain_keeps _ _ _) (by decide) (.step (updLoad_keeps _ _ _) (by decide) hv1)
    · extract_lets +onlyGivenNames v2
      have hv2 : Keeps [.signals, .wafer, .regions, .parts, .bays, .imgs, .snds, .pins, .exps, .arbLast, .spa, .spb, .flt, .tiles, .mem] [p] s v2 :=
        .step (updLoad_keeps _ _ _) (by decide) (.step (setPState_keeps _ _ _) (by decide) (.refl _ _))
      clear_value v2
      refine .ite (fun _ => ?_) (fun _ => ?_)
      · exact .step (updLoad_keeps _ _ _) (by decide) hv2
      · exact .step (refuseLoad_keeps _ _ _ _) (by decide) hv2

theorem loadRunning_keeps (s : State) (p : PartId) (old i : Image) : Keeps [.signals, .wafer, .regions, .parts, .bays, .imgs, .snds, .pins, .exps, .arbLast, .spa, .spb, .flt, .tiles, .mem] [p] s (loadRunning s p old i) := by
  unfold loadRunning
  extract_lets +onlyGivenNames w1 w2
  clear_value w2
  split
  · extract_lets +onlyGivenNames v3
    have hv3 : Keeps [.signals, .wafer, .regions, .parts, .bays, .imgs, .snds, .pins, .exps, .arbLast, .spa, .spb, .flt, .tiles, .mem] [p] s v3 :=
      .step (updLoad_keeps _ _ _) (by decide) (.refl _ _)
    clear_value v3
    exact .step (tryStream_keeps _ _) (by decide) (.step (setPState_keeps _ _ _) (by decide) (.step (endGap_keeps _ _) (by decide) hv3))
  · exact .step (trialCold_keeps _ _ _) (by decide) (.refl _ _)

theorem beginLoad_keeps (s : State) (p : PartId) (kind : ReqKind) (o : LoadObs) (turn : Option Nat) : Keeps [.signals, .wafer, .regions, .parts, .bays, .imgs, .snds, .pins, .exps, .arbLast, .spa, .spb, .flt, .tiles, .mem] [p] s (beginLoad s p kind o turn) := by
  unfold beginLoad
  extract_lets +onlyGivenNames v1 v2 w3
  have hv1 : Keeps [.signals, .wafer, .regions, .parts, .bays, .imgs, .snds, .pins, .exps, .arbLast, .spa, .spb, .flt, .tiles, .mem] [p] s v1 :=
    .step (updFlow_keeps _ _ _) (by decide) (.step (setCause_keeps _ _ _) (by decide) (.refl _ _))
  clear_value v1
  have hv2 : Keeps [.signals, .wafer, .regions, .parts, .bays, .imgs, .snds, .pins, .exps, .arbLast, .spa, .spb, .flt, .tiles, .mem] [p] s v2 := by
    unfold v2
    refine .ite (fun _ => ?_) (fun _ => ?_)
    · exact .step (releasePorts_keeps _ _) (by decide) (.step (releasePins_keeps _ _) (by decide) hv1)
    · exact hv1
  clear_value v2
  split
  · exact .step (refuseLoad_keeps _ _ _ _) (by decide) hv2
  · extract_lets f
    split
    · exact .step (refuseLoad_keeps _ _ _ _) (by decide) hv2
    · extract_lets v4
      have hv4 : Keeps [.signals, .wafer, .regions, .parts, .bays, .imgs, .snds, .pins, .exps, .arbLast, .spa, .spb, .flt, .tiles, .mem] [p] s v4 :=
        .step (acceptLoad_keeps _ _ _ _) (by decide) (.step (claimAll_keeps _ _ _) (by decide) hv2)
      clear_value v4
      split
      · exact .step (loadRunning_keeps _ _ _ _) (by decide) hv4
      · exact .step (placeCold_keeps _ _ _) (by decide) hv4

theorem queueRequest_keeps (s : State) (p : PartId) (kind : ReqKind) : Keeps [.parts, .flt] [p] s (queueRequest s p kind) := by
  unfold queueRequest
  extract_lets +onlyGivenNames v1
  have hv1 : Keeps [.parts, .flt] [p] s v1 := by
    unfold v1
    refine .ite (fun _ => ?_) (fun _ => ?_)
    · exact .step (logPart_keeps _ _ _ _) (by decide) (.refl _ _)
    · exact .refl _ _
  clear_value v1
  exact .step (updPart_keeps _ _ _) (by decide) hv1

theorem loadRequest_keeps (s : State) (p : PartId) (kind : ReqKind) (o : LoadObs) : Keeps [.signals, .wafer, .regions, .parts, .bays, .imgs, .snds, .pins, .exps, .arbLast, .spa, .spb, .flt, .tiles, .mem] [p] s (loadRequest s p kind o) := by
  unfold loadRequest
  refine .ite (fun _ => ?_) (fun _ => ?_)
  · exact .step (queueRequest_keeps _ _ _) (by decide) (.refl _ _)
  · extract_lets +onlyGivenNames v1 w2
    have hv1 : Keeps [.signals, .wafer, .regions, .parts, .bays, .imgs, .snds, .pins, .exps, .arbLast, .spa, .spb, .flt, .tiles, .mem] [p] s v1 := by
      unfold v1
      refine .ite (fun _ => ?_) (fun _ => ?_)
      · exact .step (abortLoad_keeps _ _ _) (by decide) (.refl _ _)
      · exact .refl _ _
    clear_value v1
    refine .ite (fun _ => ?_) (fun _ => ?_)
    · exact .step (acceptLoad_keeps _ _ _ _) (by decide) hv1
    · exact .step (beginLoad_keeps _ _ _ _ _) (by decide) hv1

theorem becomeEmpty_keeps (s : State) (p : PartId) : Keeps [.signals, .parts, .imgs, .snds, .pins, .spa, .spb] [p] s (becomeEmpty s p) := by
  unfold becomeEmpty
  extract_lets +onlyGivenNames v1
  have hv1 : Keeps [.signals, .parts, .imgs, .snds, .pins, .spa, .spb] [p] s v1 :=
    .step (releasePorts_keeps _ _) (by decide) (.step (releasePins_keeps _ _) (by decide) (.refl _ _))
  clear_value v1
  exact .step (setPState_keeps _ _ _) (by decide) (.step (updPart_keeps _ _ _) (by decide) hv1)

theorem unloadRequest_keeps (s : State) (p : PartId) : Keeps [.signals, .wafer, .regions, .parts, .imgs, .snds, .pins, .exps, .arbLast, .spa, .spb, .flt, .tiles, .mem] [p] s (unloadRequest s p) := by
  unfold unloadRequest
  refine .ite (fun _ => ?_) (fun _ => ?_)
  · exact .step (queueRequest_keeps _ _ _) (by decide) (.refl _ _)
  · extract_lets +onlyGivenNames v1 v2 w3
    have hv1 : Keeps [.signals, .wafer, .regions, .parts, .imgs, .snds, .pins, .exps, .arbLast, .spa, .spb, .flt, .tiles, .mem] [p] s v1 :=
      .step (setCause_keeps _ _ _) (by decide) (.refl _ _)
    clear_value v1
    have hv2 : Keeps [.signals, .wafer, .regions, .parts, .imgs, .snds, .pins, .exps, .arbLast, .spa, .spb, .flt, .tiles, .mem] [p] s v2 := by
      unfold v2
      refine .ite (fun _ => ?_) (fun _ => ?_)
      · exact .step (abortLoad_keeps _ _ _) (by decide) hv1
      · exact hv1
    clear_value v2
    refine .ite (fun _ => ?_) (fun _ => ?_)
    · exact hv2
    · refine .ite (fun _ => ?_) (fun _ => ?_)
      · exact .step (beginDrain_keeps _ _ _) (by decide) hv2
      · exact .step (becomeEmpty_keeps _ _) (by decide) hv2

theorem placeExtent_keeps (s : State) (p : PartId) (tile n reg : Nat) (blob : Option (List Byte)) (r : State × Nat)
    (h : placeExtent s p tile n reg blob = some r) : Keeps [.parts, .tiles] [p] s r.1 := by
  unfold placeExtent at h
  obtain ⟨b, _, rfl⟩ := Option.map_eq_some_iff.mp h
  exact .step (updTile_keeps _ _ _) (by decide) (.step (updFabric_keeps _ _ _) (by decide) (.refl _ _))

theorem placeExtents_keeps : ∀ (s : State) (p : PartId) (pp : PlacedPiece) (es : List ExtEntry) (t : State),
    placeExtents s p pp es = some t → Keeps [.parts, .tiles] [p] s t
  | s, _, _, [], t, h => by
    injection h with h
    subst h
    exact .refl _ _
  | s, p, pp, e :: es, t, h => by
    unfold placeExtents at h
    split at h
    · rename_i r hr
      exact .step (placeExtents_keeps _ p pp es t h) (by decide) (.step (placeExtent_keeps _ _ _ _ _ _ _ hr) (by decide) (.refl _ _))
    · exact absurd h (by simp)

theorem shareBlob_keeps (s : State) (p : PartId) (b : BlobRec) (pp : PlacedPiece) : Keeps [.parts, .tiles] [p] s (shareBlob s p b pp) := by
  unfold shareBlob
  refine .foldl _ (fun v1 a2 hv1 => ?_) _ _ ?_
  · extract_lets +onlyGivenNames w3
    split
    · exact hv1
    · exact .step (updTile_keeps _ _ _) (by decide) (.step (updFabric_keeps _ _ _) (by decide) hv1)
  · exact .refl _ _

theorem placeBlob_keeps : ∀ (s : State) (p : PartId) (b : BlobRec) (pp : PlacedPiece) (data : List Byte) (ts : List (Nat × Nat)) (t : State),
    placeBlob s p b pp data ts = some t → Keeps [.parts, .tiles, .mem] [p] s t
  | s, _, _, _, _, [], t, h => by
    injection h with h
    subst h
    exact .refl _ _
  | s, p, b, pp, data, c :: ts, t, h => by
    unfold placeBlob at h
    extract_lets k n at h
    split at h
    · exact absurd h (by simp)
    · rename_i r hr
      refine .step (placeBlob_keeps _ p b pp _ ts t h) (by decide) ?_
      refine .litInv (t := r.1) (.step (placeExtent_keeps _ _ _ _ _ _ _ hr) (by decide) (.refl _ _)) .lit (fun h =>
        ⟨⟨Memory.writeBytes_wf _ _ _ h.store.1, h.store.2⟩, h.supplies, h.log, h.vectors, h.lanes⟩)

theorem writeRecord_keeps (s : State) (p : PartId) (pl : Placement) (r : Rec) (bs : List Byte) (t : State)
    (h : writeRecord s p pl r bs = .done t) : Keeps [.parts, .tiles, .mem] [p] s t := by
  unfold writeRecord at h
  split at h
  · injection h with h; subst h; exact .refl _ _
  · split at h
    · exact absurd h (by simp)
    · split at h
      · injection h with h; subst h; exact .refl _ _
      · split at h
        · extract_lets c ts at h
          split at h
          · exact absurd h (by simp)
          · split at h
            · exact absurd h (by simp)
            · injection h with h; subst h
              exact .foldl _ (fun _ _ hv => .step (updTile_keeps _ _ _) (by decide) hv) _ _ (.refl _ _)
        · injection h with h; subst h
          exact .foldl _ (fun _ _ hv => .step (updTile_keeps _ _ _) (by decide) hv) _ _ (.refl _ _)
        · split at h
          · injection h with h; subst h
            exact .step (placeExtents_keeps _ _ _ _ _ ‹_›) (by decide) (.refl _ _)
          · exact absurd h (by simp)
        · split at h
          · injection h with h; subst h
            exact .step (placeExtents_keeps _ _ _ _ _ ‹_›) (by decide) (.refl _ _)
          · exact absurd h (by simp)
        · split at h
          · injection h with h; subst h
            exact .step (shareBlob_keeps _ _ _ _) (by decide) (.refl _ _)
          · split at h
            · injection h with h; subst h
              exact .step (placeBlob_keeps _ _ _ _ _ _ _ ‹_›) (by decide) (.refl _ _)
            · exact absurd h (by simp)
        · injection h with h; subst h; exact .refl _ _

/-- Writing bytes of memory keeps every other field and the invariant. -/
theorem writeMem_keeps (s : State) (a : Nat) (bs : List Byte) : Keeps [.mem] [] s { s with mem := Memory.writeBytes s.mem a bs } :=
  .litInv (t := s) (.refl _ _) .lit (fun h =>
    ⟨⟨Memory.writeBytes_wf _ _ _ h.store.1, h.store.2⟩, h.supplies, h.log, h.vectors, h.lanes⟩)

theorem dropCollided_keeps (s s1 : State) (p : PartId) (hits : List (TileAt × Nat)) : Keeps [.tiles, .mem] [] s1 (dropCollided s s1 p hits) := by
  unfold dropCollided
  extract_lets written
  refine .foldl _ (fun u h hu => ?_) _ _ (.refl _ _)
  extract_lets +onlyGivenNames k
  refine .ite (fun _ => ?_) (fun _ => hu)
  extract_lets u1
  have h1 : Keeps [.tiles, .mem] [] s1 u1 := .step (updTile_keeps _ _ _) (by decide) hu
  clear_value u1
  exact .step (writeMem_keeps _ _ _) (by decide) h1

theorem turnCold_keeps (s : State) (p : PartId) : Keeps [.signals, .wafer, .regions, .parts, .bays, .imgs, .snds, .pins, .exps, .arbLast, .spa, .spb, .flt, .tiles, .mem] [p] s (turnCold s p) := by
  unfold turnCold
  split
  · exact .refl _ _
  · extract_lets +onlyGivenNames v1 v3 u4 w5 w6 v7
    have hv1 : Keeps [.signals, .wafer, .regions, .parts, .bays, .imgs, .snds, .pins, .exps, .arbLast, .spa, .spb, .flt, .tiles, .mem] [p] s v1 :=
      .step (updLoad_keeps _ _ _) (by decide) (.step (freeLanes_keeps _ _) (by decide) (.step (dropStaged_keeps _ _) (by decide) (.refl _ _)))
    clear_value v1
    have hv3 : Keeps [.signals, .wafer, .regions, .parts, .bays, .imgs, .snds, .pins, .exps, .arbLast, .spa, .spb, .flt, .tiles, .mem] [p] s v3 := .step (joinLanes_keeps _ _) (by decide) hv1
    clear_value v3
    have hv7 : Keeps [.signals, .wafer, .regions, .parts, .bays, .imgs, .snds, .pins, .exps, .arbLast, .spa, .spb, .flt, .tiles, .mem] [p] s v7 :=
      .step (updLoad_keeps _ _ _) (by decide) hv3
    clear_value v7
    exact .step (trialCold_keeps _ _ _) (by decide) hv7

theorem failGroup_keeps (s : State) (p : PartId) (g : Nat) : Keeps [.signals, .wafer, .regions, .parts, .imgs, .snds, .pins, .exps, .arbLast, .spa, .spb, .flt, .tiles, .mem] [p] s (failGroup s p g) := by
  unfold failGroup
  split
  · exact .refl _ _
  · refine .ite (fun _ => ?_) (fun _ => ?_)
    · refine .step (restartInput_keeps _ _) (by decide) ?_
      exact .step (keepOldImage_keeps _ _) (by decide) (.step (setCause_keeps _ _ _) (by decide) (.step (logPart_keeps _ _ _ _) (by decide) (.refl _ _)))
    · exact .step (faultEntry_keeps _ _ _ _ _) (by decide) (.refl _ _)

theorem streamRecord_keeps (s : State) (p : PartId) (l : Load) (bs : List Byte) (readsBack : Bool) (hits : List (TileAt × Nat)) :
    Keeps [.signals, .wafer, .regions, .parts, .bays, .imgs, .snds, .pins, .exps, .arbLast, .spa, .spb, .flt, .tiles, .mem] [p] s (streamRecord s p l bs readsBack hits) := by
  unfold streamRecord
  split
  · exact .step (refuseLoad_keeps _ _ _ _) (by decide) (.refl _ _)
  · extract_lets idx
    split
    · exact .step (refuseLoad_keeps _ _ _ _) (by decide) (.refl _ _)
    · refine .ite (fun _ => ?_) (fun _ => ?_)
      · exact .step (turnCold_keeps _ _) (by decide) (.refl _ _)
      · exact .step (refuseLoad_keeps _ _ _ _) (by decide) (.refl _ _)
    · rename_i s0 hs
      have h0 : Keeps [.signals, .wafer, .regions, .parts, .bays, .imgs, .snds, .pins, .exps, .arbLast, .spa, .spb, .flt, .tiles, .mem] [p] s s0 := .step (writeRecord_keeps _ _ _ _ _ _ hs) (by decide) (.refl _ _)
      extract_lets s1
      have h1 : Keeps [.signals, .wafer, .regions, .parts, .bays, .imgs, .snds, .pins, .exps, .arbLast, .spa, .spb, .flt, .tiles, .mem] [p] s s1 := .ite (fun _ => .step (dropCollided_keeps _ _ _ _) (by decide) h0) (fun _ => h0)
      clear_value s1
      refine .ite (fun _ => ?_) (fun _ => ?_)
      · exact .step (failGroup_keeps _ _ _) (by decide) h1
      · exact .step (updLoad_keeps _ _ _) (by decide) h1

theorem beginLupin_keeps (s : State) (p : PartId) : Keeps [.parts] [p] s (beginLupin s p) := by
  unfold beginLupin
  exact .step (updFlow_keeps _ _ _) (by decide) (.refl _ _)

theorem enterSpanWait_keeps (s : State) (p : PartId) (x : SpanRec) : Keeps [.signals, .parts, .spa, .spb] [p] s (enterSpanWait s p x) := by
  unfold enterSpanWait
  extract_lets +onlyGivenNames v1 v2 v3
  have hv1 : Keeps [.signals, .parts, .spa, .spb] [p] s v1 :=
    .step (updPart_keeps _ _ _) (by decide) (.refl _ _)
  clear_value v1
  have hv2 : Keeps [.signals, .parts, .spa, .spb] [p] s v2 :=
    .step (updLoad_keeps _ _ _) (by decide) (.step (setPState_keeps _ _ _) (by decide) hv1)
  clear_value v2
  have hv3 : Keeps [.signals, .parts, .spa, .spb] [p] s v3 := by
    unfold v3
    refine .foldl _ (fun v4 a5 hv4 => ?_) _ _ ?_
    · exact .step (updSpn_keeps _ _ _) (by decide) hv4
    · exact hv2
  clear_value v3
  exact .step (sendAll_keeps _ _ _ _) (by decide) hv3

theorem advanceLoad_keeps (s : State) (p : PartId) : Keeps [.signals, .parts, .exps, .arbLast, .spa, .spb] [p] s (advanceLoad s p) := by
  unfold advanceLoad
  split
  · exact .refl _ _
  · refine .ite (fun _ => ?_) (fun _ => ?_)
    · refine .ite (fun _ => ?_) (fun _ => ?_)
      · refine .ite (fun _ => ?_) (fun _ => ?_)
        · exact .step (beginDrain_keeps _ _ _) (by decide) (.step (updLoad_keeps _ _ _) (by decide) (.refl _ _))
        · exact .refl _ _
      · split
        · exact .step (enterSpanWait_keeps _ _ _) (by decide) (.refl _ _)
        · refine .ite (fun _ => ?_) (fun _ => ?_)
          · exact .step (beginLupin_keeps _ _) (by decide) (.refl _ _)
          · exact .refl _ _
    · refine .ite (fun _ => ?_) (fun _ => ?_)
      · exact .step (beginLupin_keeps _ _) (by decide) (.refl _ _)
      · exact .refl _ _

theorem endChecks_keeps (s : State) (p : PartId) (l : Load) : Keeps [.signals, .wafer, .regions, .parts, .bays, .imgs, .snds, .pins, .exps, .arbLast, .spa, .spb, .flt, .tiles, .mem] [p] s (endChecks s p l) := by
  unfold endChecks
  extract_lets +onlyGivenNames w1
  refine .ite (fun _ => ?_) (fun _ => ?_)
  · exact .step (refuseLoad_keeps _ _ _ _) (by decide) (.refl _ _)
  · refine .ite (fun _ => ?_) (fun _ => ?_)
    · exact .step (refuseLoad_keeps _ _ _ _) (by decide) (.refl _ _)
    · refine .ite (fun _ => ?_) (fun _ => ?_)
      · exact .step (refuseLoad_keeps _ _ _ _) (by decide) (.refl _ _)
      · refine .ite (fun _ => ?_) (fun _ => ?_)
        · exact .step (refuseLoad_keeps _ _ _ _) (by decide) (.refl _ _)
        · refine .ite (fun _ => ?_) (fun _ => ?_)
          · exact .step (refuseLoad_keeps _ _ _ _) (by decide) (.refl _ _)
          · exact .step (advanceLoad_keeps _ _) (by decide) (.step (updLoad_keeps _ _ _) (by decide) (.refl _ _))

theorem switchPins_keeps (s : State) (p : PartId) (i : Image) : Keeps [.pins] [] s (switchPins s p i) := by
  unfold switchPins
  exact .lit (t := s) (.refl _ _) .lit

theorem startPorts_keeps (s : State) (i : Image) (old : Option Image) : Keeps [.imgs, .snds] [] s (startPorts s i old) := by
  unfold startPorts
  exact .lit (t := s) (.refl _ _) .lit

theorem commitRelease_keeps (s : State) (p : PartId) : Keeps [.signals, .wafer, .regions, .parts, .imgs, .snds, .pins, .exps, .arbLast, .spa, .spb, .tiles] [p] s (commitRelease s p) := by
  unfold commitRelease
  split
  · exact .refl _ _
  · extract_lets +onlyGivenNames w1 v2 v3 v4 v5 v6 v7 v8
    have hv2 : Keeps [.signals, .wafer, .regions, .parts, .imgs, .snds, .pins, .exps, .arbLast, .spa, .spb, .tiles] [p] s v2 :=
      .step (freeLanes_keeps _ _) (by decide) (.step (closeExport_keeps _ _) (by decide) (.refl _ _))
    clear_value v2
    have hv3 : Keeps [.signals, .wafer, .regions, .parts, .imgs, .snds, .pins, .exps, .arbLast, .spa, .spb, .tiles] [p] s v3 :=
      .step (mapTiles_keeps _ _ _) (by decide) hv2
    clear_value v3
    have hv4 : Keeps [.signals, .wafer, .regions, .parts, .imgs, .snds, .pins, .exps, .arbLast, .spa, .spb, .tiles] [p] s v4 :=
      .step (updPart_keeps _ _ _) (by decide) hv3
    clear_value v4
    have hv5 : Keeps [.signals, .wafer, .regions, .parts, .imgs, .snds, .pins, .exps, .arbLast, .spa, .spb, .tiles] [p] s v5 :=
      .step (updFabric_keeps _ _ _) (by decide) hv4
    clear_value v5
    have hv6 : Keeps [.signals, .wafer, .regions, .parts, .imgs, .snds, .pins, .exps, .arbLast, .spa, .spb, .tiles] [p] s v6 :=
      .step (startPorts_keeps _ _ _) (by decide) (.step (switchPins_keeps _ _ _) (by decide) hv5)
    clear_value v6
    have hv7 : Keeps [.signals, .wafer, .regions, .parts, .imgs, .snds, .pins, .exps, .arbLast, .spa, .spb, .tiles] [p] s v7 :=
      .step (mapRegions_keeps _ _ _) (by decide) hv6
    clear_value v7
    have hv8 : Keeps [.signals, .wafer, .regions, .parts, .imgs, .snds, .pins, .exps, .arbLast, .spa, .spb, .tiles] [p] s v8 := by
      unfold v8
      refine .foldl _ (fun v9 a10 hv9 => ?_) _ _ ?_
      · exact .step (updSpn_keeps _ _ _) (by decide) hv9
      · exact hv7
    clear_value v8
    exact .step (setPState_keeps _ _ _) (by decide) hv8

theorem commitSwitch_keeps (s : State) (p : PartId) : Keeps [.signals, .wafer, .regions, .parts, .imgs, .snds, .pins, .exps, .arbLast, .tiles] [p] s (commitSwitch s p) := by
  unfold commitSwitch
  split
  · extract_lets +onlyGivenNames w1 w2 v3 v4 v5 v6 v7
    have hv3 : Keeps [.signals, .wafer, .regions, .parts, .imgs, .snds, .pins, .exps, .arbLast, .tiles] [p] s v3 :=
      .step (freeLanes_keeps _ _) (by decide) (.step (closeExport_keeps _ _) (by decide) (.refl _ _))
    clear_value v3
    have hv4 : Keeps [.signals, .wafer, .regions, .parts, .imgs, .snds, .pins, .exps, .arbLast, .tiles] [p] s v4 :=
      .step (mapTiles_keeps _ _ _) (by decide) hv3
    clear_value v4
    have hv5 : Keeps [.signals, .wafer, .regions, .parts, .imgs, .snds, .pins, .exps, .arbLast, .tiles] [p] s v5 :=
      .step (updPart_keeps _ _ _) (by decide) hv4
    clear_value v5
    have hv6 : Keeps [.signals, .wafer, .regions, .parts, .imgs, .snds, .pins, .exps, .arbLast, .tiles] [p] s v6 :=
      .step (updFabric_keeps _ _ _) (by decide) hv5
    clear_value v6
    have hv7 : Keeps [.signals, .wafer, .regions, .parts, .imgs, .snds, .pins, .exps, .arbLast, .tiles] [p] s v7 :=
      .step (startPorts_keeps _ _ _) (by decide) (.step (switchPins_keeps _ _ _) (by decide) (.step (closeAllGates_keeps _ _) (by decide) hv6))
    clear_value v7
    exact .step (restartInput_keeps _ _) (by decide) hv7
  · exact .refl _ _

theorem releaseUnclaimed_keeps (s : State) (p : PartId) (i : Image) : Keeps [.imgs, .snds, .pins] [] s (releaseUnclaimed s p i) := by
  unfold releaseUnclaimed
  exact .lit (t := s) (.refl _ _) .lit

theorem portsAfterDrain_keeps (s : State) (p : PartId) (old new : Image) : Keeps [.imgs, .snds] [] s (portsAfterDrain s p old new) := by
  unfold portsAfterDrain
  exact .lit (t := s) (.refl _ _) .lit

theorem pinsAfterDrain_keeps (s : State) (p : PartId) : Keeps [.pins] [] s (pinsAfterDrain s p) := by
  unfold pinsAfterDrain
  exact .step (updPins_keeps _ _) (by decide) (.step (failPins_keeps _ _) (by decide) (.refl _ _))

theorem endImage_keeps (s : State) (p : PartId) (why : ScrubWhy) : Keeps [.regions, .parts, .exps, .arbLast, .tiles] [p] s (endImage s p why) := by
  unfold endImage
  extract_lets +onlyGivenNames v1 v2 v3
  have hv1 : Keeps [.regions, .parts, .exps, .arbLast, .tiles] [p] s v1 :=
    .step (cancelCensus_keeps _ _) (by decide) (.step (closeExport_keeps _ _) (by decide) (.step (endGap_keeps _ _) (by decide) (.refl _ _)))
  clear_value v1
  have hv2 : Keeps [.regions, .parts, .exps, .arbLast, .tiles] [p] s v2 :=
    .step (closeAllGates_keeps _ _) (by decide) hv1
  clear_value v2
  have hv3 : Keeps [.regions, .parts, .exps, .arbLast, .tiles] [p] s v3 :=
    .step (mapRegions_keeps _ _ _) (by decide) hv2
  clear_value v3
  exact .step (updPart_keeps _ _ _) (by decide) hv3

/-! ### Supply.lean -/

theorem reformTree_keeps (s : State) : Keeps [.wafer, .regions, .flt] [] s (reformTree s) := by
  unfold reformTree
  extract_lets +onlyGivenNames u1 v2
  have hv2 : Keeps [.wafer, .regions, .flt] [] s v2 := by
    unfold v2
    exact .litInv (t := s) (.refl _ _) .lit (fun h => ⟨h.store, h.supplies, h.log, h.vectors, h.lanes⟩)
  clear_value v2
  refine .foldl _ (fun v3 a4 hv3 => ?_) _ _ ?_
  · exact .step (logPlain_keeps _ _ _) (by decide) (.step (updRegion_keeps _ _ _) (by decide) hv3)
  · exact hv2

theorem govern_keeps (s : State) (r : RegionId) : Keeps [.regions] [] s (govern s r) := by
  unfold govern
  extract_lets +onlyGivenNames g
  split
  · exact .refl _ _
  · refine .ite (fun hc => ?_) (fun _ => .refl _ _)
    extract_lets v
    refine .ite (fun _ => .refl _ _) (fun _ => ?_)
    refine .step (updRegion_keepsAt _ _ _ (fun h => ?_)) (by decide) (.refl _ _)
    have hv : 600 ≤ v ∧ v ≤ 850 := by
      have := h.1
      simp only [v, governedVdd]
      omega
    have hs : (s.regions[r]).supplyOn = true := by
      simp only [g, Bool.and_eq_true] at hc
      exact hc.1
    exact ⟨h.1, fun _ => hv, fun hn => absurd (hs.symm.trans hn) (by decide)⟩

theorem governAll_keeps (s : State) : Keeps [.regions] [] s (governAll s) := by
  unfold governAll
  refine .foldl _ (fun v1 a2 hv1 => .step (govern_keeps _ _) (by decide) hv1) _ _ ?_
  exact .refl _ _

theorem floorBreach_keeps (s : State) (p : PartId) (bits : Nat) : Keeps [.signals, .parts, .flt] [p] s (floorBreach s p bits) := by
  unfold floorBreach
  extract_lets +onlyGivenNames w1 v2
  have hv2 : Keeps [.signals, .parts, .flt] [p] s v2 :=
    .step (updPartRegs_keeps _ _ _) (by decide) (.refl _ _)
  clear_value v2
  refine .ite (fun _ => ?_) (fun _ => ?_)
  · exact hv2
  · exact .step (irq_keeps _ _) (by decide) (.step (logPart_keeps _ _ _ _) (by decide) hv2)

theorem rateLoop_keeps (s : State) (p : PartId) (floor w b : Nat) (r : RegionId) : Keeps [.signals, .regions, .parts, .flt] [p] s (rateLoop s p floor w b r).1 := by
  unfold rateLoop
  extract_lets g xs num judged d rate s1
  have h1 : Keeps [.signals, .regions, .parts, .flt] [p] s s1 := .step (govern_keeps _ _) (by decide) (.step (updRegion_keeps _ _ _) (by decide) (.refl _ _))
  clear_value s1 d rate judged
  split
  · exact h1
  · split
    · exact .step (floorBreach_keeps _ _ _) (by decide) h1
    · exact h1

theorem writeSave_keeps (s : State) (at0 : State) (cause : Nat) : Keeps [.nv] [] s (writeSave s at0 cause) := by
  unfold writeSave
  extract_lets +onlyGivenNames w1
  split
  · exact .lit (t := s) (.refl _ _) .lit
  · exact .lit (t := s) (.refl _ _) .lit
  · refine .ite (fun _ => ?_) (fun _ => ?_)
    · exact .lit (t := s) (.refl _ _) .lit
    · exact .lit (t := s) (.refl _ _) .lit

theorem tearSave_keeps (s : State) : Keeps [.nv] [] s (tearSave s) := by
  unfold tearSave
  split
  · split
    · exact .lit (t := s) (.refl _ _) .lit
    · exact .lit (t := s) (.refl _ _) .lit
  · exact .refl _ _

theorem writeLife_keeps (s : State) (b : BayId) (kind : Nat) : Keeps [.bays] [b] s (writeLife s b kind) := by
  unfold writeLife
  extract_lets +onlyGivenNames w1
  exact .step (updBay_keeps _ _ _) (by decide) (.refl _ _)

/-! ### Power.lean -/

theorem rateTickPart_keeps (busy : List (RegionId × Nat)) (s : State) (p : PartId) : Keeps [.signals, .regions, .parts, .flt] [p] s (rateTickPart busy s p) := by
  unfold rateTickPart
  extract_lets +onlyGivenNames x
  refine .ite (fun _ => .refl _ _) (fun _ => ?_)
  extract_lets floor r s1
  have hr : ∀ (rs : List RegionId) (a : State × Bool), Keeps [.signals, .regions, .parts, .flt] [p] s a.1 → Keeps [.signals, .regions, .parts, .flt] [p] s (rs.foldl (fun acc r =>
      ((rateLoop acc.1 p floor x.flow.interval ((busy.lookup r).getD 0) r).1,
       acc.2 || (rateLoop acc.1 p floor x.flow.interval ((busy.lookup r).getD 0) r).2)) a).1 := by
    intro rs
    induction rs with
    | nil => intro a h; exact h
    | cons q rs ih =>
      intro a h
      exact ih _ (.step (rateLoop_keeps _ _ _ _ _ _) (by decide) h)
  have h0 : Keeps [.signals, .regions, .parts, .flt] [p] s r.1 := hr _ _ (.refl _ _)
  clear_value r
  have h1 : Keeps [.signals, .regions, .parts, .flt] [p] s s1 := .step (updFlow_keeps _ _ _) (by decide) h0
  clear_value s1
  exact .ite (fun _ => h1) (fun _ => .step (updPartRegs_keeps _ _ _) (by decide) h1)

theorem throttleDown_keeps (s : State) (r : RegionId) : Keeps [.signals, .regions, .flt] [] s (throttleDown s r) := by
  unfold throttleDown
  extract_lets +onlyGivenNames w1 v2
  have hv2 : Keeps [.signals, .regions, .flt] [] s v2 :=
    .step (irq_keeps _ _) (by decide) (.step (updRegion_keeps _ _ _) (by decide) (.refl _ _))
  clear_value v2
  refine .ite (fun _ => ?_) (fun _ => ?_)
  · exact .step (logPlain_keeps _ _ _) (by decide) hv2
  · exact hv2

theorem throttleUp_keeps (s : State) (r : RegionId) : Keeps [.regions, .flt] [] s (throttleUp s r) := by
  unfold throttleUp
  extract_lets +onlyGivenNames w1
  refine .ite (fun _ => ?_) (fun _ => ?_)
  · extract_lets +onlyGivenNames v2
    have hv2 : Keeps [.regions, .flt] [] s v2 :=
      .step (updRegion_keeps _ _ _) (by decide) (.refl _ _)
    clear_value v2
    refine .ite (fun _ => ?_) (fun _ => ?_)
    · exact .step (logEvent_keeps _ _ _ _ _ _) (by decide) (.step (updRegion_keeps _ _ _) (by decide) hv2)
    · exact hv2
  · exact .refl _ _

theorem regionOff_keeps (s : State) (r : RegionId) : Keeps [.regions, .tiles, .mem] [] s (regionOff s r) := by
  unfold regionOff
  exact .step (scrubRegions_keeps _ _) (by decide) (.step (updRegion_keeps _ _ _) (by decide) (.step (closeGates_keeps _ _) (by decide) (.refl _ _)))

theorem darkRegion_keeps (s : State) (r : RegionId) (st : PState) (code : Nat) : Keeps [.signals, .wafer, .regions, .parts, .imgs, .snds, .pins, .exps, .arbLast, .spa, .spb, .flt, .tiles, .mem] allParts s (darkRegion s r st code) := by
  unfold darkRegion
  extract_lets +onlyGivenNames v1 v2
  have hv1 : Keeps [.signals, .wafer, .regions, .parts, .imgs, .snds, .pins, .exps, .arbLast, .spa, .spb, .flt, .tiles, .mem] allParts s v1 :=
    .step (regionOff_keeps _ _) (by decide) (.refl _ _)
  clear_value v1
  have hv2 : Keeps [.signals, .wafer, .regions, .parts, .imgs, .snds, .pins, .exps, .arbLast, .spa, .spb, .flt, .tiles, .mem] allParts s v2 := by
    unfold v2
    split
    · exact .step (faultEntry_keeps _ _ _ _ _) (by decide) hv1
    · exact hv1
  clear_value v2
  exact .step (reformTree_keeps _) (by decide) hv2

theorem beginRetest_keeps (s : State) (r : RegionId) : Keeps [.regions, .tiles] [] s (beginRetest s r) := by
  unfold beginRetest
  exact .step (updRegion_keeps _ _ _) (by decide) (.step (closeGates_keeps _ _) (by decide) (.refl _ _))

theorem storePolicy_keeps (item : PolicyItem) (v : Word) (s : State) : Keeps [.pwr, .parts] allParts s (storePolicy item v s) := by
  unfold storePolicy
  split
  · exact .lit (t := s) (.refl _ _) .lit
  · exact .lit (t := s) (.refl _ _) .lit
  · exact .step (updPartRegs_keeps _ _ _) (by decide) (.refl _ _)
  · exact .step (updPartRegs_keeps _ _ _) (by decide) (.refl _ _)

theorem capOver_keeps (s : State) (watts : Nat) : Keeps [.signals, .pwr, .parts, .flt] allParts s (capOver s watts) := by
  unfold capOver
  extract_lets +onlyGivenNames w1
  split
  · exact .step (updPartRegs_keeps _ _ _) (by decide) (.refl _ _)
  · split
    · exact .step (updPartRegs_keeps _ _ _) (by decide) (.refl _ _)
    · extract_lets +onlyGivenNames w2 u3 v4
      have hv4 : Keeps [.signals, .pwr, .parts, .flt] allParts s v4 := by
        unfold v4
        exact .lit (t := s) (.refl _ _) .lit
      clear_value v4
      refine .ite (fun _ => ?_) (fun _ => ?_)
      · exact hv4
      · exact .step (logIrq_keeps _ _ _ _ _ _ _) (by decide) hv4

theorem capUnder_keeps (s : State) : Keeps [.pwr, .parts] allParts s (capUnder s) := by
  unfold capUnder
  extract_lets +onlyGivenNames u1 v2
  have hv2 : Keeps [.pwr, .parts] allParts s v2 := by
    unfold v2
    exact .lit (t := s) (.refl _ _) .lit
  clear_value v2
  split
  · exact .step (updPartRegs_keeps _ _ _) (by decide) hv2
  · split
    · exact .step (updPartRegs_keeps _ _ _) (by decide) hv2
    · exact hv2

theorem shedWafer_keeps (s : State) : Keeps [.regions, .tiles, .mem] [] s (shedWafer s) := by
  unfold shedWafer
  extract_lets u
  have hu : Keeps [.regions, .tiles, .mem] [] s u := by
    unfold u
    exact .step (updRegions_keeps _ _) (by decide) (.refl _ _)
  clear_value u
  exact .litInv (t := u) hu .lit (fun h => ⟨⟨rfl, rfl⟩, h.supplies, h.log, h.vectors, h.lanes⟩)

theorem restartUnit_keeps (s : State) : Keeps [.glb, .sup, .regions, .pins, .tiles, .mem] [] s (restartUnit s) := by
  unfold restartUnit
  extract_lets +onlyGivenNames v1
  have hv1 : Keeps [.glb, .sup, .regions, .pins, .tiles, .mem] [] s v1 :=
    .step (updPins_keeps _ _) (by decide) (.step (shedWafer_keeps _) (by decide) (.refl _ _))
  clear_value v1
  exact .litInv (t := v1) hv1 .lit (fun h => ⟨h.store, h.supplies, h.log, h.vectors, h.lanes⟩)

theorem finishActivation_keeps (s : State) : Keeps [.glb, .sup, .nv, .regions, .pins, .tiles, .mem] [] s (finishActivation s) := by
  unfold finishActivation
  refine .ite (fun _ => ?_) (fun _ => ?_)
  · exact .step (restartUnit_keeps _) (by decide) (.step (writeSave_keeps _ _ _) (by decide) (.refl _ _))
  · exact .refl _ _

theorem activateSlot_keeps (s : State) (slotB : Bool) (f : FwSlot → FwSlot) : Keeps [.glb, .signals, .sup, .nv, .regions, .parts, .pins, .exps, .arbLast, .spa, .spb, .tiles, .mem] allParts s (activateSlot s slotB f) := by
  unfold activateSlot
  extract_lets +onlyGivenNames u1 u2 u3 v4
  have hv4 : Keeps [.glb, .signals, .sup, .nv, .regions, .parts, .pins, .exps, .arbLast, .spa, .spb, .tiles, .mem] allParts s v4 :=
    .step (irq_keeps _ _) (by decide) (.lit (t := s) (.refl _ _) .lit)
  clear_value v4
  refine .step (finishActivation_keeps _) (by decide) ?_
  refine .foldl _ (fun v5 a6 hv5 => ?_) _ _ ?_
  · refine .ite (fun _ => ?_) (fun _ => ?_)
    · exact .step (beginDrain_keeps _ _ _) (by decide) hv5
    · exact hv5
  · exact hv4

theorem sagLife_keeps (written : List BayId) (s : State) (b : BayId) : Keeps [.bays] [b] s (sagLife written s b) := by
  unfold sagLife
  extract_lets +onlyGivenNames v1
  have hv1 : Keeps [.bays] [b] s v1 := by
    unfold v1
    refine .ite (fun _ => ?_) (fun _ => ?_)
    · exact .step (writeLife_keeps _ _ _) (by decide) (.refl _ _)
    · exact .refl _ _
  clear_value v1
  exact .step (updBay_keeps _ _ _) (by decide) hv1

theorem shedBoard_keeps (s : State) : Keeps [.imgs, .snds, .exps, .spa, .spb] [] s (shedBoard s) := by
  unfold shedBoard
  exact .lit (t := s) (.refl _ _) .lit

/-! ### WaferTest.lean -/

theorem logRegions_keeps (s : State) (code : Nat) (rs : List RegionId) : Keeps [.flt] [] s (logRegions s code rs) := by
  unfold logRegions
  refine .foldl _ (fun v1 a2 hv1 => ?_) _ _ ?_
  · exact .step (logPlain_keeps _ _ _) (by decide) hv1
  · exact .refl _ _

theorem lanesOk_of {w v : Wafer} (h : w.lanesHeld = v.lanesHeld) (k : lanesOk v) : lanesOk w := by
  unfold lanesOk at *
  rw [h]
  exact k

/-- A new wafer record that holds the same load lanes. -/
theorem setWafer_keeps (s : State) (w : Wafer) (h : w.lanesHeld = s.wafer.lanesHeld) : Keeps [.wafer] [] s { s with wafer := w } :=
  .litInv (t := s) (.refl _ _) .lit (fun i => ⟨i.store, i.supplies, i.log, i.vectors, lanesOk_of h i.lanes⟩)

theorem setRepairs_lanesHeld (w : Wafer) (m : DefMap) (scope : List RegionId) : (setRepairs w m scope).lanesHeld = w.lanesHeld := by
  simp only [setRepairs]

theorem readMaps_lanesHeld (w : Wafer) (bad : List (Fin 2)) : (readMaps w bad).lanesHeld = w.lanesHeld := rfl

theorem powerUpTest_keeps (s1 : State) (e : PowerUp) : Keeps [.signals, .wafer, .flt] [] s1 (powerUpTest s1 e) := by
  unfold powerUpTest
  extract_lets +onlyGivenNames f s0 first m0 seq u1 s raw tree bad supplyIn r h u2 base m u3 s2
  have h0 : Keeps [.signals, .wafer, .flt] [] s1 s0 :=
    .step (setWafer_keeps _ _ (readMaps_lanesHeld _ _)) (by decide) (.refl _ _)
  clear_value s0
  have hs : Keeps [.signals, .wafer, .flt] [] s1 s := .step (setWafer_keeps _ _ rfl) (by decide) h0
  clear_value s
  clear_value m
  have h2 : Keeps [.signals, .wafer, .flt] [] s1 s2 :=
    .step (setWafer_keeps _ _ (setRepairs_lanesHeld _ _ _)) (by decide) hs
  clear_value s2
  refine .ite (fun _ => ?_) (fun _ => ?_)
  · exact .step (reportGrade_keeps _) (by decide) (.step (logIrq_keeps _ _ _ _ _ _ _) (by decide) (.step (setWafer_keeps s2 _ rfl) (by decide) h2))
  · exact .step (reportGrade_keeps _) (by decide) (.step (logRegions_keeps _ _ _) (by decide) (.step (logRegions_keeps _ _ _) (by decide) (.step (commitMap_keeps _ _) (by decide) h2)))

theorem endRetest_keeps (s : State) (r : RegionId) (supplyBad : Bool) (code : Nat) : Keeps [.regions, .tiles, .mem] [] s (endRetest s r supplyBad code) := by
  unfold endRetest
  exact .step (updRegion_keeps _ _ _) (by decide) (.step (scrubRegions_keeps _ _) (by decide) (.refl _ _))

/-! ### LoadCommands.lean -/

theorem cmdErr_keeps (s : State) (p : PartId) : Keeps [.signals, .parts] [p] s (cmdErr s p) := by
  unfold cmdErr
  exact .step (irq_keeps _ _) (by decide) (.step (updPartRegs_keeps _ _ _) (by decide) (.refl _ _))

theorem sendGo_keeps (s : State) (i : Image) : Keeps [.spa, .spb] [] s (sendGo s i) := by
  unfold sendGo
  split
  · refine .ite (fun _ => ?_) (fun _ => ?_)
    · exact .step (sendMsg_keeps _ _ _) (by decide) (.refl _ _)
    · exact .refl _ _
  · exact .refl _ _

theorem endDrain_keeps (s : State) (p : PartId) (why : DrainWhy) : Keeps [.glb, .signals, .sup, .nv, .regions, .parts, .imgs, .snds, .pins, .exps, .arbLast, .spa, .spb, .flt, .tiles, .mem] [p] s (endDrain s p why) := by
  unfold endDrain
  extract_lets +onlyGivenNames w1
  split
  · exact .step (updFlow_keeps _ _ _) (by decide) (.step (closeExport_keeps _ _) (by decide) (.refl _ _))
  · exact .step (finishActivation_keeps _) (by decide) (.step (updFlow_keeps _ _ _) (by decide) (.step (closeExport_keeps _ _) (by decide) (.refl _ _)))
  · split
    · extract_lets +onlyGivenNames v2
      have hv2 : Keeps [.glb, .signals, .sup, .nv, .regions, .parts, .imgs, .snds, .pins, .exps, .arbLast, .spa, .spb, .flt, .tiles, .mem] [p] s v2 :=
        .step (portsAfterDrain_keeps _ _ _ _) (by decide) (.step (pinsAfterDrain_keeps _ _) (by decide) (.refl _ _))
      clear_value v2
      exact .step (updLoad_keeps _ _ _) (by decide) (.step (endImage_keeps _ _ _) (by decide) hv2)
    · exact .step (endImage_keeps _ _ _) (by decide) (.step (releasePorts_keeps _ _) (by decide) (.step (pinsAfterDrain_keeps _ _) (by decide) (.refl _ _)))
  · refine .step (endImage_keeps _ _ _) (by decide) ?_
    exact .step (releasePorts_keeps _ _) (by decide) (.step (releasePins_keeps _ _) (by decide) (.step (pinsAfterDrain_keeps _ _) (by decide) (.refl _ _)))
  · refine .step (endImage_keeps _ _ _) (by decide) ?_
    exact .step (releasePorts_keeps _ _) (by decide) (.step (releasePins_keeps _ _) (by decide) (.step (pinsAfterDrain_keeps _ _) (by decide) (.refl _ _)))
  · refine .step (endImage_keeps _ _ _) (by decide) ?_
    exact .step (releasePorts_keeps _ _) (by decide) (.step (releasePins_keeps _ _) (by decide) (.step (pinsAfterDrain_keeps _ _) (by decide) (.refl _ _)))
  · extract_lets +onlyGivenNames v3
    have hv3 : Keeps [.glb, .signals, .sup, .nv, .regions, .parts, .imgs, .snds, .pins, .exps, .arbLast, .spa, .spb, .flt, .tiles, .mem] [p] s v3 :=
      .step (setCause_keeps _ _ _) (by decide) (.step (logPart_keeps _ _ _ _) (by decide) (.refl _ _))
    clear_value v3
    exact .step (endImage_keeps _ _ _) (by decide) (.step (releasePorts_keeps _ _) (by decide) (.step (releasePins_keeps _ _) (by decide) (.step (pinsAfterDrain_keeps _ _) (by decide) hv3)))

theorem freeHeld_keeps (s : State) (p : PartId) (failed : List RegionId) : Keeps [.signals, .wafer, .regions, .flt, .tiles, .mem] [] s (freeHeld s p failed) := by
  unfold freeHeld
  exact .step (endScrub_keeps _ _ _) (by decide) (.refl _ _)

theorem startWaiting_keeps (s : State) (p : PartId) (l : Option Load) : Keeps [.signals, .wafer, .regions, .parts, .bays, .imgs, .snds, .pins, .exps, .arbLast, .spa, .spb, .flt, .tiles, .mem] [p] s (startWaiting s p l) := by
  unfold startWaiting
  split
  · exact .step (beginLoad_keeps _ _ _ _ _) (by decide) (.refl _ _)
  · exact .refl _ _

theorem reloadAfterScrub_keeps (s : State) (p : PartId) (l : Load) (failed : List RegionId) : Keeps [.signals, .wafer, .regions, .parts, .bays, .imgs, .snds, .pins, .exps, .arbLast, .spa, .spb, .flt, .tiles, .mem] [p] s (reloadAfterScrub s p l failed) := by
  unfold reloadAfterScrub
  extract_lets +onlyGivenNames w1 v2
  have hv2 : Keeps [.signals, .wafer, .regions, .parts, .bays, .imgs, .snds, .pins, .exps, .arbLast, .spa, .spb, .flt, .tiles, .mem] [p] s v2 :=
    .step (updPart_keeps _ _ _) (by decide) (.refl _ _)
  clear_value v2
  refine .ite (fun _ => ?_) (fun _ => ?_)
  · exact .step (placeCold_keeps _ _ _) (by decide) (.step (freeHeld_keeps _ _ _) (by decide) hv2)
  · exact .step (startPreScrub_keeps _ _ _) (by decide) (.step (endScrub_keeps _ _ _) (by decide) hv2)

end Sys2Proof.Machine
end

