-- ==== Sys2Proof/Laws/KeepsUnit.lean ====
section
/-! SUPPORT. What the helpers of the model keep: timebase, bays, supervisor. One lemma a helper; claims cite it instead of unfolding the helper. -/

namespace Sys2Proof.Machine

-- One proof at a time: a default argument that is a tactic waits for every proof before it.
set_option Elab.async false

/-! ### Timebase.lean -/

theorem tick_keeps (s : State) : Keeps [.tbs] [] s (tick s) := by
  unfold tick
  refine .ite (fun _ => ?_) (fun _ => ?_)
  · exact .lit (t := s) (.refl _ _) .lit
  · exact .refl _ _

theorem loseReference_keeps (s : State) : Keeps [.signals, .tbs, .flt] [] s (loseReference s) := by
  unfold loseReference
  refine .ite (fun _ => ?_) (fun _ => ?_)
  · exact .step (logIrq_keeps _ _ _ _ _ _ _) (by decide) (.lit (t := s) (.refl _ _) .lit)
  · exact .refl _ _

/-! ### Bays.lean -/

theorem refuseBay_keeps (s : State) (b : BayId) (code : Nat) : Keeps [.signals, .bays, .flt] [b] s (refuseBay s b code) := by
  unfold refuseBay
  exact .step (logIrq_keeps _ _ _ _ _ _ _) (by decide) (.step (updBay_keeps _ _ _) (by decide) (.refl _ _))

theorem noteWear_keeps (s : State) (b : BayId) : Keeps [.signals, .bays] [b] s (noteWear s b) := by
  unfold noteWear
  extract_lets +onlyGivenNames w1 w2
  refine .ite (fun _ => ?_) (fun _ => ?_)
  · exact .refl _ _
  · exact .step (irq_keeps _ _) (by decide) (.step (updBay_keeps _ _ _) (by decide) (.refl _ _))

theorem logWear_keeps (s : State) (b : BayId) : Keeps [.nv, .flt] [] s (logWear s b) := by
  unfold logWear
  extract_lets +onlyGivenNames w1
  refine .foldl _ (fun v2 a3 hv2 => ?_) _ _ ?_
  · refine .ite (fun _ => ?_) (fun _ => ?_)
    · exact .step (logEvent_keeps _ _ _ _ _ _) (by decide) (.lit (t := v2) hv2 .lit)
    · exact hv2
  · exact .refl _ _

theorem takeIdentity_keeps (s : State) (b : BayId) (counters : List Byte) (armed : Fin 4) :
    Keeps [.signals, .nv, .bays, .flt] [b] s (takeIdentity s b counters armed) := by
  unfold takeIdentity
  extract_lets s1
  have h1 : Keeps [.signals, .nv, .bays, .flt] [b] s s1 := .step (updBay_keeps _ _ _) (by decide) (.refl _ _)
  clear_value s1
  exact .step (logWear_keeps _ _) (by decide) (.step (noteWear_keeps _ _) (by decide) (.step (logIrq_keeps _ _ _ _ _ _ _) (by decide) h1))

theorem checkIdentity_keeps (s : State) (b : BayId) (o : IdentityObs) : Keeps [.signals, .nv, .bays, .flt] [b] s (checkIdentity s b o) := by
  unfold checkIdentity
  extract_lets said
  have hsaid : ∀ u t, Keeps [.signals, .nv, .bays, .flt] [b] s u → Keeps [.signals, .nv, .bays, .flt] [b] s (said u t) :=
    fun u t h => .step (updBay_keeps _ _ _) (by decide) h
  clear_value said
  split
  · exact .step (refuseBay_keeps _ _ _) (by decide) (hsaid _ _ (.refl _ _))
  · extract_lets s1
    have h1 : Keeps [.signals, .nv, .bays, .flt] [b] s s1 := .step (updBay_keeps _ _ _) (by decide) (.refl _ _)
    clear_value s1
    split
    · exact .step (refuseBay_keeps _ _ _) (by decide) (hsaid _ _ h1)
    · split
      · exact .step (refuseBay_keeps _ _ _) (by decide) (hsaid _ _ h1)
      · split
        · exact .step (refuseBay_keeps _ _ _) (by decide) (hsaid _ _ h1)
        · exact .step (takeIdentity_keeps _ _ _ _) (by decide) (hsaid _ _ h1)

theorem dropQueuedLoad_keeps (s : State) (p : PartId) : Keeps [.parts] [p] s (dropQueuedLoad s p) := by
  unfold dropQueuedLoad
  exact .step (updPart_keeps _ _ _) (by decide) (.refl _ _)

theorem endMedia_keeps (s : State) (b : BayId) : Keeps [.signals, .wafer, .regions, .parts, .bays, .imgs, .snds, .pins, .spa, .spb, .flt, .tiles, .mem] [b] s (endMedia s b) := by
  unfold endMedia
  extract_lets +onlyGivenNames v1 v2
  have hv1 : Keeps [.signals, .wafer, .regions, .parts, .bays, .imgs, .snds, .pins, .spa, .spb, .flt, .tiles, .mem] [b] s v1 :=
    .step (logIrq_keeps _ _ _ _ _ _ _) (by decide) (.step (updBay_keeps _ _ _) (by decide) (.refl _ _))
  clear_value v1
  have hv2 : Keeps [.signals, .wafer, .regions, .parts, .bays, .imgs, .snds, .pins, .spa, .spb, .flt, .tiles, .mem] [b] s v2 :=
    .step (dropQueuedLoad_keeps _ _) (by decide) hv1
  clear_value v2
  refine .ite (fun _ => ?_) (fun _ => ?_)
  · exact .step (abortLoad_keeps _ _ _) (by decide) hv2
  · exact hv2

theorem readSmart_keeps (s : State) (b : BayId) (critical used : Nat) : Keeps [.signals, .bays] [b] s (readSmart s b critical used) :=
  .step (noteWear_keeps _ _) (by decide) (.step (updBay_keeps _ _ _) (by decide) (.refl _ _))

theorem acceptBay_keeps (s : State) (b : BayId) : Keeps [.signals, .bays, .flt] [b] s (acceptBay s b) := by
  unfold acceptBay
  refine .ite (fun _ => ?_) (fun _ => ?_)
  · exact .step (refuseBay_keeps _ _ _) (by decide) (.refl _ _)
  · exact .step (updBay_keeps _ _ _) (by decide) (.refl _ _)

theorem readDirectory_keeps (s : State) (b : BayId) (o : NvmeObs) : Keeps [.signals, .bays, .flt] [b] s (readDirectory s b o) := by
  unfold readDirectory
  extract_lets s1 slots slot s2
  have h1 : Keeps [.signals, .bays, .flt] [b] s s1 := .step (updBay_keeps _ _ _) (by decide) (.refl _ _)
  clear_value s1
  refine .ite (fun _ => ?_) (fun _ => ?_)
  · exact .step (refuseBay_keeps _ _ _) (by decide) h1
  · have h2 : Keeps [.signals, .bays, .flt] [b] s s2 := .step (updBay_keeps _ _ _) (by decide) h1
    clear_value s2
    refine .ite (fun _ => ?_) (fun _ => ?_)
    · exact .step (acceptBay_keeps _ _) (by decide) h2
    · exact .step (refuseBay_keeps _ _ _) (by decide) h2

theorem useCartridge_keeps (s : State) (b : BayId) (o : NvmeObs) : Keeps [.signals, .wafer, .regions, .parts, .bays, .imgs, .snds, .pins, .spa, .spb, .flt, .tiles, .mem] [b] s (useCartridge s b o) := by
  unfold useCartridge
  extract_lets +onlyGivenNames x s1
  have h1 : Keeps [.signals, .wafer, .regions, .parts, .bays, .imgs, .snds, .pins, .spa, .spb, .flt, .tiles, .mem] [b] s s1 := .step (updBay_keeps _ _ _) (by decide) (.refl _ _)
  clear_value s1
  refine .ite (fun _ => h1) (fun _ => .ite (fun _ => .step (endMedia_keeps _ _) (by decide) h1) (fun _ => ?_))
  extract_lets s2
  have h2 : Keeps [.signals, .wafer, .regions, .parts, .bays, .imgs, .snds, .pins, .spa, .spb, .flt, .tiles, .mem] [b] s s2 := .step (readSmart_keeps _ _ _ _) (by decide) h1
  clear_value s2
  exact .ite (fun _ => h2) (fun _ => .step (readDirectory_keeps _ _ _) (by decide) h2)

theorem completeCmd_keeps (s : State) (b : BayId) (c : NvmeCmd) : Keeps [.parts, .bays] [b] s (completeCmd s b c) := by
  unfold completeCmd
  exact .step (updLoad_keeps _ _ _) (by decide) (.step (updBay_keeps _ _ _) (by decide) (.refl _ _))

theorem mediaFailure_keeps (s : State) (b : BayId) (c : NvmeCmd) : Keeps [.signals, .wafer, .regions, .parts, .bays, .imgs, .snds, .pins, .spa, .spb, .flt, .tiles, .mem] [b] s (mediaFailure s b c) := by
  unfold mediaFailure
  refine .ite (fun _ => ?_) (fun _ => ?_)
  · exact .step (endMedia_keeps _ _) (by decide) (.refl _ _)
  · exact .step (updBay_keeps _ _ _) (by decide) (.refl _ _)

theorem stopOnRemoval_keeps (s : State) (p : PartId) : Keeps [.signals, .parts, .exps, .arbLast, .spa, .spb] [p] s (stopOnRemoval s p) := by
  unfold stopOnRemoval
  split
  · refine .ite (fun _ => ?_) (fun _ => ?_)
    · exact .step (beginDrain_keeps _ _ _) (by decide) (.refl _ _)
    · exact .refl _ _
  · exact .refl _ _

theorem removeCartridge_keeps (s : State) (b : BayId) : Keeps [.signals, .wafer, .regions, .parts, .bays, .imgs, .snds, .pins, .exps, .arbLast, .spa, .spb, .flt, .tiles, .mem] [b] s (removeCartridge s b) := by
  unfold removeCartridge
  extract_lets +onlyGivenNames v1 v2
  have hv1 : Keeps [.signals, .wafer, .regions, .parts, .bays, .imgs, .snds, .pins, .exps, .arbLast, .spa, .spb, .flt, .tiles, .mem] [b] s v1 :=
    .step (dropQueuedLoad_keeps _ _) (by decide) (.step (logIrq_keeps _ _ _ _ _ _ _) (by decide) (.refl _ _))
  clear_value v1
  have hv2 : Keeps [.signals, .wafer, .regions, .parts, .bays, .imgs, .snds, .pins, .exps, .arbLast, .spa, .spb, .flt, .tiles, .mem] [b] s v2 := by
    unfold v2
    refine .ite (fun _ => ?_) (fun _ => ?_)
    · exact .step (abortLoad_keeps _ _ _) (by decide) hv1
    · exact hv1
  clear_value v2
  exact .step (updBay_keeps _ _ _) (by decide) (.step (stopOnRemoval_keeps _ _) (by decide) hv2)

/-! ### Supervisor.lean -/

theorem updSlot_keeps (s : State) (slotB : Bool) (f : FwSlot → FwSlot) : Keeps [.sup] [] s (updSlot s slotB f) := by
  unfold updSlot
  exact .lit (t := s) (.refl _ _) .lit

theorem bootLog_keeps (s : State) : Keeps [.sup, .flt] [] s (bootLog s) := by
  have h1 : Keeps [.sup, .flt] [] s (match s.sup.watchdogRun with
    | none => s
    | some (run, t) =>
      { s with flt := { s.flt with
          entries := (({ seq := s.flt.nextSeq, powerOn := run, time := t, code := 0x0001 } : LogEntry) :: s.flt.entries).take 4096,
          nextSeq := s.flt.nextSeq + 1 } }) := by
    split
    · exact .refl _ _
    · exact .litInv (t := s) (.refl _ _) .lit (fun h => ⟨h.store, h.supplies, logOk_cons _ _ rfl h.log, h.vectors, h.lanes⟩)
  unfold bootLog
  extract_lets +onlyGivenNames u s1 s2 s3
  change Keeps _ _ s s1 at h1
  clear_value s1
  have h2 : Keeps [.sup, .flt] [] s s2 := by
    unfold s2
    split
    · exact h1
    · exact .step (logEvent_keeps _ _ _ _ _ _) (by decide) h1
  clear_value s2
  have h3 : Keeps [.sup, .flt] [] s s3 := .ite (fun _ => .step (logEvent_keeps _ _ _ _ _ _) (by decide) h2) (fun _ => h2)
  clear_value s3
  exact .lit (t := s3) h3 .lit

theorem bootLock_keeps (s : State) : Keeps [.tbs] [] s (bootLock s) := by
  unfold bootLock
  exact .lit (t := s) (.refl _ _) .lit

theorem bootWafer_keeps (s : State) (e : PowerUp) : Keeps [.signals, .wafer, .regions, .flt] [] s (bootWafer s e) := by
  unfold bootWafer
  extract_lets +onlyGivenNames s1 u
  have h1 : Keeps [.signals, .wafer, .regions, .flt] [] s s1 := .step (powerUpTest_keeps _ _) (by decide) (.refl _ _)
  clear_value s1
  have h2 : Keeps [.signals, .wafer, .regions, .flt] [] s u := by
    unfold u
    exact .step (updRegions_keeps _ _) (by decide) h1
  have hw : u.wafer = s1.wafer := rfl
  clear_value u
  exact .litInv (t := u) h2 .lit (fun h => ⟨h.store, h.supplies, h.log, h.vectors, (fun e => by have := h.lanes e; rw [hw] at this; exact this)⟩)

theorem bootService_keeps (s : State) : Keeps [.glb, .signals, .flt] [] s (bootService s) := by
  unfold bootService
  refine .ite (fun _ => ?_) (fun _ => ?_)
  · exact .refl _ _
  · extract_lets +onlyGivenNames u1 v2
    have hv2 : Keeps [.glb, .signals, .flt] [] s v2 := by
      unfold v2
      refine .ite (fun _ => ?_) (fun _ => ?_)
      · exact .step (logIrq_keeps _ _ _ _ _ _ _) (by decide) (.litInv (t := s) (.refl _ _) .lit (fun h => ⟨h.store, h.supplies, h.log, h.vectors, h.lanes⟩))
      · exact .refl _ _
    clear_value v2
    refine .ite (fun _ => ?_) (fun _ => ?_)
    · exact hv2
    · exact .step (logIrq_keeps _ _ _ _ _ _ _) (by decide) (.litInv (t := v2) hv2 .lit (fun h => ⟨h.store, h.supplies, h.log, h.vectors, h.lanes⟩))

theorem bootBay_keeps (e : PowerUp) (s : State) (b : BayId) : Keeps [.signals, .nv, .wafer, .regions, .parts, .bays, .imgs, .snds, .pins, .spa, .spb, .flt, .tiles, .mem] [b] s (bootBay e s b) := by
  unfold bootBay
  split
  · exact .refl _ _
  · extract_lets s1
    have h1 : Keeps [.signals, .nv, .wafer, .regions, .parts, .bays, .imgs, .snds, .pins, .spa, .spb, .flt, .tiles, .mem] [b] s s1 :=
      .step (updBay_keeps _ _ _) (by decide) (.refl _ _)
    clear_value s1
    exact .step (useCartridge_keeps _ _ _) (by decide) (.step (checkIdentity_keeps _ _ _) (by decide) h1)

theorem bootLoad_keeps (e : PowerUp) (s : State) (b : BayId) : Keeps [.signals, .wafer, .regions, .parts, .bays, .imgs, .snds, .pins, .exps, .arbLast, .spa, .spb, .flt, .tiles, .mem] [b] s (bootLoad e s b) := by
  unfold bootLoad
  split
  · exact .refl _ _
  · refine .ite (fun _ => ?_) (fun _ => ?_)
    · exact .step (loadRequest_keeps _ _ _ _) (by decide) (.step (updBay_keeps _ _ _) (by decide) (.refl _ _))
    · exact .refl _ _

theorem passTrial_keeps (s : State) (b : Bool) : Keeps [.signals, .sup] [] s (passTrial s b) := by
  unfold passTrial
  extract_lets +onlyGivenNames v1 v2
  have hv1 : Keeps [.signals, .sup] [] s v1 :=
    .step (updSlot_keeps _ _ _) (by decide) (.refl _ _)
  clear_value v1
  have hv2 : Keeps [.signals, .sup] [] s v2 :=
    .step (updSlot_keeps _ _ _) (by decide) hv1
  clear_value v2
  exact .step (irq_keeps _ _) (by decide) (.lit (t := v2) hv2 .lit)

theorem fwError_keeps (s : State) : Keeps [.sup] [] s (fwError s) := by
  unfold fwError
  exact .lit (t := s) (.refl _ _) .lit

theorem fwSeqError_keeps (s : State) : Keeps [.sup] [] s (fwSeqError s) := by
  unfold fwSeqError
  exact .lit (t := s) (.refl _ _) .lit

end Sys2Proof.Machine
end

