-- ==== Sys2Proof/Laws/KeepsFabric.lean ====
section
/-! SUPPORT. What the helpers of the model keep: routers, tiles, export, verdicts. One lemma a helper; claims cite it instead of unfolding the helper. -/

namespace Sys2Proof.Machine

-- One proof at a time: a default argument that is a tactic waits for every proof before it.
set_option Elab.async false

/-! ### Router.lean -/

theorem bumpTile_keeps (s : State) (k : Nat) (f : TileCounters → TileCounters) : Keeps [.tiles] [] s (bumpTile s k f) := by
  unfold bumpTile
  exact .step (updTile_keeps _ _ _) (by decide) (.refl _ _)

theorem updStage_keeps (s : State) (p : PartId) (i : Nat) (f : StageSt → StageSt) : Keeps [.parts] [p] s (updStage s p i f) := by
  unfold updStage
  exact .step (updFabric_keeps _ _ _) (by decide) (.refl _ _)

theorem updQueue_keeps (s : State) (p : PartId) (i : Nat) (f : QueueSt → QueueSt) : Keeps [.parts] [p] s (updQueue s p i f) := by
  unfold updQueue
  exact .step (updFabric_keeps _ _ _) (by decide) (.refl _ _)

theorem eccActive_keeps (s : State) (p : PartId) (k : Nat) (e : EccRead) : Keeps [.signals, .wafer, .regions, .parts, .imgs, .snds, .pins, .exps, .arbLast, .spa, .spb, .flt, .tiles] [p] s (eccActive s p k e) := by
  unfold eccActive
  split
  · exact .refl _ _
  · exact .step (bumpTile_keeps _ _ _) (by decide) (.refl _ _)
  · exact .step (faultEntry_keeps _ _ _ _ _) (by decide) (.step (bumpTile_keeps _ _ _) (by decide) (.refl _ _))

theorem eccEffect_keeps (s : State) (k w : Nat) (e : EccRead) : Keeps [.signals, .wafer, .regions, .parts, .imgs, .snds, .pins, .exps, .arbLast, .spa, .spb, .flt, .tiles, .mem] allParts s (eccEffect s k w e) := by
  unfold eccEffect
  split
  · exact .refl _ _
  · exact .step (bumpTile_keeps _ _ _) (by decide) (.refl _ _)
  · extract_lets +onlyGivenNames v1 v2
    have hv1 : Keeps [.signals, .wafer, .regions, .parts, .imgs, .snds, .pins, .exps, .arbLast, .spa, .spb, .flt, .tiles, .mem] allParts s v1 :=
      .step (bumpTile_keeps _ _ _) (by decide) (.refl _ _)
    clear_value v1
    have hv2 : Keeps [.signals, .wafer, .regions, .parts, .imgs, .snds, .pins, .exps, .arbLast, .spa, .spb, .flt, .tiles, .mem] allParts s v2 := by
      unfold v2
      exact .litInv (t := v1) hv1 .lit (fun h => ⟨⟨tabWf_filter _ _ _ h.store.1, h.store.2⟩, h.supplies, h.log, h.vectors, h.lanes⟩)
    clear_value v2
    split
    · exact hv2
    · extract_lets +onlyGivenNames w3
      refine .ite (fun _ => ?_) (fun _ => ?_)
      · exact .step (eccActive_keeps _ _ _ _) (by decide) (.refl _ _)
      · refine .ite (fun _ => ?_) (fun _ => ?_)
        · exact .step (failGroup_keeps _ _ _) (by decide) hv1
        · exact hv2

theorem putFf_keeps (s : State) (k : Nat) (ff : Vector Bool 8) : Keeps [.tiles] [] s (putFf s k ff) := by
  unfold putFf
  exact .step (updTile_keeps _ _ _) (by decide) (.refl _ _)

theorem fireEast_keeps (s0 : State) : ∀ (n : Nat) (s : State) (k : Nat) (cin fired : Bool), Keeps [.tiles] [] s (fireEast s0 s n k cin fired)
  | 0, _, _, _, _ => .refl _ _
  | n + 1, s, k, cin, fired => by
    unfold fireEast
    refine .ite (fun _ => ?_) (fun _ => .refl _ _)
    exact .step (fireEast_keeps s0 n _ _ _ _) (by decide) (.step (putFf_keeps _ _ _) (by decide) (.refl _ _))

theorem fireCells_keeps (s : State) (k : Nat) (x : CellIn) (ev : CellEvent) : Keeps [.tiles] [] s (fireCells s k x ev) :=
  .step (fireEast_keeps _ _ _ _ _ _) (by decide) (.step (putFf_keeps _ _ _) (by decide) (.refl _ _))

theorem putSlot_keeps (s : State) (a : Nat) (f : Flit) : Keeps [.mem] [] s (putSlot s a f) := writeMem_keeps _ _ _

theorem queueIn_keeps (s : State) (p : PartId) (j : Nat) (f : Flit) : Keeps [.parts, .mem] [p] s (queueIn s p j f) := by
  unfold queueIn
  split
  · exact .refl _ _
  · refine .ite (fun _ => ?_) (fun _ => ?_)
    · exact .step (updQueue_keeps _ _ _ _) (by decide) (.step (putSlot_keeps _ _ _) (by decide) (.refl _ _))
    · exact .step (updQueue_keeps _ _ _ _) (by decide) (.step (putSlot_keeps _ _ _) (by decide) (.refl _ _))

theorem queueOut_keeps (s : State) (p : PartId) (j : Nat) : Keeps [.parts, .mem] [p] s (queueOut s p j) := by
  unfold queueOut
  split
  · exact .refl _ _
  · extract_lets out
    refine .ite (fun _ => ?_) (fun _ => ?_)
    · exact .step (updQueue_keeps _ _ _ _) (by decide) (.refl _ _)
    · exact .step (updQueue_keeps _ _ _ _) (by decide) (.step (putSlot_keeps _ _ _) (by decide) (.refl _ _))

theorem closeSpill_keeps (s : State) (p : PartId) : Keeps [.parts] [p] s (closeSpill s p) := by
  unfold closeSpill
  extract_lets +onlyGivenNames w1
  split
  · exact .refl _ _
  · refine .ite (fun _ => ?_) (fun _ => ?_)
    · exact .refl _ _
    · exact .step (updFabric_keeps _ _ _) (by decide) (.refl _ _)

theorem gatewayTake_keeps (s : State) (p : PartId) (piece : Nat) (f : Flit) : Keeps [.parts, .snds, .spa, .spb] [p] s (gatewayTake s p piece f) := by
  unfold gatewayTake
  split
  · exact .refl _ _
  · extract_lets +onlyGivenNames w1 w2 w3
    refine .ite (fun _ => ?_) (fun _ => ?_)
    · extract_lets +onlyGivenNames w4
      exact .step (updSpn_keeps _ _ _) (by decide) (.refl _ _)
    · refine .ite (fun _ => ?_) (fun _ => ?_)
      · exact .step (updFlow_keeps _ _ _) (by decide) (.refl _ _)
      · refine .ite (fun _ => ?_) (fun _ => ?_)
        · split
          · exact .step (updSnd_keeps _ _ _) (by decide) (.refl _ _)
          · exact .refl _ _
        · exact .refl _ _

theorem driveFlit_keeps (s : State) (k : Nat) (d : Dir) (f : Flit) : Keeps [.tiles] [] s (driveFlit s k d f) := by
  unfold driveFlit
  refine .ite (fun _ => ?_) (fun _ => ?_)
  · exact .step (bumpTile_keeps _ _ _) (by decide) (.refl _ _)
  · exact .step (updTile_keeps _ _ _) (by decide) (.refl _ _)

theorem sendCredits_keeps (s : State) (k : Nat) (d : Dir) (t : State) (h : sendCredits s k d = some t) : Keeps [.tiles] [] s t := by
  unfold sendCredits at h
  extract_lets w side at h
  split at h
  · injection h with h; subst h
    exact .step (updTile_keeps _ _ _) (by decide) (.step (driveFlit_keeps _ _ _ _) (by decide) (.refl _ _))
  · exact absurd h (by simp)

theorem sendPort_keeps (s : State) (k : Nat) (f : Flit) (port : Nat) : Keeps [.tiles] [] s (sendPort s k f port) := by
  unfold sendPort
  extract_lets +onlyGivenNames w1 v2
  have hv2 : Keeps [.tiles] [] s v2 :=
    .step (updTile_keeps _ _ _) (by decide) (.refl _ _)
  clear_value v2
  refine .ite (fun _ => ?_) (fun _ => ?_)
  · extract_lets +onlyGivenNames w3
    exact .step (driveFlit_keeps _ _ _ _) (by decide) (.step (updTile_keeps _ _ _) (by decide) hv2)
  · extract_lets +onlyGivenNames w4
    exact .step (fireCells_keeps _ _ _ _) (by decide) (.step (updTile_keeps _ _ _) (by decide) hv2)

theorem forward_keeps (s : State) (k : Nat) (e : RouteEntry) (f : Flit) : Keeps [.tiles] [] s (forward s k e f) := by
  unfold forward
  refine .foldl _ (fun v1 a2 hv1 => ?_) _ _ ?_
  · exact .step (sendPort_keeps _ _ _ _) (by decide) hv1
  · exact .refl _ _

theorem sendInput_keeps (s : State) (p : PartId) (k : Nat) (i : Fin 30) (t : State) (h : sendInput s p k i = some t) : Keeps [.parts, .tiles, .mem] [p] s t := by
  unfold sendInput at h
  extract_lets w e s1 at h
  split at h
  · exact absurd h (by simp)
  · split at h
    · have h1 : Keeps [.parts, .tiles, .mem] [p] s s1 := by
        unfold s1
        split
        · exact .step (closeSpill_keeps _ _) (by decide) (.step (queueOut_keeps _ _ _) (by decide) (.refl _ _))
        · exact .step (updTile_keeps _ _ _) (by decide) (.refl _ _)
      injection h with h; subst h
      exact .step (forward_keeps _ _ _ _) (by decide) h1
    · exact absurd h (by simp)

theorem sendAny_keeps (s : State) (p : PartId) (k : Nat) (t : State) (h : sendAny s p k = some t) : Keeps [.parts, .tiles, .mem] [p] s t := by
  unfold sendAny at h
  obtain ⟨o, _, ho⟩ := List.exists_of_findSome?_eq_some h
  obtain ⟨l, _, hl⟩ := List.exists_of_findSome?_eq_some ho
  obtain ⟨i, _, hi⟩ := Option.bind_eq_some_iff.mp hl
  exact .step (sendInput_keeps _ _ _ _ _ hi) (by decide) (.refl _ _)

theorem enqueueAny_keeps (s : State) (p : PartId) (k : Nat) (t : State) (h : enqueueAny s p k = some t) : Keeps [.parts, .tiles, .mem] [p] s t := by
  unfold enqueueAny at h
  obtain ⟨i, _, hi⟩ := List.exists_of_findSome?_eq_some h
  split at hi
  · obtain ⟨q, _, hq⟩ := Option.bind_eq_some_iff.mp hi
    split at hq
    · injection hq with hq; subst hq
      exact .step (updTile_keeps _ _ _) (by decide) (.step (queueIn_keeps _ _ _ _) (by decide) (.refl _ _))
    · exact absurd hq (by simp)
  · exact absurd hi (by simp)

theorem sendLocal_keeps (s : State) (k : Nat) (t : State) (h : sendLocal s k = some t) : Keeps [.tiles] [] s t := by
  unfold sendLocal at h
  extract_lets w at h
  split at h
  · exact absurd h (by simp)
  · extract_lets i at h
    split at h
    · injection h with h; subst h
      exact .step (updTile_keeps _ _ _) (by decide) (.step (bumpTile_keeps _ _ _) (by decide) (.refl _ _))
    · split at h
      · injection h with h; subst h
        exact .step (fireCells_keeps _ _ _ _) (by decide) (.step (updTile_keeps _ _ _) (by decide) (.refl _ _))
      · exact absurd h (by simp)

theorem spanDrained_keeps (s : State) (src : Option (Nat × Nat)) : Keeps [.spa] [] s (spanDrained s src) := by
  unfold spanDrained
  split
  · refine .ite (fun _ => ?_) (fun _ => ?_)
    · extract_lets +onlyGivenNames w1
      exact .lit (t := s) (.refl _ _) .lit
    · exact .refl _ _
  · exact .refl _ _

theorem sendGateway_keeps (s : State) (k : Nat) (pp : PlacedPiece) (a b : Nat) (t : State) (h : sendGateway s k pp a b = some t) :
    Keeps [.regions, .spa, .tiles] [] s t := by
  unfold sendGateway at h
  extract_lets +onlyGivenNames w r at h
  obtain ⟨d, _, hd⟩ := List.exists_of_findSome?_eq_some h
  split at hd
  · exact absurd hd (by simp)
  · split at hd
    · exact absurd hd (by simp)
    · obtain ⟨l, _, hl⟩ := List.exists_of_findSome?_eq_some hd
      extract_lets c at hl
      split at hl
      · exact absurd hl (by simp)
      · split at hl
        · exact absurd hl (by simp)
        · obtain ⟨x, _, rfl⟩ := Option.map_eq_some_iff.mp hl
          exact .step (driveFlit_keeps _ _ _ _) (by decide) (.step (updTile_keeps _ _ _) (by decide)
            (.step (spanDrained_keeps _ _) (by decide) (.step (updRegion_keeps _ _ _) (by decide) (.refl _ _))))

/-! ### Tile.lean -/

theorem workSteps_keeps (s : State) (k n : Nat) (x : CellIn) : Keeps [.tiles] [] s (workSteps s k n x) := by
  unfold workSteps
  refine .ite (fun _ => .refl _ _) (fun _ => ?_)
  extract_lets s1
  have h1 : Keeps [.tiles] [] s s1 := .step (bumpTile_keeps _ _ _) (by decide) (.step (updTile_keeps _ _ _) (by decide) (.refl _ _))
  clear_value s1
  exact .foldl _ (fun _ _ h => .step (fireCells_keeps _ _ _ _) (by decide) h) _ _ h1

theorem putSend_keeps (s : State) (k : Nat) (fs : List Flit) : Keeps [.tiles] [] s (putSend s k fs) := by
  unfold putSend
  exact .step (updTile_keeps _ _ _) (by decide) (.refl _ _)

theorem takeLocal_keeps (s : State) (k lane : Nat) : Keeps [.tiles] [] s (takeLocal s k lane) := by
  unfold takeLocal
  extract_lets +onlyGivenNames w1
  exact .step (updTile_keeps _ _ _) (by decide) (.refl _ _)

theorem admitSet_keeps (s : State) (p : PartId) (k j : Nat) (m : List Byte) (g : StageSt) (endShed : Bool) : Keeps [.parts, .tiles] [p] s (admitSet s p k j m g endShed) := by
  unfold admitSet
  extract_lets +onlyGivenNames w1 w2 w3 v4
  have hv4 : Keeps [.parts, .tiles] [p] s v4 :=
    .step (updStage_keeps _ _ _ _) (by decide) (.refl _ _)
  clear_value v4
  exact .step (putSend_keeps _ _ _) (by decide) hv4

theorem takeCandidate_keeps (s : State) (p : PartId) (k j : Nat) (m : List Byte) (g : StageSt) (f : Flit) : Keeps [.parts, .tiles] [p] s (takeCandidate s p k j m g f) := by
  unfold takeCandidate
  extract_lets +onlyGivenNames w1 v2
  have hv2 : Keeps [.parts, .tiles] [p] s v2 :=
    .step (takeLocal_keeps _ _ _) (by decide) (.refl _ _)
  clear_value v2
  refine .ite (fun _ => ?_) (fun _ => ?_)
  · exact .step (updStage_keeps _ _ _ _) (by decide) hv2
  · refine .ite (fun _ => ?_) (fun _ => ?_)
    · exact .step (admitSet_keeps _ _ _ _ _ _ _) (by decide) (.step (updStage_keeps _ _ _ _) (by decide) hv2)
    · exact .step (workSteps_keeps _ _ _ _) (by decide) (.step (updStage_keeps _ _ _ _) (by decide) hv2)

theorem fireSet_keeps (s : State) (p : PartId) (k j : Nat) (m : List Byte) (g : StageSt) : Keeps [.parts, .tiles] [p] s (fireSet s p k j m g) := by
  unfold fireSet
  refine .ite (fun _ => ?_) (fun _ => ?_)
  · exact .step (updStage_keeps _ _ _ _) (by decide) (.refl _ _)
  · extract_lets +onlyGivenNames members edges r s1 s2
    have h1 : Keeps [.parts, .tiles] [p] s s1 := .step (updStage_keeps _ _ _ _) (by decide) (.refl _ _)
    clear_value s1
    have h2 : Keeps [.parts, .tiles] [p] s s2 := .step (bumpTile_keeps _ _ _) (by decide) h1
    clear_value s2
    exact .step (putSend_keeps _ _ _) (by decide) (.step (workSteps_keeps _ _ _ _) (by decide) h2)

theorem takePixel_keeps (s : State) (p : PartId) (k j : Nat) (m : List Byte) (g : StageSt) : Keeps [.parts, .tiles] [p] s (takePixel s p k j m g) := by
  unfold takePixel
  extract_lets +onlyGivenNames q r s1
  have h1 : Keeps [.parts, .tiles] [p] s s1 := .step (workSteps_keeps _ _ _ _) (by decide) (.refl _ _)
  clear_value s1 r
  refine .ite (fun _ => ?_) (fun _ => ?_)
  · extract_lets +onlyGivenNames s2
    have h2 : Keeps [.parts, .tiles] [p] s s2 := .step (updStage_keeps _ _ _ _) (by decide) h1
    clear_value s2
    exact .step (putSend_keeps _ _ _) (by decide) (.step (updTile_keeps _ _ _) (by decide) h2)
  · exact .step (putSend_keeps _ _ _) (by decide) (.step (updStage_keeps _ _ _ _) (by decide) h1)

theorem takeRaster_keeps (s : State) (p : PartId) (k j : Nat) (m : List Byte) (g : StageSt) (t : State)
    (h : takeRaster s p k j m g = some t) : Keeps [.parts, .tiles] [p] s t := by
  unfold takeRaster at h
  extract_lets +onlyGivenNames w q plain wide put at h
  have hput : ∀ r f u, put r f = some u → Keeps [.parts, .tiles] [p] s u := by
    intro r f u hu
    injection hu with hu; subst hu
    exact .step (updStage_keeps _ _ _ _) (by decide) (.step (updTile_keeps _ _ _) (by decide) (.refl _ _))
  clear_value put
  split at h
  · obtain ⟨x, _, rfl⟩ := Option.map_eq_some_iff.mp h
    exact .step (updTile_keeps _ _ _) (by decide) (.refl _ _)
  · split at h
    · injection h with h; subst h
      exact .step (takePixel_keeps _ _ _ _ _ _) (by decide) (.refl _ _)
    · split at h
      · exact hput _ _ _ h
      · split at h
        · exact hput _ _ _ h
        · split at h
          · exact hput _ _ _ h
          · exact absurd h (by simp)

theorem fireVerdict_keeps (s : State) (p : PartId) (k j stage : Nat) (m : List Byte) (g : StageSt) (w : Window) :
    Keeps [.parts, .tiles] [p] s (fireVerdict s p k j stage m g w) := by
  unfold fireVerdict
  extract_lets +onlyGivenNames x n v half tOn tOff stream d s1 s2
  have h1 : Keeps [.parts, .tiles] [p] s s1 :=
    .step (updStage_keeps _ _ _ _) (by decide) (.step (updTile_keeps _ _ _) (by decide) (.refl _ _))
  clear_value s1
  have h2 : Keeps [.parts, .tiles] [p] s s2 := .step (updFlow_keeps _ _ _) (by decide) h1
  clear_value s2
  exact .step (putSend_keeps _ _ _) (by decide) (.step (bumpTile_keeps _ _ _) (by decide) h2)

theorem takeVerdict_keeps (s : State) (p : PartId) (k j stage : Nat) (m : List Byte) (g : StageSt) (t : State)
    (h : takeVerdict s p k j stage m g = some t) : Keeps [.parts, .tiles] [p] s t := by
  unfold takeVerdict at h
  extract_lets need classes at h
  split at h
  · obtain ⟨x, _, rfl⟩ := Option.map_eq_some_iff.mp h
    exact .step (updTile_keeps _ _ _) (by decide) (.refl _ _)
  · split at h
    · obtain ⟨w, _, rfl⟩ := Option.map_eq_some_iff.mp h
      exact .step (fireVerdict_keeps _ _ _ _ _ _ _ _) (by decide) (.refl _ _)
    · split at h
      · injection h with h; subst h
        exact .step (updStage_keeps _ _ _ _) (by decide) (.step (takeLocal_keeps _ _ _) (by decide) (.refl _ _))
      · split at h
        · injection h with h; subst h
          exact .step (updStage_keeps _ _ _ _) (by decide) (.step (updTile_keeps _ _ _) (by decide) (.refl _ _))
        · exact absurd h (by simp)

theorem consumeStage_keeps (s : State) (p : PartId) (k : Nat) (t : State) (h : consumeStage s p k = some t) : Keeps [.parts, .tiles] [p] s t := by
  unfold consumeStage at h
  extract_lets +onlyGivenNames w m op at h
  split at h
  · exact absurd h (by simp)
  · split at h
    · obtain ⟨g, _, hg⟩ := Option.bind_eq_some_iff.mp h
      split at hg
      · exact .step (takeVerdict_keeps _ _ _ _ _ _ _ _ hg) (by decide) (.refl _ _)
      · split at hg
        · exact .step (takeRaster_keeps _ _ _ _ _ _ _ hg) (by decide) (.refl _ _)
        · split at hg
          · obtain ⟨f, _, rfl⟩ := Option.map_eq_some_iff.mp hg
            exact .step (takeCandidate_keeps _ _ _ _ _ _ _) (by decide) (.refl _ _)
          · split at hg
            · split at hg
              · exact absurd hg (by simp)
              · injection hg with hg; subst hg
                exact .step (fireSet_keeps _ _ _ _ _ _) (by decide) (.refl _ _)
            · split at hg
              · obtain ⟨f, _, rfl⟩ := Option.map_eq_some_iff.mp hg
                exact .step (updStage_keeps _ _ _ _) (by decide) (.step (takeLocal_keeps _ _ _) (by decide) (.refl _ _))
              · obtain ⟨f, _, rfl⟩ := Option.map_eq_some_iff.mp hg
                exact .step (workSteps_keeps _ _ _ _) (by decide)
                  (.step (updStage_keeps _ _ _ _) (by decide) (.step (takeLocal_keeps _ _ _) (by decide) (.refl _ _)))
    · exact absurd h (by simp)

theorem moveOnce_keeps (s : State) (p : PartId) (k : Nat) (t : State) (h : moveOnce s p k = some t) : Keeps [.regions, .parts, .spa, .tiles, .mem] [p] s t := by
  unfold moveOnce at h
  split at h
  · rename_i s1 hc
    obtain ⟨d, _, hd⟩ := List.exists_of_findSome?_eq_some hc
    injection h with h; subst h
    exact .step (sendCredits_keeps _ _ _ _ hd) (by decide) (.refl _ _)
  · split at h
    · exact .step (sendGateway_keeps _ _ _ _ _ _ h) (by decide) (.refl _ _)
    · split at h
      · split at h
        · injection h with h; subst h
          exact .step (enqueueAny_keeps _ _ _ _ ‹_›) (by decide) (.refl _ _)
        · split at h
          · injection h with h; subst h
            exact .step (sendLocal_keeps _ _ _ ‹_›) (by decide) (.refl _ _)
          · split at h
            · injection h with h; subst h
              exact .step (sendAny_keeps _ _ _ _ ‹_›) (by decide) (.refl _ _)
            · exact .step (consumeStage_keeps _ _ _ _ h) (by decide) (.refl _ _)
      · exact absurd h (by simp)

theorem pumpMoves_keeps : ∀ (n : Nat) (s : State) (p : PartId) (k : Nat), Keeps [.regions, .parts, .spa, .tiles, .mem] allParts s (pumpMoves n s p k)
  | 0, _, _, _ => .refl _ _
  | n + 1, s, p, k => by
    unfold pumpMoves
    split
    · exact .step (pumpMoves_keeps n _ p k) (by decide) (.step (moveOnce_keeps _ _ _ _ ‹_›) (by decide) (.refl _ _))
    · exact .refl _ _

theorem pumpTile_keeps (s : State) (k : Nat) : Keeps [.regions, .parts, .spa, .tiles, .mem] allParts s (pumpTile s k) := by
  unfold pumpTile
  split
  · refine .ite (fun _ => ?_) (fun _ => .refl _ _)
    exact .step (pumpMoves_keeps _ _ _ _) (by decide) (.refl _ _)
  · exact .refl _ _

theorem histCount_wf (mem : List Host.Cell) (a : Nat) (h : Memory.wf mem = true) : Memory.wf (histCount mem a).1 = true := by
  unfold histCount
  extract_lets n
  split
  · exact h
  · exact Memory.writeBytes_wf _ _ _ h

theorem histEmit_wf (q : Config.OpParams) (mem : List Host.Cell) (k : Nat) (t : Tile) (h : Memory.wf mem = true) :
    Memory.wf (histEmit q mem k t).2 = true := by
  have key : ∀ (bs : List Nat) (acc : List Nat × List Host.Cell), Memory.wf acc.2 = true →
      Memory.wf (bs.foldl (fun acc b =>
        (acc.1 ++ [leNat (Memory.readBytes acc.2 (histAddr q k t b) 2) / 256, leNat (Memory.readBytes acc.2 (histAddr q k t b) 2) % 256],
         Memory.writeBytes acc.2 (histAddr q k t b) [0, 0])) acc).2 = true := by
    intro bs
    induction bs with
    | nil => intro acc ha; exact ha
    | cons b bs ih => intro acc ha; exact ih _ (Memory.writeBytes_wf _ _ _ ha)
  exact key _ _ h

/-- An accumulation leaves memory as it is. -/
theorem accumulate_mem (m : List Byte) (q : Config.OpParams) (mem : List Host.Cell) (k : Nat) (e : Elem) (second : Option Elem) (channel : Nat)
    (t : Tile) : (accumulate m q mem k e second channel t).mem = mem := by
  unfold accumulate
  extract_lets +onlyGivenNames t1 two
  clear_value two
  split
  · rfl
  · split <;> rfl

/-- An end leaves memory as it is. -/
theorem endStep_mem (m : List Byte) (q : Config.OpParams) (mem : List Host.Cell) (k : Nat) (t : Tile) (r : Stepped)
    (h : endStep m q mem k t = some r) : r.mem = mem := by
  unfold endStep at h
  extract_lets redEnd blockEnd last at h
  obtain ⟨sc, _, rfl⟩ := Option.map_eq_some_iff.mp h
  dsimp only
  split <;> rfl

/-- A step of an element leaves memory in its one form. -/
theorem elementStep_wf (m : List Byte) (q : Config.OpParams) (mem : List Host.Cell) (k : Nat) (e : Elem) (t : Tile) (h : Memory.wf mem = true) :
    Memory.wf (elementStep m q mem k e t).mem = true := by
  unfold elementStep
  extract_lets +onlyGivenNames op last
  split
  · exact h
  · split
    · exact h
    · split
      · extract_lets +onlyGivenNames a r
        have h1 : Memory.wf r.1 = true := histCount_wf _ _ h
        split
        · exact histEmit_wf _ _ _ _ h1
        · exact h1
      · split
        · extract_lets +onlyGivenNames total first len i
          split <;> exact h
        · exact h

/-- An element enters the line buffers: memory stays in its one form. -/
theorem fetch_wf (m : List Byte) (q : Config.OpParams) (mem : List Host.Cell) (k : Nat) (t : Tile) (src : Src) (t1 : Tile) (mem1 : List Host.Cell) (cw : Nat)
    (hf : fetch m q mem k t src = .stored t1 mem1 cw) (h : Memory.wf mem = true) : Memory.wf mem1 = true := by
  unfold fetch at hf
  split at hf
  · split at hf <;> exact absurd hf (by simp)
  · split at hf
    · split at hf
      · exact absurd hf (by simp)
      · unfold readBuffer at hf
        exact absurd hf (by simp)
    · split at hf
      · exact absurd hf (by simp)
      · extract_lets a at hf
        injection hf with _ hm _
        subst hm
        exact Memory.writeBytes_wf _ _ _ h
  · exact absurd hf (by simp)
  · unfold readBuffer at hf
    exact absurd hf (by simp)
  · split at hf
    · exact absurd hf (by simp)
    · extract_lets l at hf
      split at hf <;> exact absurd hf (by simp)

theorem fetchAll_wf (m : List Byte) (q : Config.OpParams) (mem : List Host.Cell) (k : Nat) (t : Tile) (srcs : List Src) (t1 : Tile) (mem1 : List Host.Cell)
    (cw : Nat) (x : Option Elem) (hf : fetchAll m q mem k t srcs = (.stored t1 mem1 cw, x)) (h : Memory.wf mem = true) : Memory.wf mem1 = true := by
  unfold fetchAll at hf
  split at hf
  · rename_i a b
    cases hb : fetch m q mem k t b with
    | wait => rw [hb] at hf; simp at hf
    | stored tb mb cb =>
      rw [hb] at hf
      injection hf with h1 _
      injection h1 with _ hm _
      subst hm
      exact fetch_wf _ _ _ _ _ _ _ _ _ hb h
    | got e tb rb =>
      rw [hb] at hf
      dsimp only at hf
      cases ha : fetch m q mem k tb a with
      | wait => rw [ha] at hf; simp at hf
      | stored ta ma ca =>
        rw [ha] at hf
        injection hf with h1 _
        injection h1 with _ hm _
        subst hm
        exact fetch_wf _ _ _ _ _ _ _ _ _ ha h
      | got _ _ _ => rw [ha] at hf; simp at hf
  · injection hf with h1 _
    exact fetch_wf _ _ _ _ _ _ _ _ _ h1 h
  · simp at hf

theorem collide_keeps (s : State) (k : Nat) (hit : Bool) : Keeps [.tiles] [] s (collide s k hit) := by
  unfold collide
  exact .ite (fun _ => .step (bumpTile_keeps _ _ _) (by decide) (.refl _ _)) (fun _ => .refl _ _)

theorem landStep_keeps (s : State) (k : Nat) (o : StepObs) (x : CellIn) (r : Stepped) (hr : Memory.wf s.mem = true → Memory.wf r.mem = true) :
    Keeps [.signals, .wafer, .regions, .parts, .imgs, .snds, .pins, .exps, .arbLast, .spa, .spb, .flt, .tiles, .mem] allParts s (landStep s k o x r) := by
  unfold landStep
  extract_lets +onlyGivenNames u1 s1 s2 s3 s4 s5
  have h0 : Keeps [.tiles, .mem] [] s u1 := .step (updTile_keeps _ _ _) (by decide) (.refl _ _)
  have h1 : Keeps [.tiles, .mem] [] s s1 := by
    refine ⟨h0.touch.trans .lit, h0.others, fun i => ?_⟩
    have hi := h0.inv i
    exact ⟨⟨hr i.store.1, hi.store.2⟩, hi.supplies, hi.log, hi.vectors, hi.lanes⟩
  clear_value s1
  have h2 : Keeps [.tiles, .mem] [] s s2 := .step (bumpTile_keeps _ _ _) (by decide) h1
  clear_value s2
  have h3 : Keeps [.tiles, .mem] [] s s3 := .step (workSteps_keeps _ _ _ _) (by decide) h2
  clear_value s3
  have h4 : Keeps [.tiles, .mem] [] s s4 := .ite (fun _ => .step (fireCells_keeps _ _ _ _) (by decide) h3) (fun _ => h3)
  clear_value s4
  have h5 : Keeps [.tiles, .mem] [] s s5 := .step (collide_keeps _ _ _) (by decide) h4
  clear_value s5
  exact .foldl _ (fun _ _ h => .step (eccEffect_keeps _ _ _ _) (by decide) h) _ _ (.step h5 (by decide) (.refl _ _))

theorem dataStep_keeps (s : State) (k : Nat) (m : List Byte) (o : StepObs) : Keeps [.signals, .wafer, .regions, .parts, .imgs, .snds, .pins, .exps, .arbLast, .spa, .spb, .flt, .tiles, .mem] allParts s (dataStep s k m o) := by
  unfold dataStep
  extract_lets +onlyGivenNames t q
  refine .ite (fun _ => .refl _ _) (fun _ => ?_)
  split
  · split
    · exact .refl _ _
    · exact .step (updTile_keeps _ _ _) (by decide) (.refl _ _)
  · split
    · split
      · exact .step (updTile_keeps _ _ _) (by decide) (.refl _ _)
      · rename_i r hr
        exact .step (landStep_keeps _ _ _ _ _ (fun h => by rw [endStep_mem _ _ _ _ _ _ hr]; exact h)) (by decide) (.refl _ _)
    · split
      · exact .step (updTile_keeps _ _ _) (by decide) (.refl _ _)
      · split
        · exact .refl _ _
        · rename_i hf
          exact .step (landStep_keeps _ _ _ _ _ (fetchAll_wf _ _ _ _ _ _ _ _ _ _ hf)) (by decide) (.refl _ _)
        · extract_lets t2 r
          refine .step (landStep_keeps _ _ _ _ _ (fun h => ?_)) (by decide) (.refl _ _)
          show Memory.wf r.mem = true
          unfold r
          split
          · exact elementStep_wf _ _ _ _ _ _ h
          · rw [accumulate_mem]; exact h

theorem poolStage_keeps (s : State) (p : PartId) (k j : Nat) (m : List Byte) (o : StepObs) (g : StageSt) : Keeps [.signals, .wafer, .regions, .parts, .imgs, .snds, .pins, .exps, .arbLast, .spa, .spb, .flt, .tiles, .mem] allParts s (poolStage s p k j m o g) := by
  unfold poolStage
  extract_lets +onlyGivenNames t q sum p0 fs
  clear_value fs
  split
  · exact .step (updTile_keeps _ _ _) (by decide) (.refl _ _)
  · extract_lets +onlyGivenNames t1 r e reads
    exact .step (updStage_keeps _ _ _ _) (by decide) (.step (landStep_keeps _ _ _ _ _ id) (by decide) (.refl _ _))

theorem tileStep_keeps (s : State) (k : Nat) (o : StepObs) : Keeps [.signals, .wafer, .regions, .parts, .imgs, .snds, .pins, .exps, .arbLast, .spa, .spb, .flt, .tiles, .mem] allParts s (tileStep s k o) := by
  unfold tileStep
  split
  · exact .refl _ _
  · extract_lets +onlyGivenNames w1 w2 w3
    refine .ite (fun _ => ?_) (fun _ => ?_)
    · split
      · refine .ite (fun _ => ?_) (fun _ => ?_)
        · exact .step (pumpTile_keeps _ _) (by decide) (.step (poolStage_keeps _ _ _ _ _ _ _) (by decide) (.refl _ _))
        · exact .refl _ _
      · exact .refl _ _
    · refine .ite (fun _ => ?_) (fun _ => ?_)
      · exact .refl _ _
      · exact .step (pumpTile_keeps _ _) (by decide) (.step (dataStep_keeps _ _ _ _) (by decide) (.refl _ _))

theorem ackSender_keeps (s : State) (k : Nat) (d : Dir) (w : Wires) : Keeps [.regions, .parts, .spa, .tiles, .mem] allParts s (ackSender s k d w) := by
  unfold ackSender
  refine .ite (fun _ => ?_) (fun _ => ?_)
  · extract_lets +onlyGivenNames w1
    refine .ite (fun _ => ?_) (fun _ => ?_)
    · exact .step (pumpTile_keeps _ _) (by decide) (.step (updTile_keeps _ _ _) (by decide) (.refl _ _))
    · exact .refl _ _
  · exact .refl _ _

theorem latchFlit_keeps (s : State) (p : PartId) (k port : Nat) (f : Flit) : Keeps [.parts, .snds, .spa, .spb, .tiles] [p] s (latchFlit s p k port f) := by
  unfold latchFlit
  extract_lets +onlyGivenNames w1
  split
  · refine .ite (fun _ => ?_) (fun _ => ?_)
    · exact .step (gatewayTake_keeps _ _ _ _) (by decide) (.step (updTile_keeps _ _ _) (by decide) (.refl _ _))
    · exact .step (bumpTile_keeps _ _ _) (by decide) (.refl _ _)
  · extract_lets +onlyGivenNames w2 w3
    refine .ite (fun _ => ?_) (fun _ => ?_)
    · exact .step (bumpTile_keeps _ _ _) (by decide) (.refl _ _)
    · refine .ite (fun _ => ?_) (fun _ => ?_)
      · exact .step (updTile_keeps _ _ _) (by decide) (.step (bumpTile_keeps _ _ _) (by decide) (.refl _ _))
      · refine .ite (fun _ => ?_) (fun _ => ?_)
        · exact .refl _ _
        · exact .step (updTile_keeps _ _ _) (by decide) (.refl _ _)

theorem receiveFlit_keeps (s : State) (k : Nat) (port : Port) (w : Wires) (ecc : EccRead) : Keeps [.signals, .wafer, .regions, .parts, .imgs, .snds, .pins, .exps, .arbLast, .spa, .spb, .flt, .tiles, .mem] allParts s (receiveFlit s k port w ecc) := by
  unfold receiveFlit
  split
  · extract_lets +onlyGivenNames w1
    refine .ite (fun _ => ?_) (fun _ => ?_)
    · exact .refl _ _
    · extract_lets +onlyGivenNames v2 v3 v4
      have hv2 : Keeps [.signals, .wafer, .regions, .parts, .imgs, .snds, .pins, .exps, .arbLast, .spa, .spb, .flt, .tiles, .mem] allParts s v2 := by
        unfold v2
        split
        · refine .ite (fun _ => ?_) (fun _ => ?_)
          · exact .step (updTile_keeps _ _ _) (by decide) (.refl _ _)
          · exact .step (latchFlit_keeps _ _ _ _ _) (by decide) (.refl _ _)
        · refine .ite (fun _ => ?_) (fun _ => ?_)
          · exact .step (bumpTile_keeps _ _ _) (by decide) (.refl _ _)
          · exact .step (latchFlit_keeps _ _ _ _ _) (by decide) (.refl _ _)
      clear_value v2
      have hv3 : Keeps [.signals, .wafer, .regions, .parts, .imgs, .snds, .pins, .exps, .arbLast, .spa, .spb, .flt, .tiles, .mem] allParts s v3 :=
        .step (pumpTile_keeps _ _) (by decide) hv2
      clear_value v3
      have hv4 : Keeps [.signals, .wafer, .regions, .parts, .imgs, .snds, .pins, .exps, .arbLast, .spa, .spb, .flt, .tiles, .mem] allParts s v4 := by
        unfold v4
        split
        · exact .step (ackSender_keeps _ _ _ _) (by decide) hv3
        · exact hv3
      clear_value v4
      refine .ite (fun _ => ?_) (fun _ => ?_)
      · exact .step (eccActive_keeps _ _ _ _) (by decide) hv4
      · exact hv4
  · exact .refl _ _

theorem receiveCredits_keeps (s : State) (k : Nat) (d : Dir) (w : Wires) : Keeps [.regions, .parts, .spa, .tiles, .mem] allParts s (receiveCredits s k d w) := by
  unfold receiveCredits
  split
  · refine .ite (fun _ => ?_) (fun _ => ?_)
    · exact .step (ackSender_keeps _ _ _ _) (by decide) (.step (pumpTile_keeps _ _) (by decide) (.step (updTile_keeps _ _ _) (by decide) (.refl _ _)))
    · exact .refl _ _
  · exact .refl _ _

theorem scrubNext_keeps (s : State) (k : Nat) (ecc : EccRead) (write : WriteBack) : Keeps [.signals, .wafer, .regions, .parts, .imgs, .snds, .pins, .exps, .arbLast, .spa, .spb, .flt, .tiles, .mem] allParts s (scrubNext s k ecc write) := by
  unfold scrubNext
  refine .ite (fun _ => ?_) (fun _ => ?_)
  · extract_lets +onlyGivenNames w1 s1 s2
    have h1 : Keeps [.tiles] [] s s1 := .step (updTile_keeps _ _ _) (by decide) (.refl _ _)
    clear_value s1
    have h2 : Keeps [.signals, .wafer, .regions, .parts, .imgs, .snds, .pins, .exps, .arbLast, .spa, .spb, .flt, .tiles, .mem] allParts s s2 :=
      .step (eccEffect_keeps _ _ _ _) (by decide) (.step h1 (by decide) (.refl _ _))
    clear_value s2
    refine .step (collide_keeps _ _ _) (by decide) ⟨h2.touch.trans .lit, h2.others, fun i => ?_⟩
    have hi := h2.inv i
    exact ⟨⟨(by split; exacts [hi.store.1, (h1.inv i).store.1]), hi.store.2⟩, hi.supplies, hi.log, hi.vectors, hi.lanes⟩
  · exact .refl _ _

/-! ### Flow.lean -/

theorem beginSpill_keeps (s : State) (p : PartId) (j start : Nat) : Keeps [.regions, .parts, .spa, .tiles, .mem] allParts s (beginSpill s p j start) := by
  unfold beginSpill
  extract_lets +onlyGivenNames v1 v2
  have hv1 : Keeps [.regions, .parts, .spa, .tiles, .mem] allParts s v1 :=
    .step (updQueue_keeps _ _ _ _) (by decide) (.refl _ _)
  clear_value v1
  have hv2 : Keeps [.regions, .parts, .spa, .tiles, .mem] allParts s v2 :=
    .step (updFabric_keeps _ _ _) (by decide) hv1
  clear_value v2
  split
  · exact .step (pumpTile_keeps _ _) (by decide) hv2
  · exact hv2

/-! ### Export.lean -/

theorem ringEvent_keeps (s : State) (p : PartId) : Keeps [.signals] [] s (ringEvent s p) := by
  refine .litInv (t := s) (.refl _ _) .lit (fun h => ⟨h.store, h.supplies, h.log, ?_, h.lanes⟩)
  intro w hw
  obtain ⟨h1, h2, h3⟩ := h.vectors w hw
  refine ⟨h1, ?_, h3⟩
  have hs := shift_bit_ne (v := (ringVector p).val) (w := w.val) (by simp only [ringVector]; omega) w.isLt
  simp only [ringEvent, BitVec.getLsbD_or, h2, hs, Bool.or_self]

theorem signalRing_keeps (s : State) (p : PartId) : Keeps [.signals, .exps] [] s (signalRing s p) := by
  unfold signalRing
  extract_lets +onlyGivenNames w1
  refine .ite (fun _ => ?_) (fun _ => ?_)
  · exact .step (updExp_keeps _ _ _) (by decide) (.step (ringEvent_keeps _ _) (by decide) (.refl _ _))
  · exact .step (updExp_keeps _ _ _) (by decide) (.step (irq_keeps _ _) (by decide) (.refl _ _))

/-! ### Verdicts.lean -/

theorem drivePins_keeps (s : State) (p : PartId) (i : Image) (t : VToken) : Keeps [.pins] [] s (drivePins s p i t) := by
  unfold drivePins
  exact .lit (t := s) (.refl _ _) .lit

theorem descPaired_keeps (s : State) (p : PartId) : Keeps [.spa] [] s (descPaired s p) := by
  unfold descPaired
  split
  · refine .ite (fun _ => ?_) (fun _ => ?_)
    · exact .lit (t := s) (.refl _ _) .lit
    · exact .refl _ _
  · exact .refl _ _

end Sys2Proof.Machine
end

