-- ==== Sys2Proof/Laws/KeepsPorts.lean ====
section
/-! SUPPORT. What the helpers of the model keep: ports, span, census, host registers. One lemma a helper; claims cite it instead of unfolding the helper. -/

namespace Sys2Proof.Machine

-- One proof at a time: a default argument that is a tactic waits for every proof before it.
set_option Elab.async false

/-! ### Ports.lean -/

theorem enterGateway_keeps (s : State) (p : PartId) (piece : Nat) (fs : List GateFlit) : Keeps [.regions, .parts, .spa, .tiles, .mem] allParts s (enterGateway s p piece fs) := by
  unfold enterGateway
  split
  · exact .refl _ _
  · extract_lets +onlyGivenNames v1
    have hv1 : Keeps [.regions, .parts, .spa, .tiles, .mem] allParts s v1 :=
      .step (updRegion_keeps _ _ _) (by decide) (.refl _ _)
    clear_value v1
    refine .foldl _ (fun v2 a3 hv2 => ?_) _ _ ?_
    · exact .step (pumpTile_keeps _ _) (by decide) hv2
    · exact hv1

theorem acceptWindows_keeps (s : State) (p : PartId) (ws : List Window) : Keeps [.parts, .exps, .arbLast] [p] s (acceptWindows s p ws) := by
  unfold acceptWindows
  refine .ite (fun _ => ?_) (fun _ => ?_)
  · exact .refl _ _
  · exact .step (updPart_keeps _ _ _) (by decide) (.step (endGap_keeps _ _) (by decide) (.refl _ _))

theorem sendDescriptors_keeps (s : State) (p : PartId) : Keeps [.parts, .spa, .spb] [p] s (sendDescriptors s p) := by
  unfold sendDescriptors
  split
  · exact .refl _ _
  · refine .ite (fun _ => ?_) (fun _ => ?_)
    · extract_lets +onlyGivenNames w1 v2
      have hv2 : Keeps [.parts, .spa, .spb] [p] s v2 :=
        .step (updFlow_keeps _ _ _) (by decide) (.refl _ _)
      clear_value v2
      exact .step (updSpn_keeps _ _ _) (by decide) hv2
    · exact .refl _ _

theorem mapWindows_keeps (s : State) (p : PartId) (f : Window → Window) : Keeps [.parts] [p] s (mapWindows s p f) := by
  unfold mapWindows
  exact .step (updFlow_keeps _ _ _) (by decide) (.refl _ _)

/-! ### Image.lean -/

theorem updCam_keeps (s : State) (m : ImgId) (f : ImgConn → ImgConn) : Keeps [.imgs] [] s (updCam s m f) := by
  unfold updCam
  extract_lets +onlyGivenNames w1
  exact .lit (t := s) (.refl _ _) .lit

theorem openWindows_keeps (s : State) (p : PartId) (ms : List (ImgId × ImgPortRec)) (low anchor t : Nat) (full : Bool) : Keeps [.parts, .imgs, .exps, .arbLast] [p] s (openWindows s p ms low anchor t full) := by
  unfold openWindows
  extract_lets +onlyGivenNames w1 w2
  refine .ite (fun _ => ?_) (fun _ => ?_)
  · exact .step (acceptWindows_keeps _ _ _) (by decide) (.refl _ _)
  · extract_lets +onlyGivenNames v3
    have hv3 : Keeps [.parts, .imgs, .exps, .arbLast] [p] s v3 :=
      .step (notAccepted_keeps _ _ _ _ _ _) (by decide) (.refl _ _)
    clear_value v3
    refine .ite (fun _ => ?_) (fun _ => ?_)
    · refine .foldl _ (fun v4 a5 hv4 => ?_) _ _ ?_
      · exact .step (updImg_keeps _ _ _) (by decide) hv4
      · exact hv3
    · exact hv3

theorem closeWindows_keeps (s : State) (p : PartId) (ms : List (ImgId × ImgPortRec)) (low t : Nat) (gap : Bool) : Keeps [.parts] [p] s (closeWindows s p ms low t gap) := by
  unfold closeWindows
  split
  · exact .refl _ _
  · exact .step (mapWindows_keeps _ _ _) (by decide) (.refl _ _)

theorem deliverLine_keeps (s : State) (p : PartId) (ms : List (ImgId × ImgPortRec)) (t : Nat) (gap : Bool) (elems : ImgId → List Nat) : Keeps [.regions, .parts, .imgs, .exps, .arbLast, .spa, .spb, .tiles, .mem] allParts s (deliverLine s p ms t gap elems) := by
  unfold deliverLine
  split
  · refine .ite (fun _ => ?_) (fun _ => ?_)
    · exact .refl _ _
    · extract_lets +onlyGivenNames w1 w2 w3 w4 v5 v6 w7
      have hv5 : Keeps [.regions, .parts, .imgs, .exps, .arbLast, .spa, .spb, .tiles, .mem] allParts s v5 := by
        unfold v5
        refine .foldl _ (fun v8 a9 hv8 => ?_) _ _ ?_
        · exact .step (updCam_keeps _ _ _) (by decide) hv8
        · exact .refl _ _
      clear_value v5
      have hv6 : Keeps [.regions, .parts, .imgs, .exps, .arbLast, .spa, .spb, .tiles, .mem] allParts s v6 :=
        .step (openWindows_keeps _ _ _ _ _ _ _) (by decide) hv5
      clear_value v6
      exact .step (enterGateway_keeps _ _ _ _) (by decide) (.step (sendDescriptors_keeps _ _) (by decide) (.step (closeWindows_keeps _ _ _ _ _ _) (by decide) hv6))
  · exact .refl _ _

theorem releaseLines_keeps : ∀ (n : Nat) (s : State) (p : PartId) (ms : List (ImgId × ImgPortRec)), Keeps [.regions, .parts, .imgs, .exps, .arbLast, .spa, .spb, .tiles, .mem] allParts s (releaseLines n s p ms)
  | 0, _, _, _ => .refl _ _
  | n + 1, s, p, ms => by
    unfold releaseLines
    split
    · exact .refl _ _
    · refine .ite (fun _ => ?_) (fun _ => .refl _ _)
      refine .step (releaseLines_keeps n _ p ms) (by decide) (.step (deliverLine_keeps _ _ _ _ _ _) (by decide) ?_)
      exact .foldl _ (fun _ _ hv => .step (updImg_keeps _ _ _) (by decide) hv) _ _ (.refl _ _)

theorem releaseStream_keeps (s : State) (p : PartId) (ms : List (ImgId × ImgPortRec)) : Keeps [.regions, .parts, .imgs, .exps, .arbLast, .spa, .spb, .tiles, .mem] allParts s (releaseStream s p ms) :=
  .step (releaseLines_keeps _ _ _ _) (by decide) (.refl _ _)

theorem forceGap_keeps (s : State) (ms : List (ImgId × ImgPortRec)) (m : ImgId) (t : Nat) : Keeps [.imgs] [] s (forceGap s ms m t) := by
  unfold forceGap
  refine .foldl _ (fun v1 a2 hv1 => ?_) _ _ ?_
  · exact .step (updImg_keeps _ _ _) (by decide) hv1
  · exact .refl _ _

theorem declareMissing_keeps (s : State) (ms : List (ImgId × ImgPortRec)) (t : Nat) : Keeps [.imgs] [] s (declareMissing s ms t) := by
  unfold declareMissing
  refine .ite (fun _ => ?_) (fun _ => ?_)
  · extract_lets +onlyGivenNames w1
    refine .foldl _ (fun v2 a3 hv2 => ?_) _ _ ?_
    · exact .step (updImg_keeps _ _ _) (by decide) hv2
    · exact .refl _ _
  · exact .refl _ _

theorem pulseStream_keeps (t : Nat) (s : State) (p : PartId) (ms : List (ImgId × ImgPortRec)) : Keeps [.regions, .parts, .imgs, .exps, .arbLast, .spa, .spb, .tiles, .mem] allParts s (pulseStream t s p ms) := by
  unfold pulseStream
  refine .ite (fun _ => ?_) (fun _ => ?_)
  · exact .refl _ _
  · extract_lets +onlyGivenNames v1 v2
    have hv1 : Keeps [.regions, .parts, .imgs, .exps, .arbLast, .spa, .spb, .tiles, .mem] allParts s v1 := by
      unfold v1
      refine .ite (fun _ => ?_) (fun _ => ?_)
      · exact .step (declareMissing_keeps _ _ _) (by decide) (.refl _ _)
      · exact .refl _ _
    clear_value v1
    have hv2 : Keeps [.regions, .parts, .imgs, .exps, .arbLast, .spa, .spb, .tiles, .mem] allParts s v2 := by
      unfold v2
      refine .foldl _ (fun v3 a4 hv3 => ?_) _ _ ?_
      · exact .step (updImg_keeps _ _ _) (by decide) hv3
      · exact hv1
    clear_value v2
    exact .step (releaseStream_keeps _ _ _) (by decide) hv2

theorem linePulse_keeps (s : State) (e : EncId) (t : Nat) : Keeps [.regions, .parts, .imgs, .exps, .arbLast, .spa, .spb, .tiles, .mem] allParts s (linePulse s e t) := by
  unfold linePulse
  refine .foldl _ (fun v1 a2 hv1 => ?_) _ _ ?_
  · split
    · extract_lets +onlyGivenNames w3
      refine .ite (fun _ => ?_) (fun _ => ?_)
      · exact .step (pulseStream_keeps _ _ _ _) (by decide) hv1
      · exact hv1
    · exact hv1
  · exact .refl _ _

theorem takeLine_keeps (s : State) (p : PartId) (ms : List (ImgId × ImgPortRec)) (m : ImgId) (x : ImgPortRec) (t : Nat) (pixels : List Nat) : Keeps [.imgs] [] s (takeLine s p ms m x t pixels) := by
  unfold takeLine
  extract_lets +onlyGivenNames w1
  refine .ite (fun _ => ?_) (fun _ => ?_)
  · exact .step (forceGap_keeps _ _ _ _) (by decide) (.refl _ _)
  · exact .step (updImg_keeps _ _ _) (by decide) (.refl _ _)

theorem freeLine_keeps (s : State) (p : PartId) (m : ImgId) (x : ImgPortRec) (pixels : List Nat) (crcOk : Bool) : Keeps [.regions, .parts, .imgs, .exps, .arbLast, .spa, .spb, .tiles, .mem] allParts s (freeLine s p m x pixels crcOk) := by
  unfold freeLine
  extract_lets +onlyGivenNames w1 w2 v3
  have hv3 : Keeps [.regions, .parts, .imgs, .exps, .arbLast, .spa, .spb, .tiles, .mem] allParts s v3 :=
    .step (updImg_keeps _ _ _) (by decide) (.refl _ _)
  clear_value v3
  refine .step (releaseStream_keeps _ _ _) (by decide) ?_
  refine .ite (fun _ => ?_) (fun _ => ?_)
  · exact .step (takeLine_keeps _ _ _ _ _ _ _) (by decide) hv3
  · exact .step (forceGap_keeps _ _ _ _) (by decide) hv3

theorem pairedLine_keeps (s : State) (p : PartId) (m : ImgId) (x : ImgPortRec) (pixels : List Nat) (crcOk : Bool) (start : LineStart) : Keeps [.regions, .parts, .imgs, .exps, .arbLast, .spa, .spb, .tiles, .mem] allParts s (pairedLine s p m x pixels crcOk start) := by
  unfold pairedLine
  extract_lets +onlyGivenNames w1 w2
  refine .ite (fun _ => ?_) (fun _ => ?_)
  · exact .step (updImg_keeps _ _ _) (by decide) (.refl _ _)
  · split
    · exact .step (updImg_keeps _ _ _) (by decide) (.refl _ _)
    · extract_lets +onlyGivenNames v3
      have hv3 : Keeps [.regions, .parts, .imgs, .exps, .arbLast, .spa, .spb, .tiles, .mem] allParts s v3 :=
        .step (updImg_keeps _ _ _) (by decide) (.refl _ _)
      clear_value v3
      refine .ite (fun _ => ?_) (fun _ => ?_)
      · exact hv3
      · exact .step (releaseStream_keeps _ _ _) (by decide) (.step (takeLine_keeps _ _ _ _ _ _ _) (by decide) hv3)

theorem failBringup_keeps (s : State) (p : PartId) (m : ImgId) (cause : BringupCause) : Keeps [.signals, .wafer, .regions, .parts, .imgs, .snds, .pins, .exps, .arbLast, .spa, .spb, .flt, .tiles, .mem] [p] s (failBringup s p m cause) := by
  unfold failBringup
  extract_lets +onlyGivenNames w1 v2
  have hv2 : Keeps [.signals, .wafer, .regions, .parts, .imgs, .snds, .pins, .exps, .arbLast, .spa, .spb, .flt, .tiles, .mem] [p] s v2 :=
    .step (logPlain_keeps _ _ _) (by decide) (.step (updCam_keeps _ _ _) (by decide) (.refl _ _))
  clear_value v2
  split
  · exact hv2
  · exact .step (failGroup_keeps _ _ _) (by decide) hv2

theorem camDown_keeps (s : State) (c : ImgId) : Keeps [.imgs, .flt] [] s (camDown s c) := by
  unfold camDown
  extract_lets +onlyGivenNames w1 v2
  have hv2 : Keeps [.imgs, .flt] [] s v2 :=
    .step (updImg_keeps _ _ _) (by decide) (.refl _ _)
  clear_value v2
  refine .ite (fun _ => ?_) (fun _ => ?_)
  · exact hv2
  · exact .step (logPlain_keeps _ _ _) (by decide) (.step (updCam_keeps _ _ _) (by decide) hv2)

/-! ### Sound.lean -/

theorem openSoundWindow_keeps (s : State) (p : PartId) (base : Nat) : Keeps [.parts, .snds, .exps, .arbLast] [p] s (openSoundWindow s p base) := by
  unfold openSoundWindow
  refine .ite (fun _ => ?_) (fun _ => ?_)
  · exact .refl _ _
  · extract_lets +onlyGivenNames w1 v2
    have hv2 : Keeps [.parts, .snds, .exps, .arbLast] [p] s v2 :=
      .step (updFlow_keeps _ _ _) (by decide) (.refl _ _)
    clear_value v2
    refine .ite (fun _ => ?_) (fun _ => ?_)
    · exact .step (acceptWindows_keeps _ _ _) (by decide) hv2
    · extract_lets +onlyGivenNames v3
      have hv3 : Keeps [.parts, .snds, .exps, .arbLast] [p] s v3 :=
        .step (notAccepted_keeps _ _ _ _ _ _) (by decide) hv2
      clear_value v3
      refine .ite (fun _ => ?_) (fun _ => ?_)
      · refine .foldl _ (fun v4 a5 hv4 => ?_) _ _ ?_
        · exact .step (updSnd_keeps _ _ _) (by decide) hv4
        · exact hv3
      · exact hv3

theorem firstFrame_keeps (s : State) (p : PartId) (k : Nat) : Keeps [.parts, .snds, .exps, .arbLast] [p] s (firstFrame s p k) := by
  unfold firstFrame
  split
  · exact .refl _ _
  · extract_lets win
    exact .ite (fun _ => .step (openSoundWindow_keeps _ _ _) (by decide) (.refl _ _)) (fun _ => .refl _ _)

theorem pushFrames_keeps (s : State) (p : PartId) (c : SndId) (x : SndPortRec) (absent : Bool) (slots : List Int) :
    ∀ n : Nat, Keeps [.parts, .snds, .exps, .arbLast, .freeCount] [p] s (pushFrames s p c x absent slots n)
  | 0 => .refl _ _
  | n + 1 => by
    unfold pushFrames
    extract_lets +onlyGivenNames s1 low held f s2 k
    have h1 : Keeps [.parts, .snds, .exps, .arbLast, .freeCount] [p] s s1 := pushFrames_keeps s p c x absent slots n
    clear_value s1
    have h2 : Keeps [.parts, .snds, .exps, .arbLast, .freeCount] [p] s s2 := .step (updSnd_keeps _ _ _) (by decide) h1
    clear_value s2
    exact .step (firstFrame_keeps _ _ _) (by decide) (.lit (t := s2) h2 .lit)

theorem goodFrame_keeps (s : State) (p : PartId) (c : SndId) (x : SndPortRec) (slots : List Int) (sync : FrameSync) (milliHz : Nat) :
    Keeps [.parts, .snds, .exps, .arbLast, .freeCount] [p] s (goodFrame s p c x slots sync milliHz) := by
  unfold goodFrame
  extract_lets +onlyGivenNames s0 u s1
  have h0 : Keeps [.parts, .snds, .exps, .arbLast, .freeCount] [p] s s0 := .step (updSnd_keeps _ _ _) (by decide) (.refl _ _)
  clear_value s0
  have hu : Keeps [.parts, .snds, .exps, .arbLast, .freeCount] [p] s u := .step (updSnd_keeps _ _ _) (by decide) h0
  clear_value u
  have h1 : Keeps [.parts, .snds, .exps, .arbLast, .freeCount] [p] s s1 := .lit (t := u) hu .lit
  clear_value s1
  have h2 : ∀ (f : Snd → Snd) (a : Bool) (n : Nat), Keeps [.parts, .snds, .exps, .arbLast, .freeCount] [p] s (pushFrames (updSnd s1 c f) p c x a slots n) :=
    fun f a n => .step (pushFrames_keeps _ _ _ _ _ _ _) (by decide) (.step (updSnd_keeps _ _ _) (by decide) h1)
  split
  · exact .step (updSnd_keeps _ _ _) (by decide) h1
  · exact .step (updSnd_keeps _ _ _) (by decide) h1
  · exact .ite (fun _ => .step (updSnd_keeps _ _ _) (by decide) (h2 _ _ _)) (fun _ => h2 _ _ _)
  · exact .ite (fun _ => .step (updSnd_keeps _ _ _) (by decide) (h2 _ _ _)) (fun _ => h2 _ _ _)
  · exact h1

theorem closeSoundWindow_keeps (s : State) (p : PartId) (win base : Nat) (inserted : Bool) : Keeps [.parts] [p] s (closeSoundWindow s p win base inserted) := by
  unfold closeSoundWindow
  extract_lets +onlyGivenNames w1
  exact .step (mapWindows_keeps _ _ _) (by decide) (.refl _ _)

theorem deliverBlock_keeps (s : State) (p : PartId) (i : Image) (ms : List (SndId × SndPortRec)) : Keeps [.regions, .parts, .snds, .exps, .arbLast, .spa, .spb, .tiles, .mem] allParts s (deliverBlock s p i ms) := by
  unfold deliverBlock
  split
  · exact .refl _ _
  · rename_i m tl
    extract_lets +onlyGivenNames base low piece lane mask take
    have ht : ∀ t, Keeps [.regions, .parts, .snds, .exps, .arbLast, .spa, .spb, .tiles, .mem] allParts t (take t) := fun t =>
      .foldl _ (fun _ _ hv => .step (updSnd_keeps _ _ _) (by decide) hv) _ _ (.refl _ _)
    clear_value take
    refine .ite (fun _ => ?_) (fun _ => ?_)
    · extract_lets fs
      exact .ite (fun _ => .step (enterGateway_keeps _ _ _ _) (by decide) (ht s)) (fun _ => ht s)
    · extract_lets +onlyGivenNames win s1
      have h1 : Keeps [.regions, .parts, .snds, .exps, .arbLast, .spa, .spb, .tiles, .mem] allParts s s1 := .ite (fun _ => .step (openSoundWindow_keeps _ _ _) (by decide) (.refl _ _)) (fun _ => .refl _ _)
      clear_value s1
      split
      · exact h1.trans (ht s1)
      · extract_lets fs
        exact .step (enterGateway_keeps _ _ _ _) (by decide) (.step (sendDescriptors_keeps _ _) (by decide)
          (.step (closeSoundWindow_keeps _ _ _ _ _) (by decide) (h1.trans (ht s1))))

/-! ### Span.lean -/

theorem linkStep_keeps (s : State) (q : SpanPort) (f : Spn → Spn) : Keeps [.spa, .spb] [] s (linkStep s q f) := by
  unfold linkStep
  extract_lets +onlyGivenNames v1 w2
  have hv1 : Keeps [.spa, .spb] [] s v1 :=
    .step (updSpn_keeps _ _ _) (by decide) (.refl _ _)
  clear_value v1
  refine .ite (fun _ => ?_) (fun _ => ?_)
  · exact .lit (t := v1) hv1 .lit
  · exact hv1

theorem lossInDrain_keeps (s : State) (p : PartId) (why : DrainWhy) : Keeps [.glb, .signals, .sup, .nv, .regions, .parts, .imgs, .snds, .pins, .exps, .arbLast, .spa, .spb, .flt, .tiles, .mem] [p] s (lossInDrain s p why) := by
  unfold lossInDrain
  extract_lets +onlyGivenNames v1 v2 v3
  have hv1 : Keeps [.glb, .signals, .sup, .nv, .regions, .parts, .imgs, .snds, .pins, .exps, .arbLast, .spa, .spb, .flt, .tiles, .mem] [p] s v1 :=
    .step (enterRec_keeps _ _ _) (by decide) (.step (logPart_keeps _ _ _ _) (by decide) (.refl _ _))
  clear_value v1
  have hv2 : Keeps [.glb, .signals, .sup, .nv, .regions, .parts, .imgs, .snds, .pins, .exps, .arbLast, .spa, .spb, .flt, .tiles, .mem] [p] s v2 :=
    .step (updFlow_keeps _ _ _) (by decide) hv1
  clear_value v2
  have hv3 : Keeps [.glb, .signals, .sup, .nv, .regions, .parts, .imgs, .snds, .pins, .exps, .arbLast, .spa, .spb, .flt, .tiles, .mem] [p] s v3 := by
    unfold v3
    refine .foldl _ (fun v4 a5 hv4 => ?_) _ _ ?_
    · exact .step (updSpn_keeps _ _ _) (by decide) hv4
    · exact hv2
  clear_value v3
  split
  · extract_lets +onlyGivenNames v6
    have hv6 : Keeps [.glb, .signals, .sup, .nv, .regions, .parts, .imgs, .snds, .pins, .exps, .arbLast, .spa, .spb, .flt, .tiles, .mem] [p] s v6 :=
      .step (setCause_keeps _ _ _) (by decide) hv3
    clear_value v6
    exact .step (endImage_keeps _ _ _) (by decide) (.step (releasePorts_keeps _ _) (by decide) (.step (releasePins_keeps _ _) (by decide) (.step (pinsAfterDrain_keeps _ _) (by decide) hv6)))
  · exact .step (finishActivation_keeps _) (by decide) (.step (endDrain_keeps _ _ _) (by decide) hv3)

theorem lossOfPiece_keeps (s : State) (q : SpanPort) : Keeps [.glb, .signals, .sup, .nv, .wafer, .regions, .parts, .imgs, .snds, .pins, .exps, .arbLast, .spa, .spb, .flt, .tiles, .mem] allParts s (lossOfPiece s q) := by
  unfold lossOfPiece
  split
  · exact .refl _ _
  · split
    · exact .step (faultEntry_keeps _ _ _ _ _) (by decide) (.step (sendAll_keeps _ _ _ _) (by decide) (.refl _ _))
    · refine .ite (fun _ => ?_) (fun _ => ?_)
      · exact .refl _ _
      · exact .step (lossInDrain_keeps _ _ _) (by decide) (.refl _ _)
    · exact .refl _ _

theorem loseLink_keeps (s : State) (q : SpanPort) (serial : Bool) : Keeps [.glb, .signals, .sup, .nv, .wafer, .regions, .parts, .imgs, .snds, .pins, .exps, .arbLast, .spa, .spb, .flt, .tiles, .mem] allParts s (loseLink s q serial) := by
  unfold loseLink
  refine .ite (fun _ => ?_) (fun _ => ?_)
  · exact .refl _ _
  · extract_lets +onlyGivenNames v1
    have hv1 : Keeps [.glb, .signals, .sup, .nv, .wafer, .regions, .parts, .imgs, .snds, .pins, .exps, .arbLast, .spa, .spb, .flt, .tiles, .mem] allParts s v1 :=
      .step (updSpn_keeps _ _ _) (by decide) (.refl _ _)
    clear_value v1
    exact .step (lossOfPiece_keeps _ _) (by decide) (.step (logIrq_keeps _ _ _ _ _ _ _) (by decide) hv1)

theorem discardFrame_keeps (s : State) (q : SpanPort) (frame : List Byte) (fecOk : Bool) : Keeps [.spa, .spb] [] s (discardFrame s q frame fecOk) := by
  unfold discardFrame
  exact .step (updSpn_keeps _ _ _) (by decide) (.refl _ _)

theorem acceptFrame_keeps (s : State) (q : SpanPort) (frame : List Byte) : Keeps [.spa, .spb] [] s (acceptFrame s q frame) := by
  unfold acceptFrame
  exact .step (linkStep_keeps _ _ _) (by decide) (.refl _ _)

theorem takeDescs_keeps (s : State) (p : PartId) (x : SpanRec) (ws : List Window) : Keeps [.parts, .spa, .spb] [p] s (takeDescs s p x ws) := by
  unfold takeDescs
  refine .ite (fun _ => ?_) (fun _ => ?_)
  · exact .step (linkStep_keeps _ _ _) (by decide) (.step (updSpn_keeps _ _ _) (by decide) (.refl _ _))
  · exact .step (updPart_keeps _ _ _) (by decide) (.refl _ _)

theorem tookMsg_keeps (s : State) (q : SpanPort) : Keeps [.spa, .spb] [] s (tookMsg s q) := by
  unfold tookMsg
  exact .step (updSpn_keeps _ _ _) (by decide) (.refl _ _)

theorem setDready_keeps (s : State) (p : PartId) (x : SpanRec) : Keeps [.signals, .parts, .exps, .arbLast, .spa, .spb] [p] s (setDready s p x) := by
  unfold setDready
  extract_lets +onlyGivenNames w1 v2
  have hv2 : Keeps [.signals, .parts, .exps, .arbLast, .spa, .spb] [p] s v2 :=
    .step (updPart_keeps _ _ _) (by decide) (.refl _ _)
  clear_value v2
  refine .step (advanceLoad_keeps _ _) (by decide) ?_
  refine .foldl _ (fun v3 a4 hv3 => ?_) _ _ ?_
  · exact .step (updSpn_keeps _ _ _) (by decide) hv3
  · exact hv2

/-! ### Census.lean -/

theorem takeTick_keeps (s : State) (p : PartId) (r : CensusRun) : Keeps [.parts, .tiles] [p] s (takeTick s p r) := by
  unfold takeTick
  extract_lets +onlyGivenNames w1
  exact .step (updCensus_keeps _ _ _) (by decide) (.step (mapTiles_keeps _ _ _) (by decide) (.refl _ _))

/-! ### HostReg.lean -/

theorem writeSup_keeps (s : State) (off : Nat) (v : Word) : Keeps [.sup] [] s (writeSup s off v) := by
  have hs : ∀ t : Sup, Keeps [.sup] [] s { s with sup := t } := fun t => .lit (t := s) (.refl _ _) .lit
  unfold writeSup
  extract_lets +onlyGivenNames put
  have hput : ∀ m t, Keeps [.sup] [] s (put m t) := fun m t => .ite (fun _ => hs t) (fun _ => .refl _ _)
  clear_value put
  split
  · exact hput _ _
  · exact hput _ _
  · exact .ite (fun _ => hs _) (fun _ => .refl _ _)
  · exact hput _ _
  · exact hput _ _
  · exact hput _ _
  · exact .ite (fun _ => hs _) (fun _ => .refl _ _)

theorem writePrt_keeps (s : State) (p : PartId) (off : Nat) (v : Word) : Keeps [.parts] [p] s (writePrt s p off v) := by
  unfold writePrt
  extract_lets +onlyGivenNames put
  have hput : ∀ m f, Keeps [.parts] [p] s (put m f) := fun m f =>
    .ite (fun _ => .step (updPartRegs_keeps _ _ _) (by decide) (.refl _ _)) (fun _ => .refl _ _)
  clear_value put
  split
  · exact hput _ _
  · exact hput _ _
  · exact hput _ _
  · exact .ite (fun _ => .refl _ _) (fun _ => hput _ _)
  · exact .ite (fun _ => .step (updCensus_keeps _ _ _) (by decide) (.refl _ _)) (fun _ => .refl _ _)
  · exact hput _ _
  · exact hput _ _
  · exact .refl _ _

theorem writeExp_keeps (s : State) (p : PartId) (off : Nat) (v : Word) : Keeps [.exps, .arbLast] [] s (writeExp s p off v) := by
  unfold writeExp
  extract_lets +onlyGivenNames e put
  have hput : ∀ b f, Keeps [.exps, .arbLast] [] s (put b f) := fun b f =>
    .ite (fun _ => .step (updExp_keeps _ _ _) (by decide) (.refl _ _)) (fun _ => .refl _ _)
  clear_value put
  split
  · exact .ite (fun _ => .step (exportPump_keeps _) (by decide) (.step (updExp_keeps _ _ _) (by decide) (.refl _ _))) (fun _ => .refl _ _)
  · exact hput _ _
  · exact hput _ _
  · exact hput _ _
  · exact hput _ _
  · exact hput _ _
  · exact hput _ _
  · exact hput _ _
  · exact .refl _ _

theorem writeMsix_keeps (s : State) (k : Fin 128) (v : Word) : Keeps [.glb, .signals] [] s (writeMsix s k v) := by
  refine .litInv (t := s) (.refl _ _) .lit (fun h => ⟨h.store, h.supplies, h.log, ?_, h.lanes⟩)
  unfold writeMsix
  extract_lets w u g n
  have hg : vectorsOk g := h.vectors
  show vectorsOk (if g.pba.getLsbD n.val && !vectorMasked g n then sendVector g n else g)
  split
  · rename_i hc
    refine sendVector_ok g n ?_ hg
    by_contra hn
    have := (hg n (by omega)).2.2
    rw [this, Bool.false_and] at hc
    exact Bool.false_ne_true hc
  · exact hg

theorem writeReg_keeps (s : State) (a : Nat) (v : Word) : Keeps [.glb, .signals, .sup, .tbs, .pwr, .parts, .encs, .allocHeld, .exps, .arbLast, .spa, .spb, .defPage, .cenSel] allParts s (writeReg s a v) := by
  unfold writeReg
  refine .ite (fun _ => ?_) (fun _ => .ite (fun _ => ?_) (fun _ => .ite (fun _ => ?_) (fun _ => .ite (fun _ => ?_) (fun _ =>
    .ite (fun _ => ?_) (fun _ => .ite (fun _ => ?_) (fun _ => .ite (fun _ => ?_) (fun _ => .ite (fun _ => ?_) (fun _ =>
    .ite (fun _ => ?_) (fun _ => ?_)))))))))
  · refine .litInv (t := s) (.refl _ _) .lit (fun h => ⟨h.store, h.supplies, h.log, ?_, h.lanes⟩)
    intro w hw
    obtain ⟨h1, h2, h3⟩ := h.vectors w hw
    refine ⟨h1, ?_, h3⟩
    simp only [BitVec.getLsbD_and, h2, Bool.false_and]
  · exact .litInv (t := s) (.refl _ _) .lit (fun h => ⟨h.store, h.supplies, h.log, h.vectors, h.lanes⟩)
  · exact .step (writeSup_keeps _ _ _) (by decide) (.refl _ _)
  · exact .ite (fun _ => .lit (t := s) (.refl _ _) .lit) (fun _ => .refl _ _)
  · exact .ite (fun _ => .lit (t := s) (.refl _ _) .lit) (fun _ => .refl _ _)
  · exact .ite (fun _ => .lit (t := s) (.refl _ _) .lit) (fun _ => .refl _ _)
  · exact .ite (fun _ => .lit (t := s) (.refl _ _) .lit) (fun _ => .refl _ _)
  · exact .ite (fun _ => .lit (t := s) (.refl _ _) .lit) (fun _ => .refl _ _)
  · exact .step (writeMsix_keeps _ _ _) (by decide) (.refl _ _)
  · split
    · exact .step (writePrt_keeps _ _ _ _) (by decide) (.refl _ _)
    · split
      · exact .ite (fun _ => .step (updEnc_keeps _ _ _) (by decide) (.refl _ _)) (fun _ => .refl _ _)
      · split
        · exact .step (writeExp_keeps _ _ _ _) (by decide) (.refl _ _)
        · split
          · exact .ite (fun _ => .step (updSpn_keeps _ _ _) (by decide) (.refl _ _)) (fun _ => .refl _ _)
          · exact .refl _ _

end Sys2Proof.Machine
end

