-- ==== Sys2Proof/Laws/KeepsExec.lean ====
section
/-! SUPPORT. How each command ends: a next state, what it may differ in, the invariant kept. -/

namespace Sys2Proof.Machine

-- One proof at a time: a default argument that is a tactic waits for every proof before it.
set_option Elab.async false

/-! ### Power.lean -/

theorem execRateLoopTick_ends (busy : List (RegionId × Nat)) (s : State) : Ends [.signals, .regions, .parts, .flt] allParts s (execRateLoopTick busy s) := by
  unfold execRateLoopTick
  refine .whenUp ?_
  refine .foldl _ (fun v1 a2 hv1 => .step (rateTickPart_keeps _ _ _) (by decide) hv1) _ _ ?_
  exact .refl _ _

theorem execCurrentCeilingTick_ends (amps : List (RegionId × Nat)) (s : State) : Ends [.regions] [] s (execCurrentCeilingTick amps s) := by
  unfold execCurrentCeilingTick
  refine .whenUp ?_
  refine .foldl _ (fun v1 a2 hv1 => ?_) _ _ ?_
  · refine .ite (fun _ => ?_) (fun _ => ?_)
    · exact .step (govern_keeps _ _) (by decide) (.step (updRegion_keeps _ _ _) (by decide) hv1)
    · exact hv1
  · exact .refl _ _

theorem execThrottleTick_ends (temps : List (RegionId × Int)) (s : State) : Ends [.signals, .regions, .flt] [] s (execThrottleTick temps s) := by
  unfold execThrottleTick
  extract_lets s1 h s2
  have h1 : Keeps [.signals, .regions, .flt] [] s s1 := by
    unfold s1
    refine .litInv (t := s) (.refl _ _) .lit (fun h => ⟨⟨h.store.1, h.store.2⟩, ?_, h.log, h.vectors, h.lanes⟩)
    intro r
    have := h.supplies r
    simpa [regionOk] using this
  clear_value s1 h
  have h2 : Keeps [.signals, .regions, .flt] [] s s2 := by
    unfold s2
    split
    · exact .step (throttleDown_keeps _ _) (by decide) h1
    · exact h1
  clear_value s2
  refine .whenUp (.step (governAll_keeps _) (by decide) ?_)
  exact .foldl _ (fun _ _ hv => .step (throttleUp_keeps _ _) (by decide) hv) _ _ h2

theorem execHeatShed_ends (r : RegionId) (reading : Int) (s : State) : Ends [.signals, .wafer, .regions, .parts, .imgs, .snds, .pins, .exps, .arbLast, .spa, .spb, .flt, .tiles, .mem] allParts s (execHeatShed r reading s) := by
  unfold execHeatShed
  extract_lets +onlyGivenNames w1
  refine .whenUp ?_
  refine .ite (fun _ => ?_) (fun _ => ?_)
  · extract_lets +onlyGivenNames w2 v3
    have hv3 : Keeps [.signals, .wafer, .regions, .parts, .imgs, .snds, .pins, .exps, .arbLast, .spa, .spb, .flt, .tiles, .mem] allParts s v3 :=
      .step (updRegion_keeps _ _ _) (by decide) (.refl _ _)
    clear_value v3
    exact .step (logEvent_keeps _ _ _ _ _ _) (by decide) (.step (darkRegion_keeps _ _ _ _) (by decide) hv3)
  · exact .refl _ _

theorem execHeatShedRecheck_ends (r : RegionId) (hottest : Int) (s : State) : Ends [.wafer, .regions, .flt, .tiles] [] s (execHeatShedRecheck r hottest s) := by
  unfold execHeatShedRecheck
  extract_lets +onlyGivenNames w1
  refine .whenUp ?_
  refine .ite (fun _ => ?_) (fun _ => ?_)
  · extract_lets +onlyGivenNames v2
    have hv2 : Keeps [.wafer, .regions, .flt, .tiles] [] s v2 :=
      .step (updRegion_keeps _ _ _) (by decide) (.refl _ _)
    clear_value v2
    refine .ite (fun _ => ?_) (fun _ => ?_)
    · exact .step (beginRetest_keeps _ _) (by decide) (.step (reformTree_keeps _) (by decide) (.step (updRegion_keeps _ _ _) (by decide) hv2))
    · exact hv2
  · exact .refl _ _

theorem execShort_ends (r : RegionId) (s : State) : Ends [.signals, .wafer, .regions, .parts, .imgs, .snds, .pins, .exps, .arbLast, .spa, .spb, .flt, .tiles, .mem] allParts s (execShort r s) := by
  unfold execShort
  refine .whenUp ?_
  refine .ite (fun _ => ?_) (fun _ => ?_)
  · exact .step (logPlain_keeps _ _ _) (by decide) (.step (darkRegion_keeps _ _ _ _) (by decide) (.step (updRegion_keeps _ _ _) (by decide) (.refl _ _)))
  · exact .refl _ _

theorem execPolicyWrite_ends (item : PolicyItem) (v : Word) (s : State) : Ends [.pwr, .parts] allParts s (execPolicyWrite item v s) := by
  unfold execPolicyWrite
  refine .whenUp ?_
  refine .ite (fun _ => ?_) (fun _ => ?_)
  · exact .step (storePolicy_keeps _ _ _) (by decide) (.refl _ _)
  · exact .lit (t := s) (.refl _ _) .lit

theorem execPolicyEpoch_ends (s : State) : Ends [.pwr, .regions, .parts] allParts s (execPolicyEpoch s) := by
  unfold execPolicyEpoch
  extract_lets +onlyGivenNames w1 u2 v3
  have hv3 : Keeps [.pwr, .regions, .parts] allParts s v3 := by
    unfold v3
    exact .lit (t := s) (.refl _ _) .lit
  clear_value v3
  refine .whenUp ?_
  exact .step (governAll_keeps _) (by decide) hv3

theorem execCapLoopTick_ends (watts : Nat) (s : State) : Ends [.signals, .pwr, .regions, .parts, .flt] allParts s (execCapLoopTick watts s) := by
  unfold execCapLoopTick
  extract_lets +onlyGivenNames u1 v2 w3 v4
  have hv2 : Keeps [.signals, .pwr, .regions, .parts, .flt] allParts s v2 := by
    unfold v2
    exact .lit (t := s) (.refl _ _) .lit
  clear_value v2
  have hv4 : Keeps [.signals, .pwr, .regions, .parts, .flt] allParts s v4 := by
    unfold v4
    refine .ite (fun _ => ?_) (fun _ => ?_)
    · exact .step (capOver_keeps _ _) (by decide) hv2
    · refine .ite (fun _ => ?_) (fun _ => ?_)
      · exact .step (capUnder_keeps _) (by decide) hv2
      · exact hv2
  clear_value v4
  refine .whenUp ?_
  exact .step (governAll_keeps _) (by decide) hv4

theorem execInputOutOfRange_ends (decivolts : Nat) (s : State) : Ends [.signals, .pwr, .flt] [] s (execInputOutOfRange decivolts s) := by
  unfold execInputOutOfRange
  extract_lets +onlyGivenNames w1 w2 u3 v4 v5
  have hv4 : Keeps [.signals, .pwr, .flt] [] s v4 := by
    unfold v4
    exact .lit (t := s) (.refl _ _) .lit
  clear_value v4
  have hv5 : Keeps [.signals, .pwr, .flt] [] s v5 := by
    unfold v5
    refine .ite (fun _ => ?_) (fun _ => ?_)
    · exact .step (logIrq_keeps _ _ _ _ _ _ _) (by decide) hv4
    · exact hv4
  clear_value v5
  refine .whenUp ?_
  refine .ite (fun _ => ?_) (fun _ => ?_)
  · exact .step (logIrq_keeps _ _ _ _ _ _ _) (by decide) hv5
  · exact hv5

theorem execCoolingMeasurement_ends (inlet outlet : Int) (flow : Nat) (glycol : Bool) (s : State) : Ends [.signals, .pwr, .flt] [] s (execCoolingMeasurement inlet outlet flow glycol s) := by
  unfold execCoolingMeasurement
  extract_lets +onlyGivenNames w1 u2 v3
  have hv3 : Keeps [.signals, .pwr, .flt] [] s v3 := by
    unfold v3
    exact .lit (t := s) (.refl _ _) .lit
  clear_value v3
  refine .whenUp ?_
  refine .ite (fun _ => ?_) (fun _ => ?_)
  · exact .step (logIrq_keeps _ _ _ _ _ _ _) (by decide) hv3
  · exact hv3

theorem execReservoirCharged_ends (reached : Bool) (s : State) : Ends [.signals, .pwr, .parts, .exps, .arbLast, .spa, .spb, .flt] allParts s (execReservoirCharged reached s) := by
  unfold execReservoirCharged
  extract_lets +onlyGivenNames u1 v2 v3
  have hv2 : Keeps [.signals, .pwr, .parts, .exps, .arbLast, .spa, .spb, .flt] allParts s v2 := by
    unfold v2
    exact .lit (t := s) (.refl _ _) .lit
  clear_value v2
  have hv3 : Keeps [.signals, .pwr, .parts, .exps, .arbLast, .spa, .spb, .flt] allParts s v3 := by
    unfold v3
    refine .ite (fun _ => ?_) (fun _ => ?_)
    · exact .step (logIrq_keeps _ _ _ _ _ _ _) (by decide) hv2
    · exact hv2
  clear_value v3
  refine .whenUp ?_
  refine .ite (fun _ => ?_) (fun _ => ?_)
  · exact .refl _ _
  · refine .foldl _ (fun v4 a5 hv4 => .step (advanceLoad_keeps _ _) (by decide) hv4) _ _ ?_
    exact hv3

theorem tearMap_lanesHeld (w : Wafer) (n : Nat) : (tearMap w n).lanesHeld = w.lanesHeld := by
  unfold tearMap
  split
  · rfl
  · split
    · rfl
    · split <;> rfl

theorem execSupplySag_ends (overvoltage : Bool) (o : SagObs) (s : State) : Ends [.glb, .nv, .wafer, .regions, .bays, .imgs, .snds, .pins, .exps, .spa, .spb, .flt, .tiles, .mem] allParts s (execSupplySag overvoltage o s) := by
  unfold execSupplySag
  extract_lets +onlyGivenNames v0 v1 v2 v3 v4
  have hv0 : Keeps [.glb, .nv, .wafer, .regions, .bays, .imgs, .snds, .pins, .exps, .spa, .spb, .flt, .tiles, .mem] allParts s v0 :=
    .ite (fun _ => .step (setWafer_keeps _ _ (tearMap_lanesHeld _ _)) (by decide) (.refl _ _)) (fun _ => .refl _ _)
  clear_value v0
  have hv1 : Keeps [.glb, .nv, .wafer, .regions, .bays, .imgs, .snds, .pins, .exps, .spa, .spb, .flt, .tiles, .mem] allParts s v1 :=
    .step (updPins_keeps _ _) (by decide) (.step (shedWafer_keeps _) (by decide) hv0)
  clear_value v1
  have hv2 : Keeps [.glb, .nv, .wafer, .regions, .bays, .imgs, .snds, .pins, .exps, .spa, .spb, .flt, .tiles, .mem] allParts s v2 :=
    .step (logEvent_keeps _ _ _ _ _ _) (by decide) hv1
  clear_value v2
  have hv3 : Keeps [.glb, .nv, .wafer, .regions, .bays, .imgs, .snds, .pins, .exps, .spa, .spb, .flt, .tiles, .mem] allParts s v3 :=
    .ite (fun _ => .step (writeSave_keeps _ _ _) (by decide) (.step (shedBoard_keeps _) (by decide) hv2))
      (fun _ => .step (tearSave_keeps _) (by decide) (.step (shedBoard_keeps _) (by decide) hv2))
  clear_value v3
  have hv4 : Keeps [.glb, .nv, .wafer, .regions, .bays, .imgs, .snds, .pins, .exps, .spa, .spb, .flt, .tiles, .mem] allParts s v4 := by
    unfold v4
    refine .foldl _ (fun v5 a6 hv5 => .step (sagLife_keeps _ _ _) (by decide) hv5) _ _ ?_
    exact hv3
  clear_value v4
  refine .whenUp ?_
  exact .litInv (t := v4) hv4 .lit (fun h => ⟨h.store, h.supplies, h.log, h.vectors, h.lanes⟩)

theorem execReservoirExhausted_ends (s : State) : Ends [.glb, .pins] [] s (execReservoirExhausted s) := by
  unfold execReservoirExhausted
  refine .next ?_
  split
  · extract_lets u v
    have hu : Keeps [.glb, .pins] [] s u := by
      unfold u
      exact .step (updPins_keeps _ _) (by decide) (.refl _ _)
    have hg : u.glb = s.glb := rfl
    clear_value u
    refine .litInv (t := u) hu (.lit (hsignals := Or.inl (by rw [hg]; exact ⟨rfl, rfl, rfl⟩))) (fun h => ⟨h.store, h.supplies, h.log, ?_, h.lanes⟩)
    have := h.vectors
    rw [hg] at this
    exact this
  · exact .refl _ _

/-! ### WaferTest.lean -/

theorem execRgnTest_ends (r : RegionId) (v : Word) (s : State) : Ends [.regions, .tiles] [] s (execRgnTest r v s) := by
  unfold execRgnTest
  refine .whenUp ?_
  refine .ite (fun _ => ?_) (fun _ => ?_)
  · refine .ite (fun _ => ?_) (fun _ => ?_)
    · exact .step (beginRetest_keeps _ _) (by decide) (.refl _ _)
    · exact .step (updRegion_keeps _ _ _) (by decide) (.refl _ _)
  · exact .refl _ _

theorem abortRetest_keeps (s : State) (r : RegionId) : Keeps [.signals, .wafer, .regions, .flt, .tiles, .mem] [] s (abortRetest s r) := by
  unfold abortRetest
  extract_lets m h
  exact .step (reportGrade_keeps _) (by decide) (.step (endRetest_keeps _ _ _ _) (by decide) (.step (commitMap_keeps _ _) (by decide) (.refl _ _)))

theorem finishRetest_keeps (s : State) (r : RegionId) (f : WaferFindings) : Keeps [.signals, .wafer, .regions, .flt, .tiles, .mem] [] s (finishRetest s r f) := by
  unfold finishRetest
  extract_lets +onlyGivenNames m seq w raw tree sites bad res h s1 s2
  clear_value res h
  have hw : (setRepairs w res.map [r]).lanesHeld = s.wafer.lanesHeld := setRepairs_lanesHeld _ _ _
  have h1 : Keeps [.signals, .wafer, .regions, .flt, .tiles, .mem] [] s s1 :=
    .step (commitMap_keeps _ _) (by decide) (.step (setWafer_keeps _ _ hw) (by decide) (.refl _ _))
  clear_value s1
  have h2 : Keeps [.signals, .wafer, .regions, .flt, .tiles, .mem] [] s s2 := .step (reformTree_keeps _) (by decide) (.step (endRetest_keeps _ _ _ _) (by decide) h1)
  clear_value s2
  exact .step (reportGrade_keeps _) (by decide) (.step (logRegions_keeps _ _ _) (by decide) (.step (logRegions_keeps _ _ _) (by decide) h2))

theorem execInFieldRetestDone_ends (r : RegionId) (f : WaferFindings) (aborted : Bool) (s : State) : Ends [.signals, .wafer, .regions, .flt, .tiles, .mem] [] s (execInFieldRetestDone r f aborted s) := by
  unfold execInFieldRetestDone
  refine .whenUp (.ite (fun _ => .refl _ _) (fun _ => .ite (fun _ => ?_) (fun _ => ?_)))
  · exact .step (abortRetest_keeps _ _) (by decide) (.refl _ _)
  · exact .step (finishRetest_keeps _ _ _) (by decide) (.refl _ _)

/-! ### LoadCommands.lean -/

theorem execReload_ends (p : PartId) (o : LoadObs) (s : State) : Ends [.signals, .wafer, .regions, .parts, .bays, .imgs, .snds, .pins, .exps, .arbLast, .spa, .spb, .flt, .tiles, .mem] [p] s (execReload p o s) := by
  unfold execReload
  refine .whenUp ?_
  refine .ite (fun _ => ?_) (fun _ => ?_)
  · exact .step (cmdErr_keeps _ _) (by decide) (.refl _ _)
  · exact .step (loadRequest_keeps _ _ _ _) (by decide) (.refl _ _)

theorem execUnload_ends (p : PartId) (s : State) : Ends [.signals, .wafer, .regions, .parts, .imgs, .snds, .pins, .exps, .arbLast, .spa, .spb, .flt, .tiles, .mem] [p] s (execUnload p s) := by
  unfold execUnload
  refine .whenUp ?_
  refine .ite (fun _ => ?_) (fun _ => ?_)
  · exact .step (cmdErr_keeps _ _) (by decide) (.refl _ _)
  · exact .step (unloadRequest_keeps _ _) (by decide) (.refl _ _)

theorem execQueuedRequestStart_ends (p : PartId) (o : LoadObs) (s : State) : Ends [.signals, .wafer, .regions, .parts, .bays, .imgs, .snds, .pins, .exps, .arbLast, .spa, .spb, .flt, .tiles, .mem] [p] s (execQueuedRequestStart p o s) := by
  unfold execQueuedRequestStart
  extract_lets +onlyGivenNames w1
  refine .whenUp ?_
  split
  · exact .refl _ _
  · refine .ite (fun _ => ?_) (fun _ => ?_)
    · extract_lets +onlyGivenNames v2
      have hv2 : Keeps [.signals, .wafer, .regions, .parts, .bays, .imgs, .snds, .pins, .exps, .arbLast, .spa, .spb, .flt, .tiles, .mem] [p] s v2 :=
        .step (updPart_keeps _ _ _) (by decide) (.refl _ _)
      clear_value v2
      refine .ite (fun _ => ?_) (fun _ => ?_)
      · refine .ite (fun _ => ?_) (fun _ => ?_)
        · exact hv2
        · exact .step (unloadRequest_keeps _ _) (by decide) hv2
      · exact .step (loadRequest_keeps _ _ _ _) (by decide) hv2
    · exact .refl _ _

theorem execAutoReload_ends (p : PartId) (o : LoadObs) (s : State) : Ends [.signals, .wafer, .regions, .parts, .bays, .imgs, .snds, .pins, .exps, .arbLast, .spa, .spb, .flt, .tiles, .mem] [p] s (execAutoReload p o s) := by
  unfold execAutoReload
  extract_lets +onlyGivenNames w1
  refine .whenUp ?_
  refine .ite (fun _ => ?_) (fun _ => ?_)
  · extract_lets +onlyGivenNames v2 w3
    have hv2 : Keeps [.signals, .wafer, .regions, .parts, .bays, .imgs, .snds, .pins, .exps, .arbLast, .spa, .spb, .flt, .tiles, .mem] [p] s v2 :=
      .step (updFlow_keeps _ _ _) (by decide) (.refl _ _)
    clear_value v2
    refine .ite (fun _ => ?_) (fun _ => ?_)
    · exact .step (logPart_keeps _ _ _ _) (by decide) hv2
    · refine .ite (fun _ => ?_) (fun _ => ?_)
      · exact .step (logPart_keeps _ _ _ _) (by decide) hv2
      · extract_lets +onlyGivenNames v4
        have hv4 : Keeps [.signals, .wafer, .regions, .parts, .bays, .imgs, .snds, .pins, .exps, .arbLast, .spa, .spb, .flt, .tiles, .mem] [p] s v4 :=
          .step (updPart_keeps _ _ _) (by decide) hv2
        clear_value v4
        exact .step (loadRequest_keeps _ _ _ _) (by decide) (.step (logPart_keeps _ _ _ _) (by decide) hv4)
  · exact .refl _ _

theorem execPlacementRetry_ends (p : PartId) (s : State) : Ends [.signals, .wafer, .regions, .parts, .bays, .imgs, .snds, .pins, .exps, .arbLast, .spa, .spb, .flt, .tiles, .mem] [p] s (execPlacementRetry p s) := by
  unfold execPlacementRetry
  refine .whenUp ?_
  split
  · exact .refl _ _
  · refine .ite (fun _ => ?_) (fun _ => ?_)
    · refine .ite (fun _ => ?_) (fun _ => ?_)
      · exact .step (trialCold_keeps _ _ _) (by decide) (.refl _ _)
      · exact .step (placeCold_keeps _ _ _) (by decide) (.refl _ _)
    · exact .refl _ _

theorem execLoadLaneGranted_ends (p : PartId) (s : State) : Ends [.wafer, .parts, .imgs, .snds] [p] s (execLoadLaneGranted p s) := by
  unfold execLoadLaneGranted
  refine .whenUp ?_
  split
  · exact .refl _ _
  · refine .ite (fun _ => ?_) (fun _ => ?_)
    · split
      · rename_i v1 qv1
        have hv1 : Keeps [.wafer, .parts, .imgs, .snds] [p] s v1 := by
          exact .step (takeLanes_keeps _ _ _ qv1) (by decide) (.refl _ _)
        exact .step (beginStream_keeps _ _ _) (by decide) hv1
      · exact .refl _ _
    · exact .refl _ _

theorem execPreLoadScrubDone_ends (p : PartId) (failed : List RegionId) (s : State) : Ends [.signals, .wafer, .regions, .parts, .bays, .imgs, .snds, .pins, .exps, .arbLast, .spa, .spb, .flt, .tiles, .mem] [p] s (execPreLoadScrubDone p failed s) := by
  unfold execPreLoadScrubDone
  refine .whenUp ?_
  split
  · exact .refl _ _
  · refine .ite (fun _ => ?_) (fun _ => ?_)
    · extract_lets +onlyGivenNames w1
      refine .ite (fun _ => ?_) (fun _ => ?_)
      · exact .step (placeCold_keeps _ _ _) (by decide) (.step (endScrub_keeps _ _ _) (by decide) (.step (closeAllGates_keeps _ _) (by decide) (.refl _ _)))
      · exact .step (tryStream_keeps _ _) (by decide) (.step (setPState_keeps _ _ _) (by decide) (.step (scrubRegions_keeps _ _) (by decide) (.refl _ _)))
    · exact .refl _ _

theorem execChunkDecrypted_ends (p : PartId) (cipher tag : List Byte) (s : State) : Ends [.signals, .wafer, .regions, .parts, .bays, .imgs, .snds, .pins, .exps, .arbLast, .spa, .spb, .flt, .tiles, .mem] [p] s (execChunkDecrypted p cipher tag s) := by
  unfold execChunkDecrypted
  refine .whenUp ?_
  split
  · exact .refl _ _
  · refine .ite (fun _ => ?_) (fun _ => ?_)
    · split
      · exact .step (updLoad_keeps _ _ _) (by decide) (.refl _ _)
      · exact .step (refuseLoad_keeps _ _ _ _) (by decide) (.refl _ _)
    · exact .refl _ _

theorem execLoadRecord_ends (p : PartId) (readsBack : Bool) (hits : List (TileAt × Nat)) (s : State) : Ends [.signals, .wafer, .regions, .parts, .bays, .imgs, .snds, .pins, .exps, .arbLast, .spa, .spb, .flt, .tiles, .mem] [p] s (execLoadRecord p readsBack hits s) := by
  unfold execLoadRecord
  refine .whenUp ?_
  split
  · exact .refl _ _
  · split
    · refine .ite (fun _ => ?_) (fun _ => ?_)
      · exact .step (streamRecord_keeps _ _ _ _ _ _) (by decide) (.refl _ _)
      · exact .refl _ _
    · exact .refl _ _

theorem execEndOfStreamChecks_ends (p : PartId) (refused : Option Nat) (s : State) : Ends [.signals, .wafer, .regions, .parts, .bays, .imgs, .snds, .pins, .exps, .arbLast, .spa, .spb, .flt, .tiles, .mem] [p] s (execEndOfStreamChecks p refused s) := by
  unfold execEndOfStreamChecks
  refine .whenUp ?_
  split
  · exact .refl _ _
  · refine .ite (fun _ => ?_) (fun _ => ?_)
    · split
      · exact .step (failGroup_keeps _ _ _) (by decide) (.refl _ _)
      · exact .step (endChecks_keeps _ _ _) (by decide) (.refl _ _)
    · exact .refl _ _

theorem execLupinStageAck_ends (p : PartId) (failedGroup : Option Nat) (s : State) : Ends [.signals, .wafer, .regions, .parts, .imgs, .snds, .pins, .exps, .arbLast, .spa, .spb, .flt, .tiles, .mem] [p] s (execLupinStageAck p failedGroup s) := by
  unfold execLupinStageAck
  extract_lets +onlyGivenNames w1
  refine .whenUp ?_
  split
  · exact .step (failGroup_keeps _ _ _) (by decide) (.refl _ _)
  · refine .ite (fun _ => ?_) (fun _ => ?_)
    · exact .step (updFlow_keeps _ _ _) (by decide) (.refl _ _)
    · exact .step (sendGo_keeps _ _) (by decide) (.step (commitRelease_keeps _ _) (by decide) (.refl _ _))
  · exact .refl _ _

theorem execReleaseFailed_ends (p : PartId) (s : State) : Ends [.signals, .wafer, .regions, .parts, .imgs, .snds, .pins, .exps, .arbLast, .spa, .spb, .flt, .tiles] [p] s (execReleaseFailed p s) := by
  unfold execReleaseFailed
  refine .whenUp ?_
  split
  · exact .refl _ _
  · exact .step (faultEntry_keeps _ _ _ _ _) (by decide) (.step (abortSpan_keeps _ _ _ _) (by decide) (.step (failLoadingPins_keeps _ _) (by decide) (.refl _ _)))

theorem execSpanTimeout_ends (p : PartId) (s : State) : Ends [.signals, .wafer, .regions, .parts, .imgs, .snds, .pins, .exps, .arbLast, .spa, .spb, .flt, .tiles] [p] s (execSpanTimeout p s) := by
  unfold execSpanTimeout
  refine .whenUp ?_
  refine .ite (fun _ => ?_) (fun _ => ?_)
  · exact .step (faultEntry_keeps _ _ _ _ _) (by decide) (.refl _ _)
  · exact .refl _ _

theorem execDrainComplete_ends (p : PartId) (s : State) : Ends [.glb, .signals, .sup, .nv, .regions, .parts, .imgs, .snds, .pins, .exps, .arbLast, .spa, .spb, .flt, .tiles, .mem] [p] s (execDrainComplete p s) := by
  unfold execDrainComplete
  refine .whenUp ?_
  split
  · exact .refl _ _
  · refine .ite (fun _ => ?_) (fun _ => ?_)
    · exact .step (finishActivation_keeps _) (by decide) (.step (endDrain_keeps _ _ _) (by decide) (.refl _ _))
    · exact .refl _ _

theorem execContextSwitch_ends (p : PartId) (failedGroup : Option Nat) (s : State) : Ends [.signals, .wafer, .regions, .parts, .imgs, .snds, .pins, .exps, .arbLast, .spa, .spb, .flt, .tiles, .mem] [p] s (execContextSwitch p failedGroup s) := by
  unfold execContextSwitch
  extract_lets +onlyGivenNames w1
  refine .whenUp ?_
  refine .ite (fun _ => ?_) (fun _ => ?_)
  · split
    · exact .step (failGroup_keeps _ _ _) (by decide) (.refl _ _)
    · exact .step (commitSwitch_keeps _ _) (by decide) (.refl _ _)
  · exact .refl _ _

theorem execUnloadScrubDone_ends (p : PartId) (failed : List RegionId) (s : State) : Ends [.signals, .wafer, .regions, .parts, .bays, .imgs, .snds, .pins, .exps, .arbLast, .spa, .spb, .flt, .tiles, .mem] [p] s (execUnloadScrubDone p failed s) := by
  unfold execUnloadScrubDone
  extract_lets +onlyGivenNames w1
  refine .whenUp ?_
  refine .ite (fun _ => ?_) (fun _ => ?_)
  · exact .refl _ _
  · split
    · exact .refl _ _
    · exact .step (updPart_keeps _ _ _) (by decide) (.step (freeHeld_keeps _ _ _) (by decide) (.refl _ _))
    · exact .step (startWaiting_keeps _ _ _) (by decide) (.step (becomeEmpty_keeps _ _) (by decide) (.step (freeHeld_keeps _ _ _) (by decide) (.refl _ _)))
    · split
      · exact .step (reloadAfterScrub_keeps _ _ _ _) (by decide) (.refl _ _)
      · exact .step (becomeEmpty_keeps _ _) (by decide) (.step (freeHeld_keeps _ _ _) (by decide) (.refl _ _))

theorem execPostCommitScrubDone_ends (o : ScrubEnd) (s : State) : Ends [.signals, .wafer, .regions, .parts, .imgs, .snds, .pins, .flt, .tiles, .mem] [o.part] s (execPostCommitScrubDone o s) := by
  unfold execPostCommitScrubDone
  extract_lets +onlyGivenNames w0 w1
  refine .whenUp ?_
  split
  · extract_lets +onlyGivenNames w2 v3 v4 v5
    have hv3 : Keeps [.signals, .wafer, .regions, .parts, .imgs, .snds, .pins, .flt, .tiles, .mem] [o.part] s v3 :=
      .step (mapTiles_keeps _ _ _) (by decide) (.refl _ _)
    clear_value v3
    have hv4 : Keeps [.signals, .wafer, .regions, .parts, .imgs, .snds, .pins, .flt, .tiles, .mem] [o.part] s v4 :=
      .step (clearClaims_keeps _ _ _) (by decide) hv3
    clear_value v4
    have hv5 : Keeps [.signals, .wafer, .regions, .parts, .imgs, .snds, .pins, .flt, .tiles, .mem] [o.part] s v5 :=
      .step (updFabric_keeps _ _ _) (by decide) hv4
    clear_value v5
    exact .step (releaseUnclaimed_keeps _ _ _) (by decide) (.step (endScrub_keeps _ _ _) (by decide) hv5)
  · exact .refl _ _

/-! ### Timebase.lean -/

theorem execMeshLock_ends (s : State) : Ends [.tbs] [] s (execMeshLock s) := by
  unfold execMeshLock
  refine .whenUp ?_
  refine .ite (fun _ => ?_) (fun _ => ?_)
  · exact .lit (t := s) (.refl _ _) .lit
  · exact .refl _ _

theorem execReferenceLost_ends (s : State) : Ends [.signals, .tbs, .flt] [] s (execReferenceLost s) := by
  unfold execReferenceLost
  refine .whenUp ?_
  exact .step (loseReference_keeps _) (by decide) (.refl _ _)

theorem execReferenceBack_ends (ppb : Int) (s : State) : Ends [.signals, .tbs, .flt] [] s (execReferenceBack ppb s) := by
  unfold execReferenceBack
  refine .whenUp ?_
  refine .ite (fun _ => ?_) (fun _ => ?_)
  · exact .step (logIrq_keeps _ _ _ _ _ _ _) (by decide) (.lit (t := s) (.refl _ _) .lit)
  · exact .refl _ _

theorem execTbsSrcWrite_ends (v : Word) (s : State) : Ends [.signals, .tbs, .flt] [] s (execTbsSrcWrite v s) := by
  unfold execTbsSrcWrite
  refine .whenUp ?_
  refine .ite (fun _ => ?_) (fun _ => ?_)
  · exact .step (loseReference_keeps _) (by decide) (.lit (t := s) (.refl _ _) .lit)
  · exact .refl _ _

/-! ### Bays.lean -/

theorem execPresenceAsserted_ends (b : BayId) (s : State) : Ends [.bays] [b] s (execPresenceAsserted b s) := by
  unfold execPresenceAsserted
  refine .whenUp ?_
  refine .ite (fun _ => ?_) (fun _ => ?_)
  · exact .step (updBay_keeps _ _ _) (by decide) (.refl _ _)
  · exact .refl _ _

theorem execPresenceDebounceEnd_ends (b : BayId) (s : State) : Ends [.bays] [b] s (execPresenceDebounceEnd b s) := by
  unfold execPresenceDebounceEnd
  refine .whenUp ?_
  refine .ite (fun _ => ?_) (fun _ => ?_)
  · exact .step (updBay_keeps _ _ _) (by decide) (.refl _ _)
  · exact .refl _ _

theorem execBayPowerGood_ends (b : BayId) (o : IdentityObs) (s : State) : Ends [.signals, .nv, .bays, .flt] [b] s (execBayPowerGood b o s) := by
  unfold execBayPowerGood
  refine .whenUp ?_
  refine .ite (fun _ => ?_) (fun _ => ?_)
  · exact .step (checkIdentity_keeps _ _ _) (by decide) (.step (updBay_keeps _ _ _) (by decide) (.refl _ _))
  · exact .refl _ _

theorem execPerstRelease_ends (b : BayId) (width gen : Nat) (s : State) : Ends [.bays] [b] s (execPerstRelease b width gen s) := by
  unfold execPerstRelease
  extract_lets +onlyGivenNames w1
  refine .whenUp ?_
  refine .ite (fun _ => ?_) (fun _ => ?_)
  · exact .step (updBay_keeps _ _ _) (by decide) (.refl _ _)
  · exact .refl _ _

theorem execNvmeReady_ends (b : BayId) (o : NvmeObs) (s : State) : Ends [.signals, .wafer, .regions, .parts, .bays, .imgs, .snds, .pins, .spa, .spb, .flt, .tiles, .mem] [b] s (execNvmeReady b o s) := by
  unfold execNvmeReady
  refine .whenUp (.ite (fun _ => ?_) (fun _ => .refl _ _))
  exact .step (useCartridge_keeps _ _ _) (by decide) (.refl _ _)

theorem execLoadHandover_ends (b : BayId) (o : LoadObs) (s : State) : Ends [.signals, .wafer, .regions, .parts, .bays, .imgs, .snds, .pins, .exps, .arbLast, .spa, .spb, .flt, .tiles, .mem] [b] s (execLoadHandover b o s) := by
  unfold execLoadHandover
  extract_lets +onlyGivenNames w1
  refine .whenUp ?_
  refine .ite (fun _ => ?_) (fun _ => ?_)
  · extract_lets +onlyGivenNames v2
    have hv2 : Keeps [.signals, .wafer, .regions, .parts, .bays, .imgs, .snds, .pins, .exps, .arbLast, .spa, .spb, .flt, .tiles, .mem] [b] s v2 :=
      .step (updBay_keeps _ _ _) (by decide) (.refl _ _)
    clear_value v2
    refine .ite (fun _ => ?_) (fun _ => ?_)
    · exact hv2
    · exact .step (loadRequest_keeps _ _ _ _) (by decide) hv2
  · exact .refl _ _

theorem execNvmeCommandCompletion_ends (c : BayCmd) (ok : Bool) (s : State) : Ends [.signals, .wafer, .regions, .parts, .bays, .imgs, .snds, .pins, .spa, .spb, .flt, .tiles, .mem] [c.bay] s (execNvmeCommandCompletion c ok s) := by
  unfold execNvmeCommandCompletion
  refine .whenUp ?_
  refine .ite (fun _ => ?_) (fun _ => ?_)
  · refine .ite (fun _ => ?_) (fun _ => ?_)
    · exact .step (completeCmd_keeps _ _ _) (by decide) (.refl _ _)
    · exact .step (mediaFailure_keeps _ _ _) (by decide) (.refl _ _)
  · exact .refl _ _

theorem execNvmeCommandTimeout_ends (c : BayCmd) (s : State) : Ends [.signals, .wafer, .regions, .parts, .bays, .imgs, .snds, .pins, .spa, .spb, .flt, .tiles, .mem] [c.bay] s (execNvmeCommandTimeout c s) := by
  unfold execNvmeCommandTimeout
  refine .whenUp ?_
  refine .ite (fun _ => ?_) (fun _ => ?_)
  · exact .step (mediaFailure_keeps _ _ _) (by decide) (.refl _ _)
  · exact .refl _ _

theorem execRemoved_ends (b : BayId) (s : State) : Ends [.signals, .wafer, .regions, .parts, .bays, .imgs, .snds, .pins, .exps, .arbLast, .spa, .spb, .flt, .tiles, .mem] [b] s (execRemoved b s) := by
  unfold execRemoved
  refine .whenUp ?_
  split
  · exact .refl _ _
  · exact .step (updBay_keeps _ _ _) (by decide) (.refl _ _)
  · exact .step (removeCartridge_keeps _ _) (by decide) (.refl _ _)

theorem execOvercurrent_ends (b : BayId) (s : State) : Ends [.signals, .bays, .flt] [b] s (execOvercurrent b s) := by
  unfold execOvercurrent
  refine .whenUp ?_
  refine .ite (fun _ => ?_) (fun _ => ?_)
  · exact .step (refuseBay_keeps _ _ _) (by decide) (.step (updBay_keeps _ _ _) (by decide) (.refl _ _))
  · exact .refl _ _

theorem execPoweredHour_ends (b : BayId) (s : State) : Ends [.bays] [b] s (execPoweredHour b s) := by
  unfold execPoweredHour
  extract_lets +onlyGivenNames w1
  refine .whenUp ?_
  refine .ite (fun _ => ?_) (fun _ => ?_)
  · exact .step (updBay_keeps _ _ _) (by decide) (.refl _ _)
  · exact .refl _ _

theorem execSmartReadPeriod_ends (b : BayId) (critical used : Nat) (s : State) : Ends [.signals, .bays] [b] s (execSmartReadPeriod b critical used s) := by
  unfold execSmartReadPeriod
  refine .whenUp ?_
  refine .ite (fun _ => ?_) (fun _ => ?_)
  · exact .step (noteWear_keeps _ _) (by decide) (.step (updBay_keeps _ _ _) (by decide) (.refl _ _))
  · exact .refl _ _

theorem execPeriodicLifeRecord_ends (b : BayId) (s : State) : Ends [.signals, .bays] [b] s (execPeriodicLifeRecord b s) := by
  unfold execPeriodicLifeRecord
  refine .whenUp ?_
  refine .ite (fun _ => ?_) (fun _ => ?_)
  · exact .step (noteWear_keeps _ _) (by decide) (.step (writeLife_keeps _ _ _) (by decide) (.refl _ _))
  · exact .refl _ _

/-! ### Supervisor.lean -/

theorem bootSlot_keeps (s : State) (fwOk : Bool) : Keeps [.sup] [] s (bootSlot s fwOk).1 := by
  unfold bootSlot
  split
  · exact .refl _ _
  · split
    · exact .refl _ _
    · extract_lets s1
      have h1 : Keeps [.sup] [] s s1 := .step (updSlot_keeps _ _ _) (by decide) (.refl _ _)
      clear_value s1
      split
      · exact .lit (t := s1) h1 .lit
      · exact h1

theorem bootRegion_ok (restart out : Bool) (g : Region) : regionOk (bootRegion restart out g) := by
  unfold bootRegion
  extract_lets off
  refine ⟨by simp [setVdd], fun h => ?_, fun h => ?_⟩
  · have : (!off && !out) = true := h
    simp [setVdd, this]
  · have : (!off && !out) = false := h
    simp [setVdd, this]

/-- What the boot state keeps of the state before. -/
theorem bootState_keeps (s : State) (e : PowerUp) : Keeps [.glb, .signals, .sup, .tbs, .wafer, .pwr, .regions, .parts, .bays, .imgs, .snds, .encs, .pins,
    .allocHeld, .exps, .arbLast, .spa, .spb, .flt, .fltView, .defPage, .cenSel, .tiles, .mem] allParts s (bootState s e) := by
  refine ⟨.lit, fun q hq => absurd (mem_allParts q) hq, fun h => ⟨⟨rfl, rfl⟩, ?_, h.log, ?_, ?_⟩⟩
  · intro r
    have : (bootState s e).regions[r] = bootRegion (decide (s.glb.phase = .restarting)) (e.findings.supplyOut.contains r) s.regions[r] := by
      simp [bootState]
    rw [this]
    exact bootRegion_ok _ _ _
  · intro v _
    refine ⟨?_, ?_, ?_⟩
    · show (Vector.replicate 32 0)[v] = 0
      simp
    · show (0 : Word).getLsbD v.val = false
      simp
    · show (0 : Word).getLsbD v.val = false
      simp
  · intro i
    show (Vector.replicate 4 0)[i] ≤ 2
    simp

theorem execUnitPowerUp_ends (e : PowerUp) (s : State) : Ends [.glb, .signals, .sup, .nv, .tbs, .wafer, .pwr, .regions, .parts, .bays, .imgs, .snds, .encs, .pins,
    .allocHeld, .exps, .arbLast, .spa, .spb, .flt, .fltView, .defPage, .cenSel, .tiles, .mem] allParts s (execUnitPowerUp e s) := by
  unfold execUnitPowerUp
  refine .next (.ite (fun _ => .refl _ _) (fun _ => ?_))
  extract_lets +onlyGivenNames r
  have hr : Keeps [.glb, .signals, .sup, .nv, .tbs, .wafer, .pwr, .regions, .parts, .bays, .imgs, .snds, .encs, .pins,
    .allocHeld, .exps, .arbLast, .spa, .spb, .flt, .fltView, .defPage, .cenSel, .tiles, .mem] allParts s r.1 :=
    .step (bootSlot_keeps _ _) (by decide) (.step (bootState_keeps _ _) (by decide) (.refl _ _))
  clear_value r
  split
  · exact .litInv (t := r.1) hr .lit (fun h => ⟨h.store, h.supplies, h.log, h.vectors, h.lanes⟩)
  · refine .foldl _ (fun _ _ hv => .step (bootLoad_keeps _ _ _) (by decide) hv) _ _ ?_
    refine .foldl _ (fun _ _ hv => .step (bootBay_keeps _ _ _) (by decide) hv) _ _ ?_
    refine .step (bootService_keeps _) (by decide) (.step (bootWafer_keeps _ _) (by decide) (.step (bootLock_keeps _) (by decide)
      (.step (bootLog_keeps _) (by decide) ?_)))
    exact .lit (t := r.1) hr .lit

theorem execHealthCheck_ends (stepsDone watchdogServiced : Bool) (s : State) : Ends [.glb, .signals, .sup, .regions, .pins, .flt, .tiles, .mem] [] s (execHealthCheck stepsDone watchdogServiced s) := by
  unfold execHealthCheck
  extract_lets +onlyGivenNames w1
  refine .whenUp ?_
  refine .ite (fun _ => ?_) (fun _ => ?_)
  · split
    · exact .step (passTrial_keeps _ _) (by decide) (.refl _ _)
    · exact .step (restartUnit_keeps _) (by decide) (.step (logIrq_keeps _ _ _ _ _ _ _) (by decide) (.step (updSlot_keeps _ _ _) (by decide) (.refl _ _)))
  · exact .refl _ _

theorem execWatchdog_ends (s : State) : Ends [.glb, .sup, .regions, .pins, .tiles, .mem] [] s (execWatchdog s) := by
  unfold execWatchdog
  extract_lets +onlyGivenNames w1 w2 v3 u4 v5
  have hv3 : Keeps [.glb, .sup, .regions, .pins, .tiles, .mem] [] s v3 := by
    unfold v3
    refine .ite (fun _ => ?_) (fun _ => ?_)
    · exact .step (updSlot_keeps _ _ _) (by decide) (.refl _ _)
    · exact .refl _ _
  clear_value v3
  have hv5 : Keeps [.glb, .sup, .regions, .pins, .tiles, .mem] [] s v5 := by
    unfold v5
    exact .lit (t := v3) hv3 .lit
  clear_value v5
  refine .whenUp ?_
  exact .step (restartUnit_keeps _) (by decide) hv5

theorem execFwOpen_ends (s : State) : Ends [.signals, .sup] [] s (execFwOpen s) := by
  unfold execFwOpen
  refine .whenUp ?_
  refine .ite (fun _ => ?_) (fun _ => ?_)
  · exact .step (fwError_keeps _) (by decide) (.refl _ _)
  · extract_lets +onlyGivenNames v1
    have hv1 : Keeps [.signals, .sup] [] s v1 :=
      .step (updSlot_keeps _ _ _) (by decide) (.refl _ _)
    clear_value v1
    exact .step (irq_keeps _ _) (by decide) (.lit (t := v1) hv1 .lit)

theorem execFwWrite_ends (s : State) : Ends [.sup] [] s (execFwWrite s) := by
  unfold execFwWrite
  extract_lets +onlyGivenNames w1
  refine .whenUp ?_
  refine .ite (fun _ => ?_) (fun _ => ?_)
  · exact .step (fwError_keeps _) (by decide) (.refl _ _)
  · refine .ite (fun _ => ?_) (fun _ => ?_)
    · exact .step (fwSeqError_keeps _) (by decide) (.refl _ _)
    · exact .lit (t := s) (.refl _ _) .lit

theorem execFwClose_ends (s : State) : Ends [.sup] [] s (execFwClose s) := by
  unfold execFwClose
  extract_lets +onlyGivenNames w1 w2
  refine .whenUp ?_
  refine .ite (fun _ => ?_) (fun _ => ?_)
  · exact .step (fwError_keeps _) (by decide) (.refl _ _)
  · refine .ite (fun _ => ?_) (fun _ => ?_)
    · exact .lit (t := s) (.refl _ _) .lit
    · exact .step (fwSeqError_keeps _) (by decide) (.refl _ _)

theorem execFwActivate_ends (slotB : Bool) (s : State) : Ends [.glb, .signals, .sup, .nv, .regions, .parts, .pins, .exps, .arbLast, .spa, .spb, .tiles, .mem] allParts s (execFwActivate slotB s) := by
  unfold execFwActivate
  refine .whenUp ?_
  refine .ite (fun _ => ?_) (fun _ => ?_)
  · exact .step (fwError_keeps _) (by decide) (.refl _ _)
  · exact .step (activateSlot_keeps _ _ _) (by decide) (.lit (t := s) (.refl _ _) .lit)

theorem execFwCommandDone_ends (verified : Bool) (info : FwInfo) (s : State) : Ends [.glb, .signals, .sup, .nv, .regions, .parts, .pins, .exps, .arbLast, .spa, .spb, .tiles, .mem] allParts s (execFwCommandDone verified info s) := by
  unfold execFwCommandDone
  extract_lets +onlyGivenNames u1 v2
  have hv2 : Keeps [.glb, .signals, .sup, .nv, .regions, .parts, .pins, .exps, .arbLast, .spa, .spb, .tiles, .mem] allParts s v2 := by
    unfold v2
    exact .lit (t := s) (.refl _ _) .lit
  clear_value v2
  refine .whenUp ?_
  split
  · exact .refl _ _
  · exact hv2
  · extract_lets +onlyGivenNames u3 v4
    have hv4 : Keeps [.glb, .signals, .sup, .nv, .regions, .parts, .pins, .exps, .arbLast, .spa, .spb, .tiles, .mem] allParts s v4 := by
      unfold v4
      exact .lit (t := v2) hv2 .lit
    clear_value v4
    refine .ite (fun _ => ?_) (fun _ => ?_)
    · exact .step (activateSlot_keeps _ _ _) (by decide) hv4
    · exact .step (irq_keeps _ _) (by decide) (.step (updSlot_keeps _ _ _) (by decide) (.lit (t := v4) hv4 .lit))

theorem execFltSelWrite_ends (v : Word) (s : State) : Ends [.fltView] [] s (execFltSelWrite v s) := by
  unfold execFltSelWrite
  extract_lets +onlyGivenNames w1
  refine .whenUp ?_
  exact .litInv (t := s) (.refl _ _) .lit (fun h => ⟨h.store, h.supplies, h.log, h.vectors, h.lanes⟩)

/-! ### Tile.lean -/

theorem execTileStep_ends (t : TileAt) (o : StepObs) (s : State) (ht : tileExists t = true) : Ends [.signals, .wafer, .regions, .parts, .imgs, .snds, .pins, .exps, .arbLast, .spa, .spb, .flt, .tiles, .mem] allParts s (execTileStep t o s) := by
  unfold execTileStep
  rw [if_pos ht]
  refine .whenUp ?_
  exact .step (tileStep_keeps _ _ _) (by decide) (.refl _ _)

theorem execFlitReceived_ends (t : TileAt) (port : Port) (w : Wires) (ecc : EccRead) (s : State) (ht : tileExists t = true) : Ends [.signals, .wafer, .regions, .parts, .imgs, .snds, .pins, .exps, .arbLast, .spa, .spb, .flt, .tiles, .mem] allParts s (execFlitReceived t port w ecc s) := by
  unfold execFlitReceived
  rw [if_pos ht]
  refine .whenUp ?_
  exact .step (receiveFlit_keeps _ _ _ _ _) (by decide) (.refl _ _)

theorem execCreditFlitReceived_ends (t : TileAt) (d : Dir) (w : Wires) (s : State) (ht : tileExists t = true) : Ends [.regions, .parts, .spa, .tiles, .mem] allParts s (execCreditFlitReceived t d w s) := by
  unfold execCreditFlitReceived
  rw [if_pos ht]
  refine .whenUp ?_
  exact .step (receiveCredits_keeps _ _ _ _) (by decide) (.refl _ _)

theorem execBackgroundScrub_ends (t : TileAt) (o : ScrubObs) (s : State) (ht : tileExists t = true) : Ends [.signals, .wafer, .regions, .parts, .imgs, .snds, .pins, .exps, .arbLast, .spa, .spb, .flt, .tiles, .mem] allParts s (execBackgroundScrub t o s) := by
  unfold execBackgroundScrub
  rw [if_pos ht]
  refine .whenUp ?_
  exact .step (scrubNext_keeps _ _ _ _) (by decide) (.refl _ _)

/-! ### Flow.lean -/

theorem execStallDetectorTick_ends (p : PartId) (s : State) : Ends [.parts] [p] s (execStallDetectorTick p s) := by
  unfold execStallDetectorTick
  refine .whenUp ?_
  refine .ite (fun _ => ?_) (fun _ => ?_)
  · exact .refl _ _
  · extract_lets +onlyGivenNames w1
    exact .step (updFabric_keeps _ _ _) (by decide) (.refl _ _)

theorem cutStage_keeps (s : State) (p : PartId) (k j : Nat) : Keeps [.parts, .tiles] [p] s (cutStage s p k j) := by
  unfold cutStage
  extract_lets t
  split
  · exact .refl _ _
  · exact .step (updStage_keeps _ _ _ _) (by decide) (.step (updTile_keeps _ _ _) (by decide) (.refl _ _))

theorem shedStage_keeps (s : State) (p : PartId) (n : Nat) : Keeps [.parts, .tiles] [p] s (shedStage s p n) := by
  unfold shedStage
  extract_lets here s1
  have h1 : Keeps [.parts, .tiles] [p] s s1 := by
    unfold s1
    split
    · exact .refl _ _
    · split
      · exact .ite (fun _ => .refl _ _) (fun _ => .step (cutStage_keeps _ _ _ _) (by decide) (.refl _ _))
      · exact .refl _ _
  clear_value s1
  exact .step (updFabric_keeps _ _ _) (by decide) h1

theorem detect_keeps (s : State) (p : PartId) (n start : Nat) (c : CycleRec) : Keeps [.regions, .parts, .spa, .tiles, .mem] allParts s (detect s p n start c) := by
  unfold detect
  refine .ite (fun _ => .step (updFabric_keeps _ _ _) (by decide) (.refl _ _)) (fun _ => .ite (fun _ => .refl _ _) (fun _ => ?_))
  extract_lets s1
  have h1 : Keeps [.regions, .parts, .spa, .tiles, .mem] allParts s s1 := by
    unfold s1
    split
    · exact .step (beginSpill_keeps _ _ _ _) (by decide) (.refl _ _)
    · exact .step (shedStage_keeps _ _ _) (by decide) (.refl _ _)
  clear_value s1
  exact .step (updFabric_keeps _ _ _) (by decide) h1

theorem execDetectionWindowExpiry_ends (p : PartId) (cycle : Nat) (s : State) : Ends [.regions, .parts, .spa, .tiles, .mem] allParts s (execDetectionWindowExpiry p cycle s) := by
  unfold execDetectionWindowExpiry
  refine .whenUp ?_
  extract_lets +onlyGivenNames w1
  split
  · exact .ite (fun _ => .step (detect_keeps _ _ _ _ _) (by decide) (.refl _ _)) (fun _ => .refl _ _)
  · exact .refl _ _

theorem execStallSample_ends (s : State) : Ends [.tiles] [] s (execStallSample s) := by
  unfold execStallSample
  extract_lets +onlyGivenNames ts
  exact .whenUp (.litInv (t := s) (.refl _ _) .lit (fun h => ⟨⟨h.store.1, tabWf_mapFilter _
    (fun c => (c.1, match runsHere s c.1 with
      | some p => sampleTile (waitsData s p c.1 c.2) c.2
      | none => c.2)) (fun c => rfl) _ h.store.2⟩,
    h.supplies, h.log, h.vectors, h.lanes⟩))

theorem execProgressWatchdog_ends (p : PartId) (s : State) : Ends [.signals, .wafer, .regions, .parts, .imgs, .snds, .pins, .exps, .arbLast, .spa, .spb, .flt, .tiles] [p] s (execProgressWatchdog p s) := by
  unfold execProgressWatchdog
  refine .whenUp ?_
  refine .ite (fun _ => ?_) (fun _ => ?_)
  · exact .step (faultEntry_keeps _ _ _ _ _) (by decide) (.refl _ _)
  · exact .refl _ _

/-! ### Evidence.lean -/

theorem execEvidenceCropReceived_ends (p : PartId) (flits : List Flit) (s : State) : Ends [.exps, .arbLast] [] s (execEvidenceCropReceived p flits s) := by
  unfold execEvidenceCropReceived
  extract_lets +onlyGivenNames w1 w2
  refine .whenUp ?_
  split
  · exact .refl _ _
  · refine .ite (fun _ => ?_) (fun _ => ?_)
    · exact .refl _ _
    · exact .step (exportPump_keeps _) (by decide) (.step (updExp_keeps _ _ _) (by decide) (.refl _ _))

theorem execEvidenceMatchTimeout_ends (p : PartId) (s : State) : Ends [.exps] [] s (execEvidenceMatchTimeout p s) := by
  unfold execEvidenceMatchTimeout
  refine .whenUp ?_
  exact .step (updExp_keeps _ _ _) (by decide) (.refl _ _)

/-! ### Export.lean -/

theorem execPageFlush_ends (p : PartId) (s : State) : Ends [.exps, .arbLast] [] s (execPageFlush p s) := by
  unfold execPageFlush
  refine .whenUp (.ite (fun _ => ?_) (fun _ => .refl _ _))
  exact .step (exportPump_keeps _) (by decide) (.step (updExp_keeps _ _ _) (by decide) (.refl _ _))

theorem execVerdictCreditRefill_ends (s : State) : Ends [.exps, .arbLast] [] s (execVerdictCreditRefill s) := by
  unfold execVerdictCreditRefill
  refine .whenUp ?_
  exact .step (exportPump_keeps _) (by decide) (.step (updExps_keeps _ _) (by decide) (.refl _ _))

theorem execPageDelivered_ends (p : PartId) (s : State) : Ends [.signals, .exps, .arbLast] [] s (execPageDelivered p s) := by
  unfold execPageDelivered
  refine .whenUp ?_
  refine .ite (fun _ => ?_) (fun _ => ?_)
  · exact .step (exportPump_keeps _) (by decide) (.step (signalRing_keeps _ _) (by decide) (.step (updExp_keeps _ _ _) (by decide) (.refl _ _)))
  · exact .refl _ _

theorem execIrqHoldoffEnd_ends (p : PartId) (s : State) : Ends [.signals, .exps] [] s (execIrqHoldoffEnd p s) := by
  unfold execIrqHoldoffEnd
  extract_lets +onlyGivenNames w1
  refine .whenUp ?_
  refine .ite (fun _ => ?_) (fun _ => ?_)
  · exact .refl _ _
  · extract_lets +onlyGivenNames v2
    have hv2 : Keeps [.signals, .exps] [] s v2 :=
      .step (updExp_keeps _ _ _) (by decide) (.refl _ _)
    clear_value v2
    refine .ite (fun _ => ?_) (fun _ => ?_)
    · exact .step (signalRing_keeps _ _) (by decide) hv2
    · exact hv2

theorem execExpCtrlWrite_ends (p : PartId) (v : Word) (s : State) : Ends [.signals, .exps, .arbLast] [] s (execExpCtrlWrite p v s) := by
  unfold execExpCtrlWrite
  extract_lets +onlyGivenNames w1 w2
  refine .whenUp ?_
  refine .ite (fun _ => ?_) (fun _ => ?_)
  · exact .refl _ _
  · refine .ite (fun _ => ?_) (fun _ => ?_)
    · exact .step (updExp_keeps _ _ _) (by decide) (.refl _ _)
    · extract_lets +onlyGivenNames v3 v4
      have hv3 : Keeps [.signals, .exps, .arbLast] [] s v3 :=
        .step (updExp_keeps _ _ _) (by decide) (.refl _ _)
      clear_value v3
      have hv4 : Keeps [.signals, .exps, .arbLast] [] s v4 := by
        unfold v4
        refine .ite (fun _ => ?_) (fun _ => ?_)
        · exact .step (signalRing_keeps _ _) (by decide) hv3
        · exact hv3
      clear_value v4
      exact .step (exportPump_keeps _) (by decide) hv4

theorem execExpHeadWrite_ends (p : PartId) (v : Word) (s : State) : Ends [.exps, .arbLast] [] s (execExpHeadWrite p v s) := by
  unfold execExpHeadWrite
  extract_lets +onlyGivenNames w1 w2
  refine .whenUp ?_
  refine .ite (fun _ => ?_) (fun _ => ?_)
  · exact .step (exportPump_keeps _) (by decide) (.step (updExp_keeps _ _ _) (by decide) (.refl _ _))
  · exact .step (updExp_keeps _ _ _) (by decide) (.refl _ _)

theorem execHostLinkUp_ends (gen width : Nat) (s : State) : Ends [.glb] [] s (execHostLinkUp gen width s) := by
  unfold execHostLinkUp
  refine .whenUp ?_
  refine .ite (fun _ => ?_) (fun _ => ?_)
  · exact .refl _ _
  · exact .litInv (t := s) (.refl _ _) .lit (fun h => ⟨h.store, h.supplies, h.log, h.vectors, h.lanes⟩)

theorem execHostLinkDown_ends (s : State) : Ends [.glb, .signals, .exps, .flt] [] s (execHostLinkDown s) := by
  unfold execHostLinkDown
  refine .whenUp ?_
  refine .ite (fun _ => ?_) (fun _ => ?_)
  · exact .refl _ _
  · extract_lets +onlyGivenNames v1
    have hv1 : Keeps [.glb, .signals, .exps, .flt] [] s v1 :=
      .step (updExps_keeps _ _) (by decide) (.refl _ _)
    clear_value v1
    exact .step (logIrq_keeps _ _ _ _ _ _ _) (by decide) (.litInv (t := v1) hv1 .lit (fun h => ⟨h.store, h.supplies, h.log, h.vectors, h.lanes⟩))

/-! ### Verdicts.lean -/

theorem execVerdictRelease_ends (p : PartId) (s : State) : Ends [.parts, .pins, .exps, .arbLast, .spa] [p] s (execVerdictRelease p s) := by
  unfold execVerdictRelease
  extract_lets +onlyGivenNames w1
  refine .whenUp ?_
  split
  · exact .refl _ _
  · extract_lets +onlyGivenNames w2
    split
    · exact .refl _ _
    · extract_lets +onlyGivenNames w3 v4 v5 w6
      have hv4 : Keeps [.parts, .pins, .exps, .arbLast, .spa] [p] s v4 :=
        .step (updPart_keeps _ _ _) (by decide) (.refl _ _)
      clear_value v4
      have hv5 : Keeps [.parts, .pins, .exps, .arbLast, .spa] [p] s v5 :=
        .step (enterRec_keeps _ _ _) (by decide) (.step (drivePins_keeps _ _ _ _) (by decide) hv4)
      clear_value v5
      exact .step (exportPump_keeps _) (by decide) (.step (updExp_keeps _ _ _) (by decide) (.step (descPaired_keeps _ _) (by decide) hv5))

theorem execPinPulseEnd_ends (pin : PinId) (s : State) : Ends [.pins] [] s (execPinPulseEnd pin s) := by
  unfold execPinPulseEnd
  extract_lets +onlyGivenNames w1 w2
  refine .whenUp ?_
  refine .ite (fun _ => ?_) (fun _ => ?_)
  · exact .step (updPin_keeps _ _ _) (by decide) (.refl _ _)
  · exact .refl _ _

theorem execVrdAllocWrite_ends (i : Fin 8) (v : Word) (s : State) : Ends [.signals, .pins, .allocHeld] [] s (execVrdAllocWrite i v s) := by
  unfold execVrdAllocWrite
  extract_lets +onlyGivenNames w1 w2 w3
  refine .whenUp ?_
  refine .ite (fun _ => ?_) (fun _ => ?_)
  · exact .refl _ _
  · extract_lets +onlyGivenNames v4
    have hv4 : Keeps [.signals, .pins, .allocHeld] [] s v4 := by
      unfold v4
      refine .foldl _ (fun v5 a6 hv5 => ?_) _ _ ?_
      · refine .ite (fun _ => ?_) (fun _ => ?_)
        · exact hv5
        · exact .step (updPin_keeps _ _ _) (by decide) hv5
      · exact .refl _ _
    clear_value v4
    refine .ite (fun _ => ?_) (fun _ => ?_)
    · exact .step (irq_keeps _ _) (by decide) (.lit (t := v4) hv4 .lit)
    · exact hv4

theorem execApply_ends (p : PartId) (v : Word) (s : State) : Ends [.signals, .parts] [p] s (execApply p v s) := by
  unfold execApply
  extract_lets +onlyGivenNames w1 v2
  have hv2 : Keeps [.signals, .parts] [p] s v2 :=
    .step (irq_keeps _ _) (by decide) (.step (updPartRegs_keeps _ _ _) (by decide) (.refl _ _))
  clear_value v2
  refine .whenUp ?_
  refine .ite (fun _ => ?_) (fun _ => ?_)
  · exact .refl _ _
  · split
    · exact hv2
    · refine .ite (fun _ => ?_) (fun _ => ?_)
      · exact hv2
      · refine .ite (fun _ => ?_) (fun _ => ?_)
        · exact .step (irq_keeps _ _) (by decide) (.step (updPartRegs_keeps _ _ _) (by decide) (.refl _ _))
        · extract_lets +onlyGivenNames w3 w4
          refine .ite (fun _ => ?_) (fun _ => ?_)
          · extract_lets +onlyGivenNames v5
            have hv5 : Keeps [.signals, .parts] [p] s v5 :=
              .step (irq_keeps _ _) (by decide) (.step (updPartRegs_keeps _ _ _) (by decide) (.refl _ _))
            clear_value v5
            refine .ite (fun _ => ?_) (fun _ => ?_)
            · exact hv5
            · exact .step (updPart_keeps _ _ _) (by decide) hv5
          · exact hv2

theorem execPrtTunWrite_ends (p : PartId) (n : Fin 32) (v : Word) (s : State) : Ends [.parts] [p] s (execPrtTunWrite p n v s) := by
  unfold execPrtTunWrite
  extract_lets +onlyGivenNames w1
  refine .whenUp ?_
  split
  · exact .refl _ _
  · split
    · exact .refl _ _
    · refine .ite (fun _ => ?_) (fun _ => ?_)
      · exact .step (updPart_keeps _ _ _) (by decide) (.refl _ _)
      · exact .refl _ _

/-! ### Image.lean -/

theorem execCxpLineReceived_ends (c : ImgId) (pixels : List Nat) (crcOk : Bool) (start : LineStart) (s : State) : Ends [.regions, .parts, .imgs, .exps, .arbLast, .spa, .spb, .tiles, .mem] allParts s (execCxpLineReceived c pixels crcOk start s) := by
  unfold execCxpLineReceived
  extract_lets +onlyGivenNames w1 v2
  have hv2 : Keeps [.regions, .parts, .imgs, .exps, .arbLast, .spa, .spb, .tiles, .mem] allParts s v2 := by
    unfold v2
    refine .ite (fun _ => ?_) (fun _ => ?_)
    · exact .refl _ _
    · exact .step (updImg_keeps _ _ _) (by decide) (.refl _ _)
  clear_value v2
  refine .whenUp ?_
  split
  · refine .ite (fun _ => ?_) (fun _ => ?_)
    · exact .refl _ _
    · refine .ite (fun _ => ?_) (fun _ => ?_)
      · exact .step (freeLine_keeps _ _ _ _ _ _) (by decide) hv2
      · exact .step (pairedLine_keeps _ _ _ _ _ _ _) (by decide) hv2
  · exact .refl _ _

theorem execCxpBringupComplete_ends (c : ImgId) (o : BringupObs) (s : State) : Ends [.signals, .wafer, .regions, .parts, .imgs, .snds, .pins, .exps, .arbLast, .spa, .spb, .flt, .tiles, .mem] allParts s (execCxpBringupComplete c o s) := by
  unfold execCxpBringupComplete
  extract_lets +onlyGivenNames w1 w2
  refine .whenUp ?_
  split
  · refine .ite (fun _ => .refl _ _) (fun _ => ?_)
    extract_lets +onlyGivenNames boot s1
    have h1 : Keeps [.signals, .wafer, .regions, .parts, .imgs, .snds, .pins, .exps, .arbLast, .spa, .spb, .flt, .tiles, .mem] allParts s s1 :=
      .step (updImg_keeps _ _ _) (by decide) (.refl _ _)
    clear_value s1
    refine .ite (fun _ => ?_) (fun _ => ?_)
    · exact .step (advanceLoad_keeps _ _) (by decide) (.step (updCam_keeps _ _ _) (by decide) h1)
    · exact .step (failBringup_keeps _ _ _ _) (by decide) h1
  · exact .refl _ _

theorem execCxpBringupFailed_ends (c : ImgId) (cause : BringupCause) (s : State) : Ends [.signals, .wafer, .regions, .parts, .imgs, .snds, .pins, .exps, .arbLast, .spa, .spb, .flt, .tiles, .mem] allParts s (execCxpBringupFailed c cause s) := by
  unfold execCxpBringupFailed
  extract_lets +onlyGivenNames w1 w2
  refine .whenUp ?_
  split
  · refine .ite (fun _ => ?_) (fun _ => ?_)
    · exact .step (failBringup_keeps _ _ _ _) (by decide) (.refl _ _)
    · exact .refl _ _
  · exact .refl _ _

theorem execCxpImageHeader_ends (c : ImgId) (format width : Nat) (bayer : Option (Fin 4)) (s : State) : Ends [.signals, .wafer, .regions, .parts, .imgs, .snds, .pins, .exps, .arbLast, .spa, .spb, .flt, .tiles, .mem] allParts s (execCxpImageHeader c format width bayer s) := by
  unfold execCxpImageHeader
  extract_lets +onlyGivenNames w1 w2
  refine .whenUp ?_
  split
  · exact .refl _ _
  · extract_lets +onlyGivenNames w3
    split
    · exact .refl _ _
    · extract_lets +onlyGivenNames w4 w5 v6
      have hv6 : Keeps [.signals, .wafer, .regions, .parts, .imgs, .snds, .pins, .exps, .arbLast, .spa, .spb, .flt, .tiles, .mem] allParts s v6 :=
        .step (updCam_keeps _ _ _) (by decide) (.refl _ _)
      clear_value v6
      refine .ite (fun _ => ?_) (fun _ => ?_)
      · refine .ite (fun _ => ?_) (fun _ => ?_)
        · exact hv6
        · exact .step (failBringup_keeps _ _ _ _) (by decide) hv6
      · refine .ite (fun _ => ?_) (fun _ => ?_)
        · exact .step (updCam_keeps _ _ _) (by decide) hv6
        · refine .ite (fun _ => ?_) (fun _ => ?_)
          · exact hv6
          · exact .step (logPlain_keeps _ _ _) (by decide) (.step (updCam_keeps _ _ _) (by decide) hv6)

theorem execImgEvent_ends (c : ImgId) (id : Nat) (data : List Byte) (s : State) : Ends [.imgs, .flt] [] s (execImgEvent c id data s) := by
  unfold execImgEvent
  extract_lets +onlyGivenNames w1 w2 w3 w4
  refine .whenUp ?_
  refine .ite (fun _ => ?_) (fun _ => ?_)
  · exact .refl _ _
  · extract_lets +onlyGivenNames v5
    have hv5 : Keeps [.imgs, .flt] [] s v5 :=
      .step (updImg_keeps _ _ _) (by decide) (.refl _ _)
    clear_value v5
    refine .ite (fun _ => ?_) (fun _ => ?_)
    · exact .step (logEvent_keeps _ _ _ _ _ _) (by decide) hv5
    · exact .step (updImg_keeps _ _ _) (by decide) hv5

theorem execLinkDown_ends (c : ImgId) (s : State) : Ends [.imgs, .flt] [] s (execLinkDown c s) := by
  unfold execLinkDown
  refine .whenUp ?_
  exact .step (camDown_keeps _ _) (by decide) (.refl _ _)

theorem execReconnectionAttempt_ends (c : ImgId) (reads : Option (List (List Word))) (s : State) : Ends [.imgs] [] s (execReconnectionAttempt c reads s) := by
  unfold execReconnectionAttempt
  extract_lets +onlyGivenNames w1 w2
  refine .whenUp ?_
  split
  · split
    · exact .refl _ _
    refine .ite (fun _ => ?_) (fun _ => .refl _ _)
    extract_lets boot
    exact .step (updCam_keeps _ _ _) (by decide) (.step (updImg_keeps _ _ _) (by decide) (.refl _ _))
  · exact .refl _ _

theorem execDcPresent_ends (c : ImgId) (on_ : Bool) (s : State) : Ends [.imgs, .flt] [] s (execDcPresent c on_ s) := by
  unfold execDcPresent
  refine .whenUp ?_
  refine .ite (fun _ => ?_) (fun _ => ?_)
  · exact .refl _ _
  · extract_lets +onlyGivenNames v1
    have hv1 : Keeps [.imgs, .flt] [] s v1 :=
      .step (updImg_keeps _ _ _) (by decide) (.refl _ _)
    clear_value v1
    refine .ite (fun _ => ?_) (fun _ => ?_)
    · exact .step (camDown_keeps _ _) (by decide) (.step (logPlain_keeps _ _ _) (by decide) hv1)
    · exact hv1

theorem execHeartbeat_ends (c : ImgId) (s : State) : Ends [.imgs] [] s (execHeartbeat c s) := by
  unfold execHeartbeat
  refine .whenUp ?_
  refine .ite (fun _ => ?_) (fun _ => ?_)
  · exact .refl _ _
  · exact .step (updImg_keeps _ _ _) (by decide) (.refl _ _)

theorem execUnsupportedPacket_ends (c : ImgId) (s : State) : Ends [.imgs] [] s (execUnsupportedPacket c s) := by
  unfold execUnsupportedPacket
  refine .whenUp ?_
  refine .ite (fun _ => ?_) (fun _ => ?_)
  · exact .refl _ _
  · exact .step (updImg_keeps _ _ _) (by decide) (.refl _ _)

/-! ### Encoder.lean -/

theorem execEncoderCount_ends (e : EncId) (m : EncMove) (s : State) : Ends [.regions, .parts, .imgs, .encs, .exps, .arbLast, .spa, .spb, .tiles, .mem] allParts s (execEncoderCount e m s) := by
  unfold execEncoderCount
  extract_lets +onlyGivenNames w1
  refine .whenUp ?_
  refine .ite (fun _ => ?_) (fun _ => ?_)
  · exact .step (updEnc_keeps _ _ _) (by decide) (.refl _ _)
  · extract_lets +onlyGivenNames w2 v3
    have hv3 : Keeps [.regions, .parts, .imgs, .encs, .exps, .arbLast, .spa, .spb, .tiles, .mem] allParts s v3 :=
      .step (updEnc_keeps _ _ _) (by decide) (.refl _ _)
    clear_value v3
    split
    · exact .step (linePulse_keeps _ _ _) (by decide) hv3
    · exact hv3

theorem execEncoderZEdge_ends (e : EncId) (s : State) : Ends [.encs] [] s (execEncoderZEdge e s) := by
  unfold execEncoderZEdge
  refine .whenUp ?_
  exact .step (updEnc_keeps _ _ _) (by decide) (.refl _ _)

theorem execEncoderOpen_ends (e : EncId) (sig : EncSignal) (isOpen : Bool) (s : State) : Ends [.signals, .encs, .flt] [] s (execEncoderOpen e sig isOpen s) := by
  unfold execEncoderOpen
  extract_lets +onlyGivenNames w1
  refine .whenUp ?_
  refine .ite (fun _ => ?_) (fun _ => ?_)
  · exact .refl _ _
  · extract_lets +onlyGivenNames v2
    have hv2 : Keeps [.signals, .encs, .flt] [] s v2 :=
      .step (updEnc_keeps _ _ _) (by decide) (.refl _ _)
    clear_value v2
    refine .ite (fun _ => ?_) (fun _ => ?_)
    · exact .step (logIrq_keeps _ _ _ _ _ _ _) (by decide) hv2
    · exact .step (irq_keeps _ _) (by decide) hv2

theorem execEncConfigWrite_ends (e : EncId) (r : EncReg) (v : Word) (s : State) : Ends [.signals, .encs] [] s (execEncConfigWrite e r v s) := by
  unfold execEncConfigWrite
  refine .whenUp ?_
  refine .ite (fun _ => ?_) (fun _ => ?_)
  · exact .refl _ _
  · refine .ite (fun _ => ?_) (fun _ => ?_)
    · refine .ite (fun _ => ?_) (fun _ => ?_)
      · exact .refl _ _
      · exact .step (irq_keeps _ _) (by decide) (.step (updEnc_keeps _ _ _) (by decide) (.refl _ _))
    · exact .step (updEnc_keeps _ _ _) (by decide) (.refl _ _)

/-! ### Sound.lean -/

theorem execSoundFrame_ends (c : SndId) (slots : List Int) (sync : FrameSync) (milliHz : Nat) (s : State) : Ends [.parts, .snds, .exps, .arbLast, .flt, .freeCount] allParts s (execSoundFrame c slots sync milliHz s) := by
  unfold execSoundFrame
  extract_lets +onlyGivenNames w1
  refine .whenUp ?_
  split
  · exact .refl _ _
  · refine .ite (fun _ => ?_) (fun _ => ?_)
    · exact .refl _ _
    · refine .ite (fun _ => ?_) (fun _ => ?_)
      · exact .step (goodFrame_keeps _ _ _ _ _ _ _) (by decide) (.refl _ _)
      · refine .ite (fun _ => ?_) (fun _ => ?_)
        · exact .step (logPlain_keeps _ _ _) (by decide) (.step (updSnd_keeps _ _ _) (by decide) (.refl _ _))
        · exact .step (goodFrame_keeps _ _ _ _ _ _ _) (by decide) (.refl _ _)

theorem execClockLost_ends (c : SndId) (s : State) : Ends [.snds, .flt] [] s (execClockLost c s) := by
  unfold execClockLost
  extract_lets +onlyGivenNames w1
  refine .whenUp ?_
  split
  · exact .refl _ _
  · refine .ite (fun _ => ?_) (fun _ => ?_)
    · exact .refl _ _
    · exact .step (logPlain_keeps _ _ _) (by decide) (.step (updSnd_keeps _ _ _) (by decide) (.refl _ _))

theorem execClockReturn_ends (c : SndId) (s : State) : Ends [.snds] [] s (execClockReturn c s) := by
  unfold execClockReturn
  extract_lets +onlyGivenNames w1
  refine .whenUp ?_
  split
  · exact .refl _ _
  · refine .ite (fun _ => ?_) (fun _ => ?_)
    · exact .step (updSnd_keeps _ _ _) (by decide) (.refl _ _)
    · exact .refl _ _

theorem execClockMismatch_ends (c : SndId) (mismatch : Bool) (s : State) : Ends [.snds, .flt] [] s (execClockMismatch c mismatch s) := by
  unfold execClockMismatch
  extract_lets +onlyGivenNames w1
  refine .whenUp ?_
  refine .ite (fun _ => ?_) (fun _ => ?_)
  · exact .refl _ _
  · extract_lets +onlyGivenNames v2
    have hv2 : Keeps [.snds, .flt] [] s v2 :=
      .step (updSnd_keeps _ _ _) (by decide) (.refl _ _)
    clear_value v2
    refine .ite (fun _ => ?_) (fun _ => ?_)
    · exact .step (logPlain_keeps _ _ _) (by decide) hv2
    · exact hv2

theorem execAsrcLock_ends (c : SndId) (s : State) : Ends [.snds] [] s (execAsrcLock c s) := by
  unfold execAsrcLock
  extract_lets +onlyGivenNames w1
  refine .whenUp ?_
  refine .ite (fun _ => ?_) (fun _ => ?_)
  · exact .step (updSnd_keeps _ _ _) (by decide) (.refl _ _)
  · exact .refl _ _

theorem execSoundStartT0_ends (p : PartId) (s : State) : Ends [.snds] [] s (execSoundStartT0 p s) := by
  unfold execSoundStartT0
  extract_lets +onlyGivenNames w1 w2
  refine .whenUp ?_
  exact .step (updSnds_keeps _ _) (by decide) (.refl _ _)

theorem execSoundStop_ends (c : SndId) (s : State) : Ends [.snds] [] s (execSoundStop c s) := by
  unfold execSoundStop
  refine .whenUp ?_
  exact .step (updSnd_keeps _ _ _) (by decide) (.refl _ _)

theorem execSoundBlockDelivered_ends (c : SndId) (s : State) : Ends [.regions, .parts, .snds, .exps, .arbLast, .spa, .spb, .tiles, .mem] allParts s (execSoundBlockDelivered c s) := by
  unfold execSoundBlockDelivered
  refine .whenUp ?_
  split
  · extract_lets +onlyGivenNames w1
    split
    · refine .ite (fun _ => ?_) (fun _ => ?_)
      · exact .step (deliverBlock_keeps _ _ _ _) (by decide) (.refl _ _)
      · exact .refl _ _
    · exact .refl _ _
  · exact .refl _ _

theorem execOutputPlayCheck_ends (c : SndId) (s : State) : Ends [.snds, .freeCount] [] s (execOutputPlayCheck c s) := by
  unfold execOutputPlayCheck
  refine .whenUp ?_
  split
  · extract_lets +onlyGivenNames w1 w2 w3 w4
    refine .ite (fun _ => ?_) (fun _ => ?_)
    · exact .step (updSnd_keeps _ _ _) (by decide) (.refl _ _)
    · refine .ite (fun _ => ?_) (fun _ => ?_)
      · extract_lets +onlyGivenNames w5 w6
        extract_lets +onlyGivenNames u7
        have hu7 : Keeps [.snds, .freeCount] [] s u7 :=
          .step (updSnd_keeps _ _ _) (by decide) (.refl _ _)
        clear_value u7
        exact .lit (t := u7) hu7 .lit
      · exact .refl _ _
  · exact .refl _ _

/-! ### Span.lean -/

theorem execSpanLinkUp_ends (q : SpanPort) (s : State) : Ends [.spa, .spb] [] s (execSpanLinkUp q s) := by
  unfold execSpanLinkUp
  refine .whenUp ?_
  refine .ite (fun _ => ?_) (fun _ => ?_)
  · exact .refl _ _
  · exact .step (sendMsg_keeps _ _ _) (by decide) (.step (updSpn_keeps _ _ _) (by decide) (.refl _ _))

theorem execSpanLost_ends (q : SpanPort) (why : LinkLossReason) (s : State) : Ends [.glb, .signals, .sup, .nv, .wafer, .regions, .parts, .imgs, .snds, .pins, .exps, .arbLast, .spa, .spb, .flt, .tiles, .mem] allParts s (execSpanLost q why s) := by
  unfold execSpanLost
  refine .whenUp ?_
  exact .step (loseLink_keeps _ _ _) (by decide) (.refl _ _)

theorem execSpanDataFrame_ends (q : SpanPort) (frame : List Byte) (fecOk : Bool) (s : State) : Ends [.regions, .parts, .spa, .spb, .tiles, .mem] allParts s (execSpanDataFrame q frame fecOk s) := by
  unfold execSpanDataFrame
  refine .whenUp ?_
  refine .ite (fun _ => ?_) (fun _ => ?_)
  · exact .refl _ _
  · refine .ite (fun _ => ?_) (fun _ => ?_)
    · extract_lets +onlyGivenNames v1
      have hv1 : Keeps [.regions, .parts, .spa, .spb, .tiles, .mem] allParts s v1 :=
        .step (acceptFrame_keeps _ _ _) (by decide) (.refl _ _)
      clear_value v1
      split
      · exact .step (enterGateway_keeps _ _ _ _) (by decide) hv1
      · exact hv1
    · exact .step (discardFrame_keeps _ _ _ _) (by decide) (.refl _ _)

theorem execSpanIdleFrame_ends (q : SpanPort) (frame : List Byte) (s : State) : Ends [.spa, .spb] [] s (execSpanIdleFrame q frame s) := by
  unfold execSpanIdleFrame
  refine .whenUp ?_
  refine .ite (fun _ => ?_) (fun _ => ?_)
  · exact .refl _ _
  · refine .ite (fun _ => ?_) (fun _ => ?_)
    · exact .step (linkStep_keeps _ _ _) (by decide) (.refl _ _)
    · exact .step (updSpn_keeps _ _ _) (by decide) (.refl _ _)

theorem execSpanDescriptorFrame_ends (q : SpanPort) (frame : List Byte) (fecOk : Bool) (s : State) : Ends [.parts, .spa, .spb] allParts s (execSpanDescriptorFrame q frame fecOk s) := by
  unfold execSpanDescriptorFrame
  refine .whenUp ?_
  refine .ite (fun _ => ?_) (fun _ => ?_)
  · exact .refl _ _
  · refine .ite (fun _ => ?_) (fun _ => ?_)
    · extract_lets +onlyGivenNames v1
      have hv1 : Keeps [.parts, .spa, .spb] allParts s v1 :=
        .step (acceptFrame_keeps _ _ _) (by decide) (.refl _ _)
      clear_value v1
      split
      · exact .step (takeDescs_keeps _ _ _ _) (by decide) hv1
      · exact hv1
    · exact .step (discardFrame_keeps _ _ _ _) (by decide) (.refl _ _)

theorem execHello_ends (q : SpanPort) (serial : BitVec 64) (s : State) : Ends [.glb, .signals, .sup, .nv, .wafer, .regions, .parts, .imgs, .snds, .pins, .exps, .arbLast, .spa, .spb, .flt, .tiles, .mem] allParts s (execHello q serial s) := by
  unfold execHello
  refine .whenUp (.ite (fun _ => ?_) (fun _ => .refl _ _))
  have hv0 : Keeps [.glb, .signals, .sup, .nv, .wafer, .regions, .parts, .imgs, .snds, .pins, .exps, .arbLast, .spa, .spb, .flt, .tiles, .mem] allParts s (tookMsg s q) := .step (tookMsg_keeps _ _) (by decide) (.refl _ _)
  generalize tookMsg s q = v0 at hv0
  beta_reduce
  refine .ite (fun _ => ?_) (fun _ => ?_)
  · exact .step (loseLink_keeps _ _ _) (by decide) hv0
  · exact .step (updSpn_keeps _ _ _) (by decide) hv0

theorem execReady_ends (q : SpanPort) (position units : Nat) (dready : Bool) (spanId : BitVec 64) (s : State) : Ends [.signals, .parts, .exps, .arbLast, .spa, .spb] allParts s (execReady q position units dready spanId s) := by
  unfold execReady
  refine .whenUp (.ite (fun _ => ?_) (fun _ => .refl _ _))
  have hv0 : Keeps [.signals, .parts, .exps, .arbLast, .spa, .spb] allParts s (tookMsg s q) := .step (tookMsg_keeps _ _) (by decide) (.refl _ _)
  generalize tookMsg s q = v0 at hv0
  beta_reduce
  split
  · refine .ite (fun _ => ?_) (fun _ => ?_)
    · exact .step (setDready_keeps _ _ _) (by decide) hv0
    · exact hv0
  · exact hv0

theorem execGo_ends (q : SpanPort) (spanId : BitVec 64) (s : State) : Ends [.signals, .parts, .exps, .arbLast, .spa, .spb] allParts s (execGo q spanId s) := by
  unfold execGo
  refine .whenUp (.ite (fun _ => ?_) (fun _ => .refl _ _))
  have hv0 : Keeps [.signals, .parts, .exps, .arbLast, .spa, .spb] allParts s (tookMsg s q) := .step (tookMsg_keeps _ _) (by decide) (.refl _ _)
  generalize tookMsg s q = v0 at hv0
  beta_reduce
  split
  · refine .ite (fun _ => ?_) (fun _ => ?_)
    · exact .step (advanceLoad_keeps _ _) (by decide) (.step (updPart_keeps _ _ _) (by decide) (.step (updSpn_keeps _ _ _) (by decide) hv0))
    · exact hv0
  · exact hv0

theorem execAbort_ends (q : SpanPort) (cause : Nat) (spanId : BitVec 64) (s : State) : Ends [.signals, .wafer, .regions, .parts, .imgs, .snds, .pins, .exps, .arbLast, .spa, .spb, .flt, .tiles] allParts s (execAbort q cause spanId s) := by
  unfold execAbort
  refine .whenUp (.ite (fun _ => ?_) (fun _ => .refl _ _))
  have hv0 : Keeps [.signals, .wafer, .regions, .parts, .imgs, .snds, .pins, .exps, .arbLast, .spa, .spb, .flt, .tiles] allParts s (tookMsg s q) := .step (tookMsg_keeps _ _) (by decide) (.refl _ _)
  generalize tookMsg s q = v0 at hv0
  beta_reduce
  split
  · refine .ite (fun _ => ?_) (fun _ => ?_)
    · exact .step (faultEntry_keeps _ _ _ _ _) (by decide) (.step (sendAll_keeps _ _ _ _) (by decide) hv0)
    · exact hv0
  · exact hv0

theorem execLeave_ends (q : SpanPort) (spanId : BitVec 64) (s : State) : Ends [.signals, .parts, .exps, .arbLast, .spa, .spb] allParts s (execLeave q spanId s) := by
  unfold execLeave
  refine .whenUp (.ite (fun _ => ?_) (fun _ => .refl _ _))
  have hv0 : Keeps [.signals, .parts, .exps, .arbLast, .spa, .spb] allParts s (tookMsg s q) := .step (tookMsg_keeps _ _) (by decide) (.refl _ _)
  generalize tookMsg s q = v0 at hv0
  beta_reduce
  split
  · refine .ite (fun _ => ?_) (fun _ => ?_)
    · exact .step (beginDrain_keeps _ _ _) (by decide) (.step (sendAll_keeps _ _ _ _) (by decide) hv0)
    · exact hv0
  · exact hv0

theorem execTime_ends (q : SpanPort) (dLast : Int) (tTx : Nat) (s : State) : Ends [.spa, .spb] [] s (execTime q dLast tTx s) := by
  unfold execTime
  refine .whenUp (.ite (fun _ => ?_) (fun _ => .refl _ _))
  have hv0 : Keeps [.spa, .spb] [] s (tookMsg s q) := .step (tookMsg_keeps _ _) (by decide) (.refl _ _)
  generalize tookMsg s q = v0 at hv0
  beta_reduce
  exact .step (updSpn_keeps _ _ _) (by decide) hv0

theorem execSpanHelloPeriod_ends (q : SpanPort) (s : State) : Ends [.spa, .spb] [] s (execSpanHelloPeriod q s) := by
  unfold execSpanHelloPeriod
  refine .whenUp ?_
  refine .ite (fun _ => ?_) (fun _ => ?_)
  · exact .step (sendMsg_keeps _ _ _) (by decide) (.refl _ _)
  · exact .refl _ _

theorem execSpanTimePeriod_ends (q : SpanPort) (s : State) : Ends [.spa, .spb] [] s (execSpanTimePeriod q s) := by
  unfold execSpanTimePeriod
  refine .whenUp ?_
  refine .ite (fun _ => ?_) (fun _ => ?_)
  · exact .step (sendMsg_keeps _ _ _) (by decide) (.refl _ _)
  · exact .refl _ _

theorem execSpanReadyPeriod_ends (p : PartId) (s : State) : Ends [.spa, .spb] [] s (execSpanReadyPeriod p s) := by
  unfold execSpanReadyPeriod
  extract_lets +onlyGivenNames w1
  refine .whenUp ?_
  split
  · exact .step (sendAll_keeps _ _ _ _) (by decide) (.refl _ _)
  · exact .refl _ _

/-! ### Census.lean -/

theorem execCensusRequest_ends (p : PartId) (v : Word) (s : State) : Ends [.parts] [p] s (execCensusRequest p v s) := by
  unfold execCensusRequest
  refine .whenUp ?_
  refine .ite (fun _ => ?_) (fun _ => ?_)
  · exact .refl _ _
  · refine .ite (fun _ => ?_) (fun _ => ?_)
    · exact .step (updCensus_keeps _ _ _) (by decide) (.refl _ _)
    · exact .step (updCensus_keeps _ _ _) (by decide) (.refl _ _)

theorem execCensusPeriodWrite_ends (p : PartId) (v : Word) (s : State) : Ends [.parts] [p] s (execCensusPeriodWrite p v s) := by
  unfold execCensusPeriodWrite
  refine .whenUp ?_
  refine .ite (fun _ => ?_) (fun _ => ?_)
  · exact .refl _ _
  · exact .step (updCensus_keeps _ _ _) (by decide) (.refl _ _)

theorem execCensusTick_ends (p : PartId) (s : State) : Ends [.parts, .tiles] [p] s (execCensusTick p s) := by
  unfold execCensusTick
  extract_lets +onlyGivenNames w1
  refine .whenUp (.ite (fun _ => .refl _ _) (fun _ => ?_))
  split
  · exact .refl _ _
  · refine .ite (fun _ => ?_) (fun _ => ?_)
    · exact .step (updCensus_keeps _ _ _) (by decide) (.step (takeTick_keeps _ _ _) (by decide) (.refl _ _))
    · exact .step (updCensus_keeps _ _ _) (by decide) (.refl _ _)
  · refine .ite (fun _ => ?_) (fun _ => ?_)
    · exact .refl _ _
    · exact .step (takeTick_keeps _ _ _) (by decide) (.refl _ _)
  · refine .ite (fun _ => ?_) (fun _ => ?_)
    · exact .step (updCensus_keeps _ _ _) (by decide) (.refl _ _)
    · refine .ite (fun _ => ?_) (fun _ => ?_)
      · exact .step (updCensus_keeps _ _ _) (by decide) (.refl _ _)
      · refine .ite (fun _ => ?_) (fun _ => ?_)
        · exact .step (updCensus_keeps _ _ _) (by decide) (.step (takeTick_keeps _ _ _) (by decide) (.refl _ _))
        · exact .step (takeTick_keeps _ _ _) (by decide) (.refl _ _)

theorem execCensusCollected_ends (p : PartId) (s : State) : Ends [.parts, .exps, .arbLast] [p] s (execCensusCollected p s) := by
  unfold execCensusCollected
  extract_lets +onlyGivenNames w1
  refine .whenUp ?_
  split
  · exact .refl _ _
  · refine .ite (fun _ => ?_) (fun _ => ?_)
    · exact .refl _ _
    · extract_lets +onlyGivenNames w2 v3
      have hv3 : Keeps [.parts, .exps, .arbLast] [p] s v3 := by
        unfold v3
        refine .foldl _ (fun v4 a5 hv4 => ?_) _ _ ?_
        · exact .step (enterRec_keeps _ _ _) (by decide) hv4
        · exact .refl _ _
      clear_value v3
      exact .step (updCensus_keeps _ _ _) (by decide) hv3

/-! ### HostReg.lean -/

theorem readWord_keeps (s : State) (addr : Nat) : Keeps [.glb] [] s (readWord s addr) := by
  unfold readWord
  extract_lets +onlyGivenNames w1 w2
  exact .litInv (t := s) (.refl _ _) .lit (fun h => ⟨h.store, h.supplies, h.log, h.vectors, h.lanes⟩)

theorem execLoRegisterRead_ends (a : RegAccess) (s : State) : Ends [.glb] [] s (execLoRegisterRead a s) := by
  unfold execLoRegisterRead
  refine .whenUp (.ite (fun _ => .refl _ _) (fun _ => .ite (fun _ => readWord_keeps _ _) (fun _ => ?_)))
  extract_lets s1
  have h1 : Keeps [.glb] [] s s1 := readWord_keeps _ _
  clear_value s1
  exact .litInv (t := s1) h1 .lit (fun h => ⟨h.store, h.supplies, h.log, h.vectors, h.lanes⟩)

theorem execRegisterWrite_ends (a : RegAccess) (v : Word) (s : State) : Ends [.glb, .signals, .sup, .tbs, .pwr, .parts, .encs, .allocHeld, .exps, .arbLast, .spa, .spb, .defPage, .cenSel] allParts s (execRegisterWrite a v s) := by
  unfold execRegisterWrite
  refine .whenUp ?_
  refine .ite (fun _ => ?_) (fun _ => ?_)
  · exact .step (writeReg_keeps _ _ _) (by decide) (.refl _ _)
  · exact .refl _ _

end Sys2Proof.Machine
end

