-- ==== Sys2Proof/Laws/Lifecycle.lean ====
section
/-! SUPPORT. What a partition holds after a change of its state or cause, a fault entry and the start of a drain. -/

namespace Sys2Proof.Machine

/-- A partition after a change of state. -/
theorem setPState_part (s : State) (p : PartId) (st : PState) :
    (setPState s p st).parts[p] = if s.parts[p].state = st then s.parts[p]
      else { s.parts[p] with state := st, regs := { s.parts[p].regs with stateChg := true } } := by
  unfold setPState
  split <;> simp

@[simp] theorem setPState_state (s : State) (p : PartId) (st : PState) : (setPState s p st).parts[p].state = st := by
  rw [setPState_part]
  split <;> simp_all

@[simp] theorem setPState_cause (s : State) (p : PartId) (st : PState) :
    (setPState s p st).parts[p].regs.cause = s.parts[p].regs.cause := by
  rw [setPState_part]
  split <;> simp

/-- A change of state changes nothing else of the partition but STATE_CHG. -/
theorem setPState_rest (s : State) (p : PartId) (st : PState) : (setPState s p st).parts[p].active = s.parts[p].active ∧
    (setPState s p st).parts[p].load = s.parts[p].load ∧ (setPState s p st).parts[p].flow = s.parts[p].flow ∧
    (setPState s p st).parts[p].placement = s.parts[p].placement ∧ (setPState s p st).parts[p].queued = s.parts[p].queued ∧
    (setPState s p st).parts[p].tun = s.parts[p].tun ∧ (setPState s p st).parts[p].fabric = s.parts[p].fabric ∧
    (setPState s p st).parts[p].census = s.parts[p].census := by
  rw [setPState_part]
  split <;> simp

/-- A partition after its cause is set. -/
theorem setCause_part (s : State) (p : PartId) (c : Nat) :
    (setCause s p c).parts[p] = { s.parts[p] with regs := { s.parts[p].regs with
      cause := c, causeSet := s.parts[p].regs.causeSet || (c ≠ 0 && c ≠ s.parts[p].regs.cause) } } := by
  unfold setCause updPartRegs
  extract_lets s1
  have h : s1.parts[p] = { s.parts[p] with regs := { s.parts[p].regs with
      cause := c, causeSet := s.parts[p].regs.causeSet || (c ≠ 0 && c ≠ s.parts[p].regs.cause) } } := by
    simp [s1]
  split <;> exact h

/-- A partition that enters a fault state runs nothing, loads nothing and has no window left (R448-R451). -/
theorem faultEntry_stands (s : State) (p : PartId) (st : PState) (code d0 : Nat) (h : isFault s.parts[p].state = false) :
    standsInFault (faultEntry s p st code d0) p st code := by
  unfold faultEntry
  rw [if_neg (fun hh => Bool.noConfusion (h.symm.trans hh))]
  extract_lets serving census rec0 s1 s2 s3 s4 s5 s6 s7 s8 s9 s10 s11
  have h9 : s9.parts[p].active = none ∧ s9.parts[p].load = none ∧ s9.parts[p].flow.inputOpen = false ∧ s9.parts[p].flow.windows = [] ∧
      s9.parts[p].flow.tokens = [] ∧ s9.parts[p].flow.drain = none := by
    simp [s9, stopFlow]
  have h10 : s10.parts = s9.parts :=
    (mapRegions_keeps (closeAllGates s9 (heldRegions s9 p)) (heldRegions s9 p) (fun g => setVdd 720 { g with intervals := [] })).touch.parts_eq.trans
      (closeAllGates_keeps s9 _).touch.parts_eq
  have h11 : s11.parts = s10.parts :=
    (Touch.foldl (m := [.spa, .spb]) (s0 := s10) _ (fun t a k => k.step (updSpn_keeps t a _).touch (by decide)) _ _
      (Touch.refl _ _)).parts_eq
  have hp : s11.parts[p] = s9.parts[p] := congrArg (fun v : Vector Partition 8 => v[p]) (h11.trans h10)
  obtain ⟨r1, r2, r3, -⟩ := setPState_rest s11 p st
  obtain ⟨a1, a2, a3, a4, a5, a6⟩ := h9
  unfold standsInFault
  rw [setCause_part]
  simp only [setPState_state, r1, r2, r3, hp]
  exact ⟨trivial, rfl, a1, a2, a3, a4, a5, a6⟩

/-- A partition whose drain begins. -/
theorem beginDrain_drains (s : State) (p : PartId) (why : DrainWhy) : drains (beginDrain s p why) p why := by
  have key : ∀ u : State, u.parts = (setPState (updFlow (if s.parts[p].state = .running then endGap s p else s) p
      (fun f => { f with inputOpen := false, drain := some why, drained := false })) p .draining).parts → drains u p why := by
    intro u hu
    unfold drains
    rw [hu]
    obtain ⟨-, -, r3, -⟩ := setPState_rest (updFlow (if s.parts[p].state = .running then endGap s p else s) p
      (fun f => { f with inputOpen := false, drain := some why, drained := false })) p .draining
    rw [r3]
    exact ⟨setPState_state _ _ _, by simp [updFlow], by simp [updFlow]⟩
  unfold beginDrain
  extract_lets s0 s1 s2
  split
  · split
    · exact key _ rfl
    · exact key _ (sendAll_keeps _ _ _ _).touch.parts_eq
  · exact key _ rfl

end Sys2Proof.Machine
end

