-- ==== Sys2Proof/Laws/Placement.lean ====
section
/-! SUPPORT. The placement search reads only which regions are free and how they adjoin. -/

namespace Sys2Proof.Machine

theorem searchFrom_congr {s t : State} {own : Option PartId} (hf : ∀ r, regionFree s own r = regionFree t own r)
    (ha : ∀ r d, adjacentTo s r d = adjacentTo t r d) (axes : List (Nat × Nat)) :
    ∀ (n : Nat) (path : List RegionId) (budget : Nat), searchFrom s own axes n path budget = searchFrom t own axes n path budget := by
  intro n
  induction n with
  | zero => intro path budget; rfl
  | succ n ih =>
    intro path budget
    unfold searchFrom
    split
    · rfl
    · simp only [ha, hf, ih]

theorem searchPlacement_congr {s t : State} {own : Option PartId} (hf : ∀ r, regionFree s own r = regionFree t own r)
    (ha : ∀ r d, adjacentTo s r d = adjacentTo t r d) (axes : List (Nat × Nat)) (n : Nat) :
    searchPlacement s own axes n = searchPlacement t own axes n := by
  unfold searchPlacement
  simp only [hf, searchFrom_congr hf ha]

end Sys2Proof.Machine
end

