-- ==== Sys2Proof/WellFormed.lean ====
section
/-! DEFINITION. Which commands are well formed: operands name things that the engine has and lie in the widths the spec
gives. `exec` does not rely on it, except for the tile commands, which fault on a tile that does not exist (log entry 9). -/

namespace Sys2Proof

/-- The tile lies in columns 0-599 and rows 0-479 ("Names and addresses", file 00). -/
def TileAt.wf (t : TileAt) : Bool := t.x < 600 && t.y < 480

/-- A physical tile of a site: 64 columns by 64 rows (R28). -/
def physTileWf (p : Nat × Nat) : Bool := p.1 < 64 && p.2 < 64

/-- Findings of one site name its physical tiles, rows and columns. -/
def SiteFindings.wf (f : SiteFindings) : Bool :=
  f.silent.all physTileWf && f.fails.all (fun x => physTileWf x.1) && f.direct.all physTileWf &&
  f.badBypassRows.all (· < 64) && f.badBypassCols.all (· < 64)

/-- An edge is named by the site north or west of it (R43). -/
def EdgeFindings.wf (f : EdgeFindings) : Bool := f.d = .e || f.d = .s

def WaferFindings.wf (f : WaferFindings) : Bool := f.sites.all (fun x => x.2.wf) && f.edges.all EdgeFindings.wf

/-- An access of 1, 2 or 4 bytes in the 1 MiB window of BAR0 (R470). -/
def accessWf (a bytes : Nat) : Bool := a < 0x100000 && (bytes = 1 || bytes = 2 || bytes = 4)

/-- The commands whose operands name what exists. -/
def Instr.wf : Instr → Bool
  | .unitPowerUp e => e.findings.wf && decide (e.bays.map (·.bay)).Nodup
  | .tileStep t _ => t.wf
  | .flitReceived t _ _ _ => t.wf
  | .creditFlitReceived t _ _ => t.wf
  | .backgroundScrub t _ => t.wf
  | .loadRecord _ _ c => c.all (fun x => x.1.wf && x.2 < 2048)
  | .detectionWindowExpiry _ cycle => cycle < 4096
  | .inFieldRetestDone _ f _ => f.wf
  | .chunkDecrypted _ cipher tag => cipher.length ≤ 65536 && tag.length = 16
  | .bayPowerGood _ o => o.nonce.length = 32
  | .cxpLineReceived _ pixels _ _ => pixels.all (· < 65536)
  | .cxpImageHeader _ format width _ => format < 65536 && width < 65536
  | .imgEvent _ id _ => id < 65536
  | .soundFrame _ slots _ _ => slots.length ≤ 32
  | .ready _ position units _ _ => position < 256 && units < 256
  | .abort _ cause _ => cause < 256
  | .hostLinkUp gen width => gen < 16 && width < 16
  | .loRegisterRead a => accessWf a.addr a.bytes
  | .registerWrite a _ => accessWf a.addr a.bytes
  | .healthCheck _ _ | .watchdog | .meshLock | .referenceLost | .referenceBack _ | .tbsSrcWrite _
  | .contextSwitch _ _ | .stallDetectorTick _ | .stallSample | .progressWatchdog _ | .verdictRelease _
  | .pinPulseEnd _ | .presenceDebounceEnd _ | .perstRelease _ _ _ | .nvmeReady _ _
  | .loadHandover _ _ | .nvmeCommandCompletion _ _ | .nvmeCommandTimeout _ | .removed _ | .overcurrent _
  | .poweredHour _ | .smartReadPeriod _ _ _ | .periodicLifeRecord _ | .reload _ _ | .unload _
  | .queuedRequestStart _ _ | .autoReload _ _ | .placementRetry _ | .loadLaneGranted _ | .preLoadScrubDone _ _
  | .endOfStreamChecks _ _ | .lupinStageAck _ _ | .releaseFailed _ | .drainComplete _
  | .unloadScrubDone _ _ | .postCommitScrubDone _ | .spanTimeout _ | .apply _ _ | .prtTunWrite _ _ _
  | .rgnTest _ _ | .rateLoopTick _ | .currentCeilingTick _ | .throttleTick _ | .heatShed _ _
  | .heatShedRecheck _ _ | .policyWrite _ _ | .policyEpoch | .capLoopTick _ | .short _ | .supplySag _ _
  | .reservoirExhausted | .inputOutOfRange _ | .coolingMeasurement _ _ _ _ | .cxpBringupComplete _ _
  | .cxpBringupFailed _ _ | .encoderCount _ _ | .encoderZEdge _ | .encoderOpen _ _ _ | .encConfigWrite _ _ _
  | .linkDown _ | .reconnectionAttempt _ _ | .dcPresent _ _ | .clockLost _ | .clockReturn _ | .clockMismatch _ _
  | .asrcLock _ | .soundStartT0 _ | .soundBlockDelivered _ | .outputPlayCheck _ | .soundStop _ | .pageFlush _
  | .verdictCreditRefill | .pageDelivered _ | .irqHoldoffEnd _ | .expCtrlWrite _ _ | .expHeadWrite _ _
  | .hostLinkDown | .evidenceCropReceived _ _ | .evidenceMatchTimeout _ | .vrdAllocWrite _ _ | .spanLinkUp _
  | .spanDataFrame _ _ _ | .spanIdleFrame _ _ | .spanDescriptorFrame _ _ _ | .hello _ _ | .go _ _ | .leave _ _
  | .time _ _ _ | .spanHelloPeriod _ | .spanReadyPeriod _ | .spanTimePeriod _ | .spanLost _ _
  | .censusRequest _ _ | .censusPeriodWrite _ _ | .censusTick _ | .censusCollected _ | .fltSelWrite _
  | .fwOpen | .fwWrite | .fwClose | .fwActivate _ | .presenceAsserted _ | .fwCommandDone _ _
  | .reservoirCharged _ | .heartbeat _ | .unsupportedPacket _ => true

end Sys2Proof
end

