-- ==== Sys2Proof/Tests/Slice0.lean ====
section
/-! SUPPORT. Tests: ill-formed commands, one witness of each statement's hypotheses, worked examples of the spec. -/

namespace Sys2Proof.Tests

open Sys2Proof Sys2Proof.Machine

-- One proof at a time: each evaluation by the kernel waits for every proof before it.
set_option Elab.async false

/-! ### Small states -/

/-- A unit that has come up, with everything else at its reset value. -/
def up : State := { State.reset with glb := { State.reset.glb with phase := .up } }

/-- `up` with one component changed. -/
def onPart (f : Partition → Partition) : State := updPart up 0 f
def onBay (f : Bay → Bay) : State := updBay up 0 f
def onRegion (f : Region → Region) : State := updRegion up 0 f
def onImg (f : ImgConn → ImgConn) : State := updImg up 0 f
def onSnd (f : Snd → Snd) : State := updSnd up 0 f
def onPin (f : Pin → Pin) : State := updPin up 0 f
def onExp (f : Exp → Exp) : State := updExp up 0 f
def onSpa (f : Spn → Spn) : State := updSpn up .spa f
def onSup (f : Sup → Sup) : State := { up with sup := f up.sup }
def onTbs (f : Tbs → Tbs) : State := { up with tbs := f up.tbs }
def onPwr (f : Pwr → Pwr) : State := { up with pwr := f up.pwr }

/-- A state at a time of the timebase. -/
def atTime (n : Nat) (s : State) : State := { s with tbs := { s.tbs with time := BitVec.ofNat 64 n } }

/-- An image of one record. -/
def imageOf (b : Body) : Image := { recs := [⟨0, 255, 0, 0, 0, b⟩] }

/-- Partition P0 runs an image. -/
def runs (i : Image) : State := onPart (fun x => { x with state := .running, active := some i })

/-- A command that the kernel can carry out answers a next state with the property it computes. -/
theorem next_with (o : Host.Outcome State Fault Refusal) (P : State → Prop) [DecidablePred P]
    (h : (match o with | .next t => decide (P t) | _ => false) = true) : ∃ t, o = .next t ∧ P t := by
  cases o with
  | next t => exact ⟨t, rfl, of_decide_eq_true h⟩
  | _ => cases h

/-! ### Witnesses: the step, the unit, the timebase, firmware -/

theorem witness_TimestampCountsTicksAndNeverJumps :
    up.pending = [] ∧ ({ up with pending := [.stallSample] } : State).pending ≠ [] ∧
      step { State.reset with pending := [.watchdog] } = .next State.reset := by
  refine ⟨rfl, by decide, rfl⟩

theorem witness_CommandsChangeOnlyTheirFields : exec .watchdog State.reset = .next State.reset := rfl

theorem witness_CommandsToOnePartitionReachNoOther :
    (∃ t, exec (.unload 0) up = .next t) ∧ (1 : PartId) ∉ mayReach (.unload 0) := ⟨⟨_, rfl⟩, by decide⟩

theorem witness_StepKeepsInvariant : Inv up ∧ ∃ t, step up = .next t := by
  refine ⟨⟨⟨by decide, by decide⟩, ?_, ⟨by decide, ?_⟩, ?_, ?_⟩, ⟨_, rfl⟩⟩
  · unfold suppliesOk regionOk; decide
  · intro i h; cases h
  · unfold vectorsOk; decide
  · unfold lanesOk; decide

theorem witness_CommandsWaitForPowerUp :
    State.reset.glb.phase ≠ .up ∧ (∀ e : PowerUp, Instr.meshLock ≠ .unitPowerUp e) ∧ Instr.meshLock ≠ .reservoirExhausted :=
  ⟨by decide, (by intro e h; cases h), by decide⟩

theorem witness_EventsReachTheirVectorAndTheLog :
    (1 : Fin 32) ≠ 0 ∧ entriesThisSecond { up with flt := { up.flt with entries := List.replicate 15 { code := 5 } } } 5 0 < 16 ∧
      16 ≤ entriesThisSecond { up with flt := { up.flt with entries := List.replicate 16 { code := 5 } } } 5 0 := by decide

/-- A log of two entries. -/
def twoEntries : State := { up with flt := { up.flt with entries := [{ seq := 1 }, { seq := 0 }], nextSeq := 2 } }

theorem witness_FaultLogViewLatchesOneEntry :
    twoEntries.glb.phase = .up ∧ logOk twoEntries.flt ∧ (∃ e ∈ twoEntries.flt.entries, e.seq % 2 ^ 32 = (0 : Word).toNat) ∧
      (∀ e ∈ twoEntries.flt.entries, e.seq % 2 ^ 32 ≠ (2 : Word).toNat) ∧ (∃ e es, twoEntries.flt.entries = e :: es) ∧
      exec .watchdog State.reset = .next State.reset := by
  refine ⟨by decide, ⟨by decide, ?_⟩, by decide, by decide, ⟨_, _, rfl⟩, rfl⟩
  intro i h
  match i, h with
  | 0, _ => rfl
  | 1, _ => rfl

theorem witness_TimebaseFollowsItsReference :
    up.glb.phase = .up ∧ (onTbs (fun t => { t with refPresent := true })).tbs.refPresent = true ∧
      (onTbs (fun t => { t with refPresent := true })).tbs.locked = false ∧ up.tbs.refPresent = false ∧
      (-100000 : Int) ≤ -100000 ∧ (100000 : Int) ≤ 100000 ∧ (100000 : Int) < 100001 ∧
      (2 : Word).toNat < 3 ∧ (2 : Word).toNat ≠ up.tbs.src.val ∧ 3 ≤ (3 : Word).toNat ∧ (0 : Word).toNat = up.tbs.src.val := by decide

/-- A power-up that finds nothing wrong and no cartridge. -/
def quietPowerUp : PowerUp :=
  { fwOk := true, findings := ⟨[], [], [], [], [], []⟩, badMaps := [], badRecs := [], microEpoch := 0, microOdd := [], resC := 500, resEsr := 10, resPresent := true,
    linkGen := 4, linkWidth := 8, bays := [] }

theorem witness_PowerUpBringsTheUnitUp :
    State.reset.glb.phase ≠ .up ∧ slotToBoot State.reset = some false ∧ quietPowerUp.fwOk = true ∧ quietPowerUp.bays = [] ∧
      slotToBoot { State.reset with sup := { State.reset.sup with slotA := {} } } = none := by decide

/-- Slot A is in TRIAL and has booted. -/
def inTrial : State := onSup (fun x => { x with slotA := { x.slotA with state := .trial } })

theorem witness_TrialSlotsAreJudgedAndWatchdogSheds :
    inTrial.glb.phase = .up ∧ (fwSlot inTrial inTrial.sup.bootedB).state = .trial ∧ failedCheck inTrial true true = none ∧
      failedCheck inTrial false true = some 1 := by decide

theorem witness_FirmwareIsUploadedThenActivated_a :
    up.glb.phase = .up ∧ (onSup (fun x => { x with busy := some .write })).sup.busy.isSome = true ∧ inTrial.sup.slotA.state = .trial ∧
      (onSup (fun x => { x with slotB := { state := .trial } })).sup.slotB.state = .trial ∧
      up.sup.busy = none ∧ up.sup.slotA.state ≠ .trial ∧ up.sup.slotB.state ≠ .trial ∧ up.sup.slotA.state = .active ∧
      (onSup (fun x => { x with slotA := {} })).sup.slotA.state ≠ .active ∧ up.sup.openUp = false := by decide

/-- An upload of one block, closed with the least and the greatest length. -/
def uploading (len block : Word) : State :=
  onSup (fun x => { x with openUp := true, blocks := [List.replicate 64 0], fwLen := len, fwBlock := block })

theorem witness_FirmwareIsUploadedThenActivated_b :
    (uploading 1 1).sup.openUp = true ∧ (uploading 1 1).sup.fwBlock.toNat = (uploading 1 1).sup.blocks.length ∧
      (uploading 1 1).sup.blocks.length ≠ 4096 ∧ (uploading 1 0).sup.fwBlock.toNat ≠ (uploading 1 0).sup.blocks.length ∧
      256 * (uploading 1 1).sup.blocks.length < (uploading 1 1).sup.fwLen.toNat + 256 ∧ (uploading 1 1).sup.fwLen ≠ 0 ∧
      (uploading 256 1).sup.fwLen.toNat ≤ 256 * (uploading 256 1).sup.blocks.length ∧
      (uploading 0 1).sup.fwLen.toNat + 256 ≤ 256 * (uploading 0 1).sup.blocks.length ∧
      256 * (uploading 257 1).sup.blocks.length < (uploading 257 1).sup.fwLen.toNat := by decide

theorem witness_FirmwareIsUploadedThenActivated_full : ∃ s : State, s.glb.phase = .up ∧ s.sup.blocks.length = 4096 := by
  obtain ⟨bs, h⟩ : ∃ bs : List (List Word), bs.length = 4096 := ⟨List.replicate 4096 [], List.length_replicate⟩
  exact ⟨onSup (fun x => { x with blocks := bs }), rfl, h⟩

theorem witness_FirmwareIsUploadedThenActivated_c :
    (onSup (fun x => { x with busy := some .close })).glb.phase = .up ∧ (onSup (fun x => { x with busy := some .close })).sup.busy = some .close ∧
      (onSup (fun x => { x with busy := some .close })).sup.slotA.state = .active ∧
      (onSup (fun x => { x with busy := some .write })).sup.busy = some .write ∧
      (∀ p : PartId, up.parts[p].active = none ∧ up.parts[p].state = .empty) ∧
      (fwSlot (onSup (fun x => { x with slotB := { state := .previous } })) true).state = .previous := by decide

/-! ### Witnesses: links, tiles, stalls -/

theorem witness_WireCodesRoundTrip :
    decodeWires (encodeWires 0xFFFFFFFFF) = some 0xFFFFFFFFF ∧ (∀ v : Fin 4, (0 : Wires).toNat / 16 ^ 17 % 16 ≠ 2 ^ v.val) ∧
      ∀ v : Fin 4, (3 : Wires).toNat / 16 ^ 0 % 16 ≠ 2 ^ v.val := by decide

/-- Microconfiguration of an addition of S8 elements; what is not listed is 0. -/
def addMicro : List Byte := [0x10, 0, 0, 1, 1]

/-- A tile with an operator, with two flits of elements on each of its local lanes. -/
def tileOf (micro : List Byte) : Tile :=
  { ctx := Vector.replicate 4 { use := .inUse, micro := micro, route := Vector.replicate 30 { enable := true, mask := 1, lane := 4 } }
    local6 := Vector.replicate 6 [mkFlit 0 false 5, mkFlit 0 false 5] }

/-- P0 runs an image on tile (0, 0) of region 0. -/
def tileOn (t : Tile) : State :=
  { updPart (updRegion up 0 (fun g => { g with owner := some 0, supplyOn := true })) 0 (fun x => { x with state := .running, active := some {} })
    with tiles := [(0, t)] }

def tileRuns : State := tileOn (tileOf addMicro)

theorem witness_TileStepsAccumulateOrWait_a :
    tileExists ⟨600, 0⟩ = false ∧ tileExists ⟨0, 480⟩ = false ∧ tileExists ⟨599, 479⟩ = true ∧ runsHere up 0 = none ∧
      tileRuns.glb.phase = .up ∧ storeOk tileRuns ∧ tileKey 0 0 = 0 ∧ runsHere tileRuns 0 = some 0 ∧
      tunedMicro (tileOn {}) 0 0 0 = [] ∧ byteAt [] 0 = 0 ∧
      isTStage (byteAt (tunedMicro (tileOn (tileOf [0x30])) 0 0 0) 0) = true ∧ isPool 0x30 = false ∧
      (getTile (tileOn { tileOf addMicro with sendQ := [0] }) 0).sendQ ≠ [] :=
  ⟨by decide, by decide, by decide, by decide, by decide, ⟨by decide, by decide⟩, by decide, by decide, by decide, by decide, by decide, by decide,
    by decide⟩

theorem witness_TileStepsAccumulateOrWait_b :
    tunedMicro tileRuns 0 0 (getTile tileRuns 0).winDone = addMicro ∧ byteAt addMicro 0 ≠ 0 ∧ isPool (byteAt addMicro 0) = false ∧
      isTStage (byteAt addMicro 0) = false ∧ (getTile tileRuns 0).sendQ = [] ∧ (getTile tileRuns 0).closing = false ∧
      stepScale addMicro (getTile tileRuns 0) = some (127, 0) ∧ byElement (byteAt addMicro 0) = false ∧ byteAt addMicro 0 ≠ 0x51 ∧
      integerMode addMicro = true := by decide

/-- A lane with two flits gives an element, whether or not its first is a segment's header. -/
theorem takeCoded_some (m : List Byte) (b mode : Nat) (l : Fin 4) (t : Tile) (e : Elem)
    (two : 2 ≤ (t.local6[Fin.ofNat 6 l.val]).length)
    (h : ∀ t1, t1 = t ∨ t1 = popFlit l t → (takeElem b mode l t1).map (·.1) = some e) : ∃ u, takeCoded m b mode l t = some (e, u) := by
  have h1 := h _ (ite_eq_or_eq ((Config.params m).segment ≠ 0 && t.taken[l] % (Config.params m).segment = 0 &&
    2 ≤ (t.local6[Fin.ofNat 6 l.val]).length) (popFlit l t) t).symm
  obtain ⟨r, hr, he⟩ := Option.map_eq_some_iff.1 h1
  simp only [takeCoded]
  rw [if_neg (by rw [decide_eq_false (Nat.not_lt.2 two), Bool.and_false]; decide), hr]
  exact ⟨_, by rw [Option.map_some, he]⟩

theorem takeCoded_none (m : List Byte) (b mode : Nat) (l : Fin 4) (t : Tile) (none : (t.local6[Fin.ofNat 6 l.val]).length = 0)
    (h : takeElem b mode l t = .none) : takeCoded m b mode l t = .none := by
  simp only [takeCoded, none]
  rw [show (if ((Config.params m).segment ≠ 0 && t.taken[l] % (Config.params m).segment = 0 && 2 ≤ 0) then popFlit l t else t) = t by simp, h]
  split <;> rfl

/-- Whatever the parameters that stand in bytes 36-255 (log entry 8): no end is reached, the first step takes an element, and weight
code 1 in U4 adds it in lane 0. -/
theorem witness_TileStepsAccumulateOrWait_c (q : Config.OpParams) :
    atEnd addMicro q (getTile tileRuns 0) = false ∧
      (∃ e t1 reads, fetchAll addMicro q tileRuns.mem 0 (getTile tileRuns 0) (sources addMicro q 0 0 0) = (.got e t1 reads, none) ∧
        e.code = 5 ∧ zeroSkip addMicro e = false) ∧
      fetchAll addMicro q [] 0 {} (sources addMicro q 0 0 0) = (.wait, none) ∧
      (∀ t, t.step = 0 → (stepCodes addMicro q [] 0 t).1 = 2 ∧ (stepCodes addMicro q [] 0 t).2.1 0 = some 1 ∧
        (stepCodes addMicro q [] 0 t).2.1 1 = none) ∧
      decodeWeight 2 1 = .sel ⟨1, false, 0⟩ ∧ (getTile tileRuns 0).acc[(0 : Fin 16)].sat = false ∧
      -2147483648 ≤ (0 : Word).toInt + intProduct (buildTable (splitAct (byteAt addMicro 3) 5).operand) ⟨1, false, 0⟩ ∧
      (0 : Word).toInt + intProduct (buildTable (splitAct (byteAt addMicro 3) 5).operand) ⟨1, false, 0⟩ ≤ 2147483647 := by
  have took : ∀ l : Fin 4, ∃ u, takeNext addMicro l (getTile tileRuns 0) = some (⟨5, false⟩, u) := by
    intro l
    refine takeCoded_some addMicro 1 0 l _ _ ?_ ?_
    · revert l; decide
    · rintro t1 (rfl | rfl) <;> revert l <;> decide
  have src : sources addMicro q 0 0 0 = [.next (q.order.getD 0 0)] := rfl
  refine ⟨by rfl, ?_, ?_, fun t h => ⟨?_, ?_, ?_⟩, by decide, by decide, by decide, by decide⟩
  · obtain ⟨u, hu⟩ := took (q.order.getD 0 0)
    exact ⟨⟨5, false⟩, u, [], by rw [src]; simp only [fetchAll, fetch, hu], rfl, by decide⟩
  · have none : ∀ l : Fin 4, takeNext addMicro l {} = .none := by
      intro l
      refine takeCoded_none addMicro 1 0 l _ ?_ ?_ <;> revert l <;> decide
    rw [src]; simp only [fetchAll, fetch, none]
  · rw [stepCodes, if_pos (by decide)]; rfl
  · rw [stepCodes, if_pos (by decide)]; rfl
  · rw [stepCodes, if_pos (by decide)]; rfl

theorem witness_TilesTakeFlitsCreditsAndScrubReads_a :
    tileRuns.glb.phase = .up ∧ tileExists ⟨0, 0⟩ = true ∧ decodeWires 0 = none ∧ tileOwner up 0 = none ∧ linkOpen tileRuns 0 .n ≠ some true ∧
      runsHere tileRuns 0 = some 0 ∧ decodeWires (encodeWires (mkFlit 5 true 7)) = some (mkFlit 5 true 7) ∧
      flitLane (mkFlit 5 true 7) = 5 ∧ decodeWires (encodeWires (mkFlit 6 true 7)) = some (mkFlit 6 true 7) ∧
      flitLane (mkFlit 6 true 7) = 6 ∧ gatewayPlace tileRuns 0 0 = none := by decide

theorem witness_TilesTakeFlitsCreditsAndScrubReads_b :
    (tileRuns.parts[(0 : PartId)].fabric.queues).any (fun q => q.tile = 0 && decide (q.cfg.lane = 5)) = false ∧
      (activeCtx (getTile tileRuns 0)).route[fifo 4 5].enable = true ∧ (getTile tileRuns 0).inputs[fifo 4 5].length < 4 ∧
      tileOwner tileRuns 0 = some 0 ∧ isServing tileRuns.parts[(0 : PartId)].state = true ∧ linkOpen tileRuns 0 .e = some true ∧
      decodeWires (encodeWires (mkFlit 7 true 1)) = some (mkFlit 7 true 1) ∧ flitLane (mkFlit 7 true 1) = 7 ∧
      tileInService up 0 = false ∧ tileInService tileRuns 0 = true ∧
      tileInService (onRegion (fun g => { g with supplyOn := true })) 0 = true ∧ tileOwner (onRegion (fun g => { g with supplyOn := true })) 0 = none := by
  decide

theorem witness_TilesTakeFlitsCreditsAndScrubReads_c :
    (activeCtx (getTile (tileOn {}) 0)).route[fifo 4 5].enable = false ∧ decodeWires (encodeWires (mkFlit 7 false 0)) = some (mkFlit 7 false 0) ∧
      (gatewayPlace (updPart tileRuns 0 (fun x => { x with placement := some { pieces := [⟨0, 0, .endForm⟩] } })) 0 (tileKey 59 59)).isSome = true ∧
      isFault tileRuns.parts[(0 : PartId)].state = false ∧ (getTile tileRuns 0).scrubPtr = 0 ∧
      claimHolds 0 0 { tile := 0, base := 0, length := 1, use := .inUse } = true := by decide

/-- An image of one cycle over one declared queue. -/
def cycleImage : Image := imageOf (.cycles [⟨3, [0]⟩])

/-- Its queue holds `n` of the one flit it has room for, and the router output north has no credit left; 8,192 ns have passed. -/
def cycleRuns (n : Nat) (spills : List (Nat × Nat × Nat)) (time : BitVec 64) : State :=
  { updPart (updRegion up 0 (fun g => { g with owner := some 0, supplyOn := true })) 0 (fun x => { x with
      state := .running, active := some cycleImage
      fabric := { x.fabric with
        queues := [{ cfg := { id := 0, tClass := true, lane := 4, capacity := 1, segs := [⟨0, 0, 0, 1⟩] }, places := [(0, 0, 1)]
                     spills := spills, count := n }]
        timers := [some 0] } })
    with
    tbs := { up.tbs with time := time }
    tiles := [(0, { tileOf addMicro with
      inputs := Vector.replicate 30 [mkFlit 4 true 0, mkFlit 4 true 0, mkFlit 4 true 0, mkFlit 4 true 0]
      credits := Vector.replicate 24 0 })] }

theorem witness_StallsAreTimedSpilledAndSampled_a :
    isServing up.parts[(0 : PartId)].state = false ∧ isServing (cycleRuns 1 [] 0).parts[(0 : PartId)].state = true ∧
      (partCycles (cycleRuns 1 [] 0).parts[(0 : PartId)])[0]? = some ⟨3, [0]⟩ ∧ (cycleRuns 1 [] 0).parts[(0 : PartId)].fabric.timers.getD 0 none = some 0 ∧
      cycleBlocked (cycleRuns 1 [] 0) 0 ⟨3, [0]⟩ = true ∧ spillChoice (cycleRuns 1 [] 0).parts[(0 : PartId)] ⟨3, [0]⟩ = none ∧
      spillChoice (cycleRuns 1 [(0, 1, 1)] 0).parts[(0 : PartId)] ⟨3, [0]⟩ = some 0 ∧ now (cycleRuns 1 [] 0) < 0 + 8192 ∧
      0 + 8192 ≤ now (cycleRuns 1 [] 8192) ∧ cycleBlocked (cycleRuns 1 [] 8192) 0 ⟨3, [0]⟩ = true ∧
      cycleBlocked (cycleRuns 1 [(0, 1, 1)] 8192) 0 ⟨3, [0]⟩ = true := by decide +kernel

theorem witness_StallsAreTimedSpilledAndSampled_b :
    cycleBlocked (cycleRuns 0 [] 0) 0 ⟨3, [0]⟩ = false ∧ (runs cycleImage).parts[(0 : PartId)].fabric.timers.getD 0 none = none ∧
      (cycleRuns 1 [] 0).parts[(0 : PartId)].fabric.queues[0]?.isSome = true ∧ storeOk tileRuns ∧ runsHere tileRuns 0 = some 0 ∧
      runsHere tileRuns 1 = none ∧ (getTile { tileRuns with tiles := [(0, { tileOf addMicro with stepped := true })] } 0).stepped = true :=
  ⟨by decide, by decide, by decide, ⟨by decide, by decide⟩, by decide, by decide, by decide⟩

/-! ### Witnesses: bays and cartridges -/

theorem witness_BaysPowerUpInOrderAndEmptyOnRemoval_a :
    up.glb.phase = .up ∧ up.bays[(0 : BayId)].presence = .absent ∧
      (onBay (fun b => { b with presence := .debouncing })).bays[(0 : BayId)].presence = .debouncing ∧
      (onBay (fun b => { b with presence := .inserted })).bays[(0 : BayId)].presence ≠ .debouncing ∧
      (onBay (fun b => { b with good := true })).bays[(0 : BayId)].good = true ∧ (onBay (fun b => { b with good := true })).bays[(0 : BayId)].perst = true ∧
      (onBay (fun b => { b with good := true })).bays[(0 : BayId)].cause = 0 ∧ up.bays[(0 : BayId)].good = false ∧
      (onBay (fun b => { b with perst := false })).bays[(0 : BayId)].perst = false ∧ (onBay (fun b => { b with cause := 1 })).bays[(0 : BayId)].cause ≠ 0 ∧
      (onBay (fun b => { b with power := true })).bays[(0 : BayId)].power = true := by decide

/-- P0 runs an image whose contract is `c`, from an inserted cartridge. -/
def cartRuns (c : Contract) : State := updBay (runs (imageOf (.contract c))) 0 (fun b => { b with presence := .inserted })

theorem witness_BaysPowerUpInOrderAndEmptyOnRemoval_b :
    (cartRuns {}).glb.phase = .up ∧ (cartRuns {}).bays[(0 : BayId)].presence = .inserted ∧ (cartRuns {}).parts[(0 : PartId)].load = none ∧
      (cartRuns {}).parts[(0 : PartId)].active = some (imageOf (.contract {})) ∧ (imgContract (imageOf (.contract {}))).stopOnRemoval = false ∧
      (cartRuns { stopOnRemoval := true }).parts[(0 : PartId)].active = some (imageOf (.contract { stopOnRemoval := true })) ∧
      (imgContract (imageOf (.contract { stopOnRemoval := true }))).stopOnRemoval = true ∧
      (cartRuns { stopOnRemoval := true }).parts[(0 : PartId)].state = .running := by decide

/-- The key of a root, and a certificate under it for the serialNumber 0000000000000008, made with a tool outside the model. -/
def rootKey : List Byte := beBytes 65 0x0400fb4c494ec493e01c092af7154d6120b5b97af7935ca2cb86fb2288121b7b840850451dfdb3a893e0cd490bfa872a54bb179bffacd3aa6a2436c69d61b86d4b

def leafDer : List Byte :=
  beBytes 122 0x308201693082010ea003020102020101300a06082a8648ce3d040302300c310a300806035504030c01523020170d3236313132363130353133395a180f32303534303431323130353133395a301b3119301706035504051310303030303030303030303030303030383059301306072a8648ce3d020106082a86 ++
  beBytes 122 0x48ce3d03010703420004e945e3adfc129ed5682489a0f96b62f6a8c8cb2ebc8d7069b9ac7c5bd549fe9830507d0b8baa5f20f6f844eb6a2fd1028d73e0c1e38766e7349d71960269296fa350304e300c0603551d130101ff04023000301d0603551d0e04160414fc7453b5b93ca8869151771f94ba344b661ecb ++
  beBytes 121 0x08301f0603551d23041830168014af8152a259da9f002a63004edc93db81d5cffe4b300a06082a8648ce3d0403020349003046022100dfd59d6e2ffe44acd5caf020fff0e79812c8a743ab18ccce687e756a635be4f3022100d8d60edf7dbafd25d3fb57d990d951e25927b2b45192efbaac647ee6f7b95135

/-- Bay 0 has power; bay 1 holds the accepted identity 7; the root is enrolled. -/
def identifying : State :=
  let s := updBay (onBay (fun b => { b with power := true })) 1 (fun b => { b with accepted := true, id := 7 })
  { s with nv := { s.nv with cartRoots := #v[some rootKey, none, none, none], imageRoots := #v[some rootKey, none, none, none] } }

/-- A response with its CRC-8. -/
def withCrc (b : List Byte) : List Byte := b ++ [BitVec.ofNat 8 (crc8 b)]

/-- The signature of a challenge of a nonce of zeros to the cartridge of ID 8. -/
def challengeSig : List Byte :=
  beBytes 64 0xdb33ebbb50d7f719403ff4eb229edb02d421f406006818a3b3413bac0030bcc63394229d5563525e46120ffa2f538a5e2f8852f49f29661beb0915c3a4be9aa1

/-- What a secure element answers: three times nothing, its ID, the certificate in parts of 64 bytes, the signature, its counters. -/
def answersOf (id : Nat) (sig : List Byte) : List (List Byte) :=
  [[], [], [], withCrc (leBytes 8 id)] ++ (List.range 6).map (fun k => withCrc ((leafDer.drop (64 * k)).take 64)) ++
    [withCrc sig, withCrc (zeros 4), withCrc (leBytes 4 3 ++ leBytes 4 2 ++ leBytes 4 1), withCrc [2]]

def identity (id : Nat) (sig : List Byte) : IdentityObs := { nonce := zeros 32, answers := answersOf id sig }

/-- The conversation after the ID. -/
def talkOf (o : IdentityObs) : SeTalk := (seRead 0x01 [] 8 { answers := o.answers }).2

theorem witness_IdentityCheckAcceptsOrRefuses_a :
    identifying.glb.phase = .up ∧ identifying.bays[(0 : BayId)].power = true ∧ identifying.bays[(0 : BayId)].good = false ∧
      (seRead 0x01 [] 8 { answers := [] }).1 = none ∧
      (seRead 0x01 [] 8 { answers := (identity 8 challengeSig).answers }).1 = some (leBytes 8 8) ∧
      (seRead 0x01 [] 8 { answers := (identity 7 []).answers }).1 = some (leBytes 8 7) ∧
      (∀ q : BayId, q ≠ 0 → identifying.bays[q].accepted = true → identifying.bays[q].id ≠ BitVec.ofNat 64 (leNat (leBytes 8 8))) ∧
      (∃ q : BayId, q ≠ 0 ∧ identifying.bays[q].accepted = true ∧ identifying.bays[q].id = BitVec.ofNat 64 (leNat (leBytes 8 7))) := by
  decide +kernel

theorem witness_IdentityCheckAcceptsOrRefuses_b :
    (challenge identifying (leBytes 8 8) (zeros 32) (talkOf (identity 8 challengeSig))).1 = true ∧
      (readCounters (challenge identifying (leBytes 8 8) (zeros 32) (talkOf (identity 8 challengeSig))).2).1.isSome = true := by
  constructor <;> decide +kernel

theorem witness_IdentityCheckAcceptsOrRefuses_c :
    (challenge identifying (leBytes 8 8) (zeros 32) (talkOf (identity 8 (zeros 64)))).1 = false ∧
      (readCounters (challenge up (leBytes 8 8) [] { answers := [] }).2).1 = none := by
  constructor <;> decide +kernel

/-- A cartridge directory (R233, R234): one entry, of slot 0. -/
def slotEntry : List Byte :=
  let e := leBytes 1 1 ++ leBytes 1 7 ++ leBytes 1 1 ++ zeros 5 ++ leBytes 8 0 ++ leBytes 8 576 ++ zeros 100
  e ++ leBytes 4 (crc32c e)

def directory : List Byte :=
  let h := leBytes 4 0x54524143 ++ leBytes 2 1 ++ zeros 54
  h ++ leBytes 4 (crc32c h) ++ slotEntry

/-- Bay 0 has passed its identity check and trains. -/
def training : State := onBay (fun b => { b with presence := .inserted, nvme := .training, identityDone := true })

/-- The least and the greatest that R230 admits. -/
def nvme (d : List Byte) : NvmeObs :=
  { mqes := 63, capTo := 1, mdtsKiB := 128, directory := d, lifeRing := [], smartCritical := 0, smartUsed := 0 }

theorem witness_CartridgesAreTakenIntoUseThenHandedOver_a :
    training.glb.phase = .up ∧ training.bays[(0 : BayId)].nvme = .training ∧ training.bays[(0 : BayId)].identityDone = true ∧
      training.bays[(0 : BayId)].cause = 0 ∧ training.glb.serviceOnly = false ∧ duplicateId training 0 training.bays[(0 : BayId)].id = false ∧
      (onBay (fun b => { b with nvme := .training, cause := 2 })).bays[(0 : BayId)].cause ≠ 0 ∧
      ({ training with glb := { training.glb with serviceOnly := true } } : State).glb.serviceOnly = true ∧
      63 ≤ (nvme directory).mqes ∧ (nvme directory).capTo ≤ 1 ∧ 128 ≤ (nvme directory).mdtsKiB := by decide

theorem witness_CartridgesAreTakenIntoUseThenHandedOver_b :
    directoryOk (nvme directory).directory = true ∧ (readSlot directory 0).present = true ∧ (readSlot directory 0).crcOk = true ∧
      directoryOk [] = false ∧ (readSlot (directory.take 64) 0).present = false := by decide +kernel

/-- Bay 0's cartridge is accepted and its NVMe side ready; P0 runs the armed slot's image. -/
def handedOver (digest : List Byte) : State :=
  updBay (runs { digest := digest }) 0 (fun b => { b with accepted := true, nvme := .ready, slots := [{ digest := [1] }] })

theorem witness_CartridgesAreTakenIntoUseThenHandedOver_c :
    (handedOver [1]).glb.phase = .up ∧ (handedOver [1]).bays[(0 : BayId)].accepted = true ∧ (handedOver [1]).bays[(0 : BayId)].nvme = .ready ∧
      (handedOver [1]).glb.serviceOnly = false ∧ isServing (handedOver [1]).parts[(0 : PartId)].state = true ∧
      (handedOver [1]).parts[(0 : PartId)].active = some { digest := [1] } ∧ [1] = (armedSlot (handedOver [1]) 0).digest ∧
      (handedOver [2]).parts[(0 : PartId)].active = some { digest := [2] } ∧ [2] ≠ (armedSlot (handedOver [2]) 0).digest := by decide

/-- Bay 0's cartridge is in use, with a command that failed once or has not. -/
def inUse (retried : List NvmeCmd) (writes : Nat) : State :=
  onBay (fun b => { b with presence := .inserted, power := true, good := true, identityDone := true, accepted := true, nvme := .done,
                           retried := retried, writes := [nvmeRead 2 0 1], stateWrites := writes })

theorem witness_MediaFailuresEndUseAndWearIsRecorded :
    (inUse [] 0).glb.phase = .up ∧ cmdOut up 0 (nvmeRead 2 0 1) = false ∧ cmdOut (inUse [] 0) 0 (nvmeRead 2 0 1) = true ∧
      nvmeRead 2 0 1 ∉ (inUse [] 0).bays[(0 : BayId)].retried ∧ cmdOut (inUse [nvmeRead 2 0 1] 0) 0 (nvmeRead 2 0 1) = true ∧
      nvmeRead 2 0 1 ∈ (inUse [nvmeRead 2 0 1] 0).bays[(0 : BayId)].retried ∧ cmdOut training 0 (nvmeRead 1 0 1) = true ∧
      (inUse [] 0).parts[(0 : PartId)].load = none ∧ (inUse [] 0).bays[(0 : BayId)].good = true ∧
      (inUse [] 0).bays[(0 : BayId)].identityDone = true ∧ (inUse [] 0).bays[(0 : BayId)].cause = 0 ∧
      (onBay (fun b => { b with good := true, identityDone := true, cause := 6 })).bays[(0 : BayId)].cause = 6 ∧
      (inUse [] 0).bays[(0 : BayId)].nvme = .done ∧
      (inUse [] 0).bays[(0 : BayId)].accepted = true ∧ (inUse [] 0).bays[(0 : BayId)].power = true ∧
      (inUse [] 99999).bays[(0 : BayId)].stateWrites < 100000 ∧ 100000 ≤ (inUse [] 100000).bays[(0 : BayId)].stateWrites := by decide

/-! ### Witnesses: loads -/

/-- A record of type `ty` (R255). -/
def record (ty piece forms group : Nat) (body : List Byte) : List Byte :=
  let h := leBytes 2 ty ++ leBytes 1 piece ++ leBytes 1 forms ++ leBytes 4 body.length ++ leBytes 2 group ++ leBytes 2 0
  h ++ leBytes 4 (crc32c (h ++ body)) ++ body

/-- The header of an image of one piece and one group (R254). -/
def header : List Byte :=
  let h := leBytes 4 0x4D494B4A ++ leBytes 1 7 ++ leBytes 1 1 ++ leBytes 2 0 ++ leBytes 8 584 ++ leBytes 4 5 ++ leBytes 4 1 ++ zeros 36
  h ++ leBytes 4 (crc32c h)

/-- The least contract section that passes checks 1-3: SIGNATURE, EPOCHS, CONTRACT, PIECE, VERDICT (R258-R262, R268). -/
def contract : List (List Byte) := [
  record 0x0001 255 0 0 (leBytes 1 1 ++ leBytes 1 1 ++ zeros 70 ++ leBytes 2 1 ++ zeros 6),
  record 0x0002 255 0 0 (leBytes 1 7 ++ leBytes 1 1 ++ leBytes 1 1 ++ zeros 5 ++ leBytes 2 0 ++ leBytes 2 0 ++ zeros 4),
  record 0x0010 255 0 0 (leBytes 4 0 ++ leBytes 4 1 ++ leBytes 4 1000 ++ leBytes 4 3780 ++ zeros 24),
  record 0x0011 0 8 0 (zeros 16),
  record 0x0017 0 8 1 (leBytes 1 1 ++ zeros 39)]

/-- A text under AES-256-GCM, with its tag. -/
def sealed (key nonce aad text : List Byte) : List Byte × List Byte :=
  let ks := roundKeys key
  let c := gcmText ks (beNat nonce) text
  (c, beBytes 16 (gcmTag ks (beNat nonce) aad c))

/-- The content key of the slots below; the fleet key that wraps it is the one of reset, of zeros. -/
def contentOf : List Byte := List.replicate 32 2

/-- A slot of an image of `n` bytes. -/
def slotOf (n : Nat) (digest : List Byte) : Slot :=
  let w := sealed (zeros 32) (zeros 12) [] contentOf
  { present := true, crcOk := true, epoch := 7, chainLen := 1, length := n, wrapNonce := zeros 12, wrappedKey := w.1, wrapTag := w.2, digest := digest }

/-- The reads of an image of one chunk. -/
def chunkObs (text : List Byte) : LoadObs := { front := [sealed contentOf (zeros 12) [] text] }

def loadObs : LoadObs := chunkObs (header ++ contract.flatten)

/-- Bay 0 offers that image; region 0 is powered and reachable. -/
def offered : State :=
  let s := updBay up 0 (fun b => { b with accepted := true, slots := [slotOf 584 []] })
  { updRegion s 0 (fun g => { g with supplyOn := true }) with
    wafer := { s.wafer with tree := Vector.replicate 80 (some ⟨0, 0, none⟩) } }

theorem offered_free : offered.glb.phase = .up ∧ offered.glb.serviceOnly = false ∧ offered.bays[(0 : PartId)].accepted = true ∧
    offered.parts[(0 : PartId)].state = .empty ∧ offered.parts[(0 : PartId)].active = none ∧ offered.parts[(0 : PartId)].load = none ∧
    offered.parts[(0 : PartId)].flow.lupin = none ∧ offered.parts[(0 : PartId)].flow.drain = none ∧
    offered.parts[(0 : PartId)].flow.scrub = none ∧ contentKey offered (armedSlot offered 0) = some contentOf ∧
    contentKey offered { armedSlot offered 0 with unitBound := true, unitSerial := 1 } = none := by decide +kernel

theorem ok_then_some {α β : Type} (x : Except Refuse α) (f : α → Option β)
    (h : (match x with | .ok a => (f a).isSome | .error _ => false) = true) : ∃ a b, x = .ok a ∧ f a = some b := by
  cases x with
  | error e => cases h
  | ok a => obtain ⟨b, hb⟩ := Option.isSome_iff_exists.1 h; exact ⟨a, b, rfl, hb⟩

theorem error_is {α : Type} (x : Except Refuse α) (e : Refuse) (h : (match x with | .ok _ => false | .error c => decide (c = e)) = true) :
    x = .error e := by
  cases x with
  | error c => exact congrArg _ (of_decide_eq_true h)
  | ok a => cases h

/-- The front checks pass, and the image finds a path. -/
theorem witness_LoadCommandsAreRefusedQueuedOrBegun_a :
    ∃ i pl, checkFront offered 0 (armedSlot offered 0) (readFront (armedSlot offered 0) contentOf loadObs) = .ok i ∧
      searchPlacement offered (some 0) (imgPieces i) i.header.chainLen = some pl := by
  apply ok_then_some (f := fun i => searchPlacement offered (some 0) (imgPieces i) i.header.chainLen)
  decide +kernel

theorem witness_LoadCommandsAreRefusedQueuedOrBegun_b :
    up.glb.serviceOnly = false ∧ up.bays[(0 : PartId)].accepted = false ∧ up.parts[(0 : PartId)].state = .empty ∧
      ({ up with glb := { up.glb with serviceOnly := true } } : State).glb.serviceOnly = true ∧
      (updFlow offered 0 (fun f => { f with lupin := some 1 })).parts[(0 : PartId)].flow.lupin.isSome = true ∧
      (updFlow offered 0 (fun f => { f with scrub := some .toEmpty })).parts[(0 : PartId)].flow.scrub.isSome = true ∧
      (updFlow offered 0 (fun f => { f with drain := some .unload })).parts[(0 : PartId)].flow.drain.isSome = true ∧
      offered.parts[(0 : PartId)].queued = none ∧
      (updPart offered 0 (fun x => { x with queued := some .automatic })).parts[(0 : PartId)].queued.isSome = true := by decide

/-- A slot that no unit but another one's may load; a chunk whose text is no image; a chunk whose tag fails. -/
theorem witness_FrontChecksRefuseALoad :
    offered.glb.phase = .up ∧
      contentKey (updBay offered 0 (fun b => { b with slots := [{ slotOf 584 [] with unitBound := true, unitSerial := 1 }] }))
        (armedSlot (updBay offered 0 (fun b => { b with slots := [{ slotOf 584 [] with unitBound := true, unitSerial := 1 }] })) 0) = none ∧
      checkFront offered 0 (armedSlot offered 0) (readFront (armedSlot offered 0) contentOf (chunkObs (zeros 64))) = .error (0x0101, 0xFFFFFFFF) ∧
      checkFront offered 0 (armedSlot offered 0) (readFront (armedSlot offered 0) contentOf { front := [([], [])] }) = .error (0x0107, 0) := by
  refine ⟨by decide, by decide +kernel, error_is _ _ ?_, error_is _ _ ?_⟩ <;> decide +kernel

theorem witness_UnloadBeginsTheDrain :
    (runs {}).glb.phase = .up ∧ (runs {}).glb.serviceOnly = false ∧ (runs {}).parts[(0 : PartId)].active.isSome = true ∧
      (runs {}).parts[(0 : PartId)].load = none ∧ (runs {}).parts[(0 : PartId)].flow.lupin = none ∧
      (runs {}).parts[(0 : PartId)].flow.drain = none ∧ (runs {}).parts[(0 : PartId)].flow.scrub = none ∧
      (runs {}).parts[(0 : PartId)].state ≠ .empty ∧ (runs {}).parts[(0 : PartId)].queued = none ∧
      (updPart (runs {}) 0 (fun x => { x with queued := some .hostUnload })).parts[(0 : PartId)].queued = some .hostUnload := by decide

/-- P0 stands in FAULT_HELD with its automatic reload due, after reloads at the times given. -/
def reloadDue (times : List Nat) : State :=
  updPart offered 0 (fun x => { x with state := .faultHeld, flow := { x.flow with autoDue := true }, autoTimes := times })

theorem witness_AutomaticReloadsAndRetriesAreLimited_a :
    (reloadDue []).glb.phase = .up ∧ isFault (reloadDue []).parts[(0 : PartId)].state = true ∧ (reloadDue []).parts[(0 : PartId)].flow.autoDue = true ∧
      (reloadDue []).parts[(0 : PartId)].flow.scrub = none ∧ (reloadDue []).parts[(0 : PartId)].queued = none ∧
      (reloadDue []).bays[(0 : PartId)].accepted = true ∧
      3 ≤ ((reloadDue [0, 0, 0]).parts[(0 : PartId)].autoTimes.filter (fun u => decide (now (reloadDue [0, 0, 0]) < u + 3600000000000))).length ∧
      ((reloadDue [0, 0]).parts[(0 : PartId)].autoTimes.filter (fun u => decide (now (reloadDue [0, 0]) < u + 3600000000000))).length < 3 ∧
      (updBay (reloadDue []) 0 (fun b => { b with accepted := false })).bays[(0 : PartId)].accepted = false := by decide

/-- P0 loads in a phase. -/
def loading (s : State) (l : Load) : State := updPart s 0 (fun x => { x with state := .loading, load := some l })

theorem witness_AutomaticReloadsAndRetriesAreLimited_b :
    (loading offered { phase := .waitRetest }).glb.phase = .up ∧
      (loading offered { phase := .waitRetest }).parts[(0 : PartId)].load = some { phase := .waitRetest } ∧
      ({ phase := .waitRetest } : Load).reloadsOld = false ∧ (loading offered { phase := .waitRetest }).parts[(0 : PartId)].active = none ∧
      searchPlacement (loading up { phase := .waitRetest }) (some 0) (imgPieces {}) 1 = none ∧
      wouldFit (loading up { phase := .waitRetest }) 0 {} = false ∧
      (searchPlacement (loading offered { phase := .waitRetest }) (some 0) [(0, 8)] 1).isSome = true := by decide +kernel

/-- One piece that region 0 alone could take, while it is under test. -/
theorem witness_AutomaticReloadsAndRetriesAreLimited_c :
    let i : Image := { header := { chainLen := 1 }, recs := [⟨0x0011, 0, 8, 16, 0, .piece 0 0⟩] }
    let s := updRegion (loading offered { phase := .waitRetest, image := i }) 0 (fun g => { g with underTest := true })
    searchPlacement s (some 0) (imgPieces i) i.header.chainLen = none ∧ wouldFit s 0 i = true := by decide +kernel

/-- P0 is at the head of the lane queue; `held` loads hold lanes at entry 0. -/
def queuedForLanes (held : Nat) : State :=
  { loading offered { phase := .waitLane, placement := { pieces := [⟨0, 0, .endForm⟩] } } with
    wafer := { offered.wafer with laneQueue := [0, 1], lanesHeld := Vector.replicate 4 held } }

theorem witness_StreamsStartOnFreeLanesAndStopAtBadChunks_a :
    (queuedForLanes 1).glb.phase = .up ∧ (queuedForLanes 1).wafer.laneQueue.head? = some 0 ∧
      (∀ e ∈ lanesNeeded (queuedForLanes 1) [0], (queuedForLanes 1).wafer.lanesHeld[e] < 2) ∧
      (∃ e ∈ lanesNeeded (queuedForLanes 2) [0], 2 ≤ (queuedForLanes 2).wafer.lanesHeld[e]) ∧
      ({ queuedForLanes 1 with wafer := { (queuedForLanes 1).wafer with laneQueue := [1, 0] } } : State).wafer.laneQueue.head? ≠ some 0 := by
  decide

/-- A load of an image of one chunk that has not been read. -/
def chunkLoad : Load := { slot := slotOf 16 [], key := contentOf }

/-- A read of the stream that the cartridge has not completed. -/
theorem witness_MediaFailuresEndUseAndWearIsRecorded_load :
    cmdOut (updPart (inUse [] 0) 0 (fun x => { x with load := some chunkLoad })) 0 (chunkRead chunkLoad.slot 0) = true := by decide +kernel

theorem witness_StreamsStartOnFreeLanesAndStopAtBadChunks_b :
    (loading up { phase := .preScrub }).parts[(0 : PartId)].load = some { phase := .preScrub } ∧
      (loading up chunkLoad).parts[(0 : PartId)].load = some chunkLoad ∧ chunkLoad.phase = .streaming ∧ chunkLoad.checked = false ∧
      chunkLoad.chunk < chunkCount chunkLoad.slot ∧ chunkCount ({ chunkLoad with chunk := 1 } : Load).slot ≤ ({ chunkLoad with chunk := 1 } : Load).chunk ∧
      openChunk chunkLoad.slot chunkLoad.key chunkLoad.chunk (sealed contentOf (zeros 12) [] (zeros 16)).1 (sealed contentOf (zeros 12) [] (zeros 16)).2 =
        some (zeros 16) ∧
      openChunk chunkLoad.slot chunkLoad.key chunkLoad.chunk [] [] = none ∧ (loading up chunkLoad).parts[(0 : PartId)].active = none ∧
      chunkLoad.bytes + chunkLoad.plain.length = 65536 * chunkLoad.chunk ∧
      isFault (loading up chunkLoad).parts[(0 : PartId)].state = false ∧ nextRecord (loading up chunkLoad) 0 chunkLoad = none := by
  decide +kernel

/-- A signature over the SHA-256 digest of no bytes, under the key of the certificate above, made with a tool outside the model. -/
def emptySigned : Body := .signature 0x6e7a2816c1898bd2b36586b79decbf2c1531cc68a84d40feacd948347a32e31
  0x967913ade940cb9a9d654c28a99567c81055a41c21e429db550591826e666aab [leafDer]

/-- An image of one piece, read up to its contract section. -/
def frontRecs : List Rec := [
  ⟨0x0001, 255, 0, 440, 0, emptySigned⟩, ⟨0x0002, 255, 0, 16, 0, .epochs 7 [0] [0]⟩, ⟨0x0010, 255, 0, 40, 0, .contract {}⟩,
  ⟨0x0011, 0, 8, 16, 0, .piece 0 0⟩, ⟨0x0017, 0, 8, 40, 1, .verdict {}⟩]

/-- With a CONTEXT record of one tile too. -/
def streamImage : Image :=
  { header := { formatEpoch := 7, chainLen := 1, records := 9, groups := 1 }
    recs := frontRecs ++ [⟨0x0020, 0, 8, 520, 1, .context ⟨0, 0, 0, 0⟩ []⟩] }

/-- It streams; the first chunk has been verified, and holds `bs` next. -/
def streamLoad (bs : List Byte) : Load := { image := streamImage, placement := { pieces := [⟨0, 0, .endForm⟩] }, chunk := 1, plain := bs }

/-- An EXTENT record of one tile (R275), and an EXTENT record for a tile without a CONTEXT. -/
def extentRecord (p : Nat) : List Byte := record 0x0024 0 8 1 (leBytes 4 1 ++ zeros 4 ++ leBytes 1 p ++ leBytes 1 0 ++ leBytes 1 0 ++ leBytes 1 0 ++ leBytes 2 1 ++ zeros 2)

def written : Wrote → Option State
  | .done s => some s
  | _ => none

theorem written_some (w : Wrote) (s : State) (h : written w = some s) : w = .done s := by
  cases w <;> cases h
  rfl

theorem witness_StreamedRecordsAreCheckedThenWritten_a :
    ∃ r s1, checkStreamed (streamLoad []).image (streamLoad []).placement (extentRecord 0) = .ok r ∧
      writeRecord (loading up (streamLoad (extentRecord 0))) 0 (streamLoad []).placement r (extentRecord 0) = .done s1 := by
  obtain ⟨r, s1, hr, hs⟩ := ok_then_some (checkStreamed (streamLoad []).image (streamLoad []).placement (extentRecord 0))
    (fun r => written (writeRecord (loading up (streamLoad (extentRecord 0))) 0 (streamLoad []).placement r (extentRecord 0))) (by decide +kernel)
  exact ⟨r, s1, hr, written_some _ _ hs⟩

theorem witness_StreamedRecordsAreCheckedThenWritten_b :
    (loading up (streamLoad (extentRecord 0))).parts[(0 : PartId)].load.isSome = true ∧ (streamLoad []).phase = .streaming ∧
      (streamLoad []).checked = false ∧
      nextRecord (loading up (streamLoad (extentRecord 0))) 0 (streamLoad (extentRecord 0)) = some (extentRecord 0) ∧
      (loading up (streamLoad [])).parts[(0 : PartId)].active = none ∧ isFault (loading up (streamLoad [])).parts[(0 : PartId)].state = false ∧
      checkStreamed (streamLoad []).image (streamLoad []).placement (extentRecord 1) = .error (0x0101, 6) := by
  refine ⟨by decide, by decide, by decide, by decide +kernel, by decide, by decide, error_is _ _ ?_⟩
  decide +kernel

/-- The last records of an image that performs no lossy step, and the trailer that counts them. -/
def wholeImage : Image :=
  { streamImage with recs := streamImage.recs ++
      [⟨0x0040, 255, 0, 8, 0, .ledger []⟩, ⟨0x0041, 255, 0, 8, 0, .censusMap []⟩, ⟨0x00FF, 255, 0, 16, 0, .trailer 9 1 [2]⟩] }

def wholeLoad : Load :=
  { image := wholeImage, placement := { pieces := [⟨0, 0, .endForm⟩] }, slot := { digest := shaFinish {} }, bytes := wholeImage.header.length }

/-- It has been read to its end. -/
def wholeRead : State := { loading up wholeLoad with nv := identifying.nv }

theorem witness_EndOfStreamChecksRunInOrder_a :
    wholeRead.glb.phase = .up ∧ wholeRead.parts[(0 : PartId)].load = some wholeLoad ∧ wholeLoad.phase = .streaming ∧ wholeLoad.checked = false ∧
      wholeLoad.plain = [] ∧ chunkCount wholeLoad.slot ≤ wholeLoad.chunk ∧ (streamLoad (extentRecord 0)).plain ≠ [] ∧
      chunkLoad.chunk < chunkCount chunkLoad.slot ∧ wholeRead.parts[(0 : PartId)].active = none ∧
      isFault wholeRead.parts[(0 : PartId)].state = false ∧
      check6 wholeLoad.image wholeLoad.placement = true ∧ ledgerOk wholeLoad.image wholeLoad.placement = true ∧
      wholeLoad.bytes = wholeLoad.image.header.length ∧ countsOk wholeLoad.image = true ∧ wholeLoad.staged = false ∧
      imgSpan wholeLoad.image = none ∧ portsReady wholeRead wholeLoad.image = true ∧ (onPwr (fun w => { w with resReady := true })).pwr.resReady = true ∧
      wholeRead.sup.activating = false ∧ wholeRead.parts[(0 : PartId)].flow.lupin = none := by decide +kernel

theorem witness_EndOfStreamChecksRunInOrder_b :
    imageSigned wholeRead { wholeLoad.image with digest := shaFinish wholeLoad.sha } = true := by decide +kernel

theorem witness_EndOfStreamChecksRunInOrder_c :
    shaFinish wholeLoad.sha = wholeLoad.slot.digest ∧ shaFinish ({} : Load).sha ≠ ({} : Load).slot.digest ∧ countsOk {} = false ∧
      imageSigned up { wholeLoad.image with digest := shaFinish wholeLoad.sha } = false ∧
      check6 (imageOf (.contract { spillKib := 1 })) {} = false ∧
      check6 (imageOf (.ledger [{ kind := 1 }])) {} = true ∧ ledgerOk (imageOf (.ledger [{ kind := 1 }])) {} = false := by
  refine ⟨?_, ?_, ?_, ?_, ?_, ?_, ?_⟩ <;> decide +kernel

theorem witness_EndOfStreamChecksRunInOrder_d :
    (loading (runs {}) { staged := true }).glb.phase = .up ∧ (loading (runs {}) { staged := true }).parts[(0 : PartId)].active = some {} ∧
      (loading (runs {}) { staged := true }).parts[(0 : PartId)].load = some { staged := true } ∧ ({} : Load).plain = [] ∧
      chunkCount ({} : Load).slot ≤ ({} : Load).chunk ∧ (some 0 : Option Nat).isSome = true ∧
      (match exec (.endOfStreamChecks 0 (some 0)) (loading (runs {}) { staged := true }) with
        | .next t => decide (t.parts[(0 : PartId)].state = .running) | _ => false) = true := by decide

/-- P0's release stands at a Lupin stage. -/
def releasing (k : Nat) : State := updFlow (loading up {}) 0 (fun f => { f with lupin := some k })

/-- P0 has drained and its staged image waits for the context switch. -/
def staged : State :=
  updPart (runs {}) 0 (fun x => { x with state := .draining, load := some { staged := true }, flow := { x.flow with drain := some .staged, drained := true } })

theorem witness_CommitPointsRunTheNewImage :
    (releasing 2).glb.phase = .up ∧ (releasing 2).parts[(0 : PartId)].flow.lupin = some 2 ∧ (releasing 2).parts[(0 : PartId)].load = some {} ∧
      (releasing 3).parts[(0 : PartId)].flow.lupin = some 3 ∧ isFault (releasing 3).parts[(0 : PartId)].state = false ∧
      ({} : Load).staged = false ∧ staged.glb.phase = .up ∧ staged.parts[(0 : PartId)].flow.drain = some .staged ∧
      staged.parts[(0 : PartId)].flow.drained = true ∧ staged.parts[(0 : PartId)].load = some { staged := true } ∧
      staged.parts[(0 : PartId)].active = some {} ∧ partEmpty staged 0 = true ∧
      partEmpty (updPart { staged with tiles := [(0, tileOf addMicro)] } 0 (fun x => { x with placement := some { pieces := [⟨0, 0, .endForm⟩] } })) 0 = false := by
  decide

theorem witness_CommitPointsRunTheNewImage_tiles : storeOk staged := ⟨by decide, by decide⟩

/-- P0 drains for a reason. -/
def draining (why : DrainWhy) (ws : List Window) : State :=
  updPart (runs {}) 0 (fun x => { x with state := .draining, flow := { x.flow with drain := some why, windows := ws } })

theorem witness_DrainsEndEmptyAndScrubsGiveRegionsBack_a :
    (draining .unload []).glb.phase = .up ∧ (draining .unload []).sup.activating = false ∧
      (draining .unload []).parts[(0 : PartId)].flow.drain = some .unload ∧ (draining .unload []).parts[(0 : PartId)].flow.drained = false ∧
      drainedOut (draining .unload [{}]) 0 = false ∧ drainedOut (draining .unload []) 0 = true ∧
      DrainWhy.unload ∈ [DrainWhy.unload, .stopOnRemoval, .aborted] ∧ drainedOut (draining .staged []) 0 = true ∧
      (updPin (draining .unload []) 0 (fun n => { n with claimed := some 0, entry := some {} })).pins[(0 : PinId)].claimed = some 0 := by decide

theorem witness_DrainsEndEmptyAndScrubsGiveRegionsBack_b :
    (updFlow up 0 (fun f => { f with scrub := some .toEmpty })).parts[(0 : PartId)].flow.scrub = some .toEmpty ∧
      censusBusy up.parts[(0 : PartId)].census = false ∧ up.parts[(0 : PartId)].load = none ∧
      (onRegion (fun g => { g with owner := some 0 })).regions[(0 : RegionId)].owner = some 0 ∧
      censusBusy (updCensus up 0 (fun c => { c with run := some {} })).parts[(0 : PartId)].census = true ∧
      (updFabric (runs {}) 0 (fun f => { f with postScrub := some [] })).parts[(0 : PartId)].fabric.postScrub = some [] ∧
      (updFabric (runs {}) 0 (fun f => { f with postScrub := some [] })).parts[(0 : PartId)].active = some {} := by decide

/-- P0 waits for its rendezvous since time 0. -/
def inSpanWait : State := onPart (fun x => { x with state := .spanWait, load := some {} })

theorem witness_FaultEntriesStopThePartition :
    (atTime 30000000000 inSpanWait).glb.phase = .up ∧ (atTime 30000000000 inSpanWait).parts[(0 : PartId)].state = .spanWait ∧
      (atTime 30000000000 inSpanWait).parts[(0 : PartId)].flow.lupin = none ∧ (atTime 30000000000 inSpanWait).parts[(0 : PartId)].load.isSome = true ∧
      (atTime 30000000000 inSpanWait).parts[(0 : PartId)].flow.since + 30000000000 ≤ now (atTime 30000000000 inSpanWait) ∧
      now (atTime 29999999999 inSpanWait) < (atTime 29999999999 inSpanWait).parts[(0 : PartId)].flow.since + 30000000000 ∧
      up.parts[(0 : PartId)].state ≠ .spanWait ∧ (releasing 1).parts[(0 : PartId)].flow.lupin.isSome = true ∧
      isServing (draining .unload [{ tLast := some 0 }]).parts[(0 : PartId)].state = true ∧
      progressLost (atTime 1000000000 (draining .unload [{ tLast := some 0 }])) 0 = true ∧
      progressLost (draining .unload [{ tLast := some 0 }]) 0 = false ∧ isServing up.parts[(0 : PartId)].state = false ∧
      isFault up.parts[(0 : PartId)].state = false ∧ isFault (onPart (fun x => { x with state := .faultMem })).parts[(0 : PartId)].state = true ∧
      (0 : PartId) ≠ 1 ∧ (onRegion (fun g => { g with owner := some 0 })).regions[(0 : RegionId)].owner = some 0 := by decide

/-! ### Witnesses: tunables, verdicts, pins -/

/-- An image of two tunables, one of them U16-sized, with the first not above the second. -/
def tunImage : Image := imageOf (.tunables [{ id := 0, format := 0, min := 1, max := 5 }, { id := 1, format := 1, max := 0x3C00 }] [])

/-- P0 runs it with a shadow set, and with windows of generation `g` in it. -/
def tuning (st : PState) (v : Word) (ws : List Window) : State :=
  updPart (runs tunImage) 0 (fun x => { x with state := st, tun := { x.tun with shadow := x.tun.shadow.set 0 v }, flow := { x.flow with windows := ws } })

theorem witness_ApplyTakesTheWholeShadowSetOrNothing :
    (tuning .loading 1 []).glb.phase = .up ∧ (tuning .loading 1 []).parts[(0 : PartId)].state ≠ .running ∧
      (tuning .loading 1 []).parts[(0 : PartId)].state ≠ .staged ∧ (tuning .loading 1 []).parts[(0 : PartId)].state ≠ .draining ∧
      isServing (tuning .running 1 []).parts[(0 : PartId)].state = true ∧ (tuning .running 1 []).parts[(0 : PartId)].active = some tunImage ∧
      (∃ w ∈ (tuning .running 1 [{ gen := 1 }]).parts[(0 : PartId)].flow.windows, w.gen ≠ (tuning .running 1 []).parts[(0 : PartId)].tun.gen) ∧
      (∀ w ∈ (tuning .running 1 [{ gen := 0 }]).parts[(0 : PartId)].flow.windows, w.gen = (tuning .running 1 []).parts[(0 : PartId)].tun.gen) ∧
      shadowOk (imgTunables tunImage).1 (imgTunables tunImage).2 ((tuning .running 0 []).parts[(0 : PartId)].tun.shadow.toList.take 2) = false ∧
      shadowOk (imgTunables tunImage).1 (imgTunables tunImage).2 ((tuning .running 6 []).parts[(0 : PartId)].tun.shadow.toList.take 2) = false ∧
      shadowOk (imgTunables tunImage).1 (imgTunables tunImage).2 ((tuning .running 5 []).parts[(0 : PartId)].tun.shadow.toList.take 2) = true ∧
      (imgTunables tunImage).1 ≠ [] ∧ (0 : Word) ≠ 1 := by decide

theorem witness_TunableWritesReachOnlyTheShadow :
    (tuning .running 1 []).glb.phase = .up ∧ (tuning .running 1 []).parts[(0 : PartId)].active = some tunImage ∧
      ((imgTunables tunImage).1[(0 : Fin 32).val]?).map (·.format) = some 0 ∧ ((imgTunables tunImage).1[(1 : Fin 32).val]?).map (·.format) = some 1 ∧
      (0xFFFF : Word).toNat < 65536 ∧ 65536 ≤ (0x10000 : Word).toNat ∧ (imgTunables tunImage).1.length ≤ (2 : Fin 32).val ∧
      up.parts[(0 : PartId)].active = none := by decide

/-- An image that claims pins 0 and 1, the second with a pulse. -/
def pinImage : Image := imageOf (.verdict { classes := 2, rejectSet := 2, pins := [{ pin := 0, classSet := 2 }, { pin := 1, pulseNs := 100, classSet := 2 }] })

/-- P0 runs it with a token to release. -/
def releasable (tok : VToken) (last : Option Nat) : State :=
  { updPart (runs pinImage) 0 (fun x => { x with flow := { x.flow with tokens := [tok], windows := [{ tLast := some 0 }], lastRelease := last } }) with
    pins := Vector.replicate 32 { claimed := some 0 } }

theorem witness_VerdictsPairTokensAndPulsesEnd_a :
    (releasable {} none).glb.phase = .up ∧ (releasable {} none).parts[(0 : PartId)].active = some pinImage ∧
      isServing (releasable {} none).parts[(0 : PartId)].state = true ∧ (releasable {} none).parts[(0 : PartId)].flow.tokens = [{}] ∧
      (releasable {} none).parts[(0 : PartId)].flow.windows = [{ tLast := some 0 }] ∧
      (releasable {} none).parts[(0 : PartId)].flow.lastRelease = none ∧ (releasable {} none).pins[(0 : PinId)].claimed = some 0 ∧
      (releasable {} none).pins[(0 : PinId)].failsafe = false ∧ pinEntryOf pinImage 0 = some { pin := 0, classSet := 2 } ∧
      pinEntryOf pinImage 1 = some { pin := 1, pulseNs := 100, classSet := 2 } ∧ bitOf 2 ({ cls := 1, reject := true } : VToken).cls = true ∧
      bitOf 2 ({ cls := 0 } : VToken).cls = false ∧ up.pins[(0 : PinId)].claimed ≠ some 0 := by decide

theorem witness_VerdictsPairTokensAndPulsesEnd_b :
    (runs pinImage).parts[(0 : PartId)].flow.tokens = [] ∧ (runs pinImage).parts[(0 : PartId)].flow.windows = [] ∧
      (updFlow (releasable {} none) 0 (fun f => { f with windows := [{}] })).parts[(0 : PartId)].flow.windows = [{ tLast := none }] ∧
      0 + (imgContract pinImage).verdictInterval ≤ now (releasable {} (some 0)) ∧
      now (runs (imageOf (.contract { verdictInterval := 1000 }))) < 0 + (imgContract (imageOf (.contract { verdictInterval := 1000 }))).verdictInterval ∧
      up.pins[(0 : PinId)].pulsing = false ∧
      (updPin (releasable {} none) 1 (fun n => { n with pulsing := true, entry := some { pin := 1, pulseNs := 100 } })).pins[(1 : PinId)].pulsing = true ∧
      (releasable {} none).pins[(1 : PinId)].pulseAt + 100 ≤ now (atTime 100 (releasable {} none)) ∧
      now (atTime 99 (releasable {} none)) < (releasable {} none).pins[(1 : PinId)].pulseAt + 100 ∧
      (pinEntryOf pinImage 1).isSome = true ∧ (onPin (fun n => { n with pulsing := true, pulseEntry := some {} })).pins[(0 : PinId)].claimed = none ∧
      ((onPin (fun n => { n with pulsing := true, pulseEntry := some {} })).pins[(0 : PinId)].pulseEntry <|>
        (onPin (fun n => { n with pulsing := true, pulseEntry := some {} })).pins[(0 : PinId)].entry) = some {} := by decide

theorem witness_PinAllocationGoesByteByByte :
    up.glb.phase = .up ∧ (∃ k : Fin 4, 32 ≤ (0x20000000 : Word).toNat / 256 ^ k.val % 256) ∧
      (∀ k : Fin 4, (0x1F1F1F1F : Word).toNat / 256 ^ k.val % 256 < 32) ∧ (3 : PinId).val / 4 = (0 : Fin 8).val ∧ (4 : PinId).val / 4 ≠ (0 : Fin 8).val ∧
      up.pins[(3 : PinId)].claimed = none ∧ (onPin (fun n => { n with claimed := some 0 })).pins[(0 : PinId)].claimed.isSome = true := by decide

/-! ### Witnesses: regions and power -/

theorem witness_RetestsStartIdleAndEndWithTheirResult :
    offered.glb.phase = .up ∧ offered.regions[(0 : RegionId)].owner = none ∧ offered.regions[(0 : RegionId)].underTest = false ∧
      offered.regions[(0 : RegionId)].supplyOn = true ∧ offered.regions[(0 : RegionId)].supplyOut = false ∧
      offered.regions[(0 : RegionId)].cycleOff = false ∧ offered.regions[(0 : RegionId)].heatOff = false ∧
      offered.regions[(0 : RegionId)].unreachable = false ∧ reachable offered 0 = true ∧
      (onRegion (fun g => { g with unreachable := true })).regions[(0 : RegionId)].unreachable = true ∧
      (onRegion (fun g => { g with underTest := true })).regions[(0 : RegionId)].supplyOn = false ∧
      reachable up 0 = false ∧ up.regions[(0 : RegionId)].supplyOn = false ∧
      (onRegion (fun g => { g with owner := some 0 })).regions[(0 : RegionId)].owner.isSome = true ∧ (1 : RegionId) ≠ 0 ∧
      (onRegion (fun g => { g with underTest := true, supplyOn := true })).regions[(0 : RegionId)].underTest = true ∧
      (onRegion (fun g => { g with underTest := true, supplyOn := true })).regions[(0 : RegionId)].supplyOn = true := by decide

/-- P0 runs in region 0, at 0.70 V. -/
def powered : State :=
  updRegion (updPart (runs {}) 0 (fun x => { x with placement := some { pieces := [⟨0, 0, .endForm⟩] } })) 0
    (fun g => { g with owner := some 0, supplyOn := true, vdd := 700, demand := 700 })

theorem witness_RunningRegionsStandAtTheLeastCeiling :
    powered.glb.phase = .up ∧ (∃ t, exec (.currentCeilingTick [(0, 1801)]) powered = .next t ∧ t.regions[(0 : RegionId)].owner = some 0 ∧
      isServing t.parts[(0 : PartId)].state = true ∧ t.regions[(0 : RegionId)].supplyOn = true) ∧
      (0 : RegionId) ∈ ([(0, 1801)] : List (RegionId × Nat)).map (·.1) :=
  ⟨by decide, ⟨_, rfl, by decide, by decide, by decide⟩, by decide⟩

theorem witness_CeilingsFollowCurrentAndHeat :
    powered.glb.phase = .up ∧ powered.regions[(0 : RegionId)].supplyOn = true ∧ 1800 < 1801 ∧ 1699 < 1700 ∧ (1 : RegionId) ≠ 0 ∧
      (∃ t, exec (.throttleTick [(0, 951)]) powered = .next t ∧
        t.regions[(0 : RegionId)].throttleCeil < powered.regions[(0 : RegionId)].throttleCeil) ∧
      powered.regions[(0 : RegionId)].supplyOn = true ∧ 600 < powered.regions[(0 : RegionId)].throttleCeil ∧
      ∃ t, exec (.throttleTick [(0, 899)]) (updRegion powered 0 (fun g => { g with throttleCeil := 840 })) = .next t ∧
        840 < t.regions[(0 : RegionId)].throttleCeil :=
  ⟨by decide, by decide, by decide, by decide, by decide, next_with _ _ (by decide +kernel), by decide, by decide, next_with _ _ (by decide +kernel)⟩

theorem witness_RegionLossDarkensItsPartition :
    powered.glb.phase = .up ∧ powered.regions[(0 : RegionId)].supplyOn = true ∧ powered.regions[(0 : RegionId)].owner = some 0 ∧
      isFault powered.parts[(0 : PartId)].state = false ∧ (1050 : Int) ≤ 1050 ∧ (1049 : Int) < 1050 ∧ (899 : Int) < 900 ∧
      (onRegion (fun g => { g with heatOff := true })).regions[(0 : RegionId)].heatOff = true ∧
      (onRegion (fun g => { g with heatOff := true })).regions[(0 : RegionId)].supplyOn = false ∧
      (onRegion (fun g => { g with heatOff := true })).regions[(0 : RegionId)].owner = none ∧ (900 : Int) ≤ 900 ∧
      (onRegion (fun g => { g with heatOff := true, owner := some 0 })).regions[(0 : RegionId)].owner.isSome = true := by decide

theorem witness_PolicyTakesEffectAtTheEpoch :
    up.glb.phase = .up ∧ 500 ≤ (500 : Word).toNat ∧ (3600 : Word).toNat ≤ 3600 ∧ (1 : Word).toNat ≤ 1 ∧ (7 : Word).toNat ≤ 7 ∧
      (50 : Word).toNat ≤ 50 ∧ policyOk .cap 499 = false ∧ policyOk .cap 3601 = false ∧ policyOk .ctrl 2 = false ∧
      policyOk (.prio 0) 8 = false ∧ policyOk (.margin 0) 51 = false ∧ up.pwr.binding = false := by decide

/-- P0 runs under a policy that leaves it a margin. -/
def withMargin (m : Nat) : State := { powered with pwr := { powered.pwr with force := { powered.pwr.force with margin := Vector.replicate 8 m } } }

theorem witness_CapAndRateLoopsStepTheirRegions :
    (withMargin 1).glb.phase = .up ∧ (withMargin 1).pwr.force.cap < 3601 ∧ (∃ p ∈ ranked (withMargin 1), 0 < marginInForce (withMargin 1) p) ∧
      (∀ p ∈ ranked (withMargin 0), marginInForce (withMargin 0) p = 0) ∧ (withMargin 0).pwr.force.binding = false ∧
      50 * 3528 + max powered.pwr.force.cap 1000 ≤ 50 * powered.pwr.force.cap ∧
      (allParts.flatMap (fun p => if isServing powered.parts[p].state then runRegions powered p else [])).Nodup ∧
      isServing powered.parts[(0 : PartId)].state = true ∧ isServing powered.parts[(1 : PartId)].state = false ∧
      (∀ p : PartId, isServing powered.parts[p].state = true → (1 : RegionId) ∉ runRegions powered p) ∧
      600 ≤ powered.regions[(0 : RegionId)].demand ∧ powered.regions[(0 : RegionId)].demand ≤ 850 := by decide

theorem witness_SagShedsTheWaferAndSaves :
    up.glb.phase = .up ∧ curSave up = none ∧ curSave { up with nv := { up.nv with saveA := some {} } } = some {} ∧
      (∃ u : State, u.glb.phase = .shed) :=
  ⟨by decide, by decide, by decide, ⟨{ up with glb := { up.glb with phase := .shed } }, rfl⟩⟩

theorem witness_MeasurementsReportOncePerEpisode :
    up.glb.phase = .up ∧ (419 : Nat) < 420 ∧ (580 : Nat) < 581 ∧ up.pwr.lowInput = false ∧ up.pwr.highInput = false ∧
      (onPwr (fun w => { w with lowInput := true })).pwr.lowInput = true ∧ up.pwr.coolOut = false ∧
      (onPwr (fun w => { w with coolOut := true })).pwr.coolOut = true ∧ up.pwr.resReady = false := by decide

/-! ### Witnesses: ports, encoders, registers -/

/-- A line-scan port on encoder `enc`. -/
def camRec (enc : Nat) : ImgPortRec := { port := 0, links := 1, lineScan := true, encoder := enc, align := 255, roiW := 8, roiH := 1, winW := 8, winH := 2 }

/-- Connection 0 belongs to P0, with settings. -/
def cam (f : ImgConn → ImgConn) : State := updImg (runs {}) 0 (fun c => f { c with owner := some 0 })

theorem witness_CameraPortsComeUpAndCheckHeaders_a :
    (cam id).glb.phase = .up ∧ (0 : ImgId) = (cam id).imgs[(0 : ImgId)].master ∧ (cam id).imgs[(0 : ImgId)].owner = some 0 ∧
      (cam (fun c => { c with shadow := some (camRec 0) })).imgs[(0 : ImgId)].shadow = some (camRec 0) ∧
      (cam (fun c => { c with shadow := some (camRec 0) })).imgs[(0 : ImgId)].shadowReady = false ∧
      (cam id).imgs[(0 : ImgId)].shadow = none ∧ (cam (fun c => { c with shadowReady := true })).imgs[(0 : ImgId)].shadowReady = true ∧
      (loading up {}).parts[(0 : PartId)].load = some {} ∧ isFault (loading up {}).parts[(0 : PartId)].state = false ∧
      (cam id).parts[(0 : PartId)].load = none ∧ (1 : PartId) ≠ 0 ∧ (cam id).imgs[(1 : ImgId)].master = 0 := by decide

/-- It delivers. -/
def camOn (enc : Nat) (f : ImgConn → ImgConn) : State := cam (fun c => f { c with cfg := some (camRec enc), delivering := true, ready := true })

/-- A script without an entry, and one whose compare fails on an answer of 0. -/
theorem witness_CameraPortsComeUpAndCheckHeaders_c :
    (bootCamera {} (camRec 0) []).2 = true ∧ (bootCamera (imageOf (.script 0 [⟨2, 0, 1, 1⟩])) (camRec 0) [[0]]).2 = false ∧
      ((loading up { image := imageOf (.script 0 [⟨2, 0, 1, 1⟩]) }).parts[(0 : PartId)].load).isSome = true ∧
      (cam (fun c => { c with shadow := some (camRec 0), delivering := true, triggering := true })).imgs[(0 : ImgId)].delivering = true := by decide

theorem witness_CameraPortsComeUpAndCheckHeaders_b :
    (camOn 0 id).imgs[(0 : ImgId)].delivering = true ∧ (camOn 0 id).imgs[(0 : ImgId)].cfg = some (camRec 0) ∧
      (camOn 0 id).imgs[(0 : ImgId)].shadowReady = false ∧ (0 : Nat) = (camRec 0).pixelFormat ∧ (camRec 0).roiX + (camRec 0).roiW ≤ 8 ∧
      (1 : Nat) ≠ (camRec 0).pixelFormat ∧ 7 < (camRec 0).roiX + (camRec 0).roiW ∧
      (cam (fun c => { c with shadow := some (camRec 0), shadowReady := true })).imgs[(0 : ImgId)].delivering = false ∧
      (cam (fun c => { c with shadow := some (camRec 0), shadowReady := true })).imgs[(0 : ImgId)].shadow = some (camRec 0) := by decide

theorem witness_CameraLinesTakeTheirTriggers :
    (camOn 0 id).glb.phase = .up ∧ camCfg (camOn 0 id).imgs[(0 : ImgId)] = some (camRec 0) ∧ (camRec 0).encoder ≠ 255 ∧ (camRec 255).encoder = 255 ∧
      camCfg (camOn 255 id).imgs[(0 : ImgId)] = some (camRec 255) ∧ (camOn 0 (fun c => { c with linkDown := true })).imgs[(0 : ImgId)].linkDown = true ∧
      (camOn 0 id).imgs[(0 : ImgId)].linkDown = false ∧ 0 < (camOn 0 (fun c => { c with overdue := 1 })).imgs[(0 : ImgId)].overdue ∧
      (camOn 0 (fun c => { c with waiting := [4] })).imgs[(0 : ImgId)].waiting = [4] := by decide

theorem witness_CameraLinksGoDownAndComeBack :
    (camOn 0 id).glb.phase = .up ∧ (camOn 0 id).imgs[(0 : ImgId)].ready = true ∧ (camOn 0 id).imgs[(0 : ImgId)].linkDown = false ∧
      (camOn 0 (fun c => { c with linkDown := true })).imgs[(0 : ImgId)].linkDown = true ∧
      (∀ k : ImgId, (camOn 0 (fun c => { c with linkDown := true })).imgs[k].dcPresent = false) ∧
      (camOn 0 (fun c => { c with dcPresent := true })).imgs[(0 : ImgId)].dcPresent = true ∧ (camOn 0 id).imgs[(0 : ImgId)].dcPresent = false ∧
      camCfg (camOn 0 (fun c => { c with linkDown := true })).imgs[(0 : ImgId)] = some (camRec 0) ∧
      (camOn 0 (fun c => { c with evtCount := 8 })).imgs[(0 : ImgId)].evtSecond = now (camOn 0 id) / 1000000000 ∧
      (camOn 0 (fun c => { c with evtSecond := 1 })).imgs[(0 : ImgId)].evtSecond ≠ now (camOn 0 id) / 1000000000 := by decide

/-- Encoder 0 stands below a multiple of its divisor. -/
def encAt (pos high : BitVec 64) : State := updEnc up 0 (fun e => { e with position := pos, high := high, div := 4 })

theorem witness_EncodersCountAndTakeTheirSettings_a :
    up.glb.phase = .up ∧ EncMove.aLeads ≠ .illegal ∧ ((6 : BitVec 64) = (encAt 5 5).encs[(0 : EncId)].position + 1) ∧
      ((8 : BitVec 64)).toInt % ((encAt 7 7).encs[(0 : EncId)].div : Int) = 0 ∧ (encAt 7 7).encs[(0 : EncId)].high.toInt < (8 : BitVec 64).toInt ∧
      ((6 : BitVec 64)).toInt % ((encAt 5 5).encs[(0 : EncId)].div : Int) ≠ 0 ∧ (encAt 5 5).encs[(0 : EncId)].high.toInt < (6 : BitVec 64).toInt ∧
      (6 : BitVec 64).toInt ≤ (encAt 5 6).encs[(0 : EncId)].high.toInt ∧ setOpen .a false up.encs[(0 : EncId)] = up.encs[(0 : EncId)] ∧
      setOpen .a true up.encs[(0 : EncId)] ≠ up.encs[(0 : EncId)] := by decide

theorem witness_EncodersCountAndTakeTheirSettings_b :
    2 ≤ (2 : Word).toNat ∧ (1 : Word).toNat < 2 ∧ (0 : Word).toNat = 0 ∧ 65536 < (65537 : Word).toNat ∧ 1 ≤ (1 : Word).toNat ∧
      (65536 : Word).toNat ≤ 65536 ∧ encClaimed up 0 = false ∧ encClaimed (camOn 0 id) 0 = true := by decide

theorem witness_HostReadsLatchPairsAndWritesFollowAccessTypes :
    up.glb.phase = .up ∧ (0x808 : Nat) % 4 = 0 ∧ pairAt up 0x808 = some 0 ∧ (1 : Nat) % 4 ≠ 0 ∧ (1 : Nat) % 1 = 0 ∧ (2 : Nat) % 2 = 0 ∧
      (3 : Nat) % 2 ≠ 0 ∧ (2 : Nat) ≠ 4 ∧ (127 : Word).toNat < 128 ∧ 128 ≤ (128 : Word).toNat ∧
      (31 : Word).toNat < 32 ∧ 32 ≤ (32 : Word).toNat ∧ up.exps[(0 : PartId)].run = false ∧
      (onExp (fun e => { e with run := true })).exps[(0 : PartId)].run = true := by decide

/-- Sound port 0 of P0, a slave with an input slot and an output slot. -/
def sndRec (master common : Bool) : SndPortRec := { master := master, commonStart := common, align := 255, frameRate := 48000, inMask := 1, outMask := 1, ramp := 4 }

def snd (r : SndPortRec) (f : Snd → Snd) : State := updSnd (runs {}) 0 (fun c => f { c with owner := some 0, cfg := some r })

theorem witness_SoundPortsStartRelockAndStop_a :
    (snd (sndRec false false) id).glb.phase = .up ∧ (snd (sndRec false false) id).snds[(0 : SndId)].cfg = some (sndRec false false) ∧
      (sndRec true false).master = true ∧ (sndRec false false).master = false ∧
      (snd (sndRec false false) (fun c => { c with clockLost := true })).snds[(0 : SndId)].clockLost = true ∧
      started (snd (sndRec false false) id).snds[(0 : SndId)] = false ∧
      started (snd (sndRec false false) (fun c => { c with phase := .running, clockLost := true })).snds[(0 : SndId)] = true ∧
      (snd (sndRec false false) (fun c => { c with phase := .running, rateError := true })).snds[(0 : SndId)].rateError = true ∧
      (snd (sndRec false false) id).snds[(0 : SndId)].clockLost = false ∧ (snd (sndRec false false) id).snds[(0 : SndId)].rateError = false ∧
      (snd (sndRec false false) (fun c => { c with clockOk := true, phase := .silent })).snds[(0 : SndId)].clockOk = true := by decide

theorem witness_SoundPortsStartRelockAndStop_b :
    (snd (sndRec true true) (fun c => { c with phase := .waitT0 })).snds[(0 : SndId)].owner = some 0 ∧
      (snd (sndRec true true) (fun c => { c with phase := .waitT0 })).snds[(0 : SndId)].phase = .waitT0 ∧ (sndRec true true).commonStart = true ∧
      (∀ d : SndId, (snd (sndRec true true) (fun c => { c with phase := .waitT0 })).snds[d].phase ≠ .silent) ∧
      (updSnd (snd (sndRec true true) (fun c => { c with phase := .waitT0 })) 1 (fun c =>
        { c with owner := some 0, cfg := some (sndRec true true), phase := .silent })).snds[(1 : SndId)].phase = .silent ∧
      (snd (sndRec true true) (fun c => { c with phase := .stopping })).snds[(0 : SndId)].phase = .stopping ∧ (1 : SndId) ≠ 0 := by decide

theorem witness_SoundFramesFillBlocksOfSixteen :
    (snd (sndRec false false) (fun c => { c with phase := .running })).glb.phase = .up ∧
      (snd (sndRec false false) (fun c => { c with phase := .running })).snds[(0 : SndId)].phase = .running ∧
      (snd (sndRec false false) (fun c => { c with phase := .running })).snds[(0 : SndId)].owner = some 0 ∧ (sndRec false false).align = 255 ∧
      (FrameSync.good = .rateError → (sndRec false false).master = true) ∧ (sndRec false false).inMask ≠ 0 ∧
      (snd (sndRec false false) (fun c => { c with phase := .running })).parts[(0 : PartId)].active = some {} ∧
      started (snd (sndRec false false) (fun c => { c with phase := .silent })).snds[(0 : SndId)] = true ∧
      ((0 : SndId), sndRec false false) ∈ sndMembers (snd (sndRec false false) (fun c => { c with phase := .running })) 0 (sndRec false false) := by decide

/-- It runs with its clock, at its play frame 4. -/
def plays (ok under : Bool) (out : List (Nat × List (BitVec 24))) : State :=
  snd (sndRec false false) (fun c => { c with phase := .running, clockOk := ok, underrun := under, playFrame := 4, outSamples := out })

theorem witness_OutputsCheckEachFrameOnce :
    (plays true false []).glb.phase = .up ∧ (fabricSlots (activeImage (plays true false []) 0) (sndRec false false)).length = 1 ∧
      (plays true false []).snds[(0 : SndId)].phase = .running ∧ (plays true false []).snds[(0 : SndId)].clockOk = true ∧
      (plays false false []).snds[(0 : SndId)].clockOk = false ∧ (plays true false []).snds[(0 : SndId)].rampLeft = 0 ∧
      (snd (sndRec false false) (fun c => { c with playFrame := 3 })).snds[(0 : SndId)].playFrame < (sndRec false false).ramp ∧
      (plays true false [(4, [])]).snds[(0 : SndId)].outSamples.any (fun z => z.1 = (plays true false [(4, [])]).snds[(0 : SndId)].playFrame) = true ∧
      (plays true true []).snds[(0 : SndId)].outSamples.any (fun z => z.1 = (plays true true []).snds[(0 : SndId)].playFrame) = false := by decide

/-! ### Witnesses: export -/

theorem witness_PagesCloseAndAreDeliveredInOrder :
    up.glb.phase = .up ∧ (onExp (fun e => { e with opened := some { recs := [.fault 0 {} 0 0 0 0 0] } })).exps[(0 : PartId)].opened.isSome = true ∧
      now (atTime 99999 up) < 0 + 100000 ∧ 0 + 100000 ≤ now (atTime 100000 up) ∧ up.exps[(0 : PartId)].opened = none ∧
      (onExp (fun e => { e with holdoffOn := true, holdoff := 1 })).exps[(0 : PartId)].holdoff = 1 ∧ now (atTime 999 up) < 0 + 1000 * 1 ∧
      0 + 1000 * 1 ≤ now (atTime 1000 up) ∧
      up.exps[(0 : PartId)].writing = false ∧ (onExp (fun e => { e with writing := true, closed := [{ seq := some 5 }] })).exps[(0 : PartId)].writing = true ∧
      (onExp (fun e => { e with writing := true, closed := [{ seq := some 5 }] })).exps[(0 : PartId)].closed = [{ seq := some 5 }] ∧
      (onExp (fun e => { e with tailWb := true })).exps[(0 : PartId)].tailWb = true ∧
      (onExp (fun e => { e with holdoffOn := true, advanced := true })).exps[(0 : PartId)].holdoffOn = true ∧
      (onExp (fun e => { e with holdoffOn := true, advanced := true })).exps[(0 : PartId)].advanced = true ∧ up.exps[(0 : PartId)].holdoffOn = false := by
  decide

/-- A ring of the smallest size, with its tail ahead of its head. -/
def ring : State := onExp (fun e => { e with pages := 2, base := 4096, tail := 3 })

theorem witness_RingsFollowTheHostAndItsLink :
    ring.glb.phase = .up ∧ 4 ≤ (4 : Word).toNat ∧ (3 : Word).toNat < 4 ∧ (3 : Word).getLsbD 0 = true ∧ ringOk up.exps[(0 : PartId)] = false ∧
      ringOk ring.exps[(0 : PartId)] = true ∧ ringOk (onExp (fun e => { e with pages := 17, base := 4096 })).exps[(0 : PartId)] = false ∧
      ring.exps[(0 : PartId)].run = false ∧ tailAhead ring.exps[(0 : PartId)] ≠ 0 ∧ ring.exps[(0 : PartId)].holdoffOn = false ∧
      ((3 : Word) - ring.exps[(0 : PartId)].head).toNat ≤ tailAhead ring.exps[(0 : PartId)] ∧
      tailAhead ring.exps[(0 : PartId)] < ((4 : Word) - ring.exps[(0 : PartId)].head).toNat ∧ ring.glb.linkUp = false ∧ (2 : Word).getLsbD 0 = false ∧
      ({ ring with glb := { ring.glb with linkUp := true } } : State).glb.linkUp = true := by decide

/-- P0 runs and has decided the window at line 0, column 0. -/
def decided (streams : List Nat) (crops : List Crop) : State :=
  updExp (runs {}) 0 (fun e => { e with recent := [{ streams := streams }], crops := crops })

theorem witness_CropsMeetTheirRecordsOrAreDropped :
    (decided [] []).glb.phase = .up ∧ (decided [] []).parts[(0 : PartId)].active = some {} ∧ isServing (decided [] []).parts[(0 : PartId)].state = true ∧
      (readCrop 0 []).stream = 0 ∧ ((decided [] []).exps[(0 : PartId)].crops.map cropSize).sum + cropSize (readCrop 0 []) ≤ 262144 ∧
      262144 < ((decided [] [{ w := 1024, h := 256 }]).exps[(0 : PartId)].crops.map cropSize).sum + cropSize (readCrop 0 []) ∧
      (runs {}).exps[(0 : PartId)].recent.all (fun v => !cropMatches (readCrop 0 []) v) = true ∧
      (decided [] []).exps[(0 : PartId)].recent.find? (cropMatches (readCrop 0 [])) = some { streams := [] } ∧
      (decided [0] []).exps[(0 : PartId)].recent.find? (cropMatches (readCrop 0 [])) = some { streams := [0] } ∧
      (decided [] [{}]).exps[(0 : PartId)].crops = [{}] ∧ now (atTime 1000000 up) ≤ ({} : Crop).arrived + 1000000 ∧
      ({} : Crop).arrived + 1000000 < now (atTime 1000001 up) ∧ (decided [] []).exps[(0 : PartId)].crops = [] := by decide

/-! ### Witnesses: spans -/

/-- A frame that carries SEQ n and nothing else. -/
def frame (n : Nat) : List Byte := let b := zeros 2 ++ leBytes 2 n ++ zeros 58; b ++ leBytes 2 (crc16 b)

theorem witness_SpanFramesAreAcceptedInOrder_a :
    up.glb.phase = .up ∧ (getSpn up .spa).linkUp = false ∧ (getSpn (onSpa (fun x => { x with linkUp := true })) .spa).linkUp = true ∧
      leAt (frame 0) 2 2 = (getSpn up .spa).rxNext ∧ leAt (frame 65535) 2 2 = 65535 ∧ leAt (frame 1) 2 2 ≠ (getSpn up .spa).rxNext ∧
      frameCrcOk [] = false := by decide +kernel

theorem witness_SpanFramesAreAcceptedInOrder_b : frameCrcOk (frame 0) = true ∧ frameCrcOk (frame 65535) = true := by decide +kernel

/-- A span piece at a position of a span of two units. -/
def piece (pos : Nat) : Image := imageOf (.span { id := 9, units := 2, position := pos, spa := 0 < pos, spb := pos = 0 })

/-- P0 runs a span piece over a link. -/
def spanRuns (q : SpanPort) (pos : Nat) : State := updSpn (runs (piece pos)) q (fun x => { x with linkUp := true, owner := some 0 })

/-- P0 waits for its rendezvous. -/
def spanWaits (q : SpanPort) (pos : Nat) : State :=
  updSpn (onPart (fun x => { x with state := .spanWait, load := some { image := piece pos, phase := .spanWait } })) q
    (fun x => { x with linkUp := true, owner := some 0 })

theorem witness_SpanFramesAreAcceptedInOrder_c :
    runningPiece (spanRuns .spa 1) .spa = some (0, { id := 9, units := 2, position := 1, spa := true, spb := false }) := by decide

theorem witness_SpanLinksComeUpSendAndAreLost :
    up.glb.phase = .up ∧ (getSpn up .spa).linkUp = false ∧ (getSpn (spanWaits .spa 1) .spa).linkUp = true ∧ (getSpn (spanWaits .spa 1) .spa).sendQ = [] ∧
      (getSpn (spanWaits .spa 1) .spa).unacked.length < 1024 ∧ (spanWaits .spa 1).parts[(0 : PartId)].state = .spanWait ∧
      (spanWaits .spa 1).parts[(0 : PartId)].load = some { image := piece 1, phase := .spanWait } ∧ (imgSpan (piece 1)).isSome = true ∧
      (getSpn (spanWaits .spa 1) .spa).owner = some 0 ∧ up.parts[(0 : PartId)].state ≠ .spanWait ∧
      runningPiece (onSpa (fun x => { x with linkUp := true })) .spa = none ∧ (runningPiece (spanRuns .spa 1) .spa).isSome = true ∧
      (spanRuns .spa 1).parts[(0 : PartId)].state = .running := by decide

theorem witness_SpanMessagesFormAndEndASpan_a :
    (spanWaits .spa 1).glb.phase = .up ∧ (getSpn up .spa).helloAt = none ∧ (getSpn (onSpa (fun x => { x with helloAt := some 0 })) .spa).helloAt.isSome = true ∧
      (getSpn (onSpa (fun x => { x with helloAt := some 0 })) .spa).peer ≠ some 3 ∧
      waitingPiece (spanWaits .spa 1) .spa = some (0, { id := 9, units := 2, position := 1, spa := true, spb := false }) ∧
      (spanWaits .spa 1).parts[(0 : PartId)].load = some { image := piece 1, phase := .spanWait } ∧
      (0 : Nat) + 1 = 1 + 0 ∧ (spanWaits .spa 1).parts[(0 : PartId)].span.dready = false ∧ (spanWaits .spa 1).pwr.resReady = false ∧
      waitingPiece (spanWaits .spb 0) .spb = some (0, { id := 9, units := 2, position := 0, spa := false, spb := true }) ∧
      (1 : Nat) + 0 = 0 + 1 ∧ (spanWaits .spb 0).parts[(0 : PartId)].span.due = false ∧
      (spanWaits .spb 0).parts[(0 : PartId)].flow.lupin = none := by decide

theorem witness_SpanMessagesFormAndEndASpan_b :
    runningPiece (spanRuns .spb 0) .spb = some (0, { id := 9, units := 2, position := 0, spa := false, spb := true }) ∧
      (spanRuns .spb 0).parts[(0 : PartId)].state = .running ∧ (8 : BitVec 64) ≠ 9 ∧
      (updPart (spanRuns .spb 0) 0 (fun x => { x with state := .draining })).parts[(0 : PartId)].state ≠ .running := by decide

/-! ### Witnesses: the census -/

/-- P0 runs in region 0 with a census. -/
def counted (c : Census) : State :=
  updPart (runs {}) 0 (fun x => { x with placement := some { pieces := [⟨0, 0, .endForm⟩] }, census := c })

theorem witness_CensusesLatchTogetherAndReportAllEntries :
    (counted {}).glb.phase = .up ∧ (0 : Word) ≠ 1 ∧ isServing up.parts[(0 : PartId)].state = false ∧ isServing (counted {}).parts[(0 : PartId)].state = true ∧
      (counted {}).parts[(0 : PartId)].census.run = none ∧ (counted { run := some {} }).parts[(0 : PartId)].census.run = some {} ∧
      ({} : CensusRun).latched = false ∧ ({ latched := true } : CensusRun).latched = true ∧ 3600 < (3601 : Word).toNat ∧ (3600 : Word).toNat ≤ 3600 ∧
      (counted {}).parts[(0 : PartId)].census.nextPeriodic = none ∧ (counted { nextPeriodic := some 16 }).parts[(0 : PartId)].census.nextPeriodic = some 16 ∧
      (counted {}).parts[(0 : PartId)].active = some {} ∧ (counted {}).parts[(0 : PartId)].placement = some { pieces := [⟨0, 0, .endForm⟩] } ∧
      (∀ u ∈ censusTicks { run := some { tick := 16 } }, now (counted {}) < u) ∧ ({} : CensusRun).tick ≤ now (counted {}) ∧
      16 ≤ now (atTime 16 (counted { nextPeriodic := some 16 })) ∧
      tileRegion 0 ∈ placedRegions { pieces := [⟨0, 0, .endForm⟩] } ∧ tileRegion 120 ∉ placedRegions { pieces := [⟨0, 0, .endForm⟩] } ∧
      (counted { run := some { latched := true }, queued := true }).parts[(0 : PartId)].census.queued = true ∧ (1 : PartId) ≠ 0 := by decide

theorem witness_CensusesLatchTogetherAndReportAllEntries_records :
    ∃ t, exec (.censusCollected 0) (counted { run := some { latched := true, image := imageOf (.censusMap [{ opcode := 1, number := 1 }]) } }) = .next t ∧
      t.parts[(0 : PartId)].census.records[0]?.isSome = true := next_with _ _ (by decide +kernel)

/-- States that meet the conditions of several of its clauses; the others' are those of the statements on the same commands. -/
theorem witness_CommandsCompleteWithTheirEffect :
    up.bays[(0 : BayId)].presence = .absent ∧ cmdOut (inUse [] 0) 0 (nvmeRead 2 0 1) = true ∧ nvmeRead 2 0 1 ∉ (inUse [] 0).bays[(0 : BayId)].retried ∧
      (updFlow offered 0 (fun f => { f with lupin := some 1 })).parts[(0 : PartId)].flow.lupin.isSome = true ∧
      isServing (handedOver [1]).parts[(1 : PartId)].state = false ∧ (releasing 2).parts[(0 : PartId)].load = some {} ∧
      drainedOut (draining .unload []) 0 = true ∧ (draining .unload []).sup.activating = false ∧
      (updFlow up 0 (fun f => { f with scrub := some .toEmpty })).parts[(0 : PartId)].flow.scrub = some .toEmpty ∧
      tileInService tileRuns 0 = true ∧ storeOk tileRuns ∧ linkOpen tileRuns 0 .e = some true :=
  ⟨by decide, by decide, by decide, by decide, by decide, by decide, by decide, by decide, by decide, by decide, ⟨by decide, by decide⟩, by decide⟩

/-! ### Ill-formed commands, one for each check -/

theorem test_wf_tile : Instr.wf (.tileStep ⟨600, 0⟩ ⟨[], false⟩) = false ∧ Instr.wf (.flitReceived ⟨0, 480⟩ .loc 0 .clean) = false ∧
    Instr.wf (.creditFlitReceived ⟨600, 479⟩ .n 0) = false ∧ Instr.wf (.backgroundScrub ⟨599, 480⟩ ⟨.clean, .landed⟩) = false ∧
    Instr.wf (.backgroundScrub ⟨599, 479⟩ ⟨.clean, .landed⟩) = true ∧ Instr.wf (.tileStep ⟨0, 0⟩ ⟨[], false⟩) = true := by decide

theorem test_wf_loads : Instr.wf (.loadRecord 0 true [(⟨600, 0⟩, 0)]) = false ∧ Instr.wf (.loadRecord 0 true [(⟨0, 0⟩, 2048)]) = false ∧
    Instr.wf (.loadRecord 0 true [(⟨0, 0⟩, 2047)]) = true ∧ Instr.wf (.chunkDecrypted 0 [] []) = false ∧
    Instr.wf (.chunkDecrypted 0 [] (zeros 16)) = true ∧ Instr.wf (.bayPowerGood 0 ⟨[], []⟩) = false ∧
    Instr.wf (.bayPowerGood 0 ⟨zeros 32, []⟩) = true := by decide

/-- Findings that name a silent tile and an edge. -/
def finds (t : Nat × Nat) (d : Dir) (row col : Nat) : WaferFindings :=
  ⟨[(0, ⟨[t], [(t, .n)], [t], [row], [col]⟩)], [⟨0, d, []⟩], [], [], [], []⟩

theorem test_wf_findings : Instr.wf (.inFieldRetestDone 0 (finds (64, 0) .e 0 0) false) = false ∧
    Instr.wf (.inFieldRetestDone 0 (finds (0, 64) .e 0 0) false) = false ∧ Instr.wf (.inFieldRetestDone 0 (finds (0, 0) .n 0 0) false) = false ∧
    Instr.wf (.inFieldRetestDone 0 (finds (0, 0) .s 64 0) false) = false ∧ Instr.wf (.inFieldRetestDone 0 (finds (0, 0) .s 0 64) false) = false ∧
    Instr.wf (.inFieldRetestDone 0 (finds (63, 63) .s 63 63) false) = true := by decide

/-- A cartridge that boots in a bay. -/
def boots (b : BayId) : CartBoot := { bay := b, linkWidth := 4, linkGen := 4, identity := identity 1 [], nvme := nvme [], load := ⟨[]⟩ }

theorem test_wf_powerUp : Instr.wf (.unitPowerUp { quietPowerUp with findings := finds (64, 0) .e 0 0 }) = false ∧
    Instr.wf (.unitPowerUp { quietPowerUp with bays := [boots 1, boots 1] }) = false ∧
    Instr.wf (.unitPowerUp { quietPowerUp with bays := [boots 1, boots 2] }) = true := by decide

theorem test_wf_ports : Instr.wf (.cxpLineReceived 0 [65536] true .awaited) = false ∧ Instr.wf (.cxpImageHeader 0 65536 0 none) = false ∧
    Instr.wf (.cxpImageHeader 0 0 65536 none) = false ∧ Instr.wf (.imgEvent 0 65536 []) = false ∧
    Instr.wf (.soundFrame 0 (List.replicate 33 0) .good 0) = false := by decide

theorem test_wf_messages : Instr.wf (.ready .spa 256 2 true 0) = false ∧ Instr.wf (.ready .spa 0 256 true 0) = false ∧
    Instr.wf (.abort .spa 256 0) = false ∧ Instr.wf (.detectionWindowExpiry 0 4096) = false := by decide

theorem test_wf_host : Instr.wf (.hostLinkUp 16 0) = false ∧ Instr.wf (.hostLinkUp 0 16) = false ∧ Instr.wf (.loRegisterRead ⟨0, 3⟩) = false ∧
    Instr.wf (.loRegisterRead ⟨0x100000, 4⟩) = false ∧ Instr.wf (.registerWrite ⟨0x100000, 4⟩ 0) = false ∧ Instr.wf (.registerWrite ⟨0xFFFFC, 4⟩ 0) = true := by
  decide

/-! ### Worked cases of the spec -/

/-- "Locating a tile", file 00: tile (437, 250) lies in site 7.4 and in PG13. -/
theorem test_locatingTile : tileRegion (tileKey 437 250) = 13 ∧ siteRegion 47 = 13 := by decide

/-- "Repairing site 3.2", R35. -/
theorem test_repairSite : cover [(61, 2), (12, 7), (30, 7), (47, 7), (5, 10), (61, 18), (20, 33), (5, 40), (5, 51), (5, 60), (5, 63)] 8 [] [] =
    some ([18, 10, 7, 2], [5, 20]) ∧ fillFour [5, 20] = [5, 20, 62, 63] ∧ fillFour [18, 10, 7, 2] = [2, 7, 10, 18] := by decide +kernel

/-- The same case, R27: with those rows and columns skipped physical tile (6, 12) is logical tile (185, 129); R29: it is the physical tile
of the same logical edge row as the site's west edge tile of row 9. -/
theorem test_siteMap : logicalOf ([2, 7, 10, 18], [5, 20, 62, 63]) 23 6 12 = some (185, 129) ∧
    logicalOf ([2, 7, 10, 18], [5, 20, 62, 63]) 23 5 12 = none ∧ physicalOf ([2, 7, 10, 18], [5, 20, 62, 63]) 5 9 = some (6, 12) ∧
    edgeTile ([2, 7, 10, 18], [5, 20, 62, 63]) .w 9 = some (0, 12) ∧ edgeTile ([2, 7, 10, 18], [5, 20, 62, 63]) .e 9 = some (61, 12) := by decide

/-- "Encoding a data byte", R55: 0xB4 raises wires 0, 5, 11 and 14. -/
theorem test_encodeByte : (encodeWires 0xB4).toNat % 2 ^ 16 = 2 ^ 0 + 2 ^ 5 + 2 ^ 11 + 2 ^ 14 := by decide +kernel

/-- "One integer step", R80, R81: activation 13 against S4 weights 0x3, 0xE, 0x8, 0x7. -/
theorem test_integerStep : (List.map (fun c => (laneStep true (buildTable 13) 0 false 3 c {}).1.bits.toInt) [0x3, 0xE, 0x8, 0x7]) =
    [39, -26, -104, 91] := by decide +kernel

/-- The half-rate weight of the same case: S8 0x9C gives -1,300. -/
theorem test_halfRateWeight : (laneStep true (buildTable 13) 0 false 1 0x9C {}).1.bits.toInt = -1300 := by decide +kernel

/-- "A float lane": FP16 1.375 against E2M1 1.11.1 gives -8.25. -/
theorem test_floatLane : (splitAct 10 0x3D80).operand = 1408 ∧ (splitAct 10 0x3D80).exp = -10 ∧
    (laneStep false (buildTable 1408) (-10) false 6 0xF {}).1.bits = 0xC1040000 := by decide +kernel

/-- R81: a T2 code of 10 counts a reserved code, an E5M2 infinity an overflow. -/
theorem test_reservedWeights : (laneStep true (buildTable 13) 0 false 4 2 {}).2 = (0, 1) ∧ (laneStep false (buildTable 1) 0 false 9 0x7C {}).2 = (1, 0) := by
  decide +kernel

/-- "Decoding an E3M2 weight", R111: 0x37 selects -T[7]. -/
theorem test_e3m2Weight : decodeWeight 7 0x37 = .sel ⟨7, true, 0⟩ := by decide

/-- "Conversions at step 5", R120: 13.5, 455, 470, -0.003 (as A32), 1,000, 70,000, 3 x 2^-128, 200.5, 255.5, -4.2 (as A32), NaN. -/
theorem test_conversions : [convert (.num false 27 (-1)) 8, convert (intV 455) 8, convert (intV 470) 8, convert (a32Val 0xBB449BA6) 8,
    convert (intV 1000) 9, convert (intV 70000) 10, convert (.num false 3 (-128)) 11, convert (.num false 401 (-1)) 0, convert (.num false 511 (-1)) 0,
    convert (a32Val 0xC0866666) 0, convert .nan 1] =
    [(0x56, 0), (0x7E, 0), (0x7E, 1), (0x82, 0), (0x64, 0), (0x7BFF, 1), (0, 0), (0xC8, 0), (0xFF, 1), (0, 1), (0, 1)] := by decide +kernel

/-- "One element through the integer path", R86, R87: V 22,912, SE8 0x77, bias -12, ReLU, U8 gives 78. -/
theorem test_integerPath : outInt [1, 0, 3, 0, 0, 1, 1] 22912 (addSe8 {} 0x77) (some (-12)) = (78, 0) := by decide +kernel

/-- "An FP16 scale rounds once", R127: V 1,234,567 times FP16 0x2E66 is 123,426.5625, and in BF16 0x47F1. -/
theorem test_fp16Scale : a32Of (mulV (intV 1234567) (fp16Scale 0x2E66).1) = ((a32Of (.num false 2022220800 (-14))).1, false) ∧
    convert (.num false 2022220800 (-14)) 11 = (0x47F1, 0) := by decide +kernel

/-- "Why the order is fixed", R131: 2^24 + 1 + 1 is 2^24, and 2^24 + 2 is exact. -/
theorem test_additionOrder : let a : Acc := { bits := 0x4B800000 }
    (accFloat (accFloat a (intV 1)).1 (intV 1)).1 = a ∧ (accFloat a (intV 2)).1.bits = 0x4B800001 := by decide +kernel

/-- "A candidate pair through NMS", R171, R172: B is kept at t = 4 and suppressed at t = 3. -/
theorem test_nmsPair : suppresses 4 ⟨10, 10, 49, 49⟩ ⟨30, 20, 69, 59⟩ = false ∧ suppresses 3 ⟨10, 10, 49, 49⟩ ⟨30, 20, 69, 59⟩ = true := by decide

/-- "Companding one pixel", R182, and "a Mono12 pixel uncompanded", R325: 1,500 gives 0xCE, or 0x05 and 0xDC. -/
theorem test_companding : compand 1500 = 0xCE ∧ pixelElems { camRec 0 with pixelFormat := 2, compand := true } 1500 = [0xCE] ∧
    pixelElems { camRec 0 with pixelFormat := 2 } 1500 = [0x05, 0xDC] := by decide

/-- "Narrowing", R186: 1,000 is carried as 0x64. -/
theorem test_narrowing : convert (decodeElem 10 (fp16Of 1000)) 9 = (0x64, 0) := by decide +kernel

/-- "Windows of Line 4", R332: column 200 of STAGGER 3, 1 and height 128 has offset 66. -/
theorem test_staggerOffset : colOffset { camRec 0 with winH := 128, stagA := 3, stagB := 1 } 200 = 66 := by decide

/-- "Placing Line 4", R201: pieces on PG00-PG04 and PG09 take codes 1 and 2, straight, corner-right and end. -/
theorem test_placeLine4 : (derive (List.replicate 6 (1, 15)) false [0, 1, 2, 3, 4, 9]).map (List.map (fun x => (x.code, x.form))) =
    some [(1, .straight), (1, .straight), (1, .straight), (1, .straight), (1, .cornerRight), (2, .endForm)] ∧
    pieceTile ⟨2, 1, .straight⟩ 12 59 = tileKey 300 12 := by decide

/-- "Reading P0's placement", R486: PRT_PLACE, PRT_PATH0, PRT_PATH1, PRT_PIECE0, PRT_PIECE1. -/
theorem test_placementRegisters :
    let s := updPart up 0 (fun x => { x with placement := some { pieces := [⟨0, 1, .straight⟩, ⟨1, 1, .straight⟩, ⟨2, 1, .straight⟩,
      ⟨3, 1, .straight⟩, ⟨4, 1, .cornerRight⟩, ⟨9, 2, .endForm⟩] } })
    [0x2020, 0x2024, 0x2028, 0x2038, 0x203C].map (fun a => match exec (.loRegisterRead ⟨a, 4⟩) s with | .next t => t.glb.readData | _ => 0) =
      [0x00000006, 0x03020100, 0xFFFF0904, 0x81818181, 0x00009A89] := by decide +kernel

/-- "An apply that breaks a relation", R283: t_off at most t_on. -/
theorem test_applyRelation :
    let t : List TunEntry := [{ id := 0, format := 1, min := 0x3800, max := 0x3BD7 }, { id := 1, format := 1, min := 0x3800, max := 0x3BD7 }]
    let r : List RelEntry := [{ a := 1, b := 0 }]
    shadowOk t r [0x38CD, 0x3900] = false ∧ shadowOk t r [0x38CD, 0x3866] = true := by decide +kernel

/-- "One verdict record of P0", R391, R392. -/
theorem test_verdictRecord : recBytes (.verdict 1 3 2 0x3B00 200 1066 2 0 1234567 3012 0x04E93C7A1F00) =
    [0x01, 0x01, 0x03, 0x02, 0x00, 0x3B, 0xC8, 0x00, 0x2A, 0x04, 0x00, 0x00, 0x02, 0x00, 0x00, 0x00,
     0x87, 0xD6, 0x12, 0x00, 0xC4, 0x0B, 0x00, 0x00, 0x00, 0x1F, 0x7A, 0x3C, 0xE9, 0x04, 0x00, 0x00] := by decide +kernel

/-- The check values of R241 and R410 over "123456789". -/
theorem test_checkCodes : crc8 [0x31, 0x32, 0x33, 0x34, 0x35, 0x36, 0x37, 0x38, 0x39] = 0xF4 ∧
    crc16 [0x31, 0x32, 0x33, 0x34, 0x35, 0x36, 0x37, 0x38, 0x39] = 0x29B1 := by decide +kernel

/-- R242: an ID as 16 upper-case hex digits, C4A1... -/
theorem test_idText : (idText 0xC4A119F077D203B6).take 4 = [0x43, 0x34, 0x41, 0x31] ∧ (idText 0xC4A119F077D203B6).length = 16 := by decide

/-- R129: SE8 emission of 0, 1.5, 1.25. -/
theorem test_se8 : toSe8 (intV 0) = (0, 1) ∧ toSe8 (.num false 3 (-1)) = (128, 0) ∧ toSe8 (.num false 5 (-2)) = (127, 0) := by decide

/-- R289 from reset: the unit comes up, locked, with POWER_ON 1. -/
theorem test_powerUp : ∃ t, step { State.reset with pending := [.unitPowerUp quietPowerUp] } = .next t ∧
    (t.glb.phase = .up ∧ t.tbs.locked = true ∧ t.glb.powerOn = 1 ∧ t.pending = []) := next_with _ _ (by decide +kernel)

end Sys2Proof.Tests
end

