-- ==== Sys2Proof/Proofs/WireCode.lean ====
section
/-! The 1-of-4 code (R55), group by group: the encoder writes one hexadecimal digit a group, `2 ^ v` for the group's value `v`, and the
decoder reads the digits back. What the decoder accepts is said once, in `decodeWires_eq_some_iff`, and O15 follows from it. -/

namespace Sys2Proof.Machine

/-! ### Digits of a number -/

/-- What is added from digit `n` on leaves the digits below `n` as they are. -/
theorem digit_add_mul_pow {b g n : Nat} (a c : Nat) (hb : 0 < b) (hg : g < n) : (a + c * b ^ n) / b ^ g % b = a / b ^ g % b := by
  obtain ⟨k, rfl⟩ : ∃ k, n = g + (k + 1) := ⟨n - g - 1, by omega⟩
  have hsplit : c * b ^ (g + (k + 1)) = b ^ g * (b * (c * b ^ k)) := by ring
  rw [hsplit, Nat.add_mul_div_left _ _ (Nat.pow_pos hb), Nat.add_mul_mod_self_left]

/-- The digits from `n` on of such a sum spell `c`. -/
theorem digit_add_mul_pow_self {b n a : Nat} (c : Nat) (ha : a < b ^ n) : (a + c * b ^ n) / b ^ n = c := by
  rw [Nat.add_mul_div_right _ _ (Nat.zero_lt_of_lt ha), Nat.div_eq_of_lt ha, Nat.zero_add]

/-- Wire `4 g + v` is bit `v` of group `g`. -/
theorem getLsbD_four_mul_add (w : Wires) (g v : Nat) (hv : v < 4) : w.getLsbD (4 * g + v) = (w.toNat / 16 ^ g % 16).testBit v := by
  have hpow : 16 ^ g = 2 ^ (4 * g) := by rw [pow_mul]; norm_num
  rw [hpow, show 16 = 2 ^ 4 from rfl, Nat.testBit_mod_two_pow, Nat.testBit_div_two_pow, BitVec.getLsbD, Nat.add_comm]
  simp [hv]

/-- Wires are determined by their 18 groups. -/
theorem wires_ext {w u : Wires} (h : ∀ g < 18, w.toNat / 16 ^ g % 16 = u.toNat / 16 ^ g % 16) : w = u := by
  refine BitVec.eq_of_getLsbD_eq fun i hi => ?_
  have hlow : i % 4 < 4 := Nat.mod_lt _ (by decide)
  rw [← Nat.div_add_mod i 4, getLsbD_four_mul_add w _ _ hlow, getLsbD_four_mul_add u _ _ hlow, h _ (by omega)]

/-! ### The encoder -/

/-- The first `n` groups of a flit's code, as `encodeWires` sums them. -/
def encodeGroups (f n : Nat) : Nat := ((List.range n).map (fun g => 2 ^ (4 * g + f / 4 ^ g % 4))).sum

theorem encodeGroups_succ (f n : Nat) : encodeGroups f (n + 1) = encodeGroups f n + 2 ^ (f / 4 ^ n % 4) * 16 ^ n := by
  have hpow : 2 ^ (4 * n + f / 4 ^ n % 4) = 2 ^ (f / 4 ^ n % 4) * 16 ^ n := by rw [pow_add, pow_mul, Nat.mul_comm]; norm_num
  simp [encodeGroups, List.range_succ, hpow]

theorem two_pow_groupValue_lt (x : Nat) : 2 ^ (x % 4) < 16 :=
  Nat.pow_lt_pow_right (a := 2) (n := 4) (by decide) (Nat.mod_lt x (by decide))

theorem encodeGroups_lt (f n : Nat) : encodeGroups f n < 16 ^ n := by
  induction n with
  | zero => simp [encodeGroups]
  | succ n ih =>
    have hgroup : (2 ^ (f / 4 ^ n % 4) + 1) * 16 ^ n ≤ 16 * 16 ^ n := Nat.mul_le_mul_right _ (two_pow_groupValue_lt _)
    rw [encodeGroups_succ, pow_succ]
    linarith

theorem encodeGroups_group (f : Nat) {g n : Nat} (hg : g < n) : encodeGroups f n / 16 ^ g % 16 = 2 ^ (f / 4 ^ g % 4) := by
  induction n with
  | zero => omega
  | succ n ih =>
    rw [encodeGroups_succ]
    obtain hlt | rfl := Nat.lt_succ_iff_lt_or_eq.mp hg
    · rw [digit_add_mul_pow _ _ (by decide) hlt, ih hlt]
    · rw [digit_add_mul_pow_self _ (encodeGroups_lt f g), Nat.mod_eq_of_lt (two_pow_groupValue_lt _)]

theorem encodeWires_toNat (f : Flit) : (encodeWires f).toNat = encodeGroups f.toNat 18 :=
  (BitVec.toNat_ofNat _ _).trans (Nat.mod_eq_of_lt (encodeGroups_lt f.toNat 18))

theorem encodeWires_group (f : Flit) {g : Nat} (hg : g < 18) : (encodeWires f).toNat / 16 ^ g % 16 = 2 ^ (f.toNat / 4 ^ g % 4) := by
  rw [encodeWires_toNat, encodeGroups_group _ hg]

/-! ### The decoder -/

theorem groupValue_eq_some_iff (n d : Nat) : groupValue n = some d ↔ d < 4 ∧ n = 2 ^ d := by
  constructor
  · intro h
    unfold groupValue at h
    split at h <;> cases h <;> decide
  · rintro ⟨hd, rfl⟩
    interval_cases d <;> rfl

theorem decodeGroups_succ_eq_some_iff (w n x : Nat) : decodeGroups w (n + 1) = some x ↔
    ∃ v d, decodeGroups w n = some v ∧ groupValue (w / 16 ^ n % 16) = some d ∧ v + d * 4 ^ n = x := by
  rw [decodeGroups]
  cases decodeGroups w n <;> cases groupValue (w / 16 ^ n % 16) <;> simp

/-- The decoder answers `x` when each group raises the one wire of its two bits of `x`. -/
theorem decodeGroups_eq_some_iff (w n x : Nat) :
    decodeGroups w n = some x ↔ x < 4 ^ n ∧ ∀ g < n, w / 16 ^ g % 16 = 2 ^ (x / 4 ^ g % 4) := by
  induction n generalizing x with
  | zero => simp [decodeGroups, eq_comm]
  | succ n ih =>
    simp only [decodeGroups_succ_eq_some_iff, ih, groupValue_eq_some_iff]
    constructor
    · rintro ⟨v, d, ⟨hv, hlow⟩, ⟨hd, htop⟩, rfl⟩
      have htopDigit : (v + d * 4 ^ n) / 4 ^ n = d := digit_add_mul_pow_self d hv
      refine ⟨?_, fun g hg => ?_⟩
      · rw [pow_succ', ← Nat.div_lt_iff_lt_mul (by positivity), htopDigit]
        exact hd
      · obtain hlt | rfl := Nat.lt_succ_iff_lt_or_eq.mp hg
        · rw [digit_add_mul_pow _ _ (by decide) hlt, hlow g hlt]
        · rw [htopDigit, Nat.mod_eq_of_lt hd, htop]
    · rintro ⟨hx, hgroups⟩
      have hsplit : x % 4 ^ n + x / 4 ^ n * 4 ^ n = x := Nat.mod_add_div' _ _
      have hd : x / 4 ^ n < 4 := Nat.div_lt_of_lt_mul (by rwa [← pow_succ])
      refine ⟨x % 4 ^ n, x / 4 ^ n, ⟨Nat.mod_lt _ (by positivity), fun g hg => ?_⟩, ⟨hd, ?_⟩, hsplit⟩
      · rw [← digit_add_mul_pow (x % 4 ^ n) (x / 4 ^ n) (by decide) hg, hsplit]
        exact hgroups g (by omega)
      · simpa [Nat.mod_eq_of_lt hd] using hgroups n (by omega)

theorem decodeWires_eq_some_iff (w : Wires) (f : Flit) :
    decodeWires w = some f ↔ ∀ g < 18, w.toNat / 16 ^ g % 16 = 2 ^ (f.toNat / 4 ^ g % 4) := by
  simp only [decodeWires, Option.map_eq_some_iff, decodeGroups_eq_some_iff]
  constructor
  · rintro ⟨x, ⟨hx, hgroups⟩, rfl⟩
    rwa [BitVec.toNat_ofNat, Nat.mod_eq_of_lt (by simpa using hx)]
  · exact fun hgroups => ⟨f.toNat, ⟨f.isLt, hgroups⟩, by simp⟩

/-! ### The round trip -/

theorem encodeWires_getLsbD (f : Flit) {g v : Nat} (hg : g < 18) (hv : v < 4) :
    (encodeWires f).getLsbD (4 * g + v) = decide (f.toNat / 4 ^ g % 4 = v) := by
  rw [getLsbD_four_mul_add _ _ _ hv, encodeWires_group f hg, Nat.testBit_two_pow]

theorem decodeWires_encodeWires (f : Flit) : decodeWires (encodeWires f) = some f :=
  (decodeWires_eq_some_iff _ _).mpr fun _ hg => encodeWires_group f hg

theorem eq_encodeWires_of_decodeWires {w : Wires} {f : Flit} (h : decodeWires w = some f) : w = encodeWires f :=
  wires_ext fun g hg => ((decodeWires_eq_some_iff w f).mp h g hg).trans (encodeWires_group f hg).symm

theorem decodeWires_eq_none_of_bad_group (w : Wires) (g : Fin 18) (hbad : ∀ v : Fin 4, w.toNat / 16 ^ g.val % 16 ≠ 2 ^ v.val) :
    decodeWires w = none := by
  refine Option.eq_none_iff_forall_ne_some.mpr fun f h => ?_
  exact hbad ⟨f.toNat / 4 ^ g.val % 4, Nat.mod_lt _ (by decide)⟩ ((decodeWires_eq_some_iff w f).mp h g g.isLt)

/-- Settles O15: each clause is read off what each group of the code holds and what the decoder accepts. -/
theorem wireCodesRoundTrip : Obligations.WireCodesRoundTrip :=
  ⟨fun f g v => encodeWires_getLsbD f g.isLt v.isLt, decodeWires_encodeWires, fun _ _ => eq_encodeWires_of_decodeWires,
    decodeWires_eq_none_of_bad_group⟩

end Sys2Proof.Machine
end

