-- ==== Sys2Proof/Proofs/Apply.lean ====
section
/-! APPLY (R283, R317-R319): what the command answers, one equation a branch, and from them O33. What every branch leaves unchanged is
`execApply_ends`; the equations add what the partition itself holds afterwards. -/

namespace Sys2Proof.Machine

/-! ### When an apply is taken up -/

theorem isServing_eq_false_iff (st : PState) : isServing st = false ↔ st ≠ .running ∧ st ≠ .staged ∧ st ≠ .draining := by
  simp [isServing, and_assoc]

theorem applyPending_iff (x : Partition) : applyPending x = true ↔ ∃ w ∈ x.flow.windows, w.gen ≠ x.tun.gen := by
  simp [applyPending]

theorem applyPending_eq_false_iff (x : Partition) : applyPending x = false ↔ ∀ w ∈ x.flow.windows, w.gen = x.tun.gen := by
  simp [applyPending]

/-- The values of image `i`'s tunables in a partition's shadow registers. -/
def shadowVals (x : Partition) (i : Image) : List Word := x.tun.shadow.toList.take (imgTunables i).1.length

/-! ### The branches of APPLY -/

/-- The result of an apply, an event of the partition. -/
def applyEvent (s : State) (p : PartId) (f : PrtRegs → PrtRegs) : State := irq (updPartRegs s p f) (partVector p)

theorem applyEvent_self (s : State) (p : PartId) (f : PrtRegs → PrtRegs) :
    (applyEvent s p f).parts[p] = { s.parts[p] with regs := f s.parts[p].regs } := by
  simp [applyEvent]

theorem applyEvent_other (s : State) (f : PrtRegs → PrtRegs) {p q : PartId} (hq : q ≠ p) :
    (applyEvent s p f).parts[q] = s.parts[q] := by
  simp [applyEvent, updPartRegs_other _ _ _ _ hq]

section Branches

variable {p : PartId} {v : Word} {s : State} {i : Image} (hup : s.glb.phase = .up)
include hup

theorem execApply_of_ne_one (hv : v ≠ 1) : execApply p v s = .next s := by
  rw [execApply, whenUp_of_up _ hup, if_pos hv]

theorem execApply_of_not_serving (hs : isServing s.parts[p].state = false) :
    execApply p 1 s = .next (applyEvent s p fun r => { r with applyErr := true }) := by
  cases hi : s.parts[p].active with
  | none =>
    simp only [execApply, whenUp_of_up _ hup, hi]
    rfl
  | some i =>
    simp only [execApply, whenUp_of_up _ hup, hi, hs]
    rfl

theorem execApply_of_pending (hs : isServing s.parts[p].state = true) (hi : s.parts[p].active = some i)
    (hpend : applyPending s.parts[p] = true) :
    execApply p 1 s = .next (applyEvent s p fun r => { r with applyBusy := true }) := by
  simp only [execApply, whenUp_of_up _ hup, hi, hs, hpend]
  rfl

theorem execApply_of_refused (hs : isServing s.parts[p].state = true) (hi : s.parts[p].active = some i)
    (hpend : applyPending s.parts[p] = false) (hbad : shadowOk (imgTunables i).1 (imgTunables i).2 (shadowVals s.parts[p] i) = false) :
    execApply p 1 s = .next (applyEvent s p fun r => { r with applyErr := true }) := by
  rw [shadowVals] at hbad
  simp only [execApply, whenUp_of_up _ hup, hi, hs, hpend, hbad]
  rfl

theorem execApply_of_accepted (hs : isServing s.parts[p].state = true) (hi : s.parts[p].active = some i)
    (hpend : applyPending s.parts[p] = false) (hok : shadowOk (imgTunables i).1 (imgTunables i).2 (shadowVals s.parts[p] i) = true)
    (hne : (imgTunables i).1 ≠ []) :
    execApply p 1 s = .next
      (updPart (applyEvent s p fun r => { r with applyDone := true }) p (newGeneration (shadowVals s.parts[p] i))) := by
  rw [shadowVals] at hok
  have hne' : (imgTunables i).1.isEmpty = false := by simpa using hne
  simp only [execApply, whenUp_of_up _ hup, hi, hs, hpend, hok, hne']
  rfl

end Branches

/-! ### What an apply leaves -/

/-- An apply that answers `t` touches the signals and the partitions alone. -/
theorem exec_apply_next {p : PartId} {s t : State} {x : Partition} (h : execApply p 1 s = .next t) (hx : t.parts[p] = x) :
    ∃ t, exec (.apply p 1) s = .next t ∧ Touch [.signals, .parts] s t ∧ t.parts[p] = x :=
  ⟨t, h, ((execApply_ends p 1 s).keeps h).touch, hx⟩

/-- Settles O33: each clause is one branch of APPLY, with the frame that every branch has. -/
theorem applyTakesTheWholeShadowSetOrNothing : Obligations.ApplyTakesTheWholeShadowSetOrNothing := by
  intro p s hup
  refine ⟨fun hstate => ?_, fun i hs hi hpend => ?_, fun i hs hi hsettled => ⟨fun hbad => ?_, fun hok hne => ?_⟩, fun v hv => ?_⟩
  · have h := execApply_of_not_serving hup ((isServing_eq_false_iff _).mpr hstate)
    exact ⟨_, h, ((execApply_ends p 1 s).keeps h).touch, applyEvent_self _ _ _, fun q hq => applyEvent_other _ _ hq⟩
  · exact exec_apply_next (execApply_of_pending hup hs hi ((applyPending_iff _).mpr hpend)) (applyEvent_self _ _ _)
  · exact exec_apply_next (execApply_of_refused hup hs hi ((applyPending_eq_false_iff _).mpr hsettled) hbad) (applyEvent_self _ _ _)
  · refine exec_apply_next (execApply_of_accepted hup hs hi ((applyPending_eq_false_iff _).mpr hsettled) hok hne) ?_
    simp [applyEvent, newGeneration, shadowVals]
  · exact execApply_of_ne_one hup hv

end Sys2Proof.Machine
end

