-- ==== Sys2Proof/Proofs/ExecFrame.lean ====
section
/-! What every command ends in, assembled from the `_ends` lemma of each: the fault of a tile that does not exist, or a state that keeps
all but what the command may touch and reach. -/

namespace Sys2Proof.Machine

/-- A tile command faults on a tile that does not exist (log entry 9). -/
theorem fault_or_ends_of_tile {x : TileAt} {l : List Fld} {ps : List PartId} {s : State} {o : Host.Outcome State Fault Refusal}
    (hin : tileExists x = true → Ends l ps s o) (hout : ¬tileExists x = true → o = .fault .noSuchTile) :
    o = .fault .noSuchTile ∨ Ends l ps s o := by
  by_cases hx : tileExists x = true
  · exact .inr (hin hx)
  · exact .inl (hout hx)

theorem exec_fault_or_ends : ∀ (c : Instr) (s : State),
    exec c s = .fault .noSuchTile ∨ Ends (mayTouch c) (mayReach c) s (exec c s)
  | .unitPowerUp e, s => .inr (execUnitPowerUp_ends e s)
  | .healthCheck stepsDone watchdogServiced, s => .inr (execHealthCheck_ends stepsDone watchdogServiced s)
  | .watchdog, s => .inr (execWatchdog_ends s)
  | .meshLock, s => .inr (execMeshLock_ends s)
  | .referenceLost, s => .inr (execReferenceLost_ends s)
  | .referenceBack ppb, s => .inr (execReferenceBack_ends ppb s)
  | .tbsSrcWrite v, s => .inr (execTbsSrcWrite_ends v s)
  | .tileStep t o, s => fault_or_ends_of_tile (fun h => execTileStep_ends t o s h) (fun h => if_neg h)
  | .flitReceived t port wires ecc, s => fault_or_ends_of_tile (fun h => execFlitReceived_ends t port wires ecc s h) (fun h => if_neg h)
  | .creditFlitReceived t d wires, s => fault_or_ends_of_tile (fun h => execCreditFlitReceived_ends t d wires s h) (fun h => if_neg h)
  | .contextSwitch p failedGroup, s => .inr (execContextSwitch_ends p failedGroup s)
  | .backgroundScrub t o, s => fault_or_ends_of_tile (fun h => execBackgroundScrub_ends t o s h) (fun h => if_neg h)
  | .stallDetectorTick p, s => .inr (execStallDetectorTick_ends p s)
  | .detectionWindowExpiry p cycle, s => .inr (execDetectionWindowExpiry_ends p cycle s)
  | .stallSample, s => .inr (execStallSample_ends s)
  | .progressWatchdog p, s => .inr (execProgressWatchdog_ends p s)
  | .verdictRelease p, s => .inr (execVerdictRelease_ends p s)
  | .pinPulseEnd pin, s => .inr (execPinPulseEnd_ends pin s)
  | .presenceDebounceEnd b, s => .inr (execPresenceDebounceEnd_ends b s)
  | .bayPowerGood b o, s => .inr (execBayPowerGood_ends b o s)
  | .perstRelease b width gen, s => .inr (execPerstRelease_ends b width gen s)
  | .nvmeReady b o, s => .inr (execNvmeReady_ends b o s)
  | .loadHandover b o, s => .inr (execLoadHandover_ends b o s)
  | .nvmeCommandCompletion c ok, s => .inr (execNvmeCommandCompletion_ends c ok s)
  | .nvmeCommandTimeout c, s => .inr (execNvmeCommandTimeout_ends c s)
  | .removed b, s => .inr (execRemoved_ends b s)
  | .overcurrent b, s => .inr (execOvercurrent_ends b s)
  | .poweredHour b, s => .inr (execPoweredHour_ends b s)
  | .smartReadPeriod b critical used, s => .inr (execSmartReadPeriod_ends b critical used s)
  | .periodicLifeRecord b, s => .inr (execPeriodicLifeRecord_ends b s)
  | .reload p o, s => .inr (execReload_ends p o s)
  | .unload p, s => .inr (execUnload_ends p s)
  | .queuedRequestStart p o, s => .inr (execQueuedRequestStart_ends p o s)
  | .autoReload p o, s => .inr (execAutoReload_ends p o s)
  | .placementRetry p, s => .inr (execPlacementRetry_ends p s)
  | .loadLaneGranted p, s => .inr (execLoadLaneGranted_ends p s)
  | .preLoadScrubDone p failed, s => .inr (execPreLoadScrubDone_ends p failed s)
  | .chunkDecrypted p cipher tag, s => .inr (execChunkDecrypted_ends p cipher tag s)
  | .loadRecord p readsBack collided, s => .inr (execLoadRecord_ends p readsBack collided s)
  | .endOfStreamChecks p refused, s => .inr (execEndOfStreamChecks_ends p refused s)
  | .lupinStageAck p failedGroup, s => .inr (execLupinStageAck_ends p failedGroup s)
  | .releaseFailed p, s => .inr (execReleaseFailed_ends p s)
  | .drainComplete p, s => .inr (execDrainComplete_ends p s)
  | .unloadScrubDone p failed, s => .inr (execUnloadScrubDone_ends p failed s)
  | .postCommitScrubDone o, s => .inr (execPostCommitScrubDone_ends o s)
  | .spanTimeout p, s => .inr (execSpanTimeout_ends p s)
  | .apply p v, s => .inr (execApply_ends p v s)
  | .prtTunWrite p n v, s => .inr (execPrtTunWrite_ends p n v s)
  | .rgnTest r v, s => .inr (execRgnTest_ends r v s)
  | .inFieldRetestDone r f aborted, s => .inr (execInFieldRetestDone_ends r f aborted s)
  | .rateLoopTick busy, s => .inr (execRateLoopTick_ends busy s)
  | .currentCeilingTick amps, s => .inr (execCurrentCeilingTick_ends amps s)
  | .throttleTick temps, s => .inr (execThrottleTick_ends temps s)
  | .heatShed r reading, s => .inr (execHeatShed_ends r reading s)
  | .heatShedRecheck r hottest, s => .inr (execHeatShedRecheck_ends r hottest s)
  | .policyWrite item v, s => .inr (execPolicyWrite_ends item v s)
  | .policyEpoch, s => .inr (execPolicyEpoch_ends s)
  | .capLoopTick watts, s => .inr (execCapLoopTick_ends watts s)
  | .short r, s => .inr (execShort_ends r s)
  | .supplySag overvoltage o, s => .inr (execSupplySag_ends overvoltage o s)
  | .reservoirExhausted, s => .inr (execReservoirExhausted_ends s)
  | .inputOutOfRange decivolts, s => .inr (execInputOutOfRange_ends decivolts s)
  | .coolingMeasurement inlet outlet flow glycol, s => .inr (execCoolingMeasurement_ends inlet outlet flow glycol s)
  | .cxpBringupComplete c o, s => .inr (execCxpBringupComplete_ends c o s)
  | .cxpBringupFailed c cause, s => .inr (execCxpBringupFailed_ends c cause s)
  | .encoderCount e m, s => .inr (execEncoderCount_ends e m s)
  | .encoderZEdge e, s => .inr (execEncoderZEdge_ends e s)
  | .encoderOpen e sig isOpen, s => .inr (execEncoderOpen_ends e sig isOpen s)
  | .encConfigWrite e r v, s => .inr (execEncConfigWrite_ends e r v s)
  | .cxpLineReceived c pixels crcOk start, s => .inr (execCxpLineReceived_ends c pixels crcOk start s)
  | .cxpImageHeader c format width bayer, s => .inr (execCxpImageHeader_ends c format width bayer s)
  | .imgEvent c id data, s => .inr (execImgEvent_ends c id data s)
  | .linkDown c, s => .inr (execLinkDown_ends c s)
  | .reconnectionAttempt c reads, s => .inr (execReconnectionAttempt_ends c reads s)
  | .dcPresent c on, s => .inr (execDcPresent_ends c on s)
  | .soundFrame port slots sync milliHz, s => .inr (execSoundFrame_ends port slots sync milliHz s)
  | .clockLost port, s => .inr (execClockLost_ends port s)
  | .clockReturn port, s => .inr (execClockReturn_ends port s)
  | .clockMismatch port mismatch, s => .inr (execClockMismatch_ends port mismatch s)
  | .asrcLock port, s => .inr (execAsrcLock_ends port s)
  | .soundStartT0 p, s => .inr (execSoundStartT0_ends p s)
  | .soundBlockDelivered port, s => .inr (execSoundBlockDelivered_ends port s)
  | .outputPlayCheck port, s => .inr (execOutputPlayCheck_ends port s)
  | .soundStop port, s => .inr (execSoundStop_ends port s)
  | .pageFlush p, s => .inr (execPageFlush_ends p s)
  | .verdictCreditRefill, s => .inr (execVerdictCreditRefill_ends s)
  | .pageDelivered p, s => .inr (execPageDelivered_ends p s)
  | .irqHoldoffEnd p, s => .inr (execIrqHoldoffEnd_ends p s)
  | .expCtrlWrite p v, s => .inr (execExpCtrlWrite_ends p v s)
  | .expHeadWrite p v, s => .inr (execExpHeadWrite_ends p v s)
  | .hostLinkDown, s => .inr (execHostLinkDown_ends s)
  | .evidenceCropReceived p flits, s => .inr (execEvidenceCropReceived_ends p flits s)
  | .evidenceMatchTimeout p, s => .inr (execEvidenceMatchTimeout_ends p s)
  | .vrdAllocWrite n v, s => .inr (execVrdAllocWrite_ends n v s)
  | .spanLinkUp port, s => .inr (execSpanLinkUp_ends port s)
  | .spanDataFrame port frame fecOk, s => .inr (execSpanDataFrame_ends port frame fecOk s)
  | .spanIdleFrame port frame, s => .inr (execSpanIdleFrame_ends port frame s)
  | .spanDescriptorFrame port frame fecOk, s => .inr (execSpanDescriptorFrame_ends port frame fecOk s)
  | .hello port serial, s => .inr (execHello_ends port serial s)
  | .ready port position units dready spanId, s => .inr (execReady_ends port position units dready spanId s)
  | .go port spanId, s => .inr (execGo_ends port spanId s)
  | .abort port cause spanId, s => .inr (execAbort_ends port cause spanId s)
  | .leave port spanId, s => .inr (execLeave_ends port spanId s)
  | .time port dLast tTx, s => .inr (execTime_ends port dLast tTx s)
  | .spanHelloPeriod port, s => .inr (execSpanHelloPeriod_ends port s)
  | .spanReadyPeriod p, s => .inr (execSpanReadyPeriod_ends p s)
  | .spanTimePeriod port, s => .inr (execSpanTimePeriod_ends port s)
  | .spanLost port why, s => .inr (execSpanLost_ends port why s)
  | .censusRequest p v, s => .inr (execCensusRequest_ends p v s)
  | .censusPeriodWrite p v, s => .inr (execCensusPeriodWrite_ends p v s)
  | .censusTick p, s => .inr (execCensusTick_ends p s)
  | .censusCollected p, s => .inr (execCensusCollected_ends p s)
  | .fltSelWrite v, s => .inr (execFltSelWrite_ends v s)
  | .loRegisterRead a, s => .inr (execLoRegisterRead_ends a s)
  | .fwOpen, s => .inr (execFwOpen_ends s)
  | .fwWrite, s => .inr (execFwWrite_ends s)
  | .fwClose, s => .inr (execFwClose_ends s)
  | .fwActivate slotB, s => .inr (execFwActivate_ends slotB s)
  | .registerWrite a v, s => .inr (execRegisterWrite_ends a v s)
  | .presenceAsserted b, s => .inr (execPresenceAsserted_ends b s)
  | .fwCommandDone verified info, s => .inr (execFwCommandDone_ends verified info s)
  | .reservoirCharged reached, s => .inr (execReservoirCharged_ends reached s)
  | .hostLinkUp gen width, s => .inr (execHostLinkUp_ends gen width s)
  | .heartbeat c, s => .inr (execHeartbeat_ends c s)
  | .unsupportedPacket c, s => .inr (execUnsupportedPacket_ends c s)

/-- What a command that answers a next state keeps. -/
theorem exec_keeps {c : Instr} {s t : State} (h : exec c s = .next t) : Keeps (mayTouch c) (mayReach c) s t := by
  rcases exec_fault_or_ends c s with hf | he
  · rw [hf] at h
    cases h
  · exact he.keeps h

end Sys2Proof.Machine
end

