-- ==== Sys2Proof/Proofs/FaultLogView.lean ====
section
/-! The host's view of the fault log (R457), and from it O10: a SEQ names one entry of a log in order, so the entry that FLT_SEL_WRITE
finds is the one asked for; the registers of the view read back what it latched; no command but UNIT_POWER_UP touches it otherwise. -/

namespace Sys2Proof.Machine

/-! ### Zero bytes -/

theorem leNat_replicate_zero (n : Nat) : leNat (List.replicate n 0#8) = 0 := by
  induction n with
  | zero => rfl
  | succ n ih => simp [List.replicate_succ, leNat, ih]

theorem leAt_zeros (n off m : Nat) : leAt (zeros n) off m = 0 := by
  simp [leAt, zeros, leNat_replicate_zero]

/-! ### FLT_SEL_WRITE -/

/-- The SEQs of a log in order fit in 4,096 successive numbers, so an entry is known by its SEQ's low 32 bits. -/
theorem eq_of_seq_mod_eq {f : FaultLog} (h : logOk f) {e e' : LogEntry} (he : e ∈ f.entries) (he' : e' ∈ f.entries)
    (hseq : e.seq % 2 ^ 32 = e'.seq % 2 ^ 32) : e = e' := by
  obtain ⟨hlen, hnum⟩ := h
  obtain ⟨i, hi, rfl⟩ := List.getElem_of_mem he
  obtain ⟨j, hj, rfl⟩ := List.getElem_of_mem he'
  have hi' := hnum i hi
  have hj' := hnum j hj
  obtain rfl : i = j := by omega
  rfl

/-- Looking for the low 32 bits of an entry's SEQ finds that entry. -/
theorem find?_seq_eq_some {f : FaultLog} (h : logOk f) {e : LogEntry} (he : e ∈ f.entries) {v : Nat} (hv : e.seq % 2 ^ 32 = v) :
    f.entries.find? (fun x => decide (x.seq % 2 ^ 32 = v)) = some e := by
  cases hfind : f.entries.find? (fun x => decide (x.seq % 2 ^ 32 = v)) with
  | none => exact absurd hv (by simpa using List.find?_eq_none.mp hfind e he)
  | some x =>
    have hx : x.seq % 2 ^ 32 = v := by simpa using List.find?_some hfind
    rw [eq_of_seq_mod_eq h (List.mem_of_find?_eq_some hfind) he (hx.trans hv.symm)]

theorem find?_seq_eq_none {f : FaultLog} {v : Nat} (hv : ∀ e ∈ f.entries, e.seq % 2 ^ 32 ≠ v) :
    f.entries.find? (fun x => decide (x.seq % 2 ^ 32 = v)) = none :=
  List.find?_eq_none.mpr fun e he => by simpa using hv e he

/-- The view of the log that shows `bytes` under the SEQ `v`. -/
def FaultLog.showing (f : FaultLog) (v : Word) (bytes : List Byte) : FaultLog :=
  { f with sel := v, data := Vector.ofFn fun k : Fin 8 => BitVec.ofNat 32 (leAt bytes (4 * k.val) 4) }

theorem FaultLog.showing_data (f : FaultLog) (v : Word) (bytes : List Byte) (k : Fin 8) :
    (f.showing v bytes).data[k] = BitVec.ofNat 32 (leAt bytes (4 * k.val) 4) := by
  simp [showing]

/-- The bytes that a write of `v` to FLT_SEL latches. -/
def selBytes (f : FaultLog) (v : Word) : List Byte :=
  match f.entries.find? (fun e => decide (e.seq % 2 ^ 32 = v.toNat)) with
  | some e => logEntryBytes e
  | none => zeros 32

theorem selBytes_of_mem {f : FaultLog} {v : Word} {e : LogEntry} (h : logOk f) (he : e ∈ f.entries) (hv : e.seq % 2 ^ 32 = v.toNat) :
    selBytes f v = logEntryBytes e := by
  rw [selBytes, find?_seq_eq_some h he hv]

theorem selBytes_of_absent {f : FaultLog} {v : Word} (hv : ∀ e ∈ f.entries, e.seq % 2 ^ 32 ≠ v.toNat) : selBytes f v = zeros 32 := by
  rw [selBytes, find?_seq_eq_none hv]

theorem execFltSelWrite_of_up (v : Word) {s : State} (hup : s.glb.phase = .up) :
    execFltSelWrite v s = .next { s with flt := s.flt.showing v (selBytes s.flt v) } :=
  whenUp_of_up _ hup

/-! ### Reads of the FLT group -/

theorem inGroup_eq_none_of_le {base stride count a : Nat} (h : base + stride * count ≤ a) : inGroup base stride count a = none :=
  if_neg fun hin => absurd hin.2 (Nat.not_lt.mpr h)

/-- No 64-bit pair stands above the span ports. -/
theorem pairAt_eq_none_of_le (s : State) {a : Nat} (ha : 0x4E00 ≤ a) : pairAt s a = none := by
  have h8 : a ≠ 0x008 := by omega
  have h808 : a ≠ 0x808 := by omega
  simp (disch := omega) only [pairAt, h8, h808, if_false, inGroup_eq_none_of_le]

theorem readReg_of_le (s : State) {a : Nat} (ha : 0x4E04 ≤ a) : readReg s a = BitVec.ofNat 32 (readPlain s a) := by
  simp (disch := omega) [readReg, pairAt_eq_none_of_le]

theorem readPlain_fltNewest (s : State) {e : LogEntry} {es : List LogEntry} (h : s.flt.entries = e :: es) : readPlain s 0x5000 = e.seq := by
  simp [readPlain, inGroup, h]

theorem readPlain_fltData (s : State) (k : Fin 8) : readPlain s (0x5010 + 4 * k.val) = (s.flt.data[k]).toNat := by
  have hidx : Fin.ofNat 8 ((0x5010 + 4 * k.val - 0x5010) / 4) = k := by
    ext
    simp [Fin.ofNat]
  have hk := k.isLt
  simp (disch := omega) only [readPlain, inGroup_eq_none_of_le, if_neg, if_pos, hidx]

theorem readReg_fltNewest (s : State) {e : LogEntry} {es : List LogEntry} (h : s.flt.entries = e :: es) :
    readReg s 0x5000 = BitVec.ofNat 32 e.seq := by
  rw [readReg_of_le s (by decide), readPlain_fltNewest s h]

theorem readReg_fltData (s : State) (k : Fin 8) : readReg s (0x5010 + 4 * k.val) = s.flt.data[k] := by
  rw [readReg_of_le s (by omega), readPlain_fltData, BitVec.ofNat_toNat, BitVec.setWidth_eq]

/-- A read of a whole register gives its value and leaves the fault log. -/
theorem exec_loRegisterRead_word {s : State} (hup : s.glb.phase = .up) {a : Nat} (ha : a % 4 = 0) :
    ∃ t, exec (.loRegisterRead ⟨a, 4⟩) s = .next t ∧ t.glb.readData = readReg s a ∧ t.flt = s.flt := by
  refine ⟨readWord s a, ?_, rfl, rfl⟩
  simp [exec_loRegisterRead, execLoRegisterRead, whenUp_of_up _ hup, ha]

/-! ### The view stands -/

/-- Only FLT_SEL_WRITE and UNIT_POWER_UP may change the view of the fault log. -/
theorem fltView_notMem_mayTouch {c : Instr} (hsel : ∀ v, c ≠ .fltSelWrite v) (hpow : ∀ e, c ≠ .unitPowerUp e) :
    Fld.fltView ∉ mayTouch c := by
  cases c with
  | fltSelWrite v => exact absurd rfl (hsel v)
  | unitPowerUp e => exact absurd rfl (hpow e)
  | _ => simp [mayTouch]

/-- Settles O10: what FLT_SEL_WRITE latches is the entry that its SEQ finds, and the frame of every other command leaves the view. -/
theorem faultLogViewLatchesOneEntry : Obligations.FaultLogViewLatchesOneEntry := by
  refine ⟨fun v s hup hlog => ?_, fun s hup => ⟨fun e es hes => ?_, fun k => ?_⟩, fun c s t hsel hpow h => ?_⟩
  · have hexec := execFltSelWrite_of_up v hup
    refine ⟨_, hexec, ((execFltSelWrite_ends v s).keeps hexec).touch, rfl, fun e he hv k => ?_, fun hv k => ?_⟩
    · rw [FaultLog.showing_data, selBytes_of_mem hlog he hv, leAt]
    · rw [FaultLog.showing_data, selBytes_of_absent hv, leAt_zeros]
      rfl
  · obtain ⟨t, ht, hread, hflt⟩ := exec_loRegisterRead_word hup (a := 0x5000) rfl
    exact ⟨t, ht, hread.trans (readReg_fltNewest s hes), hflt⟩
  · obtain ⟨t, ht, hread, hflt⟩ := exec_loRegisterRead_word hup (a := 0x5010 + 4 * k.val) (by omega)
    exact ⟨t, ht, hread.trans (readReg_fltData s k), hflt⟩
  · obtain ⟨hs, hd⟩ := (exec_keeps h).touch.fltView_eq (fltView_notMem_mayTouch hsel hpow)
    exact ⟨hd, hs⟩

end Sys2Proof.Machine
end

