-- ==== Sys2Proof/Proofs/CensusTick.lean ====
section
/-! The tick of a census in flight (R461, R462), and a store on which it refutes O59. The statement asks that tiles outside the placement
stand at the tick of the census in flight, whatever the store; the two clauses on the tiles of the placement ask for `storeOk`, this one
does not. The tick drops the entries of the tile table that stand at their default, so where the table lists one tile twice, which
`storeOk` rules out, a default entry hides another until the tick. -/

namespace Sys2Proof.Machine

theorem censusTicks_of_waiting {c : Census} {r : CensusRun} (hrun : c.run = some r) (hlatched : r.latched = false)
    (hperiodic : c.nextPeriodic = none) : censusTicks c = [r.tick] := by
  simp [censusTicks, hrun, hlatched, hperiodic]

/-- A census in flight without a periodic one takes its tick once it has come. -/
theorem execCensusTick_of_due {s : State} {p : PartId} {r : CensusRun} (hup : s.glb.phase = .up) (hrun : s.parts[p].census.run = some r)
    (hlatched : r.latched = false) (hperiodic : s.parts[p].census.nextPeriodic = none) (hdue : r.tick ≤ now s) :
    execCensusTick p s = .next (takeTick s p r) := by
  have hany : (censusTicks s.parts[p].census).any (fun u => decide (u ≤ now s)) = true := by
    rw [censusTicks_of_waiting hrun hlatched hperiodic]
    simpa using hdue
  simp only [execCensusTick, whenUp_of_up _ hup, hany, hrun, hperiodic, hlatched]
  rfl

/-- P0 runs in region 0 and its census is due, while the table of tiles lists tile 120, of region 1, twice: at its default value first. -/
def shadowedTile : State :=
  updPart { State.reset with
    glb := { State.reset.glb with phase := .up }
    tiles := [(120, {}), (120, { scrubPtr := 1 })] } 0 fun x =>
    { x with active := some {}, placement := some { pieces := [⟨0, 0, .endForm⟩] }, census := { run := some {} } }

theorem getTile_shadowedTile : (getTile shadowedTile 120).scrubPtr = 0 := rfl

/-- The tick drops the entry that hid the other. -/
theorem getTile_takeTick_shadowedTile : (getTile (takeTick shadowedTile 0 {}) 120).scrubPtr = 1 := by decide

/-- Refutes O59: at the tick of the census in flight a tile outside the placement may read otherwise than before, since the clause that
says it stands does not ask for a store in order. -/
theorem not_censusesLatchTogetherAndReportAllEntries : ¬ Obligations.CensusesLatchTogetherAndReportAllEntries := by
  intro h
  obtain ⟨-, -, -, -, -, -, -, -, hdue, -⟩ := h 0 { run := some {} } shadowedTile rfl rfl
  obtain ⟨t, -, ht, -, -, -, -, -, -, -, hframe⟩ := hdue {} {} { pieces := [⟨0, 0, .endForm⟩] } rfl rfl rfl (Nat.zero_le _) rfl rfl
  rw [exec_censusTick, execCensusTick_of_due rfl rfl rfl rfl (Nat.zero_le _)] at ht
  obtain rfl := Host.Outcome.next.inj ht
  have htile := congrArg Tile.scrubPtr (hframe 120 (by decide))
  rw [getTile_takeTick_shadowedTile, getTile_shadowedTile] at htile
  exact absurd htile (by decide)

end Sys2Proof.Machine
end

