-- ==== Sys2Proof/Proofs/UnitStep.lean ====
section
/-! What one step does to the unit as a whole, from the frame of every command (`exec_keeps`): O1, O2, O4, O5, O6, O7, O8. -/

namespace Sys2Proof.Machine

/-! ### The step and the queue -/

theorem step_cons (c : Instr) (rest : List Instr) (s : State) :
    step { s with pending := c :: rest } = exec c { s with pending := rest } := rfl

theorem step_of_pending_nil {s : State} (h : s.pending = []) : step s = .next (tick s) := by
  rw [step, h]

theorem step_of_pending_cons {s : State} {c : Instr} {rest : List Instr} (h : s.pending = c :: rest) :
    step s = exec c { s with pending := rest } := by
  rw [step, h]

/-- Settles O1: the step is `exec` of the front command by definition. -/
theorem stepRunsFrontCommand : Obligations.StepRunsFrontCommand := step_cons

/-! ### The timestamp -/

theorem tick_touch (s : State) : Touch [.tbs] s (tick s) := by
  unfold tick
  split
  · exact .lit
  · exact .refl _ _

theorem tick_tbs (s : State) : (tick s).tbs =
    if s.glb.phase = .up ∧ s.tbs.everLocked = true then { s.tbs with time := s.tbs.time + 1 } else s.tbs := by
  simp only [tick, Bool.and_eq_true, isUp_iff]
  split <;> rfl

/-- The invariant does not speak of the timestamp. -/
theorem tick_inv {s : State} (h : Inv s) : Inv (tick s) := by
  unfold tick
  split
  · exact h.of_same rfl rfl rfl rfl rfl rfl
  · exact h

theorem whenUp_next {s t u : State} (h : whenUp s t = .next u) : u = t ∨ u = s := by
  obtain rfl := Host.Outcome.next.inj h
  by_cases hup : isUp s = true
  · exact .inl (if_pos hup)
  · exact .inr (if_neg hup)

theorem loseReference_time (s : State) : (loseReference s).tbs.time = s.tbs.time := by
  unfold loseReference
  split
  · simp [logIrq]
  · rfl

theorem time_ite {c : Prop} [Decidable c] {u v : State} {x : BitVec 64} (hu : u.tbs.time = x) (hv : v.tbs.time = x) :
    (if c then u else v).tbs.time = x := by
  split
  · exact hu
  · exact hv

/-- A write to a register leaves the timestamp: of the timebase it reaches the two event bits only. -/
theorem writeReg_time (s : State) (a : Nat) (v : Word) : (writeReg s a v).tbs.time = s.tbs.time := by
  have hkeep : ∀ {l ps} {u : State}, Keeps l ps s u → Fld.tbs ∉ l → u.tbs.time = s.tbs.time :=
    fun h hl => congrArg Tbs.time (h.touch.tbs_eq hl)
  unfold writeReg
  refine time_ite rfl <| time_ite rfl <| time_ite (hkeep (writeSup_keeps _ _ _) (by decide)) <| time_ite (time_ite rfl rfl) <|
    time_ite (time_ite rfl rfl) <| time_ite (time_ite rfl rfl) <| time_ite (time_ite rfl rfl) <| time_ite (time_ite rfl rfl) <|
    time_ite (hkeep (writeMsix_keeps _ _ _) (by decide)) ?_
  split
  · exact hkeep (writePrt_keeps _ _ _ _) (by decide)
  · split
    · exact time_ite rfl rfl
    · split
      · exact hkeep (writeExp_keeps _ _ _ _) (by decide)
      · split
        · exact time_ite (by simp) rfl
        · rfl

/-- No command but UNIT_POWER_UP moves the timestamp. -/
theorem exec_timestamp {c : Instr} {s t : State} (hpow : ∀ e, c ≠ .unitPowerUp e) (h : exec c s = .next t) : t.tbs.time = s.tbs.time := by
  have hframe : Fld.tbs ∉ mayTouch c → t.tbs.time = s.tbs.time :=
    fun hf => congrArg Tbs.time ((exec_keeps h).touch.tbs_eq hf)
  have hup : ∀ u : State, whenUp s u = .next t → u.tbs.time = s.tbs.time → t.tbs.time = s.tbs.time := by
    intro u hu htime
    rcases whenUp_next hu with rfl | rfl
    · exact htime
    · rfl
  cases c with
  | unitPowerUp e => exact absurd rfl (hpow e)
  | meshLock => exact hup _ h (by split <;> rfl)
  | referenceLost => exact hup _ h (loseReference_time s)
  | referenceBack ppb => exact hup _ h (by split <;> simp [logIrq])
  | tbsSrcWrite v => exact hup _ h (by split <;> simp [loseReference_time])
  | registerWrite a v => exact hup _ h (by split <;> simp [writeReg_time])
  | _ => exact hframe (by simp [mayTouch])

/-- Settles O2: the idle step is `tick`; every command but UNIT_POWER_UP leaves the timestamp (`exec_timestamp`). -/
theorem timestampCountsTicksAndNeverJumps : Obligations.TimestampCountsTicksAndNeverJumps := by
  refine ⟨fun s hs => ⟨tick s, step_of_pending_nil hs, tick_touch s, tick_tbs s⟩, fun s t h hpow => ?_⟩
  cases hp : s.pending with
  | nil =>
    rw [step_of_pending_nil hp] at h
    obtain rfl := Host.Outcome.next.inj h
    rw [tick_tbs]
    split
    · exact .inr rfl
    · exact .inl rfl
  | cons c rest =>
    rw [step_of_pending_cons hp] at h
    have htime := exec_timestamp (fun e he => hpow e rest (he ▸ hp)) h
    exact .inl htime

/-! ### Frames and the invariant -/

/-- Settles O4. -/
theorem commandsChangeOnlyTheirFields : Obligations.CommandsChangeOnlyTheirFields :=
  fun _ _ _ h => (exec_keeps h).touch

/-- Settles O5. -/
theorem commandsToOnePartitionReachNoOther : Obligations.CommandsToOnePartitionReachNoOther :=
  fun _ _ _ q h hq => (exec_keeps h).others q hq

/-- The invariant does not speak of the queue. -/
theorem inv_pending {s : State} (h : Inv s) (l : List Instr) : Inv { s with pending := l } :=
  h.of_same rfl rfl rfl rfl rfl rfl

/-- Settles O6: with an empty queue the step is a tick, else a command, which keeps the invariant (`exec_keeps`). -/
theorem stepKeepsInvariant : Obligations.StepKeepsInvariant := by
  intro s t hs h
  cases hp : s.pending with
  | nil =>
    rw [step_of_pending_nil hp] at h
    obtain rfl := Host.Outcome.next.inj h
    exact tick_inv hs
  | cons c rest =>
    rw [step_of_pending_cons hp] at h
    exact (exec_keeps h).inv (inv_pending hs rest)

/-- Settles O7: at reset the stores and the log are empty, every region is off and no lane is held. -/
theorem resetMeetsInvariant : Obligations.ResetMeetsInvariant where
  store := ⟨reset_mem_wf, reset_tiles_wf⟩
  supplies r := by simp [State.reset, regionOk]
  log := ⟨Nat.zero_le _, fun _ h => absurd h (Nat.not_lt_zero _)⟩
  vectors v _ := by simp [State.reset]
  lanes e := by simp [State.reset]

/-- Settles O8: every command but the two named is guarded by `whenUp`; the tile commands look at the tile first. -/
theorem commandsWaitForPowerUp : Obligations.CommandsWaitForPowerUp := by
  intro c s hdown hpow hres
  have htile : ∀ (x : TileAt) (t : State), (if tileExists x then whenUp s t else .fault .noSuchTile) = .next s ∨
      (if tileExists x then whenUp s t else .fault .noSuchTile) = .fault .noSuchTile := by
    intro x t
    split
    · exact .inl (whenUp_of_down t hdown)
    · exact .inr rfl
  cases c with
  | unitPowerUp e => exact absurd rfl (hpow e)
  | reservoirExhausted => exact absurd rfl hres
  | tileStep x o => exact htile x _
  | flitReceived x port w e => exact htile x _
  | creditFlitReceived x d w => exact htile x _
  | backgroundScrub x o => exact htile x _
  | _ => exact .inl (whenUp_of_down _ hdown)

end Sys2Proof.Machine
end

