-- ==== Sys2Proof/Proofs/EventsAndTimebase.lean ====
section
/-! Vectors, the fault log and the reference of the timebase: O9 and O11. -/

namespace Sys2Proof.Machine

/-! ### A command's frame -/

/-- What a command touches, from the state it answers. -/
theorem exec_touch {c : Instr} {s t : State} (h : exec c s = .next t) : Touch (mayTouch c) s t := (exec_keeps h).touch

/-! ### One bit of a vector register -/

theorem one_shiftLeft_getLsbD (v w : Fin 32) : ((1 : Word) <<< v.val).getLsbD w.val = decide (w = v) := by
  by_cases h : w = v
  · subst h
    simp [w.isLt]
  · rw [shift_bit_ne (fun e => h (Fin.ext e.symm)) w.isLt, decide_eq_false h]

theorem vectorMasked_irq (g : Glb) (x : Word) (v : Fin 32) : vectorMasked { g with irq := x } v = vectorMasked g v := rfl

theorem sendVector_irq (g : Glb) (v : Fin 32) : (sendVector g v).irq = g.irq := by
  unfold sendVector
  split <;> rfl

theorem sendVector_pba_getLsbD (g : Glb) (v w : Fin 32) :
    (sendVector g v).pba.getLsbD w.val = if w = v then vectorMasked g v else g.pba.getLsbD w.val := by
  unfold sendVector
  split
  next hm =>
    rw [BitVec.getLsbD_or, one_shiftLeft_getLsbD]
    split
    next hw => rw [decide_eq_true hw, Bool.or_true, hm]
    next hw => rw [decide_eq_false hw, Bool.or_false]
  next hm =>
    rw [BitVec.getLsbD_and, BitVec.getLsbD_not, one_shiftLeft_getLsbD, decide_eq_true w.isLt, Bool.true_and]
    split
    next hw => rw [decide_eq_true hw, Bool.not_true, Bool.and_false, Bool.eq_false_of_not_eq_true hm]
    next hw => rw [decide_eq_false hw, Bool.not_false, Bool.and_true]

theorem sendVector_vectors (g : Glb) (v w : Fin 32) :
    (sendVector g v).vectors[w] = if w = v then g.vectors[v] + (if vectorMasked g v then 0 else 1) else g.vectors[w] := by
  unfold sendVector
  split
  next hm =>
    split
    next hw =>
      subst hw
      rfl
    next hw => rfl
  next hm =>
    split
    next hw => simp [hw]
    next hw => exact set_other _ _ _ _ hw

theorem irq_glb_irq_getLsbD (s : State) (v w : Fin 32) :
    (irq s v).glb.irq.getLsbD w.val = (s.glb.irq.getLsbD w.val || decide (w = v)) := by
  rw [irq_glb, sendVector_irq, BitVec.getLsbD_or, one_shiftLeft_getLsbD]

theorem irq_glb_pba_getLsbD (s : State) (v w : Fin 32) :
    (irq s v).glb.pba.getLsbD w.val = if w = v then vectorMasked s.glb v else s.glb.pba.getLsbD w.val :=
  sendVector_pba_getLsbD _ _ _

theorem irq_glb_vectors (s : State) (v w : Fin 32) :
    (irq s v).glb.vectors[w] = if w = v then s.glb.vectors[v] + (if vectorMasked s.glb v then 0 else 1) else s.glb.vectors[w] :=
  sendVector_vectors _ _ _

theorem irq_touch (s : State) (v : Fin 32) : Touch [.signals] s (irq s v) := by
  refine .lit (hglb := .inl ?_)
  rw [irq_glb]
  unfold sendVector
  split <;> rfl

theorem logEvent_touch (s : State) (code index d0 d1 : Nat) (e : Bool) : Touch [.flt] s (logEvent s code index d0 d1 e) :=
  (logEvent_keeps s code index d0 d1 e).touch

/-- Settles O9: one vector's bits from `sendVector`, the log from its two branches. -/
theorem eventsReachTheirVectorAndTheLog : Obligations.EventsReachTheirVectorAndTheLog := by
  refine ⟨fun s v => ⟨irq_touch s v, ?_, ?_, ?_, fun w hw => ⟨?_, ?_, ?_⟩⟩, fun s code index d0 d1 e => ⟨logEvent_touch _ _ _ _ _ _, ?_, ?_⟩⟩
  · rw [irq_glb_irq_getLsbD, decide_eq_true rfl, Bool.or_true]
  · rw [irq_glb_pba_getLsbD, if_pos rfl]
  · rw [irq_glb_vectors, if_pos rfl]
  · rw [irq_glb_irq_getLsbD, decide_eq_false hw, Bool.or_false]
  · rw [irq_glb_pba_getLsbD, if_neg hw]
  · rw [irq_glb_vectors, if_neg hw]
  · intro hfew
    rw [logEvent, if_neg (Nat.not_le.mpr hfew)]
  · intro hmany
    rw [logEvent, if_pos hmany]
    rfl

/-! ### The reference -/

/-- The timebase after the reference in use is lost. -/
def Tbs.lost (b : Tbs) : Tbs :=
  { b with locked := false, holdover := true, refPresent := false, slewing := false, lostEv := true, losses := satInc b.losses }

theorem loseReference_of_present {s : State} (h : s.tbs.refPresent = true) :
    loseReference s = logIrq { s with tbs := s.tbs.lost } 0x0005 0 0 0 false 19 := if_pos h

/-- An event of the timebase is logged and signalled, and the timebase stands as it was written. -/
theorem logIrq_tbs (s : State) (code index d0 d1 : Nat) (e : Bool) (v : Fin 32) : (logIrq s code index d0 d1 e v).tbs = s.tbs := by
  simp [logIrq]

theorem logIrq_tbs_reports (s : State) {b : Tbs} (code index d0 d1 : Nat) (e : Bool) (v : Fin 32) (h : b.time = s.tbs.time := by rfl) :
    reports s (logIrq { s with tbs := b } code index d0 d1 e v) code index d0 d1 e v :=
  logIrq_reports (s := s) (u := { s with tbs := b }) rfl rfl h _ _ _ _ _ _

theorem toNat_lt_three_eq {v : Word} (h : v.toNat < 3) : Fin.ofNat 3 v.toNat = ⟨v.toNat, h⟩ :=
  Fin.ext (Nat.mod_eq_of_lt h)

/-- Settles O11: each clause is one branch of a command of the timebase. -/
theorem timebaseFollowsItsReference : Obligations.TimebaseFollowsItsReference := by
  intro s hup
  refine ⟨fun hpres hlock => ?_, fun hpres => ?_, fun ppb hpres hlo hhi => ?_, fun ppb hout => ?_, fun v hv hne hpres => ?_,
    fun v hv => ?_⟩
  · rw [exec_meshLock, execMeshLock, whenUp_of_up _ hup, hpres, hlock]
    rfl
  · have h : exec .referenceLost s = .next (logIrq { s with tbs := s.tbs.lost } 0x0005 0 0 0 false 19) := by
      rw [exec_referenceLost, execReferenceLost, whenUp_of_up _ hup, loseReference_of_present hpres]
    exact ⟨_, h, exec_touch h, logIrq_tbs _ _ _ _ _ _ _, logIrq_tbs_reports s _ _ _ _ _ _⟩
  · have hppb : decide (ppb.natAbs ≤ 100000) = true := decide_eq_true (by omega)
    have h : exec (.referenceBack ppb) s = .next (logIrq { s with tbs := { s.tbs with
        refPresent := true, slewing := true, backEv := true, refPpb := ppb, srcInUse := s.tbs.src } } 0x0006 0 0 0 false 19) := by
      rw [exec_referenceBack, execReferenceBack, whenUp_of_up _ hup, hpres, hppb]
      rfl
    exact ⟨_, h, exec_touch h, logIrq_tbs _ _ _ _ _ _ _, logIrq_tbs_reports s _ _ _ _ _ _⟩
  · have hppb : decide (ppb.natAbs ≤ 100000) = false := decide_eq_false (by omega)
    rw [exec_referenceBack, execReferenceBack, whenUp_of_up _ hup, hppb, Bool.and_false]
    rfl
  · have h : exec (.tbsSrcWrite v) s = .next (logIrq { s with tbs := { s.tbs with src := ⟨v.toNat, hv⟩ }.lost } 0x0005 0 0 0 false 19) := by
      rw [exec_tbsSrcWrite, execTbsSrcWrite, whenUp_of_up _ hup, if_pos ⟨hv, hne⟩, toNat_lt_three_eq hv]
      exact congrArg _ (loseReference_of_present (s := { s with tbs := { s.tbs with src := ⟨v.toNat, hv⟩ } }) hpres)
    exact ⟨_, h, exec_touch h, logIrq_tbs _ _ _ _ _ _ _, logIrq_tbs_reports s _ _ _ _ _ _⟩
  · have hno : ¬(v.toNat < 3 ∧ v.toNat ≠ s.tbs.src.val) := by omega
    rw [exec_tbsSrcWrite, execTbsSrcWrite, whenUp_of_up _ hup, if_neg hno]

end Sys2Proof.Machine
end

