-- ==== Sys2Proof/Proofs/VerdictPins.lean ====
section
/-! Tunables, the verdict port and the pins: O34, O35 and O36. -/

namespace Sys2Proof.Machine

/-- A command that is guarded by `whenUp` and nothing else, on a unit that is up. -/
theorem exec_of_up {c : Instr} {s u : State} (hup : s.glb.phase = .up) (h : exec c s = whenUp s u := by rfl) : exec c s = .next u :=
  h.trans (whenUp_of_up u hup)

theorem updPart_at (s : State) (p : PartId) (f : Partition → Partition) : (updPart s p f).parts[p] = f s.parts[p] := updPart_self s p f

theorem updPin_at (s : State) (n : PinId) (f : Pin → Pin) : (updPin s n f).pins[n] = f s.pins[n] := updPin_self s n f

/-! ### PRT_TUN_WRITE -/

theorem tunFits_iff (e : TunEntry) (v : Word) : tunFits e v = true ↔ e.format = 0 ∨ v.toNat < 65536 := by
  simp [tunFits]

section TunWrite

variable {p : PartId} {n : Fin 32} {v : Word} {s : State} {i : Image} (hup : s.glb.phase = .up)
include hup

theorem exec_prtTunWrite_of_idle (h : s.parts[p].active = none) : exec (.prtTunWrite p n v) s = .next s := by
  rw [exec_prtTunWrite, execPrtTunWrite, whenUp_of_up _ hup]
  simp only [h]

theorem exec_prtTunWrite_of_absent (hi : s.parts[p].active = some i) (h : (imgTunables i).1[n.val]? = none) :
    exec (.prtTunWrite p n v) s = .next s := by
  rw [exec_prtTunWrite, execPrtTunWrite, whenUp_of_up _ hup]
  simp only [hi, h]

theorem exec_prtTunWrite_of_entry {e : TunEntry} (hi : s.parts[p].active = some i) (he : (imgTunables i).1[n.val]? = some e) :
    exec (.prtTunWrite p n v) s = .next (if tunFits e v then
      updPart s p (fun y => { y with tun := { y.tun with shadow := y.tun.shadow.set n.val v n.isLt } }) else s) := by
  rw [exec_prtTunWrite, execPrtTunWrite, whenUp_of_up _ hup]
  simp only [hi, he]

end TunWrite

/-- Settles O34: the write reaches the shadow register exactly when the tunable exists and the value fits. -/
theorem tunableWritesReachOnlyTheShadow : Obligations.TunableWritesReachOnlyTheShadow := by
  intro p n v s hup
  refine ⟨fun i e hi he hfit => ?_, exec_prtTunWrite_of_idle hup, fun i hi hn => ?_, fun i e hi he hf hv => ?_⟩
  · have h := exec_prtTunWrite_of_entry (v := v) hup hi he
    rw [if_pos ((tunFits_iff e v).mpr hfit)] at h
    exact ⟨_, h, exec_touch h, updPart_at _ _ _⟩
  · exact exec_prtTunWrite_of_absent hup hi (List.getElem?_eq_none hn)
  · have hno : ¬tunFits e v = true := by
      rw [tunFits_iff]
      omega
    rw [exec_prtTunWrite_of_entry hup hi he, if_neg hno]

/-! ### VERDICT_RELEASE -/

/-- Pin `n` after a release of the token `t` by the image `i` of partition `p`. -/
def drivenPin (time : Nat) (p : PartId) (i : Image) (t : VToken) (n : PinId) (x : Pin) : Pin :=
  match (if x.claimed = some p && !x.failsafe then pinEntryOf i n else none) with
  | some e => pinRelease time e t x
  | none => x

theorem drivePins_eq (s : State) (p : PartId) (i : Image) (t : VToken) :
    drivePins s p i t = { s with pins := Vector.ofFn (fun n : PinId => drivenPin (now s) p i t n s.pins[n]) } := rfl

theorem drivePins_pin (s : State) (p : PartId) (i : Image) (t : VToken) (n : PinId) :
    (drivePins s p i t).pins[n] = drivenPin (now s) p i t n s.pins[n] := by
  simp [drivePins_eq]

theorem drivenPin_of_claimed {time : Nat} {p : PartId} {i : Image} {t : VToken} {n : PinId} {x : Pin} {e : PinEntry}
    (hc : x.claimed = some p) (hf : x.failsafe = false) (he : pinEntryOf i n = some e) :
    drivenPin time p i t n x = pinRelease time e t x := by
  simp [drivenPin, hc, hf, he]

theorem drivenPin_of_other {time : Nat} {p : PartId} {i : Image} {t : VToken} {n : PinId} {x : Pin}
    (h : x.claimed ≠ some p ∨ x.failsafe = true ∨ pinEntryOf i n = none) : drivenPin time p i t n x = x := by
  have hnone : (if x.claimed = some p && !x.failsafe then pinEntryOf i n else none) = none := by
    rcases h with h | h | h <;> simp [h]
  rw [drivenPin, hnone]

theorem pinRelease_of_match {time : Nat} {e : PinEntry} {t : VToken} {x : Pin} (hr : t.reject = true) (hc : bitOf e.classSet t.cls = true) :
    pinRelease time e t x = { x with level := rejectLevel e, pulsing := decide (e.pulseNs ≠ 0), pulseAt := time, pulseEntry := none } := by
  rw [pinRelease, hr, hc]
  rfl

theorem pinRelease_of_pass {time : Nat} {e : PinEntry} {t : VToken} {x : Pin} (h : t.reject = false ∨ bitOf e.classSet t.cls = false) :
    pinRelease time e t x = if e.pulseNs = 0 then { x with level := passLevel e, pulsing := false, pulseEntry := none } else x := by
  have hno : ¬(t.reject && bitOf e.classSet t.cls) = true := by
    rcases h with h | h <;> simp [h]
  rw [pinRelease, if_neg hno]

/-- The partition after a release of the token `t`. -/
def releasedPart (time : Nat) (t : VToken) (y : Partition) : Partition :=
  { y with
    regs := { y.regs with vrd := y.regs.vrd + 1, rej := y.regs.rej + boolNat t.reject }
    flow := { y.flow with tokens := y.flow.tokens.drop 1, windows := y.flow.windows.drop 1, lastRelease := some time,
                          seq := y.flow.seq + 1 } }

/-- The record, the descriptor and the crops of a release reach neither the partitions nor the pins. -/
theorem releaseTail_frame (u : State) (p : PartId) (r : ERec) (f : Exp → Exp) :
    (exportPump (updExp (descPaired (enterRec u p r) p) p f)).parts = u.parts ∧
    (exportPump (updExp (descPaired (enterRec u p r) p) p f)).pins = u.pins := by
  have hkeep : Keeps [.exps, .arbLast, .spa] [] u (exportPump (updExp (descPaired (enterRec u p r) p) p f)) :=
    .step (exportPump_keeps _) (by decide) <| .step (updExp_keeps _ _ _) (by decide) <| .step (descPaired_keeps _ _) (by decide) <|
      .step (enterRec_keeps _ _ _) (by decide) (.refl _ _)
  exact ⟨hkeep.touch.parts_eq, hkeep.touch.pins_eq⟩

theorem nextRelease_eq_some {s : State} {x : Partition} {c : Contract} {tok : VToken} {toks : List VToken} {w : Window} {ws : List Window}
    {last : Nat} (hs : isServing x.state = true) (ht : x.flow.tokens = tok :: toks) (hw : x.flow.windows = w :: ws)
    (hl : w.tLast = some last) (hdue : ∀ r, x.flow.lastRelease = some r → r + c.verdictInterval ≤ now s) :
    nextRelease s x c = some (tok, w, last) := by
  unfold nextRelease
  simp only [ht, hw, hl, hs, Bool.true_and]
  cases hr : x.flow.lastRelease with
  | none => rfl
  | some r => simp [hdue r hr]

theorem nextRelease_eq_none {s : State} {x : Partition} {c : Contract}
    (h : isServing x.state = false ∨ x.flow.tokens = [] ∨ x.flow.windows = [] ∨ (∃ w ws, x.flow.windows = w :: ws ∧ w.tLast = none) ∨
      ∃ r, x.flow.lastRelease = some r ∧ now s < r + c.verdictInterval) : nextRelease s x c = none := by
  unfold nextRelease
  split
  next t ts w ws ht hw =>
    split
    next last hl =>
      rcases h with h | h | h | ⟨w', ws', h, h'⟩ | ⟨r, h, h'⟩
      · simp [h]
      · rw [ht] at h
        cases h
      · rw [hw] at h
        cases h
      · rw [hw] at h
        obtain ⟨rfl, -⟩ := List.cons.inj h
        rw [hl] at h'
        cases h'
      · simp [h, h']
    next => rfl
  next => rfl

/-- What a release leaves of the partitions and the pins. -/
theorem exec_verdictRelease_of_due {p : PartId} {s : State} {i : Image} {tok : VToken} {w : Window} {last : Nat} (hup : s.glb.phase = .up)
    (hi : s.parts[p].active = some i) (hnext : nextRelease s s.parts[p] (imgContract i) = some (tok, w, last)) :
    ∃ t, exec (.verdictRelease p) s = .next t ∧ t.parts = (updPart s p (releasedPart (now s) tok)).parts ∧
      t.pins = (drivePins s p i tok).pins := by
  refine ⟨_, exec_of_up hup, ?_⟩
  simp only [hi, hnext]
  exact releaseTail_frame _ _ _ _

theorem exec_verdictRelease_of_none {p : PartId} {s : State} {i : Image} (hup : s.glb.phase = .up)
    (hi : s.parts[p].active = some i) (hnext : nextRelease s s.parts[p] (imgContract i) = none) :
    exec (.verdictRelease p) s = .next s := by
  rw [exec_verdictRelease, execVerdictRelease, whenUp_of_up _ hup]
  simp only [hi, hnext]

/-! ### PIN_PULSE_END -/

/-- Whether the running image claims a pin. -/
def pinKept (s : State) (n : PinId) : Bool :=
  match s.pins[n].claimed with
  | some p => (match s.parts[p].active with | some i => (pinEntryOf i n).isSome | none => false)
  | none => false

theorem exec_pinPulseEnd_eq {n : PinId} {s : State} (hup : s.glb.phase = .up) :
    exec (.pinPulseEnd n) s = .next (if pulseOver (now s) s.pins[n] then updPin s n (endPulse (pinKept s n)) else s) :=
  exec_of_up hup

theorem pinKept_of_claimed {s : State} {n : PinId} {p : PartId} {i : Image} (hc : s.pins[n].claimed = some p)
    (hi : s.parts[p].active = some i) : pinKept s n = (pinEntryOf i n).isSome := by
  simp only [pinKept, hc, hi]

theorem pinKept_eq_false {s : State} {n : PinId} (h : ∀ p i, s.pins[n].claimed = some p → s.parts[p].active = some i →
    pinEntryOf i n = none) : pinKept s n = false := by
  cases hc : s.pins[n].claimed with
  | none => simp only [pinKept, hc]
  | some p =>
    cases hi : s.parts[p].active with
    | none => simp only [pinKept, hc, hi]
    | some i => rw [pinKept_of_claimed hc hi, h p i hc hi, Option.isSome_none]

theorem endPulse_of_entry {kept : Bool} {x : Pin} {e : PinEntry} (he : (x.pulseEntry <|> x.entry) = some e) :
    endPulse kept x = if kept then { x with level := passLevel e, pulsing := false, pulseEntry := none } else pinFail e x := by
  simp only [endPulse, he]

theorem pulseOver_of_entry {time : Nat} {x : Pin} {e : PinEntry} (hp : x.pulsing = true) (he : (x.pulseEntry <|> x.entry) = some e) :
    pulseOver time x = decide (x.pulseAt + e.pulseNs ≤ time) := by
  simp only [pulseOver, hp, he, Bool.true_and]

/-- Settles O35: a release is `releasedPart` and `drivePins`, the end of a pulse `endPulse`. -/
theorem verdictsPairTokensAndPulsesEnd : Obligations.VerdictsPairTokensAndPulsesEnd := by
  refine ⟨fun p i s hup hi => ⟨fun tok toks w ws last hs ht hw hl hdue => ?_, fun h => ?_⟩, fun n s hup => ⟨fun hp => ?_, fun e hp he =>
    ⟨fun hbefore => ?_, fun hover => ?_⟩⟩⟩
  · obtain ⟨t, h, hparts, hpins⟩ := exec_verdictRelease_of_due hup hi (nextRelease_eq_some hs ht hw hl hdue)
    have hself : t.parts[p] = releasedPart (now s) tok s.parts[p] := by
      rw [hparts]
      exact updPart_at _ _ _
    refine ⟨t, h, exec_touch h, fun q hq => ?_, ?_, ?_, ?_, ?_, ?_, ?_, ?_, fun n hn => ?_, fun n e hc hf he => ⟨fun hr hcls => ?_,
      fun hpass hzero => ?_, fun hpass hwidth => ?_⟩⟩
    · rw [hparts]
      exact updPart_other _ _ _ q hq
    any_goals rw [hself]
    any_goals rfl
    · simp only [releasedPart, ht, List.drop_one, List.tail_cons]
    · simp only [releasedPart, hw, List.drop_one, List.tail_cons]
    · rw [hpins, drivePins_pin, drivenPin_of_other hn]
    · rw [hpins, drivePins_pin, drivenPin_of_claimed hc hf he, pinRelease_of_match hr hcls]
      exact ⟨rfl, rfl⟩
    · rw [hpins, drivePins_pin, drivenPin_of_claimed hc hf he, pinRelease_of_pass hpass, if_pos hzero]
    · rw [hpins, drivePins_pin, drivenPin_of_claimed hc hf he, pinRelease_of_pass hpass, if_neg hwidth]
  · exact exec_verdictRelease_of_none hup hi (nextRelease_eq_none h)
  · rw [exec_pinPulseEnd_eq hup, pulseOver, hp]
    rfl
  · rw [exec_pinPulseEnd_eq hup, pulseOver_of_entry hp he, decide_eq_false (Nat.not_le.mpr hbefore)]
    rfl
  · have h := exec_pinPulseEnd_eq (n := n) hup
    rw [pulseOver_of_entry hp he, decide_eq_true hover, if_pos rfl] at h
    refine ⟨_, h, exec_touch h, ?_, fun m hm => updPin_other _ _ _ m hm, fun p i hc hi hclaims => ?_, fun hfree => ?_⟩
    · rw [updPin_at, endPulse_of_entry he]
      split <;> rfl
    · rw [updPin_at, endPulse_of_entry he, pinKept_of_claimed hc hi, hclaims, if_pos rfl]
    · rw [updPin_at, endPulse_of_entry he, pinKept_eq_false hfree]
      rfl

/-! ### VRD_ALLOC_WRITE -/

/-- The pin of byte `k` of VRD_ALLOC word `i`. -/
def allocPinOf (i : Fin 8) (k : Nat) : PinId := Fin.ofNat 32 (4 * i.val + k)

/-- Byte `k` of a word. -/
def wordByte (v : Word) (k : Nat) : Nat := v.toNat / 256 ^ k % 256

/-- One byte of a VRD_ALLOC write. -/
def allocStep (i : Fin 8) (v : Word) (s : State) (k : Nat) : State :=
  if (s.pins[allocPinOf i k]).claimed.isSome then s else updPin s (allocPinOf i k) (allocPin (wordByte v k))

/-- Whether a byte would change a claimed pin's entry. -/
def allocHolds (i : Fin 8) (v : Word) (s : State) : Bool :=
  ([0, 1, 2, 3] : List Nat).any (fun k => (s.pins[allocPinOf i k]).claimed.isSome && allocByte s.pins[allocPinOf i k] ≠ wordByte v k)

/-- The state after the four bytes. -/
def allocAll (i : Fin 8) (v : Word) (s : State) : State := ([0, 1, 2, 3] : List Nat).foldl (allocStep i v) s

theorem exec_vrdAllocWrite_eq {i : Fin 8} {v : Word} {s : State} (hup : s.glb.phase = .up) : exec (.vrdAllocWrite i v) s =
    .next (if ([0, 1, 2, 3] : List Nat).any (fun k => decide (32 ≤ wordByte v k)) then s
      else if allocHolds i v s && !s.allocHeld then irq { allocAll i v s with allocHeld := true } 21 else allocAll i v s) :=
  exec_of_up hup

theorem allocPinOf_val (i : Fin 8) {k : Nat} (hk : k < 4) : (allocPinOf i k).val = 4 * i.val + k :=
  Nat.mod_eq_of_lt (by omega)

theorem eq_allocPinOf_iff {i : Fin 8} {k : Nat} (hk : k < 4) (n : PinId) : n = allocPinOf i k ↔ n.val / 4 = i.val ∧ n.val % 4 = k := by
  rw [Fin.ext_iff, allocPinOf_val i hk]
  omega

theorem allocStep_pin_self (i : Fin 8) (v : Word) (s : State) (k : Nat) : (allocStep i v s k).pins[allocPinOf i k] =
    if s.pins[allocPinOf i k].claimed = none then allocPin (wordByte v k) s.pins[allocPinOf i k] else s.pins[allocPinOf i k] := by
  unfold allocStep
  cases s.pins[allocPinOf i k].claimed with
  | none => exact (updPin_at _ _ _).trans (if_pos rfl).symm
  | some p => exact (if_neg (by simp)).symm

theorem allocStep_pin_other (i : Fin 8) (v : Word) (s : State) {k : Nat} {n : PinId} (hn : n ≠ allocPinOf i k) :
    (allocStep i v s k).pins[n] = s.pins[n] := by
  unfold allocStep
  split
  · rfl
  · exact updPin_other _ _ _ n hn

/-- A pin after the bytes `ks`: each byte reaches its own pin, where no partition claims it. -/
theorem foldl_allocStep_pin (i : Fin 8) (v : Word) (n : PinId) : ∀ (ks : List Nat) (s : State), ks.Nodup → (∀ k ∈ ks, k < 4) →
    (ks.foldl (allocStep i v) s).pins[n] =
      if n.val / 4 = i.val ∧ n.val % 4 ∈ ks ∧ s.pins[n].claimed = none then allocPin (wordByte v (n.val % 4)) s.pins[n] else s.pins[n]
  | [], s, _, _ => by simp
  | k :: ks, s, hnd, hlt => by
    obtain ⟨hk, hnd⟩ := List.nodup_cons.mp hnd
    have hiff := eq_allocPinOf_iff (i := i) (hlt k List.mem_cons_self) n
    rw [List.foldl_cons, foldl_allocStep_pin i v n ks _ hnd (fun j hj => hlt j (List.mem_cons_of_mem _ hj))]
    by_cases hn : n = allocPinOf i k
    · obtain ⟨hdiv, hmod⟩ := hiff.mp hn
      have hself := allocStep_pin_self i v s k
      rw [if_neg (fun h => hk (hmod ▸ h.2.1))]
      simp only [hdiv, hmod, List.mem_cons_self, true_and]
      subst hn
      exact hself
    · have hmem : n.val / 4 = i.val → (n.val % 4 ∈ k :: ks ↔ n.val % 4 ∈ ks) := by
        intro hdiv
        simp [show n.val % 4 ≠ k from fun h => hn (hiff.mpr ⟨hdiv, h⟩)]
      rw [allocStep_pin_other i v s hn]
      by_cases hdiv : n.val / 4 = i.val
      · simp only [hdiv, hmem hdiv]
      · rw [if_neg (fun h => hdiv h.1), if_neg (fun h => hdiv h.1)]

theorem mem_four (n : Nat) : n % 4 ∈ ([0, 1, 2, 3] : List Nat) := by
  have : n % 4 < 4 := Nat.mod_lt _ (by decide)
  interval_cases n % 4 <;> simp

theorem allocAll_pin (i : Fin 8) (v : Word) (s : State) (n : PinId) : (allocAll i v s).pins[n] =
    if n.val / 4 = i.val ∧ s.pins[n].claimed = none then allocPin (wordByte v (n.val % 4)) s.pins[n] else s.pins[n] := by
  rw [allocAll, foldl_allocStep_pin i v n _ s (by decide) (by decide)]
  simp only [mem_four, true_and]

theorem allocAll_allocHeld (i : Fin 8) (v : Word) (s : State) : (allocAll i v s).allocHeld = s.allocHeld :=
  (Keeps.foldl (m := [.pins]) (ps := []) (s0 := s) (allocStep i v)
    (fun _ _ h => .ite (fun _ => h) (fun _ => .step (updPin_keeps _ _ _) (by decide) h)) _ s (.refl _ _)).touch.allocHeld_eq

theorem allocHolds_iff (i : Fin 8) (v : Word) (s : State) : allocHolds i v s = true ↔
    ∃ n : PinId, n.val / 4 = i.val ∧ s.pins[n].claimed.isSome = true ∧ allocByte s.pins[n] ≠ wordByte v (n.val % 4) := by
  simp only [allocHolds, List.any_eq_true, Bool.and_eq_true, decide_eq_true_eq]
  constructor
  · rintro ⟨k, hk, hclaimed, hne⟩
    have hk4 : k < 4 := by
      revert k
      simp
    obtain ⟨hdiv, hmod⟩ := (eq_allocPinOf_iff hk4 (allocPinOf i k)).mp rfl
    exact ⟨allocPinOf i k, hdiv, hclaimed, by rwa [hmod]⟩
  · rintro ⟨n, hdiv, hclaimed, hne⟩
    have hn : n = allocPinOf i (n.val % 4) := (eq_allocPinOf_iff (Nat.mod_lt _ (by decide)) n).mpr ⟨hdiv, rfl⟩
    refine ⟨n.val % 4, mem_four _, ?_, ?_⟩
    · simpa only [← hn] using hclaimed
    · simpa only [← hn] using hne

/-- What a write of four good bytes leaves: the pins of `allocAll`, and ALLOC_HELD. -/
theorem exec_vrdAllocWrite_of_fits {i : Fin 8} {v : Word} {s : State} (hup : s.glb.phase = .up) (hfit : ∀ k : Fin 4, wordByte v k.val < 32) :
    ∃ t, exec (.vrdAllocWrite i v) s = .next t ∧ t.pins = (allocAll i v s).pins ∧ t.allocHeld = (s.allocHeld || allocHolds i v s) := by
  have hany : ([0, 1, 2, 3] : List Nat).any (fun k => decide (32 ≤ wordByte v k)) = false := by
    rw [List.any_eq_false]
    intro k hk
    have hk4 : k < 4 := by
      revert k
      simp
    have := hfit ⟨k, hk4⟩
    simpa using this
  refine ⟨_, exec_vrdAllocWrite_eq hup, ?_⟩
  rw [hany, if_neg Bool.false_ne_true]
  have hheld := allocAll_allocHeld i v s
  split
  next h => exact ⟨rfl, by simp_all⟩
  next h =>
    refine ⟨rfl, hheld.trans ?_⟩
    cases hs : s.allocHeld <;> simp_all

/-- Settles O36: the word's pins after `allocAll`, byte by byte. -/
theorem pinAllocationGoesByteByByte : Obligations.PinAllocationGoesByteByByte := by
  intro i v s hup
  refine ⟨fun ⟨k, hk⟩ => ?_, fun hfit => ?_⟩
  · have hany : ([0, 1, 2, 3] : List Nat).any (fun k => decide (32 ≤ wordByte v k)) = true :=
      List.any_eq_true.mpr ⟨k.val, Nat.mod_eq_of_lt k.isLt ▸ mem_four k.val, decide_eq_true hk⟩
    rw [exec_vrdAllocWrite_eq hup, hany, if_pos rfl]
  · obtain ⟨t, h, hpins, hheld⟩ := exec_vrdAllocWrite_of_fits (i := i) hup hfit
    refine ⟨t, h, exec_touch h, fun n hn => ?_, fun n b hdiv hfree hb => ?_, ?_⟩
    · rw [hpins, allocAll_pin, if_neg]
      rintro ⟨hdiv, hfree⟩
      rcases hn with hn | hn
      · exact hn hdiv
      · simp only [hfree, Option.isSome_none, Bool.false_eq_true] at hn
    · rw [hpins, allocAll_pin, if_pos ⟨hdiv, hfree⟩, show wordByte v (n.val % 4) = b from hb.symm]
      exact ⟨by simp [allocPin, Fin.ofNat], rfl, rfl, rfl, rfl⟩
    · rw [hheld]
      congr 1
      exact Bool.eq_iff_iff.mpr ((allocHolds_iff i v s).trans (decide_eq_true_iff).symm)

end Sys2Proof.Machine
end

