-- ==== Sys2Proof/Proofs/ExportRings.lean ====
section
/-! The rings and their pages, the host link, evidence crops: O53, O54 and O55. What the arbiter begins is outside `Exp.settled`. -/

namespace Sys2Proof.Machine

-- One proof at a time: a default argument that is a tactic waits for every proof before it.
set_option Elab.async false

/-! ### Whole components from a frame -/

/-- Identity, status and link stand, and so does what is signalled. -/
theorem Touch.glb_whole {l : List Fld} {s t : State} (h : Touch l s t) (hg : Fld.glb ∉ l := by decide)
    (hs : Fld.signals ∉ l := by decide) : t.glb = s.glb := by
  have hquiet := h.glb_eq hg
  obtain ⟨hirq, hvec, hpba⟩ := h.signals_eq hs
  have hrebuild : ∀ g : Glb, g = { g.quiet with irq := g.irq, vectors := g.vectors, pba := g.pba } := fun _ => rfl
  rw [hrebuild t.glb, hrebuild s.glb, hquiet, hirq, hvec, hpba]

/-- The log stands, and so does its view. -/
theorem Touch.flt_whole {l : List Fld} {s t : State} (h : Touch l s t) (hf : Fld.flt ∉ l := by decide)
    (hv : Fld.fltView ∉ l := by decide) : t.flt = s.flt := by
  obtain ⟨hentries, hnext, hsup⟩ := h.flt_eq hf
  obtain ⟨hsel, hdata⟩ := h.fltView_eq hv
  have hrebuild : ∀ f : FaultLog, f = ⟨f.entries, f.nextSeq, f.sel, f.data, f.suppressed⟩ := fun _ => rfl
  rw [hrebuild t.flt, hrebuild s.flt, hentries, hnext, hsel, hdata, hsup]

theorem updExp_at (s : State) (p : PartId) (f : Exp → Exp) : (updExp s p f).exps[p] = f s.exps[p] := updExp_self s p f

theorem updExp_off (s : State) {p q : PartId} (f : Exp → Exp) (hq : q ≠ p) : (updExp s p f).exps[q] = s.exps[q] := updExp_other s p f q hq

theorem exportPump_glb (s : State) : (exportPump s).glb = s.glb := (exportPump_keeps s).touch.glb_whole

/-- The arbiter leaves another ring but for what `settled` leaves out, and so does a change of one ring before it. -/
theorem exportPump_updExp_other (s : State) {p q : PartId} (f : Exp → Exp) (hq : q ≠ p) :
    ((exportPump (updExp s p f)).exps[q]).settled = (s.exps[q]).settled :=
  (exportPump_settled _ _).trans (congrArg Exp.settled (updExp_off s f hq))

theorem exportPump_updExp_self (s : State) (p : PartId) (f : Exp → Exp) :
    ((exportPump (updExp s p f)).exps[p]).settled = (f s.exps[p]).settled := by
  rw [exportPump_settled, updExp_at]

/-! ### Pages -/

theorem settled_closed_recs {e f : Exp} (h : e.settled = f.settled) : e.closed.map (·.recs) = f.closed.map (·.recs) := by
  have hc : (e.closed.map fun pg => { pg with seq := none }).map (·.recs) = (f.closed.map fun pg => { pg with seq := none }).map (·.recs) :=
    congrArg (fun x => x.closed.map (·.recs)) h
  simpa only [List.map_map, Function.comp_def] using hc

theorem closePage_of_recs {time : Nat} {why : CloseWhy} {e : Exp} {pg : Page} (ho : e.opened = some pg) (hr : pg.recs ≠ []) :
    closePage time why e = { e with opened := none, closed := e.closed ++
      [{ pg with tClose := time, why := why, evdDrop := e.evdDrop, vrdDrop := e.vrdDrop, cenDrop := e.cenDrop }] } := by
  have hne : ¬pg.recs.isEmpty = true := by simpa using hr
  simp only [closePage, ho, if_neg hne]

theorem closePage_opened (time : Nat) (why : CloseWhy) (e : Exp) : (closePage time why e).opened = none := by
  unfold closePage
  split
  · assumption
  · split <;> rfl

/-- A ring whose settled part is that of `e` with a page at its end holds that page last, whatever its number. -/
theorem settled_getLast {e f : Exp} {pages : List Page} {pg : Page} (h : e.settled = f.settled) (hf : f.closed = pages ++ [pg]) :
    ∃ pg', e.closed.getLast? = some pg' ∧ { pg' with seq := none } = { pg with seq := none } := by
  have hc : e.closed.map (fun x => { x with seq := none }) = pages.map (fun x => { x with seq := none }) ++ [{ pg with seq := none }] := by
    have := congrArg Exp.closed h
    simpa only [Exp.settled, hf, List.map_append, List.map_cons, List.map_nil] using this
  have hl := congrArg List.getLast? hc
  rw [List.getLast?_map, List.getLast?_concat, Option.map_eq_some_iff] at hl
  exact hl

theorem exec_pageFlush_eq {p : PartId} {s : State} (hup : s.glb.phase = .up) : exec (.pageFlush p) s =
    .next (if flushDue (now s) s.exps[p] then exportPump (updExp s p (closePage (now s) .flush)) else s) := exec_of_up hup

theorem flushDue_of_opened {time : Nat} {e : Exp} {pg : Page} (h : e.opened = some pg) :
    flushDue time e = decide (pg.tOpen + 100000 ≤ time) := by
  simp only [flushDue, h]

/-! ### Delivery and the ring's vector -/

/-- A signal of a ring while no holdoff runs. -/
theorem signalRing_of_quiet {s : State} {p : PartId} (h : s.exps[p].holdoffOn = false) : signalRing s p =
    updExp (irq s (ringVector p)) p (fun e => { e with holdoffOn := decide (0 < e.holdoff), holdoffAt := now s, advanced := false }) :=
  if_neg (Bool.eq_false_iff.mp h)

theorem signalRing_of_holdoff {s : State} {p : PartId} (h : s.exps[p].holdoffOn = true) :
    signalRing s p = updExp (ringEvent s p) p (fun e => { e with advanced := true }) :=
  if_pos h

/-- Of the ring itself a signal reaches only the holdoff. -/
theorem signalRing_exp (s : State) (p : PartId) : ∃ on at' adv, (signalRing s p).exps[p] =
    { s.exps[p] with holdoffOn := on, holdoffAt := at', advanced := adv } := by
  cases h : s.exps[p].holdoffOn with
  | false =>
    rw [signalRing_of_quiet h, updExp_at]
    exact ⟨_, _, _, rfl⟩
  | true =>
    rw [signalRing_of_holdoff h, updExp_at]
    exact ⟨_, _, _, rfl⟩

theorem signalRing_other (s : State) {p q : PartId} (hq : q ≠ p) : (signalRing s p).exps[q] = s.exps[q] := by
  cases h : s.exps[p].holdoffOn with
  | false =>
    rw [signalRing_of_quiet h]
    exact updExp_other _ _ _ q hq
  | true =>
    rw [signalRing_of_holdoff h]
    exact updExp_other _ _ _ q hq

theorem deliverPage_of_closed {e : Exp} {pg : Page} {rest : List Page} {n : Nat} (hc : e.closed = pg :: rest) (hn : pg.seq = some n) :
    deliverPage e = { e with closed := rest, writing := false, tail := n + 1,
                             lastWb := if e.tailWb then some (BitVec.ofNat 32 (n + 1)) else e.lastWb } := by
  simp only [deliverPage, hc, hn, Option.getD_some]

theorem exec_pageDelivered_eq {p : PartId} {s : State} (hup : s.glb.phase = .up) : exec (.pageDelivered p) s =
    .next (if s.exps[p].writing then exportPump (signalRing (updExp s p deliverPage) p) else s) := exec_of_up hup

theorem exec_irqHoldoffEnd_eq {p : PartId} {s : State} (hup : s.glb.phase = .up) : exec (.irqHoldoffEnd p) s =
    .next (if !s.exps[p].holdoffOn || decide (now s < s.exps[p].holdoffAt + 1000 * s.exps[p].holdoff) then s
      else if s.exps[p].advanced then signalRing (updExp s p (fun e => { e with holdoffOn := false })) p
      else updExp s p (fun e => { e with holdoffOn := false })) := exec_of_up hup

/-! ### Credits -/

theorem beginWrite_credits (p : PartId) (e : Exp) : (beginWrite p e).credits = e.credits := by
  unfold beginWrite
  split <;> rfl

theorem beginWrite_writing {p : PartId} {e : Exp} (h : e.closed ≠ []) : (beginWrite p e).writing = true := by
  unfold beginWrite
  split
  · contradiction
  · rfl

theorem closed_ne_nil_of_canWrite {e : Exp} (h : canWrite e = true) : e.closed ≠ [] := by
  simp only [canWrite, Bool.and_eq_true, Bool.not_eq_true', List.isEmpty_eq_false_iff] at h
  exact h.1.2

theorem markFull_credits (e : Exp) : (markFull e).credits = e.credits := by
  unfold markFull
  split <;> rfl

theorem updExps_at (s : State) (p : PartId) (f : Exp → Exp) : (updExps s f).exps[p] = f s.exps[p] := by
  simp [updExps]

/-- The pick that spends a credit is of a ring whose head page may move. -/
theorem canWrite_of_arbPick {s : State} {p : PartId} (h : arbPick s = some (p, true)) : canWrite s.exps[p] = true := by
  unfold arbPick at h
  split at h
  next q hq =>
    obtain ⟨rfl, -⟩ := Prod.mk.inj (Option.some.inj h)
    have := List.find?_some hq
    exact (Bool.and_eq_true _ _ ▸ this).1
  next =>
    split at h
    · cases h
    · obtain ⟨q, -, hq⟩ := Option.map_eq_some_iff.mp h
      cases hq

/-- The arbiter spends at most one credit: that of the ring whose page it starts. -/
theorem exportPump_credits (s : State) (p : PartId) : (exportPump s).exps[p].credits = s.exps[p].credits ∨
    ((exportPump s).exps[p].credits = s.exps[p].credits - 1 ∧ (exportPump s).exps[p].writing = true ∧ (exportPump s).arbLast = p) := by
  have hmark : ∀ q : PartId, (updExps s markFull).exps[q].credits = s.exps[q].credits := by
    intro q
    rw [updExps_at, markFull_credits]
  unfold exportPump
  extract_lets s1 s2
  split
  · exact .inl (hmark p)
  · split
    next => exact .inl (hmark p)
    next q hq =>
      by_cases hp : p = q
      · subst hp
        have hclosed := closed_ne_nil_of_canWrite (canWrite_of_arbPick hq)
        have hself := updExp_at s1 p fun e => beginWrite p { e with credits := e.credits - 1 }
        exact .inr ⟨(congrArg Exp.credits hself).trans ((beginWrite_credits _ _).trans (congrArg (· - 1) (hmark p))),
          (congrArg Exp.writing hself).trans (beginWrite_writing hclosed), rfl⟩
      · have hother := updExp_off s1 (fun e => beginWrite q { e with credits := e.credits - 1 }) hp
        exact .inl ((congrArg Exp.credits hother).trans (hmark p))
    next q hq =>
      have h2 : s2.exps[p].credits = s.exps[p].credits := by
        simp only [s2]
        split
        · rw [updExps_at]
          exact hmark p
        · exact hmark p
      left
      by_cases hp : p = q
      · subst hp
        rw [updExp_at, beginWrite_credits]
        exact h2
      · rw [updExp_off s2 _ hp]
        exact h2

/-- Settles O53. -/
theorem pagesCloseAndAreDeliveredInOrder : Obligations.PagesCloseAndAreDeliveredInOrder := by
  intro p s hup
  refine ⟨fun pg ho hearly => ?_, fun ho => ?_, fun pg ho hdue => ?_, fun hw => ?_, fun pg rest n hw hc hn => ?_, fun hon hearly => ?_,
    fun hon hdue => ?_, fun hoff => ?_, ?_⟩
  · rw [exec_pageFlush_eq hup, flushDue_of_opened ho, decide_eq_false (Nat.not_le.mpr hearly)]
    rfl
  · rw [exec_pageFlush_eq hup]
    simp only [flushDue, ho]
    rfl
  · have h := exec_pageFlush_eq (p := p) hup
    rw [flushDue_of_opened ho, decide_eq_true hdue, if_pos rfl] at h
    have hself := exportPump_updExp_self s p (closePage (now s) .flush)
    refine ⟨_, h, exec_touch h, (congrArg Exp.opened hself).trans (closePage_opened _ _ _), fun q hq => exportPump_updExp_other s _ hq,
      fun hr => ?_⟩
    have hclose := closePage_of_recs (time := now s) (why := .flush) ho hr
    refine ⟨?_, ?_⟩
    · rw [settled_closed_recs hself, hclose]
      simp
    · obtain ⟨pg', hlast, heq⟩ := settled_getLast hself (congrArg Exp.closed hclose)
      exact ⟨pg', hlast, (congrArg Page.why heq :), (congrArg Page.tOpen heq :), (congrArg Page.tClose heq :),
        (congrArg Page.evdDrop heq :), (congrArg Page.vrdDrop heq :), (congrArg Page.cenDrop heq :)⟩
  · rw [exec_pageDelivered_eq hup, hw]
    rfl
  · have h := exec_pageDelivered_eq (p := p) hup
    rw [hw, if_pos rfl] at h
    have hset := exportPump_settled (signalRing (updExp s p deliverPage) p) p
    obtain ⟨on, at', adv, hsig⟩ := signalRing_exp (updExp s p deliverPage) p
    rw [updExp_at, deliverPage_of_closed hc hn] at hsig
    rw [hsig] at hset
    refine ⟨_, h, exec_touch h, (congrArg Exp.tail hset :), settled_closed_recs hset, (congrArg Exp.head hset :), fun hwb => ?_, fun hwb => ?_,
      fun hoff => ?_, fun hon => ?_⟩
    · exact (congrArg Exp.lastWb hset :).trans (if_pos hwb)
    · exact (congrArg Exp.lastWb hset :).trans (if_neg (Bool.eq_false_iff.mp hwb))
    · have hq : (updExp s p deliverPage).exps[p].holdoffOn = false := by
        rw [updExp_at, deliverPage_of_closed hc hn]
        exact hoff
      have hsig' := signalRing_of_quiet hq
      refine ⟨?_, ?_⟩
      · rw [exportPump_glb, hsig']
        rfl
      · have hset' := exportPump_settled (signalRing (updExp s p deliverPage) p) p
        rw [hsig'] at hset' ⊢
        rw [updExp_at, irq_exps, updExp_at, deliverPage_of_closed hc hn] at hset'
        exact (congrArg Exp.holdoffOn hset' :)
    · have hq : (updExp s p deliverPage).exps[p].holdoffOn = true := by
        rw [updExp_at, deliverPage_of_closed hc hn]
        exact hon
      have hsig' := signalRing_of_holdoff hq
      have hset' := exportPump_settled (signalRing (updExp s p deliverPage) p) p
      rw [hsig'] at hset' ⊢
      rw [updExp_at] at hset'
      refine ⟨(congrArg Exp.holdoffOn hset' :).trans hq, (congrArg Exp.advanced hset' :), ?_⟩
      rw [exportPump_glb]
      rfl
  · rw [exec_irqHoldoffEnd_eq hup, hon, decide_eq_true hearly]
    rfl
  · have h := exec_irqHoldoffEnd_eq (p := p) hup
    rw [hon, decide_eq_false (Nat.not_lt.mpr hdue)] at h
    refine ⟨_, h, exec_touch h, fun hadv => ?_, fun hadv => ?_⟩
    · rw [hadv]
      exact ⟨rfl, rfl⟩
    · have hq : (updExp s p (fun e => { e with holdoffOn := false })).exps[p].holdoffOn = false := by
        rw [updExp_at]
      rw [hadv]
      refine ⟨?_, ?_⟩
      · rw [show (if (!true || false) = true then s else if true = true then _ else _) = _ from rfl, signalRing_of_quiet hq]
        rfl
      · rw [show (if (!true || false) = true then s else if true = true then _ else _) = _ from rfl, signalRing_of_quiet hq]
        simp [updExp, now]
  · rw [exec_irqHoldoffEnd_eq hup, hoff]
    rfl
  · have h : exec .verdictCreditRefill s = .next (exportPump (updExps s fun e => { e with credits := min 2 (e.credits + 2) })) :=
      exec_of_up hup
    have hcr : (updExps s fun e => { e with credits := min 2 (e.credits + 2) }).exps[p].credits = 2 := by
      rw [updExps_at]
      exact Nat.min_eq_left (Nat.le_add_left _ _)
    refine ⟨_, h, exec_touch h, ?_, ?_⟩
    · rw [exportPump_settled, updExps_at]
      rfl
    · have := exportPump_credits (updExps s fun e => { e with credits := min 2 (e.credits + 2) }) p
      rwa [hcr] at this

/-! ### The host's registers of a ring, and the host link -/

theorem exec_expCtrlWrite_eq {p : PartId} {v : Word} {s : State} (hup : s.glb.phase = .up) : exec (.expCtrlWrite p v) s =
    .next (if 4 ≤ v.toNat then s else if v.getLsbD 0 && !ringOk s.exps[p] then updExp s p (fun e => { e with cfgErr := true })
      else exportPump (if v.getLsbD 0 && !s.exps[p].run && decide (tailAhead s.exps[p] ≠ 0) then
          signalRing (updExp s p fun e => { e with run := v.getLsbD 0, tailWb := v.getLsbD 1 }) p
        else updExp s p fun e => { e with run := v.getLsbD 0, tailWb := v.getLsbD 1 })) := exec_of_up hup

theorem exec_expHeadWrite_eq {p : PartId} {v : Word} {s : State} (hup : s.glb.phase = .up) : exec (.expHeadWrite p v) s =
    .next (if (v - s.exps[p].head).toNat ≤ tailAhead s.exps[p] then exportPump (updExp s p fun e => { e with head := v })
      else updExp s p fun e => { e with headErr := true }) := exec_of_up hup

/-- A signal leaves every ring but for its holdoff. -/
theorem signalRing_settled (s : State) (p q : PartId) : ∃ on at' adv, (signalRing s p).exps[q] =
    { s.exps[q] with holdoffOn := on, holdoffAt := at', advanced := adv } := by
  by_cases hq : q = p
  · exact hq ▸ signalRing_exp s p
  · exact ⟨_, _, _, signalRing_other s hq⟩

/-- The rings stop and the link is down (R401). -/
def linkDown (s : State) : State :=
  { updExps s (fun e => { e with run := false, linkLost := true, writing := false }) with
    glb := { s.glb with linkUp := false, linkGen := 0, linkWidth := 0 } }

theorem exec_hostLinkDown_eq {s : State} (hup : s.glb.phase = .up) : exec .hostLinkDown s =
    .next (if !s.glb.linkUp then s else logIrq (linkDown s) 0x0007 0 0 0 false 0) := exec_of_up hup

theorem sendVector_vectors_eq (g : Glb) (v : Fin 32) : (sendVector g v).vectors =
    if vectorMasked g v then g.vectors else g.vectors.set v.val (g.vectors[v] + 1) v.isLt := by
  unfold sendVector
  split <;> rfl

/-- Whether a vector sends does not depend on the link. -/
theorem linkDown_vectors (s : State) : (logIrq (linkDown s) 0x0007 0 0 0 false 0).glb.vectors = (irq s 0).glb.vectors := by
  rw [logIrq, irq_glb, irq_glb, sendVector_vectors_eq, sendVector_vectors_eq, logEvent_glb]
  rfl

/-- Settles O54. -/
theorem ringsFollowTheHostAndItsLink : Obligations.RingsFollowTheHostAndItsLink := by
  intro p s hup
  refine ⟨fun v hv => ?_, fun v hv hrun hok => ?_, fun v hv hok => ?_, fun v hv => ?_, fun v hv => ?_, fun hl => ?_, fun g w hl => ?_⟩
  · rw [exec_expCtrlWrite_eq hup, if_pos hv]
  · have h := exec_expCtrlWrite_eq (p := p) (v := v) hup
    have hbad : (v.getLsbD 0 && !ringOk s.exps[p]) = true := by
      rw [hrun, hok]
      rfl
    rw [if_neg (Nat.not_le.mpr hv), if_pos hbad] at h
    exact ⟨_, h, (updExp_keeps _ _ _).touch, rfl⟩
  · have h := exec_expCtrlWrite_eq (p := p) (v := v) hup
    have hfit : ¬(v.getLsbD 0 && !ringOk s.exps[p]) = true := by
      cases hr : v.getLsbD 0 with
      | false => simp
      | true => simp [-Fin.getElem_fin, hok hr]
    rw [if_neg (Nat.not_le.mpr hv), if_neg hfit] at h
    cases hsig : v.getLsbD 0 && !s.exps[p].run && decide (tailAhead s.exps[p] ≠ 0) with
    | true =>
      rw [hsig, if_pos rfl] at h
      simp only [Bool.and_eq_true, Bool.not_eq_true', decide_eq_true_eq] at hsig
      obtain ⟨⟨hset, hrun⟩, hahead⟩ := hsig
      have hself := exportPump_settled (signalRing (updExp s p fun e => { e with run := v.getLsbD 0, tailWb := v.getLsbD 1 }) p) p
      obtain ⟨on, at', adv, hsig⟩ := signalRing_exp (updExp s p fun e => { e with run := v.getLsbD 0, tailWb := v.getLsbD 1 }) p
      rw [hsig, updExp_at] at hself
      refine ⟨_, h, exec_touch h, (congrArg Exp.run hself :), (congrArg Exp.tailWb hself :), (congrArg Exp.tail hself :),
        (congrArg Exp.head hself :), fun q hq => ?_, fun _ _ _ hoff => ?_, fun hno => ?_⟩
      · rw [exportPump_settled, signalRing_other _ hq, updExp_off _ _ hq]
      · rw [exportPump_glb, signalRing_of_quiet ((congrArg Exp.holdoffOn (updExp_at s p _)).trans hoff)]
        rfl
      · rw [hset, hrun] at hno
        rcases hno with hno | hno | hno
        · cases hno
        · cases hno
        · exact absurd hno hahead
    | false =>
      rw [hsig, if_neg Bool.false_ne_true] at h
      have hself := exportPump_updExp_self s p fun e => { e with run := v.getLsbD 0, tailWb := v.getLsbD 1 }
      refine ⟨_, h, exec_touch h, (congrArg Exp.run hself :), (congrArg Exp.tailWb hself :), (congrArg Exp.tail hself :),
        (congrArg Exp.head hself :), fun q hq => exportPump_updExp_other s _ hq, fun hset hrun hahead _ => ?_, fun _ => ?_⟩
      · rw [hset, hrun, decide_eq_true hahead] at hsig
        cases hsig
      · exact exportPump_glb _
  · have h := exec_expHeadWrite_eq (p := p) (v := v) hup
    rw [if_pos hv] at h
    have hself := exportPump_updExp_self s p fun e => { e with head := v }
    exact ⟨_, h, exec_touch h, (congrArg Exp.head hself :), (congrArg Exp.tail hself :), fun q hq => exportPump_updExp_other s _ hq⟩
  · have h := exec_expHeadWrite_eq (p := p) (v := v) hup
    rw [if_neg (Nat.not_le.mpr hv)] at h
    exact ⟨_, h, (updExp_keeps _ _ _).touch, rfl⟩
  · have h := exec_hostLinkDown_eq hup
    rw [hl] at h
    have htouch : Touch [.signals, .flt] (linkDown s) (logIrq (linkDown s) 0x0007 0 0 0 false 0) := (logIrq_keeps _ _ _ _ _ _ _).touch
    refine ⟨_, h, exec_touch h, (congrArg Glb.linkUp (htouch.glb_eq (by decide)) :), ?_, ?_, ?_⟩
    · exact (congrArg (·[p]) (htouch.exps_eq (by decide))).trans (updExps_at s p _)
    · exact (logEvent_flt (linkDown s) _ _ _ _ _).trans (logEvent_flt s _ _ _ _ _).symm
    · exact linkDown_vectors s
  · refine ⟨_, exec_of_up hup, ?_⟩
    rw [hl]
    rfl

end Sys2Proof.Machine
end

