-- ==== Sys2Proof/Proofs/EvidenceCrops.lean ====
section
/-! Evidence crops: O55. What enters the record store changes neither the crop numbers nor the records of the latest millisecond. -/

namespace Sys2Proof.Machine

-- One proof at a time: a default argument that is a tactic waits for every proof before it.
set_option Elab.async false

/-- The number of the next crop and the records of the latest millisecond. -/
def Exp.matching (e : Exp) : Nat × List RecentVerdict := (e.nextCrop, e.recent)

theorem putRec_matching (time gen : Nat) (e : Exp) (r : ERec) : (putRec time gen e r).matching = e.matching := by
  unfold putRec
  split <;> rfl

theorem closePage_matching (time : Nat) (why : CloseWhy) (e : Exp) : (closePage time why e).matching = e.matching := by
  unfold closePage
  split
  · rfl
  · split <;> rfl

theorem placeRec_matching (time gen : Nat) (e : Exp) (r : ERec) : (placeRec time gen e r).matching = e.matching := by
  unfold placeRec
  split
  · exact putRec_matching _ _ _ _
  · exact (putRec_matching _ _ _ _).trans (closePage_matching _ _ _)

theorem placeDropGap_matching (time gen : Nat) (e : Exp) : (placeDropGap time gen e).matching = e.matching := by
  unfold placeDropGap
  split
  · rfl
  · exact placeRec_matching _ _ _ _

theorem dropVerdict_matching (time gen seq : Nat) (e : Exp) : (dropVerdict time gen seq e).matching = e.matching := by
  unfold dropVerdict
  extract_lets e1
  split
  · rfl
  · split
    · rfl
    · exact (placeDropGap_matching time gen e1)

theorem discardOne_matching {time gen : Nat} {e e' : Exp} (h : discardOne time gen e = some e') : e'.matching = e.matching := by
  unfold discardOne at h
  extract_lets ds keep at h
  split at h
  · obtain rfl := Option.some.inj h
    rfl
  · split at h
    · obtain rfl := Option.some.inj h
      rfl
    · split at h
      · obtain rfl := Option.some.inj h
        exact dropVerdict_matching _ _ _ _
      · cases h

theorem makeRoom_matching (time gen need : Nat) : ∀ (fuel : Nat) (e : Exp), (makeRoom time gen need fuel e).matching = e.matching
  | 0, _ => rfl
  | fuel + 1, e => by
    unfold makeRoom
    split
    · rfl
    · split
      next e' he' => exact (makeRoom_matching time gen need fuel e').trans (discardOne_matching he')
      next => rfl

theorem enterFrags_matching (time gen crop : Nat) (mk : Nat → Bool → List Byte → List Byte) : ∀ (fuel num : Nat) (data : List Byte) (e : Exp),
    (enterFrags time gen crop mk fuel num data e).matching = e.matching
  | 0, _, _, _ => rfl
  | fuel + 1, num, data, e => by
    unfold enterFrags
    extract_lets whole e1 room
    have hroom : e1.matching = e.matching := makeRoom_matching _ _ _ _ _
    split
    · exact hroom
    · split
      · exact (putRec_matching _ _ _ _).trans hroom
      · split
        · exact (enterFrags_matching time gen crop mk fuel _ _ _).trans ((putRec_matching _ _ _ _).trans hroom)
        · exact (enterFrags_matching time gen crop mk fuel _ _ _).trans ((closePage_matching _ _ _).trans hroom)

theorem enterCrop_matching (time gen : Nat) (i : Image) (c : Crop) (v : RecentVerdict) (e : Exp) :
    (enterCrop time gen i c v e).matching = (e.nextCrop + 1, e.recent) := by
  unfold enterCrop
  extract_lets delta data e1
  have hrecent : e1.recent = e.recent := by
    unfold e1
    split
    · exact congrArg Prod.snd (placeDropGap_matching time gen e)
    · rfl
  rw [enterFrags_matching]
  exact congrArg (e.nextCrop + 1, ·) hrecent

/-- A crop that meets its record first takes the next number, and the record keeps its stream. -/
theorem meetCrop_of_first {time gen : Nat} {i : Image} {c : Crop} {v : RecentVerdict} {e : Exp} (h : c.stream ∉ v.streams) :
    (meetCrop time gen i c v e).matching =
      (e.nextCrop + 1, e.recent.map (fun u => if u = v then { v with streams := c.stream :: v.streams } else u)) := by
  have hno : ¬v.streams.contains c.stream = true := by simpa using h
  rw [meetCrop, if_neg hno]
  exact enterCrop_matching _ _ _ _ _ _

theorem meetCrop_of_second {time gen : Nat} {i : Image} {c : Crop} {v : RecentVerdict} {e : Exp} (h : c.stream ∈ v.streams) :
    meetCrop time gen i c v e = { e with evdDrop := satInc e.evdDrop } :=
  if_pos (by simpa using h)

/-! ### The commands -/

/-- What a crop does to the ring of its partition. -/
def takeCrop (time gen : Nat) (i : Image) (c : Crop) (e : Exp) : Exp :=
  if 262144 < (e.crops.map cropSize).sum + cropSize c then { e with evdDrop := satInc e.evdDrop }
  else match e.recent.find? (cropMatches c) with
    | some v => meetCrop time gen i c v e
    | none => { e with crops := e.crops ++ [c] }

theorem exec_evidenceCropReceived_eq {p : PartId} {i : Image} {flits : List Flit} {s : State} (hup : s.glb.phase = .up)
    (hi : s.parts[p].active = some i) (hs : isServing s.parts[p].state = true) : exec (.evidenceCropReceived p flits) s =
    .next (exportPump (updExp s p (takeCrop (now s) s.parts[p].regs.ldgGen i (readCrop (now s) flits)))) := by
  refine exec_of_up hup ((exec_evidenceCropReceived p flits s).trans ?_)
  unfold execEvidenceCropReceived
  simp only [hi, hs]
  rfl

section TakeCrop

variable {time gen : Nat} {i : Image} {c : Crop} {e : Exp}

theorem takeCrop_of_full (h : 262144 < (e.crops.map cropSize).sum + cropSize c) :
    takeCrop time gen i c e = { e with evdDrop := satInc e.evdDrop } := if_pos h

theorem takeCrop_of_none (hroom : (e.crops.map cropSize).sum + cropSize c ≤ 262144) (h : e.recent.find? (cropMatches c) = none) :
    takeCrop time gen i c e = { e with crops := e.crops ++ [c] } := by
  rw [takeCrop, if_neg (Nat.not_lt.mpr hroom)]
  simp only [h]

theorem takeCrop_of_match {v : RecentVerdict} (hroom : (e.crops.map cropSize).sum + cropSize c ≤ 262144)
    (h : e.recent.find? (cropMatches c) = some v) : takeCrop time gen i c e = meetCrop time gen i c v e := by
  rw [takeCrop, if_neg (Nat.not_lt.mpr hroom)]
  simp only [h]

end TakeCrop

/-- What the timeout of the oldest waiting crop does to the ring of its partition. -/
def dropLateCrop (time : Nat) (e : Exp) : Exp :=
  match e.crops with
  | [] => e
  | c :: rest => if c.arrived + ms1 < time then { e with crops := rest, evdDrop := satInc e.evdDrop } else e

theorem exec_evidenceMatchTimeout_eq {p : PartId} {s : State} (hup : s.glb.phase = .up) :
    exec (.evidenceMatchTimeout p) s = .next (updExp s p (dropLateCrop (now s))) := exec_of_up hup

theorem dropLateCrop_of_cons {time : Nat} {e : Exp} {d : Crop} {ds : List Crop} (h : e.crops = d :: ds) : dropLateCrop time e =
    if d.arrived + ms1 < time then { e with crops := ds, evdDrop := satInc e.evdDrop } else e := by
  simp only [dropLateCrop, h]

theorem dropLateCrop_of_nil {time : Nat} {e : Exp} (h : e.crops = []) : dropLateCrop time e = e := by
  simp only [dropLateCrop, h]

/-- A change of a ring that leaves it as it is changes nothing. -/
theorem updExp_eq_self {s : State} {p : PartId} {f : Exp → Exp} (h : f s.exps[p] = s.exps[p]) : updExp s p f = s := by
  have hset : s.exps.set p.val (f s.exps[p]) p.isLt = s.exps := by
    rw [h]
    exact Vector.set_getElem_self p.isLt
  exact congrArg (fun v => ({ s with exps := v } : State)) hset

/-- Settles O55: what `takeCrop` and `dropLateCrop` do, seen through the arbiter that leaves the settled part. -/
theorem cropsMeetTheirRecordsOrAreDropped : Obligations.CropsMeetTheirRecordsOrAreDropped := by
  intro p i flits c s hup hi hs hc
  have h := exec_evidenceCropReceived_eq (flits := flits) hup hi hs
  have hself := exportPump_updExp_self s p (takeCrop (now s) s.parts[p].regs.ldgGen i c)
  rw [← hc] at h
  refine ⟨fun hfull => ?_, fun hroom => ⟨fun hnone => ?_, fun v hv hmem => ?_, fun v hv hmem => ?_⟩, fun d ds hd hearly => ?_,
    fun d ds hd hlate => ?_, fun hnil => ?_⟩
  · rw [takeCrop_of_full hfull] at hself
    exact ⟨_, h, exec_touch h, (congrArg Exp.evdDrop hself :), (congrArg Exp.crops hself :), (congrArg Exp.nextCrop hself :)⟩
  · have hfind : s.exps[p].recent.find? (cropMatches c) = none := by
      rw [List.find?_eq_none]
      intro v hv
      simpa using List.all_eq_true.mp hnone v hv
    rw [takeCrop_of_none hroom hfind] at hself
    exact ⟨_, h, exec_touch h, (congrArg Exp.crops hself :), (congrArg Exp.evdDrop hself :)⟩
  · rw [takeCrop_of_match hroom hv, meetCrop_of_second hmem] at hself
    exact ⟨_, h, exec_touch h, (congrArg Exp.evdDrop hself :), (congrArg Exp.nextCrop hself :)⟩
  · rw [takeCrop_of_match hroom hv] at hself
    have hmatch := (congrArg Exp.matching hself).trans (meetCrop_of_first hmem)
    exact ⟨_, h, exec_touch h, congrArg Prod.fst hmatch, congrArg Prod.snd hmatch⟩
  · rw [exec_evidenceMatchTimeout_eq hup, updExp_eq_self]
    rw [dropLateCrop_of_cons hd]
    exact if_neg (Nat.not_lt.mpr hearly)
  · have h := exec_evidenceMatchTimeout_eq (p := p) hup
    refine ⟨_, h, exec_touch h, ?_⟩
    have hdrop := dropLateCrop_of_cons (time := now s) hd
    rw [if_pos (show d.arrived + ms1 < now s from hlate)] at hdrop
    exact congrArg (s.exps.set p.val · p.isLt) hdrop
  · rw [exec_evidenceMatchTimeout_eq hup, updExp_eq_self (dropLateCrop_of_nil hnil)]

end Sys2Proof.Machine
end

