-- ==== Sys2Proof/Proofs/HostRegisters.lean ====
section
/-! The host's reads and writes of BAR0: O49. No LO register stands right behind another one, so the read of a HI register returns what
the read of its LO register latched. -/

namespace Sys2Proof.Machine

-- One proof at a time: a default argument that is a tactic waits for every proof before it.
set_option Elab.async false

/-! ### Addresses of a group -/

theorem inGroup_eq_some {base stride count a n off : Nat} (h : inGroup base stride count a = some (n, off)) (hs : 0 < stride := by decide) :
    n < count ∧ off < stride ∧ a = base + stride * n + off := by
  unfold inGroup at h
  split at h
  next hin =>
    obtain ⟨rfl, rfl⟩ := Prod.mk.inj (Option.some.inj h)
    refine ⟨Nat.div_lt_of_lt_mul (by omega), Nat.mod_lt _ hs, ?_⟩
    have := Nat.div_add_mod (a - base) stride
    omega
  next => cases h

theorem inGroup_of_lt {base stride count n off : Nat} (hn : n < count) (hoff : off < stride) :
    inGroup base stride count (base + stride * n + off) = some (n, off) := by
  have hend : stride * n + off < stride * count :=
    Nat.lt_of_lt_of_le (Nat.add_lt_add_left hoff _) (by rw [← Nat.mul_succ]; exact Nat.mul_le_mul_left _ hn)
  rw [inGroup, if_pos ⟨by omega, by omega⟩, show base + stride * n + off - base = off + stride * n by omega,
    Nat.add_mul_div_left _ _ (Nat.zero_lt_of_lt hoff), Nat.div_eq_of_lt hoff, Nat.add_mul_mod_self_left, Nat.mod_eq_of_lt hoff, Nat.zero_add]

theorem inGroup_eq_none_of_lt {base stride count a : Nat} (h : a < base) : inGroup base stride count a = none :=
  if_neg fun hin => Nat.not_le.mpr h hin.1

/-! ### The pairs, group by group -/

section Pairs

variable (s : State) {n off : Nat}

theorem pairAt_prt (hn : n < 8) (hoff : off < 0x200) : pairAt s (0x2000 + 0x200 * n + off) = prtPair s.parts[Fin.ofNat 8 n] off := by
  simp (disch := omega) only [pairAt, if_neg, inGroup_of_lt]

theorem pairAt_bay (hn : n < 8) (hoff : off < 0x80) : pairAt s (0x3000 + 0x80 * n + off) =
    if off = 0x04 then some (if bayPresent s.bays[Fin.ofNat 8 n] then (s.bays[Fin.ofNat 8 n]).id.toNat else 0)
    else if off = 0x18 then some (if bayPresent s.bays[Fin.ofNat 8 n] then (s.bays[Fin.ofNat 8 n]).progTime else 0) else none := by
  simp (disch := omega) only [pairAt, if_neg, inGroup_of_lt, inGroup_eq_none_of_le]

theorem pairAt_img (hn : n < 16) (hoff : off < 0x80) (h : off ≠ 0x24) : pairAt s (0x3400 + 0x80 * n + off) = none := by
  simp (disch := omega) only [pairAt, if_neg, inGroup_of_lt, inGroup_eq_none_of_le]

theorem pairAt_snd (hn : n < 8) (hoff : off < 0x100) (h28 : off ≠ 0x28) (h30 : off ≠ 0x30) : pairAt s (0x3C00 + 0x100 * n + off) = none := by
  simp (disch := omega) only [pairAt, if_neg, inGroup_of_lt, inGroup_eq_none_of_le]

theorem pairAt_enc (hn : n < 4) (hoff : off < 0x40) (h14 : off ≠ 0x14) (h1C : off ≠ 0x1C) (h24 : off ≠ 0x24) :
    pairAt s (0x4400 + 0x40 * n + off) = none := by
  simp (disch := omega) only [pairAt, if_neg, inGroup_of_lt, inGroup_eq_none_of_le]

theorem pairAt_exp (hn : n < 8) (hoff : off < 0x80) (h08 : off ≠ 0x08) (h1C : off ≠ 0x1C) : pairAt s (0x4800 + 0x80 * n + off) = none := by
  simp (disch := omega) only [pairAt, if_neg, inGroup_of_lt, inGroup_eq_none_of_le]

theorem pairAt_spn (hn : n < 2) (hoff : off < 0x100) (h08 : off ≠ 0x08) (h10 : off ≠ 0x10) : pairAt s (0x4C00 + 0x100 * n + off) = none := by
  simp (disch := omega) only [pairAt, if_neg, inGroup_of_lt, inGroup_eq_none_of_le]

end Pairs

/-- The offsets of LO registers in a copy of a group stand 8 apart at least. -/
theorem prtPair_offset {x : Partition} {off q : Nat} (h : prtPair x off = some q) : off = 0x140 ∨ off = 0x148 ∨ off = 0x150 ∨ off = 0x158 := by
  unfold prtPair at h
  split at h
  · exact .inl rfl
  · exact .inr (.inl rfl)
  · exact .inr (.inr (.inl rfl))
  · exact .inr (.inr (.inr rfl))
  · cases h

theorem pairAt_next {s : State} {a q : Nat} (h : pairAt s a = some q) : pairAt s (a + 4) = none := by
  unfold pairAt at h
  split at h
  next ha => exact ha ▸ rfl
  split at h
  next ha => exact ha ▸ rfl
  split at h
  next n off hin =>
    obtain ⟨hn, hoff, rfl⟩ := inGroup_eq_some hin
    have hend : off + 4 < 0x200 ∧ prtPair s.parts[Fin.ofNat 8 n] (off + 4) = none := by
      rcases prtPair_offset h with rfl | rfl | rfl | rfl <;> exact ⟨by decide, rfl⟩
    rw [Nat.add_assoc, pairAt_prt s hn hend.1, hend.2]
  split at h
  next n off hin =>
    obtain ⟨hn, hoff, rfl⟩ := inGroup_eq_some hin
    have hlow : off = 0x04 ∨ off = 0x18 := by
      split_ifs at h <;> simp_all
    rw [Nat.add_assoc, pairAt_bay s hn (by omega), if_neg (by omega), if_neg (by omega)]
  split at h
  next n off hin =>
    obtain ⟨hn, hoff, rfl⟩ := inGroup_eq_some hin
    have hlow : off = 0x24 := by
      by_contra hne
      simp [hne] at h
    rw [Nat.add_assoc, pairAt_img s hn (by omega) (by omega)]
  split at h
  next n off hin =>
    obtain ⟨hn, hoff, rfl⟩ := inGroup_eq_some hin
    have hlow : off = 0x28 ∨ off = 0x30 := by
      by_contra hne
      simp [not_or.mp hne] at h
    rw [Nat.add_assoc, pairAt_snd s hn (by omega) (by omega) (by omega)]
  split at h
  next n off hin =>
    obtain ⟨hn, hoff, rfl⟩ := inGroup_eq_some hin
    have hlow : off = 0x14 ∨ off = 0x1C ∨ off = 0x24 := by
      by_contra hne
      simp only [not_or] at hne
      simp [hne] at h
    rw [Nat.add_assoc, pairAt_enc s hn (by omega) (by omega) (by omega) (by omega)]
  split at h
  next n off hin =>
    obtain ⟨hn, hoff, rfl⟩ := inGroup_eq_some hin
    have hlow : off = 0x08 ∨ off = 0x1C := by
      by_contra hne
      simp [not_or.mp hne] at h
    rw [Nat.add_assoc, pairAt_exp s hn (by omega) (by omega) (by omega)]
  split at h
  next n off hin =>
    obtain ⟨hn, hoff, rfl⟩ := inGroup_eq_some hin
    have hlow : off = 0x08 ∨ off = 0x10 := by
      by_contra hne
      simp [not_or.mp hne] at h
    rw [Nat.add_assoc, pairAt_spn s hn (by omega) (by omega) (by omega)]
  next => cases h

/-! ### Reads -/

theorem exec_loRegisterRead_eq {a n : Nat} {s : State} (hup : s.glb.phase = .up) : exec (.loRegisterRead ⟨a, n⟩) s =
    .next (if a % n ≠ 0 then s else if n = 4 then readWord s a
      else { readWord s (a / 4 * 4) with
        glb := { (readWord s (a / 4 * 4)).glb with readData := partOf (readWord s (a / 4 * 4)).glb.readData a n } }) := exec_of_up hup

theorem exec_loRegisterRead_aligned {a : Nat} {s : State} (hup : s.glb.phase = .up) (ha : a % 4 = 0) :
    exec (.loRegisterRead ⟨a, 4⟩) s = .next (readWord s a) := by
  rw [exec_loRegisterRead_eq hup, if_neg (not_not_intro ha), if_pos rfl]

/-- A read of a LO register gives the low half and latches the upper one. -/
theorem readWord_of_pair {s : State} {a q : Nat} (h : pairAt s a = some q) : (readWord s a).glb.readData = BitVec.ofNat 32 q ∧
    (readWord s a).glb.hiLatch.lookup a = some (BitVec.ofNat 32 (q / 2 ^ 32)) := by
  simp [readWord, readReg, h]

theorem pairAt_readWord (s : State) (a b : Nat) : pairAt (readWord s a) b = pairAt s b := rfl

/-- The HI register of a pair reads what the latest read of its LO register latched. -/
theorem readReg_hi {s : State} {a q : Nat} (h : pairAt s a = some q) : readReg s (a + 4) = (s.glb.hiLatch.lookup a).getD 0 := by
  have hnext := pairAt_next h
  simp [readReg, hnext, h]

theorem partOf_toNat (v : Word) (a : Nat) {n : Nat} (hn : n = 1 ∨ n = 2) :
    (partOf v a n).toNat = v.toNat / 256 ^ (a % 4) % 256 ^ n := by
  rw [partOf, BitVec.toNat_ofNat, Nat.mod_eq_of_lt]
  rcases hn with rfl | rfl <;> exact Nat.lt_of_lt_of_le (Nat.mod_lt _ (by decide)) (by decide)

/-! ### Writes -/

theorem fitsMask_iff (v : Word) (k : Nat) : fitsMask v (2 ^ k - 1) = true ↔ v.toNat < 2 ^ k := by
  have hand : Nat.land v.toNat (2 ^ k - 1) = v.toNat % 2 ^ k := Nat.and_two_pow_sub_one_eq_mod v.toNat k
  rw [fitsMask, hand, decide_eq_true_iff]
  exact Nat.mod_eq_iff_lt (by positivity)

theorem exec_registerWrite_eq {a n : Nat} {v : Word} {s : State} (hup : s.glb.phase = .up) :
    exec (.registerWrite ⟨a, n⟩ v) s = .next (if n = 4 ∧ a % 4 = 0 then writeReg s a v else s) := exec_of_up hup

theorem exec_registerWrite_aligned {a : Nat} {v : Word} {s : State} (hup : s.glb.phase = .up) (ha : a % 4 = 0) :
    exec (.registerWrite ⟨a, 4⟩ v) s = .next (writeReg s a v) := by
  rw [exec_registerWrite_eq hup, if_pos ⟨rfl, ha⟩]

theorem writeReg_tbsStatus (s : State) (v : Word) : writeReg s 0x804 v = if fitsMask v (2 ^ 7 - 1) then
    { s with tbs := { s.tbs with lostEv := w1c v 3 s.tbs.lostEv, backEv := w1c v 4 s.tbs.backEv } } else s := rfl

theorem writeReg_exp (s : State) (v : Word) {n off : Nat} (hn : n < 8) (hoff : off < 0x80) :
    writeReg s (0x4800 + 0x80 * n + off) v = writeExp s (Fin.ofNat 8 n) off v := by
  simp (disch := omega) only [writeReg, if_neg, inGroup_of_lt, inGroup_eq_none_of_le]

theorem writeReg_expPages (s : State) (p : PartId) (v : Word) : writeReg s (0x4810 + 128 * p.val) v =
    if !s.exps[p].run && fitsMask v (2 ^ 5 - 1) then updExp s p (fun e => { e with pages := v.toNat }) else s := by
  have hp : Fin.ofNat 8 p.val = p := Fin.ext (Nat.mod_eq_of_lt p.isLt)
  have haddr : 0x4810 + 128 * p.val = 0x4800 + 0x80 * p.val + 0x10 := by omega
  rw [haddr, writeReg_exp s v p.isLt (by decide), hp]
  rfl

/-- Settles O49: reads through `readWord`, writes through the equation of `writeReg` at each register. -/
theorem hostReadsLatchPairsAndWritesFollowAccessTypes : Obligations.HostReadsLatchPairsAndWritesFollowAccessTypes := by
  intro s hup
  refine ⟨fun a q ha hq => ?_, fun a n hn ha => ?_, fun a n hn ha => ?_, fun a n v h => ?_, fun v => ?_, fun v => ?_, fun v hv => ?_,
    fun v hv => ?_, fun p v hv hrun => ?_, fun p v h => ?_⟩
  · have h := exec_loRegisterRead_aligned hup ha
    obtain ⟨hlow, hlatch⟩ := readWord_of_pair hq
    refine ⟨_, h, exec_touch h, hlow, _, exec_loRegisterRead_aligned (s := readWord s a) hup (by omega), ?_⟩
    have hhi := readReg_hi (s := readWord s a) ((pairAt_readWord s a a).trans hq)
    rw [hlatch] at hhi
    exact hhi
  · have h := exec_loRegisterRead_eq (a := a) (n := n) hup
    rw [if_neg (not_not_intro ha), if_neg (by omega)] at h
    exact ⟨_, _, h, exec_touch h, exec_loRegisterRead_aligned hup (Nat.mul_mod_left _ _), partOf_toNat _ _ hn⟩
  · rw [exec_loRegisterRead_eq hup, if_pos ha]
  · rw [exec_registerWrite_eq hup, if_neg (by omega)]
  · exact ⟨_, exec_registerWrite_aligned hup rfl, rfl⟩
  · exact ⟨_, exec_registerWrite_aligned hup rfl, rfl⟩
  · refine ⟨_, exec_registerWrite_aligned hup rfl, ?_⟩
    rw [writeReg_tbsStatus, if_pos ((fitsMask_iff v 7).mpr hv)]
    rfl
  · rw [exec_registerWrite_aligned hup rfl, writeReg_tbsStatus, if_neg (mt (fitsMask_iff v 7).mp (Nat.not_lt.mpr hv))]
  · refine ⟨_, exec_registerWrite_aligned hup (by omega), ?_⟩
    rw [writeReg_expPages, if_pos (by rw [hrun, (fitsMask_iff v 5).mpr hv]; rfl)]
    exact ⟨(updExp_keeps _ _ _).touch, rfl⟩
  · have hno : ¬(!s.exps[p].run && fitsMask v (2 ^ 5 - 1)) = true := by
      rw [Bool.and_eq_true, fitsMask_iff]
      rintro ⟨hrun, hfit⟩
      rcases h with h | h
      · exact absurd hfit (Nat.not_lt.mpr h)
      · rw [h] at hrun
        cases hrun
    rw [exec_registerWrite_aligned hup (by omega), writeReg_expPages, if_neg hno]

end Sys2Proof.Machine
end

