-- ==== Sys2Proof/Proofs/Encoders.lean ====
section
/-! The encoder inputs: O48. -/

namespace Sys2Proof.Machine

-- One proof at a time: a default argument that is a tactic waits for every proof before it.
set_option Elab.async false

/-- A change of an encoder that leaves it as it is changes nothing. -/
theorem updEnc_eq_self {s : State} {e : EncId} {f : Enc → Enc} (h : f s.encs[e] = s.encs[e]) : updEnc s e f = s := by
  have hset : s.encs.set e.val (f s.encs[e]) e.isLt = s.encs := by
    rw [h]
    exact Vector.set_getElem_self e.isLt
  exact congrArg (fun v => ({ s with encs := v } : State)) hset

/-! ### ENCODER_COUNT -/

/-- The state after a valid transition. -/
def countedEnc (e : EncId) (up : Bool) (s : State) : State :=
  match (countStep up s.encs[e]).2 with
  | some t => linePulse (updEnc s e fun _ => (countStep up s.encs[e]).1) e t
  | none => updEnc s e fun _ => (countStep up s.encs[e]).1

theorem exec_encoderCount_eq {e : EncId} {m : EncMove} {s : State} (hup : s.glb.phase = .up) : exec (.encoderCount e m) s =
    .next (if m = .illegal then updEnc s e (fun x => { x with errors := satInc x.errors })
      else countedEnc e (decide (m = .aLeads) != s.encs[e].invert) s) := exec_of_up hup

theorem exec_encoderCount_illegal {e : EncId} {s : State} (hup : s.glb.phase = .up) :
    exec (.encoderCount e .illegal) s = .next (updEnc s e fun x => { x with errors := satInc x.errors }) :=
  exec_encoderCount_eq hup

section CountStep

variable {x : Enc} {up : Bool} {pos : BitVec 64} (hpos : pos = if up then x.position + 1 else x.position - 1)
include hpos

theorem countStep_of_within (h : pos.toInt ≤ x.high.toInt) : countStep up x = ({ x with position := pos }, none) := by
  subst hpos
  exact if_neg (Int.not_lt.mpr h)

theorem countStep_of_between (h : x.high.toInt < pos.toInt) (hdiv : pos.toInt % (x.div : Int) ≠ 0) :
    countStep up x = ({ x with position := pos, high := pos }, none) := by
  subst hpos
  exact (if_pos h).trans (if_neg hdiv)

theorem countStep_of_line (h : x.high.toInt < pos.toInt) (hdiv : pos.toInt % (x.div : Int) = 0) :
    countStep up x = ({ x with position := pos, high := pos, line := x.line + 1 }, some x.line.toNat) := by
  subst hpos
  exact (if_pos h).trans (if_pos hdiv)

end CountStep

/-- The position counts upward when A leads and the input is not inverted, or B leads and it is. -/
theorem countedUp_iff (m : EncMove) (hm : m ≠ .illegal) (invert : Bool) :
    (decide (m = .aLeads) != invert) = true ↔ (m = .aLeads ↔ invert = false) := by
  cases m <;> cases invert <;> simp_all

theorem countedEnc_of_none {e : EncId} {up : Bool} {s : State} {x : Enc} (h : countStep up s.encs[e] = (x, none)) :
    countedEnc e up s = updEnc s e fun _ => x := by
  simp only [countedEnc, h]

theorem countedEnc_of_some {e : EncId} {up : Bool} {s : State} {x : Enc} {n : Nat} (h : countStep up s.encs[e] = (x, some n)) :
    countedEnc e up s = linePulse (updEnc s e fun _ => x) e n := by
  simp only [countedEnc, h]

/-! ### ENCODER_OPEN and ENC_CONFIG_WRITE -/

theorem exec_encoderOpen_eq {e : EncId} {sig : EncSignal} {o : Bool} {s : State} (hup : s.glb.phase = .up) : exec (.encoderOpen e sig o) s =
    .next (if setOpen sig o s.encs[e] = s.encs[e] then s
      else if o then logIrq (updEnc s e fun _ => setOpen sig o s.encs[e]) 0x0701 e.val (openBits (setOpen sig o s.encs[e])) 0 false 21
      else irq (updEnc s e fun _ => setOpen sig o s.encs[e]) 21) := exec_of_up hup

theorem exec_encConfigWrite_eq {e : EncId} {r : EncReg} {v : Word} {s : State} (hup : s.glb.phase = .up) : exec (.encConfigWrite e r v) s =
    .next (if !encValueOk r v then s
      else if encClaimed s e then (if s.encs[e].busy then s else irq (updEnc s e fun x => { x with busy := true }) 21)
      else updEnc s e (storeEnc r v)) := exec_of_up hup

theorem encValueOk_iff (r : EncReg) (v : Word) :
    encValueOk r v = true ↔ (r = .ctrl ∧ v.toNat < 2 ∨ r = .div ∧ 1 ≤ v.toNat ∧ v.toNat ≤ 65536) := by
  cases r <;> simp [encValueOk]

theorem storeEnc_eq (r : EncReg) (v : Word) (x : Enc) : storeEnc r v x =
    { x with invert := if r = .ctrl then v.getLsbD 0 else x.invert, div := if r = .div then v.toNat else x.div } := by
  cases r <;> rfl

/-- Settles O48. -/
theorem encodersCountAndTakeTheirSettings : Obligations.EncodersCountAndTakeTheirSettings := by
  intro e s hup
  refine ⟨⟨_, exec_encoderCount_illegal hup, (updEnc_keeps _ _ _).touch, rfl⟩, fun m pos hm hpos => ?_,
    ⟨_, exec_of_up hup, (updEnc_keeps _ _ _).touch, rfl⟩, fun sig o => ⟨fun hsame => ?_, fun hnew => ?_⟩, fun r v => ⟨fun hbad => ?_, fun hok hfree => ?_, fun hok hclaimed => ?_⟩⟩
  · have h := exec_encoderCount_eq (e := e) (m := m) hup
    rw [if_neg hm] at h
    have hstep : pos = if (decide (m = .aLeads) != s.encs[e].invert) then s.encs[e].position + 1 else s.encs[e].position - 1 := by
      rw [hpos, BitVec.sub_eq_add_neg]
      simp only [countedUp_iff m hm]
      split <;> rfl
    refine ⟨_, h, fun hin => ?_, fun hpast hdiv => ?_, fun hpast hdiv => ?_⟩
    · rw [countedEnc_of_none (countStep_of_within hstep hin)]
      exact ⟨(updEnc_keeps _ _ _).touch, rfl⟩
    · rw [countedEnc_of_none (countStep_of_between hstep hpast hdiv)]
      exact ⟨(updEnc_keeps _ _ _).touch, rfl⟩
    · refine ⟨(exec_touch h).mono (by simp [mayTouch]), ?_⟩
      rw [countedEnc_of_some (countStep_of_line hstep hpast hdiv)]
      exact (linePulse_keeps _ _ _).touch.encs_eq
  · rw [exec_encoderOpen_eq hup, if_pos hsame]
  · have h := exec_encoderOpen_eq (e := e) (sig := sig) (o := o) hup
    rw [if_neg hnew] at h
    refine ⟨_, h, exec_touch h, ?_⟩
    have henc : Touch [.signals, .encs] s (updEnc s e fun _ => setOpen sig o s.encs[e]) := (updEnc_keeps _ _ _).touch.mono (by decide)
    cases o with
    | false =>
      rw [if_neg Bool.false_ne_true]
      exact ⟨rfl, rfl, fun _ => henc.step (irq_touch _ _) (by decide), fun h => nomatch h⟩
    | true =>
      rw [if_pos rfl]
      have hrep := logIrq_reports (s := s) (u := updEnc s e fun _ => setOpen sig true s.encs[e]) rfl rfl rfl 0x0701 e.val
        (openBits (setOpen sig true s.encs[e])) 0 false 21
      exact ⟨(logIrq_keeps _ _ _ _ _ _ _).touch.encs_eq, hrep.2, fun h => (nomatch h), fun _ => hrep⟩
  · rw [exec_encConfigWrite_eq hup, if_pos]
    rw [Bool.not_eq_true', Bool.eq_false_iff, ne_eq, encValueOk_iff]
    rcases hbad with ⟨rfl, hv⟩ | ⟨rfl, hv⟩ <;> simp <;> omega
  · have h := exec_encConfigWrite_eq (e := e) (r := r) (v := v) hup
    rw [(encValueOk_iff r v).mpr hok, hfree] at h
    refine ⟨_, h, (updEnc_keeps _ _ _).touch, ?_⟩
    exact congrArg (s.encs.set e.val · e.isLt) (storeEnc_eq r v _)
  · have h := exec_encConfigWrite_eq (e := e) (r := r) (v := v) hup
    rw [(encValueOk_iff r v).mpr hok, hclaimed] at h
    refine ⟨_, h, exec_touch h, ?_⟩
    cases hb : s.encs[e].busy with
    | false => rfl
    | true =>
      have hsame : ({ s.encs[e] with busy := true } : Enc) = s.encs[e] := by rw [← hb]
      exact (congrArg State.encs (updEnc_eq_self (s := s) (e := e) (f := fun x => { x with busy := true }) hsame)).symm

end Sys2Proof.Machine
end

