-- ==== Sys2Proof/Proofs/RegionStore.lean ====
section
/-! What the shared operations on regions leave of a region, of its tiles and of its block memory. -/

namespace Sys2Proof.Machine

-- One proof at a time: a default argument that is a tactic waits for every proof before it.
set_option Elab.async false

/-! ### Folds -/

/-- What one turn of a fold establishes and every turn keeps holds at the end. -/
theorem foldl_settles {α σ : Type} {P : σ → Prop} {f : σ → α → σ} {a : α} (hset : ∀ s, P (f s a)) (hkeep : ∀ s b, P s → P (f s b)) :
    ∀ (l : List α) (s : σ), a ∈ l → P (l.foldl f s) := by
  have hrest : ∀ (l : List α) (s : σ), P s → P (l.foldl f s) := by
    intro l
    induction l with
    | nil => exact fun _ h => h
    | cons b l ih => exact fun s h => ih _ (hkeep s b h)
  intro l
  induction l with
  | nil => exact fun _ h => nomatch h
  | cons b l ih =>
    intro s h
    rcases List.mem_cons.mp h with rfl | h
    · exact hrest l _ (hset s)
    · exact ih _ h

theorem mem_allRegions (r : RegionId) : r ∈ allRegions := by
  revert r
  decide

/-! ### One region -/

theorem updRegion_at (s : State) (r : RegionId) (f : Region → Region) : (updRegion s r f).regions[r] = f s.regions[r] := updRegion_self s r f

theorem updRegion_off (s : State) {r q : RegionId} (f : Region → Region) (h : q ≠ r) : (updRegion s r f).regions[q] = s.regions[q] :=
  updRegion_other s r f q h

theorem mapRegions_off (f : Region → Region) {q : RegionId} : ∀ (rs : List RegionId) (s : State), q ∉ rs →
    (mapRegions s rs f).regions[q] = s.regions[q]
  | [], _, _ => rfl
  | r :: rs, s, h => by
    obtain ⟨hne, hrs⟩ := not_or.mp (mt List.mem_cons.mpr h)
    exact (mapRegions_off f rs (updRegion s r f) hrs).trans (updRegion_off s f hne)

/-- A change that does nothing the second time reaches each region of the list once. -/
theorem mapRegions_at {f : Region → Region} (hf : ∀ g, f (f g) = f g) {q : RegionId} : ∀ (rs : List RegionId) (s : State), q ∈ rs →
    (mapRegions s rs f).regions[q] = f s.regions[q]
  | [], _, h => nomatch h
  | r :: rs, s, h => by
    have hstep : mapRegions s (r :: rs) f = mapRegions (updRegion s r f) rs f := rfl
    rw [hstep]
    by_cases hq : q = r
    · subst hq
      by_cases hmem : q ∈ rs
      · rw [mapRegions_at hf rs _ hmem, updRegion_at, hf]
      · rw [mapRegions_off f rs _ hmem, updRegion_at]
    · rw [mapRegions_at hf rs _ ((List.mem_cons.mp h).resolve_left hq), updRegion_off s f hq]

/-! ### Links at a closed boundary -/

/-- Changing the entries of a table by their key, where the default stays the default. -/
theorem tabGet_mapFilter {α : Type} [DecidableEq α] (d : α) (f : Nat → α → α) (hd : ∀ k, f k d = d) (i : Nat) :
    ∀ (l : List (Nat × α)) (lo : Nat), tabWfFrom d lo l = true →
      tabGet d i ((l.map fun c => (c.1, f c.1 c.2)).filter fun c => decide (c.2 ≠ d)) = f i (tabGet d i l)
  | [], _, _ => (hd i).symm
  | (j, w) :: l, lo, h => by
    simp only [tabWfFrom, Bool.and_eq_true, decide_eq_true_eq] at h
    obtain ⟨_, hl⟩ := h
    have ih := tabGet_mapFilter d f hd i l (j + 1) hl
    by_cases hj : j = i
    · subst hj
      by_cases hw : f j w = d
      · rw [tabGet_of_lt d j l (j + 1) (Nat.lt_succ_self j) hl, hd] at ih
        simpa [tabGet, hw] using ih
      · simp [tabGet, hw]
    · by_cases hw : f j w = d
      · simpa [tabGet, hw, hj] using ih
      · simpa [tabGet, hw, hj] using ih

/-- The tiles keep the one form, and all but their links. -/
def LinksOnly (s t : State) : Prop := tabWf ({} : Tile) s.tiles = true → tabWf ({} : Tile) t.tiles = true ∧ onlyLinks s t

theorem LinksOnly.onlyLinks {s t : State} (h : LinksOnly s t) (hs : storeOk s) : onlyLinks s t := (h hs.2).2

theorem LinksOnly.of_tiles {s t : State} (h : t.tiles = s.tiles) : LinksOnly s t := by
  intro hs
  refine ⟨h ▸ hs, fun k => ?_⟩
  have hk : getTile t k = getTile s k := congrArg (tabGet ({} : Tile) k) h
  rw [hk]

theorem LinksOnly.of_touch {l : List Fld} {s t : State} (h : Touch l s t) (hl : Fld.tiles ∉ l := by decide) : LinksOnly s t :=
  .of_tiles (h.tiles_eq hl)

theorem LinksOnly.refl (s : State) : LinksOnly s s := .of_tiles rfl

theorem LinksOnly.trans {s t u : State} (h : LinksOnly s t) (k : LinksOnly t u) : LinksOnly s u := by
  intro hs
  obtain ⟨ht, hst⟩ := h hs
  obtain ⟨hu, htu⟩ := k ht
  refine ⟨hu, fun i => ?_⟩
  rw [← hst i, ← htu i]

theorem LinksOnly.foldl {α : Type} {f : State → α → State} (hf : ∀ s a, LinksOnly s (f s a)) : ∀ (l : List α) (s : State),
    LinksOnly s (l.foldl f s)
  | [], s => .refl s
  | a :: l, s => (hf s a).trans (LinksOnly.foldl hf l (f s a))

theorem quietLinks_default (r : RegionId) (k : Nat) : quietLinks r k {} = {} := by
  unfold quietLinks
  extract_lets crosses cut
  have hcut : cut = [] := by
    refine List.filter_eq_nil_iff.mpr fun i _ => ?_
    simp
  have hdriven : (Vector.ofFn fun i : Fin 4 => if crosses i.val then (0 : Wires) else (({} : Tile).driven[i])) = ({} : Tile).driven := by
    ext i hi
    simp
  rw [hdriven, hcut]
  rfl

/-- The neighbour on a side closes its gate toward a region. -/
def closeFacing (r : RegionId) (s : State) (d : Dir) : State :=
  match regionNbr r d with
  | some n => updRegion s n (fun g => { g with gates := g.gates.set (dirIdx (opposite d)).val false (dirIdx (opposite d)).isLt })
  | none => s

/-- The gates of a region and those that face it close; the links are not yet quiet. -/
def gatesClosed (s : State) (r : RegionId) : State :=
  allDirs.foldl (closeFacing r) (updRegion s r fun g => { g with gates := Vector.replicate 4 false })

theorem closeGates_eq (s : State) (r : RegionId) : closeGates s r = { gatesClosed s r with
    tiles := ((gatesClosed s r).tiles.map fun c => (c.1, quietLinks r c.1 c.2)).filter fun c => decide (c.2 ≠ {}) } := rfl

/-- What the closing of each facing gate keeps, the closing of all keeps. -/
theorem gatesClosed_settles {P : State → Prop} {s : State} {r : RegionId} (h : P (updRegion s r fun g => { g with gates := Vector.replicate 4 false }))
    (hstep : ∀ u n i, P u → P (updRegion u n fun g => { g with gates := g.gates.set (i : Fin 4).val false i.isLt })) : P (gatesClosed s r) := by
  have hfold : ∀ (ds : List Dir) (u : State), P u → P (ds.foldl (closeFacing r) u) := by
    intro ds
    induction ds with
    | nil => exact fun _ h => h
    | cons d ds ih =>
      intro u hu
      refine ih _ ?_
      unfold closeFacing
      split
      · exact hstep _ _ _ hu
      · exact hu
  exact hfold _ _ h

theorem gatesClosed_tiles (s : State) (r : RegionId) : (gatesClosed s r).tiles = s.tiles :=
  gatesClosed_settles (P := fun u => u.tiles = s.tiles) rfl fun _ _ _ h => h

/-- A tile after the gates of a region close. -/
theorem getTile_closeGates {s : State} (hs : tabWf ({} : Tile) s.tiles = true) (r : RegionId) (k : Nat) :
    getTile (closeGates s r) k = quietLinks r k (getTile s k) := by
  rw [closeGates_eq, gatesClosed_tiles]
  exact tabGet_mapFilter ({} : Tile) (quietLinks r) (quietLinks_default r) k s.tiles 0 hs

theorem closeGates_linksOnly (s : State) (r : RegionId) : LinksOnly s (closeGates s r) := by
  intro hs
  refine ⟨?_, fun k => ?_⟩
  · rw [closeGates_eq, gatesClosed_tiles]
    exact tabWf_mapFilter ({} : Tile) (fun c => (c.1, quietLinks r c.1 c.2)) (fun _ => rfl) _ hs
  · rw [getTile_closeGates hs]
    rfl

theorem closeGates_region_at (s : State) (r : RegionId) :
    (closeGates s r).regions[r] = { s.regions[r] with gates := Vector.replicate 4 false } := by
  refine gatesClosed_settles (P := fun u => u.regions[r] = { s.regions[r] with gates := Vector.replicate 4 false }) (updRegion_at _ _ _)
    fun u n i h => ?_
  by_cases hn : r = n
  · subst hn
    rw [updRegion_at, h]
    have hset : (Vector.replicate 4 false).set i.val false i.isLt = Vector.replicate 4 false := by
      ext j hj
      simp
    rw [hset]
  · rw [updRegion_off _ _ hn, h]

/-- Only the gates of a region change when another's gates close. -/
theorem closeGates_region (s : State) (r q : RegionId) : ∃ g, (closeGates s r).regions[q] = { s.regions[q] with gates := g } := by
  have hupd : ∀ (u : State) (n : RegionId) (f : Vector Bool 4 → Vector Bool 4), (∃ g, u.regions[q] = { s.regions[q] with gates := g }) →
      ∃ g, (updRegion u n fun x => { x with gates := f x.gates }).regions[q] = { s.regions[q] with gates := g } := by
    rintro u n f ⟨g, hg⟩
    by_cases hn : q = n
    · subst hn
      rw [updRegion_at, hg]
      exact ⟨_, rfl⟩
    · rw [updRegion_off _ _ hn, hg]
      exact ⟨_, rfl⟩
  exact gatesClosed_settles (P := fun u => ∃ g, u.regions[q] = { s.regions[q] with gates := g })
    (hupd s r (fun _ => Vector.replicate 4 false) ⟨_, rfl⟩) fun u n i => hupd u n (fun x => x.set i.val false i.isLt)

/-- Gates that stand closed stay closed. -/
theorem closeGates_closed {s : State} {q : RegionId} (r : RegionId) (h : s.regions[q].gates = Vector.replicate 4 false) :
    (closeGates s r).regions[q] = s.regions[q] := by
  obtain ⟨g, hg⟩ := closeGates_region s r q
  by_cases hq : q = r
  · subst hq
    rw [closeGates_region_at, ← h]
  · have hstep : ∀ (u : State) (n : RegionId) (i : Fin 4), u.regions[q] = s.regions[q] →
        (updRegion u n fun g => { g with gates := g.gates.set i.val false i.isLt }).regions[q] = s.regions[q] := by
      intro u n i hu
      by_cases hn : q = n
      · subst hn
        have hset : (Vector.replicate 4 false).set i.val false i.isLt = Vector.replicate 4 false := by
          ext j hj
          simp
        rw [updRegion_at, hu, h, hset, ← h]
      · rw [updRegion_off _ _ hn, hu]
    exact gatesClosed_settles (P := fun u => u.regions[q] = s.regions[q]) (updRegion_off _ _ hq) hstep

theorem closeAllGates_closed {q : RegionId} : ∀ (rs : List RegionId) (s : State), s.regions[q].gates = Vector.replicate 4 false →
    (closeAllGates s rs).regions[q] = s.regions[q]
  | [], _, _ => rfl
  | r :: rs, s, h => by
    have hstep := closeGates_closed r h
    exact (closeAllGates_closed rs (closeGates s r) (hstep ▸ h)).trans hstep

theorem closeAllGates_region_at {q : RegionId} : ∀ (rs : List RegionId) (s : State), q ∈ rs →
    (closeAllGates s rs).regions[q] = { s.regions[q] with gates := Vector.replicate 4 false }
  | [], _, h => nomatch h
  | r :: rs, s, h => by
    have hcons : closeAllGates s (r :: rs) = closeAllGates (closeGates s r) rs := rfl
    rw [hcons]
    by_cases hq : q = r
    · subst hq
      have hat := closeGates_region_at s q
      rw [closeAllGates_closed rs _ (congrArg Region.gates hat), hat]
    · obtain ⟨g, hg⟩ := closeGates_region s r q
      rw [closeAllGates_region_at rs _ ((List.mem_cons.mp h).resolve_left hq), hg]

theorem closeAllGates_linksOnly (s : State) (rs : List RegionId) : LinksOnly s (closeAllGates s rs) :=
  .foldl (fun s r => closeGates_linksOnly s r) rs s

/-! ### Regions without a tile entry -/

/-- No tile of a region stands in the table. -/
def noTiles (s : State) (r : RegionId) : Prop := ∀ c ∈ s.tiles, tileRegion c.1 ≠ r

theorem noTiles.getTile {s : State} {r : RegionId} (h : noTiles s r) {k : Nat} (hk : tileRegion k = r) : getTile s k = {} := by
  have htab : ∀ l : List (Nat × Tile), (∀ c ∈ l, tileRegion c.1 ≠ r) → tabGet ({} : Tile) k l = {} := by
    intro l
    induction l with
    | nil => exact fun _ => rfl
    | cons c l ih =>
      intro hl
      have hne : c.1 ≠ k := fun e => hl c List.mem_cons_self (e ▸ hk)
      rw [tabGet, if_neg hne]
      exact ih fun d hd => hl d (List.mem_cons_of_mem _ hd)
  exact htab s.tiles h

theorem noTiles.of_tiles {s t : State} {r : RegionId} (h : noTiles s r) (ht : t.tiles = s.tiles) : noTiles t r := by
  unfold noTiles
  rw [ht]
  exact h

theorem noTiles_closeGates {s : State} {r : RegionId} (h : noTiles s r) (q : RegionId) : noTiles (closeGates s q) r := by
  intro c hc
  rw [closeGates_eq, gatesClosed_tiles] at hc
  obtain ⟨d, hd, rfl⟩ := List.mem_map.mp (List.mem_filter.mp hc).1
  exact h d hd

theorem noTiles_closeAllGates {r : RegionId} : ∀ (rs : List RegionId) {s : State}, noTiles s r → noTiles (closeAllGates s rs) r
  | [], _, h => h
  | q :: rs, _, h => noTiles_closeAllGates rs (noTiles_closeGates h q)

/-! ### Scrubbing -/

theorem scrubRegions_tiles (s : State) (rs : List RegionId) :
    (scrubRegions s rs).tiles = s.tiles.filter (fun c => !rs.contains (tileRegion c.1)) := (mapRegions_keeps _ _ _).touch.tiles_eq

theorem scrubRegions_noTiles (s : State) {rs : List RegionId} {r : RegionId} (h : r ∈ rs) : noTiles (scrubRegions s rs) r := by
  intro c hc hr
  rw [scrubRegions_tiles] at hc
  have := (List.mem_filter.mp hc).2
  simp [hr, h] at this

theorem scrubRegions_mem (s : State) (rs : List RegionId) :
    (scrubRegions s rs).mem = Memory.clear s.mem (fun a => rs.contains (tileRegion (a / 16384))) := (mapRegions_keeps _ _ _).touch.mem_eq

/-- A scrubbed region holds nothing; every other one holds what it held. -/
theorem getTile_scrubRegions (s : State) (rs : List RegionId) (k : Nat) :
    getTile (scrubRegions s rs) k = if tileRegion k ∈ rs then {} else getTile s k := by
  unfold getTile
  rw [scrubRegions_tiles, tabGet_filter_key ({} : Tile) (fun k => !rs.contains (tileRegion k))]
  by_cases h : tileRegion k ∈ rs <;> simp [h]

theorem read_scrubRegions (s : State) (rs : List RegionId) (a : Nat) :
    Memory.read (scrubRegions s rs).mem a = if tileRegion (a / 16384) ∈ rs then 0 else Memory.read s.mem a := by
  rw [scrubRegions_mem, Memory.read_clear]
  by_cases h : tileRegion (a / 16384) ∈ rs <;> simp [h]

theorem scrubRegions_scrubbed (s : State) {rs : List RegionId} {r : RegionId} (h : r ∈ rs) : regionScrubbed (scrubRegions s rs) r := by
  refine ⟨fun k hk => ?_, fun a ha => ?_⟩
  · rw [getTile_scrubRegions, if_pos (hk ▸ h)]
  · rw [read_scrubRegions, if_pos (ha ▸ h)]

/-- A region stays scrubbed while neither tiles nor block memory change. -/
theorem regionScrubbed.keep {s t : State} {r : RegionId} (h : regionScrubbed s r) (ht : t.tiles = s.tiles) (hm : t.mem = s.mem) :
    regionScrubbed t r := by
  refine ⟨fun k hk => (congrArg (tabGet ({} : Tile) k) ht).trans (h.1 k hk), fun a ha => ?_⟩
  rw [hm]
  exact h.2 a ha

theorem regionScrubbed.touch {l : List Fld} {s t : State} {r : RegionId} (h : regionScrubbed s r) (k : Touch l s t)
    (ht : Fld.tiles ∉ l := by decide) (hm : Fld.mem ∉ l := by decide) : regionScrubbed t r :=
  h.keep (k.tiles_eq ht) (k.mem_eq hm)

theorem scrubRegions_region_at (s : State) {rs : List RegionId} {r : RegionId} (h : r ∈ rs) :
    (scrubRegions s rs).regions[r] = { s.regions[r] with gatewayOut := [] } :=
  mapRegions_at (f := fun g => { g with gatewayOut := [] }) (fun _ => rfl) rs _ h

theorem scrubRegions_region_off (s : State) {rs : List RegionId} {r : RegionId} (h : r ∉ rs) :
    (scrubRegions s rs).regions[r] = s.regions[r] :=
  mapRegions_off _ rs _ h

end Sys2Proof.Machine
end

