-- ==== Sys2Proof/Proofs/FaultEntry.lean ====
section
/-! A fault entry in its steps, and what each leaves standing: O32. -/

namespace Sys2Proof.Machine

-- One proof at a time: a default argument that is a tactic waits for every proof before it.
set_option Elab.async false

theorem updPart_off (s : State) {p q : PartId} (f : Partition → Partition) (h : q ≠ p) : (updPart s p f).parts[q] = s.parts[q] :=
  updPart_other s p f q h

/-! ### The steps of a fault entry (R449) -/

/-- Pins of a serving partition go to fail-safe. -/
def failServing (s : State) (p : PartId) : State := if isServing s.parts[p].state then failPins s p else s

/-- Ports fall quiet, an ABORT leaves, the open records enter; `s` is the state before the entry, `u` the one whose pins are safe. -/
def faultOutputs (s u : State) (p : PartId) (st : PState) (code d0 : Nat) : State :=
  let u1 := quietPorts u p
  let u2 := if s.parts[p].state = .running && code ≠ cSpanLost && code ≠ cSpanAbort then abortSpan u1 p 2 (fun _ => true) else u1
  enterRec (closeExport (endGap u2 p) p) p (faultRec s p st code d0 (isServing s.parts[p].state && hasFinalCensus code))

/-- The census that follows, or the end of one that has not ticked. -/
def faultCensus (s u : State) (p : PartId) (code : Nat) : State :=
  if isServing s.parts[p].state && hasFinalCensus code then finalCensus u p else cancelCensus u p

/-- The partition runs and loads nothing any more. -/
def faultStop (s u : State) (p : PartId) (st : PState) : State :=
  updPart (freeLanes u p) p (fun y => { y with
    load := none, active := none,
    flow := { stopFlow y.flow with
      scrub := if y.placement.isSome || y.load.isSome || isServing s.parts[p].state then some .fault else none,
      autoDue := autoFollows s.parts[p] st },
    tun := {}, span := {} })

/-- The gates of its regions close. -/
def closeHeld (s : State) (p : PartId) : State :=
  mapRegions (closeAllGates s (heldRegions s p)) (heldRegions s p) (fun g => setVdd 720 { g with intervals := [] })

/-- Its span ports drop what they were to send. -/
def stopSpans (s : State) (p : PartId) (st : PState) : State :=
  (spanPortsOf s p).foldl (fun s q => updSpn s q (fun y =>
    { y with span := if st = .faultSpan then 4 else 0, txDesc := [], txFlits := Vector.replicate 4 [] })) s

/-- All but the gates, the span ports and the state. -/
def faultBody (s : State) (p : PartId) (st : PState) (code d0 : Nat) : State :=
  faultStop s (faultCensus s (faultOutputs s (failServing (logPart s p code d0) p) p st code d0) p code) p st

section Steps

variable {s : State} {p : PartId} {st : PState} {code d0 : Nat}

theorem logPart_parts (s : State) (p : PartId) (code d0 : Nat) : (logPart s p code d0).parts = s.parts := (logPart_keeps s p code d0).touch.parts_eq

theorem failServing_logPart (s : State) (p : PartId) (code d0 : Nat) : failServing (logPart s p code d0) p =
    if isServing s.parts[p].state then failPins (logPart s p code d0) p else logPart s p code d0 := by
  rw [failServing, logPart_parts]

theorem faultEntry_eq (h : isFault s.parts[p].state = false) : faultEntry s p st code d0 =
    setCause (setPState (stopSpans (closeHeld (faultBody s p st code d0) p) p st) p st) p (causeOf code) := by
  have hno : ¬isFault s.parts[p].state = true := Bool.eq_false_iff.mp h
  rw [faultBody, failServing_logPart]
  exact if_neg hno

theorem faultEntry_again (h : isFault s.parts[p].state = true) : faultEntry s p st code d0 = logPart s p code d0 := if_pos h

/-! ### What each step leaves standing -/

theorem faultOutputs_touch (s u : State) (p : PartId) (st : PState) (code d0 : Nat) :
    Touch [.parts, .imgs, .snds, .exps, .arbLast, .spa, .spb] u (faultOutputs s u p st code d0) := by
  unfold faultOutputs
  extract_lets u1 u2
  have h1 : Touch [.parts, .imgs, .snds, .exps, .arbLast, .spa, .spb] u u1 := (quietPorts_keeps u p).touch.mono (by decide)
  have h2 : Touch [.parts, .imgs, .snds, .exps, .arbLast, .spa, .spb] u u2 := by
    unfold u2
    split
    · exact h1.step (abortSpan_keeps _ _ _ _).touch (by decide)
    · exact h1
  exact ((h2.step (endGap_keeps _ _).touch (by decide)).step (closeExport_keeps _ _).touch (by decide)).step
    (enterRec_keeps _ _ _).touch (by decide)

theorem faultCensus_touch (s u : State) (p : PartId) (code : Nat) : Touch [.parts] u (faultCensus s u p code) := by
  unfold faultCensus
  split
  · exact (finalCensus_keeps _ _).touch
  · exact (cancelCensus_keeps _ _).touch

theorem faultStop_touch (s u : State) (p : PartId) (st : PState) : Touch [.wafer, .parts] u (faultStop s u p st) :=
  (freeLanes_keeps u p).touch.step (updPart_keeps _ _ _).touch (by decide)

theorem faultBody_touch (s : State) (p : PartId) (st : PState) (code d0 : Nat) :
    Touch [.wafer, .parts, .imgs, .snds, .exps, .arbLast, .spa, .spb] (failServing (logPart s p code d0) p) (faultBody s p st code d0) :=
  (((faultOutputs_touch s _ p st code d0).mono (by decide)).step (faultCensus_touch s _ p code) (by decide)).step (faultStop_touch s _ p st)
    (by decide)

theorem failServing_touch (s : State) (p : PartId) : Touch [.pins] s (failServing s p) := by
  unfold failServing
  split
  · exact (failPins_keeps _ _).touch
  · exact .refl _ _

theorem closeHeld_touch (s : State) (p : PartId) : Touch [.regions, .tiles] s (closeHeld s p) :=
  (closeAllGates_keeps _ _).touch.step (mapRegions_keeps _ _ _).touch (by decide)

theorem stopSpans_touch (s : State) (p : PartId) (st : PState) : Touch [.spa, .spb] s (stopSpans s p st) :=
  Touch.foldl (m := [.spa, .spb]) (s0 := s) _ (fun t a k => k.step (updSpn_keeps t a _).touch (by decide)) _ _ (.refl _ _)

/-- After the gates only span ports, the state and the cause change. -/
theorem faultEntry_after_gates (h : isFault s.parts[p].state = false) :
    Touch [.signals, .parts, .spa, .spb] (closeHeld (faultBody s p st code d0) p) (faultEntry s p st code d0) := by
  rw [faultEntry_eq h]
  exact (((stopSpans_touch _ _ _).mono (by decide)).step (setPState_keeps _ _ _).touch (by decide)).step (setCause_keeps _ _ _).touch (by decide)

/-! ### Log, pins, regions and tiles after a fault entry -/

theorem faultEntry_flt (h : isFault s.parts[p].state = false) : (faultEntry s p st code d0).flt = (logPart s p code d0).flt :=
  (faultEntry_after_gates h).flt_whole.trans <| (closeHeld_touch _ _).flt_whole.trans <| (faultBody_touch s p st code d0).flt_whole.trans
    (failServing_touch _ p).flt_whole

theorem failPins_pin (s : State) (p : PartId) (n : PinId) :
    (failPins s p).pins[n] = if s.pins[n].claimed = some p then pinFailSafe s.pins[n] else s.pins[n] := by
  simp [failPins, updPins]

theorem faultEntry_pin (h : isFault s.parts[p].state = false) (n : PinId) : (faultEntry s p st code d0).pins[n] =
    if isServing s.parts[p].state = true ∧ s.pins[n].claimed = some p then pinFailSafe s.pins[n] else s.pins[n] := by
  have hpins : (faultEntry s p st code d0).pins = (failServing (logPart s p code d0) p).pins :=
    (faultEntry_after_gates h).pins_eq.trans <| (closeHeld_touch _ _).pins_eq.trans (faultBody_touch s p st code d0).pins_eq
  have hlog : (logPart s p code d0).pins = s.pins := (logPart_keeps s p code d0).touch.pins_eq
  rw [hpins, failServing_logPart]
  by_cases hs : isServing s.parts[p].state = true
  · rw [if_pos hs, failPins_pin, hlog]
    simp only [hs, true_and]
  · rw [if_neg hs, if_neg fun hc => hs hc.1, hlog]

theorem faultBody_regions (s : State) (p : PartId) (st : PState) (code d0 : Nat) : (faultBody s p st code d0).regions = s.regions :=
  (faultBody_touch s p st code d0).regions_eq.trans <| (failServing_touch _ p).regions_eq.trans (logPart_keeps s p code d0).touch.regions_eq

theorem faultBody_tiles (s : State) (p : PartId) (st : PState) (code d0 : Nat) : (faultBody s p st code d0).tiles = s.tiles :=
  (faultBody_touch s p st code d0).tiles_eq.trans <| (failServing_touch _ p).tiles_eq.trans (logPart_keeps s p code d0).touch.tiles_eq

theorem mem_heldRegions {s : State} {p : PartId} {r : RegionId} : r ∈ heldRegions s p ↔ s.regions[r].owner = some p := by
  simp [heldRegions, mem_allRegions]

theorem heldRegions_congr {s t : State} (h : t.regions = s.regions) (p : PartId) : heldRegions t p = heldRegions s p := by
  simp only [heldRegions, h]

theorem closeHeld_region_at {s : State} {p : PartId} {r : RegionId} (h : s.regions[r].owner = some p) : (closeHeld s p).regions[r] =
    setVdd 720 { s.regions[r] with gates := Vector.replicate 4 false, intervals := [] } := by
  have hmem := mem_heldRegions.mpr h
  rw [closeHeld, mapRegions_at (fun g => ?_) _ _ hmem, closeAllGates_region_at _ _ hmem]
  cases hs : g.supplyOn <;> simp [setVdd]

/-- A region that the partition holds. -/
theorem faultEntry_region (h : isFault s.parts[p].state = false) {r : RegionId} (hr : s.regions[r].owner = some p) :
    (faultEntry s p st code d0).regions[r] = setVdd 720 { s.regions[r] with gates := Vector.replicate 4 false, intervals := [] } := by
  have hbody := faultBody_regions s p st code d0
  rw [(faultEntry_after_gates h).regions_eq, closeHeld_region_at, hbody]
  rw [hbody]
  exact hr

theorem closeHeld_linksOnly (s : State) (p : PartId) : LinksOnly s (closeHeld s p) :=
  (closeAllGates_linksOnly s _).trans (.of_touch (mapRegions_keeps _ _ _).touch)

theorem faultEntry_linksOnly (s : State) (p : PartId) (st : PState) (code d0 : Nat) : LinksOnly s (faultEntry s p st code d0) := by
  cases h : isFault s.parts[p].state with
  | true =>
    rw [faultEntry_again h]
    exact .of_touch (logPart_keeps _ _ _ _).touch
  | false =>
    exact (LinksOnly.of_tiles (faultBody_tiles s p st code d0)).trans <| (closeHeld_linksOnly _ p).trans (.of_touch (faultEntry_after_gates h))

/-- A region without a tile entry has none after a fault entry. -/
theorem noTiles_faultEntry {r : RegionId} (hr : noTiles s r) (p : PartId) (st : PState) (code d0 : Nat) :
    noTiles (faultEntry s p st code d0) r := by
  cases h : isFault s.parts[p].state with
  | true =>
    rw [faultEntry_again h]
    exact hr.of_tiles (logPart_keeps _ _ _ _).touch.tiles_eq
  | false =>
    have hbody : noTiles (closeAllGates (faultBody s p st code d0) (heldRegions (faultBody s p st code d0) p)) r :=
      noTiles_closeAllGates _ (hr.of_tiles (faultBody_tiles s p st code d0))
    have hmap : (closeHeld (faultBody s p st code d0) p).tiles = _ := (mapRegions_keeps _ _ _).touch.tiles_eq
    exact (hbody.of_tiles hmap).of_tiles (faultEntry_after_gates h).tiles_eq

/-! ### The scrub and the census that follow -/

theorem endGap_part (s : State) (p : PartId) : ∃ g, (endGap s p).parts[p] = { s.parts[p] with flow := { s.parts[p].flow with gap := g } } := by
  unfold endGap
  split
  · exact ⟨_, rfl⟩
  · refine ⟨none, ?_⟩
    rw [(enterRec_keeps _ _ _).touch.parts_eq]
    exact updPart_at _ _ _

/-- The outputs change only the gap episode of the partition. -/
theorem faultOutputs_part (s u : State) (p : PartId) (st : PState) (code d0 : Nat) :
    ∃ g, (faultOutputs s u p st code d0).parts[p] = { u.parts[p] with flow := { u.parts[p].flow with gap := g } } := by
  unfold faultOutputs
  extract_lets u1 u2
  have h2 : u2.parts = u.parts := by
    have h1 : u1.parts = u.parts := (quietPorts_keeps u p).touch.parts_eq
    unfold u2
    split
    · exact (abortSpan_keeps _ _ _ _).touch.parts_eq.trans h1
    · exact h1
  obtain ⟨g, hg⟩ := endGap_part u2 p
  refine ⟨g, ?_⟩
  rw [(enterRec_keeps _ _ _).touch.parts_eq, (closeExport_keeps _ _).touch.parts_eq, hg, h2]

theorem updCensus_part (s : State) (p : PartId) (f : Census → Census) :
    (updCensus s p f).parts[p] = { s.parts[p] with census := f s.parts[p].census } := updPart_at _ _ _

theorem updCensus_twice (s : State) (p : PartId) (f g : Census → Census) :
    ∃ c, (updCensus (updCensus s p f) p g).parts[p] = { s.parts[p] with census := c } :=
  ⟨g (f s.parts[p].census), by rw [updCensus_part, updCensus_part]⟩

theorem faultCensus_part (s u : State) (p : PartId) (code : Nat) :
    ∃ c, (faultCensus s u p code).parts[p] = { u.parts[p] with census := c } := by
  unfold faultCensus
  split
  · exact updCensus_twice _ _ _ _
  · exact ⟨_, updCensus_part _ _ _⟩

theorem freeLanes_part (s : State) (p : PartId) :
    (freeLanes s p).parts[p] = { s.parts[p] with load := s.parts[p].load.map fun l => { l with loadLanes := [] } } := updPart_at _ _ _

/-- The partition after a fault entry, in terms of the steps before its stop. -/
theorem faultEntry_part (h : isFault s.parts[p].state = false) : (faultEntry s p st code d0).parts[p].flow.scrub =
      (if s.parts[p].placement.isSome || s.parts[p].load.isSome || isServing s.parts[p].state then some .fault else none) ∧
    (faultEntry s p st code d0).parts[p].census =
      (faultCensus s (faultOutputs s (failServing (logPart s p code d0) p) p st code d0) p code).parts[p].census := by
  have hstop : (stopSpans (closeHeld (faultBody s p st code d0) p) p st).parts = (faultBody s p st code d0).parts :=
    (stopSpans_touch _ _ _).parts_eq.trans (closeHeld_touch _ _).parts_eq
  obtain ⟨-, -, hflow, -, -, -, -, hcensus⟩ := setPState_rest (stopSpans (closeHeld (faultBody s p st code d0) p) p st) p st
  have hpin : (failServing (logPart s p code d0) p).parts = s.parts := (failServing_touch _ _).parts_eq.trans (logPart_parts _ _ _ _)
  rw [faultEntry_eq h, setCause_part]
  dsimp only
  rw [hflow, hcensus]
  refine ⟨?_, ?_⟩
  · rw [hstop, faultBody, faultStop, updPart_at, freeLanes_part]
    obtain ⟨c, hc⟩ := faultCensus_part s (faultOutputs s (failServing (logPart s p code d0) p) p st code d0) p code
    obtain ⟨g, hg⟩ := faultOutputs_part s (failServing (logPart s p code d0) p) p st code d0
    rw [hc, hg, hpin]
    simp only [Option.isSome_map]
  · rw [hstop, faultBody, faultStop, updPart_at, freeLanes_part]

/-- A cause with a final census leaves one to be read. -/
theorem faultCensus_runs (u : State) (hs : isServing s.parts[p].state = true) (hc : hasFinalCensus code = true) :
    (faultCensus s u p code).parts[p].census.run.isSome = true ∨ (faultCensus s u p code).parts[p].census.finalRun.isSome = true := by
  have hpos : (isServing s.parts[p].state && hasFinalCensus code) = true := by rw [hs, hc]; rfl
  rw [faultCensus, if_pos hpos, finalCensus, updCensus_part]
  split
  · exact .inr rfl
  · exact .inl rfl

end Steps

theorem not_isFault_of_isServing {st : PState} (h : isServing st = true) : isFault st = false := by
  cases st <;> simp_all [isServing, isFault]

/-- Settles O32. -/
theorem faultEntriesStopThePartition : Obligations.FaultEntriesStopThePartition := by
  refine ⟨fun p s hup => ⟨fun hst hl hload hlate => ?_, fun h => ?_, fun hs hlost => ?_, fun h => ?_⟩, fun s p st code d0 => ⟨fun h => ?_, fun h => ?_⟩⟩
  · have hfault : isFault s.parts[p].state = false := by rw [hst]; rfl
    have h : exec (.spanTimeout p) s = .next (if s.parts[p].state = .spanWait ∧ s.parts[p].flow.lupin = none ∧
      s.parts[p].flow.since + 30000000000 ≤ now s then faultEntry s p .faultHeld cSpanTimeout 0 else s) := exec_of_up hup
    rw [if_pos ⟨hst, hl, hlate⟩] at h
    refine ⟨_, h, faultEntry_stands _ _ _ _ _ hfault, (faultEntry_part hfault).1.trans (if_pos ?_)⟩
    rw [hload, Bool.or_true, Bool.true_or]
  · have hno : ¬(s.parts[p].state = .spanWait ∧ s.parts[p].flow.lupin = none ∧ s.parts[p].flow.since + 30000000000 ≤ now s) := by
      rintro ⟨hst, hl, hlate⟩
      rcases h with h | h | h
      · exact h hst
      · rw [hl] at h
        cases h
      · exact absurd hlate (Nat.not_le.mpr h)
    rw [exec_spanTimeout, execSpanTimeout, whenUp_of_up _ hup, if_neg hno]
  · have hfault := not_isFault_of_isServing hs
    have h : exec (.progressWatchdog p) s = .next (if isServing s.parts[p].state && progressLost s p then
      faultEntry s p .faultHeld cProgressLost s.parts[p].flow.windows.length else s) := exec_of_up hup
    rw [if_pos (by rw [hs, hlost]; rfl)] at h
    obtain ⟨hscrub, hcensus⟩ := faultEntry_part (st := .faultHeld) (code := cProgressLost) (d0 := s.parts[p].flow.windows.length) hfault
    refine ⟨_, h, faultEntry_stands _ _ _ _ _ hfault, hscrub.trans (if_pos ?_), ?_⟩
    · rw [hs, Bool.or_true]
    · rw [hcensus]
      exact faultCensus_runs _ hs rfl
  · have hno : ¬(isServing s.parts[p].state && progressLost s p) = true := by
      rcases h with h | h <;> simp [-Fin.getElem_fin, h]
    rw [exec_progressWatchdog, execProgressWatchdog, whenUp_of_up _ hup, if_neg hno]
  · refine ⟨faultEntry_stands _ _ _ _ _ h, faultEntry_flt h, fun q hq => ?_, (faultEntry_linksOnly s p st code d0).onlyLinks,
      (faultEntry_keeps _ _ _ _ _).touch.mem_eq, fun r hr => ?_, faultEntry_pin h⟩
    · exact ((faultEntry_keeps s p st code d0).others q (List.not_mem_cons_of_ne_of_not_mem hq (List.not_mem_nil))).1
    · rw [faultEntry_region h hr]
      exact ⟨rfl, hr⟩
  · rw [faultEntry_again h]
    exact ⟨(logPart_keeps _ _ _ _).touch, rfl⟩

end Sys2Proof.Machine
end

