-- ==== Sys2Proof/Proofs/RegionSupply.lean ====
section
/-! Region voltage and host policy: O38 and O41. -/

namespace Sys2Proof.Machine

-- One proof at a time: a default argument that is a tactic waits for every proof before it.
set_option Elab.async false

/-! ### The governed voltage (R427) -/

/-- A powered region whose partition runs stands at its governed voltage. -/
def governedAt (s : State) (r : RegionId) : Prop :=
  ∀ p, s.regions[r].owner = some p → isServing s.parts[p].state = true → s.regions[r].supplyOn = true → s.regions[r].vdd = governedVdd s r

theorem govern_region_off {s : State} {r q : RegionId} (h : q ≠ r) : (govern s r).regions[q] = s.regions[q] := by
  unfold govern
  extract_lets g
  split
  · rfl
  · split
    · split
      · rfl
      · exact updRegion_off _ _ h
    · rfl

theorem govern_parts (s : State) (r : RegionId) : (govern s r).parts = s.parts := (govern_keeps s r).touch.parts_eq

/-- What a region is governed by stands when its own entry and the partitions stand. -/
theorem governedAt.congr {s t : State} {r : RegionId} (h : governedAt s r) (hr : t.regions[r] = s.regions[r]) (hp : t.parts = s.parts) :
    governedAt t r := by
  unfold governedAt governedVdd capCeilOf
  rw [hr, hp]
  exact h

/-- The two cases of `govern` on a region that runs. -/
theorem govern_of_runs {s : State} {r : RegionId} {p : PartId} (ho : s.regions[r].owner = some p) (hs : isServing s.parts[p].state = true)
    (hon : s.regions[r].supplyOn = true) : govern s r = if governedVdd s r = s.regions[r].vdd then s
      else updRegion s r (fun g => { g with vdd := governedVdd s r, intervals := [] }) := by
  have hrun : (s.regions[r].supplyOn && isServing s.parts[p].state) = true := by rw [hon, hs]; rfl
  unfold govern
  simp only [ho, if_pos hrun]

theorem govern_of_idle {s : State} {r : RegionId}
    (h : ∀ p, s.regions[r].owner = some p → isServing s.parts[p].state = true → s.regions[r].supplyOn = true → False) : govern s r = s := by
  unfold govern
  extract_lets g
  split
  · rfl
  next p hp =>
    exact if_neg fun hrun => h p hp (Bool.and_eq_true _ _ ▸ hrun).2 (Bool.and_eq_true _ _ ▸ hrun).1

theorem govern_governs (s : State) (r : RegionId) : governedAt (govern s r) r := by
  by_cases h : ∃ p, s.regions[r].owner = some p ∧ isServing s.parts[p].state = true ∧ s.regions[r].supplyOn = true
  · obtain ⟨p, ho, hs, hon⟩ := h
    rw [govern_of_runs ho hs hon]
    split
    next hv => exact fun _ _ _ _ => hv.symm
    next =>
      intro q _ _ _
      rw [updRegion_at]
      unfold governedVdd capCeilOf
      rw [updRegion_at]
      rfl
  · have hidle : ∀ p, s.regions[r].owner = some p → isServing s.parts[p].state = true → s.regions[r].supplyOn = true → False :=
      fun p ho hs hon => h ⟨p, ho, hs, hon⟩
    rw [govern_of_idle hidle]
    exact fun p ho hs hon => (hidle p ho hs hon).elim

/-- A region that is governed stays so while others are governed. -/
theorem governedAt.govern {s : State} {r : RegionId} (h : governedAt s r) (q : RegionId) : governedAt (govern s q) r := by
  by_cases hq : r = q
  · exact hq ▸ govern_governs s r
  · exact h.congr (govern_region_off hq) (govern_parts s q)

theorem governAll_governs (s : State) (r : RegionId) : governedAt (governAll s) r :=
  foldl_settles (P := fun u => governedAt u r) (fun u => govern_governs u r) (fun _ q h => h.govern q) allRegions s (mem_allRegions r)

/-- One measured region of a current-ceiling tick. -/
def ceilingStep (s : State) (a : RegionId × Nat) : State :=
  if (s.regions[a.1]).supplyOn then govern (updRegion s a.1 (currentCeiling a.2)) a.1 else s

theorem ceilingStep_governs (s : State) (a : RegionId × Nat) : governedAt (ceilingStep s a) a.1 := by
  unfold ceilingStep
  split
  · exact govern_governs _ _
  next hoff => exact fun _ _ _ hon => absurd hon hoff

theorem governedAt.ceilingStep {s : State} {r : RegionId} (h : governedAt s r) (a : RegionId × Nat) : governedAt (ceilingStep s a) r := by
  by_cases hr : r = a.1
  · exact hr ▸ ceilingStep_governs s a
  · unfold Machine.ceilingStep
    split
    · exact (h.congr (updRegion_off s _ hr) rfl).govern a.1
    · exact h

theorem exec_currentCeilingTick_eq {amps : List (RegionId × Nat)} {s : State} (hup : s.glb.phase = .up) :
    exec (.currentCeilingTick amps) s = .next (amps.foldl ceilingStep s) := exec_of_up hup

/-- Settles O38: each of the four commands ends by governing the regions it speaks of. -/
theorem runningRegionsStandAtTheLeastCeiling : Obligations.RunningRegionsStandAtTheLeastCeiling := by
  intro c s t hup h hc r p ho hs hon hmeasured
  have hgov : governedAt t r := by
    rcases hc with ⟨temps, rfl⟩ | rfl | ⟨w, rfl⟩ | ⟨amps, rfl⟩
    · have ht := h.symm.trans (exec_of_up (c := .throttleTick temps) hup)
      exact Host.Outcome.next.inj ht ▸ governAll_governs _ r
    · have ht := h.symm.trans (exec_of_up (c := .policyEpoch) hup)
      exact Host.Outcome.next.inj ht ▸ governAll_governs _ r
    · have ht := h.symm.trans (exec_of_up (c := .capLoopTick w) hup)
      exact Host.Outcome.next.inj ht ▸ governAll_governs _ r
    · have ht := h.symm.trans (exec_currentCeilingTick_eq hup)
      obtain ⟨a, ha, rfl⟩ := List.mem_map.mp (hmeasured amps rfl)
      exact Host.Outcome.next.inj ht ▸ foldl_settles (P := fun u => governedAt u a.1) (fun u => ceilingStep_governs u a)
        (fun _ b h => h.ceilingStep b) amps s ha
  exact hgov p ho hs hon

/-! ### Policy (R433) -/

/-- The policy that an epoch brings into force. -/
def epochPolicy (s : State) : Policy :=
  { cap := s.pwr.cap, binding := s.pwr.binding, prio := Vector.ofFn (fun p : PartId => s.parts[p].regs.prio),
    margin := Vector.ofFn (fun p : PartId => s.parts[p].regs.margin) }

/-- What an epoch does to a partition. -/
def epochPart (binding : Bool) (x : Partition) : Partition :=
  { x with regs := { x.regs with
      marginTaken := min x.regs.marginTaken x.regs.margin, capCeil := if binding then x.regs.capCeil else none } }

/-- The state in which an epoch governs the regions. -/
def epochState (s : State) : State :=
  { s with pwr := { s.pwr with force := epochPolicy s }, parts := s.parts.map (epochPart s.pwr.binding) }

theorem exec_policyEpoch_eq {s : State} (hup : s.glb.phase = .up) : exec .policyEpoch s = .next (governAll (epochState s)) := exec_of_up hup

theorem exec_policyWrite_eq {item : PolicyItem} {v : Word} {s : State} (hup : s.glb.phase = .up) : exec (.policyWrite item v) s =
    .next (if policyOk item v then storePolicy item v s else { s with pwr := { s.pwr with policyErr := true } }) := exec_of_up hup

theorem exec_policyWrite_of_ok {item : PolicyItem} {v : Word} {s : State} (hup : s.glb.phase = .up) (h : policyOk item v = true) :
    exec (.policyWrite item v) s = .next (storePolicy item v s) := by
  rw [exec_policyWrite_eq hup, if_pos h]

theorem epochState_part (s : State) (p : PartId) : (governAll (epochState s)).parts[p] = epochPart s.pwr.binding s.parts[p] := by
  rw [(governAll_keeps _).touch.parts_eq]
  exact Vector.getElem_map _ p.isLt

/-- Settles O41. -/
theorem policyTakesEffectAtTheEpoch : Obligations.PolicyTakesEffectAtTheEpoch := by
  intro v s hup
  refine ⟨fun hlo hhi => exec_policyWrite_of_ok hup (decide_eq_true ⟨hlo, hhi⟩), fun h => exec_policyWrite_of_ok hup (decide_eq_true h),
    fun p h => exec_policyWrite_of_ok hup (decide_eq_true h), fun p h => exec_policyWrite_of_ok hup (decide_eq_true h),
    fun item h => ?_, _, exec_policyEpoch_eq hup, exec_touch (exec_policyEpoch_eq hup), ?_⟩
  · rw [exec_policyWrite_eq hup, if_neg (Bool.eq_false_iff.mp h)]
  · have hforce : (governAll (epochState s)).pwr.force = epochPolicy s := congrArg Pwr.force (governAll_keeps (epochState s)).touch.pwr_eq
    rw [hforce]
    refine ⟨rfl, rfl, fun p => ?_⟩
    have hmargin : (epochPolicy s).margin[p] = s.parts[p].regs.margin := by simp [epochPolicy]
    have hprio : (epochPolicy s).prio[p] = s.parts[p].regs.prio := by simp [epochPolicy]
    rw [epochState_part, hmargin]
    exact ⟨hprio, rfl, Nat.min_le_right _ _, fun hb => if_neg (Bool.eq_false_iff.mp hb), rfl, rfl⟩

end Sys2Proof.Machine
end

