-- ==== Sys2Proof/Proofs/RegionLoss.lean ====
section
/-! Re-tests and regions that lose their supply: O37 and O40. -/

namespace Sys2Proof.Machine

-- One proof at a time: a default argument that is a tactic waits for every proof before it.
set_option Elab.async false

/-! ### The network tree leaves a region all but its reachability (R436) -/

theorem reformTree_region (s : State) (q : RegionId) : ∃ b, (reformTree s).regions[q] = { s.regions[q] with unreachable := b } := by
  unfold reformTree
  extract_lets s1
  have hstep : ∀ (rs : List RegionId) (u : State), (∃ b, u.regions[q] = { s.regions[q] with unreachable := b }) →
      ∃ b, (rs.foldl (fun s r => logPlain (updRegion s r (fun g => { g with unreachable := true })) 0x0206 r.val) u).regions[q] =
        { s.regions[q] with unreachable := b } := by
    intro rs
    induction rs with
    | nil => exact fun _ h => h
    | cons r rs ih =>
      rintro u ⟨b, hb⟩
      refine ih _ ?_
      rw [(logPlain_keeps _ _ _).touch.regions_eq]
      by_cases hq : q = r
      · subst hq
        exact ⟨true, by rw [updRegion_at, hb]⟩
      · exact ⟨b, by rw [updRegion_off _ _ hq, hb]⟩
  exact hstep _ _ ⟨_, rfl⟩

/-! ### In-field re-tests (R49, R50) -/

theorem exec_rgnTest_eq {r : RegionId} {s : State} (hup : s.glb.phase = .up) : exec (.rgnTest r 1) s =
    .next (if retestable s r then beginRetest s r else updRegion s r (fun g => { g with retest := 5 })) := exec_of_up hup

theorem beginRetest_region (s : State) (r : RegionId) : (beginRetest s r).regions[r] =
    setVdd 720 { s.regions[r] with gates := Vector.replicate 4 false, underTest := true, retest := 1, testStart := now s } := by
  rw [beginRetest, updRegion_at, closeGates_region_at]

theorem beginRetest_linksOnly (s : State) (r : RegionId) : LinksOnly s (beginRetest s r) :=
  (closeGates_linksOnly s r).trans (.of_tiles rfl)

theorem retestable_eq_false {s : State} {r : RegionId} (h : s.regions[r].owner.isSome = true ∨ s.regions[r].underTest = true ∨
    s.regions[r].supplyOn = false ∨ s.regions[r].unreachable = true ∨ reachable s r = false) : retestable s r = false := by
  unfold retestable
  rcases h with h | h | h | h | h
  · simp only [Option.isNone_eq_false_iff.mpr h, Bool.false_and]
  all_goals simp [-Fin.getElem_fin, h]

/-- The region after its re-test. -/
def retestedRegion (bad : Bool) (code : Nat) (g : Region) : Region :=
  setVdd 600 { g with gatewayOut := [], underTest := false, retest := code, supplyOn := g.supplyOn && !bad, supplyOut := g.supplyOut || bad }

theorem endRetest_region (s : State) (r : RegionId) (bad : Bool) (code : Nat) :
    (endRetest s r bad code).regions[r] = retestedRegion bad code s.regions[r] := by
  rw [endRetest, updRegion_at, scrubRegions_region_at s List.mem_cons_self]
  rfl

theorem endRetest_scrubbed (s : State) (r : RegionId) (bad : Bool) (code : Nat) : regionScrubbed (endRetest s r bad code) r :=
  (scrubRegions_scrubbed s List.mem_cons_self).touch (updRegion_keeps _ _ _).touch

theorem abortRetest_scrubbed (s : State) (r : RegionId) : regionScrubbed (abortRetest s r) r :=
  (endRetest_scrubbed _ r _ _).touch (reportGrade_keeps _).touch

theorem abortRetest_region (s : State) (r : RegionId) : (abortRetest s r).regions[r] = retestedRegion false 6 s.regions[r] := by
  rw [abortRetest, (reportGrade_keeps _).touch.regions_eq, endRetest_region, (commitMap_keeps _ _).touch.regions_eq]

theorem retestCode_mem (m : DefMap) (res : TestResult) (r : RegionId) : retestCode m res r ∈ [2, 3, 4, 7] := by
  unfold retestCode
  split_ifs <;> decide

/-- A re-test that runs through leaves the region scrubbed, with its result. -/
theorem finishRetest_ends (s : State) (r : RegionId) (f : WaferFindings) : regionScrubbed (finishRetest s r f) r ∧
    ∃ code ∈ [2, 3, 4, 7], ∃ b, (finishRetest s r f).regions[r] = { retestedRegion (f.supplyOut.contains r) code s.regions[r] with unreachable := b } := by
  unfold finishRetest
  extract_lets m seq w raw tree sites bad res h s1 s2
  have hs1 : s1.regions = s.regions := (commitMap_keeps _ _).touch.regions_eq
  have hlog : Touch [.signals, .flt] s2 (reportGrade (logRegions (logRegions s2 0x0204 res.regressed) 0x0205 res.lost)) :=
    (((logRegions_keeps _ _ _).touch.mono (by decide)).step (logRegions_keeps _ _ _).touch (by decide)).step (reportGrade_keeps _).touch (by decide)
  refine ⟨((endRetest_scrubbed s1 r _ _).touch (reformTree_keeps _).touch).touch hlog, _, retestCode_mem m res r, ?_⟩
  obtain ⟨b, hb⟩ := reformTree_region (endRetest s1 r (f.supplyOut.contains r) (retestCode m res r)) r
  refine ⟨b, ?_⟩
  rw [hlog.regions_eq]
  refine hb.trans ?_
  rw [endRetest_region, hs1]

theorem exec_inFieldRetestDone_eq {r : RegionId} {f : WaferFindings} {a : Bool} {s : State} (hup : s.glb.phase = .up) :
    exec (.inFieldRetestDone r f a) s = .next (if !s.regions[r].underTest then s
      else if a || !s.regions[r].supplyOn then abortRetest s r else finishRetest s r f) := exec_of_up hup

/-- Settles O37. -/
theorem retestsStartIdleAndEndWithTheirResult : Obligations.RetestsStartIdleAndEndWithTheirResult := by
  refine ⟨fun r s hup => ⟨fun ho ht hon hout hcyc hheat hunr hreach => ?_, fun hno => ?_⟩, fun r f s hup => ⟨fun a ht => ?_, fun a ht hab => ?_,
    fun ht hon => ?_⟩⟩
  · have hok : retestable s r = true := by
      unfold retestable
      simp [-Fin.getElem_fin, ho, ht, hon, hout, hcyc, hheat, hunr, hreach]
    have h := exec_rgnTest_eq (r := r) hup
    rw [if_pos hok] at h
    refine ⟨_, h, exec_touch h, (beginRetest_linksOnly s r).onlyLinks, ?_⟩
    rw [beginRetest_region]
    exact ⟨rfl, rfl, if_pos hon, rfl, rfl⟩
  · have h := exec_rgnTest_eq (r := r) hup
    rw [if_neg (Bool.eq_false_iff.mp (retestable_eq_false hno))] at h
    exact ⟨_, h, (updRegion_keeps _ _ _).touch, updRegion_at _ _ _, fun q hq => updRegion_off _ _ hq⟩
  · rw [exec_inFieldRetestDone_eq hup, ht]
    rfl
  · have h := exec_inFieldRetestDone_eq (r := r) (f := f) (a := a) hup
    have habort : (a || !s.regions[r].supplyOn) = true := by
      rcases hab with hab | hab <;> simp [-Fin.getElem_fin, hab]
    rw [ht, habort] at h
    refine ⟨_, h, ?_⟩
    rw [if_neg (by decide), if_pos rfl, abortRetest_region]
    refine ⟨rfl, rfl, ?_, abortRetest_scrubbed s r⟩
    cases hon : s.regions[r].supplyOn <;> simp [-Fin.getElem_fin, retestedRegion, setVdd, hon]
  · have h := exec_inFieldRetestDone_eq (r := r) (f := f) (a := false) hup
    rw [ht, hon] at h
    refine ⟨_, h, ?_⟩
    rw [if_neg (by decide), if_neg (by decide)]
    obtain ⟨hscrub, code, hcode, b, hb⟩ := finishRetest_ends s r f
    rw [hb]
    refine ⟨rfl, hcode, hscrub, fun hf => ?_⟩
    have hbad : f.supplyOut.contains r = false := by simpa using hf
    rw [hbad]
    simp [-Fin.getElem_fin, retestedRegion, setVdd, hon]

/-! ### Regions that go dark (R432, R436) -/

/-- A region whose converter is off. -/
def offRegion (g : Region) : Region :=
  { g with gates := Vector.replicate 4 false, supplyOn := false, vdd := 0, demand := 0, intervals := [], gatewayOut := [] }

theorem regionOff_region (s : State) (r : RegionId) : (regionOff s r).regions[r] = offRegion s.regions[r] := by
  rw [regionOff, scrubRegions_region_at _ List.mem_cons_self, updRegion_at, closeGates_region_at]
  rfl

/-- The owner of the region, if any, enters the fault state. -/
def darkOwner (s : State) (r : RegionId) (st : PState) (code : Nat) : State :=
  match (s.regions[r]).owner with
  | some p => faultEntry (regionOff s r) p st code r.val
  | none => regionOff s r

theorem darkRegion_eq (s : State) (r : RegionId) (st : PState) (code : Nat) : darkRegion s r st code = reformTree (darkOwner s r st code) := rfl

theorem darkOwner_region (s : State) (r : RegionId) (st : PState) (code : Nat) : (darkOwner s r st code).regions[r] = offRegion s.regions[r] := by
  have hoff := regionOff_region s r
  unfold darkOwner
  split
  next p hp =>
    cases hf : isFault (regionOff s r).parts[p].state with
    | true => rw [faultEntry_again hf, (logPart_keeps _ _ _ _).touch.regions_eq, hoff]
    | false =>
      rw [faultEntry_region hf (by rw [hoff]; exact hp), hoff]
      rfl
  next => exact hoff

/-- A region that has gone dark is off, with its gates closed. -/
theorem darkRegion_region (s : State) (r : RegionId) (st : PState) (code : Nat) :
    ∃ b, (darkRegion s r st code).regions[r] = { offRegion s.regions[r] with unreachable := b } := by
  obtain ⟨b, hb⟩ := reformTree_region (darkOwner s r st code) r
  exact ⟨b, (darkRegion_eq s r st code ▸ hb).trans (by rw [darkOwner_region])⟩

theorem darkRegion_scrubbed (s : State) (r : RegionId) (st : PState) (code : Nat) : regionScrubbed (darkRegion s r st code) r := by
  have hnone : noTiles (regionOff s r) r := scrubRegions_noTiles _ List.mem_cons_self
  have hmem := (scrubRegions_scrubbed (updRegion (closeGates s r) r
    (fun g => { g with supplyOn := false, vdd := 0, demand := 0, intervals := [] })) (rs := [r]) List.mem_cons_self).2
  have howner : noTiles (darkOwner s r st code) r ∧ (darkOwner s r st code).mem = (regionOff s r).mem := by
    unfold darkOwner
    split
    · exact ⟨noTiles_faultEntry hnone _ _ _ _, (faultEntry_keeps _ _ _ _ _).touch.mem_eq⟩
    · exact ⟨hnone, rfl⟩
  rw [darkRegion_eq]
  refine regionScrubbed.touch ⟨fun k hk => howner.1.getTile hk, fun a ha => ?_⟩ (reformTree_keeps _).touch
  rw [howner.2]
  exact hmem a ha

theorem standsInFault.of_parts {s t : State} {p : PartId} {st : PState} {code : Nat} (h : standsInFault s p st code) (ht : t.parts = s.parts) :
    standsInFault t p st code := by
  unfold standsInFault
  rw [ht]
  exact h

theorem darkRegion_stands {s : State} {r : RegionId} {p : PartId} (st : PState) (code : Nat) (ho : s.regions[r].owner = some p)
    (hf : isFault s.parts[p].state = false) : standsInFault (darkRegion s r st code) p st code := by
  have hparts : (regionOff s r).parts = s.parts := (regionOff_keeps s r).touch.parts_eq
  have howner : darkOwner s r st code = faultEntry (regionOff s r) p st code r.val := by
    simp only [darkOwner, ho]
  rw [darkRegion_eq, howner]
  exact (faultEntry_stands _ p st code r.val (by rw [hparts]; exact hf)).of_parts (reformTree_keeps _).touch.parts_eq

theorem exec_short_of_on {r : RegionId} {s : State} (hup : s.glb.phase = .up) (hon : s.regions[r].supplyOn = true) : exec (.short r) s =
    .next (logPlain (darkRegion (updRegion s r (fun g => { g with cycleOff := true })) r .faultDark cRegionDark) 0x0201 r.val) := by
  refine (exec_of_up (c := .short r) hup).trans ?_
  rw [if_pos hon]

/-- The region that a heat shed turns off. -/
def shedRegion (s : State) (x : Int) (g : Region) : Region :=
  { g with
    temp := x, tempHigh := max g.tempHigh x, sheds := min 255 (g.sheds + 1), shedTimes := shedsThisHour s g,
    heatOff := decide ((shedsThisHour s g).length < 3), cycleOff := g.cycleOff || decide (3 ≤ (shedsThisHour s g).length) }

theorem exec_heatShed_eq {r : RegionId} {x : Int} {s : State} (hup : s.glb.phase = .up) : exec (.heatShed r x) s =
    .next (if s.regions[r].supplyOn && decide (1050 ≤ x) then
      logEvent (darkRegion { s with regions := s.regions.set r.val (shedRegion s x s.regions[r]) r.isLt } r .faultHot cRegionHot)
        0x0202 r.val (twos 32 x) 0 false
      else s) := exec_of_up hup

/-- The region that a re-check measures. -/
def heatedRegion (x : Int) (g : Region) : Region := { g with temp := x, tempHigh := max g.tempHigh x }

theorem exec_heatShedRecheck_eq {r : RegionId} {x : Int} {s : State} (hup : s.glb.phase = .up) : exec (.heatShedRecheck r x) s =
    .next (if s.regions[r].heatOff && !s.regions[r].supplyOn then
      (if decide (x < 900) && s.regions[r].owner.isNone then
        beginRetest (reformTree (updRegion (updRegion s r (heatedRegion x)) r
          (fun g => setVdd 600 { g with supplyOn := true, heatOff := false }))) r
      else updRegion s r (heatedRegion x))
      else s) := exec_of_up hup

/-- Settles O40. -/
theorem regionLossDarkensItsPartition : Obligations.RegionLossDarkensItsPartition := by
  intro r s hup
  refine ⟨fun hon => ?_, fun x hon hx => ?_, fun x hx => ?_, fun x hheat hoff ho hx => ?_, fun x hheat hoff hno => ?_⟩
  · have h := exec_short_of_on hup hon
    have hlog := fun u => (logPlain_keeps u 0x0201 r.val).touch
    obtain ⟨b, hb⟩ := darkRegion_region (updRegion s r (fun g => { g with cycleOff := true })) r .faultDark cRegionDark
    rw [updRegion_at] at hb
    refine ⟨_, h, ?_⟩
    rw [(hlog _).regions_eq, hb]
    refine ⟨rfl, rfl, rfl, rfl, (darkRegion_scrubbed _ r _ _).touch (hlog _), fun p ho hf => ?_⟩
    have howner := (congrArg Region.owner (updRegion_at s r (fun g => { g with cycleOff := true }))).trans ho
    exact (darkRegion_stands .faultDark cRegionDark howner hf).of_parts (hlog _).parts_eq
  · have h := exec_heatShed_eq (r := r) (x := x) hup
    rw [if_pos (by rw [hon, decide_eq_true hx]; rfl)] at h
    have hlog := fun u => (logEvent_keeps u 0x0202 r.val (twos 32 x) 0 false).touch
    have hset : (s.regions.set r.val (shedRegion s x s.regions[r]) r.isLt)[r] = shedRegion s x s.regions[r] := Vector.getElem_set_self _
    obtain ⟨b, hb⟩ := darkRegion_region { s with regions := s.regions.set r.val (shedRegion s x s.regions[r]) r.isLt } r .faultHot cRegionHot
    refine ⟨_, h, ?_⟩
    rw [(hlog _).regions_eq, hb, hset]
    refine ⟨rfl, rfl, rfl, rfl, (darkRegion_scrubbed _ r _ _).touch (hlog _), ?_, fun p ho hf => ?_⟩
    · have hlen : (shedsThisHour s s.regions[r]).length =
          (s.regions[r].shedTimes.filter (fun u => decide (now s < u + 3600000000000))).length + 1 := rfl
      show (s.regions[r].cycleOff || decide (3 ≤ (shedsThisHour s s.regions[r]).length)) = _
      rw [hlen]
      simp only [Nat.add_le_add_iff_right, show (3 : Nat) = 2 + 1 from rfl]
    · exact (darkRegion_stands (s := { s with regions := s.regions.set r.val (shedRegion s x s.regions[r]) r.isLt }) .faultHot cRegionHot 
        ((congrArg Region.owner hset).trans ho) hf).of_parts (hlog _).parts_eq
  · have hno : ¬(s.regions[r].supplyOn && decide (1050 ≤ x)) = true := by
      rw [decide_eq_false (Int.not_le.mpr hx), Bool.and_false]
      exact Bool.false_ne_true
    rw [exec_heatShed_eq hup, if_neg hno]
  · have h := exec_heatShedRecheck_eq (r := r) (x := x) hup
    rw [if_pos (by rw [hheat, hoff]; rfl), if_pos (by rw [ho, decide_eq_true hx]; rfl)] at h
    obtain ⟨b, hb⟩ := reformTree_region (updRegion (updRegion s r (heatedRegion x)) r
      (fun g => setVdd 600 { g with supplyOn := true, heatOff := false })) r
    rw [updRegion_at, updRegion_at] at hb
    refine ⟨_, h, ?_⟩
    rw [beginRetest_region, hb]
    exact ⟨rfl, rfl, rfl, rfl⟩
  · have h := exec_heatShedRecheck_eq (r := r) (x := x) hup
    have hhold : ¬(decide (x < 900) && s.regions[r].owner.isNone) = true := by
      rw [Bool.and_eq_true, decide_eq_true_iff]
      rintro ⟨hx, hn⟩
      rcases hno with hno | hno
      · exact absurd hx (Int.not_lt.mpr hno)
      · rw [Option.isNone_iff_eq_none.mp hn] at hno
        cases hno
    rw [if_pos (by rw [hheat, hoff]; rfl), if_neg hhold] at h
    exact ⟨_, h, (updRegion_keeps _ _ _).touch, updRegion_at _ _ _⟩

end Sys2Proof.Machine
end

