-- ==== Sys2Proof/Proofs/SupplyLoss.lean ====
section
/-! A supply sag and the end of the reservoir: O43. -/

namespace Sys2Proof.Machine

-- One proof at a time: a default argument that is a tactic waits for every proof before it.
set_option Elab.async false

theorem updBay_at (s : State) (b : BayId) (f : Bay → Bay) : (updBay s b f).bays[b] = f s.bays[b] := updBay_self s b f

theorem updBay_off (s : State) {b c : BayId} (f : Bay → Bay) (h : c ≠ b) : (updBay s b f).bays[c] = s.bays[c] := updBay_other s b f c h

/-! ### The save record (R442) -/

/-- The current one of two copies. -/
def curOf : Option SaveRec → Option SaveRec → Option SaveRec
  | some a, some b => if b.seq ≤ a.seq then some a else some b
  | some a, none => some a
  | none, b => b

theorem curSave_eq (s : State) : curSave s = curOf s.nv.saveA s.nv.saveB := rfl

theorem curOf_of_le {a b : SaveRec} (h : b.seq ≤ a.seq) : curOf (some a) (some b) = some a := if_pos h

theorem curOf_of_not_le {a b : SaveRec} (h : ¬b.seq ≤ a.seq) : curOf (some a) (some b) = some b := if_neg h

theorem curSave_congr {s t : State} (h : t.nv = s.nv) : curSave t = curSave s := by
  rw [curSave_eq, curSave_eq, h]

/-- A torn save leaves the current record. -/
theorem curSave_tearSave (s : State) : curSave (tearSave s) = curSave s := by
  rw [curSave_eq, curSave_eq]
  unfold tearSave
  split
  next a b ha hb =>
    rw [ha, hb]
    split
    next h =>
      rw [curOf_of_le h]
      exact congrArg (curOf · none) ha
    next h =>
      rw [curOf_of_not_le h]
      exact hb
  next => rfl

/-- The record that a save writes. -/
def savedRec (s at0 : State) (cause : Nat) : SaveRec :=
  { cause := cause, seq := (match curSave s with | some r => r.seq + 1 | none => 0), powerOn := s.glb.powerOn, time := now at0,
    parts := allParts.map (savePart at0), cap := s.pwr.force.cap, binding := s.pwr.force.binding,
    prio := s.pwr.force.prio.toList, margin := s.pwr.force.margin.toList, thermal := allRegions.map (saveThermal at0),
    tail := s.flt.entries.take 1972 }

theorem savedRec_seq_of_some {s at0 : State} {cause : Nat} {old : SaveRec} (h : curSave s = some old) :
    (savedRec s at0 cause).seq = old.seq + 1 := by
  simp only [savedRec, h]

theorem savedRec_seq_of_none {s at0 : State} {cause : Nat} (h : curSave s = none) : (savedRec s at0 cause).seq = 0 := by
  simp only [savedRec, h]

/-- A record written is the current one. -/
theorem curSave_writeSave (s at0 : State) (cause : Nat) : curSave (writeSave s at0 cause) = some (savedRec s at0 cause) := by
  have hnext : ∀ old, curSave s = some old → old.seq ≤ (savedRec s at0 cause).seq ∧ ¬(savedRec s at0 cause).seq ≤ old.seq := by
    intro old h
    rw [savedRec_seq_of_some h]
    omega
  unfold writeSave
  extract_lets r
  have hr : r = savedRec s at0 cause := rfl
  clear_value r
  subst hr
  have hcur : ∀ {x y : Option SaveRec}, s.nv.saveA = x → s.nv.saveB = y → curSave s = curOf x y := by
    rintro x y rfl rfl
    rfl
  split
  next ha =>
    show curOf (some (savedRec s at0 cause)) s.nv.saveB = _
    cases hb : s.nv.saveB with
    | none => rfl
    | some b => exact curOf_of_le (hnext b (hcur ha hb)).1
  next a ha hb =>
    show curOf s.nv.saveA (some (savedRec s at0 cause)) = _
    rw [ha]
    exact curOf_of_not_le (hnext a (hcur ha hb)).2
  next a b ha hb =>
    split
    next h =>
      show curOf s.nv.saveA (some (savedRec s at0 cause)) = _
      rw [ha]
      exact curOf_of_not_le (hnext a ((hcur ha hb).trans (curOf_of_le h))).2
    next h =>
      show curOf (some (savedRec s at0 cause)) s.nv.saveB = _
      rw [hb]
      exact curOf_of_le (hnext b ((hcur ha hb).trans (curOf_of_not_le h))).1

/-! ### The bays (R439 step 5) -/

/-- Whether a bay's life record is written. -/
def sagWrites (written : List BayId) (s : State) (b : BayId) : Bool :=
  writable s.bays[b] && decide (s.bays[b].stateWrites < 100000) && written.contains b

theorem sagLife_at (written : List BayId) (s : State) (b : BayId) :
    (sagLife written s b).bays[b].power = false ∧ (sagLife written s b).bays[b].perst = true ∧ (sagLife written s b).bays[b].busLow = true ∧
    (sagLife written s b).bays[b].lifeSeq = s.bays[b].lifeSeq + (if sagWrites written s b then 1 else 0) := by
  unfold sagLife
  extract_lets s1
  rw [updBay_at]
  refine ⟨rfl, rfl, rfl, ?_⟩
  have hs1 : s1 = if sagWrites written s b then writeLife s b 1 else s := rfl
  show s1.bays[b].lifeSeq = _
  rw [hs1]
  split
  · exact congrArg Bay.lifeSeq (updBay_at s b _)
  · rfl

theorem sagLife_off (written : List BayId) (s : State) {b c : BayId} (h : c ≠ b) : (sagLife written s b).bays[c] = s.bays[c] := by
  unfold sagLife
  extract_lets s1
  rw [updBay_off _ _ h]
  unfold s1
  split
  · exact updBay_off _ _ h
  · rfl

/-- Each bay is reached once. -/
theorem foldl_sagLife_bay (written : List BayId) (b : BayId) : ∀ (bs : List BayId) (s : State), b ∈ bs → bs.Nodup →
    ∃ u : State, u.bays[b] = s.bays[b] ∧ (bs.foldl (sagLife written) s).bays[b] = (sagLife written u b).bays[b]
  | [], _, h, _ => nomatch h
  | c :: bs, s, h, hnd => by
    obtain ⟨hc, hnd⟩ := List.nodup_cons.mp hnd
    by_cases hb : b = c
    · subst hb
      refine ⟨s, rfl, ?_⟩
      have hrest : ∀ (cs : List BayId) (t : State), b ∉ cs → (cs.foldl (sagLife written) t).bays[b] = t.bays[b] := by
        intro cs
        induction cs with
        | nil => exact fun _ _ => rfl
        | cons c cs ih =>
          intro t hmem
          obtain ⟨hne, hcs⟩ := not_or.mp (mt List.mem_cons.mpr hmem)
          exact (ih _ hcs).trans (sagLife_off written t hne)
      exact hrest bs _ hc
    · obtain ⟨u, hu, hfold⟩ := foldl_sagLife_bay written b bs (sagLife written s c) ((List.mem_cons.mp h).resolve_left hb) hnd
      exact ⟨u, hu.trans (sagLife_off written s hb), hfold⟩

/-! ### SUPPLY_SAG -/

/-- The map copy that a write under way leaves torn. -/
def sagStart (torn : Bool) (s : State) : State := if torn then { s with wafer := tearMap s.wafer (now s) } else s

/-- Wafer shed, pins at fail-safe, event logged (R439 steps 1 and 2). -/
def sagLogged (ov torn : Bool) (s : State) : State :=
  logEvent (updPins (shedWafer (sagStart torn s)) (fun x => if x.claimed.isSome then pinFailSafe x else x)) 0x0009 0 (boolNat ov) 0 false

/-- The board without its supply, the save record written or torn (R439 steps 3 and 4). -/
def sagSaved (ov torn saved : Bool) (s : State) : State :=
  if saved then writeSave (shedBoard (sagLogged ov torn s)) s (boolNat ov) else tearSave (shedBoard (sagLogged ov torn s))

/-- The bays with their life records written and their power off (R439 step 5). -/
def sagBays (ov torn saved : Bool) (written : List BayId) (s : State) : State :=
  allBays.foldl (sagLife (if saved then written else [])) (sagSaved ov torn saved s)

/-- The unit is shed (R440). -/
def shedPhase (u : State) : State := { u with glb := { u.glb with phase := .shed, linkUp := false, bar0 := false } }

theorem shedPhase_touch (u : State) : Touch [.glb] u (shedPhase u) := .lit

/-- The unit after a sag. -/
def sagged (ov torn saved : Bool) (written : List BayId) (s : State) : State := shedPhase (sagBays ov torn saved written s)

section Sag

variable (ov torn saved : Bool) (written : List BayId) (s : State)

theorem exec_supplySag_eq (hup : s.glb.phase = .up) : exec (.supplySag ov ⟨written, torn, saved⟩) s = .next (sagged ov torn saved written s) := by
  refine exec_of_up hup ?_
  rw [exec_supplySag]
  unfold execSupplySag sagged sagBays sagSaved sagLogged sagStart shedPhase
  dsimp only

theorem sagStart_touch : Touch [.wafer] s (sagStart torn s) := by
  unfold sagStart
  split
  · exact .lit
  · exact .refl _ _

theorem sagBays_touch : Touch [.bays] (sagSaved ov torn saved s) (sagBays ov torn saved written s) :=
  Touch.foldl _ (fun _ _ h => h.step (sagLife_keeps _ _ _).touch (by decide)) _ _ (.refl _ _)

theorem sagSaved_touch : Touch [.nv] (shedBoard (sagLogged ov torn s)) (sagSaved ov torn saved s) := by
  unfold sagSaved
  split
  · exact (writeSave_keeps _ _ _).touch
  · exact (tearSave_keeps _).touch

/-- From the logged state on only the board, the save record and the bays change. -/
theorem sagged_after_log : Touch [.glb, .nv, .bays, .imgs, .snds, .exps, .spa, .spb] (sagLogged ov torn s) (sagged ov torn saved written s) :=
  ((((shedBoard_keeps _).touch.mono (by decide)).step (sagSaved_touch ov torn saved s) (by decide)).step (sagBays_touch ov torn saved written s)
    (by decide)).step (shedPhase_touch _) (by decide)

theorem sagLogged_touch : Touch [.flt] (updPins (shedWafer (sagStart torn s)) (fun x => if x.claimed.isSome then pinFailSafe x else x))
    (sagLogged ov torn s) := (logEvent_keeps _ _ _ _ _ _).touch

theorem sagged_waferShed : waferShed (sagged ov torn saved written s) := by
  have hafter := sagged_after_log ov torn saved written s
  have hlog := sagLogged_touch ov torn s
  have hregions : (sagged ov torn saved written s).regions = (shedWafer (sagStart torn s)).regions := hafter.regions_eq.trans hlog.regions_eq
  have htiles : (sagged ov torn saved written s).tiles = [] := hafter.tiles_eq.trans hlog.tiles_eq
  have hmem : (sagged ov torn saved written s).mem = [] := hafter.mem_eq.trans hlog.mem_eq
  refine ⟨fun r => ?_, htiles, hmem⟩
  rw [hregions]
  simp [shedWafer, updRegions]

theorem sagged_pins : claimedPinsFailSafe s (sagged ov torn saved written s) := by
  have hpins : (sagged ov torn saved written s).pins = (updPins (shedWafer (sagStart torn s)) (fun x => if x.claimed.isSome then pinFailSafe x else x)).pins :=
    (sagged_after_log ov torn saved written s).pins_eq.trans (sagLogged_touch ov torn s).pins_eq
  have hstart : (shedWafer (sagStart torn s)).pins = s.pins := (sagStart_touch torn s).pins_eq
  intro n
  rw [hpins, ← hstart]
  simp [updPins]

theorem sagged_flt : (sagged ov torn saved written s).flt = (logEvent s 0x0009 0 (boolNat ov) 0 false).flt := by
  have hstart := sagStart_touch torn s
  have hglb : (sagStart torn s).glb = s.glb := hstart.glb_whole
  have hflt : (sagStart torn s).flt = s.flt := hstart.flt_whole
  have htbs : (sagStart torn s).tbs = s.tbs := hstart.tbs_eq
  refine (sagged_after_log ov torn saved written s).flt_whole.trans ?_
  rw [sagLogged, logEvent_flt, logEvent_flt]
  show logInto (sagStart torn s).flt (sagStart torn s).glb.powerOn (sagStart torn s).tbs.time.toNat _ _ _ _ _ = _
  rw [hglb, hflt, htbs]

theorem sagBoard_nv : (shedBoard (sagLogged ov torn s)).nv = s.nv :=
  (shedBoard_keeps _).touch.nv_eq.trans <| (sagLogged_touch ov torn s).nv_eq.trans (sagStart_touch torn s).nv_eq

theorem sagBoard_bays : (sagSaved ov torn saved s).bays = s.bays :=
  (sagSaved_touch ov torn saved s).bays_eq.trans <| (shedBoard_keeps _).touch.bays_eq.trans <| (sagLogged_touch ov torn s).bays_eq.trans
    (sagStart_touch torn s).bays_eq

theorem curSave_sagged_eq : curSave (sagged ov torn saved written s) = curSave (sagSaved ov torn saved s) :=
  curSave_congr ((shedPhase_touch _).nv_eq.trans (sagBays_touch ov torn saved written s).nv_eq)

theorem mem_allBays (b : BayId) : b ∈ allBays := by
  revert b
  decide

theorem sagged_bay (b : BayId) : (sagged ov torn saved written s).bays[b].power = false ∧ (sagged ov torn saved written s).bays[b].perst = true ∧
    (sagged ov torn saved written s).bays[b].busLow = true ∧ (sagged ov torn saved written s).bays[b].lifeSeq =
      s.bays[b].lifeSeq + (if sagWrites (if saved then written else []) s b then 1 else 0) := by
  obtain ⟨u, hu, hfold⟩ := foldl_sagLife_bay (if saved then written else []) b allBays (sagSaved ov torn saved s) (mem_allBays b) (by decide)
  rw [sagBoard_bays] at hu
  have hbay : (sagged ov torn saved written s).bays[b] = (sagLife (if saved then written else []) u b).bays[b] :=
    (congrArg (·[b]) (shedPhase_touch _).bays_eq).trans hfold
  obtain ⟨hp, hr, hl, hseq⟩ := sagLife_at (if saved then written else []) u b
  rw [hbay]
  refine ⟨hp, hr, hl, hseq.trans ?_⟩
  rw [sagWrites, sagWrites, hu]

end Sag

theorem sagWrites_iff (saved : Bool) (written : List BayId) (s : State) (b : BayId) : sagWrites (if saved then written else []) s b = true ↔
    saved = true ∧ b ∈ written ∧ s.bays[b].accepted = true ∧ s.bays[b].power = true ∧ s.bays[b].stateWrites < 100000 := by
  cases saved <;> simp only [sagWrites, writable, Bool.and_eq_true, decide_eq_true_eq, List.contains_iff_mem, if_true, if_false,
    List.not_mem_nil, Bool.false_eq_true, and_false, false_and, true_and]
  constructor
  · rintro ⟨⟨⟨hacc, hpow⟩, hfew⟩, hmem⟩
    exact ⟨hmem, hacc, hpow, hfew⟩
  · rintro ⟨hmem, hacc, hpow, hfew⟩
    exact ⟨⟨⟨hacc, hpow⟩, hfew⟩, hmem⟩

/-- Settles O43. -/
theorem sagShedsTheWaferAndSaves : Obligations.SagShedsTheWaferAndSaves := by
  intro ov torn saved written s hup
  have hglb : (sagLogged ov torn s).glb = s.glb := (sagLogged_touch ov torn s).glb_whole.trans (sagStart_touch torn s).glb_whole
  have hcause : boolNat ov = if ov then 1 else 0 := by cases ov <;> rfl
  refine ⟨⟨_, exec_supplySag_eq ov torn saved written s hup, rfl, rfl, sagged_waferShed _ _ _ _ _, sagged_pins _ _ _ _ _,
    hcause ▸ sagged_flt ov torn saved written s, fun hs => ?_, fun hs => ?_, fun b => ?_⟩, fun u hu => ?_⟩
  · rw [curSave_sagged_eq, sagSaved, hs, if_neg Bool.false_ne_true, curSave_tearSave]
    exact curSave_congr (sagBoard_nv ov torn s)
  · have hcur := curSave_congr (sagBoard_nv ov torn s)
    have hboard : (shedBoard (sagLogged ov torn s)).glb.powerOn = s.glb.powerOn := congrArg Glb.powerOn hglb
    refine ⟨savedRec (shedBoard (sagLogged ov torn s)) s (boolNat ov), ?_, hcause, hboard, rfl, fun old hold => ?_, fun hnone => ?_⟩
    · rw [curSave_sagged_eq, sagSaved, hs, if_pos rfl, curSave_writeSave]
    · exact savedRec_seq_of_some (hcur.trans hold)
    · exact savedRec_seq_of_none (hcur.trans hnone)
  · obtain ⟨hp, hr, hl, hseq⟩ := sagged_bay ov torn saved written s b
    refine ⟨hp, hr, hl, hseq.trans ?_⟩
    simp only [sagWrites_iff]
  · have h : exec .reservoirExhausted u = .next { updPins u (fun x => { x with level := .hiZ }) with glb := { u.glb with phase := .off } } := by
      rw [exec_reservoirExhausted, execReservoirExhausted, hu]
    exact ⟨_, h, rfl, fun n => by simp [updPins]⟩

end Sys2Proof.Machine
end

