-- ==== Sys2Proof/Proofs/BayInsertion.lean ====
section
/-! Bay power, removal and the identity check: O19 and O20. -/

namespace Sys2Proof.Machine

-- One proof at a time: a default argument that is a tactic waits for every proof before it.
set_option Elab.async false

/-! ### Refusals and warnings in a bay -/

/-- A refused bay (R252). -/
def refusedBay (code : Nat) (x : Bay) : Bay := { x with cause := causeOf code, accepted := false }

theorem refuseBay_bay (s : State) (b : BayId) (code : Nat) : (refuseBay s b code).bays[b] = refusedBay code s.bays[b] :=
  (congrArg (·[b]) (logIrq_keeps _ _ _ _ _ _ _).touch.bays_eq).trans (updBay_at s b _)

theorem refuseBay_reports {s u : State} (b : BayId) (code : Nat) (hf : u.flt = s.flt) (hg : u.glb = s.glb) (ht : u.tbs = s.tbs) :
    reports s (refuseBay u b code) code b.val 0 0 false 17 :=
  logIrq_reports (u := updBay u b (refusedBay code)) hf hg (congrArg Tbs.time ht) code b.val 0 0 false 17

/-- A bay whose wear warning follows its counters. -/
def wornBay (x : Bay) : Bay := { x with wear := x.wear ||| wearOf x }

theorem noteWear_bay (s : State) (b : BayId) : (noteWear s b).bays[b] = wornBay s.bays[b] := by
  unfold noteWear
  extract_lets x w
  split
  next h =>
    show s.bays[b] = { x with wear := w }
    rw [h]
  next => exact (congrArg (·[b]) (irq_bays _ _)).trans (updBay_at s b _)

theorem noteWear_off (s : State) {b c : BayId} (h : c ≠ b) : (noteWear s b).bays[c] = s.bays[c] := by
  unfold noteWear
  extract_lets x w
  split
  · rfl
  · exact (congrArg (·[c]) (irq_bays _ _)).trans (updBay_off s _ h)

/-! ### Presence, power and removal (R221-R227) -/

theorem dropQueuedLoad_part (s : State) (p : PartId) : ∃ q, (dropQueuedLoad s p).parts[p] = { s.parts[p] with queued := q } :=
  ⟨_, updPart_at s p _⟩

/-- The partition once the removal is logged. -/
theorem removalLogged_part (s : State) (b : BayId) :
    ∃ q, (dropQueuedLoad (logIrq s 0x0312 b.val 0 (s.bays[b]).id.toNat false 17) b).parts[b] = { s.parts[b] with queued := q } := by
  obtain ⟨q, hq⟩ := dropQueuedLoad_part (logIrq s 0x0312 b.val 0 (s.bays[b]).id.toNat false 17) b
  rw [(logIrq_keeps _ _ _ _ _ _ _).touch.parts_eq] at hq
  exact ⟨q, hq⟩

/-- A removal from a bay whose partition has no load in flight. -/
theorem removeCartridge_of_idle {s : State} {b : BayId} (h : s.parts[b].load = none) : removeCartridge s b =
    updBay (stopOnRemoval (dropQueuedLoad (logIrq s 0x0312 b.val 0 (s.bays[b]).id.toNat false 17) b) b) b (fun _ => {}) := by
  unfold removeCartridge
  extract_lets s1 s2
  obtain ⟨q, hq⟩ := removalLogged_part s b
  have hload : s1.parts[b].load = none := (congrArg Partition.load hq :).trans h
  have hno : ¬(s1.parts[b].load.isSome && s1.parts[b].flow.lupin.isNone) = true := by
    rw [hload]
    simp
  have hs2 : s2 = s1 := if_neg hno
  rw [hs2]

theorem stopOnRemoval_of_stop {s : State} {p : PartId} {i : Image} (hi : s.parts[p].active = some i) (hstop : (imgContract i).stopOnRemoval = true)
    (hs : s.parts[p].state = .running) : stopOnRemoval s p = beginDrain s p .stopOnRemoval := by
  unfold stopOnRemoval
  simp only [hi, hstop, hs, Bool.true_and, decide_true, if_true]

theorem stopOnRemoval_of_go {s : State} {p : PartId} (h : ∀ i, s.parts[p].active = some i → (imgContract i).stopOnRemoval = true →
    s.parts[p].state = .running → False) : stopOnRemoval s p = s := by
  unfold stopOnRemoval
  split
  next i hi =>
    refine if_neg fun hc => ?_
    obtain ⟨hstop, hs⟩ := (Bool.and_eq_true _ _).mp hc
    exact h i hi hstop (of_decide_eq_true hs)
  next => rfl

theorem updFlow_part (s : State) (p : PartId) (f : Flow → Flow) : (updFlow s p f).parts[p] = { s.parts[p] with flow := f s.parts[p].flow } :=
  updPart_at s p _

/-- A drain that begins leaves the image that runs. -/
theorem beginDrain_active (s : State) (p : PartId) (why : DrainWhy) : (beginDrain s p why).parts[p].active = s.parts[p].active := by
  unfold beginDrain
  extract_lets s0 s1 s2
  have h0 : s0.parts[p].active = s.parts[p].active := by
    unfold s0
    split
    · obtain ⟨g, hg⟩ := endGap_part s p
      rw [hg]
    · rfl
  have h2 : s2.parts[p].active = s.parts[p].active := by
    obtain ⟨hact, -⟩ := setPState_rest s1 p .draining
    exact hact.trans ((congrArg Partition.active (updFlow_part s0 p _) :).trans h0)
  split
  · split
    · exact h2
    · exact (congrArg (fun v : Vector Partition 8 => v[p].active) (sendAll_keeps _ _ _ _).touch.parts_eq).trans h2
  · exact h2

theorem stopOnRemoval_active (s : State) (p : PartId) : (stopOnRemoval s p).parts[p].active = s.parts[p].active := by
  unfold stopOnRemoval
  split
  · split
    · exact beginDrain_active _ _ _
    · rfl
  · rfl

theorem drains.of_parts {s t : State} {p : PartId} {why : DrainWhy} (h : drains s p why) (ht : t.parts = s.parts) : drains t p why := by
  unfold drains
  rw [ht]
  exact h

section Bays

variable {b : BayId} {s : State} (hup : s.glb.phase = .up)
include hup

theorem exec_removed_of_inserted (h : s.bays[b].presence = .inserted) : exec (.removed b) s = .next (removeCartridge s b) := by
  rw [exec_removed, execRemoved, whenUp_of_up _ hup]
  simp only [h]

theorem exec_removed_of_debouncing (h : s.bays[b].presence = .debouncing) :
    exec (.removed b) s = .next (updBay s b fun x => { x with presence := .absent }) := by
  rw [exec_removed, execRemoved, whenUp_of_up _ hup]
  simp only [h]

theorem exec_presenceDebounceEnd_eq : exec (.presenceDebounceEnd b) s = .next (if s.bays[b].presence = .debouncing then
    updBay s b (fun x => { x with presence := .inserted, power := true, perst := true, busLow := false }) else s) := exec_of_up hup

theorem exec_perstRelease_eq {w g : Nat} : exec (.perstRelease b w g) s = .next (if s.bays[b].good && s.bays[b].perst then
    updBay s b (fun x => { x with perst := false, nvme := .training, linkWidth := w, linkGen := g }) else s) := exec_of_up hup

theorem exec_overcurrent_of_power (h : s.bays[b].power = true) : exec (.overcurrent b) s = .next (refuseBay (updBay s b (fun x => { x with
    power := false, good := false, perst := true, tripped := true, accepted := false, linkWidth := 0, linkGen := 0 })) b 0x0301) :=
  (exec_of_up hup).trans (congrArg Host.Outcome.next (if_pos h))

end Bays

/-- Settles O19. -/
theorem baysPowerUpInOrderAndEmptyOnRemoval : Obligations.BaysPowerUpInOrderAndEmptyOnRemoval := by
  refine ⟨fun b s hup => ⟨fun habs => ?_, fun hdeb => ?_, fun hdeb => ?_, fun w g hgood hperst => ?_, fun w g h => ?_⟩,
    fun b s hup => ⟨fun hins hload => ?_, fun hdeb => ?_, fun hpow => ?_⟩⟩
  · have h : exec (.presenceAsserted b) s = .next (if s.bays[b].presence = .absent then updBay s b (fun x => { x with presence := .debouncing })
      else s) := exec_of_up hup
    rw [if_pos habs] at h
    exact ⟨_, h, exec_touch h, updBay_at _ _ _⟩
  · have h := exec_presenceDebounceEnd_eq (b := b) hup
    rw [if_pos hdeb] at h
    exact ⟨_, h, exec_touch h, updBay_at _ _ _⟩
  · rw [exec_presenceDebounceEnd_eq hup, if_neg hdeb]
  · have h := exec_perstRelease_eq (b := b) (w := w) (g := g) hup
    rw [if_pos (by rw [hgood, hperst]; rfl)] at h
    exact ⟨_, h, exec_touch h, updBay_at _ _ _⟩
  · have hno : ¬(s.bays[b].good && s.bays[b].perst) = true := by
      rcases h with h | h <;> simp [-Fin.getElem_fin, h]
    rw [exec_perstRelease_eq hup, if_neg hno]
  · have h := exec_removed_of_inserted hup hins
    rw [removeCartridge_of_idle hload] at h
    obtain ⟨q, hq⟩ := removalLogged_part s b
    refine ⟨_, h, updBay_at _ _ _, ?_, fun i hi hstop hs => ?_, fun i hi hgo => ?_⟩
    · exact (stopOnRemoval_active _ b).trans (congrArg Partition.active hq :)
    · have hact := (congrArg Partition.active hq :).trans hi
      have hst := (congrArg Partition.state hq :).trans hs
      rw [stopOnRemoval_of_stop hact hstop hst]
      exact (beginDrain_drains _ b .stopOnRemoval).of_parts (updBay_keeps _ _ _).touch.parts_eq
    · have hact := (congrArg Partition.active hq :).trans hi
      have hstay := stopOnRemoval_of_go (p := b) (s := dropQueuedLoad (logIrq s 0x0312 b.val 0 (s.bays[b]).id.toNat false 17) b)
        fun j hj hstop _ => by
          rw [hact] at hj
          rw [Option.some.inj hj, hstop] at hgo
          cases hgo
      rw [hstay]
      exact ⟨(congrArg Partition.state hq :), (congrArg Partition.flow hq :), logIrq_reports (s := s) rfl rfl rfl _ _ _ _ _ _⟩
  · have h := exec_removed_of_debouncing hup hdeb
    exact ⟨_, h, (updBay_keeps _ _ _).touch, updBay_at _ _ _⟩
  · have h := exec_overcurrent_of_power hup hpow
    have hbay := refuseBay_bay (updBay s b (fun x => { x with
      power := false, good := false, perst := true, tripped := true, accepted := false, linkWidth := 0, linkGen := 0 })) b 0x0301
    rw [updBay_at] at hbay
    refine ⟨_, h, exec_touch h, ?_⟩
    rw [hbay]
    exact ⟨rfl, rfl, rfl, rfl, rfl, refuseBay_reports b 0x0301 rfl rfl rfl⟩

/-! ### The identity check (R241-R246) -/

theorem duplicateId_iff (s : State) (b : BayId) (id : BitVec 64) :
    duplicateId s b id = true ↔ ∃ q : BayId, q ≠ b ∧ s.bays[q].accepted = true ∧ s.bays[q].id = id := by
  simp only [duplicateId, List.any_eq_true, Bool.and_eq_true, decide_eq_true_eq, and_assoc]
  exact ⟨fun ⟨q, _, h⟩ => ⟨q, h⟩, fun ⟨q, h⟩ => ⟨q, mem_allBays q, h⟩⟩

/-- Only the other bays count. -/
theorem duplicateId_congr {s t : State} {b : BayId} (h : ∀ q, q ≠ b → t.bays[q] = s.bays[q]) (id : BitVec 64) :
    duplicateId t b id = duplicateId s b id := by
  rw [Bool.eq_iff_iff, duplicateId_iff, duplicateId_iff]
  refine exists_congr fun q => and_congr_right fun hq => ?_
  rw [h q hq]

/-- A bay whose power is good and whose ID has been read, after the conversation `talk`. -/
def idRead (s : State) (b : BayId) (idBytes : List Byte) (talk : SeTalk) : State :=
  updBay (updBay (updBay s b (fun x => { x with good := true })) b (fun x => { x with id := BitVec.ofNat 64 (leNat idBytes) })) b
    (fun x => { x with seSent := talk.sent })

theorem idRead_bay (s : State) (b : BayId) (idBytes : List Byte) (talk : SeTalk) : (idRead s b idBytes talk).bays[b] =
    { s.bays[b] with good := true, id := BitVec.ofNat 64 (leNat idBytes), seSent := talk.sent } := by
  rw [idRead, updBay_at, updBay_at, updBay_at]

theorem idRead_off (s : State) {b q : BayId} (idBytes : List Byte) (talk : SeTalk) (h : q ≠ b) : (idRead s b idBytes talk).bays[q] = s.bays[q] := by
  rw [idRead, updBay_off _ _ h, updBay_off _ _ h, updBay_off _ _ h]

theorem exec_bayPowerGood_of_power {b : BayId} {o : IdentityObs} {s : State} (hup : s.glb.phase = .up) (hp : s.bays[b].power = true)
    (hg : s.bays[b].good = false) : exec (.bayPowerGood b o) s = .next (checkIdentity (updBay s b (fun x => { x with good := true })) b o) :=
  (exec_of_up hup).trans (congrArg Host.Outcome.next (if_pos (by rw [hp, hg]; rfl)))

section Identity

variable {s : State} {b : BayId} {o : IdentityObs} {idBytes : List Byte} {talk : SeTalk}

theorem checkIdentity_of_silent {talk : SeTalk} (h : seRead 0x01 [] 8 { answers := o.answers } = (none, talk)) :
    checkIdentity s b o = refuseBay (updBay s b (fun x => { x with seSent := talk.sent })) b 0x0302 := by
  unfold checkIdentity
  simp only [h]

variable (hid : seRead 0x01 [] 8 { answers := o.answers } = (some idBytes, talk))
include hid

/-- Whether the ID is a duplicate, seen from the state before the check. -/
theorem checkIdentity_of_id : checkIdentity (updBay s b (fun x => { x with good := true })) b o =
    if duplicateId s b (BitVec.ofNat 64 (leNat idBytes)) then refuseBay (idRead s b idBytes talk) b 0x0303
    else match challenge s idBytes o.nonce talk with
      | (false, t1) => refuseBay (idRead s b idBytes t1) b 0x0302
      | (true, t1) => match readCounters t1 with
        | (none, t2) => refuseBay (idRead s b idBytes t2) b 0x0302
        | (some c, t2) => takeIdentity (idRead s b idBytes t2) b c.1 c.2 := by
  unfold checkIdentity
  simp only [hid]
  have hdup : duplicateId (updBay (updBay s b (fun x => { x with good := true })) b (fun x => { x with id := BitVec.ofNat 64 (leNat idBytes) })) b
      (BitVec.ofNat 64 (leNat idBytes)) = duplicateId s b (BitVec.ofNat 64 (leNat idBytes)) :=
    duplicateId_congr (fun q hq => by rw [updBay_off _ _ hq, updBay_off _ _ hq]) _
  have hchal : challenge (updBay s b (fun x => { x with good := true })) idBytes o.nonce talk = challenge s idBytes o.nonce talk := rfl
  rw [hdup, hchal]
  rfl

theorem checkIdentity_of_duplicate (hd : duplicateId s b (BitVec.ofNat 64 (leNat idBytes)) = true) :
    checkIdentity (updBay s b (fun x => { x with good := true })) b o = refuseBay (idRead s b idBytes talk) b 0x0303 := by
  rw [checkIdentity_of_id hid, if_pos hd]

variable (hd : duplicateId s b (BitVec.ofNat 64 (leNat idBytes)) = false)
include hd

theorem checkIdentity_of_failed (h : (challenge s idBytes o.nonce talk).1 = false ∨ (readCounters (challenge s idBytes o.nonce talk).2).1 = none) :
    ∃ t, checkIdentity (updBay s b (fun x => { x with good := true })) b o = refuseBay (idRead s b idBytes t) b 0x0302 := by
  rw [checkIdentity_of_id hid, hd, if_neg Bool.false_ne_true]
  rcases hc : challenge s idBytes o.nonce talk with ⟨ok, t1⟩
  rw [hc] at h
  cases ok with
  | false => exact ⟨t1, rfl⟩
  | true =>
    rcases hr : readCounters t1 with ⟨c, t2⟩
    rcases h with h | h
    · cases h
    · rw [hr] at h
      obtain rfl : c = none := h
      exact ⟨t2, by simp only [hr]⟩

theorem checkIdentity_of_passed {c : List Byte × Fin 4} (hc : (challenge s idBytes o.nonce talk).1 = true)
    (hr : (readCounters (challenge s idBytes o.nonce talk).2).1 = some c) :
    ∃ t, checkIdentity (updBay s b (fun x => { x with good := true })) b o = takeIdentity (idRead s b idBytes t) b c.1 c.2 := by
  rw [checkIdentity_of_id hid, hd, if_neg Bool.false_ne_true]
  rcases hch : challenge s idBytes o.nonce talk with ⟨ok, t1⟩
  rw [hch] at hc hr
  obtain rfl : ok = true := hc
  rcases hrc : readCounters t1 with ⟨x, t2⟩
  rw [hrc] at hr
  obtain rfl : x = some c := hr
  exact ⟨t2, by simp only [hrc]⟩

end Identity

/-- A bay that has taken its identity. -/
def identifiedBay (counters : List Byte) (armed : Fin 4) (x : Bay) : Bay :=
  { x with identityDone := true, insertions := leAt counters 0 4, stateWrites := leAt counters 4 4, hours := leAt counters 8 4, armed := armed }

theorem takeIdentity_bay (s : State) (b : BayId) (counters : List Byte) (armed : Fin 4) :
    (takeIdentity s b counters armed).bays[b] = wornBay (identifiedBay counters armed s.bays[b]) := by
  unfold takeIdentity
  extract_lets s1
  rw [(logWear_keeps _ _).touch.bays_eq, noteWear_bay, (logIrq_keeps _ _ _ _ _ _ _).touch.bays_eq]
  exact congrArg wornBay (updBay_at s b _)

theorem takeIdentity_off (s : State) {b q : BayId} (counters : List Byte) (armed : Fin 4) (h : q ≠ b) :
    (takeIdentity s b counters armed).bays[q] = s.bays[q] := by
  unfold takeIdentity
  extract_lets s1
  rw [(logWear_keeps _ _).touch.bays_eq, noteWear_off _ h, (logIrq_keeps _ _ _ _ _ _ _).touch.bays_eq]
  exact updBay_off s _ h

/-- Settles O20. -/
theorem identityCheckAcceptsOrRefuses : Obligations.IdentityCheckAcceptsOrRefuses := by
  intro b o s hup hp hg
  have h := exec_bayPowerGood_of_power (o := o) hup hp hg
  refine ⟨fun hnone => ?_, fun idBytes talk hid => ⟨fun hdup => ?_, fun hfresh => ⟨fun hfail => ?_, fun c hc hr => ?_⟩⟩⟩
  · rw [checkIdentity_of_silent (talk := (seRead 0x01 [] 8 { answers := o.answers }).2) (Prod.ext hnone rfl)] at h
    refine ⟨_, h, ?_⟩
    rw [refuseBay_bay, updBay_at, updBay_at]
    exact ⟨rfl, rfl, rfl, rfl, rfl, refuseBay_reports b 0x0302 rfl rfl rfl⟩
  · rw [checkIdentity_of_duplicate hid ((duplicateId_iff _ _ _).mpr hdup)] at h
    refine ⟨_, h, ?_⟩
    rw [refuseBay_bay, idRead_bay]
    exact ⟨rfl, rfl, rfl, refuseBay_reports b 0x0303 rfl rfl rfl⟩
  · have hd : duplicateId s b (BitVec.ofNat 64 (leNat idBytes)) = false :=
      Bool.eq_false_iff.mpr fun hdup => by
        obtain ⟨q, hq, hacc, heq⟩ := (duplicateId_iff _ _ _).mp hdup
        exact hfresh q hq hacc heq
    obtain ⟨t, ht⟩ := checkIdentity_of_failed hid hd hfail
    rw [ht] at h
    refine ⟨_, h, ?_⟩
    rw [refuseBay_bay, idRead_bay]
    exact ⟨rfl, rfl, rfl, rfl, refuseBay_reports b 0x0302 rfl rfl rfl⟩
  · have hd : duplicateId s b (BitVec.ofNat 64 (leNat idBytes)) = false :=
      Bool.eq_false_iff.mpr fun hdup => by
        obtain ⟨q, hq, hacc, heq⟩ := (duplicateId_iff _ _ _).mp hdup
        exact hfresh q hq hacc heq
    obtain ⟨t, ht⟩ := checkIdentity_of_passed hid hd hc hr
    rw [ht] at h
    refine ⟨_, h, exec_touch h, fun q hq => (takeIdentity_off _ _ _ hq).trans (idRead_off s _ _ hq), ?_⟩
    rw [takeIdentity_bay, idRead_bay]
    exact ⟨rfl, rfl, rfl, rfl, rfl, rfl, rfl, rfl⟩

end Sys2Proof.Machine
end

