-- ==== Sys2Proof/Proofs/BayUse.lean ====
section
/-! The NVMe side of a bay, its wear and its life records: O21 and O22. -/

namespace Sys2Proof.Machine

-- One proof at a time: a default argument that is a tactic waits for every proof before it.
set_option Elab.async false

/-! ### The image that runs stands through an abort (R231, R312) -/

theorem setPState_active (s : State) (p : PartId) (st : PState) : (setPState s p st).parts[p].active = s.parts[p].active :=
  (setPState_rest s p st).1

theorem setCause_active (s : State) (p : PartId) (c : Nat) : (setCause s p c).parts[p].active = s.parts[p].active := by
  rw [setCause_part]

theorem updPart_active {s : State} {p : PartId} {f : Partition → Partition} (h : (f s.parts[p]).active = s.parts[p].active := by rfl) :
    (updPart s p f).parts[p].active = s.parts[p].active := by
  rw [updPart_at, h]

/-- A change that leaves the partitions leaves the image of one. -/
theorem Touch.active_eq {l : List Fld} {s t : State} (h : Touch l s t) (p : PartId) (hl : Fld.parts ∉ l := by decide) :
    t.parts[p].active = s.parts[p].active :=
  congrArg (fun v : Vector Partition 8 => v[p].active) (h.parts_eq hl)

theorem freeLanes_active (s : State) (p : PartId) : (freeLanes s p).parts[p].active = s.parts[p].active := by
  rw [freeLanes_part]

theorem dropStaged_active (s : State) (p : PartId) : (dropStaged s p).parts[p].active = s.parts[p].active := by
  unfold dropStaged
  extract_lets cs s1 s2
  exact updPart_active

theorem keepOldImage_active (s : State) (p : PartId) : (keepOldImage s p).parts[p].active = s.parts[p].active := by
  unfold keepOldImage
  extract_lets s1 old extra s2 img ports s3 s4 s5 used s6
  have h1 : s1.parts[p].active = s.parts[p].active := (freeLanes_active _ p).trans (dropStaged_active s p)
  have h2 : s2.parts[p].active = s1.parts[p].active := (endScrub_keeps s1 extra []).touch.active_eq p
  clear_value s2
  have h6 : s6.parts = s5.parts := by
    refine (Touch.foldl (m := [.spa, .spb]) (s0 := s5) _ (fun t q h => ?_) _ _ (.refl _ _)).parts_eq
    split
    · exact h
    · exact h.step (updSpn_keeps _ _ _).touch (by decide)
  have h5 : s6.parts[p].active = s2.parts[p].active := by
    rw [h6]
    rfl
  exact Eq.trans updPart_active (h5.trans (h2.trans h1))

theorem restartInput_active (s : State) (p : PartId) : (restartInput s p).parts[p].active = s.parts[p].active :=
  (setPState_active _ p _).trans updPart_active

theorem abortLoad_active (s : State) (p : PartId) (code : Nat) : (abortLoad s p code).parts[p].active = s.parts[p].active := by
  unfold abortLoad
  split
  · rfl
  · extract_lets s1 s2 s3
    have h1 : s1.parts[p].active = s.parts[p].active := (setCause_active _ p _).trans ((logPart_keeps _ _ _ _).touch.active_eq p)
    have h2 : s2.parts[p].active = s.parts[p].active := Eq.trans updPart_active ((freeLanes_active _ p).trans h1)
    split
    · exact (restartInput_active _ p).trans ((keepOldImage_active _ p).trans h1)
    · split
      · exact (keepOldImage_active _ p).trans h1
      · split
        · exact Eq.trans updPart_active h2
        · have h3 : s3.parts[p].active = s.parts[p].active := by
            unfold s3
            split
            · exact h2
            · exact ((closeAllGates_keeps _ _).touch.active_eq p).trans h2
          split
          · exact (setPState_active _ p _).trans
              (((releasePorts_keeps _ _).touch.active_eq p).trans (((releasePins_keeps _ _).touch.active_eq p).trans h3))
          · exact Eq.trans updPart_active h3

/-! ### NVME_READY and LOAD_HANDOVER -/

/-- The bay whose controller is ready. -/
def readyBay (x : Bay) : Bay := { x with nvme := .ready, setUp := [], retried := [] }

section Ready

variable {b : BayId} {o : NvmeObs} {s : State}

theorem exec_nvmeReady_of_training (hup : s.glb.phase = .up) (h : s.bays[b].nvme = .training) :
    exec (.nvmeReady b o) s = .next (useCartridge s b o) :=
  (exec_of_up hup).trans (congrArg Host.Outcome.next (if_pos h))

theorem useCartridge_of_refused (h : s.bays[b].identityDone = false ∨ s.bays[b].cause ≠ 0) : useCartridge s b o = updBay s b readyBay := by
  refine if_pos ?_
  rcases h with h | h <;> simp [-Fin.getElem_fin, h]

theorem nvmeOk_of_limits (h1 : 63 ≤ o.mqes) (h2 : o.capTo ≤ 1) (h3 : 128 ≤ o.mdtsKiB) : nvmeOk o = true := by
  rw [nvmeOk, decide_eq_true h1, decide_eq_true h2, decide_eq_true h3]
  rfl

theorem useCartridge_of_identified (hid : s.bays[b].identityDone = true) (hc : s.bays[b].cause = 0) (ho : nvmeOk o = true) :
    useCartridge s b o = if s.glb.serviceOnly then readSmart (updBay s b readyBay) b o.smartCritical o.smartUsed
      else readDirectory (readSmart (updBay s b readyBay) b o.smartCritical o.smartUsed) b o := by
  have hgo : ¬(!s.bays[b].identityDone || decide (s.bays[b].cause ≠ 0)) = true := by
    rw [hid, hc]
    decide
  have hok : ¬(!nvmeOk o) = true := by
    rw [ho]
    decide
  exact (if_neg hgo).trans (if_neg hok)

end Ready

/-- The bay with its SMART values taken. -/
def smartBay (critical used : Nat) (x : Bay) : Bay := wornBay { x with smartCritical := critical, smartUsed := used }

theorem readSmart_bay (s : State) (b : BayId) (critical used : Nat) : (readSmart s b critical used).bays[b] = smartBay critical used s.bays[b] := by
  rw [readSmart, noteWear_bay, updBay_at]
  rfl

theorem readSmart_off (s : State) {b q : BayId} (critical used : Nat) (h : q ≠ b) : (readSmart s b critical used).bays[q] = s.bays[q] := by
  rw [readSmart, noteWear_off _ h, updBay_off _ _ h]

theorem getD_readSlot (d : List Byte) (k : Fin 4) : ((List.range 4).map (readSlot d)).getD k.val {} = readSlot d k.val := by
  have hk := k.isLt
  simp [List.getD, hk]

/-- The bay whose directory has been read. -/
def directoryBay (o : NvmeObs) (x : Bay) : Bay :=
  { x with
    lifeSeq := match newestLife o.lifeRing with | some n => n + 1 | none => 0
    progTime := leAt o.directory 8 8, slots := (List.range 4).map (readSlot o.directory) }

/-- A directory that is not sound, or whose armed entry is not, refuses the cartridge. -/
theorem readDirectory_of_unsound {s : State} {b : BayId} {o : NvmeObs} (h : directoryOk o.directory = false ∨
    (readSlot o.directory s.bays[b].armed.val).present = false ∨ (readSlot o.directory s.bays[b].armed.val).crcOk = false) :
    ∃ u, readDirectory s b o = refuseBay u b 0x0304 := by
  unfold readDirectory
  extract_lets s1 slots slot s2
  have hslot : slot = readSlot o.directory s.bays[b].armed.val := getD_readSlot _ _
  split
  · exact ⟨_, rfl⟩
  next hdir =>
    have hno : ¬(slot.present && slot.crcOk) = true := by
      rw [hslot]
      rcases h with h | h | h
      · exact absurd (by rw [h]; rfl) hdir
      · rw [h, Bool.false_and]
        exact Bool.false_ne_true
      · rw [h, Bool.and_false]
        exact Bool.false_ne_true
    exact ⟨_, if_neg hno⟩

/-- A sound directory whose armed entry is present and sound makes the cartridge accepted. -/
theorem readDirectory_of_sound {s : State} {b : BayId} {o : NvmeObs} (hdir : directoryOk o.directory = true)
    (hp : (readSlot o.directory s.bays[b].armed.val).present = true) (hc : (readSlot o.directory s.bays[b].armed.val).crcOk = true)
    (hd : duplicateId s b s.bays[b].id = false) : (readDirectory s b o).bays[b] = { directoryBay o s.bays[b] with accepted := true } := by
  unfold readDirectory
  extract_lets s1 slots slot s2
  have hslot : slot = readSlot o.directory s.bays[b].armed.val := getD_readSlot _ _
  have hs2 : s2.bays[b] = directoryBay o s.bays[b] := by
    unfold s2 s1
    rw [updBay_at, updBay_at]
    rfl
  have hoff : ∀ q, q ≠ b → s2.bays[q] = s.bays[q] := by
    intro q hq
    unfold s2 s1
    rw [updBay_off _ _ hq, updBay_off _ _ hq]
  have hdup : duplicateId s2 b s2.bays[b].id = false := by
    rw [duplicateId_congr hoff, hs2]
    exact hd
  rw [if_neg (by rw [hdir]; decide), if_pos (by rw [hslot, hp, hc]; rfl), acceptBay, hdup, if_neg Bool.false_ne_true, updBay_at, hs2]

/-- Settles O21. -/
theorem cartridgesAreTakenIntoUseThenHandedOver : Obligations.CartridgesAreTakenIntoUseThenHandedOver := by
  refine ⟨fun b o s hup ht => ⟨fun hno => ?_, fun hid hc h1 h2 h3 => ⟨fun hsvc => ?_, fun hsvc hdir hp hcrc hd => ?_, fun hsvc hbad => ?_⟩⟩,
    fun b o s hup hacc hn hsvc => ⟨fun i hs hi hdig => ?_, fun hno => ?_⟩⟩
  · have h := exec_nvmeReady_of_training (o := o) hup ht
    rw [useCartridge_of_refused hno] at h
    exact ⟨_, h, (updBay_keeps _ _ _).touch, updBay_at _ _ _⟩
  · have h := exec_nvmeReady_of_training (o := o) hup ht
    rw [useCartridge_of_identified hid hc (nvmeOk_of_limits h1 h2 h3), if_pos hsvc] at h
    refine ⟨_, h, ((updBay_keeps _ _ _).touch.mono (by decide)).trans (readSmart_keeps _ _ _ _).touch, ?_⟩
    rw [readSmart_bay, updBay_at]
    exact ⟨rfl, rfl, rfl, rfl, rfl⟩
  · have h := exec_nvmeReady_of_training (o := o) hup ht
    rw [useCartridge_of_identified hid hc (nvmeOk_of_limits h1 h2 h3), if_neg (Bool.eq_false_iff.mp hsvc)] at h
    have hbay : (readSmart (updBay s b readyBay) b o.smartCritical o.smartUsed).bays[b] =
        smartBay o.smartCritical o.smartUsed (readyBay s.bays[b]) := by
      rw [readSmart_bay, updBay_at]
    refine ⟨_, h, ?_⟩
    rw [readDirectory_of_sound hdir, hbay]
    · exact ⟨rfl, hc, rfl, rfl, rfl, rfl⟩
    · rw [hbay]
      exact hp
    · rw [hbay]
      exact hcrc
    · rw [hbay, duplicateId_congr fun q hq => (readSmart_off _ _ _ hq).trans (updBay_off s readyBay hq)]
      exact hd
  · have h := exec_nvmeReady_of_training (o := o) hup ht
    rw [useCartridge_of_identified hid hc (nvmeOk_of_limits h1 h2 h3), if_neg (Bool.eq_false_iff.mp hsvc)] at h
    have hbay : (readSmart (updBay s b readyBay) b o.smartCritical o.smartUsed).bays[b] =
        smartBay o.smartCritical o.smartUsed (readyBay s.bays[b]) := by
      rw [readSmart_bay, updBay_at]
    obtain ⟨u, hu⟩ := readDirectory_of_unsound (b := b) (o := o) (s := readSmart (updBay s b readyBay) b o.smartCritical o.smartUsed)
      (by rw [hbay]; exact hbad)
    rw [hu] at h
    refine ⟨_, h, ?_⟩
    rw [refuseBay_bay]
    exact ⟨rfl, rfl⟩
  · have h : exec (.loadHandover b o) s = _ := exec_of_up hup
    rw [if_pos (by rw [hacc, hn, hsvc]; rfl)] at h
    have hruns : runsDigest s b (armedSlot s b).digest = true := by
      simp only [runsDigest, hs, hi, hdig, decide_true, Bool.and_self]
    rw [if_pos hruns] at h
    exact ⟨_, h, (updBay_keeps _ _ _).touch, updBay_at _ _ _⟩
  · have h : exec (.loadHandover b o) s = _ := exec_of_up hup
    rw [if_pos (by rw [hacc, hn, hsvc]; rfl)] at h
    have hruns : ¬runsDigest s b (armedSlot s b).digest = true := by
      unfold runsDigest
      rcases hno with hno | hno
      · rw [hno, Bool.false_and]
        exact Bool.false_ne_true
      · cases hi : s.parts[b].active with
        | none => simp
        | some i => simp [hno i hi]
    rw [if_neg hruns] at h
    exact h

/-! ### NVMe commands (R231) -/

section Commands

variable {b : BayId} {c : NvmeCmd} {s : State} (hup : s.glb.phase = .up)
include hup

theorem exec_nvmeCommandCompletion_eq {ok : Bool} : exec (.nvmeCommandCompletion ⟨b, c⟩ ok) s =
    .next (if cmdOut s b c then (if ok then completeCmd s b c else mediaFailure s b c) else s) := exec_of_up hup

theorem exec_nvmeCommandTimeout_eq : exec (.nvmeCommandTimeout ⟨b, c⟩) s = .next (if cmdOut s b c then mediaFailure s b c else s) :=
  exec_of_up hup

/-- A timeout and an error status are the same failure. -/
theorem exec_of_failure {i : Instr} (hi : i ∈ [Instr.nvmeCommandTimeout ⟨b, c⟩, .nvmeCommandCompletion ⟨b, c⟩ false]) (h : cmdOut s b c = true) :
    exec i s = .next (mediaFailure s b c) := by
  rcases List.mem_pair.mp hi with rfl | rfl
  · rw [exec_nvmeCommandTimeout_eq hup, if_pos h]
  · rw [exec_nvmeCommandCompletion_eq hup, if_pos h, if_neg Bool.false_ne_true]

end Commands

/-- The bay whose command has completed. -/
def completedBay (c : NvmeCmd) (x : Bay) : Bay :=
  { x with retried := x.retried.erase c, writes := x.writes.erase c, setUp := if x.nvme = .training then c :: x.setUp else x.setUp }

theorem completeCmd_bay (s : State) (b : BayId) (c : NvmeCmd) : (completeCmd s b c).bays[b] = completedBay c s.bays[b] :=
  (congrArg (·[b]) (updLoad_keeps _ _ _).touch.bays_eq).trans (updBay_at s b _)

theorem completeCmd_part (s : State) (b : BayId) (c : NvmeCmd) :
    (completeCmd s b c).parts[b] = { s.parts[b] with load := s.parts[b].load.map fun l => { l with got := c :: l.got } } :=
  updPart_at _ b _

/-- The bay whose cartridge is of no use any more. -/
def heldBay (x : Bay) : Bay :=
  { x with accepted := false, retried := [], writes := [], setUp := [], nvme := .held, cause := if x.cause = 0 then 5 else x.cause }

/-- Every use of the cartridge has ended; a load in flight from it is still to be aborted. -/
def mediaEnded (s : State) (b : BayId) : State := dropQueuedLoad (logIrq (updBay s b heldBay) 0x0305 b.val 0 0 false 17) b

theorem endMedia_eq (s : State) (b : BayId) : endMedia s b =
    if (mediaEnded s b).parts[b].load.isSome && (mediaEnded s b).parts[b].flow.lupin.isNone then abortLoad (mediaEnded s b) b cAbortedMedia
    else mediaEnded s b := rfl

theorem mediaEnded_bay (s : State) (b : BayId) : (mediaEnded s b).bays[b] = heldBay s.bays[b] := by
  rw [mediaEnded, (dropQueuedLoad_keeps _ _).touch.bays_eq, (logIrq_keeps _ _ _ _ _ _ _).touch.bays_eq, updBay_at]

theorem mediaEnded_part (s : State) (b : BayId) : ∃ q, (mediaEnded s b).parts[b] = { s.parts[b] with queued := q } := by
  obtain ⟨q, hq⟩ := dropQueuedLoad_part (logIrq (updBay s b heldBay) 0x0305 b.val 0 0 false 17) b
  rw [(logIrq_keeps _ _ _ _ _ _ _).touch.parts_eq] at hq
  exact ⟨q, hq⟩

theorem endMedia_bay (s : State) (b : BayId) : (endMedia s b).bays[b] = heldBay s.bays[b] := by
  rw [endMedia_eq]
  split
  · exact (congrArg (·[b]) (abortLoad_keeps _ _ _).touch.bays_eq).trans (mediaEnded_bay s b)
  · exact mediaEnded_bay s b

theorem endMedia_active (s : State) (b : BayId) : (endMedia s b).parts[b].active = s.parts[b].active := by
  obtain ⟨q, hq⟩ := mediaEnded_part s b
  have hact : (mediaEnded s b).parts[b].active = s.parts[b].active := (congrArg Partition.active hq :)
  rw [endMedia_eq]
  split
  · exact (abortLoad_active _ _ _).trans hact
  · exact hact

theorem endMedia_of_idle {s : State} {b : BayId} (h : s.parts[b].load = none) : endMedia s b = mediaEnded s b := by
  obtain ⟨q, hq⟩ := mediaEnded_part s b
  have hload : (mediaEnded s b).parts[b].load = none := (congrArg Partition.load hq :).trans h
  rw [endMedia_eq, hload]
  exact if_neg Bool.false_ne_true

theorem mediaFailure_of_first {s : State} {b : BayId} {c : NvmeCmd} (h : c ∉ s.bays[b].retried) : mediaFailure s b c =
    updBay s b (fun x => { x with retried := c :: x.retried, resets := x.resets + 1, setUp := [] }) :=
  if_neg (by simpa using h)

theorem mediaFailure_of_second {s : State} {b : BayId} {c : NvmeCmd} (h : c ∈ s.bays[b].retried) : mediaFailure s b c = endMedia s b :=
  if_pos (by simpa using h)

/-! ### Wear (R246-R251) -/

theorem exec_poweredHour_eq {b : BayId} {s : State} (hup : s.glb.phase = .up) : exec (.poweredHour b) s =
    .next (if s.bays[b].good && s.bays[b].identityDone && !refused s.bays[b] then
      updBay s b (fun x => { x with hours := satInc x.hours, seSent := x.seSent ++ [seIncrement 2] }) else s) := exec_of_up hup

theorem exec_smartReadPeriod_eq {b : BayId} {c u : Nat} {s : State} (hup : s.glb.phase = .up) : exec (.smartReadPeriod b c u) s =
    .next (if s.bays[b].good && s.bays[b].identityDone && (decide (s.bays[b].nvme = .ready) || decide (s.bays[b].nvme = .done)) then
      readSmart s b c u else s) := exec_of_up hup

theorem exec_periodicLifeRecord_eq {b : BayId} {s : State} (hup : s.glb.phase = .up) : exec (.periodicLifeRecord b) s =
    .next (if writable s.bays[b] && decide (s.bays[b].stateWrites < 100000) then noteWear (writeLife s b 0) b else s) := exec_of_up hup

theorem refused_eq_false {x : Bay} (h : x.cause = 0 ∨ 5 < x.cause) : refused x = false := by
  rw [refused, ← Bool.decide_and, decide_eq_false_iff_not]
  omega

theorem ofNat_three_bits (i j k : Bool) : (BitVec.ofNat 3 (boolNat i + 2 * boolNat j + 4 * boolNat k)).getLsbD 2 = k := by
  revert i j k
  decide

/-- Bit 2 of the wear warning stands for the SMART values. -/
theorem wearOf_smart (x : Bay) : (wearOf x).getLsbD 2 = decide (x.smartCritical ≠ 0 ∨ 90 ≤ x.smartUsed) := by
  rw [wearOf, ofNat_three_bits, Bool.decide_or]

/-- The life record of a bay. -/
def lifeRec (s : State) (b : BayId) (kind : Nat) : LifeRec :=
  { seq := s.bays[b].lifeSeq, kind := kind, powerOn := s.glb.powerOn, time := now s, windows := s.parts[b].regs.win,
    verdicts := s.parts[b].regs.vrd, rejects := s.parts[b].regs.rej, insertions := s.bays[b].insertions, hours := s.bays[b].hours,
    digest := (match s.parts[b].active with | some i => i.digest | none => zeros 32) }

/-- The bay after a life record is written. -/
def recordedBay (serial : Nat) (b : BayId) (r : LifeRec) (y : Bay) : Bay :=
  { y with
    stateWrites := satInc y.stateWrites, seSent := y.seSent ++ [seIncrement 1], lifeSeq := y.lifeSeq + 1, lifeLast := some r
    writes := y.writes ++ lifeCmds serial b r }

theorem writeLife_bay (s : State) (b : BayId) (kind : Nat) :
    (writeLife s b kind).bays[b] = recordedBay s.glb.serial.toNat b (lifeRec s b kind) s.bays[b] := updBay_at s b _

/-- Settles O22. -/
theorem mediaFailuresEndUseAndWearIsRecorded : Obligations.MediaFailuresEndUseAndWearIsRecorded := by
  refine ⟨fun b c s hup => ⟨fun hno ok => ?_, fun hout => ⟨?_, fun i hi => ⟨fun hfirst => ?_, fun hsecond => ?_⟩⟩⟩,
    fun b s hup => ⟨fun hgood hid hc => ?_, fun c u hgood hid hn => ?_, fun hacc hpow hfew => ?_, fun hmany => ?_⟩⟩
  · have hno' : ¬cmdOut s b c = true := Bool.eq_false_iff.mp hno
    rw [exec_nvmeCommandCompletion_eq hup, exec_nvmeCommandTimeout_eq hup, if_neg hno', if_neg hno']
    exact ⟨rfl, rfl⟩
  · have h := exec_nvmeCommandCompletion_eq (b := b) (c := c) (ok := true) hup
    rw [if_pos hout, if_pos rfl] at h
    refine ⟨_, h, (completeCmd_keeps _ _ _).touch, ?_⟩
    rw [completeCmd_bay, completeCmd_part]
    exact ⟨rfl, rfl, fun ht => if_pos ht, fun l hl => by rw [hl]; rfl⟩
  · have h := exec_of_failure hup hi hout
    rw [mediaFailure_of_first hfirst] at h
    exact ⟨_, h, (updBay_keeps _ _ _).touch, updBay_at _ _ _⟩
  · have h := exec_of_failure hup hi hout
    rw [mediaFailure_of_second hsecond] at h
    refine ⟨_, h, ?_⟩
    rw [endMedia_bay]
    refine ⟨rfl, rfl, rfl, endMedia_active s b, fun hidle => ?_⟩
    obtain ⟨q, hq⟩ := mediaEnded_part s b
    rw [endMedia_of_idle hidle]
    exact ⟨logIrq_reports (s := s) (u := updBay s b heldBay) rfl rfl rfl _ _ _ _ _ _, (congrArg Partition.state hq :)⟩
  · have h := exec_poweredHour_eq (b := b) hup
    rw [if_pos (by rw [hgood, hid, refused_eq_false hc]; rfl)] at h
    exact ⟨_, h, exec_touch h, updBay_at _ _ _⟩
  · have h := exec_smartReadPeriod_eq (b := b) (c := c) (u := u) hup
    have hready : (decide (s.bays[b].nvme = .ready) || decide (s.bays[b].nvme = .done)) = true := by
      rw [← Bool.decide_or, decide_eq_true_iff]
      exact hn
    rw [if_pos (by rw [hgood, hid, hready]; rfl)] at h
    refine ⟨_, h, exec_touch h, ?_⟩
    rw [readSmart_bay]
    refine ⟨rfl, rfl, rfl, ?_⟩
    rw [smartBay, wornBay, BitVec.getLsbD_or, wearOf_smart]
  · have h := exec_periodicLifeRecord_eq (b := b) hup
    rw [if_pos (by rw [writable, hacc, hpow, decide_eq_true hfew]; rfl)] at h
    refine ⟨_, lifeRec s b 0, h, exec_touch h, ?_⟩
    rw [noteWear_bay, writeLife_bay]
    refine ⟨?_, rfl, rfl, rfl, rfl⟩
    show satInc s.bays[b].stateWrites = s.bays[b].stateWrites + 1
    rw [satInc, sat32]
    omega
  · have hno : ¬(writable s.bays[b] && decide (s.bays[b].stateWrites < 100000)) = true := by
      rw [decide_eq_false (Nat.not_lt.mpr hmany), Bool.and_false]
      exact Bool.false_ne_true
    rw [exec_periodicLifeRecord_eq hup, if_neg hno]

end Sys2Proof.Machine
end

