-- ==== Sys2Proof/Proofs/CameraLinks.lean ====
section
/-! The connections of a camera port, and its links: O47. -/

namespace Sys2Proof.Machine

-- One proof at a time: a default argument that is a tactic waits for every proof before it.
set_option Elab.async false

/-! ### The connections of a camera port -/

theorem updImg_at (s : State) (c : ImgId) (f : ImgConn → ImgConn) : (updImg s c f).imgs[c] = f s.imgs[c] := updImg_self s c f

theorem updImg_off (s : State) {c j : ImgId} (f : ImgConn → ImgConn) (h : j ≠ c) : (updImg s c f).imgs[j] = s.imgs[j] :=
  updImg_other s c f j h

/-- A connection after its camera port has been changed. -/
theorem updCam_conn (s : State) (m k : ImgId) (f : ImgConn → ImgConn) : (updCam s m f).imgs[k] =
    if s.imgs[k].owner = s.imgs[m].owner && s.imgs[k].owner.isSome && s.imgs[k].master = m then f s.imgs[k] else s.imgs[k] :=
  Vector.getElem_map _ _

theorem updCam_at {s : State} {m k : ImgId} {p : PartId} (f : ImgConn → ImgConn) (hm : s.imgs[m].owner = some p)
    (hk : s.imgs[k].owner = some p) (hmaster : s.imgs[k].master = m) : (updCam s m f).imgs[k] = f s.imgs[k] := by
  rw [updCam_conn, hm, hk, hmaster]
  exact if_pos (by simp)

theorem updCam_off {s : State} {m k : ImgId} (f : ImgConn → ImgConn) (h : s.imgs[k].master ≠ m) :
    (updCam s m f).imgs[k] = s.imgs[k] := by
  rw [updCam_conn]
  exact if_neg (by simp [-Fin.getElem_fin, h])

theorem logPlain_imgs (s : State) (code i : Nat) : (logPlain s code i).imgs = s.imgs := (logEvent_touch s code i 0 0 false).imgs_eq

/-- A record of the log depends on the log, the POWER_ON count and the time alone. -/
theorem logEvent_flt_congr {s u : State} (hf : u.flt = s.flt) (hg : u.glb = s.glb) (ht : u.tbs = s.tbs) (code i d0 d1 : Nat) (e : Bool) :
    (logEvent u code i d0 d1 e).flt = (logEvent s code i d0 d1 e).flt := by
  simp only [logEvent_flt, hf, hg, ht]

/-- The ways in which a command finds its camera port. -/
theorem camPort_of {s : State} {m : ImgId} {p : PartId} {y : ImgPortRec} (howner : s.imgs[m].owner = some p)
    (hmaster : s.imgs[m].master = m) (hcfg : camCfg s.imgs[m] = some y) : camPort s m = some (p, y) := by
  unfold camPort
  rw [howner, hcfg]
  exact if_pos hmaster

/-! ### Links -/

section CamDown

variable {s : State} {c m : ImgId} {p : PartId} (hm : masterOf s c = m)

/-- A connection that loses lock, its port not yet told. -/
def unlocked (s : State) (c : ImgId) : State := updImg s c fun x => { x with locked := false }

theorem unlocked_imgs (s : State) (c : ImgId) : (unlocked s c).imgs = s.imgs.set c { s.imgs[c] with locked := false } := rfl

/-- A port that is told that its link is down. -/
def portDown (s : State) (m : ImgId) : State := updCam s m fun x => { x with linkDown := true, triggering := false, waiting := [] }

/-- A connection but for its lock. -/
theorem unlocked_conn (s : State) (c k : ImgId) : ∃ b, (unlocked s c).imgs[k] = { s.imgs[k] with locked := b } := by
  by_cases h : k = c
  · exact ⟨false, h ▸ updImg_at s c _⟩
  · exact ⟨s.imgs[k].locked, updImg_off s _ h⟩

include hm

theorem camDown_of_down (h : s.imgs[m].linkDown = true) : camDown s c = unlocked s c := by
  subst hm
  exact if_pos (by rw [h, Bool.or_true])

theorem camDown_of_up (hc : s.imgs[c].owner = some p) (hready : s.imgs[m].ready = true) (h : s.imgs[m].linkDown = false) :
    camDown s c = logPlain (portDown (unlocked s c) m) 0x0406 m.val := by
  subst hm
  exact if_neg (by rw [hc, hready, h]; exact Bool.false_ne_true)

end CamDown

/-- The port's settings once it has reconnected (R339). -/
def reconnect (x : ImgPortRec) (t : Nat) (y : ImgConn) : ImgConn :=
  { y with linkDown := false, locked := true, triggering := decide (x.encoder < 4), lastHeartbeat := t }

/-- Does a connection of the port carry DC? -/
def dcOnPort (s : State) (m : ImgId) : Bool :=
  allImgs.any fun k => s.imgs[k].dcPresent && decide (s.imgs[k].master = m) && decide (s.imgs[k].owner = s.imgs[m].owner)

theorem mem_allImgs (k : ImgId) : k ∈ allImgs := by
  revert k
  decide

theorem dcOnPort_iff (s : State) (m : ImgId) :
    dcOnPort s m = true ↔ ∃ k : ImgId, s.imgs[k].dcPresent = true ∧ s.imgs[k].master = m ∧ s.imgs[k].owner = s.imgs[m].owner := by
  simp [-Fin.getElem_fin, dcOnPort, mem_allImgs, and_assoc]

/-- What a reconnection that was tried does to a port in use. -/
def reconnected (s : State) (m : ImgId) (p : PartId) (x : ImgPortRec) (rs : List (List Word)) : State :=
  if s.imgs[m].linkDown && !dcOnPort s m then
    updCam (updImg s m fun y => { y with ctrl := (bootCamera (s.parts[p].active.getD {}) x rs).1 }) m (reconnect x (now s))
  else s

theorem exec_reconnectionAttempt_eq (c : ImgId) (reads : Option (List (List Word))) {s : State} (hup : s.glb.phase = .up) :
    exec (.reconnectionAttempt c reads) s = .next (match camPort s (masterOf s c), reads with
      | some (p, x), some rs => reconnected s (masterOf s c) p x rs
      | _, _ => s) := by
  refine exec_of_up hup (Eq.trans (exec_reconnectionAttempt c reads s) ?_)
  unfold execReconnectionAttempt
  dsimp only
  cases camPort s (masterOf s c) <;> cases reads <;> rfl

theorem reconnected_conn {s : State} {m : ImgId} {p q : PartId} (x : ImgPortRec) (rs : List (List Word)) (hmaster : s.imgs[m].master = m)
    (howner : s.imgs[m].owner = some q) (hdown : s.imgs[m].linkDown = true) (hdc : dcOnPort s m = false) :
    (reconnected s m p x rs).imgs[m] =
      reconnect x (now s) { s.imgs[m] with ctrl := (bootCamera (s.parts[p].active.getD {}) x rs).1 } := by
  unfold reconnected
  rw [if_pos (by rw [hdown, hdc]; rfl)]
  have hself := updImg_at s m fun y => { y with ctrl := (bootCamera (s.parts[p].active.getD {}) x rs).1 }
  rw [updCam_at (p := q) _ (by rw [hself]; exact howner) (by rw [hself]; exact howner) (by rw [hself]; exact hmaster), hself]

theorem reconnected_of_not {s : State} {m : ImgId} (p : PartId) (x : ImgPortRec) (rs : List (List Word))
    (h : dcOnPort s m = true ∨ s.imgs[m].linkDown = false) : reconnected s m p x rs = s :=
  if_neg (by rcases h with h | h <;> simp only [h, Bool.not_true, Bool.and_false, Bool.false_and, Bool.false_eq_true, not_false_eq_true])

/-- DC has been seen on a connection, and logged. -/
def dcSeen (s : State) (c : ImgId) : State := logPlain (updImg s c fun x => { x with dcPresent := true }) 0x0408 c.val

theorem dcSeen_at (s : State) (c : ImgId) : (dcSeen s c).imgs[c] = { s.imgs[c] with dcPresent := true } := by
  rw [dcSeen, logPlain_imgs, updImg_at]

/-- A connection but for its DC. -/
theorem dcSeen_conn (s : State) (c k : ImgId) : ∃ b, (dcSeen s c).imgs[k] = { s.imgs[k] with dcPresent := b } := by
  by_cases h : k = c
  · exact ⟨true, h ▸ dcSeen_at s c⟩
  · refine ⟨s.imgs[k].dcPresent, ?_⟩
    rw [dcSeen, logPlain_imgs, updImg_off s _ h]

/-- The state after an event of the camera, short of its record. -/
def eventTaken (s : State) (m : ImgId) (n : Nat) : State :=
  updImg s m fun y => { y with acksSent := y.acksSent + 1, evtSecond := now s / 1000000000, evtCount := min 8 (n + 1) }

theorem exec_imgEvent_eq {c m : ImgId} {p : PartId} {s : State} {n : Nat} (hup : s.glb.phase = .up) (hm : masterOf s c = m)
    (hc : s.imgs[c].owner = some p)
    (hn : n = if s.imgs[m].evtSecond = now s / 1000000000 then s.imgs[m].evtCount else 0) (id : Nat) (data : List Byte) :
    exec (.imgEvent c id data) s = .next (if n < 8 then logEvent (eventTaken s m n) 0x0407 m.val id (leNat (data.take 8)) false
      else updImg (eventTaken s m n) m fun y => { y with evtSuppressed := satInc y.evtSuppressed }) := by
  subst hm hn
  exact exec_of_up hup ((exec_imgEvent c id data s).trans (congrArg (whenUp s) (if_neg (by rw [hc]; exact Bool.false_ne_true))))

/-- Settles O47. -/
theorem cameraLinksGoDownAndComeBack : Obligations.CameraLinksGoDownAndComeBack := by
  intro c m p x s hup hm hx hmaster howner hc
  subst hx
  have hm' : masterOf s c = m := hm.symm
  have hsome : ¬s.imgs[c].owner.isNone = true := by
    rw [hc]
    exact Bool.false_ne_true
  have hlink : exec (.linkDown c) s = .next (camDown s c) := exec_of_up hup
  refine ⟨fun hready hlinked => ?_, fun hdown => ?_, fun y reads hcfg hdown hdc => ?_, ?_, fun reads hno => ?_, fun hnodc hready hdown => ?_, ?_,
    ?_, ?_, fun id data n hn => ?_⟩
  · obtain ⟨b, hb⟩ := unlocked_conn s c m
    have hself : (unlocked s c).imgs[c] = { s.imgs[c] with locked := false } := updImg_at s c _
    have hmo : (unlocked s c).imgs[m].owner = some p := by
      rw [hb]
      exact howner
    have hport := updCam_at (k := m) (fun x : ImgConn => { x with linkDown := true, triggering := false, waiting := [] }) hmo hmo
      (by rw [hb]; exact hmaster)
    have hconn := updCam_at (k := c) (fun x : ImgConn => { x with linkDown := true, triggering := false, waiting := [] }) hmo
      (by rw [hself]; exact hc) (by rw [hself]; exact hm')
    refine ⟨_, hlink, (camDown_keeps s c).touch, ?_⟩
    rw [camDown_of_up hm' hc hready hlinked]
    rw [logPlain_imgs, portDown, hconn, hport, hself, hb]
    exact ⟨rfl, rfl, rfl, rfl, rfl, logEvent_flt_congr (s := s) (u := portDown (unlocked s c) m) rfl rfl rfl _ _ _ _ _⟩
  · rw [hlink, camDown_of_down hm' hdown]
    exact ⟨_, rfl, (updImg_keeps _ _ _).touch, rfl⟩
  · have h := exec_reconnectionAttempt_eq c (some reads) hup
    rw [hm', camPort_of howner hmaster hcfg] at h
    have hnodc : dcOnPort s m = false := by
      rw [Bool.eq_false_iff, ne_eq, dcOnPort_iff]
      rintro ⟨k, hk, hkm, hko⟩
      rw [hdc k hkm (hko.trans howner)] at hk
      cases hk
    refine ⟨_, h, exec_touch h, ?_⟩
    rw [reconnected_conn y reads hmaster howner hdown hnodc]
    exact ⟨rfl, rfl, rfl, rfl, rfl⟩
  · rw [exec_reconnectionAttempt_eq c none hup]
    cases camPort s (masterOf s c) <;> rfl
  · rw [exec_reconnectionAttempt_eq c reads hup, hm']
    have hstay : dcOnPort s m = true ∨ s.imgs[m].linkDown = false :=
      hno.imp_left fun h => (dcOnPort_iff s m).mpr ⟨c, h, hm.symm, hc.trans howner.symm⟩
    split
    · rw [reconnected_of_not _ _ _ hstay]
    · rfl
  · have hne : ¬true = s.imgs[c].dcPresent := by
      rw [hnodc]
      exact Bool.noConfusion
    have h : exec (.dcPresent c true) s = .next (camDown (dcSeen s c) c) :=
      exec_of_up hup ((exec_dcPresent c true s).trans (congrArg (whenUp s) ((if_neg hne).trans rfl)))
    obtain ⟨b, hb⟩ := dcSeen_conn s c m
    obtain ⟨b', hb'⟩ := unlocked_conn (dcSeen s c) c c
    obtain ⟨b'', hb''⟩ := unlocked_conn (dcSeen s c) c m
    have hm'' : masterOf (dcSeen s c) c = m := by
      unfold masterOf
      rw [dcSeen_at]
      exact hm'
    refine ⟨_, h, exec_touch h, ?_⟩
    rw [camDown_of_down hm'' (by rw [hb]; exact hdown), hb', hb'', dcSeen_at, hb]
    exact ⟨rfl, hdown, logEvent_flt_congr (s := s) (u := updImg s c fun x => { x with dcPresent := true }) rfl rfl rfl _ _ _ _ _⟩
  · exact exec_of_up hup ((exec_dcPresent c _ s).trans (congrArg (whenUp s) (if_pos rfl)))
  · have h : exec (.heartbeat c) s = .next (updImg s c fun x => { x with heartbeats := x.heartbeats + 1, lastHeartbeat := now s }) :=
      exec_of_up hup ((exec_heartbeat c s).trans (congrArg (whenUp s) (if_neg hsome)))
    exact ⟨_, h, exec_touch h, rfl⟩
  · have h : exec (.unsupportedPacket c) s = .next (updImg s c fun x => { x with ignored := satInc x.ignored }) :=
      exec_of_up hup ((exec_unsupportedPacket c s).trans (congrArg (whenUp s) (if_neg hsome)))
    exact ⟨_, h, exec_touch h, rfl⟩
  · have h := exec_imgEvent_eq hup hm' hc hn id data
    have hself : (eventTaken s m n).imgs[m] = { s.imgs[m] with
        acksSent := s.imgs[m].acksSent + 1, evtSecond := now s / 1000000000, evtCount := min 8 (n + 1) } := updImg_at s m _
    by_cases hlt : n < 8
    · rw [if_pos hlt] at h
      have himgs := (logEvent_touch (eventTaken s m n) 0x0407 m.val id (leNat (data.take 8)) false).imgs_eq
      refine ⟨_, h, exec_touch h, ?_⟩
      rw [if_pos hlt, if_pos hlt, himgs, hself]
      exact ⟨rfl, logEvent_flt_congr (s := s) (u := eventTaken s m n) rfl rfl rfl _ _ _ _ _, rfl⟩
    · rw [if_neg hlt] at h
      refine ⟨_, h, exec_touch h, ?_⟩
      rw [if_neg hlt, if_neg hlt, updImg_at, hself]
      exact ⟨rfl, rfl, Nat.min_comm _ _⟩

end Sys2Proof.Machine
end

