-- ==== Sys2Proof/Proofs/CameraLines.lean ====
section
/-! A camera port's bring-up and headers (O45) and its lines (O46). -/

namespace Sys2Proof.Machine

-- One proof at a time: a default argument that is a tactic waits for every proof before it.
set_option Elab.async false

/-! ### Bring-up (R323, R324) -/

/-- The port after its script has run, and with its last step reached. -/
def scriptRun (s : State) (m : ImgId) (boot : List CtrlPacket × Bool) : State := updImg s m fun c => { c with ctrl := boot.1 }

def broughtUp (s : State) (m : ImgId) (y : ImgPortRec) (b : Option (Fin 4)) (boot : List CtrlPacket × Bool) : State :=
  updCam (scriptRun s m boot) m (finishBringup b y (now s))

/-- What the last step of a bring-up sets in every port. -/
def upConn (b : Option (Fin 4)) (t : Nat) (c : ImgConn) : ImgConn :=
  { c with
    ready := true, shadowReady := true, locked := true, bringup := 0, bayer := b, linkDown := false, mismatch := false
    headerSeen := false, lastHeartbeat := t }

section FinishBringup

variable {c : ImgConn} (b : Option (Fin 4)) (y : ImgPortRec) (t : Nat)

theorem finishBringup_of_delivering (h : c.delivering = true) : finishBringup b y t c = upConn b t c := if_pos h

theorem finishBringup_of_idle (h : c.delivering = false) : finishBringup b y t c =
    { upConn b t c with triggering := decide (y.encoder < 4), waiting := [], due := [], held := [], overdue := 0 } :=
  if_neg (by rw [h]; exact Bool.false_ne_true)

theorem finishBringup_up (c : ImgConn) : (finishBringup b y t c).ready = true ∧ (finishBringup b y t c).shadowReady = true ∧
    (finishBringup b y t c).bringup = 0 ∧ (finishBringup b y t c).bayer = b ∧ (finishBringup b y t c).linkDown = false ∧
    (finishBringup b y t c).mismatch = false ∧ (finishBringup b y t c).ctrl = c.ctrl := by
  cases h : c.delivering with
  | true =>
    rw [finishBringup_of_delivering b y t h]
    exact ⟨rfl, rfl, rfl, rfl, rfl, rfl, rfl⟩
  | false =>
    rw [finishBringup_of_idle b y t h]
    exact ⟨rfl, rfl, rfl, rfl, rfl, rfl, rfl⟩

end FinishBringup

theorem broughtUp_at {s : State} {m : ImgId} {p : PartId} (y : ImgPortRec) (b : Option (Fin 4)) (boot : List CtrlPacket × Bool)
    (hmaster : s.imgs[m].master = m) (howner : s.imgs[m].owner = some p) :
    (broughtUp s m y b boot).imgs[m] = finishBringup b y (now s) { s.imgs[m] with ctrl := boot.1 } := by
  have hself : (scriptRun s m boot).imgs[m] = { s.imgs[m] with ctrl := boot.1 } := updImg_at s m _
  rw [broughtUp, updCam_at (p := p) _ (by rw [hself]; exact howner) (by rw [hself]; exact howner) (by rw [hself]; exact hmaster), hself]

theorem broughtUp_off {s : State} {m k : ImgId} (y : ImgPortRec) (b : Option (Fin 4)) (boot : List CtrlPacket × Bool)
    (hmaster : s.imgs[m].master = m) (hk : s.imgs[k].master ≠ m) : (broughtUp s m y b boot).imgs[k] = s.imgs[k] := by
  have hoff : (scriptRun s m boot).imgs[k] = s.imgs[k] := updImg_off s _ (fun h => hk (h ▸ hmaster))
  rw [broughtUp, updCam_off _ (by rw [hoff]; exact hk), hoff]

section Bringup

variable {s : State} {c m : ImgId} {p : PartId} {y : ImgPortRec} {b : Option (Fin 4)} {reads : List (List Word)}
  {boot : List CtrlPacket × Bool} (hup : s.glb.phase = .up) (hm : masterOf s c = m) (howner : s.imgs[m].owner = some p)
include hup hm howner

theorem exec_cxpBringupComplete_of_run (hshadow : s.imgs[m].shadow = some y) (hready : s.imgs[m].shadowReady = false)
    (hboot : boot = bootCamera (((s.parts[p].load).map (·.image)).getD {}) y reads) :
    exec (.cxpBringupComplete c ⟨b, reads⟩) s = .next (if boot.2 then advanceLoad (broughtUp s m y b boot) p
      else failBringup (scriptRun s m boot) p m .scriptCompare) := by
  subst hm hboot
  refine exec_of_up hup ((exec_cxpBringupComplete c _ s).trans (congrArg (whenUp s) ?_))
  dsimp only
  rw [howner, hshadow]
  exact if_neg (by rw [hready]; exact Bool.false_ne_true)

theorem exec_cxpBringupComplete_of_idle (h : s.imgs[m].shadow = none ∨ s.imgs[m].shadowReady = true) :
    exec (.cxpBringupComplete c ⟨b, reads⟩) s = .next s := by
  subst hm
  refine exec_of_up hup ((exec_cxpBringupComplete c _ s).trans (congrArg (whenUp s) ?_))
  dsimp only
  rw [howner]
  cases hs : s.imgs[masterOf s c].shadow with
  | none => rfl
  | some y => exact if_pos (h.resolve_left (by rw [hs]; exact Option.some_ne_none y))

theorem exec_cxpBringupFailed_eq (cause : BringupCause) : exec (.cxpBringupFailed c cause) s = .next
    (if s.imgs[m].shadow.isSome && !s.imgs[m].shadowReady && s.parts[p].load.isSome then failBringup s p m cause else s) := by
  subst hm
  refine exec_of_up hup ((exec_cxpBringupFailed c _ s).trans (congrArg (whenUp s) ?_))
  rw [howner]

end Bringup

/-- A cold load whose bring-up fails ends in FAULT_HELD. -/
theorem failBringup_stands {s : State} {p : PartId} {m : ImgId} {cause : BringupCause} {l : Load} (hl : s.parts[p].load = some l)
    (hstaged : l.staged = false) (hf : isFault s.parts[p].state = false) :
    standsInFault (failBringup s p m cause) p .faultHeld cGroupFailed := by
  unfold failBringup
  extract_lets k s1
  have hparts : s1.parts = s.parts := (logEvent_touch _ _ _ _ _ _).parts_eq
  rw [hl]
  dsimp only
  unfold failGroup
  rw [hparts, hl]
  dsimp only
  rw [hstaged, if_neg Bool.false_ne_true]
  exact faultEntry_stands _ _ _ _ _ (by rw [hparts]; exact hf)

/-! ### Headers (R324, R327) -/

/-- The port keeps what a header says. -/
def headerKept (y : ImgPortRec) (f w : Nat) (b : Option (Fin 4)) (c : ImgConn) : ImgConn :=
  { c with
    lineWidth := w, headerSeen := true
    bayer := if headerOk y f w && (y.pixelFormat = 4 || y.pixelFormat = 5 || y.pixelFormat = 6) && b.isSome then b else c.bayer }

/-- Are the port's next settings, and not those in force, the ones that a header is held against? -/
def portComing (x : ImgConn) : Bool := x.shadowReady && decide (x.shadow ≠ x.cfg)

theorem headerOk_iff (y : ImgPortRec) (f w : Nat) : headerOk y f w = true ↔ f = y.pixelFormat ∧ y.roiX + y.roiW ≤ w := by
  simp [headerOk]

/-- The state after a header that is held against `y`. -/
def headerTaken (s : State) (p : PartId) (m : ImgId) (y : ImgPortRec) (f w : Nat) (b : Option (Fin 4)) : State :=
  let s1 := updCam s m (headerKept y f w b)
  if portComing s.imgs[m] || !s.imgs[m].delivering then
    if headerOk y f w || s.imgs[m].headerSeen || s.parts[p].load.isNone then s1 else failBringup s1 p m .formatMismatch
  else if headerOk y f w then updCam s1 m (fun c => { c with mismatch := false })
  else if s.imgs[m].mismatch then s1
  else logPlain (updCam s1 m (fun c => { c with mismatch := true })) 0x0405 m.val

section Headers

variable {s : State} {c m : ImgId} {p : PartId} {y : ImgPortRec} (f w : Nat) (b : Option (Fin 4))

theorem exec_cxpImageHeader_eq (hup : s.glb.phase = .up) (hm : masterOf s c = m) (howner : s.imgs[m].owner = some p)
    (hy : (if portComing s.imgs[m] then s.imgs[m].shadow else camCfg s.imgs[m]) = some y) :
    exec (.cxpImageHeader c f w b) s = .next (headerTaken s p m y f w b) := by
  subst hm
  refine exec_of_up hup ((exec_cxpImageHeader c f w b s).trans (congrArg (whenUp s) ?_))
  dsimp only
  unfold portComing at hy
  rw [howner]
  dsimp only
  rw [hy]
  rfl

theorem headerTaken_of_fit (hcoming : portComing s.imgs[m] = false) (hdel : s.imgs[m].delivering = true) (hok : headerOk y f w = true) :
    headerTaken s p m y f w b = updCam (updCam s m (headerKept y f w b)) m (fun c => { c with mismatch := false }) := by
  rw [headerTaken, hcoming, hdel, hok]
  rfl

theorem headerTaken_of_misfit (hcoming : portComing s.imgs[m] = false) (hdel : s.imgs[m].delivering = true)
    (hbad : headerOk y f w = false) : headerTaken s p m y f w b =
      if s.imgs[m].mismatch then updCam s m (headerKept y f w b)
      else logPlain (updCam (updCam s m (headerKept y f w b)) m (fun c => { c with mismatch := true })) 0x0405 m.val := by
  rw [headerTaken, hcoming, hdel, hbad]
  rfl

theorem headerTaken_of_first (hdel : s.imgs[m].delivering = false) (hok : headerOk y f w = true) :
    headerTaken s p m y f w b = updCam s m (headerKept y f w b) := by
  rw [headerTaken, hdel, hok, Bool.not_false, Bool.or_true]
  rfl

variable (hmaster : s.imgs[m].master = m) (howner : s.imgs[m].owner = some p)
include hmaster howner

theorem headerKept_at : (updCam s m (headerKept y f w b)).imgs[m] = headerKept y f w b s.imgs[m] := updCam_at _ howner howner hmaster

/-- The port once a header of an episode has been judged. -/
theorem judged_at (g : ImgConn → ImgConn) :
    (updCam (updCam s m (headerKept y f w b)) m g).imgs[m] = g (headerKept y f w b s.imgs[m]) := by
  have h := headerKept_at f w b hmaster howner (y := y)
  rw [updCam_at (p := p) _ (by rw [h]; exact howner) (by rw [h]; exact howner) (by rw [h]; exact hmaster), h]

end Headers

/-- Settles O45. -/
theorem cameraPortsComeUpAndCheckHeaders : Obligations.CameraPortsComeUpAndCheckHeaders := by
  intro c m p x y s hup hm hx hmaster howner
  subst hx
  have hm' : masterOf s c = m := hm.symm
  have hcoming (hcfg : s.imgs[m].cfg = some y) (hnew : s.imgs[m].shadowReady = true → s.imgs[m].shadow = some y) :
      portComing s.imgs[m] = false := by
    cases hr : s.imgs[m].shadowReady with
    | false => exact congrArg (· && _) hr
    | true => rw [portComing, hr, hnew hr, hcfg, decide_eq_false (not_not_intro rfl), Bool.and_false]
  refine ⟨fun b reads boot hshadow hready hboot => ⟨fun hpass => ?_, fun l hfail hl hstaged hf => ?_⟩,
    fun b reads hidle => exec_cxpBringupComplete_of_idle hup hm' howner hidle, fun cause l hshadow hready hl hstaged hf => ?_,
    fun cause hidle => ?_, fun f w b hdel hcfg hnew => ⟨fun hfmt hwide => ?_, fun hbad => ?_⟩,
    fun f w b hdel hready hshadow hfmt hwide => ?_⟩
  · have h := exec_cxpBringupComplete_of_run hup hm' howner (b := b) hshadow hready hboot
    rw [if_pos hpass] at h
    have himgs : (advanceLoad (broughtUp s m y b boot) p).imgs = (broughtUp s m y b boot).imgs := (advanceLoad_keeps _ _).touch.imgs_eq
    have hport := broughtUp_at y b boot hmaster howner
    refine ⟨_, h, ?_, ?_⟩
    · exact ((updImg_keeps _ _ _).touch.mono (by decide)).step (updCam_keeps _ _ _).touch (by decide) |>.step
        (advanceLoad_keeps _ _).touch (by decide)
    · rw [himgs, hport]
      obtain ⟨h1, h2, h3, h4, h5, h6, h7⟩ := finishBringup_up b y (now s) { s.imgs[m] with ctrl := boot.1 }
      refine ⟨h1, h2, h3, h4, h5, h6, h7, fun hdel => ?_, fun hdel => ?_, fun k hk => broughtUp_off y b boot hmaster hk⟩
      · rw [finishBringup_of_idle (c := { s.imgs[m] with ctrl := boot.1 }) b y (now s) hdel]
        exact ⟨rfl, rfl, rfl, rfl⟩
      · rw [finishBringup_of_delivering (c := { s.imgs[m] with ctrl := boot.1 }) b y (now s) hdel]
        exact ⟨rfl, rfl, rfl, rfl⟩
  · have h := exec_cxpBringupComplete_of_run hup hm' howner (b := b) hshadow hready hboot
    rw [if_neg (by rw [hfail]; exact Bool.false_ne_true)] at h
    exact ⟨_, h, failBringup_stands (s := scriptRun s m boot) hl hstaged hf⟩
  · have h := exec_cxpBringupFailed_eq hup hm' howner cause
    rw [if_pos (by rw [hshadow, hready, hl]; rfl)] at h
    exact ⟨_, h, exec_touch h, failBringup_stands hl hstaged hf,
      fun q hq => ((failBringup_keeps s p m cause).others q (List.not_mem_cons_of_ne_of_not_mem hq List.not_mem_nil)).1⟩
  · rw [exec_cxpBringupFailed_eq hup hm' howner cause, if_neg]
    rcases hidle with h | h | h <;> simp [-Fin.getElem_fin, h]
  · have h := exec_cxpImageHeader_eq (y := y) f w b hup hm' howner (by rw [hcoming hcfg hnew, camCfg, hcfg]; rfl)
    rw [headerTaken_of_fit f w b (hcoming hcfg hnew) hdel ((headerOk_iff y f w).mpr ⟨hfmt, hwide⟩)] at h
    refine ⟨_, h, ((updCam_keeps _ _ _).touch.trans (updCam_keeps _ _ _).touch), ?_⟩
    rw [judged_at f w b hmaster howner]
    exact ⟨rfl, rfl⟩
  · have hno : headerOk y f w = false := by
      rw [Bool.eq_false_iff, ne_eq, headerOk_iff, not_and_or, Nat.not_le]
      exact hbad
    have hkept : ∀ x : ImgConn, (headerKept y f w b x).bayer = x.bayer := fun x => if_neg (by rw [hno]; exact Bool.false_ne_true)
    have h := exec_cxpImageHeader_eq (y := y) f w b hup hm' howner (by rw [hcoming hcfg hnew, camCfg, hcfg]; rfl)
    rw [headerTaken_of_misfit f w b (hcoming hcfg hnew) hdel hno] at h
    cases hmis : s.imgs[m].mismatch with
    | true =>
      rw [hmis, if_pos rfl] at h
      refine ⟨_, h, (updCam_keeps _ _ _).touch.mono (by decide), ?_⟩
      rw [headerKept_at f w b hmaster howner]
      exact ⟨hmis, hkept _, rfl⟩
    | false =>
      rw [hmis, if_neg Bool.false_ne_true] at h
      refine ⟨_, h, ?_, ?_⟩
      · exact (((updCam_keeps _ _ _).touch.trans (updCam_keeps _ _ _).touch).mono (by decide)).step (logEvent_touch _ _ _ _ _ _) (by decide)
      · rw [logPlain_imgs, judged_at f w b hmaster howner]
        exact ⟨rfl, hkept _, logEvent_flt_congr (s := s)
          (u := updCam (updCam s m (headerKept y f w b)) m fun c => { c with mismatch := true }) rfl rfl rfl _ _ _ _ _⟩
  · have hy : (if portComing s.imgs[m] then s.imgs[m].shadow else camCfg s.imgs[m]) = some y := by
      cases hcom : portComing s.imgs[m] with
      | true => exact hshadow
      | false =>
        have hcfg : s.imgs[m].cfg = some y := by
          rw [portComing, hready, Bool.true_and, decide_eq_false_iff_not, ne_eq, not_not] at hcom
          exact hcom.symm.trans hshadow
        rw [if_neg Bool.false_ne_true, camCfg, hcfg]
    have h := exec_cxpImageHeader_eq f w b hup hm' howner hy
    rw [headerTaken_of_first f w b hdel ((headerOk_iff y f w).mpr ⟨hfmt, hwide⟩)] at h
    refine ⟨_, h, (updCam_keeps _ _ _).touch, ?_⟩
    rw [headerKept_at f w b hmaster howner]
    exact ⟨rfl, rfl, rfl⟩

/-! ### Lines (R329, R330) -/

/-- What the delivery of lines leaves of a connection: its triggers and its counts of lines. -/
def lineCounts (c : ImgConn) : Nat × List Nat × Nat × Nat × Nat := (c.ownIndex, c.waiting, c.extra, c.late, c.crc)

/-- Every connection keeps its triggers and its counts of lines. -/
structure LinesKept (s t : State) : Prop where
  conn (k : ImgId) : lineCounts t.imgs[k] = lineCounts s.imgs[k]

theorem LinesKept.refl (s : State) : LinesKept s s := ⟨fun _ => rfl⟩

theorem LinesKept.trans {s t u : State} (h : LinesKept s t) (h' : LinesKept t u) : LinesKept s u :=
  ⟨fun k => (h'.conn k).trans (h.conn k)⟩

theorem LinesKept.of_imgs {s t : State} (h : t.imgs = s.imgs) : LinesKept s t := ⟨fun k => by rw [h]⟩

theorem linesKept_updImg (s : State) (m : ImgId) {f : ImgConn → ImgConn} (hf : ∀ c, lineCounts (f c) = lineCounts c := by intro; rfl) :
    LinesKept s (updImg s m f) := by
  refine ⟨fun k => ?_⟩
  by_cases h : k = m
  · subst h
    rw [updImg_at, hf]
  · rw [updImg_off s f h]

theorem linesKept_updCam (s : State) (m : ImgId) {f : ImgConn → ImgConn} (hf : ∀ c, lineCounts (f c) = lineCounts c := by intro; rfl) :
    LinesKept s (updCam s m f) := by
  refine ⟨fun k => ?_⟩
  rw [updCam_conn]
  split
  · exact hf _
  · rfl

theorem LinesKept.foldl {α : Type} (f : State → α → State) (hf : ∀ s a, LinesKept s (f s a)) :
    ∀ (l : List α) (s : State), LinesKept s (l.foldl f s)
  | [], s => .refl s
  | a :: l, s => (hf s a).trans (LinesKept.foldl f hf l (f s a))

theorem linesKept_foldl_updImg {f : ImgId × ImgPortRec → ImgConn → ImgConn} (hf : ∀ m c, lineCounts (f m c) = lineCounts c)
    (ms : List (ImgId × ImgPortRec)) (s : State) : LinesKept s (ms.foldl (fun s m => updImg s m.1 (f m)) s) :=
  LinesKept.foldl (fun s m => updImg s m.1 (f m)) (fun s m => linesKept_updImg s m.1 (hf m)) ms s

theorem linesKept_foldl_updCam {f : ImgId × ImgPortRec → ImgConn → ImgConn} (hf : ∀ m c, lineCounts (f m c) = lineCounts c)
    (ms : List (ImgId × ImgPortRec)) (s : State) : LinesKept s (ms.foldl (fun s m => updCam s m.1 (f m)) s) :=
  LinesKept.foldl (fun s m => updCam s m.1 (f m)) (fun s m => linesKept_updCam s m.1 (hf m)) ms s

theorem linesKept_openWindows (s : State) (p : PartId) (ms : List (ImgId × ImgPortRec)) (low anchor t : Nat) (full : Bool) :
    LinesKept s (openWindows s p ms low anchor t full) := by
  unfold openWindows
  extract_lets cols bands s1
  have h1 : LinesKept s s1 := .of_imgs (notAccepted_keeps _ _ _ _ _ _).touch.imgs_eq
  split
  · exact .of_imgs (acceptWindows_keeps _ _ _).touch.imgs_eq
  · split
    · exact h1.trans (linesKept_foldl_updImg (by intros; rfl) _ _)
    · exact h1

theorem linesKept_deliverLine (s : State) (p : PartId) (ms : List (ImgId × ImgPortRec)) (t : Nat) (gap : Bool) (elems : ImgId → List Nat) :
    LinesKept s (deliverLine s p ms t gap elems) := by
  unfold deliverLine
  split
  case h_2 => exact .refl s
  case h_1 m _ i _ =>
    split
    · exact .refl s
    · extract_lets low anchor full piece s1 s2 fs
      have h1 : LinesKept s s1 := linesKept_foldl_updCam (by intros; rfl) _ _
      have h2 : LinesKept s1 s2 := linesKept_openWindows _ _ _ _ _ _ _
      have h3 (ms : List (ImgId × ImgPortRec)) : LinesKept s2 (sendDescriptors (closeWindows s2 p ms low t gap) p) :=
        .of_imgs ((sendDescriptors_keeps _ _).touch.imgs_eq.trans (closeWindows_keeps _ _ _ _ _ _).touch.imgs_eq)
      exact ((h1.trans h2).trans (h3 _)).trans (.of_imgs (enterGateway_keeps _ _ _ _).touch.imgs_eq)

theorem linesKept_releaseLines : ∀ (n : Nat) (s : State) (p : PartId) (ms : List (ImgId × ImgPortRec)), LinesKept s (releaseLines n s p ms)
  | 0, s, _, _ => .refl s
  | n + 1, s, p, ms => by
    unfold releaseLines
    split
    · exact .refl s
    · split
      · extract_lets gap elems s1
        have h1 : LinesKept s s1 := linesKept_foldl_updImg (by intros; rfl) _ _
        exact (h1.trans (linesKept_deliverLine _ _ _ _ _ _)).trans (linesKept_releaseLines n _ p ms)
      · exact .refl s

theorem linesKept_forceGap (s : State) (ms : List (ImgId × ImgPortRec)) (m : ImgId) (t : Nat) : LinesKept s (forceGap s ms m t) := by
  unfold forceGap
  refine linesKept_foldl_updImg (fun k c => ?_) _ _
  dsimp only
  split <;> rfl

theorem linesKept_takeLine (s : State) (p : PartId) (ms : List (ImgId × ImgPortRec)) (m : ImgId) (x : ImgPortRec) (t : Nat) (px : List Nat) :
    LinesKept s (takeLine s p ms m x t px) := by
  unfold takeLine
  extract_lets c
  split
  · exact linesKept_forceGap _ _ _ _
  · exact linesKept_updImg _ _

theorem linesKept_releaseStream (s : State) (p : PartId) (ms : List (ImgId × ImgPortRec)) : LinesKept s (releaseStream s p ms) :=
  linesKept_releaseLines _ _ _ _

/-- A line of a port without an encoder moves the port's own index alone. -/
theorem freeLine_counts (s : State) (p : PartId) (m : ImgId) (x : ImgPortRec) (px : List Nat) (ok : Bool) :
    LinesKept (updImg s m fun c => { c with ownIndex := (s.imgs[m].ownIndex + 1) % 2 ^ 64, due := c.due ++ [s.imgs[m].ownIndex] })
      (freeLine s p m x px ok) := by
  unfold freeLine
  extract_lets t ms s1
  refine .trans ?_ (linesKept_releaseStream _ _ _)
  cases ok with
  | true => exact linesKept_takeLine _ _ _ _ _ _ _
  | false => exact linesKept_forceGap _ _ _ _

/-- A connection counts an error of a stream packet's CRC. -/
def countCrc (x : ImgConn) : ImgConn := { x with crc := satInc x.crc }

/-- The state after a stream packet's CRC has been counted. -/
def crcCounted (s : State) (c : ImgId) (ok : Bool) : State := if ok then s else updImg s c countCrc

theorem crcCounted_ok (s : State) (c : ImgId) : crcCounted s c true = s := rfl

theorem crcCounted_bad_at (s : State) (c : ImgId) :
    (crcCounted s c false).imgs[c] = countCrc s.imgs[c] := updImg_at s c countCrc

section Lines

variable {s : State} {c m : ImgId} {p : PartId} {y : ImgPortRec} {px : List Nat} {ok : Bool} {st : LineStart}

theorem exec_cxpLineReceived_eq (hup : s.glb.phase = .up) (hm : masterOf s c = m) (hc : s.imgs[c].owner = some p)
    (hport : camPort s m = some (p, y)) : exec (.cxpLineReceived c px ok st) s = .next (if s.imgs[m].linkDown then s
      else if y.encoder = 255 then freeLine (crcCounted s c ok) p m y px ok else pairedLine (crcCounted s c ok) p m y px ok st) := by
  subst hm
  refine exec_of_up hup ((exec_cxpLineReceived c px ok st s).trans (congrArg (whenUp s) ?_))
  rw [hc, hport]
  rfl

theorem pairedLine_of_unasked : pairedLine s p m y px true .unasked = updImg s m fun c => { c with extra := satInc c.extra } := rfl

theorem pairedLine_of_overtaken (h : 0 < s.imgs[m].overdue) :
    pairedLine s p m y px true .overtaken = updImg s m fun c => { c with late := satInc c.late, overdue := c.overdue - 1 } :=
  if_pos ⟨rfl, h⟩

/-- A line that a trigger waits for takes the oldest of them. -/
def triggerTaken (s : State) (m : ImgId) (ks : List Nat) : State := updImg s m fun c => { c with waiting := ks }

theorem pairedLine_of_awaited {k : Nat} {ks : List Nat} (h : s.imgs[m].waiting = k :: ks) : pairedLine s p m y px ok .awaited =
    if !ok || !s.imgs[m].due.contains k || (heldLine s.imgs[m] k).isSome then triggerTaken s m ks
    else releaseStream (takeLine (triggerTaken s m ks) p (camMembers s p y) m y k px) p (camMembers s p y) := by
  unfold pairedLine
  rw [if_neg (fun h => LineStart.noConfusion h.1), if_neg (fun h => LineStart.noConfusion h), h]
  rfl

theorem pairedLine_of_bad {k : Nat} {ks : List Nat} (h : s.imgs[m].waiting = k :: ks) :
    pairedLine s p m y px false .awaited = triggerTaken s m ks := by
  rw [pairedLine_of_awaited h]
  rfl

theorem pairedLine_awaited_counts {k : Nat} {ks : List Nat} (h : s.imgs[m].waiting = k :: ks) :
    LinesKept (triggerTaken s m ks) (pairedLine s p m y px ok .awaited) := by
  rw [pairedLine_of_awaited h]
  split
  · exact .refl _
  · exact (linesKept_takeLine _ _ _ _ _ _ _).trans (linesKept_releaseStream _ _ _)

end Lines

theorem crcCounted_at (s : State) (c : ImgId) (ok : Bool) :
    (crcCounted s c ok).imgs[c].crc = if ok then s.imgs[c].crc else min (s.imgs[c].crc + 1) 4294967295 := by
  cases ok with
  | true => rfl
  | false => rw [crcCounted_bad_at, countCrc, satInc, sat32, if_neg Bool.false_ne_true]

/-- A connection but for its CRC count. -/
theorem crcCounted_conn (s : State) (c k : ImgId) (ok : Bool) : ∃ n, (crcCounted s c ok).imgs[k] = { s.imgs[k] with crc := n } := by
  cases ok with
  | true => exact ⟨s.imgs[k].crc, rfl⟩
  | false =>
    by_cases h : k = c
    · subst h
      exact ⟨satInc s.imgs[k].crc, crcCounted_bad_at s k⟩
    · exact ⟨s.imgs[k].crc, updImg_off s countCrc h⟩

/-- A connection keeps its CRC count as the port's own index moves on. -/
theorem indexMoved_crc (s : State) (m c : ImgId) (n : Nat) (l : List Nat → List Nat) :
    (updImg s m fun c => { c with ownIndex := n, due := l c.due }).imgs[c].crc = s.imgs[c].crc := by
  by_cases h : c = m
  · subst h
    rw [updImg_at]
  · rw [updImg_off s _ h]

/-- Settles O46: what a line does to its port before any line is released, which every release keeps. -/
theorem cameraLinesTakeTheirTriggers : Obligations.CameraLinesTakeTheirTriggers := by
  intro c m p x y px s hup hm hx hmaster howner hc hcfg
  subst hx
  have hline (ok : Bool) (st : LineStart) := exec_cxpLineReceived_eq (px := px) (ok := ok) (st := st) hup hm.symm hc (camPort_of howner hmaster hcfg)
  refine ⟨fun ok st hdown => by rw [hline, if_pos hdown], fun hlinked => ⟨fun hfree ok st => ?_, fun henc => ⟨?_, fun hover => ?_,
    fun k ks hwait => ?_, fun k ks hcm hwait => ?_⟩⟩⟩
  all_goals have hlinked : ¬s.imgs[m].linkDown = true := by rw [hlinked]; exact Bool.false_ne_true
  · have h := hline ok st
    rw [if_neg hlinked, if_pos hfree] at h
    have hkept := freeLine_counts (crcCounted s c ok) p m y px ok
    have hindex := congrArg (·.1) (hkept.conn m)
    have hcrc := congrArg (·.2.2.2.2) (hkept.conn c)
    simp only [lineCounts] at hindex hcrc
    obtain ⟨n, hn⟩ := crcCounted_conn s c m ok
    rw [updImg_at, hn] at hindex
    rw [indexMoved_crc (crcCounted s c ok) m c _ (· ++ [(crcCounted s c ok).imgs[m].ownIndex]), crcCounted_at] at hcrc
    exact ⟨_, h, exec_touch h, hindex, hcrc⟩
  · have h := hline true .unasked
    rw [if_neg hlinked, if_neg henc, crcCounted_ok, pairedLine_of_unasked] at h
    exact ⟨_, h, rfl, (updImg_keeps _ _ _).touch⟩
  · have h := hline true .overtaken
    rw [if_neg hlinked, if_neg henc, crcCounted_ok, pairedLine_of_overtaken hover] at h
    exact ⟨_, h, rfl, (updImg_keeps _ _ _).touch⟩
  · have h := hline true .awaited
    rw [if_neg hlinked, if_neg henc, crcCounted_ok] at h
    have hkept := (pairedLine_awaited_counts (p := p) (y := y) (px := px) (ok := true) hwait).conn m
    have hself : (triggerTaken s m ks).imgs[m] = { s.imgs[m] with waiting := ks } := updImg_at s m _
    rw [hself] at hkept
    simp only [lineCounts, Prod.mk.injEq] at hkept
    obtain ⟨-, hw, he, hl, -⟩ := hkept
    exact ⟨_, h, exec_touch h, hw, he, hl⟩
  · subst hcm
    have h := hline false .awaited
    have hself := crcCounted_bad_at s c
    rw [if_neg hlinked, if_neg henc, pairedLine_of_bad (by rw [hself]; exact hwait)] at h
    refine ⟨_, h, (updImg_keeps _ _ _).touch.trans (updImg_keeps _ _ _).touch, ?_⟩
    calc (triggerTaken (crcCounted s c false) c ks).imgs
        = (s.imgs.set c (countCrc s.imgs[c])).set c { (crcCounted s c false).imgs[c] with waiting := ks } := rfl
      _ = s.imgs.set c { s.imgs[c] with waiting := ks, crc := min (s.imgs[c].crc + 1) 4294967295 } := by
        rw [hself, Vector.set_set]
        rfl

end Sys2Proof.Machine
end

