-- ==== Sys2Proof/Proofs/SoundPorts.lean ====
section
/-! Sound ports: clocks, starts and stops (O50), and the checks of their outputs (O52). -/

namespace Sys2Proof.Machine

-- One proof at a time: a default argument that is a tactic waits for every proof before it.
set_option Elab.async false

theorem updSnd_at (s : State) (c : SndId) (f : Snd → Snd) : (updSnd s c f).snds[c] = f s.snds[c] := updSnd_self s c f

theorem updSnd_off (s : State) {c d : SndId} (f : Snd → Snd) (h : d ≠ c) : (updSnd s c f).snds[d] = s.snds[d] := updSnd_other s c f d h

theorem updSnds_at (s : State) (f : Snd → Snd) (c : SndId) : (updSnds s f).snds[c] = f s.snds[c] := Vector.getElem_map _ _

/-- A change of a sound port that leaves it as it is changes nothing. -/
theorem updSnd_eq_self {s : State} {c : SndId} {f : Snd → Snd} (h : f s.snds[c] = s.snds[c]) : updSnd s c f = s := by
  have hset : s.snds.set c.val (f s.snds[c]) c.isLt = s.snds := by
    rw [h]
    exact Vector.set_getElem_self c.isLt
  exact congrArg (fun v => ({ s with snds := v } : State)) hset

/-! ### Clocks and locks (R349-R351) -/

/-- A port that has lost its clock. -/
def lostClock (y : Snd) : Snd := { loseClock y with clockLost := true, rate := 0 }

theorem loseClock_phase (y : Snd) : (loseClock y).phase = if y.phase = .waitT0 then .silent else y.phase := by
  cases h : y.phase <;> simp [loseClock, h]

/-- A port whose ASRC has locked. -/
def lockAsrc (y : Snd) : Snd :=
  { y with
    asrcLocked := true
    phase := if y.silentLeft = 0 then (match y.phase with | .silent => .waitT0 | .relock => .running | q => q) else y.phase }

theorem lockAsrc_phase (y : Snd) : (lockAsrc y).phase =
    if y.silentLeft = 0 ∧ y.phase = .silent then .waitT0 else if y.silentLeft = 0 ∧ y.phase = .relock then .running else y.phase := by
  by_cases hleft : y.silentLeft = 0 <;> cases h : y.phase <;> simp [lockAsrc, hleft, h]

theorem started_iff (y : Snd) : started y = true ↔ y.phase = .silent ∨ y.phase = .waitT0 ∨ y.phase = .running ∨ y.phase = .relock := by
  simp [started, or_assoc]

section Clocks

variable {c : SndId} {x : SndPortRec} {s : State} (hup : s.glb.phase = .up)
include hup

theorem exec_clockLost_eq (hcfg : s.snds[c].cfg = some x) : exec (.clockLost c) s =
    .next (if x.master || s.snds[c].clockLost || !started s.snds[c] then s else logPlain (updSnd s c lostClock) 0x0501 c.val) := by
  refine exec_of_up hup ((exec_clockLost c s).trans (congrArg (whenUp s) ?_))
  rw [hcfg]
  rfl

theorem exec_clockReturn_eq (hcfg : s.snds[c].cfg = some x) : exec (.clockReturn c) s =
    .next (if (s.snds[c].clockLost || s.snds[c].rateError) && started s.snds[c] then updSnd s c (returnClock x (now s)) else s) := by
  refine exec_of_up hup ((exec_clockReturn c s).trans (congrArg (whenUp s) ?_))
  rw [hcfg]

/-- The port's disagreement with its clock port. -/
def mismatched (s : State) (c : SndId) (b : Bool) : State := updSnd s c fun y => { y with mismatch := b }

theorem exec_clockMismatch_eq (b : Bool) (hcfg : s.snds[c].cfg = some x) : exec (.clockMismatch c b) s =
    .next (if s.snds[c].mismatch = b then s else if b then logPlain (mismatched s c b) 0x0503 c.val else mismatched s c b) := by
  refine exec_of_up hup ((exec_clockMismatch c b s).trans (congrArg (whenUp s) ?_))
  dsimp only
  rw [hcfg, Option.isNone_some, Bool.false_or]
  simp only [decide_eq_true_eq]
  rfl

theorem exec_asrcLock_eq : exec (.asrcLock c) s =
    .next (if s.snds[c].clockOk && started s.snds[c] then updSnd s c lockAsrc else s) := exec_of_up hup

end Clocks

/-- The clock's return leaves what the port has delivered and played. -/
theorem returnClock_keeps (x : SndPortRec) (t : Nat) (y : Snd) :
    (returnClock x t y).clockOk = true ∧ (returnClock x t y).clockLost = false ∧ (returnClock x t y).rateError = false ∧
      (returnClock x t y).silentLeft = x.silent ∧ (returnClock x t y).frame = y.frame ∧ (returnClock x t y).playFrame = y.playFrame := by
  unfold returnClock
  extract_lets y1
  split <;> exact ⟨rfl, rfl, rfl, rfl, rfl, rfl⟩

theorem returnClock_phase (x : SndPortRec) (t : Nat) (y : Snd) :
    (returnClock x t y).phase = if y.phase = .running then .relock else y.phase := by
  unfold returnClock
  by_cases h : y.phase = .running ∨ y.phase = .relock
  · rw [if_pos h]
    rcases h with h | h <;> rw [h] <;> rfl
  · rw [if_neg h, if_neg (fun hr => h (.inl hr))]

/-! ### Starts and stops (R348, R364) -/

theorem nextT0_bounds (t : Nat) : nextT0 t % 4096 = 0 ∧ t < nextT0 t ∧ nextT0 t ≤ t + 4096 := by
  unfold nextT0
  omega

/-- Does the port start only with its partition's other such ports? -/
def commonlyStarted (y : Snd) : Bool := match y.cfg with | some x => x.commonStart | none => false

theorem commonlyStarted_of_cfg {y : Snd} {x : SndPortRec} (h : y.cfg = some x) : commonlyStarted y = x.commonStart := by
  rw [commonlyStarted, h]

/-- Is such a port of the partition still in its silent start? -/
def commonWaits (s : State) (p : PartId) : Bool :=
  s.snds.toList.any fun y => decide (y.owner = some p) && decide (y.phase = .silent) && commonlyStarted y

theorem commonWaits_iff (s : State) (p : PartId) : commonWaits s p = true ↔
    ∃ d : SndId, s.snds[d].owner = some p ∧ s.snds[d].phase = .silent ∧ commonlyStarted s.snds[d] = true := by
  simp only [commonWaits, List.any_eq_true, Bool.and_eq_true, decide_eq_true_eq, Vector.mem_toList_iff, Vector.mem_iff_getElem]
  constructor
  · rintro ⟨y, ⟨k, hk, rfl⟩, ⟨howner, hphase⟩, hflag⟩
    exact ⟨⟨k, hk⟩, howner, hphase, hflag⟩
  · rintro ⟨d, howner, hphase, hflag⟩
    exact ⟨_, ⟨d.val, d.isLt, rfl⟩, ⟨howner, hphase⟩, hflag⟩

/-- A port at the partition's start. -/
def startPort (s : State) (p : PartId) (y : Snd) : Snd :=
  if y.owner = some p && decide (y.phase = .waitT0) && !(commonWaits s p && commonlyStarted y) then startAt (nextT0 (now s)) y else y

theorem exec_soundStartT0_eq {s : State} (hup : s.glb.phase = .up) (p : PartId) :
    exec (.soundStartT0 p) s = .next (updSnds s (startPort s p)) := exec_of_up hup

theorem startPort_of_ready {s : State} {p : PartId} {y : Snd} (howner : y.owner = some p) (hphase : y.phase = .waitT0)
    (h : (commonWaits s p && commonlyStarted y) = false) : startPort s p y = startAt (nextT0 (now s)) y :=
  if_pos (by rw [howner, hphase, h]; simp)

theorem startPort_of_common {s : State} {p : PartId} {y : Snd} (h : (commonWaits s p && commonlyStarted y) = true) :
    startPort s p y = y := if_neg (by rw [h]; simp)

/-- A port whose clocks stop. -/
def stopPort (y : Snd) : Snd :=
  if y.phase = .stopping then
    { y with
      phase := .idle, cfg := none, driving := false, clockOk := false, asrcLocked := false, clockLost := false, rateError := false
      mismatch := false, rate := 0, silentLeft := 0, playing := [], dout := [], doutBefore := [] }
  else y

theorem exec_soundStop_eq {s : State} (hup : s.glb.phase = .up) (c : SndId) : exec (.soundStop c) s = .next (updSnd s c stopPort) :=
  exec_of_up hup

/-- Settles O50. -/
theorem soundPortsStartRelockAndStop : Obligations.SoundPortsStartRelockAndStop := by
  intro c x y s hup hy hcfg
  subst hy
  have hlost := exec_clockLost_eq hup hcfg
  have hret := exec_clockReturn_eq hup hcfg
  have hlock := exec_asrcLock_eq (c := c) hup
  refine ⟨fun hno => ?_, fun hslave hok hst => ?_, fun hepisode hst => ?_, fun hl hr => ?_, ?_, ?_, fun hok hst => ?_, fun hno => ?_,
    fun p howner hphase hcommon => ?_, fun p howner hphase hflag hwait => ?_, fun hphase => ?_, fun hphase => ?_⟩
  · rw [hlost, if_pos]
    rcases hno with h | h | h <;> simp [-Fin.getElem_fin, h]
  · rw [hslave, hok, hst, if_neg (by decide)] at hlost
    refine ⟨_, hlost, ((updSnd_keeps _ _ _).touch.mono (by decide)).step (logEvent_touch _ _ _ _ _ _) (by decide),
      logEvent_flt_congr (s := s) (u := updSnd s c lostClock) rfl rfl rfl _ _ _ _ _, ?_⟩
    refine ((logEvent_touch _ _ _ _ _ _).snds_eq).trans (congrArg (s.snds.set c.val · c.isLt) ?_)
    rw [← loseClock_phase]
    rfl
  · have hc : ((s.snds[c].clockLost || s.snds[c].rateError) && started s.snds[c]) = true := by
      rw [hst, Bool.and_true, Bool.or_eq_true]
      exact hepisode
    rw [if_pos hc] at hret
    obtain ⟨h1, h2, h3, h4, h5, h6⟩ := returnClock_keeps x (now s) s.snds[c]
    refine ⟨_, hret, (updSnd_keeps _ _ _).touch, ?_⟩
    rw [updSnd_at]
    exact ⟨h1, h2, h3, h4, returnClock_phase _ _ _, h5, h6, fun d hd => updSnd_off s _ hd⟩
  · rw [hret, hl, hr]
    rfl
  · rw [exec_clockMismatch_eq hup _ hcfg, if_pos rfl]
  · have h := exec_clockMismatch_eq hup (!s.snds[c].mismatch) hcfg
    rw [if_neg (by simp)] at h
    refine ⟨_, h, exec_touch h, ?_⟩
    cases hm : s.snds[c].mismatch with
    | true => exact ⟨rfl, rfl⟩
    | false =>
      exact ⟨(logEvent_touch _ _ _ _ _ _).snds_eq, logEvent_flt_congr (s := s) (u := mismatched s c true) rfl rfl rfl _ _ _ _ _⟩
  · rw [hok, hst, if_pos (by rfl)] at hlock
    refine ⟨_, hlock, (updSnd_keeps _ _ _).touch, congrArg (s.snds.set c.val · c.isLt) ?_⟩
    rw [← lockAsrc_phase]
    rfl
  · rw [hlock, if_neg]
    rcases hno with h | h <;> simp [-Fin.getElem_fin, h]
  · have hno : (commonWaits s p && commonlyStarted s.snds[c]) = false := by
      rw [commonlyStarted_of_cfg hcfg, Bool.eq_false_iff, ne_eq, Bool.and_eq_true, commonWaits_iff]
      rintro ⟨⟨d, hdo, hdp, hdf⟩, hflag⟩
      cases hdc : s.snds[d].cfg with
      | none => simp [-Fin.getElem_fin, commonlyStarted, hdc] at hdf
      | some z => exact hcommon hflag d z hdo hdc ((commonlyStarted_of_cfg hdc).symm.trans hdf) hdp
    obtain ⟨h1, h2, h3⟩ := nextT0_bounds (now s)
    refine ⟨_, exec_soundStartT0_eq hup p, (updSnds_keeps _ _).touch, ?_⟩
    rw [updSnds_at, startPort_of_ready howner hphase hno]
    exact ⟨rfl, h1, h2, h3, rfl, rfl, rfl⟩
  · obtain ⟨d, z, hdo, hdc, hdf, hdp⟩ := hwait
    have hyes : (commonWaits s p && commonlyStarted s.snds[c]) = true := by
      rw [commonlyStarted_of_cfg hcfg, hflag, Bool.and_true, commonWaits_iff]
      exact ⟨d, hdo, hdp, (commonlyStarted_of_cfg hdc).trans hdf⟩
    refine ⟨_, exec_soundStartT0_eq hup p, (updSnds_keeps _ _).touch, ?_⟩
    rw [updSnds_at, startPort_of_common hyes]
  · refine ⟨_, exec_soundStop_eq hup c, (updSnd_keeps _ _ _).touch, ?_⟩
    rw [updSnd_at, stopPort, if_pos hphase]
    exact ⟨rfl, rfl, rfl, rfl, fun d hd => updSnd_off s _ hd⟩
  · rw [exec_soundStop_eq hup c, updSnd_eq_self (f := stopPort) (if_neg hphase)]

/-! ### The check of the outputs (R350, R363, R367, R368) -/

/-- The check of the frame that is due. -/
def checkPort (s : State) (x : SndPortRec) (ch k : Nat) (y : Snd) : Snd :=
  if ch = 0 then y
  else if y.outSamples.any fun z => z.1 = k then checkPresent x.ramp ch s.freeCount k y
  else checkMissing x.ramp ch s.freeCount k y

/-- The state after the check of a running port with its clock. -/
def outputChecked (s : State) (c : SndId) (i : Image) (x : SndPortRec) : State :=
  { updSnd s c (fun _ => advancePlay i x s.snds[c].playFrame (checkPort s x (fabricSlots i x).length s.snds[c].playFrame s.snds[c])) with
    freeCount := s.freeCount + 1 }

theorem outputChecked_at (s : State) (c : SndId) (i : Image) (x : SndPortRec) : (outputChecked s c i x).snds[c] =
    advancePlay i x s.snds[c].playFrame (checkPort s x (fabricSlots i x).length s.snds[c].playFrame s.snds[c]) :=
  updSnd_at s c fun _ => advancePlay i x s.snds[c].playFrame (checkPort s x (fabricSlots i x).length s.snds[c].playFrame s.snds[c])

theorem outputChecked_off {s : State} {c d : SndId} (i : Image) (x : SndPortRec) (h : d ≠ c) :
    (outputChecked s c i x).snds[d] = s.snds[d] :=
  updSnd_off s (fun _ => advancePlay i x s.snds[c].playFrame (checkPort s x (fabricSlots i x).length s.snds[c].playFrame s.snds[c])) h

section OutputCheck

variable {c : SndId} {p : PartId} {x : SndPortRec} {s : State} (hup : s.glb.phase = .up) (hcfg : s.snds[c].cfg = some x)
  (howner : s.snds[c].owner = some p) (hphase : s.snds[c].phase = .running)
include hcfg howner

theorem sndPort_of : sndPort s c = some (p, x) := by
  rw [sndPort, howner, hcfg]

include hup hphase

theorem exec_outputPlayCheck_clocked (hok : s.snds[c].clockOk = true) :
    exec (.outputPlayCheck c) s = .next (outputChecked s c (activeImage s p) x) := by
  refine exec_of_up hup ((exec_outputPlayCheck c s).trans (congrArg (whenUp s) ?_))
  rw [sndPort_of hcfg howner]
  dsimp only
  rw [hphase, hok, if_neg (by decide), if_pos rfl, outputChecked, checkPort]
  by_cases hch : (fabricSlots (activeImage s p) x).length = 0
  · simp only [if_pos hch]
    rfl
  · simp only [if_neg hch]
    split <;> rfl

theorem exec_outputPlayCheck_unclocked (hok : s.snds[c].clockOk = false) : exec (.outputPlayCheck c) s =
    .next (updSnd s c (skipPlay x (fabricSlots (activeImage s p) x).length s.snds[c].playFrame)) := by
  refine exec_of_up hup ((exec_outputPlayCheck c s).trans (congrArg (whenUp s) ?_))
  rw [sndPort_of hcfg howner]
  dsimp only
  rw [hphase, hok]
  rfl

end OutputCheck

theorem advancePlay_counts (i : Image) (x : SndPortRec) (k : Nat) (y : Snd) :
    (advancePlay i x k y).playFrame = k + 1 ∧ (k < x.ramp → (advancePlay i x k y).playing = []) ∧
      (∀ z ∈ (advancePlay i x k y).outSamples, k < z.1 + x.ramp) ∧ (advancePlay i x k y).underrun = y.underrun ∧
      (advancePlay i x k y).underruns = y.underruns ∧ (advancePlay i x k y).unbounded = y.unbounded :=
  ⟨rfl, fun h => if_pos h, fun _ hz => of_decide_eq_true (List.of_mem_filter (p := fun z : Nat × List (BitVec 24) => decide (k < z.1 + x.ramp)) hz),
    rfl, rfl, rfl⟩

/-- A sample that is present outside an underrun and a ramp counts nothing. -/
theorem checkPresent_of_clean {ramp ch free k : Nat} {y : Snd} (hu : y.underrun = false) (hr : y.rampLeft = 0) :
    checkPresent ramp ch free k y = { y with cleanRun := min ramp (y.cleanRun + 1) } := by
  have hclear : ¬y.underrun = true := by
    rw [hu]
    exact Bool.false_ne_true
  have hflat : ¬0 < y.rampLeft := Nat.not_lt.mpr hr.le
  rw [checkPresent, if_neg hclear]
  dsimp only
  rw [if_neg hflat]

theorem checkMissing_counts (ramp ch free k : Nat) (y : Snd) : (checkMissing ramp ch free k y).underrun = true ∧
    (checkMissing ramp ch free k y).underruns = (if y.underrun then y.underruns else min 4294967295 (y.underruns + 1)) ∧
    (checkMissing ramp ch free k y).unbounded =
      min 4294967295 ((if y.underrun then y.unbounded else min 4294967295 (y.unbounded + ch * y.cleanRun)) + ch) := by
  unfold checkMissing
  cases hu : y.underrun with
  | true => exact ⟨hu, rfl, Nat.min_comm _ _⟩
  | false => exact ⟨rfl, Nat.min_comm _ _, by simp [gainFrames, sat32, Nat.min_comm]⟩

/-- Settles O52: the check counts, and the advance plays and forgets. -/
theorem outputsCheckEachFrameOnce : Obligations.OutputsCheckEachFrameOnce := by
  intro c p x y ch s hup hy hcfg howner hch hphase
  subst hy hch
  refine ⟨fun hok => ?_, fun hok => ?_⟩
  · have h := exec_outputPlayCheck_clocked hup hcfg howner hphase hok
    obtain ⟨h1, h2, h3, h4, h5, h6⟩ := advancePlay_counts (activeImage s p) x s.snds[c].playFrame
      (checkPort s x (fabricSlots (activeImage s p) x).length s.snds[c].playFrame s.snds[c])
    refine ⟨_, h, exec_touch h, ?_⟩
    rw [outputChecked_at]
    refine ⟨h1, fun d hd => outputChecked_off _ _ hd, h2, h3, fun hch hpresent hu hr => ?_, fun hch hmissing => ?_⟩
    · rw [h4, h5, h6, checkPort, if_neg hch, if_pos hpresent, checkPresent_of_clean hu hr]
      exact ⟨hu, rfl, rfl⟩
    · rw [h4, h5, h6, checkPort, if_neg hch, if_neg (by rw [hmissing]; exact Bool.false_ne_true)]
      exact checkMissing_counts _ _ _ _ _
  · have h := exec_outputPlayCheck_unclocked hup hcfg howner hphase hok
    refine ⟨_, h, (updSnd_keeps _ _ _).touch, ?_⟩
    rw [updSnd_at]
    exact ⟨rfl, rfl, rfl, Nat.min_comm _ _⟩

end Sys2Proof.Machine
end

