-- ==== Sys2Proof/Proofs/SoundFrames.lean ====
section
/-! Frames and blocks of a sound port: O51. -/

namespace Sys2Proof.Machine

-- One proof at a time: a default argument that is a tactic waits for every proof before it.
set_option Elab.async false

/-! ### Frames that join a buffer (R351-R360) -/

/-- Every sound port stands but for its count of windows not accepted. -/
structure SoundKept (s t : State) : Prop where
  port (d : SndId) : t.snds[d] = { s.snds[d] with notAccepted := t.snds[d].notAccepted }

theorem SoundKept.refl (s : State) : SoundKept s s := ⟨fun _ => rfl⟩

theorem SoundKept.trans {s t u : State} (h : SoundKept s t) (h' : SoundKept t u) : SoundKept s u :=
  ⟨fun d => (h'.port d).trans (by rw [h.port d])⟩

theorem SoundKept.of_snds {s t : State} (h : t.snds = s.snds) : SoundKept s t := ⟨fun d => by rw [h]⟩

theorem SoundKept.ite {q : Prop} [Decidable q] {s t u : State} (h : SoundKept s t) (h' : SoundKept s u) :
    SoundKept s (if q then t else u) := by
  split
  · exact h
  · exact h'

theorem soundKept_updSnd (s : State) (c : SndId) (n : Nat → Nat) :
    SoundKept s (updSnd s c fun y => { y with notAccepted := n y.notAccepted }) := by
  refine ⟨fun d => ?_⟩
  by_cases h : d = c
  · subst h
    rw [updSnd_at]
  · rw [updSnd_off s _ h]

theorem SoundKept.foldl {α : Type} (f : State → α → State) (hf : ∀ s a, SoundKept s (f s a)) :
    ∀ (l : List α) (s : State), SoundKept s (l.foldl f s)
  | [], s => .refl s
  | a :: l, s => (hf s a).trans (SoundKept.foldl f hf l (f s a))

theorem soundKept_openSoundWindow (s : State) (p : PartId) (base : Nat) : SoundKept s (openSoundWindow s p base) := by
  unfold openSoundWindow
  refine .ite (.refl s) ?_
  extract_lets crowded s1 s2
  have h1 : SoundKept s s1 := .of_snds rfl
  have h2 : SoundKept s s2 := .of_snds (notAccepted_keeps _ _ _ _ _ _).touch.snds_eq
  exact .ite (h1.trans (.of_snds (acceptWindows_keeps _ _ _).touch.snds_eq))
    (.ite (h2.trans (.foldl _ (fun s c => soundKept_updSnd s c satInc) _ _)) h2)

theorem soundKept_firstFrame (s : State) (p : PartId) (k : Nat) : SoundKept s (firstFrame s p k) := by
  unfold firstFrame
  split
  · exact .refl s
  · extract_lets win
    split
    · exact soundKept_openSoundWindow _ _ _
    · exact .refl s

/-- `n` frames have joined the buffer of a port, absent ones alone if so said. -/
structure FramesJoin (c : SndId) (absent : Bool) (n : Nat) (s t : State) : Prop where
  buffer : ∃ fs : List (Option (List (BitVec 24))), fs.length = n ∧ (absent = true → ∀ f ∈ fs, f = none) ∧
    t.snds[c].buffer = s.snds[c].buffer ++ fs
  phaseAcc : t.snds[c].phaseAcc = s.snds[c].phaseAcc
  frame : t.snds[c].frame = s.snds[c].frame
  others (d : SndId) (h : d ≠ c) : t.snds[d] = { s.snds[d] with notAccepted := t.snds[d].notAccepted }

theorem FramesJoin.refl (c : SndId) (absent : Bool) (s : State) : FramesJoin c absent 0 s s where
  buffer := ⟨[], rfl, fun _ _ h => absurd h List.not_mem_nil, (List.append_nil _).symm⟩
  phaseAcc := rfl
  frame := rfl
  others _ _ := rfl

theorem FramesJoin.of_kept {c : SndId} {absent : Bool} {n : Nat} {s t u : State} (h : FramesJoin c absent n s t) (k : SoundKept t u) :
    FramesJoin c absent n s u where
  buffer := by
    obtain ⟨fs, hlen, habs, hbuf⟩ := h.buffer
    exact ⟨fs, hlen, habs, (congrArg Snd.buffer (k.port c)).trans hbuf⟩
  phaseAcc := (congrArg Snd.phaseAcc (k.port c)).trans h.phaseAcc
  frame := (congrArg Snd.frame (k.port c)).trans h.frame
  others d hd := (k.port d).trans (by rw [h.others d hd])

/-- A frame that joins the buffer. -/
def joinFrame (f : Option (List (BitVec 24))) (n : Nat) (y : Snd) : Snd := { y with buffer := y.buffer ++ [f], bufHigh := max y.bufHigh n }

theorem framesJoin_succ {c : SndId} {absent : Bool} {n : Nat} {s t : State} (h : FramesJoin c absent n s t)
    (f : Option (List (BitVec 24))) (k : Nat) (hf : absent = true → f = none) :
    FramesJoin c absent (n + 1) s (updSnd t c (joinFrame f k)) := by
  obtain ⟨fs, hlen, habs, hbuf⟩ := h.buffer
  have hself := updSnd_at t c (joinFrame f k)
  refine ⟨⟨fs ++ [f], by rw [List.length_append, hlen]; rfl, fun ha g hg => ?_, ?_⟩, ?_, ?_, fun d hd => ?_⟩
  · rcases List.mem_append.mp hg with hg | hg
    · exact habs ha g hg
    · rw [List.mem_singleton.mp hg, hf ha]
  · calc (updSnd t c (joinFrame f k)).snds[c].buffer
        = t.snds[c].buffer ++ [f] := congrArg Snd.buffer hself
      _ = s.snds[c].buffer ++ (fs ++ [f]) := by rw [hbuf, List.append_assoc]
  · exact (congrArg Snd.phaseAcc hself).trans h.phaseAcc
  · exact (congrArg Snd.frame hself).trans h.frame
  · rw [updSnd_off t _ hd]
    exact h.others d hd

theorem framesJoin_pushFrames (s : State) (p : PartId) (c : SndId) (x : SndPortRec) (absent : Bool) (slots : List Int) :
    ∀ n : Nat, FramesJoin c absent n s (pushFrames s p c x absent slots n)
  | 0 => .refl c absent s
  | n + 1 => by
    unfold pushFrames
    extract_lets s1 low held f s2 k
    have hf : absent = true → f = none := fun ha => if_pos (by rw [ha]; rfl)
    have h2 : FramesJoin c absent (n + 1) s s2 := framesJoin_succ (framesJoin_pushFrames s p c x absent slots n) f _ hf
    refine h2.of_kept (.trans (.of_snds ?_) (soundKept_firstFrame _ _ _))
    rfl

/-! ### SOUND_FRAME (R344-R353) -/

/-- The port after a frame has passed on its wires. -/
def framePassed (s : State) (x : SndPortRec) (sync : FrameSync) (hz : Nat) (y : Snd) : Snd :=
  outFrame s.freeCount x (countSync sync { y with clockOk := true, rate := if x.master then 1000 * x.frameRate else hz })

/-- What a frame's passing leaves of a port: all but its clock, its rate, its counts of defects and its wires. -/
theorem framePassed_keeps (s : State) (x : SndPortRec) (sync : FrameSync) (hz : Nat) (y : Snd) :
    (framePassed s x sync hz y).rate = (if x.master then 1000 * x.frameRate else hz) ∧ (framePassed s x sync hz y).phase = y.phase ∧
      (framePassed s x sync hz y).phaseAcc = y.phaseAcc ∧ (framePassed s x sync hz y).buffer = y.buffer ∧
      (framePassed s x sync hz y).frame = y.frame ∧ (framePassed s x sync hz y).silentLeft = y.silentLeft ∧
      (framePassed s x sync hz y).asrcLocked = y.asrcLocked := by
  cases sync <;> exact ⟨rfl, rfl, rfl, rfl, rfl, rfl, rfl⟩

/-- The state after a frame has passed on a port's wires. -/
def wiresPassed (s : State) (c : SndId) (x : SndPortRec) (sync : FrameSync) (hz : Nat) : State :=
  { updSnd s c (framePassed s x sync hz) with freeCount := s.freeCount + 32 }

theorem wiresPassed_eq (s : State) (c : SndId) (x : SndPortRec) (sync : FrameSync) (hz : Nat) : wiresPassed s c x sync hz =
    { updSnd (updSnd s c fun y => countSync sync { y with clockOk := true, rate := if x.master then 1000 * x.frameRate else hz }) c
        (outFrame s.freeCount x) with freeCount := s.freeCount + 32 } := by
  simp [wiresPassed, updSnd, framePassed]

theorem wiresPassed_touch (s : State) (c : SndId) (x : SndPortRec) (sync : FrameSync) (hz : Nat) :
    Touch [.snds, .freeCount] s (wiresPassed s c x sync hz) := .lit

theorem wiresPassed_at (s : State) (c : SndId) (x : SndPortRec) (sync : FrameSync) (hz : Nat) :
    (wiresPassed s c x sync hz).snds[c] = framePassed s x sync hz s.snds[c] := updSnd_at s c (framePassed s x sync hz)

theorem wiresPassed_off (s : State) {c d : SndId} (x : SndPortRec) (sync : FrameSync) (hz : Nat) (h : d ≠ c) :
    (wiresPassed s c x sync hz).snds[d] = s.snds[d] := updSnd_off s (framePassed s x sync hz) h

/-- What a frame whose wires have passed does by the port's phase. -/
def frameTaken (s : State) (p : PartId) (c : SndId) (x : SndPortRec) (slots : List Int) (sync : FrameSync) : State :=
  match (s.snds[c]).phase with
  | .silent | .stopping => updSnd s c silentFrame
  | .running | .relock =>
    let y := s.snds[c]
    let acc := y.phaseAcc + 1000 * imageRateHz x.imageRate
    let r := trackedRate s p c x
    let absent : Bool := decide (y.phase = .relock) || y.mismatch || decide (sync = .frameError)
    let s2 := pushFrames (updSnd s c (fun y => { y with phaseAcc := acc % r })) p c x absent slots (acc / r)
    if y.phase = .relock then updSnd s2 c silentFrame else s2
  | _ => s

theorem goodFrame_eq (s : State) (p : PartId) (c : SndId) (x : SndPortRec) (slots : List Int) (sync : FrameSync) (hz : Nat) :
    goodFrame s p c x slots sync hz = frameTaken (wiresPassed s c x sync hz) p c x slots sync := by
  rw [wiresPassed_eq]
  rfl

/-- A port whose fraction of an image-rate frame is set. -/
def withAcc (n : Nat) (y : Snd) : Snd := { y with phaseAcc := n }

theorem frameTaken_of_running {s : State} {c : SndId} {r acc : Nat} {x : SndPortRec} {p : PartId} {slots : List Int} {sync : FrameSync}
    (h : s.snds[c].phase = .running) (hr : trackedRate s p c x = r) (hacc : s.snds[c].phaseAcc + 1000 * imageRateHz x.imageRate = acc) :
    frameTaken s p c x slots sync =
      pushFrames (updSnd s c (withAcc (acc % r))) p c x (s.snds[c].mismatch || decide (sync = .frameError)) slots (acc / r) := by
  subst hr hacc
  simp only [frameTaken, h, decide_false, Bool.false_or, reduceCtorEq, if_false]
  rfl

theorem frameTaken_of_silent {s : State} {c : SndId} {x : SndPortRec} {p : PartId} {slots : List Int} {sync : FrameSync}
    (h : s.snds[c].phase = .silent) : frameTaken s p c x slots sync = updSnd s c silentFrame := by
  simp only [frameTaken, h]

/-- The port whose clock a port's ASRC tracks, and the rate that it reads there. -/
def clockPort (s : State) (p : PartId) (c : SndId) (x : SndPortRec) : SndId :=
  match (if x.align = 255 then none else alignOf (activeImage s p) true x.align) with
  | some a => if a.clock = 255 then c else Fin.ofNat 8 a.clock
  | none => c

def rateAt (s : State) (x : SndPortRec) (d : SndId) : Nat := if s.snds[d].rate = 0 then 1000 * x.frameRate else s.snds[d].rate

theorem trackedRate_eq (s : State) (p : PartId) (c : SndId) (x : SndPortRec) :
    trackedRate s p c x = rateAt s x (clockPort s p c x) := rfl

theorem clockPort_alone (s : State) (p : PartId) (c : SndId) {x : SndPortRec} (h : x.align = 255) : clockPort s p c x = c := by
  rw [clockPort, if_pos h]

/-- A port that stands alone tracks its own rate. -/
theorem trackedRate_alone (s : State) (p : PartId) (c : SndId) {x : SndPortRec} (h : x.align = 255) :
    trackedRate s p c x = if s.snds[c].rate = 0 then 1000 * x.frameRate else s.snds[c].rate := by
  rw [trackedRate_eq, clockPort_alone s p c h, rateAt]

theorem silentFrame_phase {y : Snd} (h : y.phase = .silent) :
    (silentFrame y).phase = if y.silentLeft ≤ 1 ∧ y.asrcLocked = true then .waitT0 else .silent := by
  have hleft : y.silentLeft - 1 = 0 ↔ y.silentLeft ≤ 1 := Nat.sub_eq_zero_iff_le
  simp [silentFrame, h, hleft]

section SoundFrame

variable {c : SndId} {p : PartId} {x : SndPortRec} {s : State} (hup : s.glb.phase = .up) (hcfg : s.snds[c].cfg = some x)
  (howner : s.snds[c].owner = some p) (hclock : s.snds[c].clockLost = false) (hrate : s.snds[c].rateError = false)
include hup hcfg howner hclock hrate

/-- A port with a clock that has not been stopped: what its frame does. -/
theorem exec_soundFrame_of_clocked (slots : List Int) (sync : FrameSync) (hz : Nat) (hphase : s.snds[c].phase ≠ .idle) :
    exec (.soundFrame c slots sync hz) s = .next (if x.master then goodFrame s p c x slots .good hz
      else if sync = .rateError && started s.snds[c] then
        logPlain (updSnd s c (fun y => { loseClock y with rateError := true, rate := hz })) 0x0502 c.val
      else goodFrame s p c x slots sync hz) := by
  refine exec_of_up hup ((exec_soundFrame c slots sync hz s).trans (congrArg (whenUp s) ?_))
  rw [hcfg, howner]
  exact if_neg (by rw [hclock, hrate, decide_eq_false hphase]; exact Bool.false_ne_true)

end SoundFrame

/-! ### SOUND_BLOCK_DELIVERED (R358-R362) -/

/-- A port of the stream that gives a block its frames. -/
def BlockTaken (s t : State) (c : SndId) : Prop :=
  t.snds[c].frame = s.snds[c].frame + 16 ∧ t.snds[c].buffer = s.snds[c].buffer.drop 16 ∧
    t.snds[c].insOwn = min 4294967295 (s.snds[c].insOwn +
      ((List.range 16).filter (fun k => decide ((s.snds[c].buffer[k]?).getD none = none))).length)

theorem takeBlock_insOwn (mask : List Bool) (y : Snd) : (takeBlock mask y).insOwn = min 4294967295 (y.insOwn +
    ((List.range 16).filter (fun k => decide ((y.buffer[k]?).getD none = none))).length) := by
  have habsent (k : Nat) : ((y.buffer[k]?).getD none).isNone = decide ((y.buffer[k]?).getD none = none) := by
    cases (y.buffer[k]?).getD none <;> rfl
  have hcount : (((blockFrames y).map (·.isNone)).filter (fun b => b)).length =
      ((List.range 16).filter (fun k => decide ((y.buffer[k]?).getD none = none))).length := by
    simp only [blockFrames, List.map_map, List.filter_map, List.length_map, Function.comp_def, habsent]
  exact (congrArg (fun n => sat32 (y.insOwn + n)) hcount).trans (Nat.min_comm _ _)

theorem blockTaken_updSnd (s : State) (c : SndId) (mask : List Bool) : BlockTaken s (updSnd s c (takeBlock mask)) c := by
  rw [BlockTaken, updSnd_at]
  exact ⟨rfl, rfl, takeBlock_insOwn mask _⟩

theorem BlockTaken.of_snds {s t s' t' : State} {c : SndId} (h : BlockTaken s t c) (hs : s'.snds[c] = s.snds[c] := by rfl)
    (ht : t'.snds[c] = t.snds[c] := by rfl) : BlockTaken s' t' c := by
  unfold BlockTaken
  rw [hs, ht]
  exact h

/-- A block leaves the buffers of a stream's members. -/
def takeBlocks (mask : List Bool) (ms : List (SndId × SndPortRec)) (s : State) : State :=
  ms.foldl (fun s k => updSnd s k.1 (takeBlock mask)) s

theorem takeBlocks_cons (mask : List Bool) (m : SndId × SndPortRec) (ms : List (SndId × SndPortRec)) (s : State) :
    takeBlocks mask (m :: ms) s = takeBlocks mask ms (updSnd s m.1 (takeBlock mask)) := rfl

theorem takeBlocks_off (mask : List Bool) {c : SndId} {ms : List (SndId × SndPortRec)} (s : State) (h : c ∉ ms.map (·.1)) :
    (takeBlocks mask ms s).snds[c] = s.snds[c] := by
  induction ms generalizing s with
  | nil => rfl
  | cons m ms ih =>
    rw [List.map_cons, List.mem_cons, not_or] at h
    rw [takeBlocks_cons, ih _ h.2, updSnd_off s _ h.1]

theorem takeBlocks_at (mask : List Bool) {c : SndId} {ms : List (SndId × SndPortRec)} (s : State) (hnd : (ms.map (·.1)).Nodup)
    (hmem : c ∈ ms.map (·.1)) : BlockTaken s (takeBlocks mask ms s) c := by
  induction ms generalizing s with
  | nil => cases hmem
  | cons m ms ih =>
    rw [List.map_cons, List.nodup_cons] at hnd
    rw [takeBlocks_cons]
    rcases List.mem_cons.mp hmem with rfl | h
    · exact (blockTaken_updSnd s m.1 mask).of_snds rfl (takeBlocks_off mask _ hnd.1)
    · have hne : c ≠ m.1 := fun e => hnd.1 (e ▸ h)
      exact (ih _ hnd.2 h).of_snds (updSnd_off s _ hne).symm rfl

/-- A port as a member of the stream of `x`, if it is one. -/
def memberOf (s : State) (p : PartId) (x : SndPortRec) (c : SndId) : Option (SndId × SndPortRec) :=
  match sndPort s c with
  | some (q, y) =>
    if q = p && (if x.align = 255 then decide (y.port = x.port) else decide (y.align = x.align)) then some (c, y) else none
  | none => none

theorem sndMembers_eq (s : State) (p : PartId) (x : SndPortRec) : sndMembers s p x = allSnds.filterMap (memberOf s p x) := rfl

theorem memberOf_fst {s : State} {p : PartId} {x : SndPortRec} {c : SndId} {m : SndId × SndPortRec} (h : memberOf s p x c = some m) :
    m.1 = c := by
  unfold memberOf at h
  cases hc : sndPort s c with
  | none =>
    rw [hc] at h
    cases h
  | some qy =>
    simp only [hc, Option.ite_none_right_eq_some, Option.some.injEq] at h
    rw [← h.2]

theorem sndMembers_nodup (s : State) (p : PartId) (x : SndPortRec) : ((sndMembers s p x).map (·.1)).Nodup := by
  rw [sndMembers_eq, List.map_filterMap]
  refine List.Nodup.filterMap (fun c d b hb hb' => ?_) (by decide)
  obtain ⟨m, hm, rfl⟩ := Option.map_eq_some_iff.mp hb
  obtain ⟨n, hn, hnm⟩ := Option.map_eq_some_iff.mp hb'
  rw [← memberOf_fst hm, ← memberOf_fst hn, hnm]

/-- Every member of the stream gives the block its frames. -/
theorem deliverBlock_taken {s : State} {p : PartId} {i : Image} {ms : List (SndId × SndPortRec)} (hnd : (ms.map (·.1)).Nodup) {c : SndId}
    (hc : c ∈ ms.map (·.1)) : BlockTaken s (deliverBlock s p i ms) c := by
  unfold deliverBlock
  split
  · cases hc
  next m ms' =>
    extract_lets base low piece lane mask take fs win s1
    have htake (u : State) : BlockTaken u (take u) c := takeBlocks_at mask u hnd hc
    split
    · split
      · exact (htake s).of_snds rfl (congrArg (·[c]) (enterGateway_keeps _ _ _ _).touch.snds_eq)
      · exact htake s
    · have h1 : SoundKept s s1 := .ite (soundKept_openSoundWindow _ _ _) (.refl s)
      have htaken : BlockTaken s (take s1) c := by
        obtain ⟨hframe, hbuf, hins⟩ := htake s1
        have hk := h1.port c
        exact ⟨hframe.trans (congrArg (·.frame + 16) hk), hbuf.trans (congrArg (·.buffer.drop 16) hk), hins.trans (by rw [hk])⟩
      split
      · exact htaken
      · extract_lets fs'
        refine htaken.of_snds rfl (congrArg (·[c]) ?_)
        exact (enterGateway_keeps _ _ _ _).touch.snds_eq.trans ((sendDescriptors_keeps _ _).touch.snds_eq.trans
          (closeSoundWindow_keeps _ _ _ _ _).touch.snds_eq)

/-- The rate that a port which stands alone tracks once a frame has passed. -/
theorem trackedRate_wiresPassed {s : State} {c : SndId} {x : SndPortRec} {sync : FrameSync} {hz r : Nat} (p : PartId) (halone : x.align = 255)
    (hr : r = if x.master = true ∨ hz = 0 then 1000 * x.frameRate else hz) : trackedRate (wiresPassed s c x sync hz) p c x = r := by
  obtain ⟨hrate, -⟩ := framePassed_keeps s x sync hz s.snds[c]
  rw [trackedRate_alone _ p c halone, wiresPassed_at, hrate, hr]
  cases x.master with
  | true => simp
  | false => simp

/-- A frame of a running port that stands alone: the image-rate frames that join its buffer. -/
theorem goodFrame_joins {s : State} {c : SndId} {p : PartId} {x : SndPortRec} {hz r acc : Nat} (slots : List Int) (sync : FrameSync)
    (hphase : s.snds[c].phase = .running) (halone : x.align = 255) (hr : r = if x.master = true ∨ hz = 0 then 1000 * x.frameRate else hz)
    (hacc : s.snds[c].phaseAcc + 1000 * imageRateHz x.imageRate = acc) :
    ∃ absent : Bool, (sync = .frameError → absent = true) ∧
      FramesJoin c absent (acc / r) (updSnd (wiresPassed s c x sync hz) c (withAcc (acc % r))) (goodFrame s p c x slots sync hz) := by
  subst hacc
  obtain ⟨-, hp, ha, -⟩ := framePassed_keeps s x sync hz s.snds[c]
  have hself := wiresPassed_at s c x sync hz
  have hframe := frameTaken_of_running (s := wiresPassed s c x sync hz) (c := c) (p := p) (slots := slots) (sync := sync)
    (by rw [hself, hp]; exact hphase) (trackedRate_wiresPassed p halone hr) (by rw [hself, ha])
  rw [goodFrame_eq, hframe]
  exact ⟨(wiresPassed s c x sync hz).snds[c].mismatch || decide (sync = .frameError), fun he => by rw [decide_eq_true he, Bool.or_true],
    framesJoin_pushFrames _ _ _ _ _ _ _⟩

/-- Settles O51. -/
theorem soundFramesFillBlocksOfSixteen : Obligations.SoundFramesFillBlocksOfSixteen := by
  intro c p x y s hup hy hcfg howner hclock hrate
  subst hy
  refine ⟨fun slots sync hz r n hphase halone hslave hr hn => ?_, fun slots hz hslave hst => ?_, fun slots hz hphase => ?_,
    fun i hphase hmask hactive => ?_⟩
  · have h := exec_soundFrame_of_clocked hup hcfg howner hclock hrate slots sync hz (by rw [hphase]; exact SndPhase.noConfusion)
    have hgood : ∃ sync' : FrameSync, (sync = .frameError → x.master = false → sync' = .frameError) ∧
        exec (.soundFrame c slots sync hz) s = .next (goodFrame s p c x slots sync' hz) := by
      cases hmaster : x.master with
      | true =>
        rw [hmaster, if_pos rfl] at h
        exact ⟨.good, fun _ hm => Bool.noConfusion hm, h⟩
      | false =>
        have hsync : ¬(decide (sync = .rateError) && started s.snds[c]) = true := by
          rw [decide_eq_false (fun he => Bool.noConfusion (hmaster.symm.trans (hslave he)))]
          exact Bool.false_ne_true
        rw [hmaster, if_neg Bool.false_ne_true, if_neg hsync] at h
        exact ⟨sync, fun he _ => he, h⟩
    obtain ⟨sync', hsync, h⟩ := hgood
    obtain ⟨absent, habs, hjoin⟩ := goodFrame_joins (p := p) slots sync' hphase halone hr rfl
    have hself : (updSnd (wiresPassed s c x sync' hz) c (withAcc ((s.snds[c].phaseAcc + 1000 * imageRateHz x.imageRate) % r))).snds[c] =
        withAcc ((s.snds[c].phaseAcc + 1000 * imageRateHz x.imageRate) % r) (framePassed s x sync' hz s.snds[c]) := by
      rw [updSnd_at, wiresPassed_at]
    obtain ⟨-, -, -, hbuf, hframe, -⟩ := framePassed_keeps s x sync' hz s.snds[c]
    obtain ⟨fs, hlen, hnone, hfs⟩ := hjoin.buffer
    have hbuffer := hfs.trans (congrArg (· ++ fs) ((congrArg Snd.buffer hself).trans hbuf))
    refine ⟨_, h, (goodFrame_keeps _ _ _ _ _ _ _).touch, hjoin.phaseAcc.trans (congrArg Snd.phaseAcc hself), ?_, ?_,
      hjoin.frame.trans ((congrArg Snd.frame hself).trans hframe), fun he hm => ?_, fun d hd => ?_⟩
    · rw [hbuffer, List.length_append, hlen, hn]
    · rw [hbuffer, List.take_left' rfl]
    · rw [hbuffer, List.drop_left' rfl]
      exact hnone (habs (hsync he hm))
    · have hd' := hjoin.others d hd
      rw [updSnd_off _ _ hd, wiresPassed_off s x sync' hz hd] at hd'
      exact hd'
  · have hidle : s.snds[c].phase ≠ .idle := by
      intro hi
      rw [started_iff, hi] at hst
      simp at hst
    have h := exec_soundFrame_of_clocked hup hcfg howner hclock hrate slots .rateError hz hidle
    rw [hslave, hst, if_neg Bool.false_ne_true, if_pos (by rfl)] at h
    refine ⟨_, h, ((updSnd_keeps _ _ _).touch.mono (by decide)).step (logEvent_touch _ _ _ _ _ _) (by decide), ?_⟩
    rw [logPlain, (logEvent_touch _ _ _ _ _ _).snds_eq, updSnd_at]
    exact ⟨rfl, rfl, rfl, logEvent_flt_congr (s := s) (u := updSnd s c fun y => { loseClock y with rateError := true, rate := hz })
      rfl rfl rfl _ _ _ _ _⟩
  · have h := exec_soundFrame_of_clocked hup hcfg howner hclock hrate slots .good hz (by rw [hphase]; exact SndPhase.noConfusion)
    rw [decide_eq_false (by decide), Bool.false_and, if_neg Bool.false_ne_true, ite_self] at h
    obtain ⟨-, hp, -, hbuf, -, hleft, hlock⟩ := framePassed_keeps s x .good hz s.snds[c]
    have hself := wiresPassed_at s c x .good hz
    have hsilent : (wiresPassed s c x .good hz).snds[c].phase = .silent := by
      rw [hself, hp]
      exact hphase
    rw [goodFrame_eq, frameTaken_of_silent hsilent] at h
    refine ⟨_, h, ?_, ?_⟩
    · exact .step (m := [.snds, .freeCount]) (t := wiresPassed s c x .good hz) (wiresPassed_touch _ _ _ _ _) (updSnd_keeps _ _ _).touch (by decide)
    · rw [updSnd_at, silentFrame_phase hsilent, hself, hleft, hlock]
      exact ⟨congrArg (· - 1) hleft, hbuf, rfl⟩
  · have h : exec (.soundBlockDelivered c) s = .next (deliverBlock s p i (sndMembers s p x)) := by
      refine exec_of_up hup ((exec_soundBlockDelivered c s).trans (congrArg (whenUp s) ?_))
      rw [sndPort_of hcfg howner]
      dsimp only
      rw [hactive]
      exact if_pos ⟨.inl hphase, hmask⟩
    exact ⟨_, h, exec_touch h, fun m hm => deliverBlock_taken (sndMembers_nodup s p x) (List.mem_map_of_mem hm)⟩

end Sys2Proof.Machine
end

