-- ==== Sys2Proof/Proofs/SpanFrames.lean ====
section
/-! The frames of a span link: what they carry, what they leave of the link, and their acceptance (O56). -/

namespace Sys2Proof.Machine

-- One proof at a time: a default argument that is a tactic waits for every proof before it.
set_option Elab.async false

/-! ### Little-endian fields -/

theorem leBytes_length (n v : Nat) : (leBytes n v).length = n := by
  induction n generalizing v with
  | zero => rfl
  | succ n ih => rw [leBytes, List.length_cons, ih]

theorem leNat_leBytes (n v : Nat) : leNat (leBytes n v) = v % 256 ^ n := by
  induction n generalizing v with
  | zero => exact (Nat.mod_one v).symm
  | succ n ih =>
    have hpow : 256 ^ (n + 1) = 256 * 256 ^ n := Nat.pow_succ'
    rw [leBytes, leNat, ih, BitVec.toNat_ofNat, hpow]
    exact Nat.mod_mul.symm

/-! ### The link's own state -/

/-- What frames sent, span messages and the partition's end leave of a link. -/
structure LinkView where
  linkUp : Bool
  lostEv : Bool
  serialEv : Bool
  helloAt : Option Nat
  peer : Option (BitVec 64)
  rxNext : Nat
  nak : Bool
  crcErr : Nat

def Spn.view (x : Spn) : LinkView :=
  { linkUp := x.linkUp, lostEv := x.lostEv, serialEv := x.serialEv, helloAt := x.helloAt, peer := x.peer, rxNext := x.rxNext
    nak := x.nak, crcErr := x.crcErr }

/-- Both links keep their own state. -/
structure LinkKept (s t : State) : Prop where
  link (q : SpanPort) : (getSpn t q).view = (getSpn s q).view

theorem LinkKept.refl (s : State) : LinkKept s s := ⟨fun _ => rfl⟩

theorem LinkKept.trans {s t u : State} (h : LinkKept s t) (h' : LinkKept t u) : LinkKept s u := ⟨fun q => (h'.link q).trans (h.link q)⟩

theorem LinkKept.of_touch {l : List Fld} {s t : State} (h : Touch l s t) (ha : Fld.spa ∉ l := by decide) (hb : Fld.spb ∉ l := by decide) :
    LinkKept s t := by
  refine ⟨fun q => ?_⟩
  cases q with
  | spa => exact congrArg Spn.view (h.spa_eq ha)
  | spb => exact congrArg Spn.view (h.spb_eq hb)

theorem getSpn_updSpn_off (s : State) {q r : SpanPort} (f : Spn → Spn) (h : r ≠ q) : getSpn (updSpn s q f) r = getSpn s r := by
  cases q <;> cases r
  · exact absurd rfl h
  · rfl
  · rfl
  · exact absurd rfl h

theorem linkKept_updSpn (s : State) (q : SpanPort) {f : Spn → Spn} (hf : (f (getSpn s q)).view = (getSpn s q).view) :
    LinkKept s (updSpn s q f) := by
  refine ⟨fun r => ?_⟩
  by_cases h : r = q
  · subst h
    rw [updSpn_getSpn_self, hf]
  · rw [getSpn_updSpn_off s f h]

theorem LinkKept.foldl {α : Type} (f : State → α → State) (hf : ∀ s a, LinkKept s (f s a)) :
    ∀ (l : List α) (s : State), LinkKept s (l.foldl f s)
  | [], s => .refl s
  | a :: l, s => (hf s a).trans (LinkKept.foldl f hf l (f s a))

theorem LinkKept.ite {q : Prop} [Decidable q] {s t u : State} (h : LinkKept s t) (h' : LinkKept s u) : LinkKept s (if q then t else u) := by
  split
  · exact h
  · exact h'

/-! ### Framing what waits (R411-R415) -/

theorem sendSeq_view (x : Spn) (kind : Nat) (payload : List Byte) : (sendSeq x kind payload).view = x.view := rfl

theorem takeFlits_view (n : Nat) (x : Spn) : (takeFlits n x).1.view = x.view := by
  induction n generalizing x with
  | zero => rfl
  | succ n ih =>
    unfold takeFlits
    split
    · rfl
    · split
      · rfl
      · exact ih _

theorem takeFlits_unacked (n : Nat) (x : Spn) : (takeFlits n x).1.unacked = x.unacked := by
  induction n generalizing x with
  | zero => rfl
  | succ n ih =>
    unfold takeFlits
    split
    · rfl
    · split
      · rfl
      · exact ih _

theorem spanPump_view (n : Nat) (x : Spn) : (spanPump n x).view = x.view := by
  induction n generalizing x with
  | zero => rfl
  | succ n ih =>
    unfold spanPump
    split
    · rfl
    · split
      · exact (ih _).trans (sendSeq_view _ _ _)
      · extract_lets k r
        split
        · exact (ih _).trans (sendSeq_view _ _ _)
        · split
          · rfl
          · exact ((ih _).trans (sendSeq_view _ _ _)).trans (takeFlits_view _ _)

theorem runSpan_view (x : Spn) : (runSpan x).view = x.view := spanPump_view _ _

/-- Frames that are sent join those not yet acknowledged. -/
theorem spanPump_unacked (n : Nat) (x : Spn) : ∃ fs, (spanPump n x).unacked = x.unacked ++ fs := by
  induction n generalizing x with
  | zero => exact ⟨[], (List.append_nil _).symm⟩
  | succ n ih =>
    have hsent (y : Spn) (kind : Nat) (b : List Byte) (hy : y.unacked = x.unacked) :
        ∃ fs, (spanPump n (sendSeq y kind b)).unacked = x.unacked ++ fs := by
      obtain ⟨fs, hfs⟩ := ih (sendSeq y kind b)
      exact ⟨_ :: fs, by rw [hfs, sendSeq, hy, List.append_assoc, List.singleton_append]⟩
    unfold spanPump
    split
    · exact ⟨[], (List.append_nil _).symm⟩
    · split
      · exact hsent _ _ _ rfl
      · extract_lets k r
        split
        · exact hsent _ _ _ rfl
        · split
          · exact ⟨[], (List.append_nil _).symm⟩
          · exact hsent _ _ _ (takeFlits_unacked _ _)

theorem linkKept_sendMsg (s : State) (q : SpanPort) (m : List Byte) : LinkKept s (sendMsg s q m) :=
  linkKept_updSpn s q (runSpan_view _)

theorem linkKept_sendAll (s : State) (p : PartId) (keep : SpanPort → Bool) (m : List Byte) : LinkKept s (sendAll s p keep m) :=
  .foldl _ (fun s q => linkKept_sendMsg s q m) _ _

/-! ### Frames that arrive (R410, R414, R415) -/

theorem ackFrames_view (x : Spn) (ack : Nat) : (ackFrames x ack).view = x.view := by
  unfold ackFrames
  split <;> rfl

theorem takeLink_view (x : Spn) (frame : List Byte) : (takeLink x frame).view = x.view := by
  unfold takeLink
  extract_lets x1 nak x2 x3
  have h1 : x1.view = x.view := ackFrames_view _ _
  have h3 : x3.view = x.view := by
    unfold x3
    split <;> exact h1
  exact (runSpan_view _).trans h3

/-- A step of a link frees descriptor places besides (R415, R417). -/
theorem linkKept_linkStep (s : State) (q : SpanPort) (f : Spn → Spn) : LinkKept (updSpn s q f) (linkStep s q f) := by
  unfold linkStep
  extract_lets s1 n
  refine .ite ⟨fun r => ?_⟩ (.refl s1)
  cases r <;> rfl

/-- Flits enter a gateway and leave their receive buffers; the link itself stands. -/
theorem linkKept_spanDrained (s : State) (src : Option (Nat × Nat)) : LinkKept s (spanDrained s src) := by
  unfold spanDrained
  split
  · extract_lets c
    refine .ite ⟨fun r => ?_⟩ (.refl s)
    cases r <;> rfl
  · exact .refl s

theorem linkKept_updRegion (s : State) (r : RegionId) (f : Region → Region) : LinkKept s (updRegion s r f) := by
  refine ⟨fun q => ?_⟩
  cases q <;> rfl

theorem linkKept_sendGateway {s t : State} {k : Nat} {pp : PlacedPiece} {a b : Nat} (h : sendGateway s k pp a b = some t) : LinkKept s t := by
  unfold sendGateway at h
  extract_lets w r at h
  obtain ⟨d, -, hd⟩ := List.exists_of_findSome?_eq_some h
  split at hd
  · cases hd
  · split at hd
    · cases hd
    · obtain ⟨l, -, hl⟩ := List.exists_of_findSome?_eq_some hd
      extract_lets c at hl
      split at hl
      · cases hl
      · split at hl
        · cases hl
        · obtain ⟨x, -, rfl⟩ := Option.map_eq_some_iff.mp hl
          refine .trans ?_ (.of_touch (driveFlit_keeps _ _ _ _).touch)
          refine .trans ?_ (.of_touch (updTile_keeps _ _ _).touch)
          exact (linkKept_updRegion _ _ _).trans (linkKept_spanDrained _ _)

theorem linkKept_moveOnce {s t : State} {p : PartId} {k : Nat} (h : moveOnce s p k = some t) : LinkKept s t := by
  unfold moveOnce at h
  split at h
  next hc =>
    obtain ⟨d, -, hd⟩ := List.exists_of_findSome?_eq_some hc
    cases h
    exact .of_touch (sendCredits_keeps _ _ _ _ hd).touch
  next =>
    split at h
    · exact linkKept_sendGateway h
    · split at h
      · split at h
        next hq => cases h; exact .of_touch (enqueueAny_keeps _ _ _ _ hq).touch
        next =>
          split at h
          next hq => cases h; exact .of_touch (sendLocal_keeps _ _ _ hq).touch
          next =>
            split at h
            next hq => cases h; exact .of_touch (sendAny_keeps _ _ _ _ hq).touch
            next => exact .of_touch (consumeStage_keeps _ _ _ _ h).touch
      · cases h

theorem linkKept_pumpMoves (n : Nat) (s : State) (p : PartId) (k : Nat) : LinkKept s (pumpMoves n s p k) := by
  induction n generalizing s with
  | zero => exact .refl s
  | succ n ih =>
    unfold pumpMoves
    split
    next hm => exact (linkKept_moveOnce hm).trans (ih _)
    next => exact .refl s

theorem linkKept_pumpTile (s : State) (k : Nat) : LinkKept s (pumpTile s k) := by
  unfold pumpTile
  split
  · exact .ite (linkKept_pumpMoves _ _ _ _) (.refl s)
  · exact .refl s

theorem linkKept_enterGateway (s : State) (p : PartId) (piece : Nat) (fs : List GateFlit) : LinkKept s (enterGateway s p piece fs) := by
  unfold enterGateway
  split
  · exact .refl s
  · extract_lets s1
    have h1 : LinkKept s s1 := .of_touch (updRegion_keeps _ _ _).touch
    exact h1.trans (.foldl _ (fun s _ => linkKept_pumpTile s _) _ _)

/-! ### Frames in order, and those discarded -/

section Frames

variable (s : State) (q : SpanPort) (f : List Byte)

theorem acceptFrame_view : (getSpn (acceptFrame s q f) q).view =
    { (getSpn s q).view with rxNext := ((getSpn s q).rxNext + 1) % 65536, nak := false } := by
  unfold acceptFrame
  rw [(linkKept_linkStep s q _).link q, updSpn_getSpn_self, takeLink_view]
  rfl

theorem acceptFrame_parts : (acceptFrame s q f).parts = s.parts := (acceptFrame_keeps s q f).touch.parts_eq

/-- A data frame's flits go on to the piece. -/
def dataTaken : State :=
  match q, runningPiece s q with
  | .spa, some (p, _) => enterGateway (acceptFrame s q f) p 0 (channelFlits (slotFlits (f.drop 8)))
  | _, _ => acceptFrame s q f

/-- A descriptor frame's descriptors go on to the piece. -/
def descsTaken : State :=
  match q, runningPiece s q with
  | .spa, some (p, x) => takeDescs (acceptFrame s q f) p x (frameDescs s q (f.drop 8))
  | _, _ => acceptFrame s q f

theorem linkKept_dataTaken : LinkKept (acceptFrame s q f) (dataTaken s q f) := by
  unfold dataTaken
  split
  · exact linkKept_enterGateway _ _ _ _
  · exact .refl _

/-- At the last position the descriptors become windows of the piece (R417). -/
theorem takeDescs_last (p : PartId) {x : SpanRec} (ws : List Window) (h : x.spb = false) : takeDescs s p x ws =
    updPart s p (fun y => { y with flow := { y.flow with
      windows := y.flow.windows ++ ws.map (fun w => { w with gen := y.tun.gen }), entered := y.flow.entered + ws.length } }) :=
  if_neg (by rw [h]; exact Bool.false_ne_true)

theorem linkKept_takeDescs (p : PartId) (x : SpanRec) (ws : List Window) : LinkKept s (takeDescs s p x ws) := by
  unfold takeDescs
  refine .ite (.trans (t := updSpn s .spb fun y => { y with txDesc := y.txDesc ++ ws.map (fun w => descBytes w (w.tLast.getD 0)) }) ?_
    (.trans (linkKept_updSpn _ .spb (runSpan_view _)) (linkKept_linkStep _ .spb runSpan))) ?_
  · exact linkKept_updSpn s .spb rfl
  · exact .of_touch (updPart_keeps _ _ _).touch

theorem linkKept_descsTaken : LinkKept (acceptFrame s q f) (descsTaken s q f) := by
  unfold descsTaken
  split
  · exact linkKept_takeDescs _ _ _ _
  · exact .refl _

variable {s} {q} {f} {fec : Bool} (hup : s.glb.phase = .up)
include hup

theorem exec_spanDataFrame_eq : exec (.spanDataFrame q f fec) s = .next (if !(getSpn s q).linkUp then s
    else if frameAccepted (getSpn s q) f fec then dataTaken s q f else discardFrame s q f fec) := exec_of_up hup

theorem exec_spanDescriptorFrame_eq : exec (.spanDescriptorFrame q f fec) s = .next (if !(getSpn s q).linkUp then s
    else if frameAccepted (getSpn s q) f fec then descsTaken s q f else discardFrame s q f fec) := exec_of_up hup

theorem exec_spanIdleFrame_eq : exec (.spanIdleFrame q f) s = .next (if !(getSpn s q).linkUp then s
    else if frameCrcOk f then linkStep s q (fun x => takeLink x f) else updSpn s q (fun x => countFrame x f true)) := exec_of_up hup

end Frames

theorem otherSpan_ne (q : SpanPort) : otherSpan q ≠ q := by
  cases q <;> exact SpanPort.noConfusion

theorem frameAccepted_iff (x : Spn) (f : List Byte) (fec : Bool) :
    frameAccepted x f fec = true ↔ frameCrcOk f = true ∧ fec = true ∧ leAt f 2 2 = x.rxNext := by
  simp [frameAccepted, and_assoc]

/-- A frame that is discarded. -/
theorem discardFrame_link (s : State) (q : SpanPort) (f : List Byte) (fec : Bool) : getSpn (discardFrame s q f fec) q =
    { getSpn s q with
      nak := true, crcErr := if frameCrcOk f then (getSpn s q).crcErr else min ((getSpn s q).crcErr + 1) 4294967295
      fecUncorr := if fec then (getSpn s q).fecUncorr else min ((getSpn s q).fecUncorr + 1) 4294967295 } :=
  updSpn_getSpn_self s q _

/-- Settles O56. -/
theorem spanFramesAreAcceptedInOrder : Obligations.SpanFramesAreAcceptedInOrder := by
  intro q f fec x s hup hx
  subst hx
  have hdata := exec_spanDataFrame_eq (q := q) (f := f) (fec := fec) hup
  have hdesc := exec_spanDescriptorFrame_eq (q := q) (f := f) (fec := fec) hup
  have hidle := exec_spanIdleFrame_eq (q := q) (f := f) hup
  refine ⟨fun hdown => ?_, fun hlink hcrc hfec hseq => ?_, fun hlink hbad c hc => ?_, fun hlink => ?_⟩
  · rw [hdata, hdesc, hidle, hdown]
    exact ⟨rfl, rfl, rfl⟩
  · have hacc : frameAccepted (getSpn s q) f fec = true := (frameAccepted_iff _ _ _).mpr ⟨hcrc, hfec, hseq⟩
    have hview := acceptFrame_view s q f
    rw [hlink, hacc, if_neg (by decide), if_pos rfl] at hdata hdesc
    have hdv := ((linkKept_dataTaken s q f).link q).trans hview
    have hev := ((linkKept_descsTaken s q f).link q).trans hview
    refine ⟨⟨_, hdata, exec_touch hdata, congrArg LinkView.rxNext hdv, congrArg LinkView.nak hdv, congrArg LinkView.crcErr hdv⟩,
      ⟨_, hdesc, exec_touch hdesc, congrArg LinkView.rxNext hev, congrArg LinkView.nak hev, fun p y hq hpiece hy => ?_⟩⟩
    subst hq
    have htaken : descsTaken s .spa f = takeDescs (acceptFrame s .spa f) p y (frameDescs s .spa (f.drop 8)) := by
      simp only [descsTaken, hpiece]
    rw [htaken, takeDescs_last _ p _ hy, updPart_at, acceptFrame_parts]
    exact ⟨rfl, rfl, fun r hr => (updPart_off _ _ hr).trans (congrArg (·[r]) (acceptFrame_parts s .spa f))⟩
  · have hno : ¬frameAccepted (getSpn s q) f fec = true := by
      rw [frameAccepted_iff]
      rintro ⟨h1, h2, h3⟩
      rcases hbad with h | h | h
      · exact Bool.noConfusion (h.symm.trans h1)
      · exact Bool.noConfusion (h.symm.trans h2)
      · exact h h3
    rw [hlink, if_neg (by decide), if_neg hno] at hdata hdesc
    refine ⟨discardFrame s q f fec, ?_, (updSpn_keeps _ _ _).touch, getSpn_updSpn_off s _ (otherSpan_ne q), discardFrame_link s q f fec⟩
    rcases hc with rfl | rfl
    · exact hdata
    · exact hdesc
  · rw [hlink, if_neg (by decide)] at hidle
    cases hcrc : frameCrcOk f with
    | true =>
      rw [hcrc, if_pos rfl] at hidle
      have hview := ((linkKept_linkStep s q fun x => takeLink x f).link q).trans (by rw [updSpn_getSpn_self, takeLink_view])
      exact ⟨_, hidle, exec_touch hidle, congrArg LinkView.rxNext hview, congrArg LinkView.nak hview, congrArg LinkView.crcErr hview⟩
    | false =>
      rw [hcrc, if_neg Bool.false_ne_true] at hidle
      refine ⟨_, hidle, exec_touch hidle, ?_⟩
      rw [updSpn_getSpn_self, countFrame, hcrc]
      exact ⟨rfl, rfl, rfl⟩

end Sys2Proof.Machine
end

