-- ==== Sys2Proof/Proofs/SpanLinks.lean ====
section
/-! Span links that come up, send and are lost (O57). -/

namespace Sys2Proof.Machine

-- One proof at a time: a default argument that is a tactic waits for every proof before it.
set_option Elab.async false

/-! ### What a partition's end leaves of the links -/

theorem linkKept_updSpns (f : SpanPort → Spn → Spn) (hf : ∀ q x, (f q x).view = x.view) (qs : List SpanPort) (s : State) :
    LinkKept s (qs.foldl (fun s q => updSpn s q (f q)) s) :=
  LinkKept.foldl (fun s q => updSpn s q (f q)) (fun s q => linkKept_updSpn s q (hf q _)) qs s

theorem linkKept_releasePorts (s : State) (p : PartId) : LinkKept s (releasePorts s p) := by
  unfold releasePorts
  extract_lets s1 s2
  have h2 : LinkKept s s2 := .trans (.of_touch (updImgs_keeps s _).touch) (.of_touch (updSnds_keeps s1 _).touch)
  exact h2.trans (linkKept_updSpns (fun _ x => { x with owner := none, span := 0 }) (fun _ _ => rfl) _ _)

theorem linkKept_endImage (s : State) (p : PartId) (why : ScrubWhy) : LinkKept s (endImage s p why) := .of_touch (endImage_keeps s p why).touch

theorem linkKept_releaseAll (s : State) (p : PartId) : LinkKept s (releasePorts (releasePins (pinsAfterDrain s p) p) p) :=
  ((LinkKept.of_touch (pinsAfterDrain_keeps s p).touch).trans (.of_touch (releasePins_keeps _ p).touch)).trans (linkKept_releasePorts _ p)

theorem linkKept_endDrain (s : State) (p : PartId) (why : DrainWhy) : LinkKept s (endDrain s p why) := by
  have hdrained : LinkKept s (updFlow (closeExport s p) p (fun f => { f with drained := true })) :=
    (LinkKept.of_touch (closeExport_keeps s p).touch).trans (.of_touch (updFlow_keeps _ _ _).touch)
  have hended := (linkKept_releaseAll s p).trans (linkKept_endImage _ p .toEmpty)
  cases why with
  | staged => exact hdrained
  | restart => exact hdrained.trans (.of_touch (finishActivation_keeps _).touch)
  | coldReload =>
    unfold endDrain
    dsimp only
    split
    · refine .trans ?_ (.of_touch (updLoad_keeps _ _ _).touch)
      exact ((LinkKept.of_touch (pinsAfterDrain_keeps s p).touch).trans (.of_touch (portsAfterDrain_keeps _ _ _ _).touch)).trans
        (linkKept_endImage _ _ _)
    · exact ((LinkKept.of_touch (pinsAfterDrain_keeps s p).touch).trans (linkKept_releasePorts _ p)).trans (linkKept_endImage _ _ _)
  | unload => exact hended
  | stopOnRemoval => exact hended
  | aborted => exact hended
  | peerLeft =>
    refine .trans (t := setCause (logPart s p cPeerLeft 0) p (causeOf cPeerLeft)) ?_ ((linkKept_releaseAll _ p).trans (linkKept_endImage _ p _))
    exact (LinkKept.of_touch (logPart_keeps s p _ _).touch).trans (.of_touch (setCause_keeps _ _ _).touch)

theorem linkKept_lossInDrain (s : State) (p : PartId) (why : DrainWhy) : LinkKept s (lossInDrain s p why) := by
  unfold lossInDrain
  extract_lets s1 s2 s3 s4
  have h2 : LinkKept s s2 := ((LinkKept.of_touch (logPart_keeps s p _ _).touch).trans (.of_touch (enterRec_keeps _ p _).touch)).trans
    (.of_touch (updFlow_keeps _ p _).touch)
  have h3 : LinkKept s s3 :=
    h2.trans (linkKept_updSpns (fun _ y => { y with txDesc := [], txFlits := Vector.replicate 4 [] }) (fun _ _ => rfl) _ _)
  split
  · have h4 : LinkKept s3 s4 := .of_touch (setCause_keeps s3 p _).touch
    exact (h3.trans h4).trans ((linkKept_releaseAll s4 p).trans (linkKept_endImage _ _ _))
  · exact (h3.trans (linkKept_endDrain _ _ _)).trans (.of_touch (finishActivation_keeps _).touch)

/-! ### A fault entry -/

theorem linkKept_faultOutputs (s u : State) (p : PartId) (st : PState) (code d0 : Nat) : LinkKept u (faultOutputs s u p st code d0) := by
  unfold faultOutputs
  extract_lets u1 u2
  have h1 : LinkKept u u1 := .of_touch (quietPorts_keeps u p).touch
  have h2 : LinkKept u1 u2 := by
    refine .ite ?_ (.refl u1)
    unfold abortSpan
    split
    · exact .refl u1
    · exact linkKept_sendAll _ _ _ _
  exact (((h1.trans h2).trans (.of_touch (endGap_keeps _ p).touch)).trans (.of_touch (closeExport_keeps _ p).touch)).trans
    (.of_touch (enterRec_keeps _ p _).touch)

theorem linkKept_faultEntry (s : State) (p : PartId) (st : PState) (code d0 : Nat) : LinkKept s (faultEntry s p st code d0) := by
  cases h : isFault s.parts[p].state with
  | true =>
    rw [faultEntry_again h]
    exact .of_touch (logPart_keeps _ _ _ _).touch
  | false =>
    have hpins : LinkKept s (failServing (logPart s p code d0) p) :=
      (LinkKept.of_touch (logPart_keeps s p code d0).touch).trans (.of_touch (failServing_touch _ p))
    have hbody : LinkKept s (faultBody s p st code d0) :=
      ((hpins.trans (linkKept_faultOutputs s _ p st code d0)).trans (.of_touch (faultCensus_touch s _ p code))).trans
        (.of_touch (faultStop_touch s _ p st))
    have hspans : LinkKept (closeHeld (faultBody s p st code d0) p) (stopSpans (closeHeld (faultBody s p st code d0) p) p st) :=
      linkKept_updSpns (fun _ y => { y with span := if st = .faultSpan then 4 else 0, txDesc := [], txFlits := Vector.replicate 4 [] })
        (fun _ _ => rfl) _ _
    rw [faultEntry_eq h]
    exact (((hbody.trans (.of_touch (closeHeld_touch _ p))).trans hspans).trans (.of_touch (setPState_keeps _ p st).touch)).trans
      (.of_touch (setCause_keeps _ p _).touch)

/-! ### A link is lost (R421-R423) -/

theorem linkKept_lossOfPiece (s : State) (q : SpanPort) : LinkKept s (lossOfPiece s q) := by
  unfold lossOfPiece
  split
  · exact .refl s
  · split
    · exact (linkKept_sendAll _ _ _ _).trans (linkKept_faultEntry _ _ _ _ _)
    · exact .ite (.refl s) (linkKept_lossInDrain _ _ _)
    · exact .refl s

/-- The link that is lost, before anything of it is reported. -/
def lostLink (s : State) (q : SpanPort) (serial : Bool) : State :=
  updSpn s q fun x => { clearLink x with linkUp := false, lostEv := true, serialEv := x.serialEv || serial }

/-- The link that is lost, once that is reported. -/
def lossReported (s : State) (q : SpanPort) (serial : Bool) : State := logIrq (lostLink s q serial) 0x0601 (spanIdx q) 0 0 false 20

section LoseLink

variable (s : State) (q : SpanPort) (serial : Bool)

theorem loseLink_of_up (h : (getSpn s q).linkUp = true) : loseLink s q serial = lossOfPiece (lossReported s q serial) q :=
  if_neg (by rw [h]; exact Bool.false_ne_true)

theorem lossReported_touch : Touch [.signals, .spa, .spb, .flt] s (lossReported s q serial) :=
  ((updSpn_keeps s q _).touch.mono (by decide)).step (logIrq_keeps _ _ _ _ _ _ _).touch (by decide)

theorem lossReported_link : getSpn (lossReported s q serial) q =
    { clearLink (getSpn s q) with linkUp := false, lostEv := true, serialEv := (getSpn s q).serialEv || serial } := by
  have h := (logIrq_keeps (lostLink s q serial) 0x0601 (spanIdx q) 0 0 false 20).touch
  have hlink : getSpn (lossReported s q serial) q = getSpn (lostLink s q serial) q := by
    cases q with
    | spa => exact h.spa_eq
    | spb => exact h.spb_eq
  rw [hlink]
  exact updSpn_getSpn_self s q _

theorem lossReported_other : getSpn (lossReported s q serial) (otherSpan q) = getSpn s (otherSpan q) := by
  have h := (logIrq_keeps (lostLink s q serial) 0x0601 (spanIdx q) 0 0 false 20).touch
  have hlink : getSpn (lossReported s q serial) (otherSpan q) = getSpn (lostLink s q serial) (otherSpan q) := by
    cases q with
    | spa => exact h.spb_eq
    | spb => exact h.spa_eq
  rw [hlink]
  exact getSpn_updSpn_off s _ (otherSpan_ne q)

theorem lossReported_parts : (lossReported s q serial).parts = s.parts := (lossReported_touch s q serial).parts_eq

theorem lossReported_piece : runningPiece (lossReported s q serial) q = runningPiece s q := by
  unfold runningPiece
  rw [lossReported_link, lossReported_parts]
  rfl

theorem lossReported_reports : reports s (lossReported s q serial) 0x0601 (spanIdx q) 0 0 false 20 :=
  logIrq_reports (s := s) (u := lostLink s q serial) (updSpn_flt s q _) (updSpn_glb s q _) (congrArg Tbs.time (updSpn_tbs s q _)) _ _ _ _ _ _

/-- The flags of a link that has been lost. -/
theorem loseLink_flags (h : (getSpn s q).linkUp = true) : (getSpn (loseLink s q serial) q).linkUp = false ∧
    (getSpn (loseLink s q serial) q).lostEv = true ∧
    (getSpn (loseLink s q serial) q).serialEv = ((getSpn s q).serialEv || serial) := by
  have hview := (linkKept_lossOfPiece (lossReported s q serial) q).link q
  rw [lossReported_link] at hview
  rw [loseLink_of_up s q serial h]
  exact ⟨congrArg LinkView.linkUp hview, congrArg LinkView.lostEv hview, congrArg LinkView.serialEv hview⟩

end LoseLink

theorem sendAll_parts (s : State) (p : PartId) (keep : SpanPort → Bool) (m : List Byte) : (sendAll s p keep m).parts = s.parts :=
  (sendAll_keeps s p keep m).touch.parts_eq

/-- A lost link of a running piece: the piece faults, and no other partition changes. -/
theorem lossOfPiece_of_running {s : State} {q : SpanPort} {p : PartId} {y : SpanRec} (hpiece : runningPiece s q = some (p, y))
    (hstate : s.parts[p].state = .running) : standsInFault (lossOfPiece s q) p .faultSpan cSpanLost ∧
      ∀ r, r ≠ p → (lossOfPiece s q).parts[r] = s.parts[r] := by
  have h : lossOfPiece s q = faultEntry (sendAll s p (fun r => decide (r ≠ q)) (msgAbort 1 y.id)) p .faultSpan cSpanLost 0 := by
    simp only [lossOfPiece, hpiece, hstate]
  have hparts := sendAll_parts s p (fun r => decide (r ≠ q)) (msgAbort 1 y.id)
  rw [h]
  refine ⟨faultEntry_stands _ _ _ _ _ (by rw [hparts, hstate]; rfl), fun r hr => ?_⟩
  rw [((faultEntry_keeps _ _ _ _ _).others r (List.not_mem_cons_of_ne_of_not_mem hr List.not_mem_nil)).1, hparts]

/-! ### Messages that are sent (R412) -/

theorem spanMsg_length (ty b1 b2 b3 w4 q8 : Nat) : (spanMsg ty b1 b2 b3 w4 q8).length = 16 := by
  simp only [spanMsg, List.length_append, leBytes_length]

section Frame

variable (x : Spn) (kind seq credit dcredit : Nat) {payload : List Byte}

/-- A frame's header up to its payload, its SEQ at bytes 2 and 3. -/
theorem spanFrame_layout : ∃ a b : Byte, ∃ head tail : List Byte, head.length = 4 ∧ tail.length = 2 ∧
    spanFrame x kind seq credit dcredit payload =
      a :: b :: (leBytes 2 seq ++ (head ++ ((payload ++ zeros (54 - payload.length)).take 54 ++ tail))) := by
  obtain ⟨crc, h⟩ : ∃ crc, spanFrame x kind seq credit dcredit payload = leBytes 1 kind ++ leBytes 1 (boolNat x.nak + 16 * dcredit) ++
      leBytes 2 seq ++ leBytes 2 (x.rxNext + 65535) ++ leBytes 2 credit ++ (payload ++ zeros (54 - payload.length)).take 54 ++
      leBytes 2 crc := ⟨_, rfl⟩
  refine ⟨BitVec.ofNat 8 kind, BitVec.ofNat 8 (boolNat x.nak + 16 * dcredit), leBytes 2 (x.rxNext + 65535) ++ leBytes 2 credit,
    leBytes 2 crc, ?_, leBytes_length _ _, ?_⟩
  · rw [List.length_append, leBytes_length, leBytes_length]
  · rw [h]
    simp only [List.append_assoc]
    rfl

theorem spanFrame_seq : leAt (spanFrame x kind seq credit dcredit payload) 2 2 = seq % 65536 := by
  obtain ⟨a, b, head, tail, -, -, h⟩ := spanFrame_layout x kind seq credit dcredit (payload := payload)
  rw [h, leAt, List.drop_succ_cons, List.drop_succ_cons, List.drop_zero, List.take_left' (leBytes_length 2 seq), leNat_leBytes]
  rfl

theorem spanFrame_message (hp : payload.length = 16) : (spanFrame x kind seq credit dcredit payload).length = 64 ∧
    ((spanFrame x kind seq credit dcredit payload).drop 8).take 16 = payload := by
  obtain ⟨a, b, head, tail, hhead, htail, h⟩ := spanFrame_layout x kind seq credit dcredit (payload := payload)
  have hbody : (payload ++ zeros (54 - payload.length)).take 54 = payload ++ zeros 38 := by
    rw [hp]
    exact List.take_of_length_le (by rw [List.length_append, hp]; exact le_of_eq (congrArg (16 + ·) List.length_replicate))
  have hsix : (leBytes 2 seq ++ head).length = 6 := by
    rw [List.length_append, leBytes_length, hhead]
  rw [h, hbody]
  refine ⟨?_, ?_⟩
  · simp only [List.length_cons, List.length_append, leBytes_length, hhead, htail, hp, zeros, List.length_replicate]
  · rw [List.drop_succ_cons, List.drop_succ_cons, ← List.append_assoc, List.drop_left' hsix, List.append_assoc, List.take_left' hp]

end Frame

/-- A message sent on a link with nothing before it and room for a frame goes out next. -/
theorem runSpan_frames {x : Spn} {m : List Byte} (hlink : x.linkUp = true) (hq : x.sendQ = []) (hroom : x.unacked.length < 1024)
    (hm : m.length = 16) : framesNext x (runSpan { x with sendQ := x.sendQ ++ [m] }) m := by
  have hgo : ¬(!x.linkUp || decide (x.unacked.length ≥ 1024)) = true := by
    simp [hlink, hroom]
  have hstep : runSpan { x with sendQ := x.sendQ ++ [m] } =
      spanPump (spanWork { x with sendQ := [m] }) (sendSeq { x with sendQ := [] } 2 m) := by
    rw [hq]
    exact if_neg hgo
  obtain ⟨fs, hfs⟩ := spanPump_unacked (spanWork { x with sendQ := [m] }) (sendSeq { x with sendQ := [] } 2 m)
  obtain ⟨hlen, hmsg⟩ := spanFrame_message { x with sendQ := [] } 2 x.txNext (creditField x) (min 15 x.ddrained) hm
  refine ⟨_, fs, ?_, hlen, spanFrame_seq _ _ _ _ _, hmsg⟩
  rw [hstep, hfs]
  exact List.append_assoc x.unacked _ fs

theorem sendMsg_link (s : State) (q : SpanPort) (m : List Byte) :
    getSpn (sendMsg s q m) q = runSpan { getSpn s q with sendQ := (getSpn s q).sendQ ++ [m] } := updSpn_getSpn_self s q _

/-- A message to every port of a partition reaches each once. -/
theorem sendAll_link {s : State} {q : SpanPort} {p : PartId} (m : List Byte) (h : (getSpn s q).owner = some p) :
    getSpn (sendAll s p (fun _ => true) m) q = getSpn (sendMsg s q m) q := by
  have hoff (r : SpanPort) (hr : r ≠ q) (u : State) : getSpn (sendMsg u r m) q = getSpn u q := getSpn_updSpn_off u _ hr.symm
  have hself (u : State) (hu : getSpn u q = getSpn s q) : getSpn (sendMsg u q m) q = getSpn (sendMsg s q m) q := by
    rw [sendMsg_link, sendMsg_link, hu]
  by_cases hother : (getSpn s (otherSpan q)).owner = some p
  · cases q with
    | spa =>
      have hports : spanPortsOf s p = [.spa, .spb] := by simp [spanPortsOf, h, show (getSpn s .spb).owner = some p from hother]
      rw [sendAll, hports]
      exact hoff .spb SpanPort.noConfusion _
    | spb =>
      have hports : spanPortsOf s p = [.spa, .spb] := by simp [spanPortsOf, h, show (getSpn s .spa).owner = some p from hother]
      rw [sendAll, hports]
      exact hself _ (hoff .spa SpanPort.noConfusion s)
  · have hports : spanPortsOf s p = [q] := by
      cases q with
      | spa => simp [spanPortsOf, h, show ¬(getSpn s .spb).owner = some p from hother]
      | spb => simp [spanPortsOf, h, show ¬(getSpn s .spa).owner = some p from hother]
    rw [sendAll, hports]
    rfl

section Periods

variable {s : State} {q : SpanPort} (hup : s.glb.phase = .up)
include hup

theorem exec_spanLinkUp_eq : exec (.spanLinkUp q) s = .next (if (getSpn s q).linkUp then s
    else sendMsg (updSpn s q (fun x => { clearLink x with module_ := true, linkUp := true })) q (msgHello s.glb.serial)) := exec_of_up hup

theorem exec_spanHelloPeriod_eq : exec (.spanHelloPeriod q) s =
    .next (if (getSpn s q).linkUp then sendMsg s q (msgHello s.glb.serial) else s) := exec_of_up hup

theorem exec_spanTimePeriod_eq : exec (.spanTimePeriod q) s =
    .next (if (getSpn s q).linkUp then sendMsg s q (msgTime (getSpn s q).dLocal (now s)) else s) := exec_of_up hup

theorem exec_spanReadyPeriod_of_waiting {p : PartId} {l : Load} {y : SpanRec} (hst : s.parts[p].state = .spanWait)
    (hload : s.parts[p].load = some l) (hspan : imgSpan l.image = some y) : exec (.spanReadyPeriod p) s =
      .next (sendAll s p (fun _ => true) (msgReady y.position y.units s.parts[p].span.dready y.id)) := by
  refine exec_of_up hup ((exec_spanReadyPeriod p s).trans (congrArg (whenUp s) ?_))
  rw [if_pos hst, hload, Option.bind_some, hspan]

theorem exec_spanReadyPeriod_of_else {p : PartId} (hst : s.parts[p].state ≠ .spanWait) : exec (.spanReadyPeriod p) s = .next s := by
  refine exec_of_up hup ((exec_spanReadyPeriod p s).trans (congrArg (whenUp s) ?_))
  rw [if_neg hst]

theorem exec_spanLost_eq (why : LinkLossReason) : exec (.spanLost q why) s = .next (loseLink s q (decide (why = .serialChanged))) :=
  exec_of_up hup

end Periods

/-- Settles O57. -/
theorem spanLinksComeUpSendAndAreLost : Obligations.SpanLinksComeUpSendAndAreLost := by
  intro q x s hup hx
  subst hx
  have hlink := exec_spanLinkUp_eq (q := q) hup
  have hhello := exec_spanHelloPeriod_eq (q := q) hup
  have htime := exec_spanTimePeriod_eq (q := q) hup
  refine ⟨fun hdown => ?_, fun hlinked => by rw [hlink, if_pos hlinked], fun hlinked hq hroom => ⟨?_, ?_, fun p l y hst hload hspan how => ?_⟩,
    fun hdown => by rw [hhello, htime, hdown]; exact ⟨rfl, rfl⟩, fun p hst => exec_spanReadyPeriod_of_else hup hst, fun why hdown => ?_,
    fun why hlinked hpiece => ?_, fun why p y hlinked hpiece hstate => ?_⟩
  · rw [if_neg (by rw [hdown]; exact Bool.false_ne_true)] at hlink
    have hself : getSpn (updSpn s q fun x => { clearLink x with module_ := true, linkUp := true }) q =
        { clearLink (getSpn s q) with module_ := true, linkUp := true } := updSpn_getSpn_self s q _
    have hsent := sendMsg_link (updSpn s q fun x => { clearLink x with module_ := true, linkUp := true }) q (msgHello s.glb.serial)
    have hview := (linkKept_sendMsg (updSpn s q fun x => { clearLink x with module_ := true, linkUp := true }) q (msgHello s.glb.serial)).link q
    rw [hself] at hsent hview
    refine ⟨_, hlink, exec_touch hlink, congrArg LinkView.linkUp hview, congrArg LinkView.rxNext hview, congrArg LinkView.helloAt hview, ?_⟩
    rw [hsent]
    exact runSpan_frames (x := { clearLink (getSpn s q) with module_ := true, linkUp := true }) rfl rfl (Nat.succ_pos 1023) (spanMsg_length _ _ _ _ _ _)
  · rw [if_pos hlinked] at hhello
    refine ⟨_, hhello, exec_touch hhello, ?_⟩
    rw [sendMsg_link]
    exact runSpan_frames hlinked hq hroom (spanMsg_length _ _ _ _ _ _)
  · rw [if_pos hlinked] at htime
    refine ⟨_, htime, exec_touch htime, ?_⟩
    rw [sendMsg_link]
    exact runSpan_frames hlinked hq hroom (spanMsg_length _ _ _ _ _ _)
  · have h := exec_spanReadyPeriod_of_waiting hup hst hload hspan
    refine ⟨_, h, exec_touch h, ?_⟩
    rw [sendAll_link _ how, sendMsg_link]
    exact runSpan_frames hlinked hq hroom (spanMsg_length _ _ _ _ _ _)
  · rw [exec_spanLost_eq hup, loseLink, hdown]
    rfl
  · have h := exec_spanLost_eq (q := q) hup why
    have hloss : lossOfPiece (lossReported s q (decide (why = .serialChanged))) q = lossReported s q (decide (why = .serialChanged)) := by
      rw [lossOfPiece, lossReported_piece, hpiece]
    rw [loseLink_of_up s q _ hlinked, hloss] at h
    refine ⟨_, h, lossReported_touch _ _ _, lossReported_reports _ _ _, ?_⟩
    rw [lossReported_link]
    exact ⟨rfl, rfl, rfl, rfl, lossReported_other _ _ _⟩
  · have h := exec_spanLost_eq (q := q) hup why
    have hparts := lossReported_parts s q (decide (why = .serialChanged))
    obtain ⟨hdown, hev, -⟩ := loseLink_flags s q (decide (why = .serialChanged)) hlinked
    obtain ⟨hstands, hothers⟩ := lossOfPiece_of_running ((lossReported_piece s q (decide (why = .serialChanged))).trans hpiece)
      (by rw [hparts]; exact hstate)
    rw [← loseLink_of_up s q _ hlinked] at hstands hothers
    exact ⟨_, h, hstands, hdown, hev, fun r hr => (hothers r hr).trans (by rw [hparts])⟩

end Sys2Proof.Machine
end

