-- ==== Sys2Proof/Proofs/SpanMessages.lean ====
section
/-! Messages that form and end a span: O58. -/

namespace Sys2Proof.Machine

-- One proof at a time: a default argument that is a tactic waits for every proof before it.
set_option Elab.async false

/-! ### A message's frame (R410, R414) -/

section TookMsg

variable (s : State) (q : SpanPort)

theorem tookMsg_touch : Touch [.spa, .spb] s (tookMsg s q) := (updSpn_keeps _ _ _).touch

theorem tookMsg_parts : (tookMsg s q).parts = s.parts := updSpn_parts s q _

theorem tookMsg_link : getSpn (tookMsg s q) q = { getSpn s q with rxNext := ((getSpn s q).rxNext + 1) % 65536, nak := false } :=
  updSpn_getSpn_self s q _

theorem tookMsg_other : getSpn (tookMsg s q) (otherSpan q) = getSpn s (otherSpan q) := getSpn_updSpn_off s _ (otherSpan_ne q)

theorem tookMsg_now : now (tookMsg s q) = now s := congrArg (fun b : Tbs => b.time.toNat) (updSpn_tbs s q _)

theorem tookMsg_owner (r : SpanPort) : (getSpn (tookMsg s q) r).owner = (getSpn s r).owner := by
  by_cases h : r = q
  · subst h
    rw [tookMsg_link]
  · rw [tookMsg, getSpn_updSpn_off s _ h]

theorem tookMsg_waiting : waitingPiece (tookMsg s q) q = waitingPiece s q := by
  unfold waitingPiece
  rw [tookMsg_owner, tookMsg_parts]

theorem tookMsg_running : runningPiece (tookMsg s q) q = runningPiece s q := by
  unfold runningPiece
  rw [tookMsg_owner, tookMsg_parts]

end TookMsg

theorem onLink_of_up {s : State} {q : SpanPort} {f : State → State} (hup : s.glb.phase = .up) (h : (getSpn s q).linkUp = true) :
    onLink s q f = .next (f (tookMsg s q)) := by
  rw [onLink, whenUp_of_up _ hup, if_pos h]

theorem onLink_of_down {s : State} {q : SpanPort} {f : State → State} (hup : s.glb.phase = .up) (h : (getSpn s q).linkUp = false) :
    onLink s q f = .next s := by
  rw [onLink, whenUp_of_up _ hup, if_neg (by rw [h]; exact Bool.false_ne_true)]

theorem tookMsg_pwr (s : State) (q : SpanPort) : (tookMsg s q).pwr = s.pwr := updSpn_pwr s q _

/-! ### The rendezvous (R419) -/

/-- A piece in SPAN_WAIT goes on to its release once that is due and the reservoir is charged. -/
theorem advanceLoad_of_spanWait {s : State} {p : PartId} {l : Load} (hl : s.parts[p].load = some l) (hphase : l.phase = .spanWait) :
    advanceLoad s p = if s.parts[p].span.due && s.pwr.resReady && s.parts[p].flow.lupin.isNone then beginLupin s p else s := by
  simp only [advanceLoad, hl, hphase, reduceCtorEq, decide_false, decide_true, Bool.false_and, Bool.true_and, if_false]

/-- The partition of such a piece. -/
theorem advanceLoad_spanWait_part {s : State} {p : PartId} {l : Load} (hl : s.parts[p].load = some l) (hphase : l.phase = .spanWait) :
    (advanceLoad s p).parts[p] = { s.parts[p] with flow := { s.parts[p].flow with lupin :=
      if s.parts[p].span.due = true ∧ s.pwr.resReady = true ∧ s.parts[p].flow.lupin = none then some 1 else s.parts[p].flow.lupin } } := by
  have hiff : (s.parts[p].span.due && s.pwr.resReady && s.parts[p].flow.lupin.isNone) = true ↔
      s.parts[p].span.due = true ∧ s.pwr.resReady = true ∧ s.parts[p].flow.lupin = none := by
    simp only [Bool.and_eq_true, Option.isNone_iff_eq_none, and_assoc]
  rw [advanceLoad_of_spanWait hl hphase]
  by_cases h : s.parts[p].span.due = true ∧ s.pwr.resReady = true ∧ s.parts[p].flow.lupin = none
  · rw [if_pos (hiff.mpr h), if_pos h]
    exact updPart_at s p _
  · rw [if_neg (fun hc => h (hiff.mp hc)), if_neg h]

theorem advanceLoad_spanWait_touch {s : State} {p : PartId} {l : Load} (hl : s.parts[p].load = some l) (hphase : l.phase = .spanWait) :
    Touch [.parts] s (advanceLoad s p) := by
  rw [advanceLoad_of_spanWait hl hphase]
  split
  · exact (beginLupin_keeps s p).touch
  · exact .refl _ _

theorem waitingPiece_state {s : State} {q : SpanPort} {p : PartId} {y : SpanRec} (h : waitingPiece s q = some (p, y)) :
    s.parts[p].state = .spanWait := by
  obtain ⟨r, -, hr⟩ := Option.bind_eq_some_iff.mp h
  rw [Option.ite_none_right_eq_some] at hr
  obtain ⟨hst, hmap⟩ := hr
  obtain ⟨z, -, hz⟩ := Option.map_eq_some_iff.mp hmap
  cases hz
  exact hst

/-- The piece has its DREADY, its ports not yet told. -/
def dreadySet (s : State) (p : PartId) (x : SpanRec) : State :=
  updPart s p fun y => { y with span := { dready := true, due := y.span.due || decide (x.position + 1 = x.units) } }

/-- The span state of its ports. -/
def dreadyShown (s : State) (p : PartId) (x : SpanRec) : State :=
  (spanPortsOf (dreadySet s p x) p).foldl (fun s q => updSpn s q (fun y => { y with span := 2 })) (dreadySet s p x)

theorem setDready_eq (s : State) (p : PartId) (x : SpanRec) : setDready s p x = advanceLoad (dreadyShown s p x) p := rfl

theorem dreadyShown_touch (s : State) (p : PartId) (x : SpanRec) : Touch [.spa, .spb] (dreadySet s p x) (dreadyShown s p x) :=
  Touch.foldl (m := [.spa, .spb]) (s0 := dreadySet s p x) _ (fun t a k => k.step (updSpn_keeps t a _).touch (by decide)) _ _ (.refl _ _)

theorem dreadyShown_part (s : State) (p : PartId) (x : SpanRec) : (dreadyShown s p x).parts[p] =
    { s.parts[p] with span := { dready := true, due := s.parts[p].span.due || decide (x.position + 1 = x.units) } } := by
  rw [(dreadyShown_touch s p x).parts_eq]
  exact updPart_at s p _

theorem readyMatches_iff (x : SpanRec) (q : SpanPort) (position units : Nat) (id : BitVec 64) : readyMatches x q position units id = true ↔
    id = x.id ∧ units = x.units ∧ position + (if q = .spa then 1 else 0) = x.position + (if q = .spb then 1 else 0) := by
  cases q <;> simp [readyMatches, and_assoc]

theorem setsDready_iff (x : SpanRec) (q : SpanPort) (d : Bool) : setsDready x q d = true ↔
    if q = .spa then 0 < x.position ∧ d = true else x.position = 0 := by
  cases q <;> simp [setsDready]

/-- GO has reached a piece: SPB has its credits and the release is due. -/
def goGranted (s : State) (p : PartId) : State :=
  updPart (updSpn s .spb goCredits) p (fun y => { y with span := { y.span with due := true } })

theorem goGranted_part (s : State) (p : PartId) : (goGranted s p).parts[p] = { s.parts[p] with span := { s.parts[p].span with due := true } } := by
  rw [goGranted, updPart_at, updSpn_parts]

theorem goGranted_touch (s : State) (p : PartId) : Touch [.parts, .spa, .spb] s (goGranted s p) :=
  ((updSpn_keeps s .spb goCredits).touch.mono (by decide)).step (updPart_keeps _ _ _).touch (by decide)

/-! ### The commands, on a link that is up -/

section Messages

variable {s : State} {q : SpanPort} {p : PartId} {y : SpanRec} (hup : s.glb.phase = .up) (hlink : (getSpn s q).linkUp = true)
include hup hlink

/-- HELLO on a link that knows its peer to be this one, or none. -/
theorem exec_hello_of_peer {n : BitVec 64} (h : (getSpn s q).helloAt = none ∨ (getSpn s q).peer = some n) : exec (.hello q n) s =
    .next (updSpn (tookMsg s q) q fun x => { x with helloAt := some (now (tookMsg s q)), peer := some n }) := by
  rw [exec_hello, execHello, onLink_of_up hup hlink]
  refine congrArg _ (if_neg ?_)
  rw [tookMsg_link]
  rcases h with h | h <;> simp [h]

theorem exec_hello_of_other {n : BitVec 64} (hknown : (getSpn s q).helloAt.isSome = true) (hne : (getSpn s q).peer ≠ some n) :
    exec (.hello q n) s = .next (loseLink (tookMsg s q) q true) := by
  rw [exec_hello, execHello, onLink_of_up hup hlink]
  refine congrArg _ (if_pos ?_)
  rw [tookMsg_link]
  simp [hknown, hne]

theorem exec_time_eq (d : Int) (n : Nat) : exec (.time q d n) s = .next (updSpn (tookMsg s q) q (takeTime (now s) d n)) := by
  rw [exec_time, execTime, onLink_of_up hup hlink, tookMsg_now]

theorem exec_ready_of_match {pos un : Nat} {d : Bool} {i : BitVec 64} (hw : waitingPiece s q = some (p, y))
    (hmatch : readyMatches y q pos un i = true) (hsets : setsDready y q d = true) (hnot : s.parts[p].span.dready = false) :
    exec (.ready q pos un d i) s = .next (setDready (tookMsg s q) p y) := by
  rw [exec_ready, execReady, onLink_of_up hup hlink, tookMsg_waiting, hw]
  exact congrArg _ (if_pos (by rw [hmatch, hsets, tookMsg_parts, hnot]; rfl))

theorem exec_abort_eq (cause : Nat) (i : BitVec 64) (hpiece : runningPiece s q = some (p, y)) : exec (.abort q cause i) s = .next
    (if i = y.id ∧ s.parts[p].state = .running then
      faultEntry (sendAll (tookMsg s q) p (fun r => decide (r ≠ q)) (msgAbort cause y.id)) p .faultSpan cSpanAbort 0
    else tookMsg s q) := by
  rw [exec_abort, execAbort, onLink_of_up hup hlink, tookMsg_running, hpiece, tookMsg_parts]

theorem exec_leave_eq (i : BitVec 64) (hpiece : runningPiece s q = some (p, y)) : exec (.leave q i) s = .next
    (if i = y.id ∧ s.parts[p].state = .running then
      beginDrain (sendAll (tookMsg s q) p (fun r => decide (r ≠ q)) (msgLeave y.id)) p .peerLeft
    else tookMsg s q) := by
  rw [exec_leave, execLeave, onLink_of_up hup hlink, tookMsg_running, hpiece, tookMsg_parts]

end Messages

theorem exec_go_of_waiting {s : State} {p : PartId} {y : SpanRec} (hup : s.glb.phase = .up) (hlink : (getSpn s .spb).linkUp = true)
    (hw : waitingPiece s .spb = some (p, y)) (hdue : s.parts[p].span.due = false) :
    exec (.go .spb y.id) s = .next (advanceLoad (goGranted (tookMsg s .spb) p) p) := by
  rw [exec_go, execGo, onLink_of_up hup hlink, tookMsg_waiting, hw]
  exact congrArg _ (if_pos (by rw [tookMsg_parts, hdue, decide_eq_true rfl]; rfl))

/-- Settles O58. -/
theorem spanMessagesFormAndEndASpan : Obligations.SpanMessagesFormAndEndASpan := by
  intro q x s hup hx
  subst hx
  refine ⟨fun hdown c hc => ?_, fun hlink => ⟨fun n hpeer => ?_, fun n hknown hne => ?_, fun d n => ?_,
    fun p y l pos un d i due hw hl hphase hi hun hpos hd hnot hdue => ?_, fun p y l hq hw hl hphase hdue => ?_, fun p y hpiece hst => ⟨fun cause => ?_, ?_⟩,
    fun p y i hpiece hno c hc => ?_⟩⟩
  · rcases hc with ⟨n, rfl⟩ | ⟨a, b, d, i, rfl⟩ | ⟨i, rfl⟩ | ⟨a, i, rfl⟩ | ⟨i, rfl⟩ | ⟨d, n, rfl⟩
    · exact (exec_hello q n s).trans (onLink_of_down hup hdown)
    · exact (exec_ready q a b d i s).trans (onLink_of_down hup hdown)
    · exact (exec_go q i s).trans (onLink_of_down hup hdown)
    · exact (exec_abort q a i s).trans (onLink_of_down hup hdown)
    · exact (exec_leave q i s).trans (onLink_of_down hup hdown)
    · exact (exec_time q d n s).trans (onLink_of_down hup hdown)
  · have h := exec_hello_of_peer hup hlink hpeer
    refine ⟨_, h, (tookMsg_touch s q).trans (updSpn_keeps _ _ _).touch, ?_⟩
    rw [updSpn_getSpn_self, tookMsg_link, tookMsg_now]
    exact ⟨rfl, rfl, hlink⟩
  · have hlink' : (getSpn (tookMsg s q) q).linkUp = true := by
      rw [tookMsg_link]
      exact hlink
    obtain ⟨h1, h2, h3⟩ := loseLink_flags (tookMsg s q) q true hlink'
    exact ⟨_, exec_hello_of_other hup hlink hknown hne, h1, h2, h3.trans (Bool.or_true _)⟩
  · refine ⟨_, exec_time_eq hup hlink d n, (tookMsg_touch s q).trans (updSpn_keeps _ _ _).touch, ?_⟩
    rw [updSpn_getSpn_self, tookMsg_link]
    exact ⟨rfl, rfl⟩
  · have h := exec_ready_of_match hup hlink (d := d) hw ((readyMatches_iff _ _ _ _ _).mpr ⟨hi, hun, hpos⟩) ((setsDready_iff _ _ _).mpr hd) hnot
    have hpart := dreadyShown_part (tookMsg s q) p y
    rw [tookMsg_parts, ← hdue] at hpart
    have hload : (dreadyShown (tookMsg s q) p y).parts[p].load = some l := by
      rw [hpart]
      exact hl
    have hpwr : (dreadyShown (tookMsg s q) p y).pwr = s.pwr :=
      (dreadyShown_touch _ _ _).pwr_eq.trans ((updPart_keeps _ _ _).touch.pwr_eq.trans (tookMsg_pwr s q))
    have hafter := advanceLoad_spanWait_part hload hphase
    rw [hpart, hpwr] at hafter
    rw [setDready_eq] at h
    refine ⟨_, h, ?_, ?_⟩
    · exact ((((tookMsg_touch s q).mono (by decide)).step (updPart_keeps _ _ _).touch (by decide)).step (dreadyShown_touch _ _ _)
        (by decide)).step (advanceLoad_spanWait_touch hload hphase) (by decide)
    · rw [hafter]
      exact ⟨rfl, waitingPiece_state hw, rfl⟩
  · subst hq
    have h := exec_go_of_waiting hup hlink hw hdue
    have hpart := goGranted_part (tookMsg s .spb) p
    rw [tookMsg_parts] at hpart
    have hload : (goGranted (tookMsg s .spb) p).parts[p].load = some l := by
      rw [hpart]
      exact hl
    have hpwr : (goGranted (tookMsg s .spb) p).pwr = s.pwr := (goGranted_touch _ _).pwr_eq.trans (tookMsg_pwr s .spb)
    have hafter := advanceLoad_spanWait_part hload hphase
    rw [hpart, hpwr] at hafter
    have htouch := advanceLoad_spanWait_touch hload hphase
    refine ⟨_, h, ((tookMsg_touch s .spb).mono (by decide)).trans ((goGranted_touch _ _).step htouch (by decide)), ?_⟩
    rw [hafter, htouch.spb_eq]
    exact ⟨rfl, rfl, rfl, fun hres hlupin => if_pos ⟨rfl, hres, hlupin⟩⟩
  · have h := exec_abort_eq hup hlink cause y.id hpiece
    rw [if_pos ⟨rfl, hst⟩] at h
    have hparts := (sendAll_parts (tookMsg s q) p (fun r => decide (r ≠ q)) (msgAbort cause y.id)).trans (tookMsg_parts s q)
    refine ⟨_, h, faultEntry_stands _ _ _ _ _ (by rw [hparts, hst]; rfl), fun r hr => ?_⟩
    rw [((faultEntry_keeps _ _ _ _ _).others r (List.not_mem_cons_of_ne_of_not_mem hr List.not_mem_nil)).1, hparts]
  · have h := exec_leave_eq hup hlink y.id hpiece
    rw [if_pos ⟨rfl, hst⟩] at h
    have hparts := (sendAll_parts (tookMsg s q) p (fun r => decide (r ≠ q)) (msgLeave y.id)).trans (tookMsg_parts s q)
    refine ⟨_, h, ?_, beginDrain_drains _ _ _, fun r hr => ?_⟩
    · exact (((tookMsg_touch s q).mono (by decide)).step (sendAll_keeps _ _ _ _).touch (by decide)).trans (beginDrain_keeps _ _ _).touch
    · rw [((beginDrain_keeps _ _ _).others r (List.not_mem_cons_of_ne_of_not_mem hr List.not_mem_nil)).1, hparts]
  · have hstay : ¬(i = y.id ∧ s.parts[p].state = .running) := fun ⟨h1, h2⟩ => hno.elim (fun h => h h1) (fun h => h h2)
    have hc' : exec c s = .next (tookMsg s q) := by
      rcases hc with ⟨cause, rfl⟩ | rfl
      · rw [exec_abort_eq hup hlink cause i hpiece, if_neg hstay]
      · rw [exec_leave_eq hup hlink i hpiece, if_neg hstay]
    refine ⟨_, hc', tookMsg_touch s q, ?_, tookMsg_other s q⟩
    rw [tookMsg_link]

end Sys2Proof.Machine
end

