-- ==== Sys2Proof/Proofs/Restarts.lean ====
section
/-! Trial slots, the watchdog and the restart of the unit: O13. -/

namespace Sys2Proof.Machine

-- One proof at a time: a default argument that is a tactic waits for every proof before it.
set_option Elab.async false

/-! ### A restart -/

theorem restartUnit_waferShed (u : State) : waferShed (restartUnit u) :=
  ⟨fun r => by simp [restartUnit, shedWafer, updRegions, updPins], rfl, rfl⟩

theorem restartUnit_pins {s u : State} (h : u.pins = s.pins) : claimedPinsFailSafe s (restartUnit u) := by
  intro n
  rw [← h]
  simp [restartUnit, shedWafer, updRegions, updPins]

/-! ### A firmware slot after a change of one -/

theorem fwSlot_updSlot_same (s : State) (b : Bool) (f : FwSlot → FwSlot) : fwSlot (updSlot s b f) b = f (fwSlot s b) := by
  cases b <;> rfl

theorem fwSlot_updSlot_not (s : State) (b : Bool) (f : FwSlot → FwSlot) : fwSlot (updSlot s b f) (!b) = fwSlot s (!b) := by
  cases b <;> rfl

theorem fwSlot_congr {s t : State} (ha : t.sup.slotA = s.sup.slotA) (hb : t.sup.slotB = s.sup.slotB) (b : Bool) : fwSlot t b = fwSlot s b := by
  rw [fwSlot, fwSlot, ha, hb]

theorem restartUnit_sup (u : State) : (restartUnit u).sup = { u.sup with activating := false } := rfl

theorem fwSlot_restartUnit (u : State) (b : Bool) : fwSlot (restartUnit u) b = fwSlot u b := fwSlot_congr rfl rfl b

/-! ### The booted slot's trial (R292) -/

section Trial

variable (s : State) (b : Bool)

theorem passTrial_booted : fwSlot (passTrial s b) b = { fwSlot s b with state := .active } := by
  cases b <;> rfl

theorem passTrial_other : fwSlot (passTrial s b) (!b) = (if (fwSlot s (!b)).state = .active then { fwSlot s (!b) with state := .previous }
    else fwSlot s (!b)) := by
  cases b <;> rfl

/-- A slot whose trial has failed. -/
def failedTrial : State := updSlot s b (fun f => { f with state := .failed })

theorem failedTrial_booted : fwSlot (failedTrial s b) b = { fwSlot s b with state := .failed } := fwSlot_updSlot_same _ _ _

theorem failedTrial_other : fwSlot (failedTrial s b) (!b) = fwSlot s (!b) := fwSlot_updSlot_not _ _ _

end Trial

section Judged

variable {s : State} {a b : Bool} (hup : s.glb.phase = .up) (ht : (fwSlot s s.sup.bootedB).state = .trial)
include hup ht

theorem exec_healthCheck_of_pass (h : failedCheck s a b = none) : exec (.healthCheck a b) s = .next (passTrial s s.sup.bootedB) := by
  refine (exec_of_up hup ((exec_healthCheck a b s).trans (congrArg (whenUp s) ?_)))
  rw [if_pos ht, h]

theorem exec_healthCheck_of_fail {k : Nat} (h : failedCheck s a b = some k) : exec (.healthCheck a b) s =
    .next (restartUnit (logIrq (failedTrial s s.sup.bootedB) 0x0003 0 k 0 false 0)) := by
  refine (exec_of_up hup ((exec_healthCheck a b s).trans (congrArg (whenUp s) ?_)))
  rw [if_pos ht, h]
  rfl

end Judged

/-! ### WATCHDOG (R454) -/

/-- The state that the watchdog restarts. -/
def barked (s : State) : State :=
  let s1 := if (fwSlot s s.sup.bootedB).state = .trial then failedTrial s s.sup.bootedB else s
  { s1 with sup := { s1.sup with
    watchdogCount := if 3600000000000 ≤ now s then 1 else s1.sup.watchdogCount + 1
    watchdogRun := some (s.glb.powerOn, now s), revertCheck := if decide ((fwSlot s s.sup.bootedB).state = .trial) then some 5 else none } }

theorem exec_watchdog_eq {s : State} (hup : s.glb.phase = .up) : exec .watchdog s = .next (restartUnit (barked s)) := by
  refine exec_of_up hup ((exec_watchdog s).trans (congrArg (whenUp s) (congrArg restartUnit ?_)))
  simp only [barked, failedTrial, decide_eq_true_eq]

theorem barked_touch (s : State) : Touch [.sup] s (barked s) := by
  unfold barked failedTrial
  split
  · exact .lit
  · exact .lit

theorem barked_booted (s : State) : fwSlot (barked s) s.sup.bootedB = (if (fwSlot s s.sup.bootedB).state = .trial
    then { fwSlot s s.sup.bootedB with state := .failed } else fwSlot s s.sup.bootedB) := by
  unfold barked
  split
  · exact (fwSlot_congr (s := failedTrial s s.sup.bootedB) rfl rfl _).trans (failedTrial_booted s _)
  · rfl

theorem barked_other (s : State) : fwSlot (barked s) (!s.sup.bootedB) = fwSlot s (!s.sup.bootedB) := by
  unfold barked
  split
  · exact (fwSlot_congr (s := failedTrial s s.sup.bootedB) rfl rfl _).trans (failedTrial_other s _)
  · rfl

theorem barked_count (s : State) : (barked s).sup.watchdogCount = if now s < 3600000000000 then s.sup.watchdogCount + 1 else 1 := by
  have hsame : (barked s).sup.watchdogCount = if 3600000000000 ≤ now s then 1 else s.sup.watchdogCount + 1 := by
    unfold barked
    split <;> rfl
  rw [hsame]
  split <;> split <;> omega

/-- Settles O13. -/
theorem trialSlotsAreJudgedAndWatchdogSheds : Obligations.TrialSlotsAreJudgedAndWatchdogSheds := by
  refine ⟨fun a b s hup ht => ⟨fun hpass => ?_, fun k hfail => ?_⟩, fun s hup => ?_⟩
  · have h := exec_healthCheck_of_pass hup ht hpass
    exact ⟨_, h, (passTrial_keeps _ _).touch, rfl, rfl, rfl, passTrial_booted _ _, passTrial_other _ _⟩
  · have hlog : Touch [.signals, .flt] (failedTrial s s.sup.bootedB) (logIrq (failedTrial s s.sup.bootedB) 0x0003 0 k 0 false 0) :=
      (logIrq_keeps _ _ _ _ _ _ _).touch
    have hslot : ∀ c, fwSlot (restartUnit (logIrq (failedTrial s s.sup.bootedB) 0x0003 0 k 0 false 0)) c = fwSlot (failedTrial s s.sup.bootedB) c :=
      fun c => (fwSlot_restartUnit _ c).trans (fwSlot_congr (congrArg Sup.slotA hlog.sup_eq) (congrArg Sup.slotB hlog.sup_eq) c)
    exact ⟨_, exec_healthCheck_of_fail hup ht hfail, rfl, rfl, rfl, (hslot _).trans (failedTrial_booted s _),
      (hslot _).trans (failedTrial_other s _), logEvent_flt_congr (s := s) (u := failedTrial s s.sup.bootedB) rfl rfl rfl 0x0003 0 k 0 false,
      restartUnit_waferShed _, restartUnit_pins hlog.pins_eq⟩
  · have hk := barked_touch s
    have hr := (restartUnit_keeps (barked s)).touch
    refine ⟨_, exec_watchdog_eq hup, rfl, restartUnit_waferShed _, restartUnit_pins hk.pins_eq, hr.nv_eq.trans hk.nv_eq,
      hr.bays_eq.trans hk.bays_eq, hr.flt_whole.trans hk.flt_whole, ?_, (congrArg Sup.watchdogCount (restartUnit_sup _)).trans (barked_count s),
      (fwSlot_restartUnit _ _).trans (barked_booted s), (fwSlot_restartUnit _ _).trans (barked_other s)⟩
    exact congrArg Sup.watchdogRun (restartUnit_sup (barked s))

end Sys2Proof.Machine
end

