-- ==== Sys2Proof/Proofs/UnitPowerUp.lean ====
section
/-! The power-up of the unit: O12. -/

namespace Sys2Proof.Machine

-- One proof at a time: a default argument that is a tactic waits for every proof before it.
set_option Elab.async false

/-! ### The steps of a power-up (R289) -/

/-- Steps 1 and 2: the slot has booted. -/
def bootedAs (e : PowerUp) (s : State) (b : Bool) : State :=
  { bootState s e with sup := { (bootState s e).sup with bootedB := b } }

/-- Steps 3 to 7. -/
def bootWhole (e : PowerUp) (u : State) : State := bootService (bootWafer (bootLock (bootLog u)) e)

/-- The occupied bays, then step 8. -/
def bootBays (e : PowerUp) (u : State) : State := allBays.foldl (bootLoad e) (allBays.foldl (bootBay e) u)

theorem exec_unitPowerUp_of_slot {e : PowerUp} {s : State} {b : Bool} (hup : s.glb.phase ≠ .up) (hb : slotToBoot s = some b)
    (hok : e.fwOk = true) : exec (.unitPowerUp e) s = .next (bootBays e (bootWhole e (bootedAs e s b))) := by
  have hslot : slotToBoot (bootState s e) = some b := hb
  have hboot : bootSlot (bootState s e) e.fwOk = (bootState s e, some b) := by
    rw [bootSlot, hslot, hok]
    rfl
  rw [exec_unitPowerUp, execUnitPowerUp, if_neg (by simpa [isUp] using hup)]
  dsimp only
  rw [hboot]
  rfl

theorem exec_unitPowerUp_of_none {e : PowerUp} {s : State} (hup : s.glb.phase ≠ .up) (hb : slotToBoot s = none) :
    exec (.unitPowerUp e) s = .next { bootState s e with glb := { (bootState s e).glb with phase := .off, bar0 := false, linkUp := false } } := by
  have hslot : slotToBoot (bootState s e) = none := hb
  have hboot : bootSlot (bootState s e) e.fwOk = (bootState s e, none) := by
    rw [bootSlot, hslot]
  rw [exec_unitPowerUp, execUnitPowerUp, if_neg (by simpa [isUp] using hup)]
  dsimp only
  rw [hboot]

/-! ### What the later steps leave standing -/

/-- The bays change neither the unit's own registers nor its supervisor, timebase, power policy and encoders. -/
theorem bootBays_touch (e : PowerUp) (u : State) : Touch [.signals, .nv, .wafer, .regions, .parts, .bays, .imgs, .snds, .pins, .exps, .arbLast,
    .spa, .spb, .flt, .tiles, .mem] u (bootBays e u) :=
  Touch.foldl _ (fun _ _ h => h.step (bootLoad_keeps _ _ _).touch (by decide)) _ _
    (Touch.foldl _ (fun _ _ h => h.step (bootBay_keeps _ _ _).touch (by decide)) _ _ (.refl _ _))

theorem foldl_eq_self {α β : Type} (f : α → β → α) (hf : ∀ a b, f a b = a) : ∀ (l : List β) (a : α), l.foldl f a = a
  | [], _ => rfl
  | b :: l, a => (congrArg (l.foldl f) (hf a b)).trans (foldl_eq_self f hf l a)

theorem bootBay_of_no_bays {e : PowerUp} (h : e.bays = []) (s : State) (b : BayId) : bootBay e s b = s := by
  rw [bootBay, h]
  rfl

theorem bootLoad_of_no_bays {e : PowerUp} (h : e.bays = []) (s : State) (b : BayId) : bootLoad e s b = s := by
  rw [bootLoad, h]
  rfl

theorem bootBays_of_no_bays {e : PowerUp} (h : e.bays = []) (u : State) : bootBays e u = u :=
  (foldl_eq_self (bootLoad e) (bootLoad_of_no_bays h) _ _).trans (foldl_eq_self (bootBay e) (bootBay_of_no_bays h) _ _)

theorem logIrq_quiet (s : State) (code i d0 d1 : Nat) (x : Bool) (v : Fin 32) (hv : v.val < 22 := by decide) :
    (logIrq s code i d0 d1 x v).glb.quiet = s.glb.quiet :=
  (logIrq_keeps s code i d0 d1 x v hv).touch.glb_eq (by decide)

/-- Service-only mode of a third watchdog restart (R454). -/
def watchdogService (s : State) : State :=
  if 3 ≤ s.sup.watchdogCount then logIrq { s with glb := { s.glb with serviceOnly := true } } 0x0002 0 0 0 false 0 else s

theorem watchdogService_quiet (s : State) : ∃ b, (watchdogService s).glb.quiet = { s.glb.quiet with serviceOnly := b } := by
  unfold watchdogService
  split
  · exact ⟨true, logIrq_quiet _ _ _ _ _ _ 0⟩
  · exact ⟨_, rfl⟩

theorem bootService_eq (s : State) : bootService s = if (bootedSlot s).state = .trial then s
    else if microAgree s && microTested s then watchdogService s
    else logIrq { watchdogService s with glb := { (watchdogService s).glb with serviceOnly := true } } 0x0004 0 (glbEpochs s) 0 false 0 := rfl

theorem bootService_quiet (s : State) : ∃ b, (bootService s).glb.quiet = { s.glb.quiet with serviceOnly := b } := by
  rw [bootService_eq]
  split
  · exact ⟨_, rfl⟩
  · obtain ⟨b, hb⟩ := watchdogService_quiet s
    split
    · exact ⟨b, hb⟩
    · exact ⟨true, (logIrq_quiet _ _ _ _ _ _ 0).trans (congrArg (fun g : Glb => { g with serviceOnly := true }) hb)⟩

/-- The log with the watchdog's entry in it (R454). -/
def watchdogLogged (s : State) : State :=
  match s.sup.watchdogRun with
  | none => s
  | some (run, t) => { s with flt := { s.flt with
      entries := ({ seq := s.flt.nextSeq, powerOn := run, time := t, code := 0x0001 } :: s.flt.entries).take 4096
      nextSeq := s.flt.nextSeq + 1 } }

/-- The log with the failed trial's entry in it (R292). -/
def revertLogged (s : State) : State :=
  match s.sup.revertCheck with
  | none => watchdogLogged s
  | some k => logEvent (watchdogLogged s) 0x0003 0 k 0 false

/-- The log with the weak reservoir's entry in it (R455). -/
def riskLogged (s : State) : State := if s.pwr.saveAtRisk then logEvent (revertLogged s) 0x0008 0 s.pwr.resC 0 false else revertLogged s

theorem bootLog_eq (s : State) :
    bootLog s = { riskLogged s with sup := { (riskLogged s).sup with watchdogRun := none, revertCheck := none } } := rfl

theorem riskLogged_sup (s : State) : (riskLogged s).sup = s.sup := by
  have hwatch : (watchdogLogged s).sup = s.sup := by
    unfold watchdogLogged
    split <;> rfl
  have hrevert : (revertLogged s).sup = s.sup := by
    unfold revertLogged
    split
    · exact hwatch
    · exact (logEvent_keeps _ _ _ _ _ _).touch.sup_eq.trans hwatch
  unfold riskLogged
  split
  · exact (logEvent_keeps _ _ _ _ _ _).touch.sup_eq.trans hrevert
  · exact hrevert

theorem bootLog_slots (s : State) : (bootLog s).sup.slotA = s.sup.slotA ∧ (bootLog s).sup.slotB = s.sup.slotB ∧
    (bootLog s).sup.bootedB = s.sup.bootedB := by
  rw [bootLog_eq]
  exact ⟨(congrArg Sup.slotA (riskLogged_sup s) :), (congrArg Sup.slotB (riskLogged_sup s) :), (congrArg Sup.bootedB (riskLogged_sup s) :)⟩

section Whole

variable (e : PowerUp) (u : State)

theorem bootWhole_after_lock : Touch [.glb, .signals, .wafer, .regions, .flt] (bootLock (bootLog u)) (bootWhole e u) :=
  ((bootWafer_keeps _ _).touch.mono (by decide)).step (bootService_keeps _).touch (by decide)

/-- The power-up changes the register file only by service-only mode and the signals. -/
theorem bootWhole_glb : ∃ b, (bootWhole e u).glb.quiet = { u.glb.quiet with serviceOnly := b } := by
  obtain ⟨b, hb⟩ := bootService_quiet (bootWafer (bootLock (bootLog u)) e)
  have hw : (bootWafer (bootLock (bootLog u)) e).glb.quiet = (bootLock (bootLog u)).glb.quiet := (bootWafer_keeps _ _).touch.glb_eq (by decide)
  have hl : (bootLock (bootLog u)).glb.quiet = u.glb.quiet :=
    ((bootLock_keeps _).touch.glb_eq (by decide)).trans ((bootLog_keeps u).touch.glb_eq (by decide))
  exact ⟨b, by rw [bootWhole, hb, hw, hl]⟩

theorem bootWhole_slots : (bootWhole e u).sup.slotA = u.sup.slotA ∧ (bootWhole e u).sup.slotB = u.sup.slotB ∧
    (bootWhole e u).sup.bootedB = u.sup.bootedB := by
  have hsup : (bootWhole e u).sup = (bootLog u).sup := (bootWhole_after_lock e u).sup_eq
  rw [hsup]
  exact bootLog_slots u

theorem bootWhole_tbs : (bootWhole e u).tbs = { locked := true, refPresent := true, everLocked := true } :=
  (bootWhole_after_lock e u).tbs_eq

theorem bootLocked_touch : Touch [.sup, .flt, .tbs] u (bootLock (bootLog u)) :=
  ((bootLog_keeps u).touch.mono (by decide)).step (bootLock_keeps _).touch (by decide)

theorem bootWhole_touch : Touch [.glb, .signals, .wafer, .regions, .flt, .sup, .tbs] u (bootWhole e u) :=
  ((bootLocked_touch u).mono (by decide)).step (bootWhole_after_lock e u) (by decide)

end Whole

/-! ### The unit after a power-up -/

theorem bootState_enc (s : State) (e : PowerUp) (k : EncId) : (bootState s e).encs[k] = { invert := s.encs[k].invert, div := s.encs[k].div } := by
  simp [bootState]

theorem bootState_part (s : State) (e : PowerUp) (p : PartId) :
    (bootState s e).parts[p] = { regs := { prio := s.pwr.force.prio[p], margin := s.pwr.force.margin[p] } } := by
  simp [bootState]

theorem bootState_pin (s : State) (e : PowerUp) (n : PinId) : (bootState s e).pins[n] = bootPin s.pins[n] := by
  simp [bootState]

section Booted

variable (e : PowerUp) (s : State) (b : Bool)

/-- The unit that has booted slot `b`. -/
def booted : State := bootBays e (bootWhole e (bootedAs e s b))

/-- The register file has what the host link trained to. -/
theorem booted_glb : ∃ so, (booted e s b).glb.quiet = { (bootState s e).glb.quiet with serviceOnly := so } := by
  obtain ⟨so, hso⟩ := bootWhole_glb e (bootedAs e s b)
  exact ⟨so, ((bootBays_touch e _).glb_eq (by decide)).trans hso⟩

theorem booted_slots : (booted e s b).sup.slotA = s.sup.slotA ∧ (booted e s b).sup.slotB = s.sup.slotB ∧ (booted e s b).sup.bootedB = b := by
  have hsup : (booted e s b).sup = (bootWhole e (bootedAs e s b)).sup := (bootBays_touch e _).sup_eq
  rw [hsup]
  exact bootWhole_slots e (bootedAs e s b)

theorem booted_tbs : (booted e s b).tbs = { locked := true, refPresent := true, everLocked := true } :=
  (bootBays_touch e _).tbs_eq.trans (bootWhole_tbs e _)

theorem booted_pwr : (booted e s b).pwr = (bootState s e).pwr := (bootBays_touch e _).pwr_eq.trans (bootWhole_touch e (bootedAs e s b)).pwr_eq

theorem booted_encs : (booted e s b).encs = (bootState s e).encs :=
  (bootBays_touch e _).encs_eq.trans (bootWhole_touch e (bootedAs e s b)).encs_eq

theorem booted_pending : (booted e s b).pending = s.pending :=
  (bootBays_touch e _).pending_eq.trans (bootWhole_touch e (bootedAs e s b)).pending_eq

variable {e}

theorem booted_parts_of_no_bays (h : e.bays = []) : (booted e s b).parts = (bootState s e).parts := by
  rw [booted, bootBays_of_no_bays h]
  exact (bootWhole_touch e (bootedAs e s b)).parts_eq

theorem booted_pins_of_no_bays (h : e.bays = []) : (booted e s b).pins = (bootState s e).pins := by
  rw [booted, bootBays_of_no_bays h]
  exact (bootWhole_touch e (bootedAs e s b)).pins_eq

end Booted

/-- Settles O12. -/
theorem powerUpBringsTheUnitUp : Obligations.PowerUpBringsTheUnitUp := by
  intro e s hup
  refine ⟨fun b hb hok => ⟨booted e s b, exec_unitPowerUp_of_slot hup hb hok, ?_⟩, fun hb => ⟨_, exec_unitPowerUp_of_none hup hb, rfl, rfl⟩⟩
  obtain ⟨so, hglb⟩ := booted_glb e s b
  obtain ⟨hA, hB, hbooted⟩ := booted_slots e s b
  have htbs := booted_tbs e s b
  have hpwr := booted_pwr e s b
  refine ⟨(congrArg Glb.phase hglb :), (congrArg Glb.bar0 hglb :), (congrArg Glb.powerOn hglb :), (congrArg Glb.serial hglb :),
    (congrArg Glb.linkUp hglb :), (congrArg Glb.linkWidth hglb :), (congrArg Glb.linkGen hglb :), hbooted, hA, hB,
    (congrArg Tbs.locked htbs :), (congrArg Tbs.everLocked htbs :), (congrArg Pwr.force hpwr :), (congrArg Pwr.cap hpwr :),
    (congrArg Pwr.binding hpwr :), fun k => ?_, booted_pending e s b, fun hno p => ?_, fun hno n => ?_⟩
  · rw [booted_encs, bootState_enc]
  · rw [booted_parts_of_no_bays s b hno, bootState_part]
    exact ⟨rfl, rfl, rfl⟩
  · rw [booted_pins_of_no_bays s b hno, bootState_pin]
    exact ⟨rfl, rfl⟩

end Sys2Proof.Machine
end

