-- ==== Sys2Proof/Proofs/StallDetector.lean ====
section
/-! The stall detector, its spills and sheds, and the datapath samples: O18. -/

namespace Sys2Proof.Machine

-- One proof at a time: a default argument that is a tactic waits for every proof before it.
set_option Elab.async false

/-! ### Lists changed at one place -/

theorem modAt_eq_modify {α : Type} (f : α → α) : ∀ (n : Nat) (l : List α), modAt f n l = l.modify n f
  | n, [] => by cases n <;> rfl
  | 0, _ :: _ => (List.modify_zero_cons ..).symm
  | n + 1, x :: xs => (congrArg (x :: ·) (modAt_eq_modify f n xs)).trans (List.modify_succ_cons ..).symm

theorem getElem?_modAt_self {α : Type} (f : α → α) (n : Nat) (l : List α) : (modAt f n l)[n]? = l[n]?.map f := by
  rw [modAt_eq_modify, List.getElem?_modify_eq, Option.map_eq_map]

theorem getElem?_of_getD_some {α : Type} {l : List (Option α)} {n : Nat} {a : α} (h : l.getD n none = some a) : l[n]? = some (some a) := by
  rw [List.getD_eq_getElem?_getD] at h
  cases hl : l[n]? with
  | none =>
    rw [hl] at h
    cases h
  | some v =>
    rw [hl] at h
    exact congrArg some h

theorem updFabric_part (s : State) (p : PartId) (f : Fabric → Fabric) :
    (updFabric s p f).parts[p] = { s.parts[p] with fabric := f s.parts[p].fabric } := updPart_at s p _

theorem updFabric_off (s : State) {p q : PartId} (f : Fabric → Fabric) (h : q ≠ p) : (updFabric s p f).parts[q] = s.parts[q] :=
  updPart_off s _ h

/-! ### Timers -/

/-- The timers after a tick, of the cycles `cs` at the time `at0`. -/
def tickedTimers (s : State) (p : PartId) (cs : List CycleRec) (old : List (Option Nat)) : List (Option Nat) :=
  (List.range cs.length).map (fun n =>
    match cs[n]? with
    | some c => if cycleBlocked s p c then some ((old.getD n none).getD (now s)) else none
    | none => none)

theorem tickedTimers_at {s : State} {p : PartId} {cs : List CycleRec} {old : List (Option Nat)} {n : Nat} {c : CycleRec} (h : cs[n]? = some c) :
    (tickedTimers s p cs old)[n]? = some (if cycleBlocked s p c then some ((old.getD n none).getD (now s)) else none) := by
  have hn : n < cs.length := (List.getElem?_eq_some_iff.mp h).1
  rw [tickedTimers, List.getElem?_map, List.getElem?_range hn, Option.map_some, h]

/-- The timer of cycle `n` set to `v`. -/
def setTimer (n : Nat) (v : Option Nat) (f : Fabric) : Fabric := { f with timers := modAt (fun _ => v) n f.timers }

theorem setTimer_at {n start : Nat} {v : Option Nat} {f : Fabric} (h : f.timers.getD n none = some start) :
    (setTimer n v f).timers[n]? = some v :=
  (getElem?_modAt_self _ _ _).trans (congrArg (Option.map fun _ => v) (getElem?_of_getD_some h))

section Detector

variable {s : State} {p : PartId} (hup : s.glb.phase = .up)
include hup

theorem exec_stallDetectorTick_of_serving (h : isServing s.parts[p].state = true) : exec (.stallDetectorTick p) s =
    .next (updFabric s p (fun x => { x with timers := tickedTimers s p (partCycles s.parts[p]) x.timers })) := by
  refine exec_of_up hup ((exec_stallDetectorTick p s).trans (congrArg (whenUp s) ?_))
  rw [h]
  rfl

theorem exec_stallDetectorTick_of_idle (h : isServing s.parts[p].state = false) : exec (.stallDetectorTick p) s = .next s := by
  refine exec_of_up hup ((exec_stallDetectorTick p s).trans (congrArg (whenUp s) ?_))
  rw [h]
  rfl

theorem exec_detectionWindowExpiry_of_idle (h : isServing s.parts[p].state = false) (n : Nat) :
    exec (.detectionWindowExpiry p n) s = .next s := by
  refine exec_of_up hup ((exec_detectionWindowExpiry p n s).trans (congrArg (whenUp s) ?_))
  dsimp only
  split
  · exact if_neg (by rw [h]; exact Bool.false_ne_true)
  · rfl

theorem exec_detectionWindowExpiry_of_timer {n start : Nat} {c : CycleRec} (h : isServing s.parts[p].state = true)
    (hc : (partCycles s.parts[p])[n]? = some c) (ht : s.parts[p].fabric.timers.getD n none = some start) :
    exec (.detectionWindowExpiry p n) s = .next (detect s p n start c) := by
  refine exec_of_up hup ((exec_detectionWindowExpiry p n s).trans (congrArg (whenUp s) ?_))
  dsimp only
  rw [hc, ht]
  exact if_pos h

end Detector

section Detect

variable {s : State} {p : PartId} {n start : Nat} {c : CycleRec}

theorem detect_of_free (h : cycleBlocked s p c = false) : detect s p n start c = updFabric s p (setTimer n none) :=
  if_pos (by rw [h]; rfl)

theorem detect_of_early (h : cycleBlocked s p c = true) (he : now s < start + 8192) : detect s p n start c = s := by
  rw [detect, h, if_neg (by decide), if_pos he]

theorem detect_of_late (h : cycleBlocked s p c = true) (hl : start + 8192 ≤ now s) : detect s p n start c =
    updFabric (match spillChoice s.parts[p] c with
      | some j => beginSpill s p j start
      | none => shedStage s p c.setEntry) p (setTimer n (some (now s))) := by
  rw [detect, h, if_neg (by decide), if_neg (Nat.not_lt.mpr hl)]
  rfl

end Detect

/-! ### Sheds and spills -/

theorem updStage_part (s : State) (p : PartId) (j : Nat) (f : StageSt → StageSt) : (updStage s p j f).parts[p] =
    { s.parts[p] with fabric := { s.parts[p].fabric with stages := modAt f j s.parts[p].fabric.stages } } := updFabric_part s p _

theorem updStage_fabric (s : State) (p : PartId) (j : Nat) (f : StageSt → StageSt) :
    ∃ gs, (updStage s p j f).parts[p].fabric = { s.parts[p].fabric with stages := gs } := ⟨_, (congrArg Partition.fabric (updStage_part s p j f) :)⟩

theorem cutStage_fabric (s : State) (p : PartId) (k j : Nat) :
    ∃ gs, (cutStage s p k j).parts[p].fabric = { s.parts[p].fabric with stages := gs } := by
  unfold cutStage
  extract_lets t
  split
  · exact ⟨_, rfl⟩
  · exact updStage_fabric _ p j _

/-- The waiting set of a set-entry stage that enters shed mode is cut. -/
def cutShed (s : State) (p : PartId) (n : Nat) : State :=
  match s.tiles.find? (fun c => byteAt (activeCtx c.2).micro 0 = 0x30 &&
    (match tileStage s p c.1 with | some e => decide (e.number = n) | none => false)) with
  | none => s
  | some c => match stageIndex s p c.1 with
    | some j => if (s.parts[p].fabric.stages.getD j {}).shedMode then s else cutStage s p c.1 j
    | none => s

theorem cutShed_fabric (s : State) (p : PartId) (n : Nat) :
    ∃ gs, (cutShed s p n).parts[p].fabric = { s.parts[p].fabric with stages := gs } := by
  unfold cutShed
  split
  · exact ⟨_, rfl⟩
  · split
    · split
      · exact ⟨_, rfl⟩
      · exact cutStage_fabric _ _ _ _
    · exact ⟨_, rfl⟩

theorem shedStage_eq (s : State) (p : PartId) (n : Nat) :
    shedStage s p n = updFabric (cutShed s p n) p (fun f => { f with stages := f.stages.map (beginShed n) }) := rfl

theorem shedStage_fabric (s : State) (p : PartId) (n : Nat) :
    ∃ gs : List StageSt, (shedStage s p n).parts[p].fabric = { s.parts[p].fabric with stages := gs.map (beginShed n) } := by
  obtain ⟨gs, hgs⟩ := cutShed_fabric s p n
  refine ⟨gs, ?_⟩
  rw [shedStage_eq, updFabric_part]
  dsimp only
  rw [hgs]

theorem beginShed_sheds {n : Nat} {g : StageSt} (h : (beginShed n g).number = n) : (beginShed n g).shedMode = true := by
  unfold beginShed at h ⊢
  split
  next => rfl
  next hno =>
    rw [if_neg hno] at h
    simpa [h] using hno

/-- The queue that begins to spill. -/
def spilled (q : QueueSt) : QueueSt :=
  { q with spilling := true, inEpisode := true, episodes := if q.inEpisode then q.episodes else satInc q.episodes }

/-- The fabric in a spill episode. -/
def openSpill (start : Nat) (x : Fabric) : Fabric :=
  match x.spillOpen with
  | some _ => x
  | none => { x with spillOpen := some start, spillEpisodes := satInc x.spillEpisodes }

theorem openSpill_isSome (start : Nat) (x : Fabric) : (openSpill start x).spillOpen.isSome = true := by
  unfold openSpill
  split
  next h => rw [h]; rfl
  next => rfl

theorem openSpill_queues (start : Nat) (x : Fabric) : (openSpill start x).queues = x.queues := by
  unfold openSpill
  split <;> rfl

/-- The state once queue `j` spills, before its input is pumped. -/
def spilling (s : State) (p : PartId) (j start : Nat) : State := updFabric (updQueue s p j spilled) p (openSpill start)

theorem spilling_touch (s : State) (p : PartId) (j start : Nat) : Touch [.parts] s (spilling s p j start) :=
  (updQueue_keeps _ _ _ _).touch.step (updFabric_keeps _ _ _).touch (by decide)

theorem spilling_fabric (s : State) (p : PartId) (j start : Nat) : (spilling s p j start).parts[p].fabric =
    openSpill start { s.parts[p].fabric with queues := modAt spilled j s.parts[p].fabric.queues } := by
  rw [spilling, updFabric_part, updQueue, updFabric_part]

theorem spilling_queue {s : State} {p : PartId} {j start : Nat} {q : QueueSt} (h : s.parts[p].fabric.queues[j]? = some q) :
    (spilling s p j start).parts[p].fabric.queues[j]? = some (spilled q) := by
  rw [spilling_fabric, openSpill_queues]
  exact (getElem?_modAt_self _ _ _).trans (congrArg (Option.map spilled) h)

theorem beginSpill_of_queue {s : State} {p : PartId} {j start : Nat} {q : QueueSt} (h : s.parts[p].fabric.queues[j]? = some q) :
    beginSpill s p j start = pumpTile (spilling s p j start) q.tile := by
  unfold beginSpill
  rw [h]
  rfl

/-! ### Datapath samples (R156) -/

/-- The sample of tile `k`. -/
def sampleAt (s : State) (k : Nat) (t : Tile) : Tile :=
  match runsHere s k with
  | some p => sampleTile (waitsData s p k t) t
  | none => t

theorem sampleTile_of_unused {w : Bool} {t : Tile} (h : (activeCtx t).use ≠ .inUse) : sampleTile w t = t := if_pos h

theorem sampleAt_default (s : State) (k : Nat) : sampleAt s k {} = {} := by
  unfold sampleAt
  split
  · exact sampleTile_of_unused (by decide)
  · rfl

theorem sampleAt_of_none {s : State} {k : Nat} (h : runsHere s k = none) (t : Tile) : sampleAt s k t = t := by
  rw [sampleAt, h]

theorem activeCtx_of_runsHere {s : State} {k : Nat} {p : PartId} (h : runsHere s k = some p) : (activeCtx (getTile s k)).use = .inUse := by
  unfold runsHere at h
  split at h
  · split at h
    next hc => exact of_decide_eq_true ((Bool.and_eq_true _ _).mp hc).2
    next => cases h
  · cases h

theorem sampleTile_runs {w : Bool} {t : Tile} (h : (activeCtx t).use = .inUse) : (sampleTile w t).stepped = false ∧
    (sampleTile w t).acc = t.acc ∧
    (t.stepped = true → (sampleTile w t).counters = { t.counters with busy := (t.counters.busy + 1) % 2 ^ 48 }) := by
  unfold sampleTile
  extract_lets c wrap k t1
  rw [if_neg (not_not.mpr h)]
  cases hs : t.stepped with
  | true => exact ⟨rfl, rfl, fun _ => rfl⟩
  | false =>
    rw [if_neg Bool.false_ne_true]
    refine ⟨?_, ?_, fun hc => nomatch hc⟩
    · split
      · rfl
      · split <;> rfl
    · split
      · rfl
      · split <;> rfl

theorem exec_stallSample_of_up {s : State} (hup : s.glb.phase = .up) : exec .stallSample s =
    .next { s with tiles := (s.tiles.map fun c => (c.1, sampleAt s c.1 c.2)).filter fun c => decide (c.2 ≠ {}) } := exec_of_up hup

theorem getTile_sampled {s : State} (hs : storeOk s) (k : Nat) :
    getTile { s with tiles := (s.tiles.map fun c => (c.1, sampleAt s c.1 c.2)).filter fun c => decide (c.2 ≠ {}) } k = sampleAt s k (getTile s k) :=
  tabGet_mapFilter ({} : Tile) (sampleAt s) (sampleAt_default s) k s.tiles 0 hs.2

/-- Settles O18. -/
theorem stallsAreTimedSpilledAndSampled : Obligations.StallsAreTimedSpilledAndSampled := by
  refine fun p s hup => ⟨fun hidle => ⟨exec_stallDetectorTick_of_idle hup hidle, exec_detectionWindowExpiry_of_idle hup hidle⟩,
    fun hs => ?_, fun n c start hs hc ht => ⟨fun hfree => ?_, fun hb he => ?_, fun hb hl hch => ?_, fun j q hb hl hch hq => ?_⟩, fun hs => ?_⟩
  · have h := exec_stallDetectorTick_of_serving hup hs
    refine ⟨_, h, (updFabric_keeps _ _ _).touch, fun q hq => updFabric_off _ _ hq, fun n c hc => ?_⟩
    rw [updFabric_part]
    have hat := tickedTimers_at (s := s) (p := p) (old := s.parts[p].fabric.timers) hc
    refine ⟨fun hb old hold => hat.trans ?_, fun hb hnone => hat.trans ?_, fun hfree => hat.trans ?_⟩
    · rw [if_pos hb, hold, Option.getD_some]
    · rw [if_pos hb, hnone, Option.getD_none]
    · rw [hfree, if_neg Bool.false_ne_true]
  · have h := exec_detectionWindowExpiry_of_timer hup hs hc ht
    rw [detect_of_free hfree] at h
    refine ⟨_, h, (updFabric_keeps _ _ _).touch, ?_⟩
    rw [updFabric_part]
    exact ⟨setTimer_at ht, rfl, rfl⟩
  · rw [exec_detectionWindowExpiry_of_timer hup hs hc ht, detect_of_early hb he]
  · have h := exec_detectionWindowExpiry_of_timer hup hs hc ht
    rw [detect_of_late hb hl, hch] at h
    obtain ⟨gs, hgs⟩ := shedStage_fabric s p c.setEntry
    refine ⟨_, h, ((shedStage_keeps _ _ _).touch.step (updFabric_keeps _ _ _).touch (by decide)).mono (by decide), ?_⟩
    rw [updFabric_part]
    dsimp only
    rw [hgs]
    refine ⟨setTimer_at ht, fun g hg hnum => ?_, rfl⟩
    obtain ⟨g0, -, rfl⟩ := List.mem_map.mp hg
    exact beginShed_sheds hnum
  · have h := exec_detectionWindowExpiry_of_timer hup hs hc ht
    rw [detect_of_late hb hl, hch] at h
    dsimp only at h
    rw [beginSpill_of_queue hq] at h
    refine ⟨_, _, h, spilling_touch s p j start, spilling_queue hq, rfl, rfl, ?_⟩
    rw [spilling_fabric]
    exact openSpill_isSome _ _
  · refine ⟨_, exec_stallSample_of_up hup, .lit, fun k hk => ?_, fun k r hk => ?_⟩
    · rw [getTile_sampled hs, sampleAt_of_none hk]
    · have hat : sampleAt s k (getTile s k) = sampleTile (waitsData s r k (getTile s k)) (getTile s k) := by rw [sampleAt, hk]
      rw [getTile_sampled hs, hat]
      exact sampleTile_runs (activeCtx_of_runsHere hk)

end Sys2Proof.Machine
end

