-- ==== Sys2Proof/Proofs/Placing.lean ====
section
/-! A path held for its pre-load scrub, a load refused, and the search that leaves a state standing. -/

namespace Sys2Proof.Machine

-- One proof at a time: a default argument that is a tactic waits for every proof before it.
set_option Elab.async false

/-! ### Gates along a path -/

/-- The region of `t` is that of `s` but for its gates. -/
def GatesOnly (r : RegionId) (s t : State) : Prop := ∃ g, t.regions[r] = { s.regions[r] with gates := g }

theorem GatesOnly.refl (r : RegionId) (s : State) : GatesOnly r s s := ⟨_, rfl⟩

theorem GatesOnly.trans {r : RegionId} {s t u : State} (h : GatesOnly r s t) (k : GatesOnly r t u) : GatesOnly r s u := by
  obtain ⟨g, hg⟩ := h
  obtain ⟨g', hg'⟩ := k
  exact ⟨g', by rw [hg', hg]⟩

theorem openGate_gatesOnly (s : State) (a b r : RegionId) : GatesOnly r s (openGate s a b) := by
  unfold openGate
  split
  · by_cases h : r = a
    · subst h
      exact ⟨_, updRegion_at _ _ _⟩
    · exact ⟨_, updRegion_off _ _ h⟩
  · exact .refl _ _

theorem openPath_gatesOnly (r : RegionId) : ∀ (rs : List RegionId) (s : State), GatesOnly r s (openPath s rs)
  | a :: b :: rest, s => ((openGate_gatesOnly s a b r).trans (openGate_gatesOnly _ b a r)).trans (openPath_gatesOnly r (b :: rest) _)
  | [], _ => .refl _ _
  | [_], _ => .refl _ _

theorem closeAllGates_gatesOnly (r : RegionId) : ∀ (rs : List RegionId) (s : State), GatesOnly r s (closeAllGates s rs)
  | [], _ => .refl _ _
  | q :: rs, s => GatesOnly.trans (closeGates_region s q r) (closeAllGates_gatesOnly r rs (closeGates s q))

theorem setPathGates_gatesOnly (s : State) (rs : List RegionId) (r : RegionId) : GatesOnly r s (setPathGates s rs) :=
  (closeAllGates_gatesOnly r rs s).trans (openPath_gatesOnly r rs _)

/-! ### The pre-load scrub (R296 steps 2-4) -/

section PreScrub

variable (s : State) (p : PartId) (pl : Placement)

theorem updLoad_part (f : Load → Load) : (updLoad s p f).parts[p] = { s.parts[p] with load := s.parts[p].load.map f } := updPart_at _ _ _

/-- The path's regions with their gates set. -/
def pathHeld (rs : List RegionId) : State := setPathGates (holdRegions s p rs) rs

theorem pathHeld_touch (rs : List RegionId) : Touch [.regions, .tiles] s (pathHeld s p rs) :=
  ((mapRegions_keeps _ _ _).touch.mono (by decide)).step (setPathGates_keeps _ _).touch (by decide)

/-- The supply of a region of the path (R426). -/
def pathSupply (g : Region) : Region := setVdd 720 { g with demand := 720 }

/-- The path held, its gates set and its supply at 0.72 V. -/
def pathPowered (rs : List RegionId) : State := mapRegions (pathHeld s p rs) rs pathSupply

theorem pathPowered_touch (rs : List RegionId) : Touch [.regions] (pathHeld s p rs) (pathPowered s p rs) :=
  (mapRegions_keeps _ _ (fun g => setVdd 720 { g with demand := 720 })).touch

theorem startPreScrub_eq : startPreScrub s p pl = setPState (updLoad (pathPowered s p (placedRegions pl)) p (fun l => { l with phase := .preScrub, placement := pl })) p .placing := rfl

theorem startPreScrub_state : (startPreScrub s p pl).parts[p].state = .placing := setPState_state _ _ _

/-- What the pre-load scrub leaves of the partition: all but its state and the placement and phase of its load. -/
theorem startPreScrub_part : (startPreScrub s p pl).parts[p].load = s.parts[p].load.map (fun l => { l with phase := .preScrub, placement := pl }) ∧
    (startPreScrub s p pl).parts[p].active = s.parts[p].active ∧ (startPreScrub s p pl).parts[p].regs.cause = s.parts[p].regs.cause := by
  have hparts : (pathPowered s p (placedRegions pl)).parts = s.parts := (pathPowered_touch s p _).parts_eq.trans (pathHeld_touch s p _).parts_eq
  rw [startPreScrub_eq]
  generalize pathPowered s p (placedRegions pl) = u at hparts ⊢
  obtain ⟨hactive, hload, -⟩ := setPState_rest (updLoad u p (fun l => { l with phase := .preScrub, placement := pl })) p .placing
  rw [hactive, hload, setPState_cause, updLoad_part, hparts]
  exact ⟨rfl, rfl, rfl⟩

theorem holdRegions_at {r : RegionId} {rs : List RegionId} (h : r ∈ rs) : (holdRegions s p rs).regions[r] = { s.regions[r] with owner := some p } :=
  mapRegions_at (f := fun g => { g with owner := some p }) (fun _ => rfl) rs s h

theorem holdRegions_off {r : RegionId} {rs : List RegionId} (h : r ∉ rs) : (holdRegions s p rs).regions[r] = s.regions[r] :=
  mapRegions_off _ rs s h

theorem startPreScrub_regions : (startPreScrub s p pl).regions = (pathPowered s p (placedRegions pl)).regions := by
  rw [startPreScrub_eq]
  exact (setPState_keeps _ _ _).touch.regions_eq

variable {pl}

/-- A region of the path. -/
theorem startPreScrub_region_at {r : RegionId} (h : r ∈ placedRegions pl) :
    ∃ g, (startPreScrub s p pl).regions[r] = setVdd 720 { s.regions[r] with owner := some p, gates := g, demand := 720 } := by
  obtain ⟨g, hg⟩ := setPathGates_gatesOnly (holdRegions s p (placedRegions pl)) (placedRegions pl) r
  refine ⟨g, ?_⟩
  rw [startPreScrub_regions, pathPowered, mapRegions_at (f := pathSupply) (fun _ => rfl) _ _ h, pathHeld, hg, holdRegions_at s p h]
  rfl

/-- Another region. -/
theorem startPreScrub_region_off {r : RegionId} (h : r ∉ placedRegions pl) : GatesOnly r s (startPreScrub s p pl) := by
  obtain ⟨g, hg⟩ := setPathGates_gatesOnly (holdRegions s p (placedRegions pl)) (placedRegions pl) r
  refine ⟨g, ?_⟩
  rw [startPreScrub_regions, pathPowered, mapRegions_off _ _ _ h, pathHeld, hg, holdRegions_off s p h]

/-- The path is held at 0.72 V. -/
theorem startPreScrub_holds : ∀ r ∈ placedRegions pl, (startPreScrub s p pl).regions[r].owner = some p ∧
    (startPreScrub s p pl).regions[r].demand = 720 ∧ (startPreScrub s p pl).regions[r].vdd = if s.regions[r].supplyOn then 720 else 0 := by
  intro r hr
  obtain ⟨g, hg⟩ := startPreScrub_region_at s p hr
  rw [hg]
  exact ⟨rfl, rfl, rfl⟩

theorem startPreScrub_linksOnly : LinksOnly s (startPreScrub s p pl) := by
  rw [startPreScrub_eq]
  have hclose : LinksOnly s (pathHeld s p (placedRegions pl)) :=
    (LinksOnly.of_touch (mapRegions_keeps _ _ _).touch).trans <| (closeAllGates_linksOnly _ _).trans (.of_touch (openPath_keeps _ _).touch)
  exact hclose.trans <| (LinksOnly.of_touch (pathPowered_touch s p _)).trans <|
    (LinksOnly.of_touch (updLoad_keeps _ _ _).touch).trans (.of_touch (setPState_keeps _ _ _).touch)

end PreScrub

/-! ### The search reads regions, map and network tree -/

theorem curMap_congr {s t : State} (h0 : t.wafer.copy0 = s.wafer.copy0) (h1 : t.wafer.copy1 = s.wafer.copy1) : curMap t = curMap s := by
  unfold curMap copy0Current
  rw [h0, h1]

theorem regionFree_congr {s t : State} (hr : t.regions = s.regions) (hm : curMap t = curMap s) (ht : t.wafer.tree = s.wafer.tree)
    (own : Option PartId) (r : RegionId) : regionFree t own r = regionFree s own r := by
  simp only [regionFree, usableNow, reachable, hr, hm, ht]

/-- The search finds one path in two states that show it the same regions. -/
theorem searchPlacement_eq {s t : State} (hr : t.regions = s.regions) (h0 : t.wafer.copy0 = s.wafer.copy0) (h1 : t.wafer.copy1 = s.wafer.copy1)
    (ht : t.wafer.tree = s.wafer.tree) (own : Option PartId) (axes : List (Nat × Nat)) (n : Nat) :
    searchPlacement t own axes n = searchPlacement s own axes n := by
  have hm := curMap_congr h0 h1
  refine searchPlacement_congr (regionFree_congr hr hm ht own) (fun r d => ?_) axes n
  rw [adjacentTo, adjacentTo, hm]

theorem wouldFit_congr {s t : State} (hr : t.regions = s.regions) (hw : t.wafer = s.wafer) (p : PartId) (i : Image) :
    wouldFit t p i = wouldFit s p i := by
  have hregions : (updRegions t (fun g => { g with underTest := false })).regions = (updRegions s (fun g => { g with underTest := false })).regions :=
    congrArg (Vector.map _) hr
  rw [wouldFit, wouldFit, searchPlacement_eq hregions (congrArg Wafer.copy0 hw) (congrArg Wafer.copy1 hw) (congrArg Wafer.tree hw)]

/-! ### A load refused where nothing runs (R315) -/

theorem standsInFault.of_touch {l : List Fld} {s t : State} {p : PartId} {st : PState} {code : Nat} (h : standsInFault s p st code)
    (k : Touch l s t) (hl : Fld.parts ∉ l := by decide) : standsInFault t p st code :=
  standsInFault.of_parts h (k.parts_eq hl)

section Refused

variable {s : State} {p : PartId} (hact : s.parts[p].active = none) (hf : isFault s.parts[p].state = false)
include hact hf

/-- The state in which a bay shows the cause of a refusal. -/
def bayRefused (s : State) (p : PartId) (code : Nat) : State :=
  if code = cKey then updBay (logIrq s 0x0306 p.val 0 0 false 17) p (fun b => { b with cause := 6 })
  else if code = cDecrypt then updBay (logIrq s 0x0307 p.val 0 0 false 17) p (fun b => { b with cause := 7 })
  else s

omit hact hf in
theorem bayRefused_touch (s : State) (p : PartId) (code : Nat) : Touch [.signals, .flt, .bays] s (bayRefused s p code) := by
  unfold bayRefused
  split
  · exact ((logIrq_keeps _ _ _ _ _ _ _).touch.mono (by decide)).step (updBay_keeps _ _ _).touch (by decide)
  · split
    · exact ((logIrq_keeps _ _ _ _ _ _ _).touch.mono (by decide)).step (updBay_keeps _ _ _).touch (by decide)
    · exact .refl _ _

theorem refuseLoad_of_none (code d0 : Nat) : refuseLoad s p code d0 =
    releasePorts (releasePins (faultEntry (bayRefused s p code) p .faultHeld code d0) p) p := by
  have hparts : (bayRefused s p code).parts = s.parts := (bayRefused_touch s p code).parts_eq
  have hx : (bayRefused s p code).parts[p] = s.parts[p] := congrArg (·[p]) hparts
  unfold refuseLoad
  show (if ((bayRefused s p code).parts[p].active.isSome && _) then _ else _) = _
  rw [if_neg (by rw [hx, hact]; exact Bool.false_ne_true)]
  refine if_neg ?_
  show ¬isFault (bayRefused s p code).parts[p].state = true
  rw [hx, hf]
  exact Bool.false_ne_true

theorem refuseLoad_stands (code d0 : Nat) : standsInFault (refuseLoad s p code d0) p .faultHeld code := by
  have hfault : isFault (bayRefused s p code).parts[p].state = false := by
    rw [(bayRefused_touch s p code).parts_eq]
    exact hf
  rw [refuseLoad_of_none hact hf]
  exact ((faultEntry_stands _ p .faultHeld code d0 hfault).of_touch (releasePins_keeps _ _).touch).of_touch (releasePorts_keeps _ _).touch

theorem refuseLoad_linksOnly (code d0 : Nat) : LinksOnly s (refuseLoad s p code d0) := by
  rw [refuseLoad_of_none hact hf]
  exact (LinksOnly.of_touch (bayRefused_touch s p code)).trans <| (faultEntry_linksOnly _ _ _ _ _).trans <|
    (LinksOnly.of_touch (releasePins_keeps _ _).touch).trans (.of_touch (releasePorts_keeps _ _).touch)

theorem refuseLoad_mem (code d0 : Nat) : (refuseLoad s p code d0).mem = s.mem := by
  rw [refuseLoad_of_none hact hf]
  exact (releasePorts_keeps _ _).touch.mem_eq.trans <| (releasePins_keeps _ _).touch.mem_eq.trans <|
    (faultEntry_keeps _ _ _ _ _).touch.mem_eq.trans (bayRefused_touch s p code).mem_eq

theorem refuseLoad_bays (code d0 : Nat) : (refuseLoad s p code d0).bays = (bayRefused s p code).bays := by
  rw [refuseLoad_of_none hact hf]
  exact (releasePorts_keeps _ _).touch.bays_eq.trans <| (releasePins_keeps _ _).touch.bays_eq.trans (faultEntry_keeps _ _ _ _ _).touch.bays_eq

end Refused

theorem bayRefused_key (s : State) (p : PartId) : (bayRefused s p cKey).bays[p].cause = 6 := by
  rw [bayRefused, if_pos rfl, updBay_at]

theorem bayRefused_decrypt (s : State) (p : PartId) : (bayRefused s p cDecrypt).bays[p].cause = 7 := by
  rw [bayRefused, if_neg (by decide), if_pos rfl, updBay_at]

theorem bayRefused_other (s : State) (p : PartId) {code : Nat} (hk : code ≠ cKey) (hd : code ≠ cDecrypt) : bayRefused s p code = s := by
  rw [bayRefused, if_neg hk, if_neg hd]

end Sys2Proof.Machine
end

