-- ==== Sys2Proof/Proofs/LoadRequests.lean ====
section
/-! Load commands refused, queued or begun, and loads refused by their front: O23 and O24. -/

namespace Sys2Proof.Machine

-- One proof at a time: a default argument that is a tactic waits for every proof before it.
set_option Elab.async false

/-! ### Commands that set CMD_ERR (R485) -/

theorem cmdErr_part (s : State) (p : PartId) :
    (cmdErr s p).parts[p] = { s.parts[p] with regs := { s.parts[p].regs with cmdErr := true } } :=
  (congrArg (·[p]) (irq_parts _ _)).trans (updPart_at s p _)

theorem cmdErr_off (s : State) {p q : PartId} (h : q ≠ p) : (cmdErr s p).parts[q] = s.parts[q] :=
  (congrArg (·[q]) (irq_parts _ _)).trans (updPart_off s _ h)

section Commands

variable {s : State} {p : PartId} (hup : s.glb.phase = .up)
include hup

theorem exec_reload_eq (o : LoadObs) : exec (.reload p o) s =
    .next (if s.glb.serviceOnly || !s.bays[p].accepted then cmdErr s p else loadRequest s p .hostReload o) := exec_of_up hup

theorem exec_reload_of_accepted (o : LoadObs) (hserv : s.glb.serviceOnly = false) (hacc : s.bays[p].accepted = true) :
    exec (.reload p o) s = .next (loadRequest s p .hostReload o) := by
  rw [exec_reload_eq hup, hserv, hacc]
  rfl

theorem exec_unload_eq : exec (.unload p) s =
    .next (if s.glb.serviceOnly || decide (s.parts[p].state = .empty) then cmdErr s p else unloadRequest s p) := exec_of_up hup

theorem exec_of_refused_command {c : Instr} (h : (∃ o, c = .reload p o ∧ (s.glb.serviceOnly = true ∨ s.bays[p].accepted = false)) ∨
    (c = .unload p ∧ (s.glb.serviceOnly = true ∨ s.parts[p].state = .empty))) : exec c s = .next (cmdErr s p) := by
  rcases h with ⟨o, rfl, h⟩ | ⟨rfl, h⟩
  · have hcond : (s.glb.serviceOnly || !s.bays[p].accepted) = true := by
      rcases h with h | h <;> simp [-Fin.getElem_fin, h]
    rw [exec_reload_eq hup, if_pos hcond]
  · have hcond : (s.glb.serviceOnly || decide (s.parts[p].state = .empty)) = true := by
      rcases h with h | h <;> simp [-Fin.getElem_fin, h]
    rw [exec_unload_eq hup, if_pos hcond]

end Commands

/-! ### Requests that wait (R311, R313) -/

theorem mustQueue_iff (x : Partition) : mustQueue x = true ↔
    x.flow.lupin.isSome = true ∨ (x.load = none ∧ (x.flow.drain.isSome = true ∨ x.flow.scrub.isSome = true)) := by
  simp only [mustQueue, Bool.or_eq_true, Bool.and_eq_true, Option.isNone_iff_eq_none]

theorem mustQueue_of_idle {x : Partition} (hl : x.flow.lupin = none) (hd : x.flow.drain = none) (hs : x.flow.scrub = none) : mustQueue x = false := by
  simp only [mustQueue, hl, hd, hs, Option.isSome_none, Bool.or_self, Bool.and_false]

/-- The log with the replaced request in it. -/
def queueLogged (s : State) (p : PartId) : State := if s.parts[p].queued.isSome then logPart s p cReplaced 0 else s

theorem queueLogged_parts (s : State) (p : PartId) : (queueLogged s p).parts = s.parts := by
  unfold queueLogged
  split
  · exact logPart_parts _ _ _ _
  · rfl

theorem queueRequest_part (s : State) (p : PartId) (kind : ReqKind) : (queueRequest s p kind).parts[p] = { s.parts[p] with queued := some kind } := by
  have h : (queueRequest s p kind).parts[p] = { (queueLogged s p).parts[p] with queued := some kind } := updPart_at (queueLogged s p) p _
  rw [h, queueLogged_parts]

theorem queueRequest_flt (s : State) (p : PartId) (kind : ReqKind) : (queueRequest s p kind).flt = (queueLogged s p).flt := rfl

/-! ### A request that begins (R288 checks 1-3, R311) -/

/-- The partition with its cause and its automatic reload cleared. -/
def requested (s : State) (p : PartId) : State := updFlow (setCause s p 0) p (fun f => { f with autoDue := false })

section Begins

variable {s : State} {p : PartId}

theorem requested_touch (s : State) (p : PartId) : Touch [.signals, .parts] s (requested s p) :=
  (setCause_keeps _ _ _).touch.step (updFlow_keeps _ _ _).touch (by decide)

theorem requested_part (s : State) (p : PartId) : (requested s p).parts[p].state = s.parts[p].state ∧
    (requested s p).parts[p].active = s.parts[p].active ∧ (requested s p).parts[p].regs.cause = 0 := by
  rw [requested, updFlow_part, setCause_part]
  exact ⟨rfl, rfl, rfl⟩

theorem armedSlot_congr {t : State} (h : t.bays = s.bays) (p : PartId) : armedSlot t p = armedSlot s p := by
  rw [armedSlot, armedSlot, h]

theorem contentKey_congr {t : State} (hg : t.glb.serial = s.glb.serial) (hn : t.nv = s.nv) (slot : Slot) : contentKey t slot = contentKey s slot := by
  unfold contentKey
  rw [hg, hn]

theorem checkFront_congr {t : State} (hs : t.sup = s.sup) (hi : t.imgs = s.imgs) (hn : t.snds = s.snds) (hp : t.pins = s.pins) (ha : t.spa = s.spa)
    (hb : t.spb = s.spb) (p : PartId) (slot : Slot) (o : FrontRead) : checkFront t p slot o = checkFront s p slot o := by
  have hslot : bootedSlot t = bootedSlot s := by
    unfold bootedSlot
    rw [hs]
  have hclaims : ∀ i, claimsFree t p i = claimsFree s p i := fun i => by
    unfold claimsFree
    rw [hi, hn, hp, ha, hb]
  unfold checkFront
  simp only [hslot, hclaims]

theorem requested_key (s : State) (p : PartId) (slot : Slot) : contentKey (requested s p) slot = contentKey s slot :=
  contentKey_congr (congrArg Glb.serial ((requested_touch s p).glb_eq (by decide)) :) (requested_touch s p).nv_eq slot

theorem requested_front (s : State) (p : PartId) (slot : Slot) (o : FrontRead) : checkFront (requested s p) p slot o = checkFront s p slot o :=
  have k := requested_touch s p
  checkFront_congr k.sup_eq k.imgs_eq k.snds_eq k.pins_eq k.spa_eq k.spb_eq p slot o

theorem requested_slot (s : State) (p : PartId) : armedSlot (requested s p) p = armedSlot s p := armedSlot_congr (requested_touch s p).bays_eq p

variable (hf : isFault s.parts[p].state = false)
include hf

/-- From no fault state there are no claims to give up. -/
theorem requested_claims : (if isFault (requested s p).parts[p].state then releasePorts (releasePins (requested s p) p) p else requested s p) =
    requested s p := by
  refine if_neg ?_
  rw [(requested_part s p).1, hf]
  exact Bool.false_ne_true

theorem beginLoad_of_locked {kind : ReqKind} {o : LoadObs} {turn : Option Nat} (h : contentKey s (armedSlot s p) = none) :
    beginLoad s p kind o turn = refuseLoad (requested s p) p cKey 0 := by
  unfold beginLoad
  extract_lets s0 s1 slot
  have hs1 : s1 = requested s p := requested_claims hf
  clear_value s1
  subst hs1
  have hslot : slot = armedSlot s p := requested_slot s p
  clear_value slot
  subst hslot
  rw [requested_key, h]

theorem beginLoad_of_key {kind : ReqKind} {o : LoadObs} {turn : Option Nat} {key : List Byte} (h : contentKey s (armedSlot s p) = some key) :
    beginLoad s p kind o turn = match checkFront s p (armedSlot s p) (readFront (armedSlot s p) key o) with
      | .error e => refuseLoad (requested s p) p e.1 e.2
      | .ok i =>
        let s2 := acceptLoad (claimAll (requested s p) p i) p turn
          (newLoad kind (armedSlot s p) key o.front.length (readFront (armedSlot s p) key o) i)
        match s2.parts[p].active with
        | some old => loadRunning s2 p old i
        | none => placeCold s2 p true := by
  unfold beginLoad
  extract_lets s0 s1 slot
  have hs1 : s1 = requested s p := requested_claims hf
  clear_value s1
  subst hs1
  have hslot : slot = armedSlot s p := requested_slot s p
  clear_value slot
  subst hslot
  rw [requested_key, h]
  dsimp only
  rw [requested_front] <;> rfl

end Begins

/-! ### The load in flight -/

section Accepted

variable (s : State) (p : PartId) (i : Image) (turn : Option Nat) (l : Load)

/-- The load stands in the waiting list with its claims. -/
def claimed : State := acceptLoad (claimAll s p i) p turn l

theorem claimed_touch : Touch [.imgs, .snds, .pins, .spa, .spb, .wafer, .parts] s (claimed s p i turn l) :=
  ((claimAll_keeps _ _ _).touch.mono (by decide)).step (acceptLoad_keeps _ _ _ _).touch (by decide)

theorem acceptLoad_part : (acceptLoad s p turn l).parts[p] = { s.parts[p] with load := some { l with order := turn.getD s.wafer.accepts } } :=
  (congrArg (·[p]) (joinLanes_keeps _ _).touch.parts_eq).trans (updPart_at _ _ _)

theorem claimed_part : (claimed s p i turn l).parts[p] = { s.parts[p] with load := some { l with order := turn.getD (claimAll s p i).wafer.accepts } } := by
  have hparts : (claimAll s p i).parts = s.parts := (claimAll_keeps s p i).touch.parts_eq
  rw [claimed, acceptLoad_part, hparts]

theorem claimed_search (own : Option PartId) (axes : List (Nat × Nat)) (n : Nat) :
    searchPlacement (claimed s p i turn l) own axes n = searchPlacement s own axes n := by
  have hw : (claimAll s p i).wafer = s.wafer := (claimAll_keeps s p i).touch.wafer_eq
  exact searchPlacement_eq (claimed_touch s p i turn l).regions_eq (congrArg Wafer.copy0 hw :) (congrArg Wafer.copy1 hw :)
    (congrArg Wafer.tree hw :) own axes n

end Accepted

theorem placeCold_of_path {s : State} {p : PartId} {l : Load} {pl : Placement} (hl : s.parts[p].load = some l)
    (h : searchPlacement s (some p) (imgPieces l.image) l.image.header.chainLen = some pl) (mayWait : Bool) :
    placeCold s p mayWait = startPreScrub s p pl := by
  unfold placeCold
  rw [hl]
  dsimp only
  rw [h]

theorem loadRequest_of_idle {s : State} {p : PartId} (hload : s.parts[p].load = none) (hl : s.parts[p].flow.lupin = none)
    (hd : s.parts[p].flow.drain = none) (hs : s.parts[p].flow.scrub = none) (kind : ReqKind) (o : LoadObs) :
    loadRequest s p kind o = beginLoad s p kind o none := by
  have hq : ¬mustQueue s.parts[p] = true := by
    rw [mustQueue_of_idle hl hd hs]
    exact Bool.false_ne_true
  unfold loadRequest
  rw [if_neg hq]
  extract_lets s1 x
  have hs1 : s1 = s := if_neg (by rw [hload]; exact Bool.false_ne_true)
  have hx : x = s.parts[p] := congrArg (fun u : State => u.parts[p]) hs1
  rw [hs1, hx, hd, hs]
  rfl

theorem not_isFault_of_empty {st : PState} (h : st = .empty) : isFault st = false := by
  rw [h]
  rfl

/-- A request that nothing refuses goes on to its pre-load scrub. -/
theorem loadRequest_places {s : State} {p : PartId} {kind : ReqKind} {o : LoadObs} {key : List Byte} {i : Image} {pl : Placement}
    (hst : s.parts[p].state = .empty) (hact : s.parts[p].active = none) (hload : s.parts[p].load = none) (hl : s.parts[p].flow.lupin = none)
    (hd : s.parts[p].flow.drain = none) (hs : s.parts[p].flow.scrub = none) (hkey : contentKey s (armedSlot s p) = some key)
    (hfront : checkFront s p (armedSlot s p) (readFront (armedSlot s p) key o) = .ok i)
    (hpath : searchPlacement s (some p) (imgPieces i) i.header.chainLen = some pl) :
    ∃ u m, loadRequest s p kind o = startPreScrub u p pl ∧ u.parts[p] = { (requested s p).parts[p] with load := some m } ∧
      m.kind = kind ∧ m.image = i ∧ m.key = key ∧ Touch [.signals, .parts, .imgs, .snds, .pins, .spa, .spb, .wafer] s u := by
  obtain ⟨-, hact0, -⟩ := requested_part s p
  have hreq := requested_touch s p
  have hbegin := beginLoad_of_key (not_isFault_of_empty hst) (kind := kind) (o := o) (turn := none) hkey
  rw [hfront] at hbegin
  have hm : ∃ m, m = newLoad kind (armedSlot s p) key o.front.length (readFront (armedSlot s p) key o) i := ⟨_, rfl⟩
  obtain ⟨m, hm⟩ := hm
  have hpart := claimed_part (requested s p) p i none m
  have hc := claimed_touch (requested s p) p i none m
  have hsearch : searchPlacement (claimed (requested s p) p i none m) (some p) (imgPieces i) i.header.chainLen = some pl := by
    rw [claimed_search, searchPlacement_eq hreq.regions_eq (congrArg Wafer.copy0 hreq.wafer_eq) (congrArg Wafer.copy1 hreq.wafer_eq)
      (congrArg Wafer.tree hreq.wafer_eq), hpath]
  have hactive : (claimed (requested s p) p i none m).parts[p].active = none := (congrArg Partition.active hpart :).trans (hact0.trans hact)
  have himage : m.image = i := congrArg Load.image hm
  refine ⟨claimed (requested s p) p i none m, _, ?_, hpart, congrArg Load.kind hm, himage, congrArg Load.key hm,
    (hreq.mono (by decide)).step hc (by decide)⟩
  rw [loadRequest_of_idle hload hl hd hs, hbegin]
  dsimp only
  rw [← hm]
  show (match (claimed (requested s p) p i none m).parts[p].active with
    | some old => loadRunning (claimed (requested s p) p i none m) p old i
    | none => placeCold (claimed (requested s p) p i none m) p true) = _
  rw [hactive]
  refine placeCold_of_path (congrArg Partition.load hpart :) ?_ true
  dsimp only
  rw [himage]
  exact hsearch

/-- Settles O23. -/
theorem loadCommandsAreRefusedQueuedOrBegun : Obligations.LoadCommandsAreRefusedQueuedOrBegun := by
  refine ⟨fun p c s hup h => ⟨_, exec_of_refused_command hup h, (cmdErr_keeps s p).touch, fun q hq => cmdErr_off s hq, cmdErr_part s p, rfl⟩,
    fun p o s hup hserv hacc => ⟨fun hq => ?_, exec_reload_of_accepted hup o hserv hacc, fun kind key i pl hst hact hload hl hd hs hkey hfront hpath => ?_⟩⟩
  · have h := exec_reload_of_accepted hup o hserv hacc
    rw [loadRequest, if_pos ((mustQueue_iff _).mpr hq)] at h
    refine ⟨_, h, (queueRequest_keeps _ _ _).touch, queueRequest_part _ _ _, fun hnone => ?_, fun hsome => ?_⟩
    · rw [queueRequest_flt, queueLogged, hnone]
      rfl
    · rw [queueRequest_flt, queueLogged, if_pos hsome]
  · obtain ⟨u, m, hrun, hpart, hkind, himage, hmkey, ht⟩ := loadRequest_places hst hact hload hl hd hs hkey hfront hpath (kind := kind) (o := o)
    obtain ⟨hpload, -, hpcause⟩ := startPreScrub_part u p pl
    have hregions : u.regions = s.regions := ht.regions_eq
    rw [hpart] at hpload hpcause
    refine ⟨_, _, hrun, startPreScrub_state u p pl, hpcause.trans (requested_part s p).2.2, hpload, hkind, himage, rfl, rfl, hmkey,
      (startPreScrub_keeps u p pl).touch.mem_eq.trans ht.mem_eq, ((LinksOnly.of_touch ht).trans (startPreScrub_linksOnly u p)).onlyLinks, ?_⟩
    rw [← hregions]
    exact startPreScrub_holds u p

/-- Settles O24. -/
theorem frontChecksRefuseALoad : Obligations.FrontChecksRefuseALoad := by
  intro p o s hup hserv hacc hst hact hload hl hd hs
  have hf := not_isFault_of_empty hst
  have hreload := exec_reload_of_accepted hup o hserv hacc
  rw [loadRequest_of_idle hload hl hd hs] at hreload
  obtain ⟨hst0, hact0, -⟩ := requested_part s p
  have hactive := hact0.trans hact
  have hfault : isFault (requested s p).parts[p].state = false := (congrArg isFault hst0).trans hf
  have hreq := requested_touch s p
  have hmem : ∀ code d0, (refuseLoad (requested s p) p code d0).mem = s.mem := fun code d0 => (refuseLoad_mem hactive hfault code d0).trans hreq.mem_eq
  have hlinks : ∀ code d0, LinksOnly s (refuseLoad (requested s p) p code d0) := fun code d0 =>
    (LinksOnly.of_touch hreq).trans (refuseLoad_linksOnly hactive hfault code d0)
  refine ⟨fun hlocked => ?_, fun key e hkey hfront => ?_⟩
  · rw [beginLoad_of_locked hf hlocked] at hreload
    refine ⟨_, hreload, refuseLoad_stands hactive hfault _ _, ?_, hmem _ _, (hlinks _ _).onlyLinks⟩
    rw [refuseLoad_bays hactive hfault]
    exact bayRefused_key _ _
  · rw [beginLoad_of_key hf hkey, hfront] at hreload
    refine ⟨_, hreload, refuseLoad_stands hactive hfault _ _, hmem _ _, (hlinks _ _).onlyLinks, fun hd hk => ?_, fun hd => ?_⟩
    · rw [refuseLoad_bays hactive hfault, bayRefused_other _ _ hk hd]
      exact hreq.bays_eq
    · rw [refuseLoad_bays hactive hfault, hd]
      exact bayRefused_decrypt _ _

end Sys2Proof.Machine
end

