-- ==== Sys2Proof/Proofs/UnloadsAndReloads.lean ====
section
/-! Unloads, automatic reloads and placements tried again: O25 and O26. -/

namespace Sys2Proof.Machine

-- One proof at a time: a default argument that is a tactic waits for every proof before it.
set_option Elab.async false

/-! ### The start of a drain -/

/-- The partition with its inputs stopped. -/
def drainBegun (s : State) (p : PartId) (why : DrainWhy) : State :=
  setPState (updFlow (if s.parts[p].state = .running then endGap s p else s) p
    (fun f => { f with inputOpen := false, drain := some why, drained := false })) p .draining

theorem beginDrain_parts (s : State) (p : PartId) (why : DrainWhy) : (beginDrain s p why).parts = (drainBegun s p why).parts := by
  unfold beginDrain drainBegun
  extract_lets s0 s1 s2
  split
  · split
    · rfl
    · exact (sendAll_keeps _ _ _ _).touch.parts_eq
  · rfl

/-- A drain leaves the cause and the queued request. -/
theorem beginDrain_keeps_request (s : State) (p : PartId) (why : DrainWhy) :
    (beginDrain s p why).parts[p].regs.cause = s.parts[p].regs.cause ∧ (beginDrain s p why).parts[p].queued = s.parts[p].queued := by
  have hgap : ∃ g, (if s.parts[p].state = .running then endGap s p else s).parts[p] = { s.parts[p] with flow := { s.parts[p].flow with gap := g } } := by
    split
    · exact endGap_part s p
    · exact ⟨_, rfl⟩
  obtain ⟨g, hg⟩ := hgap
  rw [beginDrain_parts, drainBegun]
  generalize (if s.parts[p].state = .running then endGap s p else s) = u at hg
  obtain ⟨-, -, -, -, hq, -⟩ := setPState_rest (updFlow u p (fun f => { f with inputOpen := false, drain := some why, drained := false })) p .draining
  rw [setPState_cause, hq, updFlow_part, hg]
  exact ⟨rfl, rfl⟩

/-! ### Unloads (R310, R313) -/

theorem unloadRequest_of_idle {s : State} {p : PartId} (hact : s.parts[p].active.isSome = true) (hload : s.parts[p].load = none)
    (hl : s.parts[p].flow.lupin = none) (hd : s.parts[p].flow.drain = none) (hs : s.parts[p].flow.scrub = none) :
    unloadRequest s p = beginDrain (setCause s p 0) p .unload := by
  have hq : ¬mustQueue s.parts[p] = true := by
    rw [mustQueue_of_idle hl hd hs]
    exact Bool.false_ne_true
  have hpart := setCause_part s p 0
  unfold unloadRequest
  rw [if_neg hq]
  extract_lets s0 s1 x
  have hs1 : s1 = setCause s p 0 := if_neg (by
    rw [hpart]
    dsimp only
    rw [hload]
    exact Bool.false_ne_true)
  have hx : x = (setCause s p 0).parts[p] := congrArg (fun u : State => u.parts[p]) hs1
  rw [hs1, hx, hpart]
  dsimp only
  rw [hd, hs, hact]
  rfl

/-- What an unload of a running image does to its partition. -/
theorem unloadRequest_drains {s : State} {p : PartId} (hact : s.parts[p].active.isSome = true) (hload : s.parts[p].load = none)
    (hl : s.parts[p].flow.lupin = none) (hd : s.parts[p].flow.drain = none) (hs : s.parts[p].flow.scrub = none) :
    drains (unloadRequest s p) p .unload ∧ (unloadRequest s p).parts[p].regs.cause = 0 ∧
      (unloadRequest s p).parts[p].active = s.parts[p].active ∧ (unloadRequest s p).parts[p].queued = s.parts[p].queued := by
  have hpart := setCause_part s p 0
  obtain ⟨hcause, hqueued⟩ := beginDrain_keeps_request (setCause s p 0) p .unload
  rw [unloadRequest_of_idle hact hload hl hd hs, hcause, hqueued, beginDrain_active, hpart]
  exact ⟨beginDrain_drains _ _ _, rfl, rfl, rfl⟩

theorem isRunning_starts {x : Partition} (hload : x.load = none) (hl : x.flow.lupin = none) (hd : x.flow.drain = none) (hs : x.flow.scrub = none)
    (hst : x.state = .running) : mayStartQueued x = true := by
  rw [mayStartQueued, mustQueue_of_idle hl hd hs, hload, hst]
  rfl

section Queued

variable {s : State} {p : PartId} (hup : s.glb.phase = .up) (o : LoadObs)
include hup

theorem exec_queuedRequestStart_of_none (h : s.parts[p].queued = none) : exec (.queuedRequestStart p o) s = .next s := by
  refine exec_of_up hup ((exec_queuedRequestStart p o s).trans (congrArg (whenUp s) ?_))
  rw [h]

theorem exec_queuedRequestStart_of_unload (h : s.parts[p].queued = some .hostUnload) (hmay : mayStartQueued s.parts[p] = true)
    (hst : s.parts[p].state = .running) :
    exec (.queuedRequestStart p o) s = .next (unloadRequest (updPart s p (fun y => { y with queued := none })) p) := by
  refine exec_of_up hup ((exec_queuedRequestStart p o s).trans (congrArg (whenUp s) ?_))
  rw [h]
  dsimp only
  rw [if_pos hmay, if_pos rfl, if_neg (by rw [hst]; decide)]

end Queued

/-- Settles O25. -/
theorem unloadBeginsTheDrain : Obligations.UnloadBeginsTheDrain := by
  refine fun p s hup hserv hact hload hl hd hs => ⟨fun hne => ?_, fun o hst hq => ?_, fun o hq => exec_queuedRequestStart_of_none hup o hq⟩
  · have h := exec_unload_eq (p := p) hup
    rw [hserv, decide_eq_false hne, if_neg (by decide)] at h
    obtain ⟨hdrains, hcause, hactive, -⟩ := unloadRequest_drains hact hload hl hd hs
    have ht : Touch [.signals, .parts, .exps, .arbLast, .spa, .spb] s (unloadRequest s p) := by
      rw [unloadRequest_of_idle hact hload hl hd hs]
      exact ((setCause_keeps s p 0).touch.mono (by decide)).step (beginDrain_keeps _ p .unload).touch (List.Subset.refl _)
    exact ⟨_, h, hdrains, hcause, hactive, ht.mem_eq, ht.tiles_eq⟩
  · have h := exec_queuedRequestStart_of_unload hup o hq (isRunning_starts hload hl hd hs hst) hst
    have hpart := updPart_at s p (fun y => { y with queued := none })
    obtain ⟨hdrains, -, -, hqueued⟩ := unloadRequest_drains (s := updPart s p (fun y => { y with queued := none })) (p := p)
      ((congrArg (fun x => x.active.isSome) hpart).trans hact) ((congrArg Partition.load hpart :).trans hload)
      ((congrArg (fun x => x.flow.lupin) hpart).trans hl) ((congrArg (fun x => x.flow.drain) hpart).trans hd)
      ((congrArg (fun x => x.flow.scrub) hpart).trans hs)
    exact ⟨_, h, hdrains, hqueued.trans (congrArg Partition.queued hpart)⟩

/-! ### Automatic reloads (R453) -/

theorem updPart_updPart (s : State) (p : PartId) (f g : Partition → Partition) : updPart (updPart s p f) p g = updPart s p (fun x => g (f x)) := by
  simp [updPart, Vector.set_set]

theorem partDigest_congr {s t : State} {p : PartId} (ha : t.parts[p].active = s.parts[p].active) (hl : t.parts[p].load = s.parts[p].load) :
    partDigest t p = partDigest s p := by
  unfold partDigest
  rw [ha, hl]

/-- A partition cause is logged from the log, the time, and the image that runs or loads. -/
theorem logPart_flt_congr {s t : State} {p : PartId} (hf : t.flt = s.flt) (hg : t.glb = s.glb) (ht : t.tbs = s.tbs)
    (ha : t.parts[p].active = s.parts[p].active) (hl : t.parts[p].load = s.parts[p].load) (code d0 : Nat) :
    (logPart t p code d0).flt = (logPart s p code d0).flt := by
  rw [logPart, logPart, partDigest_congr ha hl]
  exact logEvent_flt_congr hf hg ht _ _ _ _ _

section Automatic

variable {s : State} {p : PartId} {o : LoadObs} (hup : s.glb.phase = .up) (hf : isFault s.parts[p].state = true)
  (hdue : s.parts[p].flow.autoDue = true) (hs : s.parts[p].flow.scrub = none) (hq : s.parts[p].queued = none)

/-- The partition whose automatic reload is spent. -/
def autoSpent (s : State) (p : PartId) : State := updFlow s p (fun f => { f with autoDue := false })

include hup hf hdue hs hq in
theorem exec_autoReload_of_due : exec (.autoReload p o) s = .next (
    if !s.bays[p].accepted then logPart (autoSpent s p) p 0x0183 0
    else if 3 ≤ (reloadsThisHour s s.parts[p]).length then logPart (autoSpent s p) p 0x0182 0
    else loadRequest (logPart (updPart (autoSpent s p) p (fun y => { y with autoTimes := now s :: reloadsThisHour s s.parts[p] })) p 0x0181
      ((reloadsThisHour s s.parts[p]).length + 1)) p .automatic o) := by
  refine exec_of_up hup ((exec_autoReload p o s).trans (congrArg (whenUp s) ?_))
  refine if_pos ?_
  rw [hf, hdue, hs, hq]
  rfl

/-- A reload that is only logged. -/
theorem logSpent_only (s : State) (p : PartId) (code : Nat) : Touch [.parts, .flt] s (logPart (autoSpent s p) p code 0) ∧
    (logPart (autoSpent s p) p code 0).parts[p] = { s.parts[p] with flow := { s.parts[p].flow with autoDue := false } } ∧
    (logPart (autoSpent s p) p code 0).flt = (logPart s p code 0).flt := by
  have hpart : (autoSpent s p).parts[p] = { s.parts[p] with flow := { s.parts[p].flow with autoDue := false } } := updFlow_part s p _
  refine ⟨((updFlow_keeps _ _ _).touch.mono (by decide)).step (logPart_keeps _ _ _ _).touch (by decide), ?_, ?_⟩
  · rw [logPart_parts, hpart]
  · exact logPart_flt_congr (s := s) (t := autoSpent s p) (p := p) rfl rfl rfl (congrArg Partition.active hpart :) (congrArg Partition.load hpart :) code 0

end Automatic

/-! ### A placement tried again (R52) -/

section Retry

variable {s : State} {p : PartId} {l : Load} (hup : s.glb.phase = .up) (hl : s.parts[p].load = some l) (hph : l.phase = .waitRetest)
include hup hl hph

theorem exec_placementRetry_of_wait (h : stillWaits s p l.image = true) : exec (.placementRetry p) s = .next s := by
  refine exec_of_up hup ((exec_placementRetry p s).trans (congrArg (whenUp s) ?_))
  rw [hl]
  exact if_neg (by rw [hph, h]; decide)

theorem exec_placementRetry_of_ready (h : stillWaits s p l.image = false) (hold : l.reloadsOld = false) :
    exec (.placementRetry p) s = .next (placeCold s p false) := by
  refine exec_of_up hup ((exec_placementRetry p s).trans (congrArg (whenUp s) ?_))
  rw [hl]
  dsimp only
  rw [if_pos (by rw [hph, h]; decide), hold]
  rfl

end Retry

theorem placeCold_of_no_path {s : State} {p : PartId} {l : Load} (hl : s.parts[p].load = some l)
    (h : searchPlacement s (some p) (imgPieces l.image) l.image.header.chainLen = none) :
    placeCold s p false = refuseLoad (setPState s p .placing) p cNoPath 0 := by
  unfold placeCold
  rw [hl]
  dsimp only
  rw [h]
  rfl

/-- Settles O26. -/
theorem automaticReloadsAndRetriesAreLimited : Obligations.AutomaticReloadsAndRetriesAreLimited := by
  refine ⟨fun p o s hup hf hdue hs hq => ⟨fun hacc => ?_, fun hacc hmany => ?_, fun hacc hfew => ?_⟩,
    fun p l s hup hl hph hold => ⟨fun pl hpl => ?_, fun hnone => ⟨fun hfit => ?_, fun hfit hact => ?_⟩⟩⟩
  · have h := exec_autoReload_of_due (o := o) hup hf hdue hs hq
    rw [hacc, if_pos (by rfl)] at h
    exact ⟨_, h, logSpent_only s p _⟩
  · have h := exec_autoReload_of_due (o := o) hup hf hdue hs hq
    have hthree : 3 ≤ (reloadsThisHour s s.parts[p]).length := hmany
    rw [hacc, if_neg (by decide), if_pos hthree] at h
    exact ⟨_, h, logSpent_only s p _⟩
  · have h := exec_autoReload_of_due (o := o) hup hf hdue hs hq
    have hthree : ¬3 ≤ (reloadsThisHour s s.parts[p]).length := Nat.not_le.mpr hfew
    rw [hacc, if_neg (by decide), if_neg hthree, autoSpent, updFlow, updPart_updPart] at h
    exact h
  · have hno : stillWaits s p l.image = false := by
      rw [stillWaits, hpl]
      rfl
    have h := exec_placementRetry_of_ready hup hl hph hno hold
    rw [placeCold_of_path hl hpl] at h
    obtain ⟨hload, hactive, -⟩ := startPreScrub_part s p pl
    refine ⟨_, h, startPreScrub_state _ _ _, hload.trans (congrArg (Option.map _) hl), hactive, startPreScrub_holds s p, fun r hr => ?_⟩
    obtain ⟨g, hg⟩ := startPreScrub_region_off s p hr
    rw [hg]
    exact ⟨rfl, rfl⟩
  · have hwait : stillWaits s p l.image = true := by
      rw [stillWaits, hnone, hfit]
      rfl
    exact exec_placementRetry_of_wait hup hl hph hwait
  · have hno : stillWaits s p l.image = false := by
      rw [stillWaits, hnone, hfit]
      rfl
    have h := exec_placementRetry_of_ready hup hl hph hno hold
    rw [placeCold_of_no_path hl hnone] at h
    have hfault : isFault (setPState s p .placing).parts[p].state = false := by
      rw [setPState_state]
      rfl
    exact ⟨_, h, refuseLoad_stands ((setPState_active _ _ _).trans hact) hfault _ _⟩

end Sys2Proof.Machine
end

