-- ==== Sys2Proof/Proofs/LoadStreams.lean ====
section
/-! Load lanes, the pre-load scrub and the chunks of a stream: O27. -/

namespace Sys2Proof.Machine

-- One proof at a time: a default argument that is a tactic waits for every proof before it.
set_option Elab.async false

/-! ### Load lanes (R75) -/

/-- The load has one lane at each of `need`. -/
def lanesTaken (s : State) (p : PartId) (need : List (Fin 4)) : State :=
  updLoad { s with wafer := { s.wafer with
    lanesHeld := Vector.ofFn (fun e : Fin 4 => s.wafer.lanesHeld[e] + boolNat (need.contains e))
    laneQueue := s.wafer.laneQueue.filter (fun q => decide (q ≠ p)) } } p (fun l => { l with loadLanes := need })

theorem lanesTaken_held (s : State) (p : PartId) (need : List (Fin 4)) (e : Fin 4) :
    (lanesTaken s p need).wafer.lanesHeld[e] = s.wafer.lanesHeld[e] + if e ∈ need then 1 else 0 := by
  have hat : (lanesTaken s p need).wafer.lanesHeld[e] = s.wafer.lanesHeld[e] + boolNat (need.contains e) := by
    simp [lanesTaken, updLoad, updPart]
  rw [hat]
  by_cases h : e ∈ need
  · rw [if_pos h, List.contains_iff_mem.mpr h]
    rfl
  · rw [if_neg h, Bool.eq_false_iff.mpr (mt List.contains_iff_mem.mp h)]
    rfl

theorem lanesTaken_load {s : State} {p : PartId} {l : Load} (h : s.parts[p].load = some l) (need : List (Fin 4)) :
    (lanesTaken s p need).parts[p].load = some { l with loadLanes := need } := by
  rw [lanesTaken, updLoad_part]
  exact congrArg (Option.map _) h

section Lanes

variable {s : State} {p : PartId} {l : Load} (hl : s.parts[p].load = some l)
include hl

theorem takeLanes_of_free (hhead : s.wafer.laneQueue.head? = some p) (hfree : ∀ e ∈ lanesNeeded s (placedRegions l.placement), s.wafer.lanesHeld[e] < 2) :
    takeLanes s p = some (lanesTaken s p (lanesNeeded s (placedRegions l.placement))) := by
  unfold takeLanes
  rw [hl]
  exact if_pos ⟨hhead, List.all_eq_true.mpr fun e he => decide_eq_true (hfree e he)⟩

theorem takeLanes_of_busy (h : s.wafer.laneQueue.head? ≠ some p ∨ ∃ e ∈ lanesNeeded s (placedRegions l.placement), 2 ≤ s.wafer.lanesHeld[e]) :
    takeLanes s p = none := by
  unfold takeLanes
  rw [hl]
  refine if_neg fun ⟨hhead, hall⟩ => ?_
  rcases h with h | ⟨e, he, hbusy⟩
  · exact h hhead
  · exact absurd (of_decide_eq_true (List.all_eq_true.mp hall e he)) (Nat.not_lt.mpr hbusy)

/-- Either the load takes its lanes or it finds none. -/
theorem takeLanes_cases : takeLanes s p = some (lanesTaken s p (lanesNeeded s (placedRegions l.placement))) ∨ takeLanes s p = none := by
  unfold takeLanes
  rw [hl]
  dsimp only
  split
  · exact .inl rfl
  · exact .inr rfl

end Lanes

theorem beginStream_part {s : State} {p : PartId} (i : Image) : (beginStream s p i).parts[p] =
    { s.parts[p] with load := s.parts[p].load.map (fun l => { l with phase := .streaming }) } := by
  have hparts : (shadowPorts s p i).parts = s.parts := (shadowPorts_keeps s p i).touch.parts_eq
  rw [beginStream, updLoad_part, hparts]

section Granted

variable {s : State} {p : PartId} {l : Load} (hup : s.glb.phase = .up) (hl : s.parts[p].load = some l)
include hup hl

theorem exec_loadLaneGranted_of_lanes {t : State} (hw : l.phase = .waitLane) (ht : takeLanes s p = some t) :
    exec (.loadLaneGranted p) s = .next (beginStream t p l.image) := by
  refine exec_of_up hup ((exec_loadLaneGranted p s).trans (congrArg (whenUp s) ?_))
  rw [hl]
  dsimp only
  rw [if_pos hw, ht]

theorem exec_loadLaneGranted_of_none (hw : l.phase = .waitLane) (ht : takeLanes s p = none) : exec (.loadLaneGranted p) s = .next s := by
  refine exec_of_up hup ((exec_loadLaneGranted p s).trans (congrArg (whenUp s) ?_))
  rw [hl]
  dsimp only
  rw [if_pos hw, ht]

theorem exec_preLoadScrubDone_of_good (hp : l.phase = .preScrub) : exec (.preLoadScrubDone p []) s =
    .next (tryStream (setPState (scrubRegions s (placedRegions l.placement)) p .loading) p) := by
  refine exec_of_up hup ((exec_preLoadScrubDone p [] s).trans (congrArg (whenUp s) ?_))
  rw [hl]
  dsimp only
  rw [if_pos hp, if_neg (by simp)]

end Granted

/-! ### The stream begins or waits -/

theorem tryStream_part {s : State} {p : PartId} {l : Load} (hl : s.parts[p].load = some l) : (tryStream s p).parts[p].state = s.parts[p].state ∧
    ∃ m, (tryStream s p).parts[p].load = some m ∧ (m.phase = .streaming ∨ m.phase = .waitLane) ∧ m.image = l.image ∧ m.placement = l.placement := by
  unfold tryStream
  rw [hl]
  dsimp only
  rcases takeLanes_cases hl with h | h
  · rw [h]
    dsimp only
    rw [beginStream_part]
    dsimp only
    rw [lanesTaken_load hl]
    refine ⟨?_, _, rfl, .inl rfl, rfl, rfl⟩
    rw [lanesTaken, updLoad_part]
  · rw [h]
    dsimp only
    rw [updLoad_part]
    dsimp only
    rw [hl]
    exact ⟨rfl, _, rfl, .inr rfl, rfl, rfl⟩

/-! ### Chunks and records (R239, R240) -/

theorem streaming_of {l : Load} (hp : l.phase = .streaming) (hc : l.checked = false) : streaming l = true := by
  rw [streaming, hp, hc]
  rfl

section Stream

variable {s : State} {p : PartId} {l : Load} (hup : s.glb.phase = .up) (hl : s.parts[p].load = some l)
include hup hl

theorem exec_chunkDecrypted_of_next {cipher tag : List Byte} (hs : streaming l = true) (hn : l.chunk < chunkCount l.slot) :
    exec (.chunkDecrypted p cipher tag) s = .next (match openChunk l.slot l.key l.chunk cipher tag with
      | some text => updLoad s p (fun l => takeChunk l text)
      | none => refuseLoad s p cDecrypt 0) := by
  refine exec_of_up hup ((exec_chunkDecrypted p cipher tag s).trans (congrArg (whenUp s) ?_))
  rw [hl]
  exact if_pos (by rw [hs, decide_eq_true hn]; rfl)

theorem exec_chunkDecrypted_of_end {cipher tag : List Byte} (hn : chunkCount l.slot ≤ l.chunk) : exec (.chunkDecrypted p cipher tag) s = .next s := by
  refine exec_of_up hup ((exec_chunkDecrypted p cipher tag s).trans (congrArg (whenUp s) ?_))
  rw [hl]
  exact if_neg (by rw [decide_eq_false (Nat.not_lt.mpr hn), Bool.and_false]; exact Bool.false_ne_true)

theorem exec_loadRecord_of_none {ok : Bool} {hits : List (TileAt × Nat)} (h : nextRecord s p l = none) : exec (.loadRecord p ok hits) s = .next s := by
  refine exec_of_up hup ((exec_loadRecord p ok hits s).trans (congrArg (whenUp s) ?_))
  rw [hl]
  dsimp only
  rw [h]

end Stream

/-- Settles O27. -/
theorem streamsStartOnFreeLanesAndStopAtBadChunks : Obligations.StreamsStartOnFreeLanesAndStopAtBadChunks := by
  refine ⟨fun p l s hup hl => ⟨fun hw hhead hfree => ?_, fun hw hbusy => exec_loadLaneGranted_of_none hup hl hw (takeLanes_of_busy hl hbusy),
      fun hp => ?_⟩,
    fun p l s hup hl hp hc => ⟨fun cipher tag text hn htext => ?_, fun cipher tag hn hbad hact hf => ?_,
      fun cipher tag hn => exec_chunkDecrypted_of_end hup hl hn, fun ok hits h => exec_loadRecord_of_none hup hl h⟩⟩
  · have ht := takeLanes_of_free hl hhead hfree
    have h := exec_loadLaneGranted_of_lanes hup hl hw ht
    have hload := lanesTaken_load hl (lanesNeeded s (placedRegions l.placement))
    have hheld := lanesTaken_held s p (lanesNeeded s (placedRegions l.placement))
    have hstream := (beginStream_keeps (lanesTaken s p (lanesNeeded s (placedRegions l.placement))) p l.image).touch
    have htaken := (takeLanes_keeps s p _ ht).touch
    refine ⟨_, h, (htaken.mono (by decide)).step hstream (by decide), ?_, fun e => ?_, ?_⟩
    · rw [beginStream_part]
      exact congrArg (Option.map _) hload
    · rw [hstream.wafer_eq]
      exact hheld e
    · rw [hstream.wafer_eq]
      rfl
  · have h := exec_preLoadScrubDone_of_good hup hl hp
    have hpart : (scrubRegions s (placedRegions l.placement)).parts = s.parts := (scrubRegions_keeps _ _).touch.parts_eq
    obtain ⟨-, hload, -⟩ := setPState_rest (scrubRegions s (placedRegions l.placement)) p .loading
    rw [hpart, hl] at hload
    obtain ⟨hst, m, hm, hphase, himage, hplace⟩ := tryStream_part hload
    refine ⟨_, h, hst.trans (setPState_state _ _ _), ⟨m, hm, hphase, himage, hplace⟩, fun r hr => ?_⟩
    exact ((scrubRegions_scrubbed s hr).touch (setPState_keeps _ _ _).touch).touch (tryStream_keeps _ _).touch
  · have h := exec_chunkDecrypted_of_next hup hl (cipher := cipher) (tag := tag) (streaming_of hp hc) hn
    rw [htext] at h
    refine ⟨_, takeChunk l text, h, (updLoad_keeps _ _ _).touch, ?_, rfl, rfl, rfl, hp, fun hat => ?_⟩
    · rw [updLoad_part, hl]
      rfl
    · show l.plain ++ text.drop (l.bytes + l.plain.length - 65536 * l.chunk) = _
      rw [hat, Nat.sub_self, List.drop_zero]
  · have h := exec_chunkDecrypted_of_next hup hl (cipher := cipher) (tag := tag) (streaming_of hp hc) hn
    rw [hbad] at h
    refine ⟨_, h, refuseLoad_stands hact hf _ _, ?_⟩
    rw [refuseLoad_bays hact hf]
    exact bayRefused_decrypt _ _

end Sys2Proof.Machine
end

