-- ==== Sys2Proof/Proofs/LoadRecords.lean ====
section
/-! The records of a stream: O28. -/

namespace Sys2Proof.Machine

-- One proof at a time: a default argument that is a tactic waits for every proof before it.
set_option Elab.async false

/-! ### What writing a record leaves of its partition -/

/-- The partition of `t` is that of `s` but for its fabric. -/
structure FabricOnly (p : PartId) (s t : State) : Prop where
  part : ∃ f, t.parts[p] = { s.parts[p] with fabric := f }

namespace FabricOnly

variable {p : PartId} {s t u : State}

theorem refl (p : PartId) (s : State) : FabricOnly p s s := ⟨_, rfl⟩

theorem trans (h : FabricOnly p s t) (k : FabricOnly p t u) : FabricOnly p s u := by
  obtain ⟨f, hf⟩ := h
  obtain ⟨g, hg⟩ := k
  exact ⟨g, by rw [hg, hf]⟩

theorem of_parts (h : t.parts = s.parts) : FabricOnly p s t := ⟨s.parts[p].fabric, congrArg (·[p]) h⟩

theorem of_updFabric (s : State) (p : PartId) (f : Fabric → Fabric) : FabricOnly p s (updFabric s p f) := ⟨_, updFabric_part s p f⟩

theorem foldl {α : Type} {f : State → α → State} (hf : ∀ s a, FabricOnly p s (f s a)) : ∀ (l : List α) (s : State), FabricOnly p s (l.foldl f s)
  | [], s => refl p s
  | a :: l, s => (hf s a).trans (foldl hf l (f s a))

theorem load_eq (h : FabricOnly p s t) : t.parts[p].load = s.parts[p].load := by
  obtain ⟨f, hf⟩ := h
  rw [hf]

end FabricOnly

theorem placeExtent_fabricOnly {s : State} {p : PartId} {tile n reg : Nat} {blob : Option (List Byte)} {r : State × Nat}
    (h : placeExtent s p tile n reg blob = some r) : FabricOnly p s r.1 := by
  obtain ⟨b, -, rfl⟩ := Option.map_eq_some_iff.mp h
  exact (FabricOnly.of_updFabric s p _).trans (.of_parts (updTile_keeps _ tile (setInit reg (BitVec.ofNat 32 b))).touch.parts_eq)

theorem placeExtents_fabricOnly {p : PartId} {pp : PlacedPiece} : ∀ {es : List ExtEntry} {s t : State}, placeExtents s p pp es = some t →
    FabricOnly p s t
  | [], s, t, h => by
    rw [← Option.some.inj h]
    exact .refl p s
  | e :: es, s, t, h => by
    unfold placeExtents at h
    split at h
    next r hr => exact (placeExtent_fabricOnly hr).trans (placeExtents_fabricOnly h)
    next => cases h

theorem placeBlob_fabricOnly {p : PartId} {b : BlobRec} {pp : PlacedPiece} : ∀ {ts : List (Nat × Nat)} {s t : State} {data : List Byte},
    placeBlob s p b pp data ts = some t → FabricOnly p s t
  | [], s, t, _, h => by
    rw [← Option.some.inj h]
    exact .refl p s
  | k :: ts, s, t, data, h => by
    unfold placeBlob at h
    dsimp only at h
    split at h
    next => cases h
    next r hr =>
      have hrest : FabricOnly p r.1 t := ⟨(placeBlob_fabricOnly h).part⟩
      exact (placeExtent_fabricOnly hr).trans hrest

theorem shareBlob_fabricOnly (s : State) (p : PartId) (b : BlobRec) (pp : PlacedPiece) : FabricOnly p s (shareBlob s p b pp) := by
  refine .foldl (fun u t => ?_) _ s
  dsimp only
  split
  next => exact .refl p u
  next c _ => exact (FabricOnly.of_updFabric u p _).trans (.of_parts (updTile_keeps _ _ _).touch.parts_eq)

theorem foldl_updTile_parts {α : Type} (key : α → Nat) (f : α → Tile → Tile) (l : List α) (s : State) :
    (l.foldl (fun s a => updTile s (key a) (f a)) s).parts = s.parts :=
  (Touch.foldl (m := [.tiles]) (s0 := s) _ (fun _ _ h => h.step (updTile_keeps _ _ _).touch (by decide)) _ _ (.refl _ _)).parts_eq

theorem writeRecord_fabricOnly {s t : State} {p : PartId} {pl : Placement} {r : Rec} {bs : List Byte}
    (h : writeRecord s p pl r bs = .done t) : FabricOnly p s t := by
  have hdone : ∀ {u : State}, FabricOnly p s u → Wrote.done u = Wrote.done t → FabricOnly p s t := fun hu he => Wrote.done.inj he ▸ hu
  unfold writeRecord at h
  split at h
  next => exact hdone (.refl p s) h
  next pp _ =>
    split at h
    next => cases h
    next =>
      split at h
      next => exact hdone (.refl p s) h
      next =>
        split at h
        next rect img _ =>
          dsimp only at h
          split at h
          next => cases h
          next =>
            split at h
            next => cases h
            next => exact hdone (.of_parts (foldl_updTile_parts _ _ _ s)) h
        next es _ => exact hdone (.of_parts (foldl_updTile_parts _ _ es s)) h
        next es _ =>
          split at h
          next u hu => exact hdone (placeExtents_fabricOnly hu) h
          next => cases h
        next q _ =>
          split at h
          next u hu => exact hdone (placeExtents_fabricOnly hu) h
          next => cases h
        next b _ =>
          split at h
          next => exact hdone (shareBlob_fabricOnly s p b pp) h
          next =>
            split at h
            next u hu => exact hdone (placeBlob_fabricOnly hu) h
            next => cases h
        next => exact hdone (.refl p s) h

/-- The record's group is written, less what the running image's port A kept. -/
def recordWritten (s s1 : State) (p : PartId) (l : Load) (hits : List (TileAt × Nat)) : State :=
  if l.staged then dropCollided s s1 p hits else s1

theorem recordWritten_parts (s s1 : State) (p : PartId) (l : Load) (hits : List (TileAt × Nat)) : (recordWritten s s1 p l hits).parts = s1.parts := by
  unfold recordWritten
  split
  · exact (dropCollided_keeps _ _ _ _).touch.parts_eq
  · rfl

/-! ### The outcomes of a streamed record (R257, R287, R288) -/

/-- The load with a record more. -/
def recordTaken (r : Rec) (bs : List Byte) (m : Load) : Load :=
  { advanceStream m (16 + r.length) with
    image := { m.image with recs := m.image.recs ++ [r] }
    skipped := m.skipped + (16 + r.length - bs.length)
    sha := shaFeed m.sha (digestPart bs) }

section Streamed

variable {s : State} {p : PartId} {l : Load} {bs : List Byte} {ok : Bool} {hits : List (TileAt × Nat)}

theorem streamRecord_of_bad {e : Refuse} (h : checkStreamed l.image l.placement bs = .error e) :
    streamRecord s p l bs ok hits = refuseLoad s p e.1 e.2 := by
  unfold streamRecord
  rw [h]

variable {r : Rec} (hr : checkStreamed l.image l.placement bs = .ok r)
include hr

theorem streamRecord_of_refuse {c : Nat} (h : writeRecord s p l.placement r bs = .refuse c) :
    streamRecord s p l bs ok hits = refuseLoad s p c (if c = cFormat then l.image.recs.length else 0) := by
  unfold streamRecord
  rw [hr]
  dsimp only
  rw [h]

theorem streamRecord_of_noFit (h : writeRecord s p l.placement r bs = .noFit) : streamRecord s p l bs ok hits =
    if l.staged then turnCold s p else refuseLoad s p cContract l.image.recs.length := by
  unfold streamRecord
  rw [hr]
  dsimp only
  rw [h]

theorem streamRecord_of_done {s1 : State} (h : writeRecord s p l.placement r bs = .done s1) : streamRecord s p l bs ok hits =
    if !ok then failGroup (recordWritten s s1 p l hits) p r.group else updLoad (recordWritten s s1 p l hits) p (recordTaken r bs) := by
  unfold streamRecord
  rw [hr]
  dsimp only
  rw [h]
  rfl

end Streamed

theorem exec_loadRecord_of_next {s : State} {p : PartId} {l : Load} {bs : List Byte} (hup : s.glb.phase = .up) (hl : s.parts[p].load = some l)
    (hs : streaming l = true) (h : nextRecord s p l = some bs) (ok : Bool) (hits : List (TileAt × Nat)) :
    exec (.loadRecord p ok hits) s = .next (streamRecord s p l bs ok hits) := by
  refine exec_of_up hup ((exec_loadRecord p ok hits s).trans (congrArg (whenUp s) ?_))
  rw [hl]
  dsimp only
  rw [h]
  exact if_pos hs

/-- Settles O28. -/
theorem streamedRecordsAreCheckedThenWritten : Obligations.StreamedRecordsAreCheckedThenWritten := by
  intro p l bs hits s hup hl hp hc hnext
  have hrun := exec_loadRecord_of_next hup hl (streaming_of hp hc) hnext
  refine ⟨fun r s1 u hr hw hu => ?_, fun ok r hr hw hst => ?_, fun hact hf ok => ⟨fun e he => ?_, fun r hr => ⟨fun c hw => ?_, fun hw hst => ?_⟩⟩⟩
  · have hu' : u = recordWritten s s1 p l hits := hu
    subst hu'
    refine ⟨?_, ?_⟩
    · have h := hrun true hits
      rw [streamRecord_of_done hr hw, if_neg (by decide)] at h
      have hload : (recordWritten s s1 p l hits).parts[p].load = some l := by
        rw [recordWritten_parts, (writeRecord_fabricOnly hw).load_eq, hl]
      refine ⟨_, recordTaken r bs l, h, ?_, rfl, rfl, rfl, rfl, hp, rfl, rfl, rfl⟩
      rw [updLoad_part]
      exact congrArg (Option.map _) hload
    · rw [hrun false hits, streamRecord_of_done hr hw, if_pos (by rfl)]
  · rw [hrun ok hits, streamRecord_of_noFit hr hw, if_pos hst]
  · have h := hrun ok hits
    rw [streamRecord_of_bad he] at h
    exact ⟨_, h, refuseLoad_stands hact hf _ _⟩
  · have h := hrun ok hits
    rw [streamRecord_of_refuse hr hw] at h
    exact ⟨_, h, refuseLoad_stands hact hf _ _⟩
  · have h := hrun ok hits
    rw [streamRecord_of_noFit hr hw, hst, if_neg (by decide)] at h
    exact ⟨_, h, refuseLoad_stands hact hf _ _⟩

end Sys2Proof.Machine
end

