-- ==== Sys2Proof/Proofs/EndOfStream.lean ====
section
/-! Groups that cannot apply and the checks at the end of the stream: O29. -/

namespace Sys2Proof.Machine

-- One proof at a time: a default argument that is a tactic waits for every proof before it.
set_option Elab.async false

/-! ### The old image runs on (R287, R312) -/

theorem dropStaged_fabricOnly (s : State) (p : PartId) : FabricOnly p s (dropStaged s p) := by
  unfold dropStaged
  extract_lets cs s1 s2
  have h2 : s2.parts = s.parts := (clearClaims_keeps _ _ _).touch.parts_eq.trans (mapTiles_keeps _ _ _).touch.parts_eq
  exact (FabricOnly.of_parts h2).trans (.of_updFabric s2 p _)

/-- The partition that keeps its old image has no load, and else only its claims are fewer. -/
theorem keepOldImage_part (s : State) (p : PartId) :
    ∃ f, (keepOldImage s p).parts[p] = { s.parts[p] with load := none, fabric := f } := by
  unfold keepOldImage
  extract_lets s1 old extra s2 img ports s3 s4 s5 used s6
  obtain ⟨f, hf⟩ := dropStaged_fabricOnly s p
  have h1 : s1.parts[p] = { s.parts[p] with load := s.parts[p].load.map (fun l => { l with loadLanes := [] }), fabric := f } := by
    have hlanes : s1.parts[p] = _ := freeLanes_part (dropStaged s p) p
    rw [hlanes, hf]
  have h2 : s2.parts = s1.parts := (endScrub_keeps s1 extra []).touch.parts_eq
  clear_value s2 s1
  have h6 : s6.parts = s5.parts := by
    refine (Touch.foldl (m := [.spa, .spb]) (s0 := s5) _ (fun t q h => ?_) _ _ (.refl _ _)).parts_eq
    split
    · exact h
    · exact h.step (updSpn_keeps _ _ _).touch (by decide)
  have h3 : s3.parts = s2.parts := rfl
  have h4 : s4.parts = s3.parts := rfl
  have h5 : s5.parts = s4.parts := rfl
  clear_value s6 s5 s4 s3
  refine ⟨f, ?_⟩
  rw [updPart_at, h6, h5, h4, h3, h2, h1]

theorem restartInput_part (s : State) (p : PartId) : (restartInput s p).parts[p].state = .running ∧
    (restartInput s p).parts[p].load = s.parts[p].load ∧
    (restartInput s p).parts[p].flow = { s.parts[p].flow with inputOpen := true, drain := none, drained := false } ∧
    (restartInput s p).parts[p].regs.cause = s.parts[p].regs.cause := by
  have hpart := updFlow_part s p (fun f => { f with inputOpen := true, drain := none, drained := false })
  obtain ⟨-, hload, hflow, -⟩ := setPState_rest (updFlow s p (fun f => { f with inputOpen := true, drain := none, drained := false })) p .running
  unfold restartInput
  rw [hload, hflow, setPState_cause, hpart]
  exact ⟨setPState_state _ _ _, rfl, rfl, rfl⟩

section Groups

variable {s : State} {p : PartId} {l : Load} (hl : s.parts[p].load = some l)
include hl

theorem failGroup_of_staged (g : Nat) (hst : l.staged = true) : failGroup s p g =
    restartInput (keepOldImage (setCause (logPart s p cGroupFailed g) p (causeOf cGroupFailed)) p) p := by
  unfold failGroup
  rw [hl]
  exact if_pos hst

theorem failGroup_of_cold (g : Nat) (hst : l.staged = false) : failGroup s p g = faultEntry s p .faultHeld cGroupFailed g := by
  unfold failGroup
  rw [hl]
  exact if_neg (by rw [hst]; exact Bool.false_ne_true)

/-- A staged load whose group cannot apply leaves the old image running. -/
theorem failGroup_keeps_old (g : Nat) (hst : l.staged = true) : (failGroup s p g).parts[p].state = .running ∧
    (failGroup s p g).parts[p].active = s.parts[p].active ∧ (failGroup s p g).parts[p].load = none ∧
    (failGroup s p g).parts[p].flow.inputOpen = true ∧ (failGroup s p g).parts[p].regs.cause = 0x0A := by
  have hcause := setCause_part (logPart s p cGroupFailed g) p (causeOf cGroupFailed)
  rw [logPart_parts] at hcause
  obtain ⟨f, hf⟩ := keepOldImage_part (setCause (logPart s p cGroupFailed g) p (causeOf cGroupFailed)) p
  rw [hcause] at hf
  obtain ⟨hstate, hload, hflow, hc⟩ := restartInput_part (keepOldImage (setCause (logPart s p cGroupFailed g) p (causeOf cGroupFailed)) p) p
  rw [failGroup_of_staged hl g hst, restartInput_active, hload, hflow, hc, hf]
  exact ⟨hstate, rfl, rfl, rfl, rfl⟩

end Groups

/-! ### Checks 6-8 (R288) -/

section EndChecks

variable {s : State} {p : PartId} {l : Load}

theorem endChecks_of_contract (h : check6 l.image l.placement = false) : endChecks s p l = refuseLoad s p cContract noRecord :=
  if_pos (by rw [h]; rfl)

variable (h6 : check6 l.image l.placement = true)
include h6

theorem endChecks_of_ledger (h : ledgerOk l.image l.placement = false) : endChecks s p l = refuseLoad s p cLedger 0 := by
  rw [endChecks, h6, h]
  rfl

variable (hledger : ledgerOk l.image l.placement = true)
include hledger

theorem endChecks_of_unsigned (h : imageSigned s { l.image with digest := shaFinish l.sha } = false) :
    endChecks s p l = refuseLoad s p cSignature 0 := by
  rw [endChecks, h6, hledger, h]
  rfl

variable (hsigned : imageSigned s { l.image with digest := shaFinish l.sha } = true)
include hsigned

theorem endChecks_of_digest (h : shaFinish l.sha ≠ l.slot.digest) : endChecks s p l = refuseLoad s p cDecrypt 0 := by
  rw [endChecks, h6, hledger, hsigned]
  exact if_pos h

variable (hdigest : shaFinish l.sha = l.slot.digest)
include hdigest

theorem endChecks_of_counts (h : l.bytes ≠ l.image.header.length ∨ countsOk l.image = false) :
    endChecks s p l = refuseLoad s p cFormat noRecord := by
  have hno : (!(decide (l.bytes = l.image.header.length) && countsOk l.image)) = true := by
    rcases h with h | h <;> simp [h]
  rw [endChecks, h6, hledger, hsigned]
  dsimp only
  rw [if_neg (by decide), if_neg (by decide), if_neg (by decide), if_neg (not_not.mpr hdigest), if_pos hno]

theorem endChecks_of_sound (hbytes : l.bytes = l.image.header.length) (hcounts : countsOk l.image = true) : endChecks s p l =
    advanceLoad (updLoad s p (fun m => { m with checked := true, image := { m.image with digest := shaFinish l.sha } })) p := by
  have hyes : ¬(!(decide (l.bytes = l.image.header.length) && countsOk l.image)) = true := by
    rw [decide_eq_true hbytes, hcounts]
    decide
  rw [endChecks, h6, hledger, hsigned]
  dsimp only
  rw [if_neg (by decide), if_neg (by decide), if_neg (by decide), if_neg (not_not.mpr hdigest), if_neg hyes]

end EndChecks

/-! ### The load goes on (R296 step 9) -/

theorem advanceLoad_begins_lupin {s : State} {p : PartId} {l : Load} (hl : s.parts[p].load = some l) (hp : l.phase = .streaming)
    (hc : l.checked = true) (ha : s.sup.activating = false) (hports : portsReady s l.image = true) (hlup : s.parts[p].flow.lupin = none)
    (hst : l.staged = false) (hspan : imgSpan l.image = none) (hres : s.pwr.resReady = true) : advanceLoad s p = beginLupin s p := by
  unfold advanceLoad
  rw [hl]
  dsimp only
  rw [if_pos (by rw [hp, hc, ha, hports, hlup]; rfl), if_neg (by rw [hst]; exact Bool.false_ne_true), hspan]
  exact if_pos hres

section Command

variable {s : State} {p : PartId} {l : Load} {g : Option Nat} (hup : s.glb.phase = .up) (hl : s.parts[p].load = some l)
include hup hl

theorem exec_endOfStreamChecks_of_early (h : l.plain ≠ [] ∨ l.chunk < chunkCount l.slot) : exec (.endOfStreamChecks p g) s = .next s := by
  refine exec_of_up hup ((exec_endOfStreamChecks p g s).trans (congrArg (whenUp s) ?_))
  rw [hl]
  refine if_neg ?_
  rcases h with h | h
  · rw [List.isEmpty_eq_false_iff.mpr h, Bool.and_false, Bool.false_and]
    exact Bool.false_ne_true
  · rw [decide_eq_false (Nat.not_le.mpr h), Bool.and_false]
    exact Bool.false_ne_true

variable (hs : streaming l = true) (hplain : l.plain = []) (hchunk : chunkCount l.slot ≤ l.chunk)
include hs hplain hchunk

theorem exec_endOfStreamChecks_of_end : exec (.endOfStreamChecks p g) s = .next (match if l.staged then g else none with
    | some k => failGroup s p k
    | none => endChecks s p l) := by
  refine exec_of_up hup ((exec_endOfStreamChecks p g s).trans (congrArg (whenUp s) ?_))
  rw [hl]
  refine if_pos ?_
  rw [hs, hplain, decide_eq_true hchunk]
  rfl

theorem exec_endOfStreamChecks_of_unrefused (h : l.staged = false ∨ g = none) : exec (.endOfStreamChecks p g) s = .next (endChecks s p l) := by
  have hnone : (if l.staged then g else none) = none := by
    rcases h with h | h
    · rw [h]
      rfl
    · rw [h]
      exact ite_self _
  rw [exec_endOfStreamChecks_of_end hup hl hs hplain hchunk, hnone]

end Command

/-- Settles O29. -/
theorem endOfStreamChecksRunInOrder : Obligations.EndOfStreamChecksRunInOrder := by
  refine fun p l g s hup hl hp hc => ⟨exec_endOfStreamChecks_of_early hup hl, fun old hplain hchunk hact hst hg => ?_,
    fun hplain hchunk hact hf hno => ⟨fun h6 => ?_, fun h6 => ⟨fun hledger => ?_, fun hledger d hd => ⟨fun hsign => ?_, fun hsign => ⟨fun hdig => ?_,
      fun hdig hcounts => ?_, fun hdig hbytes hcounts hst hspan hports hres ha hlup => ?_⟩⟩⟩⟩⟩
  all_goals have hs := streaming_of hp hc
  · obtain ⟨k, rfl⟩ := Option.isSome_iff_exists.mp hg
    have h := exec_endOfStreamChecks_of_end (g := some k) hup hl hs hplain hchunk
    rw [if_pos hst] at h
    obtain ⟨hstate, hactive, hload, hopen, hcause⟩ := failGroup_keeps_old hl k hst
    exact ⟨_, h, hstate, hactive.trans hact, hload, hopen, hcause⟩
  all_goals have h := exec_endOfStreamChecks_of_unrefused (g := g) hup hl hs hplain hchunk hno
  · rw [endChecks_of_contract h6] at h
    exact ⟨_, h, refuseLoad_stands hact hf _ _⟩
  · rw [endChecks_of_ledger h6 hledger] at h
    exact ⟨_, h, refuseLoad_stands hact hf _ _⟩
  all_goals subst hd
  · rw [endChecks_of_unsigned h6 hledger hsign] at h
    exact ⟨_, h, refuseLoad_stands hact hf _ _⟩
  · rw [endChecks_of_digest h6 hledger hsign hdig] at h
    exact ⟨_, h, refuseLoad_stands hact hf _ _⟩
  · rw [endChecks_of_counts h6 hledger hsign hdig hcounts] at h
    exact ⟨_, h, refuseLoad_stands hact hf _ _⟩
  · rw [endChecks_of_sound h6 hledger hsign hdig hbytes hcounts] at h
    have hpart := updLoad_part s p (fun m => { m with checked := true, image := { m.image with digest := shaFinish l.sha } })
    rw [hl] at hpart
    have hload := (congrArg Partition.load hpart :)
    have hflow := (congrArg (fun x => x.flow.lupin) hpart :)
    rw [advanceLoad_begins_lupin hload hp rfl ha hports (hflow.trans hlup) hst hspan hres] at h
    have hlupin := updFlow_part (updLoad s p (fun m => { m with checked := true, image := { m.image with digest := shaFinish l.sha } })) p
      (fun f => { f with lupin := some 1 })
    refine ⟨_, { l with checked := true, image := { l.image with digest := shaFinish l.sha } }, h,
      (updLoad_keeps _ _ _).touch.step (updFlow_keeps _ _ _).touch (by decide), ?_, ?_, rfl, rfl, rfl⟩
    · exact congrArg (fun x => x.flow.lupin) hlupin
    · exact (congrArg Partition.load hlupin :).trans hload

end Sys2Proof.Machine
end

