-- ==== Sys2Proof/Proofs/CommitPoints.lean ====
section
/-! The Lupin release and the context switch: O30. -/

namespace Sys2Proof.Machine

-- One proof at a time: a default argument that is a tactic waits for every proof before it.
set_option Elab.async false

/-! ### Tiles of some regions changed alike -/

/-- A change of the tiles in some regions. -/
def tileMapped (rs : List RegionId) (f : Tile → Tile) (k : Nat) (t : Tile) : Tile := if tileIn rs k then f t else t

theorem mapTiles_tiles (s : State) (rs : List RegionId) (f : Tile → Tile) : (mapTiles s rs f).tiles =
    (s.tiles.map (fun c => (c.1, tileMapped rs f c.1 c.2))).filter (fun c => decide (c.2 ≠ {})) := by
  have hmap : (fun c : Nat × Tile => if tileIn rs c.1 then (c.1, f c.2) else c) = fun c => (c.1, tileMapped rs f c.1 c.2) := by
    funext c
    rw [tileMapped]
    split <;> rfl
  rw [mapTiles, hmap]

theorem mapTiles_wf {s : State} (hs : tabWf ({} : Tile) s.tiles = true) (rs : List RegionId) (f : Tile → Tile) :
    tabWf ({} : Tile) (mapTiles s rs f).tiles = true := by
  rw [mapTiles_tiles]
  exact tabWf_mapFilter ({} : Tile) (fun c => (c.1, tileMapped rs f c.1 c.2)) (fun _ => rfl) _ hs

/-- A tile after a change of the tiles in some regions. -/
theorem getTile_mapTiles {s : State} (hs : tabWf ({} : Tile) s.tiles = true) (rs : List RegionId) {f : Tile → Tile} (hf : f {} = {}) (k : Nat) :
    getTile (mapTiles s rs f) k = tileMapped rs f k (getTile s k) := by
  rw [getTile, mapTiles_tiles]
  refine tabGet_mapFilter ({} : Tile) (tileMapped rs f) (fun j => ?_) k s.tiles 0 hs
  rw [tileMapped, hf]
  exact ite_self _

/-! ### Tiles whose links are quiet -/

/-- A tile drives no link and has counted no error. -/
def LinksQuiet (t : Tile) : Prop := (∀ i : Fin 4, t.driven[i] = 0) ∧ t.counters.linkErr = 0

theorem quietLinks_of_quiet {t : Tile} (h : LinksQuiet t) (r : RegionId) (k : Nat) : quietLinks r k t = t := by
  obtain ⟨hdriven, herr⟩ := h
  have hcut : ∀ (f : Fin 4 → Bool), ([0, 1, 2, 3] : List (Fin 4)).filter (fun i => f i && decide (t.driven[i] ≠ 0)) = [] := fun f =>
    List.filter_eq_nil_iff.mpr fun i _ => by simp only [hdriven i, ne_eq, not_true_eq_false, decide_false, Bool.and_false, Bool.false_eq_true,
      not_false_eq_true]
  have hdrive : ∀ (f : Fin 4 → Bool), Vector.ofFn (fun i : Fin 4 => if f i then 0 else t.driven[i]) = t.driven := fun f => by
    refine Vector.ext fun i hi => ?_
    have hz := hdriven ⟨i, hi⟩
    rw [Vector.getElem_ofFn]
    split
    · exact hz.symm
    · rfl
  have hcount : { t.counters with linkErr := sat32 (t.counters.linkErr + 0) } = t.counters := by
    rw [herr]
    exact congrArg (fun n => { t.counters with linkErr := n }) herr.symm
  unfold quietLinks
  extract_lets crosses cut
  have hc : cut = [] := hcut fun i => crosses i.val
  rw [hc, hdrive fun i => crosses i.val]
  exact congrArg (fun c => { t with counters := c }) hcount

theorem getTile_closeAllGates_of_quiet (k : Nat) : ∀ (rs : List RegionId) {s : State}, tabWf ({} : Tile) s.tiles = true →
    LinksQuiet (getTile s k) → getTile (closeAllGates s rs) k = getTile s k
  | [], _, _, _ => rfl
  | r :: rs, s, hs, h => by
    have hone : getTile (closeGates s r) k = getTile s k := (getTile_closeGates hs r k).trans (quietLinks_of_quiet h r k)
    have hrest : getTile (closeAllGates (closeGates s r) rs) k = getTile (closeGates s r) k :=
      getTile_closeAllGates_of_quiet k rs ((closeGates_linksOnly s r) hs).1 (hone ▸ h)
    exact hrest.trans hone

/-! ### Empty tiles (R92) -/

theorem tabGet_mem {α : Type} (d : α) (k : Nat) : ∀ l : List (Nat × α), tabGet d k l = d ∨ (k, tabGet d k l) ∈ l
  | [] => .inl rfl
  | (j, v) :: l => by
    unfold tabGet
    split
    next h => exact .inr (h ▸ List.mem_cons_self)
    next => exact (tabGet_mem d k l).imp_right (List.mem_cons_of_mem _)

theorem driven_of_tileEmpty {t : Tile} (h : tileEmpty t = true) (i : Fin 4) : t.driven[i] = 0 := by
  simp only [tileEmpty, Bool.and_eq_true] at h
  have hall := List.all_eq_true.mp h.2 t.driven[i] (Vector.mem_toList_iff.mpr (Vector.getElem_mem i.isLt))
  exact of_decide_eq_true hall

theorem driven_of_partEmpty {s : State} {p : PartId} (h : partEmpty s p = true) {k : Nat} (hk : tileIn (runRegions s p) k = true) (i : Fin 4) :
    (getTile s k).driven[i] = 0 := by
  rcases tabGet_mem ({} : Tile) k s.tiles with hd | hmem
  · have hget : getTile s k = {} := hd
    rw [hget]
    revert i
    decide
  · simp only [partEmpty, Bool.and_eq_true] at h
    obtain ⟨⟨htiles, -⟩, -⟩ := h
    exact driven_of_tileEmpty (List.all_eq_true.mp htiles (k, getTile s k) (List.mem_filter.mpr ⟨hmem, hk⟩)) i

/-- The context of the image that ran becomes the old image's. -/
def retireCtx (c : Context) : Context := if c.use = .inUse then { c with use := .old } else c

theorem switchTile_of_none {t : Tile} (h : loadCtx t = none) : switchTile t = { freshTile t with ctx := t.ctx.map retireCtx } := by
  unfold switchTile
  rw [h]
  rfl

theorem switchTile_default : switchTile {} = {} := by
  have hctx : ({} : Tile).ctx.map retireCtx = ({} : Tile).ctx := Vector.map_replicate
  rw [switchTile_of_none (by decide), hctx]
  rfl

theorem switchTile_linksQuiet {t : Tile} (h : ∀ i : Fin 4, t.driven[i] = 0) : LinksQuiet (switchTile t) := by
  unfold switchTile
  extract_lets old
  split
  · exact ⟨h, rfl⟩
  · exact ⟨h, rfl⟩

/-! ### The new image takes over (R300, R303) -/

/-- The partition of `t` runs the image of `l`, begun at the time of `s`, whatever its fabric. -/
structure TakesOver (s : State) (p : PartId) (l : Load) (t : State) : Prop where
  part : ∃ f, t.parts[p] = { freshRun l.image l.placement (now s) s.parts[p] with fabric := f }

theorem TakesOver.of_parts {s t u : State} {p : PartId} {l : Load} (h : TakesOver s p l t) (k : u.parts = t.parts) : TakesOver s p l u := by
  obtain ⟨f, hf⟩ := h
  exact ⟨f, by rw [k, hf]⟩

/-- The fabric of the image that takes over, its claims in use. -/
def switchedFabric (s : State) (p : PartId) (l : Load) (post : Option (List RegionId)) (u : State) : State :=
  updFabric (updPart u p (freshRun l.image l.placement (now s))) p
    (fun f => { f with claims := switchClaims f.claims, postScrub := post <|> f.postScrub })

theorem closeFree_part (s : State) (p : PartId) : (freeLanes (closeExport s p) p).parts[p] =
    { s.parts[p] with load := s.parts[p].load.map fun l => { l with loadLanes := [] } } := by
  rw [freeLanes_part, (closeExport_keeps s p).touch.parts_eq]

theorem switchedFabric_takesOver (s : State) (p : PartId) (l : Load) (post : Option (List RegionId)) (rs : List RegionId) (f : Tile → Tile) :
    TakesOver s p l (switchedFabric s p l post (mapTiles (freeLanes (closeExport s p) p) rs f)) := by
  have hparts : (mapTiles (freeLanes (closeExport s p) p) rs f).parts[p] = _ := closeFree_part s p
  refine ⟨?_⟩
  rw [switchedFabric, updFabric_part, updPart_at, hparts]
  exact ⟨_, rfl⟩

/-- What a commit point that takes over leaves of the partition. -/
theorem TakesOver.runs {s t : State} {p : PartId} {l : Load} (h : TakesOver s p l t) : t.parts[p].active = some l.image ∧
    t.parts[p].placement = some l.placement ∧ t.parts[p].load = none ∧ t.parts[p].flow.inputOpen = true ∧ t.parts[p].flow.windows = [] ∧
    t.parts[p].flow.hyst = [] ∧ t.parts[p].flow.lupin = none ∧ t.parts[p].flow.drain = none ∧ t.parts[p].regs.win = 0 ∧
    t.parts[p].regs.vrd = 0 ∧ t.parts[p].regs.rej = 0 ∧ t.parts[p].regs.nacc = 0 ∧ t.parts[p].tun = freshTunables l.image ∧
    t.parts[p].regs.ldgGen = (s.parts[p].regs.ldgGen + 1) % 2 ^ 32 := by
  obtain ⟨f, hf⟩ := h
  rw [hf]
  exact ⟨rfl, rfl, rfl, rfl, rfl, rfl, rfl, rfl, rfl, rfl, rfl, rfl, rfl, rfl⟩

theorem setPState_regs (s : State) (p : PartId) (st : PState) : (setPState s p st).parts[p].regs.win = s.parts[p].regs.win ∧
    (setPState s p st).parts[p].regs.vrd = s.parts[p].regs.vrd ∧ (setPState s p st).parts[p].regs.rej = s.parts[p].regs.rej ∧
    (setPState s p st).parts[p].regs.nacc = s.parts[p].regs.nacc ∧ (setPState s p st).parts[p].regs.ldgGen = s.parts[p].regs.ldgGen := by
  rw [setPState_part]
  split
  · exact ⟨rfl, rfl, rfl, rfl, rfl⟩
  · exact ⟨rfl, rfl, rfl, rfl, rfl⟩

/-- The released partition before its state changes. -/
def released (s : State) (p : PartId) (l : Load) : State :=
  let s1 := switchedFabric s p l none (mapTiles (freeLanes (closeExport s p) p) (placedRegions l.placement) switchTile)
  let s2 := mapRegions (startPorts (switchPins s1 p l.image) l.image none) (placedRegions l.placement) (fun g => { g with demand := 720, intervals := [] })
  (spanPortsOf s2 p).foldl (fun s q => updSpn s q (fun y => { y with span := 3, drained := Vector.replicate 4 0, ddrained := 0 })) s2

theorem commitRelease_eq {s : State} {p : PartId} {l : Load} (hl : s.parts[p].load = some l) :
    commitRelease s p = setPState (released s p l) p .running := by
  unfold commitRelease
  rw [hl]
  rfl

theorem released_takesOver (s : State) (p : PartId) (l : Load) : TakesOver s p l (released s p l) := by
  unfold released
  extract_lets s1 s2
  have h1 : TakesOver s p l s1 := switchedFabric_takesOver s p l none _ _
  have h2 : s2.parts = s1.parts := (mapRegions_keeps _ _ (fun g => { g with demand := 720, intervals := [] })).touch.parts_eq
  have h3 : ∀ (f : Spn → Spn) (qs : List SpanPort), (qs.foldl (fun s q => updSpn s q f) s2).parts = s2.parts := fun f qs =>
    (Touch.foldl (m := [.spa, .spb]) (s0 := s2) _ (fun _ _ h => h.step (updSpn_keeps _ _ _).touch (by decide)) _ _ (.refl _ _)).parts_eq
  exact h1.of_parts ((h3 _ _).trans h2)

section Release

variable {s : State} {p : PartId} {k : Nat} (hup : s.glb.phase = .up) (hlup : s.parts[p].flow.lupin = some k)
include hup hlup

theorem exec_lupinStageAck_of_load {l : Load} (hl : s.parts[p].load = some l) : exec (.lupinStageAck p none) s =
    .next (if k < 3 then updFlow s p (fun f => { f with lupin := some (k + 1) }) else sendGo (commitRelease s p) l.image) := by
  refine exec_of_up hup ((exec_lupinStageAck p none s).trans (congrArg (whenUp s) ?_))
  rw [hlup, hl]

theorem exec_lupinStageAck_of_group {l : Load} (hl : s.parts[p].load = some l) (g : Nat) :
    exec (.lupinStageAck p (some g)) s = .next (failGroup s p g) := by
  refine exec_of_up hup ((exec_lupinStageAck p (some g) s).trans (congrArg (whenUp s) ?_))
  rw [hlup, hl]

theorem exec_releaseFailed_of_release : exec (.releaseFailed p) s =
    .next (faultEntry (abortSpan (failLoadingPins s p) p 2 (fun _ => true)) p .faultHeld cReleaseFailed k) := by
  refine exec_of_up hup ((exec_releaseFailed p s).trans (congrArg (whenUp s) ?_))
  rw [hlup]

end Release

/-! ### The context switch (R303 steps 5 and 6) -/

/-- Regions of the running image that the staged one leaves. -/
def beyondPath (s : State) (p : PartId) (l : Load) : List RegionId := (runRegions s p).filter (fun r => !(placedRegions l.placement).contains r)

/-- The tiles switched and the regions beyond the path closed. -/
def contextsSwitched (s : State) (p : PartId) (l : Load) : State :=
  closeAllGates (switchedFabric s p l (some (beyondPath s p l)) (mapTiles (freeLanes (closeExport s p) p) (runRegions s p) switchTile)) (beyondPath s p l)

theorem commitSwitch_eq {s : State} {p : PartId} {l : Load} {old : Image} (hl : s.parts[p].load = some l) (hact : s.parts[p].active = some old) :
    commitSwitch s p = restartInput (startPorts (switchPins (contextsSwitched s p l) p l.image) l.image (some old)) p := by
  unfold commitSwitch
  rw [hl, hact]
  rfl

theorem contextsSwitched_takesOver (s : State) (p : PartId) (l : Load) : TakesOver s p l (contextsSwitched s p l) :=
  (switchedFabric_takesOver s p l _ _ _).of_parts (closeAllGates_keeps _ _).touch.parts_eq

/-- Every tile of the partition is switched, and the closing of gates leaves it so. -/
theorem getTile_contextsSwitched {s : State} {p : PartId} (l : Load) (hs : storeOk s) (hempty : partEmpty s p = true) {k : Nat}
    (hk : tileIn (runRegions s p) k = true) : getTile (contextsSwitched s p l) k = switchTile (getTile s k) := by
  have htiles : (freeLanes (closeExport s p) p).tiles = s.tiles :=
    ((closeExport_keeps s p).touch.mono (m := [.exps, .arbLast, .wafer, .parts]) (by decide) |>.step (freeLanes_keeps _ _).touch (by decide)).tiles_eq
  have hwf : tabWf ({} : Tile) (freeLanes (closeExport s p) p).tiles = true := by
    rw [htiles]
    exact hs.2
  have hmap : getTile (mapTiles (freeLanes (closeExport s p) p) (runRegions s p) switchTile) k = switchTile (getTile s k) := by
    rw [getTile_mapTiles hwf _ switchTile_default, tileMapped, if_pos hk, getTile, htiles, getTile]
  have hquiet := switchTile_linksQuiet (driven_of_partEmpty hempty hk)
  rw [← hmap] at hquiet ⊢
  exact getTile_closeAllGates_of_quiet k (beyondPath s p l)
    (s := switchedFabric s p l (some (beyondPath s p l)) (mapTiles (freeLanes (closeExport s p) p) (runRegions s p) switchTile))
    (mapTiles_wf hwf _ _) hquiet

section Switch

variable {s : State} {p : PartId} (hup : s.glb.phase = .up)
include hup

theorem exec_contextSwitch_of_busy (h : partEmpty s p = false) (g : Option Nat) : exec (.contextSwitch p g) s = .next s := by
  refine exec_of_up hup ((exec_contextSwitch p g s).trans (congrArg (whenUp s) ?_))
  exact if_neg (by rw [h, Bool.and_false]; exact Bool.false_ne_true)

theorem exec_contextSwitch_of_empty (hdrain : s.parts[p].flow.drain = some .staged) (hdone : s.parts[p].flow.drained = true)
    (h : partEmpty s p = true) (g : Option Nat) : exec (.contextSwitch p g) s = .next (match g with
      | some k => failGroup s p k
      | none => commitSwitch s p) := by
  refine exec_of_up hup ((exec_contextSwitch p g s).trans (congrArg (whenUp s) ?_))
  exact if_pos (by rw [hdone, hdrain, h]; rfl)

end Switch

theorem restartInput_counts (s : State) (p : PartId) : (restartInput s p).parts[p].regs.win = s.parts[p].regs.win ∧
    (restartInput s p).parts[p].regs.ldgGen = s.parts[p].regs.ldgGen ∧ (restartInput s p).parts[p].tun = s.parts[p].tun := by
  have hpart := updFlow_part s p (fun f => { f with inputOpen := true, drain := none, drained := false })
  obtain ⟨hwin, -, -, -, hgen⟩ := setPState_regs (updFlow s p (fun f => { f with inputOpen := true, drain := none, drained := false })) p .running
  obtain ⟨-, -, -, -, -, htun, -⟩ := setPState_rest (updFlow s p (fun f => { f with inputOpen := true, drain := none, drained := false })) p .running
  rw [restartInput, hwin, hgen, htun, hpart]
  exact ⟨rfl, rfl, rfl⟩

/-- The partition whose release has ended. -/
theorem commitRelease_runs {s : State} {p : PartId} {l : Load} (hl : s.parts[p].load = some l) :
    (commitRelease s p).parts[p].state = .running ∧ (commitRelease s p).parts[p].active = some l.image ∧
    (commitRelease s p).parts[p].placement = some l.placement ∧ (commitRelease s p).parts[p].load = none ∧
    (commitRelease s p).parts[p].flow.inputOpen = true ∧ (commitRelease s p).parts[p].flow.windows = [] ∧
    (commitRelease s p).parts[p].flow.hyst = [] ∧ (commitRelease s p).parts[p].flow.lupin = none ∧
    (commitRelease s p).parts[p].regs.win = 0 ∧ (commitRelease s p).parts[p].regs.vrd = 0 ∧ (commitRelease s p).parts[p].regs.rej = 0 ∧
    (commitRelease s p).parts[p].regs.nacc = 0 ∧ (commitRelease s p).parts[p].tun = freshTunables l.image ∧
    (commitRelease s p).parts[p].regs.ldgGen = (s.parts[p].regs.ldgGen + 1) % 2 ^ 32 := by
  obtain ⟨hactive, hload, hflow, hplace, -, htun, -⟩ := setPState_rest (released s p l) p .running
  obtain ⟨hwin, hvrd, hrej, hnacc, hgen⟩ := setPState_regs (released s p l) p .running
  obtain ⟨ra, rp, rl, ri, rw', rh, rlup, -, r1, r2, r3, r4, rt, rg⟩ := (released_takesOver s p l).runs
  rw [commitRelease_eq hl, hactive, hload, hflow, hplace, htun, hwin, hvrd, hrej, hnacc, hgen]
  exact ⟨setPState_state _ _ _, ra, rp, rl, ri, rw', rh, rlup, r1, r2, r3, r4, rt, rg⟩

theorem sendGo_parts (s : State) (i : Image) : (sendGo s i).parts = s.parts := (sendGo_keeps s i).touch.parts_eq

/-- Settles O30. -/
theorem commitPointsRunTheNewImage : Obligations.CommitPointsRunTheNewImage := by
  refine ⟨fun p k s hup hlup => ⟨fun l hl hk => ?_, fun l hl hk => ?_, fun hf => ?_, fun l g hl hst hf => ?_⟩,
    fun p l old s hup hdrain hdone hl hact => ⟨fun g hbusy => exec_contextSwitch_of_busy hup hbusy g, fun hempty => ?_, fun g hempty hst => ?_⟩⟩
  · have h := exec_lupinStageAck_of_load hup hlup hl
    rw [if_pos hk] at h
    exact ⟨_, h, (updFlow_keeps _ _ _).touch, updFlow_part _ _ _⟩
  · have h := exec_lupinStageAck_of_load hup hlup hl
    rw [if_neg (Nat.not_lt.mpr hk)] at h
    refine ⟨_, h, ?_⟩
    rw [sendGo_parts]
    exact commitRelease_runs hl
  · refine ⟨_, exec_releaseFailed_of_release hup hlup, faultEntry_stands _ _ _ _ _ ?_⟩
    have hparts : (abortSpan (failLoadingPins s p) p 2 (fun _ => true)).parts = s.parts :=
      (abortSpan_keeps _ _ _ _).touch.parts_eq.trans (failLoadingPins_keeps _ _).touch.parts_eq
    rw [hparts]
    exact hf
  · have h := exec_lupinStageAck_of_group hup hlup hl g
    rw [failGroup_of_cold hl g hst] at h
    exact ⟨_, h, faultEntry_stands _ _ _ _ _ hf⟩
  · have h := exec_contextSwitch_of_empty hup hdrain hdone hempty none
    dsimp only at h
    rw [commitSwitch_eq hl hact] at h
    have hports : Touch [.imgs, .snds, .pins] (contextsSwitched s p l)
        (startPorts (switchPins (contextsSwitched s p l) p l.image) l.image (some old)) :=
      ((switchPins_keeps _ _ _).touch.mono (by decide)).step (startPorts_keeps _ _ _).touch (by decide)
    have hover : TakesOver s p l (startPorts (switchPins (contextsSwitched s p l) p l.image) l.image (some old)) :=
      (contextsSwitched_takesOver s p l).of_parts hports.parts_eq
    obtain ⟨ra, -, rl, -, -, -, -, -, rwin, -, -, -, rt, rg⟩ := hover.runs
    have htiles : (startPorts (switchPins (contextsSwitched s p l) p l.image) l.image (some old)).tiles = (contextsSwitched s p l).tiles :=
      hports.tiles_eq
    clear hports
    generalize startPorts (switchPins (contextsSwitched s p l) p l.image) l.image (some old) = u at h ra rl rwin rt rg htiles
    obtain ⟨hstate, hload, hflow, -⟩ := restartInput_part u p
    obtain ⟨hwin, hgen, htun⟩ := restartInput_counts u p
    refine ⟨_, h, hstate, (restartInput_active u p).trans ra, hload.trans rl, ?_, ?_, hwin.trans rwin, htun.trans rt, hgen.trans rg,
      fun hs k hk => ?_⟩
    · rw [hflow]
    · rw [hflow]
    · have hu : (restartInput u p).tiles = (contextsSwitched s p l).tiles := (restartInput_keeps u p).touch.tiles_eq.trans htiles
      rw [getTile, hu]
      exact getTile_contextsSwitched l hs hempty hk
  · have h := exec_contextSwitch_of_empty hup hdrain hdone hempty (some g)
    obtain ⟨hstate, hactive, hload, hopen, hcause⟩ := failGroup_keeps_old hl g hst
    exact ⟨_, h, hstate, hactive.trans hact, hload, hopen, hcause⟩

end Sys2Proof.Machine
end

