-- ==== Sys2Proof/Proofs/DrainsAndScrubs.lean ====
section
/-! The end of a drain and of the scrubs after it: O31. -/

namespace Sys2Proof.Machine

-- One proof at a time: a default argument that is a tactic waits for every proof before it.
set_option Elab.async false

/-! ### The end of a drain (R302, R308) -/

theorem finishActivation_of_idle {s : State} (h : s.sup.activating = false) : finishActivation s = s :=
  if_neg (by rw [h, Bool.false_and]; exact Bool.false_ne_true)

theorem pinFailSafe_claims (x : Pin) : (pinFailSafe x).claimed = x.claimed ∧ (pinFailSafe x).loading = x.loading := by
  unfold pinFailSafe
  split
  · exact ⟨rfl, rfl⟩
  · exact ⟨rfl, rfl⟩

theorem pinFailSafe_level {x : Pin} {e : PinEntry} (h : x.entry = some e) : (pinFailSafe x).level = failLevel e := by
  rw [pinFailSafe, h]
  rfl

theorem releasePins_pin (s : State) (p : PartId) (n : PinId) : (releasePins s p).pins[n] =
    if s.pins[n].claimed = some p then { s.pins[n] with claimed := none, loading := none, entry := none } else s.pins[n] := by
  simp [releasePins, updPins]

theorem pinsAfterDrain_pin (s : State) (p : PartId) (n : PinId) : (pinsAfterDrain s p).pins[n] =
    if s.pins[n].claimed = some p then
      { pinFailSafe s.pins[n] with entry := none, claimed := if (pinFailSafe s.pins[n]).loading.isSome then some p else none }
    else s.pins[n] := by
  have hat : (pinsAfterDrain s p).pins[n] = if (failPins s p).pins[n].claimed = some p then
      { (failPins s p).pins[n] with entry := none, claimed := if (failPins s p).pins[n].loading.isSome then some p else none }
      else (failPins s p).pins[n] := by
    simp [pinsAfterDrain, updPins]
  rw [hat, failPins_pin]
  by_cases h : s.pins[n].claimed = some p
  · rw [if_pos h, if_pos ((pinFailSafe_claims _).1.trans h), if_pos h]
  · rw [if_neg h, if_neg h, if_neg h]

/-- A pin that the partition claimed is free after its drain, at the level of its fail-safe. -/
theorem givenUp_pin {s : State} {p : PartId} {n : PinId} (h : s.pins[n].claimed = some p) :
    (releasePins (pinsAfterDrain s p) p).pins[n].claimed = none ∧ (releasePins (pinsAfterDrain s p) p).pins[n].entry = none ∧
    ∀ e, s.pins[n].entry = some e → (releasePins (pinsAfterDrain s p) p).pins[n].level = failLevel e := by
  rw [releasePins_pin, pinsAfterDrain_pin, if_pos h]
  by_cases hl : (pinFailSafe s.pins[n]).loading.isSome = true
  · rw [if_pos hl, if_pos rfl]
    exact ⟨rfl, rfl, fun e he => pinFailSafe_level he⟩
  · rw [if_neg hl, if_neg nofun]
    exact ⟨rfl, rfl, fun e he => pinFailSafe_level he⟩

theorem endImage_part (s : State) (p : PartId) (why : ScrubWhy) : (endImage s p why).parts[p].active = none ∧
    (endImage s p why).parts[p].flow.scrub = some why ∧ (endImage s p why).parts[p].flow.drain = none ∧
    (endImage s p why).parts[p].flow.inputOpen = false := by
  unfold endImage
  extract_lets s1 s2 s3
  rw [updPart_at]
  exact ⟨rfl, rfl, rfl, rfl⟩

theorem endImage_linksOnly (s : State) (p : PartId) (why : ScrubWhy) : LinksOnly s (endImage s p why) := by
  unfold endImage
  extract_lets s1 s2 s3
  have h1 : LinksOnly s s1 := (LinksOnly.of_touch (endGap_keeps s p).touch).trans <|
    (LinksOnly.of_touch (closeExport_keeps _ _).touch).trans (.of_touch (cancelCensus_keeps _ _).touch)
  have h2 : LinksOnly s1 s2 := closeAllGates_linksOnly _ _
  have h3 : LinksOnly s2 s3 := .of_touch (mapRegions_keeps _ _ (fun g => setVdd 720 { g with intervals := [] })).touch
  exact h1.trans (h2.trans (h3.trans (.of_touch (updPart_keeps _ _ _).touch)))

/-- The partition gives up ports and pins, and its image ends. -/
def imageGivenUp (s : State) (p : PartId) : State := endImage (releasePorts (releasePins (pinsAfterDrain s p) p) p) p .toEmpty

theorem givenUp_touch (s : State) (p : PartId) : Touch [.pins, .imgs, .snds, .spa, .spb] s (releasePorts (releasePins (pinsAfterDrain s p) p) p) :=
  (((pinsAfterDrain_keeps s p).touch.mono (by decide)).step (releasePins_keeps _ _).touch (by decide)).step (releasePorts_keeps _ _).touch (by decide)

theorem imageGivenUp_touch (s : State) (p : PartId) : Touch [.pins, .imgs, .snds, .spa, .spb, .regions, .parts, .exps, .arbLast, .tiles] s
    (imageGivenUp s p) :=
  ((givenUp_touch s p).mono (by decide)).step (endImage_keeps _ p .toEmpty).touch (by decide)

theorem imageGivenUp_part (s : State) (p : PartId) : (imageGivenUp s p).parts[p].active = none ∧
    (imageGivenUp s p).parts[p].flow.scrub = some .toEmpty ∧ (imageGivenUp s p).parts[p].flow.drain = none ∧
    (imageGivenUp s p).parts[p].flow.inputOpen = false := by
  rw [imageGivenUp]
  exact endImage_part _ p .toEmpty

theorem imageGivenUp_linksOnly (s : State) (p : PartId) : LinksOnly s (imageGivenUp s p) := by
  rw [imageGivenUp]
  exact (LinksOnly.of_touch (givenUp_touch s p)).trans (endImage_linksOnly _ p .toEmpty)

theorem imageGivenUp_pins (s : State) (p : PartId) : (imageGivenUp s p).pins = (releasePins (pinsAfterDrain s p) p).pins := by
  rw [imageGivenUp]
  exact (endImage_keeps _ p .toEmpty).touch.pins_eq.trans (releasePorts_keeps _ _).touch.pins_eq

theorem endDrain_of_end {why : DrainWhy} (h : why ∈ [DrainWhy.unload, .stopOnRemoval, .aborted]) (s : State) (p : PartId) :
    endDrain s p why = imageGivenUp s p := by
  simp only [List.mem_cons, List.not_mem_nil, or_false] at h
  rcases h with rfl | rfl | rfl
  · rfl
  · rfl
  · rfl

section Drain

variable {s : State} {p : PartId} {why : DrainWhy} (hup : s.glb.phase = .up) (hdrain : s.parts[p].flow.drain = some why)
include hup hdrain

theorem exec_drainComplete_of_busy (h : drainedOut s p = false) : exec (.drainComplete p) s = .next s := by
  refine exec_of_up hup ((exec_drainComplete p s).trans (congrArg (whenUp s) ?_))
  rw [hdrain]
  exact if_neg (by rw [h, Bool.and_false]; exact Bool.false_ne_true)

theorem exec_drainComplete_of_out (hdone : s.parts[p].flow.drained = false) (h : drainedOut s p = true) :
    exec (.drainComplete p) s = .next (finishActivation (endDrain s p why)) := by
  refine exec_of_up hup ((exec_drainComplete p s).trans (congrArg (whenUp s) ?_))
  rw [hdrain]
  exact if_pos (by rw [hdone, h]; rfl)

end Drain

/-! ### The scrub of a partition's regions (R211, R212, R438) -/

/-- A region that has left its partition: scrubbed, and off where its read-back failed. -/
structure GivenBack (failed : List RegionId) (r : RegionId) (s : State) : Prop where
  owner : s.regions[r].owner = none
  tiles : noTiles s r
  mem : ∀ a : Nat, tileRegion (a / 16384) = r → Memory.read s.mem a = 0
  off : r ∈ failed → s.regions[r].supplyOn = false

theorem GivenBack.scrubbed {failed : List RegionId} {r : RegionId} {s : State} (h : GivenBack failed r s) : regionScrubbed s r :=
  ⟨fun _ hk => h.tiles.getTile hk, h.mem⟩

/-- What leaves the region, the tiles and the block memory leaves it given back. -/
theorem GivenBack.keep {failed : List RegionId} {r : RegionId} {s t : State} (h : GivenBack failed r s)
    (ho : t.regions[r].owner = s.regions[r].owner) (hs : t.regions[r].supplyOn = s.regions[r].supplyOn) (ht : noTiles s r → noTiles t r)
    (hm : ∀ a : Nat, tileRegion (a / 16384) = r → Memory.read s.mem a = 0 → Memory.read t.mem a = 0) : GivenBack failed r t :=
  ⟨ho.trans h.owner, ht h.tiles, fun a ha => hm a ha (h.mem a ha), fun hf => hs.trans (h.off hf)⟩

/-- The scrub of one region ends. -/
def endScrubOne (failed : List RegionId) (s : State) (r : RegionId) : State :=
  if !(s.regions[r]).supplyOn then updRegion (scrubRegions s [r]) r (fun g => { g with owner := none })
  else if !reachable s r then scrubRegions (retireRegion s r) [r]
  else if failed.contains r then updRegion (loseRegion (scrubRegions s [r]) r) r (fun g => { g with owner := none })
  else freeRegion (scrubRegions s [r]) r

theorem endScrub_eq (s : State) (rs failed : List RegionId) : endScrub s rs failed = rs.foldl (endScrubOne failed) s := rfl

/-- The region that a failed scrub marks as lost, before the loss is logged. -/
theorem loseRegion_regions (s : State) (r : RegionId) : (loseRegion s r).regions =
    (updRegion s r (fun g => { g with supplyOut := true, supplyOn := false, vdd := 0 })).regions := by
  unfold loseRegion
  extract_lets m e m1 h s1
  have h1 : s1.regions = _ := (commitMap_keeps (updRegion s r (fun g => { g with supplyOut := true, supplyOn := false, vdd := 0 })) (addHistory m1 h)).touch.regions_eq
  exact (reportGrade_keeps _).touch.regions_eq.trans ((logPlain_keeps _ _ _).touch.regions_eq.trans h1)

theorem scrubRegions_owner (s : State) (r q : RegionId) : (scrubRegions s [r]).regions[q].owner = s.regions[q].owner ∧
    (scrubRegions s [r]).regions[q].supplyOn = s.regions[q].supplyOn := by
  by_cases h : q = r
  · rw [scrubRegions_region_at s (h ▸ List.mem_cons_self)]
    exact ⟨rfl, rfl⟩
  · rw [scrubRegions_region_off s (by simpa using h)]
    exact ⟨rfl, rfl⟩

theorem noTiles_scrubRegions {s : State} {q : RegionId} (h : noTiles s q) (rs : List RegionId) : noTiles (scrubRegions s rs) q := by
  intro c hc
  rw [scrubRegions_tiles] at hc
  exact h c (List.mem_filter.mp hc).1

theorem read_scrubbed_zero {s : State} {a : Nat} (h : Memory.read s.mem a = 0) (rs : List RegionId) : Memory.read (scrubRegions s rs).mem a = 0 := by
  rw [read_scrubRegions, h]
  exact ite_self _

theorem scrubbed_one (s : State) (r : RegionId) : regionScrubbed (scrubRegions s [r]) r ∧ noTiles (scrubRegions s [r]) r :=
  ⟨scrubRegions_scrubbed s List.mem_cons_self, scrubRegions_noTiles s List.mem_cons_self⟩

theorem endScrubOne_gives_back (failed : List RegionId) (s : State) (r : RegionId) : GivenBack failed r (endScrubOne failed s r) := by
  obtain ⟨⟨-, hmem⟩, htiles⟩ := scrubbed_one s r
  unfold endScrubOne
  split
  next h =>
    have hoff : s.regions[r].supplyOn = false := by simpa [-Fin.getElem_fin] using h
    refine ⟨congrArg Region.owner (updRegion_at _ _ _), htiles.of_tiles rfl, hmem, fun _ => ?_⟩
    exact (congrArg Region.supplyOn (updRegion_at _ _ _) :).trans ((scrubRegions_owner s r r).2.trans hoff)
  next =>
    split
    next =>
      obtain ⟨⟨-, hmem'⟩, htiles'⟩ := scrubbed_one (retireRegion s r) r
      obtain ⟨ho, hs⟩ := scrubRegions_owner (retireRegion s r) r r
      have hret := updRegion_at (closeGates s r) r (fun g => { g with owner := none, supplyOn := false, vdd := 0, demand := 0, cycleOff := true, gatewayOut := [] })
      exact ⟨ho.trans (congrArg Region.owner hret :), htiles', hmem', fun _ => hs.trans (congrArg Region.supplyOn hret :)⟩
    next =>
      split
      next =>
        have ht : Touch [.signals, .wafer, .regions, .flt] (scrubRegions s [r]) (updRegion (loseRegion (scrubRegions s [r]) r) r (fun g => { g with owner := none })) :=
          (loseRegion_keeps _ _).touch.step (updRegion_keeps _ _ _).touch (by decide)
        refine ⟨congrArg Region.owner (updRegion_at _ _ _), htiles.of_tiles ht.tiles_eq, ?_, fun _ => ?_⟩
        · rw [ht.mem_eq]
          exact hmem
        · rw [updRegion_at, loseRegion_regions, updRegion_at]
      next hno =>
        refine ⟨congrArg Region.owner (updRegion_at _ _ _), htiles.of_tiles rfl, hmem, fun hf => ?_⟩
        exact absurd (List.contains_iff_mem.mpr hf) hno

theorem endScrubOne_leaves (failed : List RegionId) {s : State} {r q : RegionId} (hq : q ≠ r) (h : GivenBack failed q s) :
    GivenBack failed q (endScrubOne failed s r) := by
  obtain ⟨ho, hs⟩ := scrubRegions_owner s r q
  have hscrub : GivenBack failed q (scrubRegions s [r]) :=
    h.keep ho hs (fun k => noTiles_scrubRegions k _) (fun _ _ hz => read_scrubbed_zero hz _)
  unfold endScrubOne
  split
  next => exact hscrub.keep (congrArg Region.owner (updRegion_off _ _ hq)) (congrArg Region.supplyOn (updRegion_off _ _ hq)) id (fun _ _ hz => hz)
  next =>
    split
    next =>
      obtain ⟨g, hg⟩ := closeGates_region s r q
      have hret : (retireRegion s r).regions[q] = { s.regions[q] with gates := g } := (updRegion_off (closeGates s r) _ hq).trans hg
      have hretired : GivenBack failed q (retireRegion s r) :=
        h.keep (congrArg Region.owner hret :) (congrArg Region.supplyOn hret :) (fun k => noTiles_closeGates k r) (fun a _ hz => by
          rw [(retireRegion_keeps s r).touch.mem_eq, hz])
      obtain ⟨ho', hs'⟩ := scrubRegions_owner (retireRegion s r) r q
      exact hretired.keep ho' hs' (fun k => noTiles_scrubRegions k _) (fun _ _ hz => read_scrubbed_zero hz _)
    next =>
      split
      next =>
        have hlost : (updRegion (loseRegion (scrubRegions s [r]) r) r (fun g => { g with owner := none })).regions[q] = (scrubRegions s [r]).regions[q] := by
          rw [updRegion_off _ _ hq, loseRegion_regions, updRegion_off _ _ hq]
        have ht : Touch [.signals, .wafer, .regions, .flt] (scrubRegions s [r]) (updRegion (loseRegion (scrubRegions s [r]) r) r (fun g => { g with owner := none })) :=
          (loseRegion_keeps _ _).touch.step (updRegion_keeps _ _ _).touch (by decide)
        exact hscrub.keep (congrArg Region.owner hlost) (congrArg Region.supplyOn hlost) (fun k => k.of_tiles ht.tiles_eq) (fun a _ hz => by rw [ht.mem_eq, hz])
      next => exact hscrub.keep (congrArg Region.owner (updRegion_off _ _ hq)) (congrArg Region.supplyOn (updRegion_off _ _ hq)) id (fun _ _ hz => hz)

theorem endScrub_gives_back (s : State) {rs : List RegionId} {r : RegionId} (h : r ∈ rs) (failed : List RegionId) :
    GivenBack failed r (endScrub s rs failed) := by
  rw [endScrub_eq]
  refine foldl_settles (P := GivenBack failed r) (f := endScrubOne failed) (a := r) (fun s => endScrubOne_gives_back failed s r) (fun s b k => ?_) _ _ h
  by_cases hb : r = b
  · exact hb ▸ endScrubOne_gives_back failed s r
  · exact endScrubOne_leaves failed hb k

/-! ### UNLOAD_SCRUB_DONE -/

theorem becomeEmpty_part (s : State) (p : PartId) : (becomeEmpty s p).parts[p].state = .empty ∧ (becomeEmpty s p).parts[p].active = none ∧
    (becomeEmpty s p).parts[p].placement = none ∧ (becomeEmpty s p).parts[p].load = none ∧ (becomeEmpty s p).parts[p].flow = {} := by
  unfold becomeEmpty
  extract_lets s1
  obtain ⟨hactive, hload, hflow, hplace, -⟩ := setPState_rest (updPart s1 p (fun x => { x with
    active := none, placement := none, fabric := {}, tun := {}, span := {}, load := none, flow := {} })) p .empty
  rw [hactive, hload, hflow, hplace, updPart_at]
  exact ⟨setPState_state _ _ _, rfl, rfl, rfl, rfl⟩

section UnloadScrub

variable {s : State} {p : PartId} (hup : s.glb.phase = .up) (failed : List RegionId)
include hup

theorem exec_unloadScrubDone_of_census (h : censusBusy s.parts[p].census = true) : exec (.unloadScrubDone p failed) s = .next s := by
  refine exec_of_up hup ((exec_unloadScrubDone p failed s).trans (congrArg (whenUp s) ?_))
  exact if_pos h

theorem exec_unloadScrubDone_of_empty (h : censusBusy s.parts[p].census = false) (hs : s.parts[p].flow.scrub = some .toEmpty)
    (hl : s.parts[p].load = none) : exec (.unloadScrubDone p failed) s = .next (becomeEmpty (freeHeld s p failed) p) := by
  refine exec_of_up hup ((exec_unloadScrubDone p failed s).trans (congrArg (whenUp s) ?_))
  dsimp only
  rw [h, hs, hl]
  rfl

end UnloadScrub

/-! ### POST_COMMIT_SCRUB_DONE (R213) -/

/-- No tile of the regions holds a context of a replaced image. -/
structure NoOldContext (rs : List RegionId) (s : State) : Prop where
  wf : tabWf ({} : Tile) s.tiles = true
  none : ∀ (k : Nat) (c : Fin 4), tileIn rs k = true → (getTile s k).ctx[c].use ≠ .old

theorem NoOldContext.of_tiles {rs : List RegionId} {s t : State} (h : NoOldContext rs s) (ht : t.tiles = s.tiles) : NoOldContext rs t := by
  refine ⟨ht ▸ h.wf, ?_⟩
  unfold getTile
  rw [ht]
  exact h.none

theorem NoOldContext.of_links {rs : List RegionId} {s t : State} (h : NoOldContext rs s) (ht : LinksOnly s t) : NoOldContext rs t := by
  obtain ⟨hwf, honly⟩ := ht h.wf
  refine ⟨hwf, fun k c hk => ?_⟩
  have hctx : (getTile t k).ctx = (getTile s k).ctx := (congrArg Tile.ctx (honly k) :)
  rw [hctx]
  exact h.none k c hk

theorem default_ctx_use (c : Fin 4) : ({} : Tile).ctx[c].use ≠ .old := by
  revert c
  decide

theorem NoOldContext.scrub {rs : List RegionId} {s : State} (h : NoOldContext rs s) (qs : List RegionId) : NoOldContext rs (scrubRegions s qs) := by
  refine ⟨?_, fun k c hk => ?_⟩
  · rw [scrubRegions_tiles]
    exact tabWf_filter ({} : Tile) _ _ h.wf
  · rw [getTile_scrubRegions]
    split
    · exact default_ctx_use c
    · exact h.none k c hk

theorem NoOldContext.endScrubOne {rs : List RegionId} {s : State} (h : NoOldContext rs s) (failed : List RegionId) (r : RegionId) :
    NoOldContext rs (endScrubOne failed s r) := by
  have hscrub := h.scrub [r]
  unfold Machine.endScrubOne
  split
  · exact hscrub.of_tiles rfl
  · split
    · exact ((h.of_links (closeGates_linksOnly s r)).of_tiles (t := retireRegion s r) rfl).scrub [r]
    · split
      · exact hscrub.of_tiles ((loseRegion_keeps (scrubRegions s [r]) r).touch.step (updRegion_keeps _ r (fun g => { g with owner := Option.none })).touch
          (by decide)).tiles_eq
      · exact hscrub.of_tiles rfl

theorem NoOldContext.foldl {rs : List RegionId} (failed : List RegionId) : ∀ (qs : List RegionId) {s : State}, NoOldContext rs s →
    NoOldContext rs (qs.foldl (Machine.endScrubOne failed) s)
  | [], _, h => h
  | r :: qs, _, h => NoOldContext.foldl failed qs (h.endScrubOne failed r)

/-- A tile gives up the contexts of the replaced image. -/
def dropOld (t : Tile) : Tile := dropContexts (· = .old) t

theorem dropOld_default : dropOld {} = {} := by
  have hctx : ({} : Tile).ctx.map (fun c : Context => if decide (c.use = .old) then {} else c) = ({} : Tile).ctx := Vector.map_replicate
  exact congrArg (fun v => { ({} : Tile) with ctx := v }) hctx

theorem dropOld_use (t : Tile) (c : Fin 4) : (dropOld t).ctx[c].use ≠ .old := by
  have hat : (dropOld t).ctx[c] = if decide (t.ctx[c].use = .old) then {} else t.ctx[c] := Vector.getElem_map ..
  rw [hat]
  split
  next => decide
  next h => simpa using h

theorem noOldContext_dropped {s : State} (hs : storeOk s) (rs : List RegionId) : NoOldContext rs (mapTiles s rs dropOld) := by
  refine ⟨mapTiles_wf hs.2 _ _, fun k c hk => ?_⟩
  rw [getTile_mapTiles hs.2 rs dropOld_default, tileMapped, if_pos hk]
  exact dropOld_use _ c

/-- Claims and contexts of the replaced image are gone. -/
def oldCleared (s : State) (p : PartId) : State :=
  updFabric (clearClaims (mapTiles s (heldRegions s p) dropOld) (s.parts[p].fabric.claims.filter (fun c => c.use = .old))
    (s.parts[p].fabric.claims.filter (fun c => c.use ≠ .old))) p
    (fun f => { f with claims := f.claims.filter (fun c => decide (c.use ≠ .old)), postScrub := none })

theorem oldCleared_part (s : State) (p : PartId) : (oldCleared s p).parts[p] = { s.parts[p] with fabric := { s.parts[p].fabric with
    claims := s.parts[p].fabric.claims.filter (fun c => decide (c.use ≠ .old)), postScrub := none } } := updFabric_part _ p _

theorem exec_postCommitScrubDone_of_post {s : State} {p : PartId} {beyond : List RegionId} {i : Image} (failed : List RegionId)
    (hup : s.glb.phase = .up) (hpost : s.parts[p].fabric.postScrub = some beyond) (hact : s.parts[p].active = some i) :
    exec (.postCommitScrubDone ⟨p, failed⟩) s = .next (releaseUnclaimed (endScrub (oldCleared s p) beyond failed) p i) := by
  refine exec_of_up hup ((exec_postCommitScrubDone ⟨p, failed⟩ s).trans (congrArg (whenUp s) ?_))
  dsimp only
  rw [hpost, hact]
  rfl

/-- Settles O31. -/
theorem drainsEndEmptyAndScrubsGiveRegionsBack : Obligations.DrainsEndEmptyAndScrubsGiveRegionsBack := by
  refine ⟨fun p why s hup hidle hdrain hdone => ⟨exec_drainComplete_of_busy hup hdrain, fun hout hwhy => ?_, fun hout hwhy => ?_⟩,
    fun p s hup => ⟨fun failed hs hcen hl => ?_, fun failed hcen => exec_unloadScrubDone_of_census hup failed hcen, fun beyond i failed hpost hact => ?_⟩⟩
  · subst hwhy
    have h := exec_drainComplete_of_out hup hdrain hdone hout
    have ht : Touch [.exps, .arbLast, .parts] s (endDrain s p .staged) :=
      ((closeExport_keeps s p).touch.mono (by decide)).step
        (updFlow_keeps (closeExport s p) p (fun f => { f with drained := true })).touch (by decide)
    have hpart : (endDrain s p .staged).parts[p] = _ := updFlow_part (closeExport s p) p (fun f => { f with drained := true })
    rw [finishActivation_of_idle ((congrArg Sup.activating ht.sup_eq).trans hidle)] at h
    refine ⟨_, h, ?_, ?_, ht.pins_eq, ht.mem_eq, ht.tiles_eq⟩
    · rw [hpart]
    · rw [hpart, (closeExport_keeps s p).touch.parts_eq]
  · have h := exec_drainComplete_of_out hup hdrain hdone hout
    have ht := imageGivenUp_touch s p
    rw [endDrain_of_end hwhy, finishActivation_of_idle ((congrArg Sup.activating ht.sup_eq).trans hidle)] at h
    obtain ⟨hactive, hscrub, hnodrain, hclosed⟩ := imageGivenUp_part s p
    refine ⟨_, h, hactive, hscrub, hnodrain, hclosed, ht.mem_eq, (imageGivenUp_linksOnly s p).onlyLinks, fun n hn => ?_⟩
    rw [imageGivenUp_pins]
    exact givenUp_pin hn
  · have ht := (becomeEmpty_keeps (freeHeld s p failed) p).touch
    obtain ⟨hst, hact, hplace, hload, hflow⟩ := becomeEmpty_part (freeHeld s p failed) p
    refine ⟨_, exec_unloadScrubDone_of_empty hup failed hcen hs hl, hst, hact, hplace, hload, hflow, fun r hr => ?_⟩
    have hback : GivenBack failed r (freeHeld s p failed) := endScrub_gives_back s (mem_heldRegions.mpr hr) failed
    rw [ht.regions_eq]
    exact ⟨hback.owner, hback.scrubbed.touch ht, hback.off⟩
  · have hparts : (releaseUnclaimed (endScrub (oldCleared s p) beyond failed) p i).parts = (oldCleared s p).parts :=
      (releaseUnclaimed_keeps _ _ _).touch.parts_eq.trans (endScrub_keeps _ _ _).touch.parts_eq
    refine ⟨_, exec_postCommitScrubDone_of_post failed hup hpost hact, ?_⟩
    rw [hparts, oldCleared_part]
    refine ⟨rfl, hact, rfl, rfl, fun hs k c hk => ?_⟩
    have hold : NoOldContext (heldRegions s p) (oldCleared s p) := (noOldContext_dropped hs _).of_tiles rfl
    have hend : NoOldContext (heldRegions s p) (endScrub (oldCleared s p) beyond failed) := hold.foldl failed beyond
    exact (hend.of_tiles (releaseUnclaimed_keeps _ p i).touch.tiles_eq).none k c hk

end Sys2Proof.Machine
end

