-- ==== Sys2Proof/Proofs/TileSteps.lean ====
section
/-! The steps of a tile's datapath: O16. -/

namespace Sys2Proof.Machine

-- One proof at a time: a default argument that is a tactic waits for every proof before it.
set_option Elab.async false

/-! ### What taking operands and firing cells leave of a tile -/

/-- What a datapath step works on: the accumulators and the place in the sequence. -/
def datapath (t : Tile) : Vector Acc 16 × Vector Acc 16 × Nat × Nat × Bool := (t.acc, t.total, t.red, t.step, t.reducing)

theorem popFlit_datapath (l : Fin 4) (t : Tile) : datapath (popFlit l t) = datapath t := by
  unfold popFlit
  extract_lets k
  split <;> rfl

theorem takePos_datapath {b : Nat} {l : Fin 4} {t : Tile} {r : Nat × Tile} (h : takePos b l t = some r) : datapath r.2 = datapath t := by
  unfold takePos at h
  split at h
  · cases h
  · rw [← Option.some.inj h]
    dsimp only
    split
    · exact popFlit_datapath l t
    · rfl

theorem dropPad_datapath (l : Fin 4) (t : Tile) : datapath (dropPad l t) = datapath t := by
  unfold dropPad
  extract_lets t1
  split
  · rfl
  · exact popFlit_datapath l t1

/-- A tile of which more Petal bits are known. -/
def withBits (b : Nat) (l : Fin 4) (t : Tile) : Option Tile :=
  if t.petal[l].isEmpty then
    (takePos b l t).map (fun r => { r.2 with petal := r.2.petal.set l.val ((List.range 8).map (fun i => bitOf r.1 i)) l.isLt })
  else some t

theorem withBits_datapath {b : Nat} {l : Fin 4} {t u : Tile} (h : withBits b l t = some u) : datapath u = datapath t := by
  unfold withBits at h
  split at h
  · obtain ⟨r, hr, rfl⟩ := Option.map_eq_some_iff.mp h
    exact takePos_datapath hr
  · rw [← Option.some.inj h]

theorem takeElem_datapath {b mode : Nat} {l : Fin 4} {t : Tile} {r : Elem × Tile} (h : takeElem b mode l t = some r) :
    datapath r.2 = datapath t := by
  have hmap : ∀ {u : Tile} {f : Nat × Tile → Elem × Tile}, (∀ x, (f x).2 = x.2) → (takePos b l u).map f = some r → datapath r.2 = datapath u := by
    intro u f hf hr
    obtain ⟨x, hx, rfl⟩ := Option.map_eq_some_iff.mp hr
    rw [hf]
    exact takePos_datapath hx
  unfold takeElem at h
  split at h
  · cases h
  · split at h
    · obtain ⟨x, hx, rfl⟩ := Option.map_eq_some_iff.mp h
      exact takePos_datapath hx
    · split at h
      · obtain ⟨t1, ht1, hrest⟩ := Option.bind_eq_some_iff.mp h
        have hbits : datapath t1 = datapath t := withBits_datapath ht1
        split at hrest
        · cases hrest
        · dsimp only at hrest
          split at hrest
          · exact (hmap (fun _ => rfl) hrest).trans hbits
          · rw [← Option.some.inj hrest]
            exact hbits
      · exact hmap (fun _ => rfl) h

theorem takeCoded_datapath {m : List Byte} {b mode : Nat} {l : Fin 4} {t : Tile} {r : Elem × Tile} (h : takeCoded m b mode l t = some r) :
    datapath r.2 = datapath t := by
  unfold takeCoded at h
  extract_lets q n t1 at h
  have h1 : datapath t1 = datapath t := by
    unfold t1
    split
    · exact popFlit_datapath l t
    · rfl
  split at h
  · cases h
  · obtain ⟨x, hx, rfl⟩ := Option.map_eq_some_iff.mp h
    have hx := takeElem_datapath hx
    split
    · exact (dropPad_datapath l _).trans (hx.trans h1)
    · exact hx.trans h1

theorem fetch_datapath {m : List Byte} {q : Config.OpParams} {mem : List Host.Cell} {k : Nat} {t t1 : Tile} {src : Src} {e : Elem}
    {reads : List Nat} (h : fetch m q mem k t src = .got e t1 reads) : datapath t1 = datapath t := by
  have hbuf : ∀ {a : Nat}, readBuffer m q mem k a t = .got e t1 reads → datapath t1 = datapath t := by
    intro a ha
    injection ha with _ ht
    rw [ht]
  cases src with
  | next l =>
    simp only [fetch] at h
    split at h
    next => cases h
    next r hr =>
      injection h with _ ht
      rw [← ht]
      exact takeCoded_datapath hr
  | buffered l a need =>
    simp only [fetch] at h
    split at h
    next =>
      split at h
      next =>
        injection h with _ ht
        rw [ht]
      next => exact hbuf h
    next =>
      split at h
      next => cases h
      next => cases h
  | zero =>
    injection h with _ ht
    rw [ht]
  | stored a => exact hbuf h
  | selected =>
    simp only [fetch] at h
    split at h
    next => cases h
    next f rest _ =>
      split at h
      next => cases h
      next r hr =>
        injection h with _ ht
        rw [← ht]
        split
        · exact takeCoded_datapath hr
        · exact takeCoded_datapath hr

theorem fetchAll_datapath {m : List Byte} {q : Config.OpParams} {mem : List Host.Cell} {k : Nat} {t t1 : Tile} {srcs : List Src} {e : Elem}
    {reads : List Nat} (h : fetchAll m q mem k t srcs = (.got e t1 reads, none)) : datapath t1 = datapath t := by
  unfold fetchAll at h
  split at h
  next a b =>
    split at h
    next e1 u1 r1 hb =>
      split at h
      next => cases h
      next x hx => exact absurd (congrArg Prod.fst h) (hx _ _ _)
    next x hx => exact absurd (congrArg Prod.fst h) (hx _ _ _)
  next a _ _ => exact fetch_datapath (congrArg Prod.fst h)
  next => cases h

theorem movedSide_datapath (m : List Byte) (n : Nat) (w : Bool) (t : Tile) : datapath (movedSide m n w t) = datapath t := by
  unfold movedSide
  split <;> rfl

/-! ### Firing cells and counting steps -/

/-- The tables keep the one form, and tile `k` what its datapath works on. -/
structure DatapathKept (k : Nat) (s t : State) : Prop where
  wf : tabWf ({} : Tile) t.tiles = true
  same : datapath (getTile t k) = datapath (getTile s k)

theorem DatapathKept.refl {k : Nat} {s : State} (h : tabWf ({} : Tile) s.tiles = true) : DatapathKept k s s := ⟨h, rfl⟩

/-- A change of any tile that leaves its datapath. -/
theorem DatapathKept.updTile {k : Nat} {s t : State} (h : DatapathKept k s t) (j : Nat) {f : Tile → Tile} (hf : ∀ x, datapath (f x) = datapath x) :
    DatapathKept k s (updTile t j f) := by
  refine ⟨updTile_wf t j f h.wf, ?_⟩
  rw [getTile_updTile t j k f h.wf]
  split
  next he => rw [hf, ← he, h.same]
  next => exact h.same

theorem DatapathKept.fireEast {k : Nat} {s : State} (s0 : State) : ∀ (n : Nat) {t : State} (j : Nat) (cin fired : Bool), DatapathKept k s t →
    DatapathKept k s (fireEast s0 t n j cin fired)
  | 0, _, _, _, _, h => h
  | n + 1, t, j, cin, fired, h => by
    unfold Machine.fireEast
    split
    · exact DatapathKept.fireEast s0 n _ _ _ (h.updTile _ fun _ => rfl)
    · exact h

theorem DatapathKept.fireCells {k : Nat} {s t : State} (h : DatapathKept k s t) (j : Nat) (x : CellIn) (ev : CellEvent) :
    DatapathKept k s (fireCells t j x ev) := DatapathKept.fireEast t 7 _ _ _ (h.updTile j fun _ => rfl)

theorem DatapathKept.workSteps {k : Nat} {s t : State} (h : DatapathKept k s t) (j n : Nat) (x : CellIn) : DatapathKept k s (workSteps t j n x) := by
  unfold Machine.workSteps
  split
  · exact h
  · extract_lets s1
    have h1 : DatapathKept k s s1 := (h.updTile j (f := fun t => { t with stepped := true }) fun _ => rfl).updTile j
      (f := fun t => { t with counters := countSteps n t.counters }) fun _ => rfl
    have hfold : ∀ (l : List Nat) {u : State}, DatapathKept k s u → DatapathKept k s (l.foldl (fun s _ => Machine.fireCells s j x .step) u) := by
      intro l
      induction l with
      | nil => exact fun h => h
      | cons _ l ih => exact fun h => ih (h.fireCells j x .step)
    exact hfold _ h1

/-- A step that neither writes memory nor meets an error lands in the tiles alone. -/
theorem landStep_of_tile {s : State} {k : Nat} {o : StepObs} {x : CellIn} {r : Stepped} (hm : r.mem = s.mem) (hw : r.wrote = none) (he : o.ecc = [])
    (hn : r.steps ≠ 0) : landStep s k o x r = workSteps (bumpTile (updTile s k (fun _ => r.tile)) k
      (fun c => countOverflow r.overflow { c with reserved := sat32 (c.reserved + r.reserved) })) k r.steps x := by
  have hn' : decide (r.steps = 0) = false := decide_eq_false hn
  unfold landStep
  rw [hm, hw, he, hn', Bool.and_false, List.zip_nil_right]
  rfl

theorem landed_touch (s : State) (k : Nat) (t : Tile) (f : TileCounters → TileCounters) (n : Nat) (x : CellIn) :
    Touch [.tiles] s (workSteps (bumpTile (updTile s k (fun _ => t)) k f) k n x) :=
  ((updTile_keeps _ _ _).touch.step (bumpTile_keeps _ _ _).touch (by decide)).step (workSteps_keeps _ _ _ _).touch (by decide)

theorem landed_datapath {s : State} (hs : storeOk s) (k : Nat) (t : Tile) (f : TileCounters → TileCounters) (n : Nat) (x : CellIn) :
    datapath (getTile (workSteps (bumpTile (updTile s k (fun _ => t)) k f) k n x) k) = datapath t := by
  have hwf := updTile_wf s k (fun _ => t) hs.2
  have hput : getTile (updTile s k (fun _ => t)) k = t := (getTile_updTile s k k (fun _ => t) hs.2).trans (if_pos rfl)
  have hkept := (((DatapathKept.refl (k := k) hwf).updTile k (f := fun t => { t with counters := f t.counters }) fun _ => rfl).workSteps k n x).same
  rw [hput] at hkept
  exact hkept

/-! ### One accumulation -/

theorem stepCount_ne_zero (m : List Byte) (q : Config.OpParams) : stepCount m q ≠ 0 := by
  unfold stepCount
  extract_lets op
  split
  · exact Nat.one_ne_zero
  · split <;> split <;> decide

theorem addLanes_acc (intMode : Bool) (fmt : Nat) (code : Fin 16 → Option Nat) (t : Tile) (i : Fin 16) :
    (addLanes intMode fmt code t).1.acc[i] = (match code i with
      | none => (if t.tableNan && !intMode then (accFloat t.acc[i] .nan).1 else t.acc[i], 0, 0)
      | some c => laneStep intMode t.table t.tableExp t.tableNan fmt c t.acc[i]).1 :=
  (Vector.getElem_map _ i.isLt).trans (congrArg Prod.fst (Vector.getElem_ofFn i.isLt))

theorem addLanes_acc_of_none (fmt : Nat) {code : Fin 16 → Option Nat} (t : Tile) {i : Fin 16} (h : code i = none) :
    (addLanes true fmt code t).1.acc[i] = t.acc[i] := by
  rw [addLanes_acc, h, Bool.not_true, Bool.and_false]
  rfl

/-- An integer sum that fits 32 bits is exact. -/
theorem accInt_toInt {a : Acc} {p : Int} (hs : a.sat = false) (hlo : -2147483648 ≤ a.bits.toInt + p) (hhi : a.bits.toInt + p ≤ 2147483647) :
    (accInt a p).1.bits.toInt = a.bits.toInt + p := by
  have hc : (clampInt (-2147483648) 2147483647 (a.bits.toInt + p)).1 = a.bits.toInt + p := by
    unfold clampInt
    rw [if_neg (by omega), if_neg (by omega)]
  unfold accInt
  rw [hs]
  change (BitVec.ofInt 32 (clampInt (-2147483648) 2147483647 (a.bits.toInt + p)).1).toInt = _
  rw [hc, BitVec.toInt_ofInt, Int.bmod_eq_of_le (by omega) (by omega)]

theorem addLanes_acc_of_sel {fmt : Nat} {code : Fin 16 → Option Nat} {t : Tile} {i : Fin 16} {d : Nat} {w : WSel} (h : code i = some d)
    (hw : decodeWeight fmt d = .sel w) (hs : t.acc[i].sat = false) (hlo : -2147483648 ≤ t.acc[i].bits.toInt + intProduct t.table w)
    (hhi : t.acc[i].bits.toInt + intProduct t.table w ≤ 2147483647) :
    (addLanes true fmt code t).1.acc[i].bits.toInt = t.acc[i].bits.toInt + intProduct t.table w := by
  have hlane : (laneStep true t.table t.tableExp t.tableNan fmt d t.acc[i]).1 = (accInt t.acc[i] (intProduct t.table w)).1 := by
    unfold laneStep
    rw [hw]
    rfl
  rw [addLanes_acc, h]
  exact (congrArg (fun a : Acc => a.bits.toInt) hlane).trans (accInt_toInt hs hlo hhi)

/-- The tile that a step of a reducing operator with one operand leaves: the lanes' products of its table are added (R80). -/
def tableStep (m : List Byte) (q : Config.OpParams) (mem : List Host.Cell) (k code channel : Nat) (t : Tile) : Tile :=
  (addLanes (integerMode m) (stepCodes m q mem k t).1 (stepCodes m q mem k t).2.1
    (loadTable m code channel { t with step := t.step + 1, block := t.block + 1 }).1).1

theorem accumulate_of_table {m : List Byte} {q : Config.OpParams} (mem : List Host.Cell) (k : Nat) {e : Elem} (channel : Nat) (t : Tile)
    (hz : zeroSkip m e = false) (hp : byteAt m 0 = 0x51 → q.power = false) :
    ∃ ov rv reads, accumulate m q mem k e none channel t =
      { tile := tableStep m q mem k e.code channel t, mem := mem, overflow := ov, reserved := rv, steps := stepCount m q, reads := reads } := by
  have hno : ¬ (byteAt m 0 = 0x51 ∧ q.power = true) := fun h => Bool.false_ne_true ((hp h.1).symm.trans h.2)
  unfold accumulate
  simp only [hz, Bool.false_eq_true, if_false, if_neg hno]
  exact ⟨_, _, _, rfl⟩

theorem loadTable_acc (m : List Byte) (code channel : Nat) (t : Tile) : (loadTable m code channel t).1.acc = t.acc := by
  dsimp only [loadTable]

theorem loadTable_table (m : List Byte) (code channel : Nat) (t : Tile) :
    (loadTable m code channel t).1.table = buildTable (splitAct (byteAt m 3) code).operand := by
  dsimp only [loadTable]

/-- What a reducing step leaves of the tile `t`, with the lanes' codes `fmt` and `code` and the product table `tab`: the sequence moves
by one, and in integer mode each lane adds its product exactly (R78, R83). -/
def Accumulated (m : List Byte) (fmt : Nat) (code : Fin 16 → Option Nat) (tab : Vector Int 16) (t u : Tile) : Prop :=
  u.reducing = true ∧ u.total = t.total ∧ u.step = t.step + 1 ∧ u.red = t.red ∧
  (∀ i : Fin 16, code i = none → integerMode m = true → u.acc[i] = t.acc[i]) ∧
  (∀ (i : Fin 16) (d : Nat) (w : WSel), code i = some d → integerMode m = true → decodeWeight fmt d = .sel w → t.acc[i].sat = false →
    -2147483648 ≤ t.acc[i].bits.toInt + intProduct tab w → t.acc[i].bits.toInt + intProduct tab w ≤ 2147483647 →
    u.acc[i].bits.toInt = t.acc[i].bits.toInt + intProduct tab w)

/-- Only the datapath of either tile counts. -/
theorem Accumulated.congr {m : List Byte} {fmt : Nat} {code : Fin 16 → Option Nat} {tab : Vector Int 16} {t t' u u' : Tile}
    (h : Accumulated m fmt code tab t u) (ht : datapath t = datapath t') (hu : datapath u' = datapath u) : Accumulated m fmt code tab t' u' := by
  simp only [datapath, Prod.mk.injEq] at ht hu
  obtain ⟨ta, tt, tr, ts, -⟩ := ht
  obtain ⟨ua, ut, ur, us, ud⟩ := hu
  unfold Accumulated
  rw [ua, ut, ur, us, ud, ← ta, ← tt, ← tr, ← ts]
  exact h

theorem tableStep_accumulated (m : List Byte) (q : Config.OpParams) (mem : List Host.Cell) (k code channel : Nat) (t : Tile) :
    Accumulated m (stepCodes m q mem k t).1 (stepCodes m q mem k t).2.1 (buildTable (splitAct (byteAt m 3) code).operand) t
      (tableStep m q mem k code channel t) := by
  have hrest : datapath (tableStep m q mem k code channel t) =
      ((tableStep m q mem k code channel t).acc, t.total, t.red, t.step + 1, true) := by
    dsimp only [datapath, tableStep, addLanes, loadTable]
  simp only [datapath, Prod.mk.injEq, true_and] at hrest
  obtain ⟨htot, hred, hstep, hon⟩ := hrest
  refine ⟨hon, htot, hstep, hred, fun i h hint => ?_, fun i d w h hint hw hs hlo hhi => ?_⟩
  · unfold tableStep
    rw [hint, addLanes_acc_of_none _ _ h, loadTable_acc]
  · have hsel := addLanes_acc_of_sel (t := (loadTable m code channel { t with step := t.step + 1, block := t.block + 1 }).1) h hw
    rw [loadTable_acc, loadTable_table] at hsel
    unfold tableStep
    rw [hint]
    exact hsel hs hlo hhi

/-! ### TILE_STEP -/

theorem exec_tileStep_of {a : TileAt} {o : StepObs} {s u : State} (hup : s.glb.phase = .up) (hk : tileExists a = true)
    (h : tileStep s (tileKey a.x a.y) o = u) : exec (.tileStep a o) s = .next u :=
  exec_of_up hup (((exec_tileStep a o s).trans (if_pos hk)).trans (congrArg (whenUp s) h))

theorem tileStep_of_no_image {s : State} {k : Nat} (o : StepObs) (h : runsHere s k = none) : tileStep s k o = s := by
  unfold tileStep
  rw [h]

section Step

variable {s : State} {k : Nat} {p : PartId} {m : List Byte} {o : StepObs} {c : Nat × Nat}

/-- A tile whose operator steps no lanes takes no step of the datapath. -/
theorem tileStep_of_stage (h : runsHere s k = some p) (hm : m = tunedMicro s p k (getTile s k).winDone) (hpool : isPool (byteAt m 0) = false)
    (hop : byteAt m 0 = 0 ∨ isTStage (byteAt m 0) = true) : tileStep s k o = s := by
  have hor : (isTStage (byteAt m 0) || decide (byteAt m 0 = 0)) = true := by
    rcases hop with h | h <;> simp [h]
  subst hm
  unfold tileStep
  simp only [h, hpool, hor, Bool.false_eq_true, if_false, if_true]

/-- A tile whose operator steps its lanes does its next step, then moves its flits. -/
theorem tileStep_of_lanes {u : State} (h : runsHere s k = some p) (hm : m = tunedMicro s p k (getTile s k).winDone)
    (hpool : isPool (byteAt m 0) = false) (hop : byteAt m 0 ≠ 0) (hstage : isTStage (byteAt m 0) = false) (hu : dataStep s k m o = u) :
    tileStep s k o = pumpTile u k := by
  have hor : (isTStage (byteAt m 0) || decide (byteAt m 0 = 0)) = false := by simp [hstage, hop]
  subst hm hu
  unfold tileStep
  simp only [h, hpool, hor, Bool.false_eq_true, if_false]

theorem dataStep_of_full (h : (getTile s k).sendQ ≠ []) : dataStep s k m o = s := by
  have hne : (!(getTile s k).sendQ.isEmpty) = true := by
    rw [List.isEmpty_eq_false_iff.mpr h]
    rfl
  exact if_pos hne

variable (hq : (getTile s k).sendQ = []) (hcl : (getTile s k).closing = false)
  (hend : atEnd m (Config.params m) (getTile s k) = false) (hc : stepScale m (getTile s k) = some c)
include hq hcl hend hc

theorem dataStep_of_wait
    (hf : (fetchAll m (Config.params m) s.mem k (getTile s k)
      (sources m (Config.params m) (getTile s k).winDone (getTile s k).red (getTile s k).step)).1 = .wait) : dataStep s k m o = s := by
  unfold dataStep
  simp only [hq, hcl, hend, hc, List.isEmpty_nil, Bool.not_true, Bool.false_eq_true, if_false]
  split
  next => rfl
  next h => cases (congrArg Prod.fst h).symm.trans hf
  next h => cases (congrArg Prod.fst h).symm.trans hf

/-- A step whose one operand has come accumulates it, and lands in the tiles alone. -/
theorem dataStep_of_operand {e : Elem} {t1 : Tile} {reads : List Nat}
    (hf : fetchAll m (Config.params m) s.mem k (getTile s k)
      (sources m (Config.params m) (getTile s k).winDone (getTile s k).red (getTile s k).step) = (.got e t1 reads, none))
    (hb : byElement (byteAt m 0) = false) (hz : zeroSkip m e = false) (hp : byteAt m 0 = 0x51 → (Config.params m).power = false) (he : o.ecc = []) :
    ∃ f n x, dataStep s k m o = workSteps (bumpTile (updTile s k
      (fun _ => tableStep m (Config.params m) s.mem k e.code c.1 (movedSide m c.2 false t1))) k f) k n x := by
  obtain ⟨ov, rv, reads', hacc⟩ := accumulate_of_table s.mem k c.1 (movedSide m c.2 false t1) hz hp
  unfold dataStep
  simp only [hq, hcl, hend, hc, hf, hb, hacc, List.isEmpty_nil, Bool.not_true, Bool.false_eq_true, if_false]
  exact ⟨_, _, _, landStep_of_tile rfl rfl he (stepCount_ne_zero m _)⟩

end Step

/-- Settles O16. -/
theorem tileStepsAccumulateOrWait : Obligations.TileStepsAccumulateOrWait := by
  unfold Obligations.TileStepsAccumulateOrWait
  intro a o k m q t s hup hs hk ht hq
  subst hk ht hq
  refine ⟨fun hno => (exec_tileStep a o s).trans (if_neg (Bool.eq_false_iff.mp hno)),
    fun hex hnone => exec_tileStep_of hup hex (tileStep_of_no_image o hnone), fun p hex hrun hm hpool => ?_⟩
  refine ⟨fun hop => exec_tileStep_of hup hex (tileStep_of_stage hrun hm hpool hop),
    fun hop hst hsend => exec_tileStep_of hup hex (tileStep_of_lanes hrun hm hpool hop hst (dataStep_of_full hsend)),
    fun c hop hst hsend hcl hend hc => ⟨fun hw =>
      exec_tileStep_of hup hex (tileStep_of_lanes hrun hm hpool hop hst (dataStep_of_wait hsend hcl hend hc hw)),
      fun e t1 reads hf hb hz hp he => ?_⟩⟩
  obtain ⟨f, n, x, hland⟩ := dataStep_of_operand hsend hcl hend hc hf hb hz hp he
  have hacc := (tableStep_accumulated m (Config.params m) s.mem (tileKey a.x a.y) e.code c.1 (movedSide m c.2 false t1)).congr
    ((movedSide_datapath m c.2 false t1).trans (fetchAll_datapath hf)) (landed_datapath hs (tileKey a.x a.y) _ f n x)
  have htouch := landed_touch s (tileKey a.x a.y) (tableStep m (Config.params m) s.mem (tileKey a.x a.y) e.code c.1 (movedSide m c.2 false t1)) f n x
  exact ⟨_, _, exec_tileStep_of hup hex (tileStep_of_lanes hrun hm hpool hop hst hland), htouch.mem_eq, htouch, rfl, hacc⟩

end Sys2Proof.Machine
end

