-- ==== Sys2Proof/Proofs/TileInputs.lean ====
section
/-! Flits, credit flits and scrub reads at a tile: O17. -/

namespace Sys2Proof.Machine

-- One proof at a time: a default argument that is a tactic waits for every proof before it.
set_option Elab.async false

/-! ### Flits at an input -/

section Inputs

variable {s : State} {a : TileAt} (hup : s.glb.phase = .up) (hex : tileExists a = true)
include hup hex

theorem exec_flitReceived_of {pt : Port} {w : Wires} {e : EccRead} {u : State} (h : receiveFlit s (tileKey a.x a.y) pt w e = u) :
    exec (.flitReceived a pt w e) s = .next u :=
  exec_of_up hup (((exec_flitReceived a pt w e s).trans (if_pos hex)).trans (congrArg (whenUp s) h))

theorem exec_creditFlitReceived_of {d : Dir} {w : Wires} {u : State} (h : receiveCredits s (tileKey a.x a.y) d w = u) :
    exec (.creditFlitReceived a d w) s = .next u :=
  exec_of_up hup (((exec_creditFlitReceived a d w s).trans (if_pos hex)).trans (congrArg (whenUp s) h))

theorem exec_backgroundScrub_of {o : ScrubObs} {u : State} (h : scrubNext s (tileKey a.x a.y) o.ecc o.write = u) :
    exec (.backgroundScrub a o) s = .next u :=
  exec_of_up hup (((exec_backgroundScrub a o s).trans (if_pos hex)).trans (congrArg (whenUp s) h))

end Inputs

theorem receiveFlit_of_invalid {s : State} {k : Nat} (pt : Port) {w : Wires} (e : EccRead) (h : decodeWires w = none ∨ tileOwner s k = none) :
    receiveFlit s k pt w e = s := by
  unfold receiveFlit
  split
  next f p hf hp =>
    rcases h with h | h
    · cases hf.symm.trans h
    · cases hp.symm.trans h
  next => rfl

theorem receiveFlit_of_closed {s : State} {k : Nat} {d : Dir} (w : Wires) (e : EccRead) (h : linkOpen s k d ≠ some true) :
    receiveFlit s k (.side d) w e = s := by
  unfold receiveFlit
  split
  next => exact if_pos (by simp [h])
  next => rfl

/-- The input of a serving partition's tile takes a flit (R58, R59). -/
def takeFlit (s : State) (p : PartId) (k : Nat) (pt : Port) (f : Flit) : State :=
  match pt with
  | .side d => if flitLane f = 7 then updTile s k (takeCredits4 d (flitData f)) else latchFlit s p k (portIdx pt) f
  | .loc => if flitLane f = 7 then bumpTile s k (countLinkErr 1) else latchFlit s p k 4 f

/-- What a tile does once it has taken a codeword: it moves its flits, and a neighbour that sent it sees its acknowledge. -/
def answerFlit (k : Nat) (pt : Port) (w : Wires) (u : State) : State :=
  match pt with
  | .side d => ackSender (pumpTile u k) k d w
  | .loc => pumpTile u k

theorem receiveFlit_of_open {s : State} {p : PartId} {k : Nat} {pt : Port} {w : Wires} {e : EccRead} {f : Flit} (hf : decodeWires w = some f)
    (hp : tileOwner s k = some p) (hs : isServing s.parts[p].state = true) (ho : ∀ d, pt = .side d → linkOpen s k d = some true)
    (hq : (s.parts[p].fabric.queues).any (fun q => q.tile = k && decide (q.cfg.lane = flitLane f)) = false) :
    receiveFlit s k pt w e = answerFlit k pt w (takeFlit s p k pt f) := by
  unfold receiveFlit
  rw [hf, hp]
  dsimp only
  rw [hq, hs]
  cases pt with
  | side d =>
    exact if_neg (by simp [ho d rfl])
  | loc => rfl

theorem takeFlit_of_data {s : State} {p : PartId} {k : Nat} {pt : Port} {f : Flit} (h : flitLane f ≠ 7) :
    takeFlit s p k pt f = latchFlit s p k (portIdx pt) f := by
  cases pt with
  | side d => exact if_neg h
  | loc => exact if_neg h

section Latch

variable {s : State} {p : PartId} {k port : Nat} {f : Flit}

theorem latchFlit_of_enabled (hg : gatewayPlace s p k = none) (hr : runsHere s k = some p) (hl : flitLane f < 6)
    (he : (activeCtx (getTile s k)).route[fifo port (flitLane f)].enable = true) (hroom : (getTile s k).inputs[fifo port (flitLane f)].length < 4) :
    latchFlit s p k port f = updTile s k (fun t =>
      { t with inputs := t.inputs.set (fifo port (flitLane f)) (t.inputs[fifo port (flitLane f)] ++ [f]) }) := by
  have hlane : flitLane f ≠ 6 := by omega
  unfold latchFlit
  simp only [hg, hr, he, if_neg hlane, if_neg (Nat.not_le.mpr hroom), decide_true, Bool.and_self, Bool.not_true, Bool.false_eq_true, if_false]

theorem latchFlit_of_disabled (hg : gatewayPlace s p k = none) (hl : flitLane f < 6)
    (he : runsHere s k = none ∨ (activeCtx (getTile s k)).route[fifo port (flitLane f)].enable = false) :
    latchFlit s p k port f = updTile (bumpTile s k (countLinkErr 1)) k (oweCredit port (flitLane f)) := by
  have hlane : flitLane f ≠ 6 := by omega
  have hoff : (!(decide (runsHere s k = some p) && (activeCtx (getTile s k)).route[fifo port (flitLane f)].enable)) = true := by
    rcases he with h | h <;> rw [h]
    · rfl
    · rw [Bool.and_false]
      rfl
  unfold latchFlit
  simp only [hg, if_neg hlane]
  exact if_pos hoff

theorem latchFlit_of_lane6 (hl : flitLane f = 6) : latchFlit s p k port f = bumpTile s k (countLinkErr 1) := by
  unfold latchFlit
  dsimp only
  split
  · exact if_neg (by omega)
  · exact if_pos hl

theorem latchFlit_of_gateway {n x y : Nat} {pp : PlacedPiece} (hg : gatewayPlace s p k = some (n, pp, x, y)) (hl : flitLane f < 6) :
    latchFlit s p k port f = gatewayTake (updTile s k (oweCredit port (flitLane f))) p n f := by
  unfold latchFlit
  simp only [hg, if_pos hl]

end Latch

theorem takeFlit_of_meaningless {s : State} {p : PartId} {k : Nat} {pt : Port} {f : Flit} (h : flitLane f = 6 ∨ (flitLane f = 7 ∧ pt = .loc)) :
    takeFlit s p k pt f = bumpTile s k (countLinkErr 1) := by
  rcases h with h | ⟨h, rfl⟩
  · exact (takeFlit_of_data (by omega)).trans (latchFlit_of_lane6 h)
  · exact if_pos h

/-! ### Credit flits -/

theorem receiveCredits_of_data {s : State} {k : Nat} {d : Dir} {w : Wires} {f : Flit} (hf : decodeWires w = some f) (h : flitLane f ≠ 7) :
    receiveCredits s k d w = s := by
  unfold receiveCredits
  split
  next g p hg _ =>
    obtain rfl : f = g := Option.some.inj (hf.symm.trans hg)
    exact if_neg (by simp [h])
  next => rfl

theorem receiveCredits_of_closed {s : State} {k : Nat} {d : Dir} (w : Wires) (h : linkOpen s k d ≠ some true) : receiveCredits s k d w = s := by
  unfold receiveCredits
  split
  next => exact if_neg (by simp [h])
  next => rfl

theorem receiveCredits_of_open {s : State} {p : PartId} {k : Nat} {d : Dir} {w : Wires} {f : Flit} (hf : decodeWires w = some f)
    (hp : tileOwner s k = some p) (hs : isServing s.parts[p].state = true) (ho : linkOpen s k d = some true) (h : flitLane f = 7) :
    receiveCredits s k d w = ackSender (pumpTile (updTile s k (takeCredits4 d (flitData f))) k) k d w := by
  unfold receiveCredits
  rw [hf, hp]
  exact if_pos (by rw [h, ho, hs]; rfl)

theorem takeCredits4_credits (d : Dir) (data : Nat) (t : Tile) (l : Fin 6) :
    (takeCredits4 d data t).credits[crd (dirIdx d).val l.val] =
      min 4 (t.credits[crd (dirIdx d).val l.val] + (data / 16 ^ l.val) % 16) := by
  have hc : (crd (dirIdx d).val l.val).val = 6 * (dirIdx d).val + l.val := Nat.mod_eq_of_lt (by omega)
  have hside : (crd (dirIdx d).val l.val).val / 6 = (dirIdx d).val := by omega
  have hlane : (crd (dirIdx d).val l.val).val % 6 = l.val := by omega
  have hfield : field data (4 * l.val + 3) (4 * l.val) = data / 16 ^ l.val % 16 := by
    unfold field
    rw [Nat.pow_mul, show 4 * l.val + 3 + 1 - 4 * l.val = 4 by omega]
    norm_num
  refine (Vector.getElem_ofFn _).trans ?_
  dsimp only
  rw [hside, hlane, if_pos rfl, hfield]

/-! ### Scrub reads -/

theorem scrubNext_of_dark {s : State} {k : Nat} (e : EccRead) (w : WriteBack) (h : tileInService s k = false) : scrubNext s k e w = s :=
  if_neg (Bool.eq_false_iff.mp h)

/-- One tile becomes what `f` makes of it; every other stands. -/
structure TileBecomes (k : Nat) (f : Tile → Tile) (s t : State) : Prop where
  wf : tabWf ({} : Tile) t.tiles = true
  tile : getTile t k = f (getTile s k)
  rest : ∀ j, j ≠ k → getTile t j = getTile s j

theorem TileBecomes.refl {s : State} (k : Nat) (h : storeOk s) : TileBecomes k id s s := ⟨h.2, rfl, fun _ _ => rfl⟩

theorem TileBecomes.updTile {k : Nat} {f : Tile → Tile} {s t : State} (h : TileBecomes k f s t) (g : Tile → Tile) :
    TileBecomes k (g ∘ f) s (updTile t k g) where
  wf := updTile_wf t k g h.wf
  tile := by rw [getTile_updTile t k k g h.wf, if_pos rfl, h.tile]; rfl
  rest j hj := by rw [getTile_updTile t k j g h.wf, if_neg hj, h.rest j hj]

/-- Nothing about tiles depends on memory. -/
theorem TileBecomes.withMem {k : Nat} {f : Tile → Tile} {s t : State} (h : TileBecomes k f s t) (m : List Host.Cell) :
    TileBecomes k f s { t with mem := m } := ⟨h.wf, h.tile, h.rest⟩

/-- A tile with other counters. -/
def recount (g : TileCounters → TileCounters) (t : Tile) : Tile := { t with counters := g t.counters }

theorem TileBecomes.bumpTile {k : Nat} {f : Tile → Tile} {s t : State} (h : TileBecomes k f s t) (g : TileCounters → TileCounters) :
    TileBecomes k (recount g ∘ f) s (bumpTile t k g) := h.updTile (recount g)

/-- A dropped write-back is counted. -/
def countCollision (hit : Bool) (t : Tile) : Tile :=
  if hit then { t with counters := { t.counters with collision := satInc t.counters.collision } } else t

theorem TileBecomes.collide {k : Nat} {f : Tile → Tile} {s t : State} (h : TileBecomes k f s t) (hit : Bool) :
    TileBecomes k (countCollision hit ∘ f) s (collide t k hit) := by
  cases hit with
  | true => exact h.updTile _
  | false => exact ⟨h.wf, h.tile, h.rest⟩

/-- The scrubber of a tile moves on to its next codeword. -/
def scrubMoved (s : State) (k : Nat) : State := updTile s k (fun t => { t with scrubPtr := ((getTile s k).scrubPtr + 1) % 2048 })

/-- A scrub read that found `e` in the scrubber's codeword, and how its write-back went. -/
def scrubFound (s : State) (k : Nat) (e : EccRead) : State := eccEffect (scrubMoved s k) k (getTile s k).scrubPtr e

theorem scrubNext_of_lit {s : State} {k : Nat} (e : EccRead) (w : WriteBack) (h : tileInService s k = true) :
    scrubNext s k e w = collide { scrubFound s k e with mem := if w = .landed then (scrubFound s k e).mem else s.mem } k
      (decide (w = .collided) && decide (e ≠ .clean)) := if_pos h

theorem scrubMoved_becomes {s : State} (k : Nat) (h : storeOk s) :
    TileBecomes k (fun t => { t with scrubPtr := (t.scrubPtr + 1) % 2048 }) s (scrubMoved s k) :=
  have hb := (TileBecomes.refl k h).updTile (fun t => { t with scrubPtr := ((getTile s k).scrubPtr + 1) % 2048 })
  ⟨hb.wf, hb.tile, hb.rest⟩

theorem scrubFound_of_single (s : State) (k : Nat) :
    scrubFound s k .single = bumpTile (scrubMoved s k) k (fun c => { c with eccCorr := satInc c.eccCorr }) := rfl

/-- A double-bit error in a codeword of no partition leaves it zero (R100). -/
theorem scrubFound_of_unowned {s : State} {k : Nat} (h : tileOwner s k = none) :
    scrubFound s k .double = { bumpTile (scrubMoved s k) k (fun c => { c with eccUncorr := satInc c.eccUncorr }) with
      mem := Memory.clear s.mem (fun a => decide (a / 8 = 2048 * k + (getTile s k).scrubPtr)) } := by
  unfold scrubFound eccEffect
  dsimp only
  split
  next => rfl
  next p hp => cases (h.symm.trans hp : none = some p)

/-- A double-bit error in a codeword that the running image claims is a fault of its partition (R100). -/
theorem scrubFound_of_claimed {s : State} {k : Nat} {p : PartId} (h : tileOwner s k = some p)
    (hc : ((s.parts[p].fabric.claims).filter (claimHolds k (getTile s k).scrubPtr)).any (fun c => decide (c.use = .inUse)) = true) :
    scrubFound s k .double = eccActive (scrubMoved s k) p k .double := by
  unfold scrubFound eccEffect
  dsimp only
  split
  next hp => cases (h.symm.trans hp : some p = none)
  next p' hp =>
    obtain rfl : p = p' := Option.some.inj (h.symm.trans hp)
    exact if_pos hc

theorem writtenBack_touch {s u : State} (h : Touch [.tiles] s u) (m : List Host.Cell) (k : Nat) (hit : Bool) :
    Touch [.tiles, .mem] s (collide { u with mem := m } k hit) :=
  have hm : Touch [.tiles, .mem] s { u with mem := m } := (h.mono (by decide)).step (l := [.mem]) .lit (by decide)
  hm.step (collide_keeps _ _ _).touch (by decide)

section Scrub

variable {s : State} {k : Nat} {w : WriteBack} (hs : storeOk s) (hin : tileInService s k = true)
include hs hin

theorem scrubNext_clean : ∃ t, scrubNext s k .clean w = t ∧ Touch [.tiles] s t ∧ (∀ j, j ≠ k → getTile t j = getTile s j) ∧
    getTile t k = { getTile s k with scrubPtr := ((getTile s k).scrubPtr + 1) % 2048 } := by
  have hmem : (if w = .landed then (scrubFound s k .clean).mem else s.mem) = s.mem := ite_self _
  have hb := scrubMoved_becomes k hs
  refine ⟨scrubMoved s k, (scrubNext_of_lit .clean w hin).trans ?_, (updTile_keeps _ _ _).touch, hb.rest, hb.tile⟩
  rw [hmem, show (decide (w = .collided) && decide (EccRead.clean ≠ .clean)) = false from Bool.and_false _]
  rfl

theorem scrubNext_single : ∃ t, scrubNext s k .single w = t ∧ Touch [.tiles] s t ∧ (∀ j, j ≠ k → getTile t j = getTile s j) ∧
    (getTile t k).scrubPtr = ((getTile s k).scrubPtr + 1) % 2048 ∧
    (getTile t k).counters.eccCorr = min ((getTile s k).counters.eccCorr + 1) 4294967295 ∧
    (getTile t k).counters.collision = (if w = .collided then min ((getTile s k).counters.collision + 1) 4294967295
      else (getTile s k).counters.collision) := by
  have hmem : (if w = .landed then (scrubFound s k .single).mem else s.mem) = (scrubFound s k .single).mem := ite_self _
  have hb := ((scrubMoved_becomes k hs).bumpTile (fun c => { c with eccCorr := satInc c.eccCorr })).collide (decide (w = .collided))
  refine ⟨collide (scrubFound s k .single) k (decide (w = .collided)), (scrubNext_of_lit .single w hin).trans ?_,
    (((updTile_keeps _ _ _).touch.step (bumpTile_keeps _ _ _).touch (by decide)).step (collide_keeps _ _ _).touch (by decide)), hb.rest, ?_⟩
  · rw [hmem, show (decide (w = .collided) && decide (EccRead.single ≠ .clean)) = decide (w = .collided) from Bool.and_true _]
  · rw [scrubFound_of_single, hb.tile]
    cases w <;> exact ⟨rfl, rfl, rfl⟩

theorem scrubNext_double_unowned (hp : tileOwner s k = none) : ∃ t, scrubNext s k .double w = t ∧ Touch [.tiles, .mem] s t ∧
    (getTile t k).counters.eccUncorr = min ((getTile s k).counters.eccUncorr + 1) 4294967295 ∧
    (getTile t k).counters.collision = (if w = .collided then min ((getTile s k).counters.collision + 1) 4294967295
      else (getTile s k).counters.collision) ∧
    ∀ b, Memory.read t.mem b = if w = .landed ∧ b / 8 = 2048 * k + (getTile s k).scrubPtr then 0 else Memory.read s.mem b := by
  have hb := fun m => (((scrubMoved_becomes k hs).bumpTile (fun c => { c with eccUncorr := satInc c.eccUncorr })).withMem m).collide
    (decide (w = .collided))
  have htouch : Touch [.tiles] s (bumpTile (scrubMoved s k) k (fun c => { c with eccUncorr := satInc c.eccUncorr })) :=
    (updTile_keeps _ _ _).touch.step (bumpTile_keeps _ _ _).touch (by decide)
  have hfound := scrubFound_of_unowned hp
  generalize bumpTile (scrubMoved s k) k (fun c => { c with eccUncorr := satInc c.eccUncorr }) = v at hb htouch hfound
  have hnext : scrubNext s k .double w = collide
      { v with mem := (if w = .landed then Memory.clear s.mem (fun a => decide (a / 8 = 2048 * k + (getTile s k).scrubPtr)) else s.mem) } k
      (decide (w = .collided)) := by
    rw [scrubNext_of_lit .double w hin, hfound, show (decide (w = .collided) && decide (EccRead.double ≠ .clean)) = decide (w = .collided) from Bool.and_true _]
  refine ⟨_, hnext, writtenBack_touch htouch _ _ _, ?_, ?_, fun b => ?_⟩
  · rw [(hb _).tile]
    cases w <;> rfl
  · rw [(hb _).tile]
    cases w <;> rfl
  · rw [(collide_keeps _ _ _).touch.mem_eq]
    dsimp only
    split
    next hw => simp [Memory.read_clear, hw]
    next hw => simp [hw]

end Scrub

theorem scrubNext_double_claimed {s : State} {k : Nat} {w : WriteBack} {p : PartId} (hin : tileInService s k = true) (hp : tileOwner s k = some p) (hf : isFault s.parts[p].state = false)
    (hc : ((s.parts[p].fabric.claims).filter (claimHolds k (getTile s k).scrubPtr)).any (fun c => decide (c.use = .inUse)) = true) :
    ∃ t, scrubNext s k .double w = t ∧ standsInFault t p .faultMem cMemUncorrectable ∧ t.mem = s.mem := by
  have hfound := scrubFound_of_claimed hp hc
  have hmem : (scrubFound s k .double).mem = s.mem := by
    rw [hfound]
    exact (eccActive_keeps _ _ _ _).touch.mem_eq
  have hstands : standsInFault (scrubFound s k .double) p .faultMem cMemUncorrectable := by
    rw [hfound]
    exact faultEntry_stands _ p .faultMem cMemUncorrectable _ hf
  refine ⟨_, scrubNext_of_lit .double w hin, ?_, ?_⟩
  · exact hstands.of_parts (collide_keeps _ _ _).touch.parts_eq
  · rw [(collide_keeps _ _ _).touch.mem_eq]
    dsimp only
    rw [hmem, ite_self]

/-- Settles O17. -/
theorem tilesTakeFlitsCreditsAndScrubReads : Obligations.TilesTakeFlitsCreditsAndScrubReads := by
  unfold Obligations.TilesTakeFlitsCreditsAndScrubReads
  intro a k s hup hex hk
  subst hk
  refine ⟨fun pt w e h => exec_flitReceived_of hup hex (receiveFlit_of_invalid pt e h),
    fun d w e h => ⟨exec_flitReceived_of hup hex (receiveFlit_of_closed w e h), exec_creditFlitReceived_of hup hex (receiveCredits_of_closed w h)⟩,
    ?_, ?_, fun h o => exec_backgroundScrub_of hup hex (scrubNext_of_dark _ _ h), fun w hs hin => ⟨?_, ?_, ?_, ?_⟩⟩
  · intro p pt w e f i back hp hs ho hf hq hi hback
    subst hi
    have htake : ∀ u, takeFlit s p (tileKey a.x a.y) pt f = u → exec (.flitReceived a pt w e) s = .next (back u) := by
      rintro _ rfl
      rw [hback]
      refine (exec_flitReceived_of hup hex (receiveFlit_of_open hf hp hs ho hq)).trans (congrArg Host.Outcome.next ?_)
      cases pt <;> rfl
    exact ⟨fun hg hr hl he hroom => htake _ ((takeFlit_of_data (by omega)).trans (latchFlit_of_enabled hg hr hl he hroom)),
      fun hg hl he => htake _ ((takeFlit_of_data (by omega)).trans (latchFlit_of_disabled hg hl he)),
      fun h => htake _ (takeFlit_of_meaningless h),
      fun n pp x y hg hl => htake _ ((takeFlit_of_data (by omega)).trans (latchFlit_of_gateway hg hl))⟩
  · intro p d w f hp hs ho hf
    refine ⟨fun h => exec_creditFlitReceived_of hup hex (receiveCredits_of_data hf h), fun h hst => ?_⟩
    have hb := (TileBecomes.refl (tileKey a.x a.y) hst).updTile (takeCredits4 d (flitData f))
    refine ⟨_, exec_creditFlitReceived_of hup hex (receiveCredits_of_open hf hp hs ho h), (updTile_keeps _ _ _).touch, hb.rest, fun l => ?_⟩
    rw [hb.tile]
    exact takeCredits4_credits d _ _ l
  · obtain ⟨t, ht, hrest⟩ := scrubNext_clean (w := w) hs hin
    exact ⟨t, exec_backgroundScrub_of hup hex ht, hrest⟩
  · obtain ⟨t, ht, hrest⟩ := scrubNext_single (w := w) hs hin
    exact ⟨t, exec_backgroundScrub_of hup hex ht, hrest⟩
  · intro hp
    obtain ⟨t, ht, hrest⟩ := scrubNext_double_unowned (w := w) hs hin hp
    exact ⟨t, exec_backgroundScrub_of hup hex ht, hrest⟩
  · intro p hp hf hc
    obtain ⟨t, ht, hrest⟩ := scrubNext_double_claimed (w := w) hin hp hf hc
    exact ⟨t, exec_backgroundScrub_of hup hex ht, hrest⟩

end Sys2Proof.Machine
end

