-- ==== Sys2Proof/Proofs/Completions.lean ====
section
/-! Commands complete, each with its own effect: O60. -/

namespace Sys2Proof.Machine

-- One proof at a time: a default argument that is a tactic waits for every proof before it.
set_option Elab.async false

theorem refuseBay_good (s : State) (b : BayId) (code : Nat) : (refuseBay s b code).bays[b].good = s.bays[b].good :=
  (congrArg Bay.good (refuseBay_bay s b code) :)

theorem takeIdentity_good (s : State) (b : BayId) (counters : List Byte) (armed : Fin 4) :
    (takeIdentity s b counters armed).bays[b].good = s.bays[b].good := (congrArg Bay.good (takeIdentity_bay s b counters armed) :)

/-- Whatever the identity check finds, the bay's power stays good. -/
theorem checkIdentity_good (s : State) (b : BayId) (o : IdentityObs) : (checkIdentity s b o).bays[b].good = s.bays[b].good := by
  have hsaid : ∀ (u : State) (t : SeTalk), (updBay u b (fun x => { x with seSent := t.sent })).bays[b].good = u.bays[b].good :=
    fun u t => (congrArg Bay.good (updBay_at u b _) :)
  have hread : ∀ id : BitVec 64, (updBay s b (fun x => { x with id := id })).bays[b].good = s.bays[b].good :=
    fun id => (congrArg Bay.good (updBay_at s b _) :)
  unfold checkIdentity
  extract_lets said
  split
  next => exact (refuseBay_good _ _ _).trans (hsaid _ _)
  next =>
    extract_lets s1
    split
    · exact (refuseBay_good _ _ _).trans ((hsaid _ _).trans (hread _))
    · split
      next => exact (refuseBay_good _ _ _).trans ((hsaid _ _).trans (hread _))
      next =>
        split
        next => exact (refuseBay_good _ _ _).trans ((hsaid _ _).trans (hread _))
        next => exact (takeIdentity_good _ _ _ _).trans ((hsaid _ _).trans (hread _))

section Completions

variable {s : State} (hup : s.glb.phase = .up)
include hup

theorem exec_bayPowerGood_good {b : BayId} (o : IdentityObs) (hp : s.bays[b].power = true) (hg : s.bays[b].good = false) :
    ∃ t, exec (.bayPowerGood b o) s = .next t ∧ t.bays[b].good = true :=
  ⟨_, exec_bayPowerGood_of_power hup hp hg, (checkIdentity_good _ b o).trans (congrArg Bay.good (updBay_at s b _) :)⟩

theorem exec_verdictRelease_completes {p : PartId} {i : Image} {tok : VToken} {toks : List VToken} {w : Window} {ws : List Window} {last : Nat}
    (hs : isServing s.parts[p].state = true) (hi : s.parts[p].active = some i) (ht : s.parts[p].flow.tokens = tok :: toks)
    (hw : s.parts[p].flow.windows = w :: ws) (hl : w.tLast = some last)
    (hdue : ∀ r, s.parts[p].flow.lastRelease = some r → r + (imgContract i).verdictInterval ≤ now s) :
    ∃ t, exec (.verdictRelease p) s = .next t ∧ t.parts[p].regs.vrd = s.parts[p].regs.vrd + 1 ∧ t.parts[p].flow.tokens = toks ∧
      t.parts[p].flow.windows = ws := by
  obtain ⟨hrelease, -⟩ := verdictsPairTokensAndPulsesEnd
  obtain ⟨hrelease, -⟩ := hrelease p i s hup hi
  obtain ⟨t, h, -, -, hvrd, -, htok, hwin, -⟩ := hrelease tok toks w ws last hs ht hw hl hdue
  exact ⟨t, h, hvrd, htok, hwin⟩

theorem exec_pinPulseEnd_completes {n : PinId} {e : PinEntry} (hp : s.pins[n].pulsing = true)
    (he : (s.pins[n].pulseEntry <|> s.pins[n].entry) = some e) (hover : s.pins[n].pulseAt + e.pulseNs ≤ now s) :
    ∃ t, exec (.pinPulseEnd n) s = .next t ∧ t.pins[n].pulsing = false := by
  obtain ⟨-, hend⟩ := verdictsPairTokensAndPulsesEnd
  obtain ⟨-, hend⟩ := hend n s hup
  obtain ⟨-, hend⟩ := hend e hp he
  obtain ⟨t, h, -, hoff, -⟩ := hend hover
  exact ⟨t, h, hoff⟩

section Tiles

variable {x : TileAt} (hex : tileExists x = true)
include hex

theorem exec_flitReceived_completes {p : PartId} {d : Dir} {w : Wires} (e : EccRead) {f : Flit} (hp : tileOwner s (tileKey x.x x.y) = some p)
    (hs : isServing s.parts[p].state = true) (ho : linkOpen s (tileKey x.x x.y) d = some true) (hf : decodeWires w = some f) (hl : flitLane f < 6)
    (hg : gatewayPlace s p (tileKey x.x x.y) = none) (hr : runsHere s (tileKey x.x x.y) = some p)
    (he : (activeCtx (getTile s (tileKey x.x x.y))).route[fifo (dirIdx d).val (flitLane f)].enable = true)
    (hroom : (getTile s (tileKey x.x x.y)).inputs[fifo (dirIdx d).val (flitLane f)].length < 4)
    (hq : (s.parts[p].fabric.queues).any (fun q => q.tile = tileKey x.x x.y && decide (q.cfg.lane = flitLane f)) = false) :
    exec (.flitReceived x (.side d) w e) s = .next (ackSender (pumpTile (updTile s (tileKey x.x x.y) (fun t =>
      { t with inputs := t.inputs.set (fifo (dirIdx d).val (flitLane f)) (t.inputs[fifo (dirIdx d).val (flitLane f)] ++ [f]) }))
        (tileKey x.x x.y)) (tileKey x.x x.y) d w) := by
  have hopen : ∀ d', Port.side d = .side d' → linkOpen s (tileKey x.x x.y) d' = some true := fun d' hd => Port.side.inj hd ▸ ho
  have htake := (takeFlit_of_data (pt := .side d) (by omega : flitLane f ≠ 7)).trans (latchFlit_of_enabled (port := (dirIdx d).val) hg hr hl he hroom)
  exact (exec_flitReceived_of hup hex (receiveFlit_of_open hf hp hs hopen hq)).trans (by rw [htake]; rfl)

theorem exec_backgroundScrub_completes (wr : WriteBack) (hin : tileInService s (tileKey x.x x.y) = true) (hs : storeOk s) :
    ∃ t, exec (.backgroundScrub x ⟨.clean, wr⟩) s = .next t ∧
      (getTile t (tileKey x.x x.y)).scrubPtr = ((getTile s (tileKey x.x x.y)).scrubPtr + 1) % 2048 := by
  obtain ⟨t, ht, -, -, htile⟩ := scrubNext_clean (w := wr) hs hin
  exact ⟨t, exec_backgroundScrub_of hup hex ht, congrArg Tile.scrubPtr htile⟩

end Tiles

section Bays

variable (b : BayId)

/-- The steps of an insertion and of its end. -/
theorem insertion_completes :
    (s.bays[b].presence = .absent → ∃ t, exec (.presenceAsserted b) s = .next t ∧ t.bays[b].presence = .debouncing) ∧
    (s.bays[b].presence = .debouncing → ∃ t, exec (.presenceDebounceEnd b) s = .next t ∧ t.bays[b].power = true) ∧
    (∀ w g, s.bays[b].good = true → s.bays[b].perst = true →
      ∃ t, exec (.perstRelease b w g) s = .next t ∧ t.bays[b].perst = false ∧ t.bays[b].linkWidth = w) ∧
    (s.bays[b].presence = .inserted → s.parts[b].load = none → ∃ t, exec (.removed b) s = .next t ∧ t.bays[b] = {}) ∧
    (s.bays[b].power = true → ∃ t, exec (.overcurrent b) s = .next t ∧ t.bays[b].power = false ∧ t.bays[b].cause = 1) := by
  obtain ⟨hin, hout⟩ := baysPowerUpInOrderAndEmptyOnRemoval
  obtain ⟨hassert, hdebounce, -, hperst, -⟩ := hin b s hup
  obtain ⟨hremoved, -, hover⟩ := hout b s hup
  refine ⟨fun h => ?_, fun h => ?_, fun w g h hp => ?_, fun h hl => ?_, fun h => ?_⟩
  · obtain ⟨t, ht, -, hbay⟩ := hassert h
    exact ⟨t, ht, (congrArg Bay.presence hbay :)⟩
  · obtain ⟨t, ht, -, hbay⟩ := hdebounce h
    exact ⟨t, ht, (congrArg Bay.power hbay :)⟩
  · obtain ⟨t, ht, -, hbay⟩ := hperst w g h hp
    exact ⟨t, ht, (congrArg Bay.perst hbay :), (congrArg Bay.linkWidth hbay :)⟩
  · obtain ⟨t, ht, hbay, -⟩ := hremoved h hl
    exact ⟨t, ht, hbay⟩
  · obtain ⟨t, ht, -, hoff, -, -, -, hcause, -⟩ := hover h
    exact ⟨t, ht, hoff, hcause⟩

theorem exec_nvmeReady_completes {o : NvmeObs} (ht : s.bays[b].nvme = .training) (hid : s.bays[b].identityDone = true) (hc : s.bays[b].cause = 0)
    (h1 : 63 ≤ o.mqes) (h2 : o.capTo ≤ 1) (h3 : 128 ≤ o.mdtsKiB) (hserv : s.glb.serviceOnly = false) (hdir : directoryOk o.directory = true)
    (hp : (readSlot o.directory s.bays[b].armed.val).present = true) (hcrc : (readSlot o.directory s.bays[b].armed.val).crcOk = true)
    (hd : duplicateId s b s.bays[b].id = false) :
    ∃ t, exec (.nvmeReady b o) s = .next t ∧ t.bays[b].accepted = true ∧ t.bays[b].nvme = .ready := by
  obtain ⟨huse, -⟩ := cartridgesAreTakenIntoUseThenHandedOver
  obtain ⟨-, huse⟩ := huse b o s hup ht
  obtain ⟨-, huse, -⟩ := huse hid hc h1 h2 h3
  obtain ⟨t, h, hacc, -, hready, -⟩ := huse hserv hdir hp hcrc hd
  exact ⟨t, h, hacc, hready⟩

/-- Either failure of a command resets the controller and retries it. -/
theorem first_failure_completes {c : NvmeCmd} (hout : cmdOut s b c = true) (hfirst : c ∉ s.bays[b].retried) {i : Instr}
    (hi : i ∈ [Instr.nvmeCommandTimeout ⟨b, c⟩, .nvmeCommandCompletion ⟨b, c⟩ false]) :
    ∃ t, exec i s = .next t ∧ t.bays[b].resets = s.bays[b].resets + 1 := by
  obtain ⟨hcmd, -⟩ := mediaFailuresEndUseAndWearIsRecorded
  obtain ⟨-, hcmd⟩ := hcmd b c s hup
  obtain ⟨-, hfail⟩ := hcmd hout
  obtain ⟨hretry, -⟩ := hfail i hi
  obtain ⟨t, h, -, hbay⟩ := hretry hfirst
  exact ⟨t, h, (congrArg Bay.resets hbay :)⟩

theorem wear_completes :
    (s.bays[b].good = true → s.bays[b].identityDone = true → (s.bays[b].cause = 0 ∨ 5 < s.bays[b].cause) →
      ∃ t, exec (.poweredHour b) s = .next t ∧ t.bays[b].hours = min (s.bays[b].hours + 1) (2 ^ 32 - 1)) ∧
    (∀ c u, s.bays[b].good = true → s.bays[b].identityDone = true → (s.bays[b].nvme = .ready ∨ s.bays[b].nvme = .done) →
      ∃ t, exec (.smartReadPeriod b c u) s = .next t ∧ t.bays[b].smartCritical = c ∧ t.bays[b].smartUsed = u) ∧
    (s.bays[b].accepted = true → s.bays[b].power = true → s.bays[b].stateWrites < 100000 →
      ∃ t, exec (.periodicLifeRecord b) s = .next t ∧ t.bays[b].stateWrites = s.bays[b].stateWrites + 1) := by
  obtain ⟨-, hwear⟩ := mediaFailuresEndUseAndWearIsRecorded
  obtain ⟨hhour, hsmart, hlife, -⟩ := hwear b s hup
  refine ⟨fun hg hid hc => ?_, fun c u hg hid hn => ?_, fun ha hp hw => ?_⟩
  · obtain ⟨t, h, -, hbay⟩ := hhour hg hid hc
    exact ⟨t, h, (congrArg Bay.hours hbay :)⟩
  · obtain ⟨t, h, -, hcrit, hused, -⟩ := hsmart c u hg hid hn
    exact ⟨t, h, hcrit, hused⟩
  · obtain ⟨t, r, h, -, hwrites, -⟩ := hlife ha hp hw
    exact ⟨t, h, hwrites⟩

end Bays

section Loads

variable (p : PartId)

theorem requests_complete :
    (∀ o, s.glb.serviceOnly = false → s.bays[p].accepted = true → s.parts[p].flow.lupin.isSome = true →
      ∃ t, exec (.reload p o) s = .next t ∧ t.parts[p].queued = some .hostReload) ∧
    (∀ o, s.bays[p].accepted = true → s.bays[p].nvme = .ready → s.glb.serviceOnly = false → isServing s.parts[p].state = false →
      exec (.loadHandover p o) s = .next (loadRequest (updBay s p (fun x => { x with nvme := .done })) p .insertion o)) := by
  constructor
  · intro o hserv hacc hlup
    obtain ⟨-, hreload⟩ := loadCommandsAreRefusedQueuedOrBegun
    obtain ⟨hqueue, -⟩ := hreload p o s hup hserv hacc
    obtain ⟨t, h, -, hpart, -⟩ := hqueue (.inl hlup)
    exact ⟨t, h, (congrArg Partition.queued hpart :)⟩
  · intro o hacc hready hserv hidle
    obtain ⟨-, hhand⟩ := cartridgesAreTakenIntoUseThenHandedOver
    obtain ⟨-, hhand⟩ := hhand p o s hup hacc hready hserv
    exact hhand (.inl hidle)

variable {l : Load} (hl : s.parts[p].load = some l)

include hl in
theorem load_stages_complete :
    (l.phase = .preScrub → ∃ t, exec (.preLoadScrubDone p []) s = .next t ∧ t.parts[p].state = .loading) ∧
    (∀ cipher tag text, l.phase = .streaming → l.checked = false → l.chunk < chunkCount l.slot →
      openChunk l.slot l.key l.chunk cipher tag = some text →
      ∃ t m, exec (.chunkDecrypted p cipher tag) s = .next t ∧ t.parts[p].load = some m ∧ m.chunk = l.chunk + 1) := by
  obtain ⟨hlanes, hstream⟩ := streamsStartOnFreeLanesAndStopAtBadChunks
  constructor
  · intro hp
    obtain ⟨-, -, hscrub⟩ := hlanes p l s hup hl
    obtain ⟨t, h, hst, -⟩ := hscrub hp
    exact ⟨t, h, hst⟩
  · intro cipher tag text hp hc hn htext
    obtain ⟨hnext, -⟩ := hstream p l s hup hl hp hc
    obtain ⟨t, m, h, -, hpart, hchunk, -⟩ := hnext cipher tag text hn htext
    exact ⟨t, m, h, (congrArg Partition.load hpart :), hchunk⟩

include hl in
theorem release_stages_complete {k : Nat} (hlup : s.parts[p].flow.lupin = some k) :
    (k < 3 → ∃ t, exec (.lupinStageAck p none) s = .next t ∧ t.parts[p].flow.lupin = some (k + 1)) ∧
    (3 ≤ k → ∃ t, exec (.lupinStageAck p none) s = .next t ∧ t.parts[p].state = .running ∧ t.parts[p].active = some l.image) := by
  obtain ⟨hrelease, -⟩ := commitPointsRunTheNewImage
  obtain ⟨hnext, hlast, -⟩ := hrelease p k s hup hlup
  constructor
  · intro hk
    obtain ⟨t, h, -, hpart⟩ := hnext l hl hk
    exact ⟨t, h, (congrArg (fun x : Partition => x.flow.lupin) hpart :)⟩
  · intro hk
    obtain ⟨t, h, hst, hact, -⟩ := hlast l hl hk
    exact ⟨t, h, hst, hact⟩

theorem unload_completes :
    (s.parts[p].flow.drain = some .unload → s.parts[p].flow.drained = false → s.sup.activating = false → drainedOut s p = true →
      ∃ t, exec (.drainComplete p) s = .next t ∧ t.parts[p].active = none ∧ t.parts[p].flow.scrub = some .toEmpty) ∧
    (s.parts[p].flow.scrub = some .toEmpty → censusBusy s.parts[p].census = false → s.parts[p].load = none →
      ∃ t, exec (.unloadScrubDone p []) s = .next t ∧ t.parts[p].state = .empty) := by
  obtain ⟨hdrain, hscrub⟩ := drainsEndEmptyAndScrubsGiveRegionsBack
  constructor
  · intro hd hdone hidle hout
    obtain ⟨-, -, hend⟩ := hdrain p .unload s hup hidle hd hdone
    obtain ⟨t, h, hact, hs, -⟩ := hend hout List.mem_cons_self
    exact ⟨t, h, hact, hs⟩
  · intro hs hcen hl
    obtain ⟨hend, -⟩ := hscrub p s hup
    obtain ⟨t, h, hst, -⟩ := hend [] hs hcen hl
    exact ⟨t, h, hst⟩

end Loads

end Completions

/-- Settles O60: each clause is a lemma above, which takes it from the statement on its command. -/
theorem commandsCompleteWithTheirEffect : Obligations.CommandsCompleteWithTheirEffect := by
  unfold Obligations.CommandsCompleteWithTheirEffect
  intro s hup
  refine ⟨?_, ?_, fun p i tok toks w ws last hs hi ht hw hl hdue => exec_verdictRelease_completes hup hs hi ht hw hl hdue,
    fun n e hp he hover => exec_pinPulseEnd_completes hup hp he hover, fun b => ?_, fun p => ?_⟩
  · intro x k p d w e f i hex hk hp hs ho hf hi
    subst hk hi
    exact ⟨fun hl hg hr he hroom hq => exec_flitReceived_completes hup hex e hp hs ho hf hl hg hr he hroom hq,
      fun hl => exec_creditFlitReceived_of hup hex (receiveCredits_of_open hf hp hs ho hl)⟩
  · intro x k wr hex hk hin hs
    subst hk
    exact exec_backgroundScrub_completes hup hex wr hin hs
  · obtain ⟨hassert, hdebounce, hperst, hremoved, hover⟩ := insertion_completes hup b
    obtain ⟨hhour, hsmart, hlife⟩ := wear_completes hup b
    exact ⟨hassert, hdebounce, fun o hp hg => exec_bayPowerGood_good hup o hp hg, hperst,
      fun o ht hid hc h1 h2 h3 hserv hdir hp hcrc hd => exec_nvmeReady_completes hup b ht hid hc h1 h2 h3 hserv hdir hp hcrc hd,
      fun c hout hfirst => ⟨first_failure_completes hup b hout hfirst List.mem_cons_self,
        first_failure_completes hup b hout hfirst (List.mem_cons_of_mem _ List.mem_cons_self)⟩,
      hremoved, hover, hhour, hsmart, hlife⟩
  · obtain ⟨hreload, hhandover⟩ := requests_complete hup p
    obtain ⟨hdrain, hscrub⟩ := unload_completes hup p
    refine ⟨hreload, hhandover, fun l hl => ?_, hdrain, hscrub⟩
    obtain ⟨hpre, hchunk⟩ := load_stages_complete hup p hl
    exact ⟨hpre, hchunk, fun k hlup => (release_stages_complete hup p hl hlup).1, fun k hlup => (release_stages_complete hup p hl hlup).2⟩

end Sys2Proof.Machine
end
